-- ==== Sys2Proof/Word.lean ====
section
/-! DEFINITION. Word: the bit patterns of the machine and the sparse map its state is held in. -/

namespace Sys2Proof

/-- A 32-bit register or memory word (R39). -/
abbrev Word := BitVec 32

/-- A 64-bit value, an even-aligned register pair (R5). -/
abbrev Dword := BitVec 64

/-- A byte, the unit of memory (R245). -/
abbrev Byte := BitVec 8

/-- A sparse map from numbers: keys strictly rising, no entry equal to the value an unlisted key has. -/
abbrev SMap (α : Type) := List (Nat × α)

/-- Memory: a sparse map of bytes (Host.Cell). -/
abbrev Mem := SMap Byte

/-- `n` times 64 KiB, the granule of SCR and SPC (R31). -/
def granules (n : Nat) : Nat := n * 65536

end Sys2Proof
end

