-- ==== Sys2Proof/Config.lean ====
section
/-! DEFINITION. Config: what an implementation fixes, and the free values. An opaque constant here has no value that
Lean can see: what the manual leaves open is one of these applied to the operands it depends on, or to the counter
`free` of the state (log entries 1, 6, 7, 8, 12). -/

namespace Sys2Proof.Config

/-- A choice the manual leaves to the device (the next step, the order of racing lanes); taken modulo the number of
choices. Log entry 1. -/
opaque freePick : Nat → Nat

/-- Elapsed picoseconds of a wait that nothing else measures. Log entry 6. -/
opaque freeTime : Nat → Nat

/-- A bit pattern nobody states (a gauge, a value the device chooses). Log entry 1. -/
opaque freeBits : Nat → Nat

/-- The bits of special function number `fn` (Table 06.7) for an input pattern, before the bound of the table is
applied. A function of the input bits alone (R133). Log entry 7. -/
opaque specialBits : Nat → Word → Word

/-- The second-level-cache slice, 0 to 63, of a physical sector: fixed and not published (R366). Log entry 12. -/
opaque sliceOf : Nat → Nat

/-- The column that is home to a physical sector (R366). Log entry 12. -/
opaque homeColumn : Nat → Nat

/-- SHAKE256 of a byte string, with an output length in bytes (FIPS 202), as a number. Log entry 8. -/
opaque shake256 : List Byte → Nat → Nat

/-- SLH-DSA-SHAKE-256s verification (FIPS 205) of a signed stage; the public key it carries, as bytes, when it
verifies. Log entry 8. -/
opaque slhVerify : List Byte → Option (List Byte)

/-- The identity key's public part, derived from the fused secret and M (R346). Log entry 8. -/
opaque identityKey : Nat → List Byte

/-- The SLH-DSA-SHAKE-256f signature of a report under the identity key of M (R346). Log entry 8. -/
opaque identitySign : Nat → List Byte → List Byte

/-- The version number a firmware image carries (R345). Log entry 8. -/
opaque imageVersion : List Byte → Nat

/-- The package's firmware stages at power-up, as the firmware store held them (R345). Log entry 8. -/
opaque bootStages : List (List Byte)

/-- The 256-bit key hash in fuse `i` (R345). Log entry 8. -/
opaque keyHash : Nat → Nat

end Sys2Proof.Config
end

