-- ==== Sys2Proof/Syntax.lean ====
section
/-! DEFINITION. Syntax: one constructor per row of spec/opcode_table.json. A word constructor carries its
encoded fields as numbers, under the letters the table gives them, and its modifier word if one follows (R80).
A constructor without an encoding is a device step or a host event (table rows 209 to 313); its arguments say
where it happens and what the host wrote. -/

namespace Sys2Proof

/-- The fields of a modifier word (Table 03.5), as numbers; `scale` is the raw 5-bit field. -/
structure Modifier where
  c : Bool
  sat : Bool
  clp : Bool
  na : Bool
  nb : Bool
  aa : Bool
  ab : Bool
  scale : Nat
  kg : Nat
  gn : Bool
  hb : Bool
  ord : Nat
  scope : Nat
  rsv : Bool
  deriving DecidableEq, Repr

/-- Fields of NOP, EXIT, TRAPRET, BKPT, YIELD, FENCE and others; bits c [31]. -/
structure FC where
  c : Bool
  deriving DecidableEq, Repr

/-- Fields of TRAP; bits c [31], i [19:0]. -/
structure FTrap where
  c : Bool
  i : Nat
  deriving DecidableEq, Repr

/-- Fields of IADD, ISUB, IMUL, IMULH_U, IMULH_S, IMIN_S and others; bits c [31], h [23], d [22:16], a [15:9], b [8:2], m [1], n [0]. -/
structure FR where
  c : Bool
  h : Bool
  d : Nat
  a : Nat
  b : Nat
  m : Bool
  n : Bool
  deriving DecidableEq, Repr

/-- Fields of IABS, POPC, CLZ, BREV, MOV, FCLASS; bits c [31], h [23], d [22:16], a [15:9], m [1]. -/
structure FUn where
  c : Bool
  h : Bool
  d : Nat
  a : Nat
  m : Bool
  deriving DecidableEq, Repr

/-- Fields of IMAD, BFI, FFMA, HFMA2, BFMA2, DFMA; bits c [31], h [24], e [23], d [22:16], a [15:9], b [8:2], m [1], n [0]. -/
structure FRt where
  c : Bool
  h : Bool
  e : Bool
  d : Nat
  a : Nat
  b : Nat
  m : Bool
  n : Bool
  deriving DecidableEq, Repr

/-- Fields of IADDI, ANDI, ORI, XORI, MULI; bits c [31], m [23], d [22:16], a [15:9], i [8:0]. -/
structure FI where
  c : Bool
  m : Bool
  d : Nat
  a : Nat
  i : Nat
  deriving DecidableEq, Repr

/-- Fields of SHLI, SHRI, SARI; bits c [31], m [23], d [22:16], a [15:9], i [4:0]. -/
structure FSh where
  c : Bool
  m : Bool
  d : Nat
  a : Nat
  i : Nat
  deriving DecidableEq, Repr

/-- Fields of LI, LIU, LHI; bits c [31], d [22:16], i [15:0]. -/
structure FL where
  c : Bool
  d : Nat
  i : Nat
  deriving DecidableEq, Repr

/-- Fields of SETX; bits c [31], a [19:13], m [12], x [11:10], i [9:0]. -/
structure FSetx where
  c : Bool
  a : Nat
  m : Bool
  x : Nat
  i : Nat
  deriving DecidableEq, Repr

/-- Fields of MOVX_R; bits c [31], d [19:13], m [12], x [11:10], i [9:0]. -/
structure FMovr where
  c : Bool
  d : Nat
  m : Bool
  x : Nat
  i : Nat
  deriving DecidableEq, Repr

/-- Fields of MOVX_W; bits c [31], s [19:13], m [12], x [11:10], i [9:0]. -/
structure FMovw where
  c : Bool
  s : Nat
  m : Bool
  x : Nat
  i : Nat
  deriving DecidableEq, Repr

/-- Fields of WIN; bits c [31], l [15:8], b [7:0]. -/
structure FWin where
  c : Bool
  l : Nat
  b : Nat
  deriving DecidableEq, Repr

/-- Fields of ICMP_S, ICMP_U, FCMP; bits c [31], p [24:22], k [21:16], a [15:9], b [8:2], m [1], n [0]. -/
structure FP where
  c : Bool
  p : Nat
  k : Nat
  a : Nat
  b : Nat
  m : Bool
  n : Bool
  deriving DecidableEq, Repr

/-- Fields of PAND, POR, PXOR, PANDN; bits c [31], k [22:17], j [16:11], l [10:5], x [4], y [3]. -/
structure FPl where
  c : Bool
  k : Nat
  j : Nat
  l : Nat
  x : Bool
  y : Bool
  deriving DecidableEq, Repr

/-- Fields of KPACK; bits c [31], k [19:14], d [13:7], n [5:0]. -/
structure FKpack where
  c : Bool
  k : Nat
  d : Nat
  n : Nat
  deriving DecidableEq, Repr

/-- Fields of KUNPACK; bits c [31], k [19:14], a [13:7], m [6], n [5:0]. -/
structure FKunp where
  c : Bool
  k : Nat
  a : Nat
  m : Bool
  n : Nat
  deriving DecidableEq, Repr

/-- Fields of KSET; bits c [31], k [19:14], v [0]. -/
structure FKset where
  c : Bool
  k : Nat
  v : Bool
  deriving DecidableEq, Repr

/-- Fields of SMOV; bits c [31], d [21:16], a [15:10]. -/
structure FSmov where
  c : Bool
  d : Nat
  a : Nat
  deriving DecidableEq, Repr

/-- Fields of SLI; bits c [31], d [21:16], i [9:0]. -/
structure FSli where
  c : Bool
  d : Nat
  i : Nat
  deriving DecidableEq, Repr

/-- Fields of SADD, SSUB, SAND, SOR; bits c [31], d [21:16], a [15:10], b [5:0]. -/
structure FSop where
  c : Bool
  d : Nat
  a : Nat
  b : Nat
  deriving DecidableEq, Repr

/-- Fields of SSHL, SSHR; bits c [31], d [21:16], a [15:10], i [4:0]. -/
structure FSsh where
  c : Bool
  d : Nat
  a : Nat
  i : Nat
  deriving DecidableEq, Repr

/-- Fields of SMOVV; bits c [31], a [15:10], d [6:0]. -/
structure FSmovv where
  c : Bool
  a : Nat
  d : Nat
  deriving DecidableEq, Repr

/-- Fields of VMOVS; bits c [31], d [21:16], m [7], a [6:0]. -/
structure FVmovs where
  c : Bool
  d : Nat
  m : Bool
  a : Nat
  deriving DecidableEq, Repr

/-- Fields of SLD; bits c [31], d [21:16], a [15:10], i [9:0]. -/
structure FSld where
  c : Bool
  d : Nat
  a : Nat
  i : Nat
  deriving DecidableEq, Repr

/-- Fields of SCMP; bits c [31], k [21:16], a [15:10], u [9], p [8:6], b [5:0]. -/
structure FScmp where
  c : Bool
  k : Nat
  a : Nat
  u : Bool
  p : Nat
  b : Nat
  deriving DecidableEq, Repr

/-- Fields of BRA, CALL; bits c [31], k [24:19], g [18], d [17:0]. -/
structure FB where
  c : Bool
  k : Nat
  g : Bool
  d : Nat
  deriving DecidableEq, Repr

/-- Fields of JMPR, RET, CFLUSH, CINV, ZEXP; bits c [31], a [19:13], m [5]. -/
structure FA where
  c : Bool
  a : Nat
  m : Bool
  deriving DecidableEq, Repr

/-- Fields of FRND_NE, FRND_Z, FRND_P, FRND_M, F2I_S, F2I_U and others; bits c [31], d [19:13], a [12:6], m [5]. -/
structure FXv where
  c : Bool
  d : Nat
  a : Nat
  m : Bool
  deriving DecidableEq, Repr

/-- Fields of H2F, BF2F; bits c [31], d [19:13], a [12:6], m [5], s [0]. -/
structure FXh where
  c : Bool
  d : Nat
  a : Nat
  m : Bool
  s : Bool
  deriving DecidableEq, Repr

/-- Fields of E42F, E52F; bits c [31], d [19:13], a [12:6], m [5], s [1:0]. -/
structure FXe where
  c : Bool
  d : Nat
  a : Nat
  m : Bool
  s : Nat
  deriving DecidableEq, Repr

/-- Fields of D2I, I2D; bits c [31], d [19:13], a [12:6], m [5], u [0]. -/
structure FXu where
  c : Bool
  d : Nat
  a : Nat
  m : Bool
  u : Bool
  deriving DecidableEq, Repr

/-- Fields of DSUBF; bits c [31], d [19:13], a [12:7], b [6:1]. -/
structure FDsubf where
  c : Bool
  d : Nat
  a : Nat
  b : Nat
  deriving DecidableEq, Repr

/-- Fields of DMIN, DMAX; bits c [31], d [19:14], a [13:8], b [7:2]. -/
structure FDmin where
  c : Bool
  d : Nat
  a : Nat
  b : Nat
  deriving DecidableEq, Repr

/-- Fields of DCMP; bits c [31], k [19:14], a [13:8], b [7:2], p [1:0]. -/
structure FDcmp where
  c : Bool
  k : Nat
  a : Nat
  b : Nat
  p : Nat
  deriving DecidableEq, Repr

/-- Fields of LD, LDS, LDT; bits c [31], z [24:22], d [21:15], a [14:8], m [7], o [6:0]. -/
structure FLd where
  c : Bool
  z : Nat
  d : Nat
  a : Nat
  m : Bool
  o : Nat
  deriving DecidableEq, Repr

/-- Fields of ST, STS, STT; bits c [31], z [24:22], s [21:15], a [14:8], m [7], o [6:0]. -/
structure FSt where
  c : Bool
  z : Nat
  s : Nat
  a : Nat
  m : Bool
  o : Nat
  deriving DecidableEq, Repr

/-- Fields of ATOM_ADD, ATOM_MIN_S, ATOM_MIN_U, ATOM_MAX_S, ATOM_MAX_U, ATOM_AND and others; bits c [31], d [21:15], a [14:8], b [7:1], m [0]. -/
structure FAtom where
  c : Bool
  d : Nat
  a : Nat
  b : Nat
  m : Bool
  deriving DecidableEq, Repr

/-- Fields of PBINIT, PBARRIVE, PBEXPECT; bits c [31], a [19:13], b [12:6], m [5], n [4]. -/
structure FPb where
  c : Bool
  a : Nat
  b : Nat
  m : Bool
  n : Bool
  deriving DecidableEq, Repr

/-- Fields of PBWAIT; bits c [31], a [19:13], m [5], p [0]. -/
structure FPbw where
  c : Bool
  a : Nat
  m : Bool
  p : Bool
  deriving DecidableEq, Repr

/-- Fields of PBTEST; bits c [31], k [19:14], a [13:7], m [6], p [0]. -/
structure FPbt where
  c : Bool
  k : Nat
  a : Nat
  m : Bool
  p : Bool
  deriving DecidableEq, Repr

/-- Fields of WAITC; bits c [31], a [19:13], b [12:6], m [5], n [4], p [2:0]. -/
structure FWaitc where
  c : Bool
  a : Nat
  b : Nat
  m : Bool
  n : Bool
  p : Nat
  deriving DecidableEq, Repr

/-- Fields of LDSC; bits c [31], d [19:13], a [12:6], m [5], z [1:0]. -/
structure FLdsc where
  c : Bool
  d : Nat
  a : Nat
  m : Bool
  z : Nat
  deriving DecidableEq, Repr

/-- Fields of STSC; bits c [31], a [19:13], b [12:6], m [5], n [4], z [1:0]. -/
structure FStsc where
  c : Bool
  a : Nat
  b : Nat
  m : Bool
  n : Bool
  z : Nat
  deriving DecidableEq, Repr

/-- Fields of ATOMSC_ADD, ATOMSC_CAS; bits c [31], d [19:13], a [12:7], b [6:0]. -/
structure FAsc where
  c : Bool
  d : Nat
  a : Nat
  b : Nat
  deriving DecidableEq, Repr

/-- Fields of PREFETCH; bits c [31], a [19:13], m [5], l [1:0]. -/
structure FPref where
  c : Bool
  a : Nat
  m : Bool
  l : Nat
  deriving DecidableEq, Repr

/-- Fields of ACQ_B, REL; bits c [31], k [19:18], n [7:0]. -/
structure FAcq where
  c : Bool
  k : Nat
  n : Nat
  deriving DecidableEq, Repr

/-- Fields of ACQ_T; bits c [31], d [19:13], k [12:7], t [6:5], n [4:0]. -/
structure FAcqt where
  c : Bool
  d : Nat
  k : Nat
  t : Nat
  n : Nat
  deriving DecidableEq, Repr

/-- Fields of QPUT; bits c [31], a [19:13], b [12:6], m [5], n [4], t [3], q [2:0]. -/
structure FQput where
  c : Bool
  a : Nat
  b : Nat
  m : Bool
  n : Bool
  t : Bool
  q : Nat
  deriving DecidableEq, Repr

/-- Fields of QGET; bits c [31], d [19:13], q [2:0]. -/
structure FQget where
  c : Bool
  d : Nat
  q : Nat
  deriving DecidableEq, Repr

/-- Fields of QFREE; bits c [31], d [19:13], a [12:6], m [5], q [2:0]. -/
structure FQfree where
  c : Bool
  d : Nat
  a : Nat
  m : Bool
  q : Nat
  deriving DecidableEq, Repr

/-- Fields of TDEF; bits c [31], a [13:8], t [5:0]. -/
structure FTdef where
  c : Bool
  a : Nat
  t : Nat
  deriving DecidableEq, Repr

/-- Fields of TSTAT; bits c [31], k [19:14], t [5:0]. -/
structure FTstat where
  c : Bool
  k : Nat
  t : Nat
  deriving DecidableEq, Repr

/-- Fields of KICK, BANKJOB, SFREE, MMA, MSCA, MLOAD and others; bits c [31], a [13:8]. -/
structure FXu1 where
  c : Bool
  a : Nat
  deriving DecidableEq, Repr

/-- Fields of SULD, SUST, TEX, TEXL, TEXG, PICK; bits c [31], d [19:13], a [12:6], s [5:0]. -/
structure FXs where
  c : Bool
  d : Nat
  a : Nat
  s : Nat
  deriving DecidableEq, Repr

/-- Fields of CEXP; bits c [31], a [19:13], m [5], t [2:0]. -/
structure FCexp where
  c : Bool
  a : Nat
  m : Bool
  t : Nat
  deriving DecidableEq, Repr

/-- Fields of SALLOC; bits c [31], d [19:14], a [13:8]. -/
structure FSalloc where
  c : Bool
  d : Nat
  a : Nat
  deriving DecidableEq, Repr

/-- Fields of MZERO; bits c [31], s [2:0]. -/
structure FMzero where
  c : Bool
  s : Nat
  deriving DecidableEq, Repr

/-- Fields of MDRAIN; bits c [31], d [19:13], s [5:0]. -/
structure FMdrain where
  c : Bool
  d : Nat
  s : Nat
  deriving DecidableEq, Repr

/-- Fields of MSTAT; bits c [31], k [19:14], s [2:0]. -/
structure FMstat where
  c : Bool
  k : Nat
  s : Nat
  deriving DecidableEq, Repr

/-- Fields of EMIT; bits c [31], a [19:13], m [5], j [3:0]. -/
structure FEmit where
  c : Bool
  a : Nat
  m : Bool
  j : Nat
  deriving DecidableEq, Repr

/-- Fields of EMIT_T; bits c [31], k [19:14], a [13:7], m [6], j [3:0]. -/
structure FEmitt where
  c : Bool
  k : Nat
  a : Nat
  m : Bool
  j : Nat
  deriving DecidableEq, Repr

/-- Fields of SYSRD; bits c [31], d [19:13], a [12:6], n [5:0]. -/
structure FSysrd where
  c : Bool
  d : Nat
  a : Nat
  n : Nat
  deriving DecidableEq, Repr

/-- Fields of SYSWR; bits c [31], a [12:6], n [5:0]. -/
structure FSyswr where
  c : Bool
  a : Nat
  n : Nat
  deriving DecidableEq, Repr

/-- Fields of BALLOT; bits c [31], d [19:13], k [12:7]. -/
structure FBallot where
  c : Bool
  d : Nat
  k : Nat
  deriving DecidableEq, Repr

/-- Fields of KGOR, KGAND; bits c [31], k [19:14], j [13:8], n [7]. -/
structure FKg where
  c : Bool
  k : Nat
  j : Nat
  n : Bool
  deriving DecidableEq, Repr

/-- Fields of XFER_IDX; bits c [31], d [19:13], a [12:6], t [5:3]. -/
structure FXidx where
  c : Bool
  d : Nat
  a : Nat
  t : Nat
  deriving DecidableEq, Repr

/-- Fields of XFER_ROT, XFER_SH, XFER_FLIP; bits c [31], d [19:13], a [12:6], i [5:0]. -/
structure FXfer where
  c : Bool
  d : Nat
  a : Nat
  i : Nat
  deriving DecidableEq, Repr

/-- Fields of GSCAN_ADD; bits c [31], d [19:13], a [12:6], m [5], x [0]. -/
structure FScan where
  c : Bool
  d : Nat
  a : Nat
  m : Bool
  x : Bool
  deriving DecidableEq, Repr

/-- Fields of GPOS, GSIZE; bits c [31], d [19:13]. -/
structure FGpos where
  c : Bool
  d : Nat
  deriving DecidableEq, Repr

/-- Fields of GFIRST; bits c [31], k [19:14]. -/
structure FGfirst where
  c : Bool
  k : Nat
  deriving DecidableEq, Repr

/-- Fields of ENDRUN; bits j [24], y [23], r [22], w [15:0]. -/
structure FEnd where
  j : Bool
  y : Bool
  r : Bool
  w : Nat
  deriving DecidableEq, Repr

/-- The instructions: words 0x00 to 0x3E of Tables 04.2 and 04.4, then the device steps and host events. -/
inductive Instr where
  /-- Occupies a slot and an issue cycle with no effect (R118) -/
  | nop (f : FC)
  /-- Ends the thread, which then counts as arrived at every barrier of its group (R119) -/
  | exit (f : FC) (q : Option Modifier)
  /-- Traps SWTRAP with the zero-extended immediate in TRAPARG (R118) -/
  | trap (f : FTrap) (q : Option Modifier)
  /-- Resumes the interrupted thread from TRAPPC and TRAPSLOT under the cases of R30 (R30) -/
  | trapret (f : FC) (q : Option Modifier)
  /-- Traps BKPT with TRAPARG 0 (R118) -/
  | bkpt (f : FC) (q : Option Modifier)
  /-- Continues at the packet after the trailer and gives the quad the yield treatment (R118) -/
  | yield (f : FC) (q : Option Modifier)
  /-- Adds two signed 32-bit values (R101) -/
  | iadd (f : FR) (q : Option Modifier)
  /-- Subtracts two signed 32-bit values (R101) -/
  | isub (f : FR) (q : Option Modifier)
  /-- Multiplies two signed 32-bit values (R101) -/
  | imul (f : FR) (q : Option Modifier)
  /-- Returns the high 32 bits of an unsigned product (R101) -/
  | imulhU (f : FR) (q : Option Modifier)
  /-- Returns the high 32 bits of a signed product (R101) -/
  | imulhS (f : FR) (q : Option Modifier)
  /-- Returns the absolute value of a signed 32-bit value (R101) -/
  | iabs (f : FUn) (q : Option Modifier)
  /-- Computes a times b plus the old value of D (R102) -/
  | imad (f : FRt) (q : Option Modifier)
  /-- Returns the signed minimum (R101) -/
  | iminS (f : FR) (q : Option Modifier)
  /-- Returns the signed maximum (R101) -/
  | imaxS (f : FR) (q : Option Modifier)
  /-- Returns the unsigned minimum (R101) -/
  | iminU (f : FR) (q : Option Modifier)
  /-- Returns the unsigned maximum (R101) -/
  | imaxU (f : FR) (q : Option Modifier)
  /-- Bitwise AND (R101) -/
  | and (f : FR) (q : Option Modifier)
  /-- Bitwise OR (R101) -/
  | or (f : FR) (q : Option Modifier)
  /-- Bitwise XOR (R101) -/
  | xor (f : FR) (q : Option Modifier)
  /-- Computes a AND NOT b (R101) -/
  | andn (f : FR) (q : Option Modifier)
  /-- Shifts left by a register amount, giving 0 for amounts of 32 or more (R101) -/
  | shl (f : FR) (q : Option Modifier)
  /-- Shifts right logically by a register amount (R101) -/
  | shr (f : FR) (q : Option Modifier)
  /-- Shifts right arithmetically by a register amount (R101) -/
  | sar (f : FR) (q : Option Modifier)
  /-- Rotates left by the amount mod 32 (R101) -/
  | rot (f : FR) (q : Option Modifier)
  /-- Counts the 1 bits (R101) -/
  | popc (f : FUn) (q : Option Modifier)
  /-- Counts the leading 0 bits (R101) -/
  | clz (f : FUn) (q : Option Modifier)
  /-- Extracts a bit field, zero-extended (R103) -/
  | bfxU (f : FR) (q : Option Modifier)
  /-- Extracts a bit field, sign-extended (R103) -/
  | bfxS (f : FR) (q : Option Modifier)
  /-- Inserts a bit field into D (R103) -/
  | bfi (f : FRt) (q : Option Modifier)
  /-- Adds two 64-bit register pairs (R104) -/
  | iaddW (f : FR) (q : Option Modifier)
  /-- Subtracts two 64-bit register pairs (R104) -/
  | isubW (f : FR) (q : Option Modifier)
  /-- Adds a signed 9-bit immediate (R105) -/
  | iaddi (f : FI) (q : Option Modifier)
  /-- ANDs with a sign-extended immediate (R105) -/
  | andi (f : FI) (q : Option Modifier)
  /-- ORs with a sign-extended immediate (R105) -/
  | ori (f : FI) (q : Option Modifier)
  /-- XORs with a sign-extended immediate (R105) -/
  | xori (f : FI) (q : Option Modifier)
  /-- Shifts left by an immediate amount (R105) -/
  | shli (f : FSh) (q : Option Modifier)
  /-- Shifts right logically by an immediate amount (R105) -/
  | shri (f : FSh) (q : Option Modifier)
  /-- Shifts right arithmetically by an immediate amount (R105) -/
  | sari (f : FSh) (q : Option Modifier)
  /-- Multiplies by a signed immediate (R105) -/
  | muli (f : FI) (q : Option Modifier)
  /-- Reverses the bit order (R101) -/
  | brev (f : FUn) (q : Option Modifier)
  /-- Computes a plus 4 times b (R101) -/
  | lea (f : FR) (q : Option Modifier)
  /-- Writes a sign-extended 16-bit constant (R106) -/
  | li (f : FL) (q : Option Modifier)
  /-- Writes a zero-extended 16-bit constant (R106) -/
  | liu (f : FL) (q : Option Modifier)
  /-- Writes a 16-bit constant into bits 31:16 of D, keeping the low half (R106) -/
  | lhi (f : FL) (q : Option Modifier)
  /-- Copies source A to D (R107) -/
  | mov (f : FUn) (q : Option Modifier)
  /-- Writes a where the modifier guard is true and b where it is false (R107) -/
  | sel (f : FR) (q : Option Modifier)
  /-- Sets an index register to a plus an immediate (R108) -/
  | setx (f : FSetx) (q : Option Modifier)
  /-- Reads lane register x plus displacement into D after the window and count checks (R108) -/
  | movxR (f : FMovr) (q : Option Modifier)
  /-- Writes S into lane register x plus displacement after the window and count checks (R108) -/
  | movxW (f : FMovw) (q : Option Modifier)
  /-- Sets the thread's index window BASE and LIMIT (R108) -/
  | win (f : FWin) (q : Option Modifier)
  /-- Compares signed values into a predicate (R110) -/
  | icmpS (f : FP) (q : Option Modifier)
  /-- Compares unsigned values into a predicate (R110) -/
  | icmpU (f : FP) (q : Option Modifier)
  /-- ANDs two optionally negated predicates (R111) -/
  | pand (f : FPl) (q : Option Modifier)
  /-- ORs two optionally negated predicates (R111) -/
  | por (f : FPl) (q : Option Modifier)
  /-- XORs two optionally negated predicates (R111) -/
  | pxor (f : FPl) (q : Option Modifier)
  /-- Computes p AND NOT q on predicates (R111) -/
  | pandn (f : FPl) (q : Option Modifier)
  /-- Packs a range of predicates into a register (R112) -/
  | kpack (f : FKpack) (q : Option Modifier)
  /-- Unpacks register bits into a range of predicates (R112) -/
  | kunpack (f : FKunp) (q : Option Modifier)
  /-- Sets a predicate to an immediate bit (R112) -/
  | kset (f : FKset) (q : Option Modifier)
  /-- Copies a uniform register (R113) -/
  | smov (f : FSmov) (q : Option Modifier)
  /-- Loads a sign-extended 10-bit immediate into a uniform register (R113) -/
  | sli (f : FSli) (q : Option Modifier)
  /-- Adds two uniform registers (R113) -/
  | sadd (f : FSop) (q : Option Modifier)
  /-- Subtracts two uniform registers (R113) -/
  | ssub (f : FSop) (q : Option Modifier)
  /-- ANDs two uniform registers (R113) -/
  | sand (f : FSop) (q : Option Modifier)
  /-- ORs two uniform registers (R113) -/
  | sor (f : FSop) (q : Option Modifier)
  /-- Shifts a uniform register left by an immediate (R113) -/
  | sshl (f : FSsh) (q : Option Modifier)
  /-- Shifts a uniform register right with zero fill (R113) -/
  | sshr (f : FSsh) (q : Option Modifier)
  /-- Copies a uniform register into a lane register (R114) -/
  | smovv (f : FSmovv) (q : Option Modifier)
  /-- Copies the value of the lowest active guarded lane into a uniform register (R114) -/
  | vmovs (f : FVmovs) (q : Option Modifier)
  /-- Loads a scratchpad word into a uniform register, blocking (R114) -/
  | sld (f : FSld) (q : Option Modifier)
  /-- Compares two uniform registers into a predicate (R114) -/
  | scmp (f : FScmp) (q : Option Modifier)
  /-- Branches by a packet displacement when guard and predicate hold (R116) -/
  | bra (f : FB) (q : Option Modifier)
  /-- Writes the link to v110 and branches (R116) -/
  | call (f : FB) (q : Option Modifier)
  /-- Jumps to the packet number in a register (R117) -/
  | jmpr (f : FA) (q : Option Modifier)
  /-- Returns to the packet number in the link register (R117) -/
  | ret (f : FA) (q : Option Modifier)
  /-- Adds two binary32 values (R124) -/
  | fadd (f : FR) (q : Option Modifier)
  /-- Subtracts two binary32 values (R124) -/
  | fsub (f : FR) (q : Option Modifier)
  /-- Multiplies two binary32 values (R124) -/
  | fmul (f : FR) (q : Option Modifier)
  /-- Returns the binary32 minimum under R49 (R124) -/
  | fmin (f : FR) (q : Option Modifier)
  /-- Fused multiply-add of binary32 values with the old D (R124) -/
  | ffma (f : FRt) (q : Option Modifier)
  /-- Returns the binary32 maximum under R49 (R124) -/
  | fmax (f : FR) (q : Option Modifier)
  /-- Writes a one-hot class mask of a binary32 value (R125) -/
  | fclass (f : FUn) (q : Option Modifier)
  /-- Rounds to an integral value, ties to even (R128) -/
  | frndNe (f : FXv) (q : Option Modifier)
  /-- Rounds to an integral value toward zero (R128) -/
  | frndZ (f : FXv) (q : Option Modifier)
  /-- Rounds to an integral value toward plus infinity (R128) -/
  | frndP (f : FXv) (q : Option Modifier)
  /-- Rounds to an integral value toward minus infinity (R128) -/
  | frndM (f : FXv) (q : Option Modifier)
  /-- Converts binary32 to signed 32-bit by truncation, saturating (R129) -/
  | f2iS (f : FXv) (q : Option Modifier)
  /-- Converts binary32 to unsigned 32-bit by truncation, saturating (R129) -/
  | f2iU (f : FXv) (q : Option Modifier)
  /-- Converts a signed integer to binary32 (R128) -/
  | i2fS (f : FXv) (q : Option Modifier)
  /-- Converts an unsigned integer to binary32 (R128) -/
  | i2fU (f : FXv) (q : Option Modifier)
  /-- Converts binary32 to binary16 in the low half (R128) -/
  | f2h (f : FXv) (q : Option Modifier)
  /-- Converts a selected binary16 element to binary32 (R128) -/
  | h2f (f : FXh) (q : Option Modifier)
  /-- Converts binary32 to BF16 in the low half (R128) -/
  | f2bf (f : FXv) (q : Option Modifier)
  /-- Converts a selected BF16 element to binary32 (R128) -/
  | bf2f (f : FXh) (q : Option Modifier)
  /-- Converts binary32 to saturating E4M3 in the low byte (R128) -/
  | f2e4 (f : FXv) (q : Option Modifier)
  /-- Converts a selected E4M3 element to binary32 (R128) -/
  | e42f (f : FXe) (q : Option Modifier)
  /-- Converts binary32 to E5M2 in the low byte (R128) -/
  | f2e5 (f : FXv) (q : Option Modifier)
  /-- Converts a selected E5M2 element to binary32 (R128) -/
  | e52f (f : FXe) (q : Option Modifier)
  /-- Compares binary32 values into a predicate (R126) -/
  | fcmp (f : FP) (q : Option Modifier)
  /-- Adds two packed binary16 pairs (R127) -/
  | hadd2 (f : FR) (q : Option Modifier)
  /-- Multiplies two packed binary16 pairs (R127) -/
  | hmul2 (f : FR) (q : Option Modifier)
  /-- Packed binary16 fused multiply-add (R127) -/
  | hfma2 (f : FRt) (q : Option Modifier)
  /-- Packed BF16 fused multiply-add (R127) -/
  | bfma2 (f : FRt) (q : Option Modifier)
  /-- Adds two binary64 pairs (R130) -/
  | dadd (f : FR) (q : Option Modifier)
  /-- Multiplies two binary64 pairs (R130) -/
  | dmul (f : FR) (q : Option Modifier)
  /-- Binary64 fused multiply-add with the old D pair (R130) -/
  | dfma (f : FRt) (q : Option Modifier)
  /-- Rounds binary64 to binary32 (R131) -/
  | d2f (f : FXv) (q : Option Modifier)
  /-- Widens binary32 to binary64 exactly (R131) -/
  | f2d (f : FXv) (q : Option Modifier)
  /-- Converts binary64 to a 32-bit integer by truncation, saturating (R131) -/
  | d2i (f : FXu) (q : Option Modifier)
  /-- Converts a 32-bit integer to binary64 exactly (R131) -/
  | i2d (f : FXu) (q : Option Modifier)
  /-- Subtracts two binary64 values exactly and rounds once to binary32 (R132) -/
  | dsubf (f : FDsubf) (q : Option Modifier)
  /-- Returns the binary64 minimum (R131) -/
  | dmin (f : FDmin) (q : Option Modifier)
  /-- Returns the binary64 maximum (R131) -/
  | dmax (f : FDmin) (q : Option Modifier)
  /-- Compares binary64 values into a predicate (R131) -/
  | dcmp (f : FDcmp) (q : Option Modifier)
  /-- Computes a reciprocal within 1 ulp, never subnormal (R134) -/
  | rcp (f : FXv) (q : Option Modifier)
  /-- Computes a reciprocal square root (R133) -/
  | rsq (f : FXv) (q : Option Modifier)
  /-- Computes a correctly rounded square root (R133) -/
  | sqrt (f : FXv) (q : Option Modifier)
  /-- Computes 2 to the power x (R133) -/
  | ex2 (f : FXv) (q : Option Modifier)
  /-- Computes log2 x (R133) -/
  | lg2 (f : FXv) (q : Option Modifier)
  /-- Computes sin x (R133) -/
  | sin (f : FXv) (q : Option Modifier)
  /-- Computes cos x (R133) -/
  | cos (f : FXv) (q : Option Modifier)
  /-- Computes tanh x (R133) -/
  | tanh (f : FXv) (q : Option Modifier)
  /-- Computes a 32-bit mixing hash of two words (R135) -/
  | hmix (f : FR) (q : Option Modifier)
  /-- Issues a global or aperture load of the selected size, marking its destinations empty (R149) -/
  | ld (f : FLd) (q : Option Modifier)
  /-- Stores to a global or aperture address (R149) -/
  | st (f : FSt) (q : Option Modifier)
  /-- Issues a scratchpad load (R149) -/
  | lds (f : FLd) (q : Option Modifier)
  /-- Stores to the scratchpad window (R149) -/
  | sts (f : FSt) (q : Option Modifier)
  /-- Issues a tower-direct load (R149) -/
  | ldt (f : FLd) (q : Option Modifier)
  /-- Stores to tower-direct space (R149) -/
  | stt (f : FSt) (q : Option Modifier)
  /-- Atomically adds b to a word and returns the old word (R156) -/
  | atomAdd (f : FAtom) (q : Option Modifier)
  /-- Atomic signed minimum (R156) -/
  | atomMinS (f : FAtom) (q : Option Modifier)
  /-- Atomic unsigned minimum (R156) -/
  | atomMinU (f : FAtom) (q : Option Modifier)
  /-- Atomic signed maximum (R156) -/
  | atomMaxS (f : FAtom) (q : Option Modifier)
  /-- Atomic unsigned maximum (R156) -/
  | atomMaxU (f : FAtom) (q : Option Modifier)
  /-- Atomic AND (R156) -/
  | atomAnd (f : FAtom) (q : Option Modifier)
  /-- Atomic OR (R156) -/
  | atomOr (f : FAtom) (q : Option Modifier)
  /-- Atomic XOR (R156) -/
  | atomXor (f : FAtom) (q : Option Modifier)
  /-- Atomically exchanges a word with b (R156) -/
  | exch (f : FAtom) (q : Option Modifier)
  /-- Atomically replaces a word with b if it equals the old D (R156) -/
  | cas (f : FAtom) (q : Option Modifier)
  /-- Atomically steps a ring counter forward (R156) -/
  | atomRinc (f : FAtom) (q : Option Modifier)
  /-- Atomically steps a ring counter backward (R156) -/
  | atomRdec (f : FAtom) (q : Option Modifier)
  /-- Atomically adds binary32 values (R156) -/
  | atomFadd (f : FAtom) (q : Option Modifier)
  /-- Orders the thread's accesses as an acquire, release or both at a scope (R160) -/
  | fence (f : FC) (q : Option Modifier)
  /-- Waits until the thread's earlier tower-direct accesses are performed (R161) -/
  | fenceT (f : FC) (q : Option Modifier)
  /-- Arrives at the group barrier and waits for completion (R162) -/
  | bar (f : FC) (q : Option Modifier)
  /-- Arrives at the group barrier and speculates past it when SPC is held (R163) -/
  | barS (f : FC) (q : Option Modifier)
  /-- Initialises a phase barrier object (R167) -/
  | pbinit (f : FPb) (q : Option Modifier)
  /-- Releases and subtracts arrivals from PEND (R167) -/
  | pbarrive (f : FPb) (q : Option Modifier)
  /-- Subtracts expected engine bytes from BAL (R167) -/
  | pbexpect (f : FPb) (q : Option Modifier)
  /-- Waits until the phase parity differs from p, then acquires (R167) -/
  | pbwait (f : FPbw) (q : Option Modifier)
  /-- Tests whether the phase has ended into a predicate (R167) -/
  | pbtest (f : FPbt) (q : Option Modifier)
  /-- Waits until a global word meets a condition, arming slice monitors (R169) -/
  | waitc (f : FWaitc) (q : Option Modifier)
  /-- Sequentially consistent load at the home slice (R158) -/
  | ldsc (f : FLdsc) (q : Option Modifier)
  /-- Sequentially consistent store at the home slice (R158) -/
  | stsc (f : FStsc) (q : Option Modifier)
  /-- Sequentially consistent atomic add (R158) -/
  | atomscAdd (f : FAsc) (q : Option Modifier)
  /-- Sequentially consistent compare-and-swap (R158) -/
  | atomscCas (f : FAsc) (q : Option Modifier)
  /-- Writes back a line's dirty bytes from the L1 (R171) -/
  | cflush (f : FA) (q : Option Modifier)
  /-- Writes back and invalidates a line in the L1 (R171) -/
  | cinv (f : FA) (q : Option Modifier)
  /-- Fills a line into the L1 or the second-level cache (R171) -/
  | prefetch (f : FPref) (q : Option Modifier)
  /-- Requests resource units from the banker, waiting until safe (R176) -/
  | acqB (f : FAcq) (q : Option Modifier)
  /-- Requests resource units with an immediate grant or refusal status (R176) -/
  | acqT (f : FAcqt) (q : Option Modifier)
  /-- Returns resource units once they are idle (R177) -/
  | rel (f : FAcq) (q : Option Modifier)
  /-- Sends an 8-byte message to a queue of a core in the cluster, blocking or trapping when full (R178) -/
  | qput (f : FQput) (q : Option Modifier)
  /-- Dequeues one message into a register pair (R178) -/
  | qget (f : FQget) (q : Option Modifier)
  /-- Returns the free entry count of a remote queue (R178) -/
  | qfree (f : FQfree) (q : Option Modifier)
  /-- Defines a tile entry and starts its fill, or releases it (R180) -/
  | tdef (f : FTdef) (q : Option Modifier)
  /-- Tests whether a tile is ready (R181) -/
  | tstat (f : FTstat) (q : Option Modifier)
  /-- Hands a command block to the core's request engine (R182) -/
  | kick (f : FXu1) (q : Option Modifier)
  /-- Submits a bank MAC job card after checking it (R189) -/
  | bankjob (f : FXu1) (q : Option Modifier)
  /-- Loads a raw texel from a surface (R192) -/
  | suld (f : FXs) (q : Option Modifier)
  /-- Stores a raw texel to a surface (R192) -/
  | sust (f : FXs) (q : Option Modifier)
  /-- Bilinear texture read of layer 0 (R193) -/
  | tex (f : FXs) (q : Option Modifier)
  /-- Bilinear texture read of a named layer (R193) -/
  | texl (f : FXs) (q : Option Modifier)
  /-- Gathers channel 0 of four texels (R193) -/
  | texg (f : FXs) (q : Option Modifier)
  /-- Records a depth export for the pixel (R194) -/
  | zexp (f : FA) (q : Option Modifier)
  /-- Records a colour export for a render target (R194) -/
  | cexp (f : FCexp) (q : Option Modifier)
  /-- Reads the occlusion counter of a draw (R195) -/
  | occ (f : FXv) (q : Option Modifier)
  /-- Allocates a surface and writes its handle (R191) -/
  | salloc (f : FSalloc) (q : Option Modifier)
  /-- Frees a surface after the thread's earlier accesses (R191) -/
  | sfree (f : FXu1) (q : Option Modifier)
  /-- Issues a matrix multiply-accumulate to the engine (R198) -/
  | mma (f : FXu1) (q : Option Modifier)
  /-- Issues a Brine scale-accumulate to the engine (R198) -/
  | msca (f : FXu1) (q : Option Modifier)
  /-- Zeroes a matrix slot and its checksums (R199) -/
  | mzero (f : FMzero) (q : Option Modifier)
  /-- Loads a matrix slot from memory (R200) -/
  | mload (f : FXu1) (q : Option Modifier)
  /-- Drains a slot to memory, a tile or the gang's registers (R201) -/
  | mdrain (f : FMdrain) (q : Option Modifier)
  /-- Adds a slot indivisibly into an FP32 destination (R200) -/
  | mdrainAdd (f : FXu1) (q : Option Modifier)
  /-- Tests whether matrix words on a slot are pending (R202) -/
  | mstat (f : FMstat) (q : Option Modifier)
  /-- Appends a record to a successor queue, waiting when full (R204) -/
  | emit (f : FEmit) (q : Option Modifier)
  /-- Tries to append a record and reports success in a predicate (R204) -/
  | emitT (f : FEmitt) (q : Option Modifier)
  /-- Reads a system register (R205) -/
  | sysrd (f : FSysrd) (q : Option Modifier)
  /-- Writes a system register (R205) -/
  | syswr (f : FSyswr) (q : Option Modifier)
  /-- Writes a 64-bit mask of the participating lanes' predicate (R137) -/
  | ballot (f : FBallot) (q : Option Modifier)
  /-- ORs a predicate across the participating set (R138) -/
  | kgor (f : FKg) (q : Option Modifier)
  /-- ANDs a predicate across the participating set (R138) -/
  | kgand (f : FKg) (q : Option Modifier)
  /-- Reads a value from the gang position named by a temporary (R139) -/
  | xferIdx (f : FXidx) (q : Option Modifier)
  /-- Reads a value from a rotated gang position (R139) -/
  | xferRot (f : FXfer) (q : Option Modifier)
  /-- Reads a value from a shifted gang position (R139) -/
  | xferSh (f : FXfer) (q : Option Modifier)
  /-- Reads a value from the gang position XOR a mask (R139) -/
  | xferFlip (f : FXfer) (q : Option Modifier)
  /-- Integer sum over the participating set (R140) -/
  | gredAdd (f : FXv) (q : Option Modifier)
  /-- Signed integer minimum over the participating set (R140) -/
  | gredMin (f : FXv) (q : Option Modifier)
  /-- Signed integer maximum over the participating set (R140) -/
  | gredMax (f : FXv) (q : Option Modifier)
  /-- Binary32 tree sum over the 64 gang positions (R60) -/
  | gredFadd (f : FXv) (q : Option Modifier)
  /-- Binary32 tree maximum over the 64 gang positions (R60) -/
  | gredFmax (f : FXv) (q : Option Modifier)
  /-- Inclusive or exclusive prefix sum over the participating set (R140) -/
  | gscanAdd (f : FScan) (q : Option Modifier)
  /-- Writes the lane's rank in the participating set (R137) -/
  | gpos (f : FGpos) (q : Option Modifier)
  /-- Writes the size of the participating set (R137) -/
  | gsize (f : FGpos) (q : Option Modifier)
  /-- Sets a predicate in the lowest participating lane only (R137) -/
  | gfirst (f : FGfirst) (q : Option Modifier)
  /-- Draws a thread id from a categorical distribution of lane weights (R141) -/
  | pick (f : FXs) (q : Option Modifier)
  /-- Trailer word: completes the run's writes, applies AWAIT, join and yield, and hands the quads to the regrouper (R71) -/
  | endrun (f : FEnd)
  /-- A word whose encoding is reserved or malformed (major 0x3C, 0xFFFF_FFFF, an unlisted FN or selector, a non-zero reserved bit, chain or modifier misuse) issues and traps ILLEGAL or ILLCHAIN (R84) -/
  | reservedEncoding (word : Nat)
  /-- A host TAIL write releases prior writes at system scope and announces records (R319) -/
  | hostTailWrite (vf : Nat) (host : Bool) (addr : Nat) (tail : Nat) (relaxed : Bool)
  /-- Writing ROOT sets the root RCB when nothing is resident or bound (R317) -/
  | rootWrite (vf : Nat) (addr : Nat)
  /-- Checks and binds a graph to a leaf region (R318) -/
  | bctlGo (vf : Nat) (cols : Nat) (count : Nat)
  /-- Unbinds a leaf's graph once it has no resident group or pending record (R318) -/
  | bctlUnbind (vf : Nat)
  /-- A new TSPLIT is refused or starts a flush of the changed portions (R326) -/
  | tsplitw (vf : Nat) (value : Nat)
  /-- Sets the surface table address when no surface is live (R327) -/
  | surftabWrite (vf : Nat) (addr : Nat)
  /-- Sets the surface table size when no surface is live, writing TAG 1 into every entry (R327) -/
  | surfcntWrite (vf : Nat) (value : Nat)
  /-- Enlarges or shrinks the backing reserve, refusing shrinks below use (R327) -/
  | ressizeWrite (vf : Nat) (size : Nat)
  /-- Starts a host surface allocation as salloc does (R327) -/
  | hsctlGo (vf : Nat)
  /-- Writing 1 clears CAUSE bits (R321) -/
  | causeClear (vf : Nat) (mask : Nat)
  /-- FRZCTL action resuming a frozen master with the offence dropped (R325) -/
  | discard (vf : Nat) (entry : Nat)
  /-- FRZCTL action stopping the frozen master's fault domain (R325) -/
  | stop (vf : Nat) (entry : Nat)
  /-- A write to a register that has no row of its own stores its value (R316) -/
  | registerWrite (vf : Nat) (offset : Nat) (value : Nat)
  /-- FRES action restarting a faulted command block or tile fill (R337) -/
  | resume (vf : Nat) (idx : Nat)
  /-- FRES action stopping the fault domain of the kicking group (R337) -/
  | fresStop (vf : Nat) (idx : Nat)
  /-- Four matching consecutive words issue as one collective operation (R143) -/
  | fusedSoftmax
  /-- The core checks a run whole, zeroes temporaries and latch, and begins issuing it once the gang may proceed (R68) -/
  | runStart
  /-- The trailer retires in the first cycle in which every fixed-latency write of its run has landed (R208) -/
  | trailerRetire
  /-- A fixed-latency result is written when its pipe latency has elapsed (R77) -/
  | resultLanding (col : Nat) (core : Nat)
  /-- A long-latency access is performed at its place, writes its destinations and sets them full (R245) -/
  | loadPerformed (col : Nat) (core : Nat) (idx : Nat)
  /-- While a gang slot is free the regrouper forms a gang from the PC table (R224) -/
  | gangFormation (col : Nat) (core : Nat) (half : Nat)
  /-- A join hold ends when no lower key remains or 64 issue rounds have passed (R227) -/
  | joinHoldEnd (col : Nat) (core : Nat) (half : Nat)
  /-- A yielding quad becomes selectable again after another gang issues a run or 64 issue rounds pass (R71) -/
  | yieldEnd (col : Nat) (core : Nat) (half : Nat)
  /-- The scheduler halts the domain's groups, lets cards finish, releases holdings and interrupts the driver (R243) -/
  | faultDomainStop (idx : Nat)
  /-- When every trapping lane has returned or ended, the waiting lanes replay the collective run as one gang (R142) -/
  | collectiveReplay (gid : Nat) (idx : Nat)
  /-- A rel completes once its units are idle, returning them to the pool (R177) -/
  | relCompletion (gid : Nat)
  /-- After the last thread exits and all its work is complete, the group's holdings return to the pool (R233) -/
  | holdingsReturn (gid : Nat)
  /-- Without a free monitor the slice re-reads the word every 4 µs (R170) -/
  | waitcRepoll (gid : Nat)
  /-- The L1 writes back a sector's dirty bytes at the latest 16 µs after they first became dirty (R152) -/
  | l1AgeWriteback (col : Nat) (core : Nat) (idx : Nat)
  /-- The L1 invalidates a sector at the latest 16 µs after its fill (R152) -/
  | l1AgeInvalidate (col : Nat) (core : Nat) (idx : Nat)
  /-- A translation miss walks both stages and replays or faults the access (R331) -/
  | translationWalk (col : Nat) (core : Nat) (idx : Nat)
  /-- A pending entry is walked again every 2 µs (R333) -/
  | pendingRewalk (col : Nat) (core : Nat) (idx : Nat)
  /-- After 1 ms a still-pending walk fails (R333) -/
  | pendingTimeout (col : Nat) (core : Nat) (idx : Nat)
  /-- The request engine copies rows between source and destination (R184) -/
  | copy (col : Nat) (core : Nat) (idx : Nat)
  /-- The request engine gathers indexed elements (R184) -/
  | gather (col : Nat) (core : Nat) (idx : Nat)
  /-- The request engine fills a destination with a value (R184) -/
  | fill (col : Nat) (core : Nat) (idx : Nat)
  /-- The request engine decodes prefix-coded chunks (R185) -/
  | decompress (col : Nat) (core : Nat) (idx : Nat)
  /-- The request engine writes the dual-blocked Brine copies of a matrix (R186) -/
  | quantise (col : Nat) (core : Nat) (idx : Nat)
  /-- The last byte of a tile fill is written and the entry becomes ready (R180) -/
  | tileFillComplete (col : Nat) (core : Nat) (tile : Nat)
  /-- A job card locks every bank it names at one instant before its first command (R260) -/
  | cardLock (col : Nat) (core : Nat) (idx : Nat)
  /-- Card command clearing accumulators (R190) -/
  | clear (col : Nat) (core : Nat) (idx : Nat)
  /-- Card command loading the bank vector from the window (R190) -/
  | bcast (col : Nat) (core : Nat) (idx : Nat)
  /-- Card command accumulating row-vector products (R190) -/
  | mulrows (col : Nat) (core : Nat) (idx : Nat)
  /-- Card command writing rounded accumulators to the window (R190) -/
  | readout (col : Nat) (core : Nat) (idx : Nat)
  /-- Card command ending the card (R189) -/
  | cardEnd (col : Nat) (core : Nat) (idx : Nat)
  /-- A matrix word supplies its last column-cycle and writes its results (R198) -/
  | matrixWordCompletion (col : Nat) (core : Nat)
  /-- At every step boundary the cluster arbiter lowers and raises reservations (R295) -/
  | currentStep (col : Nat) (cluster : Nat)
  /-- After 64 matrix cycles without an occupied gang slot an issue unit asks to return its reservation (R293) -/
  | issueUnitIdleRelease (col : Nat) (core : Nat) (half : Nat)
  /-- Firmware lowers or raises a cluster's CAP for heat or the power cap (R300) -/
  | capChange (col : Nat) (cluster : Nat) (cap : Nat) (refill : Nat)
  /-- The Rake spills a victim square's blocks to backing and frees their frames (R277) -/
  | rakeSpill (vf : Nat) (idx : Nat) (square : Nat)
  /-- The Rake refills a spilled block for a waiting access (R277) -/
  | rakeRefill (vf : Nat) (idx : Nat) (block : Nat)
  /-- After pending spills and refills, the Rake discards a freed surface and increments its TAG (R278) -/
  | surfaceDiscard (vf : Nat) (idx : Nat)
  /-- RASTER consumes a primitive record and emits pixel-quad records (R281) -/
  | raster (vf : Nat) (leaf : Nat) (node : Nat)
  /-- A draw retires when its DEND primitive is processed and every pixel updated (R285) -/
  | drawRetire (twin : Nat) (draw : Nat)
  /-- The scheduler evaluates a queue gate on a record once its draw is retired (R286) -/
  | gate (vf : Nat) (leaf : Nat) (node : Nat)
  /-- TRAVERSE consumes a ray record and emits a hit record (R289) -/
  | traverse (vf : Nat) (leaf : Nat) (node : Nat)
  /-- CLASSIFY bins a tile's pixels by material and emits records (R290) -/
  | classify (vf : Nat) (leaf : Nat) (node : Nat)
  /-- NET evaluates a small network over a surface layer (R292) -/
  | net (vf : Nat) (leaf : Nat) (node : Nat)
  /-- A COPY node performs a copy request and emits the record (R288) -/
  | copyNode (vf : Nat) (leaf : Nat) (node : Nat)
  /-- A HOSTQ interrupt held by HQMOD is raised when the interval ends (R320) -/
  | hostqModerationExpiry (vf : Nat)
  /-- The scheduler launches a group, copies its records and advances HEAD (R220) -/
  | groupLaunch (vf : Nat) (leaf : Nat) (node : Nat)
  /-- The oldest pending record waits TIMEOUT µs and forces a launch (R220) -/
  | coalesceTimeout (vf : Nat) (leaf : Nat) (node : Nat)
  /-- The banker admits a launched or restored group to a core when safe (R230) -/
  | groupAdmission (col : Nat)
  /-- Groups resident past their QUANTUM are pre-empted for a waiting launch (R217) -/
  | preemptionOnQuantum (col : Nat)
  /-- Issue stops, speculation rolls back, engines and cards stop, within 2 µs (R341) -/
  | preemptionHalt (gid : Nat)
  /-- The context engine writes back the L1, saves the image and releases the holdings (R341) -/
  | imageSave (gid : Nat)
  /-- A pre-emption not met within 2 µs by a non-frozen core is a partition-level fault (R338) -/
  | preemptionTimeout (gid : Nat)
  /-- A saved group is read back, replay lists replayed, and threads resumed (R342) -/
  | groupRestore (gid : Nat)
  /-- A host access to BAR2 reaches translated partition memory (R316) -/
  | bar2Access (vf : Nat) (host : Bool) (addr : Nat) (size : Nat) (write : Bool) (value : Nat)
  /-- TSPLIT takes its new value in every column and launches resume (R326) -/
  | tsplitFlushComplete (vf : Nat)
  /-- A host allocation writes HSHANDLE and status and raises HSDONE (R327) -/
  | hostAllocationDone (vf : Nat)
  /-- A function-level reset drains, clears and scrubs the partition (R328) -/
  | flr (vf : Nat)
  /-- The reset sequence ends and IDENT.READY becomes 1 (R328) -/
  | flrReady (vf : Nat)
  /-- The PF writes a partition descriptor, enabling it or being refused (R315) -/
  | partitionDescriptorWrite (vf : Nat) (w0 : Nat) (w1 : Nat) (w2 : Nat)
  /-- Changed share fields take effect at the next 1 µs boundary (R315) -/
  | shareUpdate (vf : Nat)
  /-- At the end of a turn the control processor saves one time-shared partition and loads the next (R343) -/
  | partitionSwitch (out : Nat) (inn : Nat)
  /-- Sets a partition's stage-2 root while the partition is disabled (R330) -/
  | s2rootWrite (vf : Nat) (addr : Nat)
  /-- Invalidates stage-2 translations and advances INV2SEQ (R330) -/
  | inv2 (vf : Nat) (value : Nat)
  /-- Invalidates every cached translation of one page and advances INVSEQ (R335) -/
  | invalPage (vf : Nat) (value : Nat)
  /-- Invalidates every stage-1 translation of the partition and advances INVSEQ (R335) -/
  | invalAll (vf : Nat)
  /-- Starts a signed attestation report (R346) -/
  | attctlGo
  /-- The signed report is written to ATTBUF and ATTDONE raised (R346) -/
  | attestationReport
  /-- Writing 1 clears PFCAUSE bits (R322) -/
  | pfcauseClear (mask : Nat)
  /-- Writing 1 clears PFVFERR bits (R322) -/
  | pfvferrClear (mask : Nat)
  /-- Every TELPER ms firmware writes a telemetry snapshot bracketed by SEQ (R349) -/
  | telemetrySnapshot
  /-- Sets the module power cap, met within 10 ms (R358) -/
  | powcapWrite (value : Nat)
  /-- Sets the REFILL ceiling at the next step boundary (R359) -/
  | refmaxWrite (value : Nat)
  /-- FWCTL operation staging a verified firmware image (R360) -/
  | go
  /-- Staging ends with STATUS staged or refused and FWDONE raised (R360) -/
  | firmwareStageDone
  /-- FWCTL operation raising the rollback counter by fuse (R361) -/
  | raise
  /-- FWCTL operation revoking a key hash by fuse (R361) -/
  | revoke (key : Nat)
  /-- DOMCFG write with JOIN 1 sets the module number and enters the Cirrus domain (R362) -/
  | join (number : Nat)
  /-- DOMCFG write with JOIN 0 removes the module from the domain (R362) -/
  | domainLeave
  /-- The fabric accepts or refuses the entry and DOMSTAT changes within 1 s (R362) -/
  | domainEntry (dup : Bool)
  /-- Firmware aligns ETIME with the lowest-numbered member and sets ALIGNED (R363) -/
  | etimeAligned
  /-- An access to a departed module outstanding after 100 µs is reported as uncorrectable (R362) -/
  | remoteAccessTimeout (col : Nat) (core : Nat) (idx : Nat)
  /-- A via group moves to half width or is lost, updating the repair table, SLOWMAP and counters (R351) -/
  | viaGroupStateChange (col : Nat) (tower : Nat) (group : Nat)
  /-- Firmware narrows a G7 channel to half its pins (R356) -/
  | channelNarrow (col : Nat) (channel : Nat)
  /-- Firmware retires a G7 channel and copies its lines to the spare (R356) -/
  | channelRetire (col : Nat) (channel : Nat) (halfPins : Bool)
  /-- A module-level fault halts every unit and writes a module dump (R338) -/
  | moduleFault
  /-- A module reset clears counts, retires towers from the repair table and reboots (R350) -/
  | moduleReset
  /-- At power-up the control processor verifies and measures each firmware stage (R345) -/
  | boot
  /-- Removing module power loses all state (R329) -/
  | powerRemoval
  /-- The PCIe host link trains, in flit mode only, at a rate and width down to x1 and the lowest rate (R313) -/
  | linkTraining (rate : Nat) (width : Nat) (flit : Bool)
  deriving DecidableEq, Repr

end Sys2Proof
end

