-- ==== Sys2Proof/Machine/State.lean ====
section
/-! DEFINITION. State: everything the manual gives the machine, as plain data. `Mach` is what running programs,
engines and the scheduler change; `Cfg` is what only the drivers set; `Fleet` is what only the fleet controller and
the control processor change. -/

namespace Sys2Proof.Machine

/-- Trap causes (Table 10.8). -/
inductive Cause where
  | illegal | illchain | latch | emptyread | regrange | idxrange | claimx | align | space | xlate | surf | ampover
  | fpx | swtrap | bkpt | dataloss | qfull | opform | runform
  deriving DecidableEq, Repr

/-- Amounts of the four resource kinds, as HOLD and CLAIM show them (Table 01.9). -/
structure Res where
  reg : Nat := 0
  scr : Nat := 0
  msl : Nat := 0
  spc : Nat := 0
  deriving DecidableEq, Repr

/-- Where a fixed-latency write lands. -/
inductive Tgt where
  | lane (n : Nat) | tmp (n : Nat) | idx (n : Nat) | pred (n : Nat) | xwin | uni (n : Nat)
  deriving DecidableEq, Repr

/-- A fixed-latency write in flight: the bits of `val` under `mask` land in cycle `due` (R76, R77). -/
structure PWrite where
  tgt : Tgt
  mask : Word
  val : Word
  due : Nat
  deriving DecidableEq, Repr

/-- A latch entry: the slot that held it and the value (R78). -/
structure LatchEnt where
  slot : Nat
  val : Word
  deriving DecidableEq, Repr

/-- The three latch entries of a lane (R15). -/
structure Latch where
  l0 : Option LatchEnt := none
  l1 : Option LatchEnt := none
  l2 : Option LatchEnt := none
  deriving DecidableEq, Repr

/-- The part of a thread that a checkpoint restores (R234): registers with full bits, run state and PC. -/
structure Ctx where
  v : SMap Word := []
  notFull : BitVec 256 := 0
  t : SMap Word := []
  x : SMap Word := []
  k : BitVec 64 := 0
  winBase : BitVec 8 := 0
  winLimit : BitVec 8 := 255
  latch : Latch := {}
  fpstat : BitVec 5 := 0
  pend : List PWrite := []
  pc : Nat := 0
  slot : Nat := 0
  mid : Bool := false
  deriving DecidableEq, Repr

/-- Which path an access takes (R144). -/
inductive Path where
  | glob | scr | tow | surf
  deriving DecidableEq, Repr

/-- A store buffered by a speculating thread (R164), and where its word stands. -/
structure BufStore where
  pc : Nat := 0
  slot : Nat := 0
  path : Path
  tow : Nat
  addr : Nat
  size : Nat
  val : Nat
  deriving DecidableEq, Repr

/-- A speculative episode (R34, R234): the barrier round it passed, its checkpoint, its buffered stores, whether it
recorded a load, the registers it wrote, and whether it has stopped. -/
structure Episode where
  round : Nat
  ckpt : Ctx
  hnd : Bool := false
  bufs : List BufStore := []
  loaded : Bool := false
  written : BitVec 256 := 0
  stopped : Bool := false
  deriving DecidableEq, Repr

/-- The trap frame: run state of the interrupted run (R36, Table 18.8). -/
structure Frame where
  t : SMap Word := []
  latch : Latch := {}
  slot : Nat := 0
  deriving DecidableEq, Repr

/-- Why a lane that is in no gang does not run (R223). -/
inductive Wait where
  | run
  /-- stopped speculation, or rolled back: until barrier round `r` completes -/
  | barrier (r : Nat)
  /-- held by a collective run's trap (R142), or by a fatal trap -/
  | hold
  deriving DecidableEq, Repr

/-- What a queued access does when it is performed. -/
inductive AOp where
  | load (size : Nat) (sgn : Bool)
  | store (size : Nat) (val : Nat)
  /-- an atomic of Table 07.5, by its number 0 to 12 -/
  | atom (op : Nat) (b c : Word)
  | scLoad (size : Nat)
  | scStore (size : Nat) (val : Nat)
  | scAtom (cas : Bool) (b c : Word)
  /-- a translation that a word waits for -/
  | touch (write : Bool)
  /-- cache maintenance (R171): 0 flush, 1 invalidate, 2 prefetch into the L1, 3 prefetch into the second-level cache -/
  | maint (kind : Nat)
  /-- a raw texel read (R192) -/
  | suld (handle : Word) (x y layer : Nat)
  /-- a raw texel write (R192) -/
  | sust (handle : Word) (x y layer : Nat) (val : Nat)
  /-- a texture read: kind 0 tex, 1 texl, 2 texg (R193) -/
  | tex (kind : Nat) (handle : Word) (u v l : Word)
  /-- a value that is known and is written at a fixed cycle: CLK and ETIME (R213), and the data of a load that the scratchpad port
  has served (R306) -/
  | value (v : Nat)
  /-- ETIME, to be sampled at the start of a cycle to come (R211, R213) -/
  | sample (cycle : Nat)
  deriving DecidableEq, Repr

/-- How far a queued access is. -/
inductive AccSt where
  | ready
  /-- no cached translation (R331) -/
  | missing
  /-- a pending entry was met; the time of the first walk and of the last (R333), and whether the entry was one of stage 2 (R334) -/
  | pending (first last : Nat) (s2 : Bool)
  deriving DecidableEq, Repr

/-- A long-latency or stalled access of a thread, queued since a time. `nbuf` is how many stores a speculating thread had buffered when it
issued the access (R164). `due` is the core cycle at whose end a value of fixed time is written, 0 for none; `port` that the access
goes through the scratchpad port, in issue order, with `due` from its passes (R306); `commit` that it is a buffered store that a barrier's
completion performs (R165); `pc`, `slot`, `iw`, `im` where its word stands, and the words of its instruction (Table 18.7). -/
structure Acc where
  gid : Nat
  tid : Nat
  pc : Nat := 0
  slot : Nat := 0
  iw : Nat := 0
  im : Nat := 0
  op : AOp
  path : Path
  tow : Nat := 0
  addr : Nat := 0
  size : Nat := 0
  dsts : List Nat := []
  ord : Nat := 0
  scope : Nat := 0
  spec : Bool := false
  nbuf : Nat := 0
  issued : Nat := 0
  since : Nat := 0
  due : Nat := 0
  port : Bool := false
  commit : Bool := false
  st : AccSt := .ready
  deriving DecidableEq, Repr

/-- The pixel a pixel thread serves (R282): its coverage, the pending update it feeds, the draw's colour targets, and
whether the depth test ran early. -/
structure Pixel where
  cov : Bool
  ent : Option Nat
  nt : Nat
  early : Bool
  deriving DecidableEq, Repr

/-- Exported channels of one target (R194). -/
structure Export where
  target : Nat
  r : Word
  g : Word
  b : Word
  a : Word
  deriving DecidableEq, Repr

/-- A covered pixel between rasterisation and its update (R282, R283): the record of the pixel node that names it, its
raster state block, the surfaces that the block names, position, interpolated depth, whether the early test ran and passed, whether its thread has exited,
and the exports. The list keeps submission order. -/
structure PixEnt where
  id : Nat
  vf : Nat
  leaf : Nat
  node : Nat
  record : Nat
  lane : Nat
  state : Nat
  targets : List Word := []
  twin : Nat
  draw : Nat
  x : Nat
  y : Nat
  z : Word
  early : Bool
  passed : Bool
  ready : Bool := false
  expZ : Option Word := none
  expC : List Export := []
  deriving DecidableEq, Repr

/-- A thread. `taken` is the next PC a control word of the run's final packet chose, `takenAt` its slot (R69); `keep` that
`trapret` has set the run position the lane goes on at; `await` the blocks that a trailer's AWAIT names, `joinAt` and `yieldAt` the issue
rounds in which a join hold and a yield began (R71, R227). -/
structure Thread where
  tid : Nat
  c : Ctx := {}
  tcause : BitVec 8 := 0
  trappc : Word := 0
  hnd : Bool := false
  cr : Bool := false
  tslot : Nat := 0
  traparg : Dword := 0
  entryPc : Word := 0
  entrySlot : Nat := 0
  frame : Frame := {}
  taken : Option Nat := none
  takenAt : Nat := 0
  keep : Bool := false
  yieldNext : Bool := false
  exited : Bool := false
  wait : Wait := .run
  await : BitVec 16 := 0
  joinAt : Option Nat := none
  yieldAt : Option Nat := none
  bar : Option Nat := none
  epi : Option Episode := none
  pixel : Option Pixel := none
  expZ : Option Word := none
  expC : List Export := []
  mesh : Nat := 0
  replay : List Acc := []
  lastIssue : Nat := 0
  deriving DecidableEq, Repr

/-- A matrix slot: elements by 64·row + column, its checksum row and column (R203), and whether a completed drain of it wrote
global memory (R202). -/
structure Slot where
  e : SMap Word := []
  row : SMap Word := []
  col : SMap Word := []
  glob : Bool := false
  deriving DecidableEq, Repr

/-- A bound remote queue (R178). -/
structure RQueue where
  num : Nat
  base : Nat
  qn : Nat
  head : Nat := 0
  tail : Nat := 0
  deriving DecidableEq, Repr

/-- A `qget` that waits for its message (R178). -/
structure QWait where
  tid : Nat
  num : Nat
  dst : Nat
  deriving DecidableEq, Repr

/-- A `rel` that waits for idle units (R177); `seq` is the number of the next engine word of the group when it was issued. -/
structure RelReq where
  gang : Nat
  kind : Nat
  n : Nat
  seq : Nat := 0
  deriving DecidableEq, Repr

/-- Lanes of a collective run that trapped and lanes that wait for them (R142). -/
structure Hold where
  pc : Nat
  hnd : Bool
  half : Nat
  win : Nat
  trapped : List Nat
  waiting : List Nat
  deriving DecidableEq, Repr

/-- The last write of a uniform register in the epoch (R19). -/
structure UniLast where
  reg : Nat
  val : Word
  loc : Nat
  deriving DecidableEq, Repr

/-- What a group takes from its node descriptor and its region at launch (R214, R215, R218); `table` is its graph's node table. -/
structure Env where
  vf : Nat := 0
  leaf : Nat := 0
  table : Nat := 0
  node : Nat := 0
  rid : Word := 0
  prio : Nat := 0
  quantum : Nat := 0
  hbase : Nat := 0
  hentry : Nat := 0
  hseg : Nat := 0
  save : Nat := 0
  savesz : Nat := 0
  fdroot : Nat := 0
  code : Nat := 0
  entry : Nat := 0
  seglen : Nat := 0
  emit : List Nat := []
  role : Nat := 0
  recsz : Nat := 16
  path : List Nat := []
  deriving DecidableEq, Repr

/-- The life stages of a group. -/
inductive Stage where
  | queued | resident | halting | saving | saved | restoring | stopped | done
  deriving DecidableEq, Repr

/-- Tile entry states (Table 08.2). -/
inductive TileSt where
  | empty | filling | ready | draining
  deriving DecidableEq, Repr

/-- What an engine has done of a request ahead of its turn (R257): the source bytes it has read, under the keys of their places, each one more than its
value, and the destination bytes it has written. -/
structure EngBuf where
  got : SMap Nat := []
  wrote : List Nat := []
  deriving DecidableEq, Repr

/-- A tile entry: state, owner, descriptor, the bytes its fill has written, whether it has faulted (R180), and the times of the first and last walk of a
pending translation (R333). -/
structure Tile where
  st : TileSt := .empty
  gid : Nat := 0
  src : Nat := 0
  rb : Nat := 0
  rows : Nat := 0
  sstride : Nat := 0
  buf : Nat := 0
  prog : Nat := 0
  eb : EngBuf := {}
  faulted : Bool := false
  seq : Nat := 0
  pend : Option (Nat × Nat) := none
  deriving DecidableEq, Repr

/-- An issued matrix word: 0 mma, 1 msca, 2 mzero, 3 mload, 4 mdrain, 5 mdrain.add; its encoding, its block, the first
register of a drain into registers and the lanes it serves (gang position, thread), the column-cycles done, the step its slot or its bytes in memory stand at, in
chunks of K or in bytes (R364), the surface
blocks it has fetched, with their texels, under their keys, and the times of the first and last walk of a pending translation
(R333). -/
structure MWord where
  gid : Nat
  op : Nat
  iw : Nat := 0
  slot : Nat := 0
  blk : List Word := []
  dreg : Option Nat := none
  lanes : List (Nat × Nat) := []
  started : Bool := false
  prog : Nat := 0
  step : Nat := 0
  seq : Nat := 0
  got : List Nat := []
  gotMem : Mem := []
  pend : Option (Nat × Nat) := none
  deriving DecidableEq, Repr

/-- A group (R222). `tiles` and `mwords` are the tile entries (R180) and matrix words (R364) of a group that is swapped out; `globCount` lists the phase
barrier objects, with the parity of the phase, into which a byte with a global destination (R257) or an arrival of queue 7 (R179) was counted; `seq`
numbers its next engine word (R177); `closing` that the last thread has arrived at the barrier and buffered stores are being performed (R165); `recs` the
records that its launch takes when it is admitted (R220); `gave` that it was swapped out for a launch of its own priority (R217, R239). -/
structure Group where
  gid : Nat
  env : Env := {}
  gidx : Word := 0
  gsize : Nat := 1
  stage : Stage := .queued
  cols : Nat := 0
  column : Nat := 0
  core : Nat := 0
  halves : List Nat := []
  claim : Res := {}
  hold : Res := {}
  restored : Bool := false
  udiv : Bool := false
  fpxen : BitVec 5 := 0
  commits : Word := 0
  rollbacks : Word := 0
  s : SMap Word := []
  spend : List PWrite := []
  epoch : List UniLast := []
  round : Nat := 0
  filter : BitVec 4096 := 0
  slots : List (Nat × Slot) := []
  queues : List RQueue := []
  qwaits : List QWait := []
  rels : List RelReq := []
  holds : List Hold := []
  globCount : List (Nat × Nat) := []
  threads : List Thread := []
  frozen : Bool := false
  offence : Option Acc := none
  since : Nat := 0
  image : Nat := 0
  imageLen : Nat := 0
  tiles : SMap Tile := []
  mwords : List MWord := []
  seq : Nat := 0
  closing : Bool := false
  recs : Nat := 0
  gave : Bool := false
  deriving DecidableEq, Repr

/-- Where a gang stands. -/
inductive GangSt where
  /-- formed; its run is not checked yet -/
  | formed
  /-- issuing words -/
  | issuing
  /-- its trailer has issued -/
  | trailer
  /-- waits at a word; its quads may join other gangs (log entry 9) -/
  | parked
  deriving DecidableEq, Repr

/-- How a word issues: alone; as the check of a chain's word, which records a verdict only; or as the effect of a
word of a checked chain (R67, R211). -/
inductive IssueMode where
  | solo | probe | commit
  deriving DecidableEq, Repr

/-- A gang (R224). `slot` is the next word; `first` the first slot of the chain in progress; `sat` the lanes that a
blocking word has served; `ack` that the unit has answered a gang word; `out` that a blocking word has issued and waits (R92); `empty` that what it waits for is a source register that is
not full (R239), and `vempty` that its check found so; `off`
the cycles by which a chain's word issues after its first and `lag` those by which the chain's last word issues after it (R211); `vop`,
`vex`, `vstop`, `vwait`, `vreads` the verdict of a check: traps, stops, a wait for operands, and per word the registers it reads with the cycle after
issue (R211), and the lanes in which the word checked last acts; `cut` the lanes that take the `exit` or `trapret` at slot `cutAt` of the chain in
progress (R69, R121); `uniDue` the cycle in which the last uniform write of the gang lands; `tried` one more
than the cycle in which its run check last stalled. -/
structure Gang where
  id : Nat
  gid : Nat
  half : Nat := 0
  win : Nat := 0
  lanes : List Nat := []
  quads : List Nat := []
  hnd : Bool := false
  pc : Nat := 0
  slot : Nat := 0
  first : Nat := 0
  run : List Word := []
  cr : Bool := false
  st : GangSt := .formed
  sat : List Nat := []
  ack : Bool := false
  asked : Bool := false
  out : Bool := false
  empty : Bool := false
  mode : IssueMode := .solo
  off : Nat := 0
  lag : Nat := 0
  vop : List (Nat × Cause × Nat) := []
  vex : List (Nat × Cause × Nat) := []
  vstop : List Nat := []
  vwait : Bool := false
  vempty : Bool := false
  vreads : List (List (Nat × Nat)) := []
  von : List Nat := []
  cut : List Nat := []
  cutAt : Nat := 0
  uniDue : Nat := 0
  tried : Nat := 0
  deriving DecidableEq, Repr

/-- An L1 sector of 64 bytes: physical address over 64, whether its clean bytes are valid, its bytes, the dirty mask,
the time it was filled and the time its first dirty byte was written (R152). -/
structure Sector where
  sec : Nat
  filled : Bool
  data : Mem
  dirty : BitVec 64
  fillAt : Nat
  dirtyAt : Nat
  deriving DecidableEq, Repr

/-- A kicked command block (R182): group, first request, phase barrier object, current request and its index, the bytes
of it written once it has started, whether the block holds its current reservation, whether it has faulted, and the times of
the first and last walk of a pending translation (R333). -/
structure Kick where
  gid : Nat
  off : Nat
  obj : Option Nat
  req : Nat
  k : Nat := 0
  prog : Option Nat := none
  eb : EngBuf := {}
  granted : Bool := false
  faulted : Bool := false
  seq : Nat := 0
  pend : Option (Nat × Nat) := none
  deriving DecidableEq, Repr

/-- A job card command (Table 08.4). -/
structure CardCmd where
  cmd : Nat
  cnt : Nat
  bank : Nat
  tower : Nat
  mc : Bool
  loff : Nat
  woff : Nat
  deriving DecidableEq, Repr

/-- A submitted job card (R189): group, commands, phase barrier object, the next command, whether it holds its locks, and the
bytes it has written. -/
structure Card where
  gid : Nat
  cmds : List CardCmd
  obj : Option Nat
  pc : Nat := 0
  locked : Bool := false
  bytes : Nat := 0
  seq : Nat := 0
  deriving DecidableEq, Repr

/-- A matrix engine: its reservation in CU (R294), and per array column the heat tokens its bucket lacks of 8,192 (R299). -/
structure MEng where
  cu : Nat := 0
  spent : SMap Nat := []
  deriving DecidableEq, Repr

/-- A waiting `acq.b` (R231). -/
structure AcqReq where
  gid : Nat
  gang : Nat
  kind : Nat
  n : Nat
  deriving DecidableEq, Repr

/-- A scheduled read of a lane register: the cycle, the quad and the register (R211). -/
structure BankRead where
  cycle : Nat
  gid : Nat
  quad : Nat
  reg : Nat
  deriving DecidableEq, Repr

/-- A core. `clk` is the cycle in progress and `ps` the time at which it began (R24, R213); `window` the classes in the execute window with their
issue cycles (R207); `free0`, `free1` the first cycles in which its units may issue again (R208); `pipes` what occupies a pipe, from one cycle
through another (R209); `reads` the register reads scheduled (R211); `scrFree` the first cycle in which the scratchpad port is idle (R306); `copyNodes`
the COPY nodes whose record is in its copy engine, as function, leaf and node (R293). -/
structure Core where
  clk : Nat := 0
  ps : Nat := 0
  window : List (Nat × Nat) := []
  free0 : Nat := 0
  free1 : Nat := 0
  pipes : List (Nat × Nat × Nat) := []
  reads : List BankRead := []
  scrFree : Nat := 0
  stamp : Nat := 0
  l1 : List Sector := []
  accs : List Acc := []
  waiters : List AcqReq := []
  tiles : SMap Tile := []
  kicks : List Kick := []
  cards : List Card := []
  mwords : List MWord := []
  eng : MEng := {}
  unit0 : Nat := 0
  unit1 : Nat := 0
  idle0 : Nat := 0
  idle1 : Nat := 0
  lower0 : Bool := false
  lower1 : Bool := false
  copyCu : Nat := 0
  copyNodes : List (Nat × Nat × Nat) := []
  bankCu : Nat := 0
  round0 : Nat := 0
  round1 : Nat := 0
  copyFrozen : Bool := false
  bankFrozen : Bool := false
  deriving DecidableEq, Repr

/-- A bank MAC accumulator: the exact sum as a multiple of 2^-266, and the sticky states (R62). -/
structure BankAcc where
  sum : Int := 0
  nan : Bool := false
  pinf : Bool := false
  ninf : Bool := false
  deriving DecidableEq, Repr

/-- The MAC unit of a data bank: vector and accumulators (R189). -/
structure Bank where
  vec : SMap (BitVec 16) := []
  acc : SMap BankAcc := []
  deriving DecidableEq, Repr

/-- A cluster's current ceiling, its REFILL in force and the one firmware asked for (R299, R300), and the place of its next matrix cycle in a step of
four (R295). -/
structure Cluster where
  phase : Nat := 0
  cap : Nat := 352
  refill : Nat := 56
  refillNext : Nat := 56
  deriving DecidableEq, Repr

/-- A tower's SLOWMAP word (R33). -/
structure Tower where
  slow : BitVec 10 := 0
  deriving DecidableEq, Repr

/-- A condition monitor or a check to be re-read (R170). -/
structure Monitor where
  gid : Nat
  tid : Nat
  pa : Nat
  cond : Nat
  b : Word
  armed : Bool
  met : Bool
  column : Nat
  lastPoll : Nat
  deriving DecidableEq, Repr

/-- A cached translation of a 64 KiB page (R334), from a stage-1 leaf of 2^bits bytes (R335). -/
structure TlbEnt where
  vf : Nat
  vpn : Nat
  bits : Nat := 16
  ppn : Nat
  host : Bool
  w : Bool
  x : Bool
  d : Bool
  deriving DecidableEq, Repr

/-- A live, or being freed, surface (Table 12.1). -/
structure Surf where
  vf : Nat
  idx : Nat
  tag : Nat
  st : Nat
  seed : Nat
  twin : Nat
  layers : Nat
  fmt : Nat
  height : Nat
  width : Nat
  rcb : Nat
  smap : Nat
  back : Nat
  spilled : SMap Nat := []   -- the blocks not in state 0, with their states (R277)
  spillb : Nat := 0
  access : SMap Nat := []
  born : Nat := 0
  deriving DecidableEq, Repr

/-- The state of one draw on a twin (R285). -/
structure Draw where
  twin : Nat
  draw : Nat
  ended : Bool := false
  retired : Bool := false
  deriving DecidableEq, Repr

/-- A graph bound to a leaf (R318): node table, node count, allowed columns, whether its domain is stopped, and per
node the launches made, the values of TAIL that the scheduler has seen, as node, TAIL and time (R219, R220), the outputs a fixed-function node has emitted for its
record at HEAD, what a COPY node's request has done ahead, the records beyond HEAD its gate has
evaluated, and those of them it has consumed (R286). -/
structure Binding where
  leaf : Nat
  table : Nat
  count : Nat
  cols : Nat
  stopped : Bool := false
  launches : SMap Nat := []
  tailAt : List (Nat × Nat × Nat) := []
  progress : SMap Nat := []
  eb : SMap EngBuf := []
  gateSeen : SMap Nat := []
  gateDrop : List (Nat × Nat) := []
  deriving DecidableEq, Repr

/-- A freeze log entry (Table 17.6) with the master it names; for a copy queue `src` says what froze: 0 a command block, 1 a tile fill,
2 a COPY node. -/
structure Frz where
  kind : Nat
  column : Nat
  core : Nat
  why : Nat
  rid : Word
  what : Nat
  gid : Nat
  src : Nat := 0
  deriving DecidableEq, Repr

/-- An engine fault in force: its ring index and its master (R336). -/
structure EngFault where
  ring : Nat
  kind : Nat
  column : Nat
  core : Nat
  gid : Nat
  off : Nat
  deriving DecidableEq, Repr

/-- A host access to BAR2 that waits for the translation of its page (R316, R333): virtual address, bytes, whether it writes, and what. -/
structure HostAcc where
  va : Nat
  n : Nat
  write : Bool
  v : Nat
  deriving DecidableEq, Repr

/-- The function's own state (Table 17.3) and what the device keeps for it: `unbind` is the leaf an UNBIND waits for; `away` that its
time-shared partition is not loaded, `held` and `kept` the register and TAIL writes and the interrupts kept meanwhile (R314), `kicks` and
`cards` the blocks and cards kept by core (R343), `draws` its draws, `served` the loaded time of its turns that are over (R314), `posted` the host's accesses
to BAR2 that wait, in order; `bar2Bits` the size of BAR2 as a power of two (R313). -/
structure Vf where
  ready : Bool := false
  root : Nat := 0
  bgraph : Nat := 0
  bleaf : Nat := 0
  bstatus : Nat := 0
  bcols : Nat := 0
  bcount : Nat := 0
  surftab : Nat := 0
  surfcnt : Nat := 0
  tsplitst : Nat := 0
  resbase : Nat := 0
  ressize : Nat := 0
  resused : List (Nat × Nat) := []
  hsdesc0 : Word := 0
  hsdesc1 : Word := 0
  hsdesc2 : Word := 0
  hsrcb : Nat := 0
  hsstatus : Nat := 0
  hshandle : Word := 0
  cause : BitVec 10 := 0
  cmask : BitVec 10 := 0
  hqmod : Nat := 0
  hqLast : Nat := 0
  hqHeld : Bool := false
  frzlog : List (Nat × Frz) := []
  frzwait : List Frz := []
  winbase : Nat := 0
  invseq : Nat := 0
  inv2seq : Nat := 0
  binds : List Binding := []
  faults : List EngFault := []
  fferr : Nat := 0
  flrDrain : Bool := false
  msix : Bool := false
  stopped : List Nat := []
  unbind : Option Nat := none
  away : Bool := false
  held : List Instr := []
  kept : List Nat := []
  kicks : List (Nat × Kick) := []
  cards : List (Nat × Card) := []
  draws : List Draw := []
  turnStart : Nat := 0
  served : Nat := 0
  posted : List HostAcc := []
  bar2Bits : Nat := 38
  deriving DecidableEq, Repr

/-- The PF's cause registers (R322) and the messages sent. -/
structure Pf where
  cause : BitVec 7 := 0
  cmask : BitVec 7 := 0
  vferr : BitVec 64 := 0
  sent : List (Nat × Nat) := []
  deriving DecidableEq, Repr

/-- Telemetry counters 0 to 13 of a column (Table 19.2). -/
abbrev Counters := SMap Nat

/-- A page that a unit's own access met pending: the function and the page, and the times of the first and last walk (R333). -/
structure Pend where
  vf : Nat
  vpn : Nat
  first : Nat
  last : Nat
  deriving DecidableEq, Repr

/-- What programs, engines and the scheduler change. `turn` is the leaf each column served last (R217); `pends` the pages that wait for the driver; `lost`
the physical sectors with an uncorrectable error (R339, R357). -/
structure Mach where
  free : Nat := 0
  etime : Nat := 0
  dmem : Mem := []
  hmem : Mem := []
  smem : Mem := []
  tmem : Mem := []
  fmem : Mem := []
  cores : SMap Core := []
  banks : SMap Bank := []
  towers : SMap Tower := []
  clusters : SMap Cluster := []
  slices : SMap Nat := []
  occ : SMap Nat := []
  draws : List Draw := []
  pix : List PixEnt := []
  nextPix : Nat := 0
  monitors : List Monitor := []
  tlb : List TlbEnt := []
  groups : List Group := []
  nextGid : Nat := 0
  gangs : List Gang := []
  nextGang : Nat := 0
  cur : Option Nat := none
  turn : SMap Nat := []
  surfs : List Surf := []
  tags : SMap Nat := []
  allocq : List (Nat × Nat) := []
  vfs : SMap Vf := []
  pf : Pf := {}
  tele : SMap Nat := []
  vias : SMap Nat := []
  stops : List (Nat × Nat) := []
  pends : List Pend := []
  lost : List Nat := []
  module : Nat := 0
  deriving DecidableEq, Repr

/-- A partition descriptor (Table 17.2), with the shares that a write has changed and the time at which they take effect (R315), its TSPLIT and its stage-2
registers: written by drivers only. -/
structure Part where
  en : Bool := false
  slice : Nat := 0
  twins : Nat := 0
  capped : Bool := false
  cirsh : Nat := 0
  g7sh : Nat := 0
  l2sh : Nat := 0
  quant : Nat := 0
  shareNext : Option (Bool × Nat × Nat × Nat) := none
  shareAt : Nat := 0
  s2root : Nat := 0
  swimg : Nat := 0
  tsScr : Nat := 1
  tsTdir : Nat := 0
  tsSurf : Nat := 0
  tsNext : Option (Nat × Nat × Nat) := none
  deriving DecidableEq, Repr

/-- What only drivers set: one entry per VF. -/
structure Cfg where
  parts : SMap Part := []
  deriving DecidableEq, Repr

/-- Fuses: revoked marks of the four keys and the rollback counter (R345, R361). -/
structure Fuses where
  revoked : BitVec 4 := 0
  rollback : Nat := 0
  deriving DecidableEq, Repr

/-- Fleet registers, channel states, fuses and boot state (R345 to R363). `staged` is the image in the firmware store that runs from the
next module reset, `staging` that one is being read and checked, `dumpKeep` a module dump that firmware keeps (R347). -/
structure Fleet where
  powered : Bool := true
  halted : Bool := false
  booted : Bool := false
  bootError : Nat := 0
  measure : Nat := 0
  version : Nat := 0
  signer : Nat := 0
  staged : Option (List Byte) := none
  fuses : Fuses := {}
  fwstatus : Nat := 0
  staging : Bool := false
  rkey : Nat := 0
  fwsrc : Nat := 0
  fwlen : Nat := 0
  telbase : Nat := 0
  telper : Nat := 0
  telseq : Nat := 0
  telLast : Nat := 0
  powcap : Nat := 660
  refmax : Nat := 64
  domJoin : Bool := false
  domNum : Nat := 0
  domIn : Bool := false
  domDup : Bool := false
  domAligned : Bool := false
  repsel : Nat := 0
  chans : SMap Nat := []
  spares : SMap Nat := []
  spareout : SMap Nat := []
  dumpbase : Nat := 0
  dumpsize : Nat := 0
  dumpKeep : List Byte := []
  nonce : List Word := []
  attctl : Nat := 0
  attbuf : Nat := 0
  linkUp : Bool := false
  linkRate : Nat := 0
  linkWidth : Nat := 0
  deriving DecidableEq, Repr

/-- The machine. -/
structure State where
  m : Mach := {}
  cfg : Cfg := {}
  fleet : Fleet := {}
  agenda : List Instr := []
  deriving DecidableEq, Repr

/-- Stuck states: the only ways a step of this model stops. -/
inductive Fault where
  /-- Raised by `step` when a module-level fault has halted every unit (R338) and no input is due: the machine does
  nothing until the PF resets the module. Safe: the hardware does nothing either. -/
  | moduleHalted
  /-- Raised by `step` when the module has no power (R329) and no input is due. Safe: there is no machine. -/
  | noPower
  deriving DecidableEq, Repr

/-- Reasons to refuse a step. -/
inductive Refusal where
  /-- Raised by an arm of `exec` that has no meaning yet. Safe: nothing can be proved of such a step. -/
  | notModelled (mnemonic : String)
  deriving DecidableEq, Repr

/-- The machine after reset: no partition enabled, nothing resident, memory with nothing listed, TSPLIT.SCR 1,
POWCAP 660, REFMAX 64; every other register at the value log entry 5 names. -/
def State.reset : State := {}

end Sys2Proof.Machine
end

