-- ==== Sys2Proof/Machine/Store.lean ====
section
/-! DEFINITION. Store: the sparse map behind memory and register files, little-endian byte access (R5, R245), bit-field
helpers, and lookup of cores, groups and gangs. -/

namespace Sys2Proof

/-- The value at key `k`; `d` where nothing is listed. -/
def SMap.get {α : Type} (d : α) : SMap α → Nat → α
  | [], _ => d
  | (k', v) :: rest, k => if k' = k then v else SMap.get d rest k

/-- Remove key `k`. -/
def SMap.erase {α : Type} : SMap α → Nat → SMap α
  | [], _ => []
  | (k', v) :: rest, k => if k' = k then SMap.erase rest k else (k', v) :: SMap.erase rest k

/-- List `v` at key `k`, keeping the keys rising. -/
def SMap.insert {α : Type} : SMap α → Nat → α → SMap α
  | [], k, v => [(k, v)]
  | (k', v') :: rest, k, v =>
    if k = k' then (k, v) :: rest
    else if k < k' then (k, v) :: (k', v') :: rest
    else (k', v') :: SMap.insert rest k v

/-- Set key `k` to `v`; writing what an unlisted key has removes the entry. -/
def SMap.set {α : Type} [DecidableEq α] (d : α) (m : SMap α) (k : Nat) (v : α) : SMap α :=
  if v = d then m.erase k else m.insert k v

/-- Keys strictly rise from `lo` on and no entry equals the unlisted value. -/
def SMap.wfFrom {α : Type} [DecidableEq α] (d : α) : Nat → SMap α → Bool
  | _, [] => true
  | lo, (k, v) :: rest => decide (lo ≤ k) && !decide (v = d) && SMap.wfFrom d (k + 1) rest

/-- The canonical form of a sparse map with unlisted value `d`. -/
def SMap.wf {α : Type} [DecidableEq α] (d : α) (m : SMap α) : Bool := SMap.wfFrom d 0 m

/-- Change the value at a key. -/
def SMap.modify {α : Type} [DecidableEq α] (d : α) (m : SMap α) (k : Nat) (f : α → α) : SMap α :=
  m.set d k (f (m.get d k))

namespace Machine

/-- What a byte of memory that nothing has written reads as (log entry 4). -/
def unwritten : Byte := 0

/-- The canonical form of a memory. -/
abbrev Memory.wf (m : Mem) : Prop := SMap.wf unwritten m = true

/-- Read one byte. -/
def byteAt (m : Mem) (a : Nat) : Byte := SMap.get unwritten m a

/-- Write one byte. -/
def setByte (m : Mem) (a : Nat) (v : Byte) : Mem := SMap.set unwritten m a v

/-- Read `n` bytes at `a`, the lowest address least significant (R5). -/
def readN (m : Mem) (a : Nat) : Nat → Nat
  | 0 => 0
  | n + 1 => (byteAt m a).toNat + 256 * readN m (a + 1) n

/-- Write the low `n` bytes of `v` at `a` (R5). -/
def writeN (m : Mem) (a : Nat) : Nat → Nat → Mem
  | 0, _ => m
  | n + 1, v => writeN (setByte m a (BitVec.ofNat 8 v)) (a + 1) n (v / 256)

/-- The 32-bit word at `a`. -/
def read32 (m : Mem) (a : Nat) : Word := BitVec.ofNat 32 (readN m a 4)

/-- A list of bytes written from `a` on. -/
def writeList (m : Mem) (a : Nat) : List Byte → Mem
  | [] => m
  | b :: bs => writeList (setByte m a b) (a + 1) bs

/-- `n` bytes from `a` on, as a list. -/
def readList (m : Mem) (a n : Nat) : List Byte := (List.range n).map fun i => byteAt m (a + i)

/-- `n` bytes set to one value. -/
def fillBytes (m : Mem) (a : Nat) (v : Byte) : Nat → Mem
  | 0 => m
  | n + 1 => fillBytes (setByte m a v) (a + 1) v n

/-- Drop every listed byte in [lo, hi). -/
def clearRange (m : Mem) (lo hi : Nat) : Mem := m.filter fun e => !(decide (lo ≤ e.1) && decide (e.1 < hi))

/-- Bits [lo+n-1 : lo] of a number. -/
def bitsOf (v lo n : Nat) : Nat := v / 2 ^ lo % 2 ^ n

/-- Bit `b` of a number. -/
def bitOf (v b : Nat) : Bool := v / 2 ^ b % 2 == 1

/-- `v` with bits [lo+n-1 : lo] set to `x`. -/
def putBits (v lo n x : Nat) : Nat := v - bitsOf v lo n * 2 ^ lo + x % 2 ^ n * 2 ^ lo

/-- sext(p, w) of R38. -/
def sext (p w : Nat) : Int := if p % 2 ^ w < 2 ^ (w - 1) then (p % 2 ^ w : Nat) else ((p % 2 ^ w : Nat) : Int) - (2 ^ w : Nat)

/-- bits(v, w) of R38. -/
def bitsI (v : Int) (w : Nat) : Nat := (v % ((2 ^ w : Nat) : Int)).toNat

/-- clamp of R38. -/
def clampI (v lo hi : Int) : Int := if v < lo then lo else if hi < v then hi else v

/-- `v` rounded up to a multiple of `k`. -/
def roundUp (v k : Nat) : Nat := (v + k - 1) / k * k

/-- ceil(a / b). -/
def ceilDiv (a b : Nat) : Nat := (a + b - 1) / b

/-- `n` bytes of a number from byte `j` on. -/
def natBytes (v j n : Nat) : List Byte := (List.range (n - j)).map fun i => BitVec.ofNat 8 (v / 256 ^ (j + i))

/-- The least of a list. -/
def least : List Nat → Option Nat
  | [] => none
  | x :: xs => match least xs with
    | some y => some (min x y)
    | none => some x

/-- Replace the element at index `i`. -/
def setAt {α : Type} (l : List α) (i : Nat) (v : α) : List α := l.set i v

/-- Drop the element at index `i`. -/
def dropAt {α : Type} (l : List α) (i : Nat) : List α := l.eraseIdx i

/-- The core at a column and a core number. -/
def Mach.core (m : Mach) (col c : Nat) : Core := SMap.get {} m.cores (col * 48 + c)

/-- Replace a core. -/
def Mach.setCore (m : Mach) (col c : Nat) (x : Core) : Mach := { m with cores := SMap.set {} m.cores (col * 48 + c) x }

/-- Change a core. -/
def Mach.onCore (m : Mach) (col c : Nat) (f : Core → Core) : Mach := m.setCore col c (f (m.core col c))

/-- The group with a handle. -/
def Mach.group? (m : Mach) (gid : Nat) : Option Group := m.groups.find? fun g => g.gid == gid

/-- Change the group with a handle. -/
def Mach.onGroup (m : Mach) (gid : Nat) (f : Group → Group) : Mach :=
  { m with groups := m.groups.map fun g => if g.gid == gid then f g else g }

/-- The gang with a handle. -/
def Mach.gang? (m : Mach) (id : Nat) : Option Gang := m.gangs.find? fun g => g.id == id

/-- Change the gang with a handle. -/
def Mach.onGang (m : Mach) (id : Nat) (f : Gang → Gang) : Mach :=
  { m with gangs := m.gangs.map fun g => if g.id == id then f g else g }

/-- Drop a gang. -/
def Mach.dropGang (m : Mach) (id : Nat) : Mach := { m with gangs := m.gangs.filter fun g => g.id != id }

/-- The thread of a group. -/
def Group.thread? (g : Group) (tid : Nat) : Option Thread := g.threads.find? fun t => t.tid == tid

/-- Change one thread of a group. -/
def Group.onThread (g : Group) (tid : Nat) (f : Thread → Thread) : Group :=
  { g with threads := g.threads.map fun t => if t.tid == tid then f t else t }

/-- Change one thread. -/
def Mach.onThread (m : Mach) (gid tid : Nat) (f : Thread → Thread) : Mach := m.onGroup gid fun g => g.onThread tid f

/-- The thread of a group, if both exist. -/
def Mach.thread? (m : Mach) (gid tid : Nat) : Option Thread := (m.group? gid).bind fun g => g.thread? tid

/-- The function's record. -/
def Mach.vf (m : Mach) (v : Nat) : Vf := SMap.get {} m.vfs v

/-- Change a function's record. -/
def Mach.onVf (m : Mach) (v : Nat) (f : Vf → Vf) : Mach := { m with vfs := SMap.modify {} m.vfs v f }

/-- The partition of a VF. -/
def Cfg.part (c : Cfg) (v : Nat) : Part := SMap.get {} c.parts v

/-- Change a partition. -/
def Cfg.onPart (c : Cfg) (v : Nat) (f : Part → Part) : Cfg := { c with parts := SMap.modify {} c.parts v f }

/-- The cluster `c` of a column. -/
def Mach.cluster (m : Mach) (col c : Nat) : Cluster := SMap.get {} m.clusters (col * 12 + c)

/-- Change a cluster. -/
def Mach.onCluster (m : Mach) (col c : Nat) (f : Cluster → Cluster) : Mach :=
  { m with clusters := SMap.modify {} m.clusters (col * 12 + c) f }

/-- The SLOWMAP word of a tower (R33). -/
def Mach.slow (m : Mach) (col t : Nat) : BitVec 10 := (SMap.get {} m.towers (col * 48 + t)).slow

/-- Draw a free choice among `n`, and the machine with the counter advanced (log entry 1). -/
def Mach.pick (m : Mach) (n : Nat) : Nat × Mach := (Config.freePick m.free % n, { m with free := m.free + 1 })

/-- Draw free bits (log entry 1). -/
def Mach.freeBits (m : Mach) (w : Nat) : Nat × Mach := (Config.freeBits m.free % 2 ^ w, { m with free := m.free + 1 })

/-- Run a step that only the machine takes part in. -/
def onMach (f : Cfg → Mach → Mach) (s : State) : Host.Outcome State Fault Refusal :=
  .next { s with m := f s.cfg s.m }

/-- Scratchpad byte address of a group's window offset in `smem`. -/
def scrKey (gid off : Nat) : Nat := gid * 2 ^ 32 + off

/-- Tower-direct byte address in `tmem` (R147). -/
def towKey (col tower off : Nat) : Nat := (col * 48 + tower) * 2 ^ 32 + off

/-- Read the little-endian word at a window offset. -/
def Mach.win32 (m : Mach) (gid off : Nat) : Nat := readN m.smem (scrKey gid off) 4

/-- Write a word at a window offset. -/
def Mach.setWin32 (m : Mach) (gid off v : Nat) : Mach := { m with smem := writeN m.smem (scrKey gid off) 4 v }

/-- The bus of host memory starts here in the model's physical address space. -/
def hostBase : Nat := 2 ^ 60

/-- Where a physical device address lies in `dmem`: PA[55:42] is the module and PA[41:0] the byte within it (R332). This module's bytes stand under their
numbers in it, those of other modules of the domain (R362) beyond. -/
def Mach.devKey (m : Mach) (pa : Nat) : Nat := if pa / 2 ^ 42 = m.module then pa % 2 ^ 42 else 2 ^ 57 + pa

/-- Read `n` bytes at their home: device memory, or host memory from `hostBase` on (R245, R332). -/
def Mach.homeRead (m : Mach) (pa n : Nat) : Nat :=
  if pa < hostBase then readN m.dmem (m.devKey pa) n else readN m.hmem (pa - hostBase) n

/-- Write `n` bytes at their home. -/
def Mach.homeWrite (m : Mach) (pa n v : Nat) : Mach :=
  if pa < hostBase then { m with dmem := writeN m.dmem (m.devKey pa) n v } else { m with hmem := writeN m.hmem (pa - hostBase) n v }

/-- Bytes at a home lie in a sector of this module with an uncorrectable error (R357). -/
def Mach.homeLost (m : Mach) (pa n : Nat) : Bool :=
  decide (pa < hostBase) && m.lost.any fun s => decide (m.devKey pa / 64 ≤ s) && decide (s ≤ (m.devKey pa + n - 1) / 64)

/-! ### Stops -/

/-- The root under which a whole partition is marked for stopping. -/
def wholePartition : Nat := 2 ^ 57

/-- Mark a fault domain for stopping (R243): the steps of the stop are `faultDomainStop`. -/
def Mach.queueStop (m : Mach) (vf root cause : Nat) : Mach :=
  if m.stops.any fun s => s.1 == vf && s.2 / 256 == root then m
  else { m with stops := m.stops ++ [(vf, root * 256 + cause)] }

/-- Mark a partition for stopping (R338). -/
def Mach.queuePartStop (m : Mach) (vf cause : Nat) : Mach := m.queueStop vf wholePartition cause

/-- Add 1 to a count counter of a column (Table 19.2); it saturates (R350). -/
def Mach.count (m : Mach) (col i : Nat) : Mach :=
  { m with tele := SMap.modify 0 m.tele (col * 32 + i) fun n => min (n + 1) (2 ^ 64 - 1) }

end Machine

end Sys2Proof
end

