-- ==== Sys2Proof/Machine/Places.lean ====
section
/-! DEFINITION. Places: where accesses are performed (11 R245): homes with their condition monitors (07 R170), the L1 of a
core (07 R152, R153), the two-stage walk and its cache (18 R330 to R335), scratchpad, tower-direct banks. -/

namespace Sys2Proof.Machine

/-- The conditions of Table 07.9 on a memory word and an operand. Code 7 never holds (it traps ILLEGAL). -/
def waitcHolds (code : Nat) (m b : Word) : Bool :=
  match code with
  | 0 => m == b
  | 1 => m != b
  | 2 => decide (m.toNat < b.toNat)
  | 3 => decide (b.toNat ≤ m.toNat)
  | 4 => decide (m.toInt < b.toInt)
  | 5 => decide (b.toInt ≤ m.toInt)
  | 6 => (m &&& b) != 0
  | _ => false

/-- Armed monitors re-evaluate after a write at their slice (R170). -/
def Mach.wakeMonitors (m : Mach) : Mach :=
  { m with monitors := m.monitors.map fun x =>
      if x.armed && !x.met && waitcHolds x.cond (BitVec.ofNat 32 (m.homeRead x.pa 4)) x.b then { x with met := true } else x }

/-- A write performed at the home of its bytes (R247), which armed monitors see. -/
def Mach.store (m : Mach) (pa n v : Nat) : Mach := (m.homeWrite pa n v).wakeMonitors

/-- The bytes of `src` whose bit of `mask` is set, written at their homes. -/
def Mach.storeMasked (m : Mach) (pa : Nat) (src : Mem) (mask : BitVec 64) : Mach :=
  ((List.range 64).foldl (fun m i => if mask.getLsbD i then m.homeWrite (pa + i) 1 (byteAt src i).toNat else m) m).wakeMonitors

/-- The sector of a core's L1 that holds a physical address. -/
def Core.sector? (c : Core) (pa : Nat) : Option Sector := c.l1.find? fun s => s.sec == pa / 64

/-- Put a sector into a core's L1, in place of the one with its address. -/
def Core.putSector (c : Core) (s : Sector) : Core := { c with l1 := s :: c.l1.filter fun x => x.sec != s.sec }

/-- Write back one sector's dirty bytes to its home; the sector stays, clean (R152). A sector that holds nothing else
is dropped. -/
def Mach.l1Back (m : Mach) (col c sec : Nat) : Mach :=
  match (m.core col c).sector? (sec * 64) with
  | none => m
  | some s =>
    let m := m.storeMasked (sec * 64) s.data s.dirty
    if s.filled then m.onCore col c fun k => k.putSector { s with dirty := 0 }
    else m.onCore col c fun k => { k with l1 := k.l1.filter fun x => x.sec != sec }

/-- Write back every dirty sector of a core's L1 (a release at cluster scope or wider, R153). -/
def Mach.l1BackAll (m : Mach) (col c : Nat) : Mach :=
  (m.core col c).l1.foldl (fun m s => m.l1Back col c s.sec) m

/-- Write back and drop one sector. -/
def Mach.l1Drop (m : Mach) (col c sec : Nat) : Mach :=
  (m.l1Back col c sec).onCore col c fun k => { k with l1 := k.l1.filter fun x => x.sec != sec }

/-- The L1 invalidation of an acquire (R153): dirty bytes go home, then no sector stays valid. -/
def Mach.l1Inv (m : Mach) (col c : Nat) : Mach :=
  (m.l1BackAll col c).onCore col c fun k => { k with l1 := [] }

/-- Fill the sector of `pa` from its home where it is not valid; dirty bytes stay (R152). -/
def Mach.l1Fill (m : Mach) (col c pa : Nat) : Mach :=
  let base := pa / 64 * 64
  match (m.core col c).sector? pa with
  | some s =>
    if s.filled then m
    else
      let data := (List.range 64).foldl (fun d i =>
        if s.dirty.getLsbD i then d else setByte d i (BitVec.ofNat 8 (m.homeRead (base + i) 1))) s.data
      m.onCore col c fun k => k.putSector { s with filled := true, data := data, fillAt := m.etime }
  | none =>
    let data := (List.range 64).foldl (fun d i => setByte d i (BitVec.ofNat 8 (m.homeRead (base + i) 1))) []
    m.onCore col c fun k => k.putSector { sec := pa / 64, filled := true, data := data, dirty := 0, fillAt := m.etime, dirtyAt := 0 }

/-- Lines of 128 bytes that an L1 of 256 KiB holds (Table 00.1). -/
def l1Lines : Nat := 2048

/-- The lines of an L1. -/
def Core.lines (c : Core) : List Nat := (c.l1.map fun s => s.sec / 2).eraseDups

/-- Make room in an L1 for the line of `pa` (Table 00.1): where it is full of others, the line touched least recently leaves. Any line may leave before, by
L1_AGE_INVALIDATE. -/
def Mach.l1Room (m : Mach) (col c pa : Nat) : Mach :=
  let k := m.core col c
  if k.lines.contains (pa / 128) || decide (k.lines.length < l1Lines) then m
  else match k.lines.getLast? with
    | some x => (m.l1Drop col c (2 * x)).l1Drop col c (2 * x + 1)
    | none => m

/-- The bound of the ages of an L1 sector: 16 µs (R152). -/
def l1Age : Nat := 16000000

/-- Impose both bounds of R152 on one sector, for a time not after `t`. -/
def Mach.ageSector (m : Mach) (col c t : Nat) (s : Sector) : Mach :=
  if s.filled && decide (s.fillAt + l1Age < t) then m.l1Drop col c s.sec
  else if s.dirty != 0 && decide (s.dirtyAt + l1Age < t) then m.l1Back col c s.sec
  else m

/-- ETIME passes to `t`: before it does, every L1 writes back and invalidates what would grow too old (R25, R152, R248). -/
def Mach.passTo (m : Mach) (t : Nat) : Mach :=
  let m := m.cores.foldl (fun m e => e.2.l1.foldl (fun m s => m.ageSector (e.1 / 48) (e.1 % 48) t s) m) m
  { m with etime := max m.etime t }

/-- True when bytes [o, o+n) of a mask are all set. -/
def maskCovers (mask : BitVec 64) (o n : Nat) : Bool := (List.range n).all fun i => mask.getLsbD (o + i)

/-- An L1 holds the `n` bytes at `pa`: its sector is filled, or all of them are dirty (R152). -/
def Core.hits (c : Core) (pa n : Nat) : Bool :=
  match c.sector? pa with
  | some s => s.filled || maskCovers s.dirty (pa % 64) n
  | none => false

/-- Read `n` bytes through the L1 (a relaxed global load, Table 11.1). -/
def Mach.l1Read (m : Mach) (col c pa n : Nat) : Mach × Nat :=
  let m := if (m.core col c).hits pa n then m else m.l1Fill col c pa
  match (m.core col c).sector? pa with
  | some s => (m, readN s.data (pa % 64) n)
  | none => (m, m.homeRead pa n)

/-- Write `n` bytes into the L1 as dirty bytes, without fetching the sector (R152). -/
def Mach.l1Write (m : Mach) (col c pa n v : Nat) : Mach :=
  let s := match (m.core col c).sector? pa with
    | some s => s
    | none => { sec := pa / 64, filled := false, data := [], dirty := 0, fillAt := m.etime, dirtyAt := m.etime }
  let o := pa % 64
  let mask : BitVec 64 := BitVec.ofNat 64 ((2 ^ n - 1) * 2 ^ o)
  m.onCore col c fun k => k.putSector
    { s with data := writeN s.data o n v, dirty := s.dirty ||| mask, dirtyAt := if s.dirty = 0 then m.etime else s.dirtyAt }

/-- The classes of R333. -/
inductive EntClass where
  | table | leaf | pending | absent
  deriving DecidableEq, Repr

/-- The page size of a leaf at each level (Table 18.2); no leaf at level 0. -/
def leafBits : Nat → Nat
  | 1 => 30
  | 2 => 21
  | _ => 16

/-- The alignment of the next table below each level (Table 18.2). -/
def tableBits : Nat → Nat
  | 0 => 12
  | 1 => 12
  | _ => 8

/-- The shift of a level's index and its width (Table 18.2). -/
def levelShift : Nat → Nat × Nat
  | 0 => (39, 18)
  | 1 => (30, 9)
  | 2 => (21, 9)
  | _ => (16, 5)

/-- ADDR of an entry (Table 18.3). -/
def entAddr (e : Nat) : Nat := bitsOf e 8 49 * 256

/-- Classify an entry read at a level of a stage (R332, R333). -/
def classify (stage2 : Bool) (level e : Nat) : EntClass :=
  let v := bitOf e 0
  let leaf := bitOf e 1
  if !v then (if leaf && bitOf e 2 then .pending else .absent)
  else if bitsOf e 62 2 != 0 || bitsOf e 57 3 != 0 || bitsOf e 6 2 != 0 || decide (2 ≤ bitsOf e 60 2) then .absent
  else if leaf then
    if level == 0 || entAddr e % 2 ^ leafBits level != 0
       || (stage2 && bitsOf e 60 2 == 0 && bitOf e 56) then .absent else .leaf
  else if level == 3 || entAddr e % 2 ^ tableBits level != 0 || (stage2 && bitOf e 56) then .absent else .table

/-- The end of a one-stage walk: the address, the permissions and the target. -/
inductive WalkRes where
  | ok (addr : Nat) (w x host : Bool)
  | pending
  | fail
  /-- an uncorrectable error in the table (R338) -/
  | lost
  deriving DecidableEq, Repr

/-- Set A, and D at a granted write, in an entry at a home (R333). -/
def markEntry (m : Mach) (pa e : Nat) (d : Bool) : Mach :=
  let e' := if d then putBits (putBits e 4 1 1) 5 1 1 else putBits e 4 1 1
  if e' = e then m else m.store pa 8 e'

/-- The stage-2 walk of an IPA from a table, over the levels left (R331). -/
def walk2From (write : Bool) (ipa : Nat) : Mach → Nat → List Nat → Mach × WalkRes
  | m, _, [] => (m, .fail)
  | m, table, level :: rest =>
    let (sh, w) := levelShift level
    let pa := table + 8 * bitsOf ipa sh w
    let e := m.homeRead pa 8
    if m.homeLost pa 8 then (m, .lost)
    else match classify true level e with
    | .absent => (m, .fail)
    | .pending => (m, .pending)
    | .table => walk2From write ipa (markEntry m pa e false) (entAddr e) rest
    | .leaf =>
      if write && !bitOf e 2 then (m, .fail)
      else
        (markEntry m pa e write,
          .ok (entAddr e + ipa % 2 ^ leafBits level) (bitOf e 2) (bitOf e 3) (bitsOf e 60 2 == 1))

/-- The four levels. -/
def levels : List Nat := [0, 1, 2, 3]

/-- Device memory addressable in a module (R355): 204 GiB. -/
def deviceBytes : Nat := 204 * 2 ^ 30

/-- The partition's translation control page (R335). -/
def inCtrlPage (ipa : Nat) : Bool := decide (0x200000 ≤ ipa) && decide (ipa < 0x210000)

/-- The stage-2 walk of an IPA; the control page is never mapped (R335), and a device address beyond the memory of R355 fails. -/
def walk2 (cfg : Cfg) (m : Mach) (vf ipa : Nat) (write : Bool) : Mach × WalkRes :=
  if inCtrlPage ipa then (m, .fail)
  else match walk2From write ipa m (cfg.part vf).s2root levels with
  | (m, .ok a w x host) =>
    if !host && decide (deviceBytes ≤ a % 2 ^ 42) then (m, .fail) else (m, .ok a w x host)
  | r => r

/-- What a two-stage walk finds (R333 to R335). -/
inductive TransRes where
  | ok (ent : TlbEnt)
  /-- the translation control page, with the offset in it (R335) -/
  | ctrl (off : Nat)
  /-- a pending entry; `s2` that it is one of stage 2 (R333, R334) -/
  | pending (s2 : Bool)
  /-- stage 1 fails: unresolvable (R334) -/
  | fail1
  /-- stage 2 fails: freezes the master (R334) -/
  | fail2
  /-- an uncorrectable error in a table: a partition-level fault (R338) -/
  | lost
  deriving DecidableEq, Repr

/-- The stage-1 walk from a table, whose entries are IPAs that stage 2 translates (R330, R331). -/
def walk1From (cfg : Cfg) (vf va : Nat) (write fetch : Bool) : Mach → Nat → List Nat → Mach × TransRes
  | m, _, [] => (m, .fail1)
  | m, table, level :: rest =>
    let (sh, w) := levelShift level
    match walk2 cfg m vf (table + 8 * bitsOf va sh w) false with
    | (m, .fail) => (m, .fail2)
    | (m, .lost) => (m, .lost)
    | (m, .pending) => (m, .pending true)
    | (m, .ok pa0 _ _ host0) =>
      let pa := if host0 then hostBase + pa0 else pa0
      let e := m.homeRead pa 8
      if m.homeLost pa 8 then (m, .lost)
      else match classify false level e with
      | .absent => (m, .fail1)
      | .pending => (m, .pending false)
      | .table => walk1From cfg vf va write fetch (markEntry m pa e false) (entAddr e) rest
      | .leaf =>
        if (write && !bitOf e 2) || (fetch && !bitOf e 3) then (m, .fail1)
        else
          let m := markEntry m pa e write
          let ipa := entAddr e + va % 2 ^ leafBits level
          if inCtrlPage ipa then (m, .ctrl (ipa % 65536))
          else
            match walk2 cfg m vf ipa write with
            | (m, .fail) => (m, .fail2)
            | (m, .lost) => (m, .lost)
            | (m, .pending) => (m, .pending true)
            | (m, .ok a w2 x2 host) =>
              if fetch && !x2 then (m, .fail2)
              else (m, .ok { vf := vf, vpn := va / 65536, bits := leafBits level, ppn := a / 65536, host := host, w := bitOf e 2 && w2
                             x := bitOf e 3 && x2, d := write })

/-- Walk both stages for an access (R331) and cache what is found (R334). An uncorrectable error in a table stops the partition (R338). -/
def translateWalk (cfg : Cfg) (m : Mach) (vf va : Nat) (write fetch : Bool) : Mach × TransRes :=
  match walk1From cfg vf va write fetch m 0 levels with
  | (m, .ok ent) =>
    ({ m with tlb := ent :: m.tlb.filter fun x => !(x.vf == ent.vf && x.vpn == ent.vpn) }, .ok ent)
  | (m, .lost) => (m.queuePartStop vf 0x10, .lost)
  | r => r

/-- The physical address an entry gives a virtual address. -/
def TlbEnt.phys (e : TlbEnt) (va : Nat) : Nat := (if e.host then hostBase else 0) + e.ppn * 65536 + va % 65536

/-- A cached translation that grants the access; a write also needs D to have been set (R332, R334). -/
def Mach.tlbHit (m : Mach) (vf va : Nat) (write fetch : Bool) : Option Nat :=
  (m.tlb.find? fun e => e.vf == vf && e.vpn == va / 65536 && (!write || (e.w && e.d)) && (!fetch || e.x)).map fun e => e.phys va

/-- Translate, from the cache or by a walk, for a unit that walks on its own (engines, code fetch, BAR2). -/
def translate (cfg : Cfg) (m : Mach) (vf va : Nat) (write fetch : Bool) : Mach × (Option Nat × TransRes) :=
  match m.tlbHit vf va write fetch with
  | some pa => (m, some pa, .pending false)
  | none =>
    match translateWalk cfg m vf va write fetch with
    | (m, .ok e) => (m, some (e.phys va), .ok e)
    | (m, r) => (m, none, r)

/-- The record of a page that units wait for. -/
def Mach.pend? (m : Mach) (vf va : Nat) : Option Pend := m.pends.find? fun p => p.vf == vf && p.vpn == va / 65536

/-- No unit waits for a page. -/
def Mach.pendDone (m : Mach) (vf va : Nat) : Mach :=
  if (m.pend? vf va).isNone then m else { m with pends := m.pends.filter fun p => !(p.vf == vf && p.vpn == va / 65536) }

/-- A page that a unit waits for is not due for another walk (R333). -/
def Mach.pendHolds (m : Mach) (vf va : Nat) : Bool :=
  match m.pend? vf va with
  | some p => decide (m.etime < p.last + 2000000) && decide (m.etime < p.first + 1000000000)
  | none => false

/-- A unit's walk met a pending entry: true where 1 ms has passed since the first walk (R333); the waits of several units for one page count from the first. -/
def Mach.pendMet (m : Mach) (vf va : Nat) : Mach × Bool :=
  let first := ((m.pend? vf va).map (·.first)).getD m.etime
  let m := m.pendDone vf va
  if first + 1000000000 ≤ m.etime then (m, true)
  else ({ m with pends := { vf := vf, vpn := va / 65536, first := first, last := m.etime } :: m.pends }, false)

/-- Translate for an access of the scheduler, a fixed-function unit, a fetch or BAR2: a pending entry is walked again every 2 µs until 1 ms has passed since
the first walk (R333). -/
def unitTranslate (cfg : Cfg) (m : Mach) (vf va : Nat) (write fetch : Bool) : Mach × (Option Nat × TransRes) :=
  if m.pendHolds vf va then (m, none, .pending false)
  else match translate cfg m vf va write fetch with
    | (m, none, .pending s2) => match m.pendMet vf va with
      | (m, true) => (m, none, if s2 then .fail2 else .fail1)
      | (m, false) => (m, none, .pending s2)
    | (m, r) => (m.pendDone vf va, r)

/-- An access performed at the translation control page (R335, Table 18.4): the value read and the machine after a
write. Invalidations complete before INVSEQ advances; the fault-resolution register is an event of its own. -/
def ctrlRead (m : Mach) (vf off size : Nat) : Nat :=
  if off = 0x08 ∧ (size = 4 ∨ size = 8) then (m.vf vf).invseq % 2 ^ 32 else 0

/-- A cached translation covers a 64 KiB page: one of its stage-1 leaf, whatever the leaf's size (R335). -/
def TlbEnt.covers (e : TlbEnt) (p : Nat) : Bool := e.vpn / 2 ^ (e.bits - 16) == p / 2 ^ (e.bits - 16)

/-- Drop the cached translations of a page, or all of a partition's, and advance INVSEQ (R335). Stalled accesses walk
again. -/
def invalidate (m : Mach) (vf : Nat) (page : Option Nat) : Mach :=
  let m := { m with tlb := m.tlb.filter fun e => !(e.vf == vf && (match page with | none => true | some p => e.covers p)) }
  m.onVf vf fun r => { r with invseq := (r.invseq + 1) % 2 ^ 32 }

/-- A write to INVAL (Table 18.4). -/
def writeInval (m : Mach) (vf v : Nat) : Mach :=
  if bitsOf v 0 4 = 1 then invalidate m vf (some (bitsOf v 16 41))
  else if bitsOf v 0 4 = 2 then invalidate m vf none
  else m

/-- Via-group state of a tower's group: 0 full, 1 half, 2 lost (R351). -/
def Mach.via (m : Mach) (col tower g : Nat) : Nat := SMap.get 0 m.vias ((col * 48 + tower) * 9 + g)

/-- True when a data bank cannot be served: its via group is lost and so is a second group of the tower, so the
rebuild of R353 fails (R354). -/
def Mach.bankLost (m : Mach) (col tower bank : Nat) : Bool :=
  m.via col tower (bank % 8) == 2
    && (List.range 9).any fun g => g != bank % 8 && m.via col tower g == 2

/-- The data bank of a tower-direct or scratchpad byte offset (R147, R154). -/
def bankOf (off : Nat) : Nat := off / 4 % 32

/-- A tower is retired (R33, R354). -/
def Mach.retired (m : Mach) (col tower : Nat) : Bool := (m.slow col tower).getLsbD 9

/-- Read tower-direct bytes at their banks. -/
def Mach.towRead (m : Mach) (col tower off n : Nat) : Nat := readN m.tmem (towKey col tower off) n

/-- Write tower-direct bytes at their banks. -/
def Mach.towWrite (m : Mach) (col tower off n v : Nat) : Mach := { m with tmem := writeN m.tmem (towKey col tower off) n v }

/-- Read window bytes at their banks. -/
def Mach.winRead (m : Mach) (gid off n : Nat) : Nat := readN m.smem (scrKey gid off) n

/-- Write window bytes at their banks. -/
def Mach.winWrite (m : Mach) (gid off n v : Nat) : Mach := { m with smem := writeN m.smem (scrKey gid off) n v }

end Sys2Proof.Machine
end

