-- ==== Sys2Proof/Machine/Flags.lean ====
section
/-! DEFINITION. Flags: number formats, exact values, the one rounding and the flags it raises (02 R38 to R50). Every
floating-point result is an exact value taken through `roundTo`. -/

namespace Sys2Proof.Machine

/-- The flag bits of FPSTAT (Table 01.6). -/
def flNV : BitVec 5 := 16
def flDZ : BitVec 5 := 8
def flOF : BitVec 5 := 4
def flUF : BitVec 5 := 2
def flNX : BitVec 5 := 1

/-- A floating-point format (Table 02.1): exponent bits, fraction bits, bias, and whether all-ones exponents are
reserved for infinities and NaNs. -/
structure Fmt where
  xb : Nat
  fb : Nat
  bias : Nat
  ieee : Bool
  deriving DecidableEq, Repr

def fmt64 : Fmt := { xb := 11, fb := 52, bias := 1023, ieee := true }
def fmt32 : Fmt := { xb := 8, fb := 23, bias := 127, ieee := true }
def fmt16 : Fmt := { xb := 5, fb := 10, bias := 15, ieee := true }
def fmtBf : Fmt := { xb := 8, fb := 7, bias := 127, ieee := true }
def fmtE4 : Fmt := { xb := 4, fb := 3, bias := 7, ieee := false }
def fmtE5 : Fmt := { xb := 5, fb := 2, bias := 15, ieee := true }

/-- The width of a format. -/
def Fmt.width (f : Fmt) : Nat := 1 + f.xb + f.fb

/-- The largest exponent of a finite value; E4M3 uses its all-ones exponent (R41). -/
def Fmt.emax (f : Fmt) : Int := if f.ieee then (2 ^ f.xb - 2 : Nat) - (f.bias : Int) else (2 ^ f.xb - 1 : Nat) - (f.bias : Int)

/-- The least normal exponent. -/
def Fmt.emin (f : Fmt) : Int := 1 - (f.bias : Int)

/-- The canonical NaN (Table 02.2). -/
def Fmt.nan (f : Fmt) : Nat :=
  if f.ieee then (2 ^ f.xb - 1) * 2 ^ f.fb + 2 ^ (f.fb - 1) else 2 ^ (f.xb + f.fb) - 1

/-- Infinity with a sign, for a format that has one. -/
def Fmt.inf (f : Fmt) (neg : Bool) : Nat := (if neg then 2 ^ (f.xb + f.fb) else 0) + (2 ^ f.xb - 1) * 2 ^ f.fb

/-- The largest finite pattern with a sign (R41). -/
def Fmt.maxfin (f : Fmt) (neg : Bool) : Nat :=
  (if neg then 2 ^ (f.xb + f.fb) else 0) +
    (if f.ieee then (2 ^ f.xb - 2) * 2 ^ f.fb + (2 ^ f.fb - 1) else (2 ^ f.xb - 1) * 2 ^ f.fb + (2 ^ f.fb - 2))

/-- A signed zero. -/
def Fmt.zero (f : Fmt) (neg : Bool) : Nat := if neg then 2 ^ (f.xb + f.fb) else 0

/-- An exact rational: n / d · 2^e, with d positive. -/
structure Q where
  n : Int
  d : Nat := 1
  e : Int := 0
  deriving DecidableEq, Repr

/-- An integer as an exact value. -/
def Q.ofInt (n : Int) : Q := { n := n }

/-- 2 to a power that may be negative. -/
def Q.two (e : Int) : Q := { n := 1, e := e }

/-- Zero. -/
def Q.isZero (a : Q) : Bool := a.n == 0

def Q.neg (a : Q) : Q := { a with n := -a.n }

/-- Exact sum. -/
def Q.add (a b : Q) : Q :=
  let e := min a.e b.e
  let x := a.n * (2 ^ (a.e - e).toNat : Nat)
  let y := b.n * (2 ^ (b.e - e).toNat : Nat)
  if a.d = b.d then { n := x + y, d := a.d, e := e }
  else { n := x * (b.d : Int) + y * (a.d : Int), d := a.d * b.d, e := e }

def Q.sub (a b : Q) : Q := a.add b.neg

/-- Exact product. -/
def Q.mul (a b : Q) : Q := { n := a.n * b.n, d := a.d * b.d, e := a.e + b.e }

/-- Exact quotient; a zero divisor gives 0 (callers test it first). -/
def Q.div (a b : Q) : Q :=
  if b.n = 0 then { n := 0 }
  else { n := a.n * (b.d : Int) * b.n.sign, d := a.d * b.n.natAbs, e := a.e - b.e }

/-- Sign of a - b. -/
def Q.lt (a b : Q) : Bool := decide ((a.sub b).n < 0)
def Q.le (a b : Q) : Bool := decide ((a.sub b).n ≤ 0)
def Q.eq (a b : Q) : Bool := (a.sub b).n == 0
def Q.abs (a : Q) : Q := { a with n := a.n.natAbs }
def Q.max (a b : Q) : Q := if a.lt b then b else a
def Q.min (a b : Q) : Q := if b.lt a then b else a

/-- Scaled by a power of two. -/
def Q.scale (a : Q) (k : Int) : Q := { a with e := a.e + k }

/-- The numerator and denominator of |a| · 2^k as naturals. -/
def Q.ratio (a : Q) (k : Int) : Nat × Nat :=
  let s := a.e + k
  if 0 ≤ s then (a.n.natAbs * 2 ^ s.toNat, a.d) else (a.n.natAbs, a.d * 2 ^ (-s).toNat)

/-- floor(a). -/
def Q.floor (a : Q) : Int :=
  let s := a.e
  if 0 ≤ s then Int.fdiv (a.n * (2 ^ s.toNat : Nat)) a.d else Int.fdiv a.n (a.d * 2 ^ (-s).toNat : Nat)

/-- round_ne(v) with one argument (R38). -/
def Q.roundNe (a : Q) : Int :=
  let f := a.floor
  let r := a.sub (Q.ofInt f)
  let half : Q := { n := 1, e := -1 }
  if r.lt half then f else if half.lt r then f + 1 else if f % 2 = 0 then f else f + 1

/-- floor(log2 |a|) for a non-zero value. -/
def Q.log2 (a : Q) : Int :=
  let k : Int := (Nat.log2 a.n.natAbs : Int) - (Nat.log2 a.d : Int)
  let ge : Bool := if 0 ≤ k then decide (a.d * 2 ^ k.toNat ≤ a.n.natAbs) else decide (a.d ≤ a.n.natAbs * 2 ^ (-k).toNat)
  (if ge then k else k - 1) + a.e

/-- What a pattern encodes (R42): a NaN, signalling or not; an infinity; a number with its sign. -/
inductive FV where
  | nan (sig : Bool)
  | inf (neg : Bool)
  | fin (neg : Bool) (v : Q)
  deriving DecidableEq, Repr

/-- val(p, fmt) of R42. -/
def Fmt.val (f : Fmt) (p : Nat) : FV :=
  let s := bitOf p (f.xb + f.fb)
  let x := bitsOf p f.fb f.xb
  let fr := bitsOf p 0 f.fb
  let sg : Int := if s then -1 else 1
  if f.ieee && x == 2 ^ f.xb - 1 then (if fr = 0 then .inf s else .nan (!bitOf fr (f.fb - 1)))
  else if !f.ieee && x == 2 ^ f.xb - 1 && fr == 2 ^ f.fb - 1 then .nan false
  else if x = 0 then .fin s { n := sg * fr, e := 1 - (f.bias : Int) - f.fb }
  else .fin s { n := sg * (2 ^ f.fb + fr : Nat), e := (x : Int) - f.bias - f.fb }

/-- Rounding modes (R38). -/
inductive Mode where
  | ne | z | p | m
  deriving DecidableEq, Repr

/-- A rounded pattern and its flags. -/
structure Rnd where
  bits : Nat
  fl : BitVec 5 := 0
  deriving DecidableEq, Repr

/-- The overflow rule of R45 and R46: the result for a magnitude above the largest finite value. -/
def Fmt.overflow (f : Fmt) (mode : Mode) (neg : Bool) : Nat :=
  if !f.ieee then f.maxfin neg
  else match mode with
    | .ne => f.inf neg
    | .z => f.maxfin neg
    | .p => if neg then f.maxfin neg else f.inf neg
    | .m => if neg then f.inf neg else f.maxfin neg

/-- round(v, fmt, mode) of R38 for an exact value, with the flags of R50; `zneg` is the sign of a zero (R48). "Tiny after rounding" is judged on the delivered
result, which is below 2^emin (DEDUCED, log entry 18). -/
def roundTo (f : Fmt) (mode : Mode) (zneg : Bool) (v : Q) : Rnd :=
  if v.n = 0 then { bits := f.zero zneg }
  else
    let neg := decide (v.n < 0)
    let e := max v.log2 f.emin
    let (num, den) := v.ratio (f.fb - e)
    let lo := num / den
    let rem := num % den
    let inexact := rem != 0
    let up : Bool := match mode with
      | .ne => decide (den < 2 * rem) || (2 * rem == den && lo % 2 == 1)
      | .z => false
      | .p => inexact && !neg
      | .m => inexact && neg
    let r0 := if up then lo + 1 else lo
    let (r, e) := if r0 = 2 ^ (f.fb + 1) then (2 ^ f.fb, e + 1) else (r0, e)
    let sign := f.zero neg
    let nx : BitVec 5 := if inexact then flNX else 0
    if r < 2 ^ f.fb then
      { bits := sign + r, fl := nx ||| (if inexact then flUF else 0) }
    else if f.emax < e ∨ (f.ieee = false ∧ e = f.emax ∧ r = 2 ^ (f.fb + 1) - 1) then
      { bits := f.overflow mode neg, fl := flOF ||| flNX }
    else
      { bits := sign + (e + f.bias).toNat * 2 ^ f.fb + (r - 2 ^ f.fb), fl := nx }

/-- An exact result before rounding: NaN, infinity, or a value with the sign of its zero; and the flags of the
operation itself. -/
structure Exact where
  v : FV
  fl : BitVec 5 := 0
  deriving DecidableEq, Repr

/-- NV when an operand is a signalling NaN (R47). -/
def sigFlag : FV → BitVec 5
  | .nan true => flNV
  | _ => 0

/-- True for NaN. -/
def FV.isNan : FV → Bool
  | .nan _ => true
  | _ => false

/-- Change the sign of a value; a NaN stays NaN (R82). -/
def FV.neg : FV → FV
  | .nan s => .nan s
  | .inf n => .inf (!n)
  | .fin n v => .fin (!n) v.neg

/-- The sign of a value. -/
def FV.sign : FV → Bool
  | .nan _ => false
  | .inf n => n
  | .fin n _ => n

/-- Exact sum, with NV for infinities of both signs (R124) and the zero sign of R48. -/
def exAdd (a b : FV) : Exact :=
  let sf := sigFlag a ||| sigFlag b
  match a, b with
  | .nan _, _ => { v := .nan false, fl := sf }
  | _, .nan _ => { v := .nan false, fl := sf }
  | .inf x, .inf y => if x = y then { v := .inf x } else { v := .nan false, fl := flNV }
  | .inf x, .fin _ _ => { v := .inf x }
  | .fin _ _, .inf y => { v := .inf y }
  | .fin x p, .fin y q =>
    let s := p.add q
    { v := .fin (if s.n = 0 then x && y && p.n == 0 && q.n == 0 else decide (s.n < 0)) s }

/-- Exact product, with NV for 0 × ∞ (R124) and the sign of R48. -/
def exMul (a b : FV) : Exact :=
  let sf := sigFlag a ||| sigFlag b
  let s := a.sign != b.sign
  match a, b with
  | .nan _, _ => { v := .nan false, fl := sf }
  | _, .nan _ => { v := .nan false, fl := sf }
  | .inf _, .inf _ => { v := .inf s }
  | .inf _, .fin _ q => if q.n = 0 then { v := .nan false, fl := flNV } else { v := .inf s }
  | .fin _ p, .inf _ => if p.n = 0 then { v := .nan false, fl := flNV } else { v := .inf s }
  | .fin _ p, .fin _ q => { v := .fin s (p.mul q) }

/-- Exact a × b + c, one rounding to come; NV for 0 × ∞ whatever c is (R124). -/
def exFma (a b c : FV) : Exact :=
  let p := exMul a b
  let r := exAdd p.v c
  { v := r.v, fl := p.fl ||| r.fl ||| sigFlag c }

/-- a < b on values, with -0 below +0 (R49); NaN never. -/
def FV.below (a b : FV) : Bool :=
  match a, b with
  | .inf x, .inf y => x && !y
  | .inf x, .fin _ _ => x
  | .fin _ _, .inf y => !y
  | .fin x p, .fin y q => p.lt q || (p.eq q && x && !y && p.n == 0)
  | _, _ => false

/-- Minimum of R49. -/
def exMin (a b : FV) : Exact :=
  let sf := sigFlag a ||| sigFlag b
  match a, b with
  | .nan _, .nan _ => { v := .nan false, fl := sf }
  | .nan _, y => { v := y, fl := sf }
  | x, .nan _ => { v := x, fl := sf }
  | x, y => { v := if y.below x then y else x, fl := sf }

/-- Maximum of R49. -/
def exMax (a b : FV) : Exact :=
  let sf := sigFlag a ||| sigFlag b
  match a, b with
  | .nan _, .nan _ => { v := .nan false, fl := sf }
  | .nan _, y => { v := y, fl := sf }
  | x, .nan _ => { v := x, fl := sf }
  | x, y => { v := if x.below y then y else x, fl := sf }

/-- y := round(e · 2^scale, fmt, mode), with the flags of the operation and of the rounding (R82, R122). Infinities
and NaNs are unaffected by the scale. E4M3 takes NaN and infinity to its NaN with NV (R46). -/
def finish (f : Fmt) (mode : Mode) (scale : Int) (x : Exact) : Rnd :=
  match x.v with
  | .nan _ => { bits := f.nan, fl := x.fl ||| (if f.ieee then 0 else flNV) }
  | .inf n => if f.ieee then { bits := f.inf n, fl := x.fl } else { bits := f.nan, fl := x.fl ||| flNV }
  | .fin z v =>
    let r := roundTo f mode z (v.scale scale)
    { r with fl := r.fl ||| x.fl }

/-- 1.0 of a format. -/
def Fmt.one (f : Fmt) (neg : Bool) : Nat := f.zero neg + f.bias * 2 ^ f.fb

/-- SAT or CLP on a floating-point result (R82). -/
def fClampOut (f : Fmt) (sat clp : Bool) (p : Nat) : Nat :=
  let one : FV := .fin false { n := 1 }
  let zero : FV := .fin false { n := 0 }
  let v := f.val p
  if sat then
    match v with
    | .nan _ => f.zero false
    | _ => if one.below v then f.one false else if zero.below v then p else f.zero false
  else if clp then
    match v with
    | .nan _ => f.zero false
    | _ => if one.below v then f.one false else if v.below one.neg then f.one true else p
  else p

/-- round_ne of a binary32 sum: the ALU addition that reductions use (R60). -/
def f32Add (a b : Word) : Word × BitVec 5 :=
  let r := finish fmt32 .ne 0 (exAdd (fmt32.val a.toNat) (fmt32.val b.toNat))
  (BitVec.ofNat 32 r.bits, r.fl)

/-- The maximum of R49 on binary32 patterns. -/
def f32Max (a b : Word) : Word × BitVec 5 :=
  let r := finish fmt32 .ne 0 (exMax (fmt32.val a.toNat) (fmt32.val b.toNat))
  (BitVec.ofNat 32 r.bits, r.fl)

/-- A binary32 pattern from an exact value, round_ne; a zero is +0. -/
def f32Of (v : Q) : Word := BitVec.ofNat 32 (roundTo fmt32 .ne false v).bits

/-- The exact value of a binary32 pattern, if finite. -/
def f32Q (p : Word) : Option Q :=
  match fmt32.val p.toNat with
  | .fin _ v => some v
  | _ => none

/-- A pattern of one format converted to another, round_ne (R128). -/
def convert (fi fo : Fmt) (p : Nat) : Rnd :=
  let v := fi.val p
  finish fo .ne 0 { v := v, fl := sigFlag v }

/-- The integral value of a binary32 pattern in a mode (`frnd`, Table 06.5); never NX, a zero keeps the sign. -/
def frnd (mode : Mode) (p : Nat) : Rnd :=
  match fmt32.val p with
  | .nan s => { bits := fmt32.nan, fl := if s then flNV else 0 }
  | .inf n => { bits := fmt32.inf n }
  | .fin z v =>
    let f := v.floor
    let i : Int := match mode with
      | .ne => v.roundNe
      | .m => f
      | .p => if (Q.ofInt f).eq v then f else f + 1
      | .z => if z then (if (Q.ofInt f).eq v then f else f + 1) else f
    { bits := (roundTo fmt32 .ne z (Q.ofInt i)).bits }

/-- Truncation to an integer of 32 bits with saturation (R129). -/
def toInt32 (f : Fmt) (uns : Bool) (p : Nat) : Rnd :=
  let hi : Int := if uns then 2 ^ 32 - 1 else 2 ^ 31 - 1
  let lo : Int := if uns then 0 else -(2 ^ 31)
  match f.val p with
  | .nan _ => { bits := 0, fl := flNV }
  | .inf n => { bits := bitsI (if n then lo else hi) 32, fl := flNV }
  | .fin _ v =>
    let fl := v.floor
    let t := if v.n < 0 then (if (Q.ofInt fl).eq v then fl else fl + 1) else fl
    if hi < t then { bits := bitsI hi 32, fl := flNV }
    else if t < lo then { bits := bitsI lo 32, fl := flNV }
    else { bits := bitsI t 32, fl := if (Q.ofInt t).eq v then 0 else flNX }

/-- The ten-bit class mask of `fclass` (R125). -/
def fclassMask (p : Nat) : Nat :=
  match fmt32.val p with
  | .nan true => 2 ^ 8
  | .nan false => 2 ^ 9
  | .inf true => 2 ^ 0
  | .inf false => 2 ^ 7
  | .fin n v =>
    if v.n = 0 then (if n then 2 ^ 3 else 2 ^ 4)
    else if bitsOf p 23 8 = 0 then (if n then 2 ^ 2 else 2 ^ 5)
    else (if n then 2 ^ 1 else 2 ^ 6)

/-- A comparison of Table 06.3: the result and its flags. -/
def fcompare (cmp : Nat) (a b : FV) : Bool × BitVec 5 :=
  let sf := sigFlag a ||| sigFlag b
  if a.isNan || b.isNan then
    ((cmp == 1 || cmp == 6), sf ||| (if 2 ≤ cmp ∧ cmp ≤ 5 then flNV else 0))
  else
    let z : FV → FV := fun x => match x with
      | .fin _ v => if v.n = 0 then .fin false { n := 0 } else x
      | y => y
    let l := (z a).below (z b)
    let g := (z b).below (z a)
    let r := match cmp with
      | 0 => !l && !g
      | 1 => l || g
      | 2 => l
      | 3 => !g
      | 4 => g
      | 5 => !l
      | 6 => false
      | _ => true
    (r, sf)

/-- The mixing hash of R135. -/
def hmixHash (a b : Word) : Word :=
  let x := a ^^^ (b * 0x9E3779B9#32)
  let x := (x ^^^ (x >>> 16)) * 0x2C1B3C6D#32
  let x := (x ^^^ (x >>> 15)) * 0x297A2D39#32
  x ^^^ (x >>> 15)

end Sys2Proof.Machine
end

