-- ==== Sys2Proof/Machine/Brine.lean ====
section
/-! DEFINITION. Brine: the arithmetic of the engines: Brine blocks and the quantiser (02 R51 to R57), matrix chunk sums
(R55, R56, R59), bank MAC sums (R62), Rake blocks (12 R275, R276) and the prefix decoder (08 R185). -/

namespace Sys2Proof.Machine

/-! ### Brine blocks -/

/-- Magnitude bits of a Brine format code (Table 08.7): 4 Brine-3, 5 Brine-5, 6 Brine-8. -/
def brineBits (fmt : Nat) : Nat :=
  match fmt with
  | 4 => 2
  | 5 => 4
  | _ => 7

/-- Bytes of a block (Table 02.3). -/
def brineBytes (fmt : Nat) : Nat := 2 * (brineBits fmt + 1)

/-- Element `i` of a packed block: its sign and magnitude (R51). -/
def brineElem (fmt blk i : Nat) : Bool × Nat :=
  let w := brineBits fmt + 1
  (bitOf blk (i * w + w - 1), bitsOf blk (i * w) (w - 1))

/-- The exact block product of R55 of blocks with their scale entries, whose low byte holds the micro-exponents. -/
def blockProduct (fmt a sa b sb : Nat) : Q :=
  let sum : Int := ((List.range 16).map fun i =>
    let x := brineElem fmt a i
    let y := brineElem fmt b i
    let mu : Nat := (if bitOf sa (i / 2) then 1 else 0) + (if bitOf sb (i / 2) then 1 else 0)
    let p : Int := (x.2 * y.2 * 2 ^ (2 - mu) : Nat)
    if x.1 != y.1 then -p else p).sum
  { n := sum, e := -2 * (brineBits fmt : Int) }

/-- The `mma` partial of two blocks as a binary32 pattern; an exact zero is +0 (R55). -/
def brinePartial (fmt a sa b sb : Nat) : Word := f32Of (blockProduct fmt a sa b sb)

/-- A value scaled by a power of two. -/
def FV.scale (x : FV) (k : Int) : FV :=
  match x with
  | .fin z v => .fin z (v.scale k)
  | y => y

/-- `msca` on one element, with the exponents of the two scale entries (R56). -/
def brineScale (acc part : Word) (ea eb : Nat) : Word :=
  if ea = 0xFF ∨ eb = 0xFF then BitVec.ofNat 32 fmt32.nan
  else BitVec.ofNat 32 (finish fmt32 .ne 0
    (exAdd (fmt32.val acc.toNat) ((fmt32.val part.toNat).scale ((ea : Int) + eb - 254)))).bits

/-- The exact value of an input of the quantiser; none for NaN and infinity. -/
def finiteVal (f : Fmt) (p : Nat) : Option Q :=
  match f.val p with
  | .fin _ v => some v
  | _ => none

/-- The quantiser of R57 on 16 binary32 patterns: the packed block and its scale entry. -/
def quantBlock (fmt : Nat) (xs : List Nat) : Nat × Nat :=
  let m := brineBits fmt
  let w := m + 1
  let vs := xs.map (finiteVal fmt32)
  let sign (p : Nat) : Nat := if bitOf p 31 then 2 ^ m else 0
  let pack (es : List Nat) : Nat := es.foldr (fun e n => e + 2 ^ w * n) 0
  if vs.any Option.isNone then (0, 0xFF * 256)
  else
    let qs := vs.map fun v => (v.getD (Q.ofInt 0)).abs
    let nz := qs.filter fun q => q.n != 0
    match nz with
    | [] => (pack (xs.map sign), 0xFF)
    | q :: rest =>
      let emax := rest.foldl (fun e x => max e x.log2) q.log2
      let e := clampI (emax + 127) 0 254
      let small (j : Nat) : Bool := (qs.getD j (Q.ofInt 0)).lt (Q.two emax)
      let mu (j : Nat) : Nat := if small (2 * j) && small (2 * j + 1) then 1 else 0
      let mus := ((List.range 8).map fun j => mu j * 2 ^ j).sum
      let elem (i : Nat) : Nat :=
        let r := ((qs.getD i (Q.ofInt 0)).scale ((m : Int) - 1 + 127 - e + mu (i / 2))).roundNe.toNat
        sign (xs.getD i 0) + min r (2 ^ m - 1)
      (pack ((List.range 16).map elem), e.toNat * 256 + mus)

/-! ### Matrix chunks -/

/-- Element formats of the matrix engine (Table 08.7): 0 BF16, 1 FP16, 2 E4M3, 3 E5M2. -/
def matFmt (fmt : Nat) : Fmt :=
  match fmt with
  | 0 => fmtBf
  | 1 => fmt16
  | 2 => fmtE4
  | _ => fmtE5

/-- The exact sum of a non-empty list of products; NaN for infinities of both signs (R59). -/
def exactSum : FV → List FV → FV
  | a, [] => a
  | a, b :: rest => exactSum (exAdd a b).v rest

/-- One chunk of R59 added to an accumulator: one rounding. -/
def chunkAdd (acc : Word) (ps : List FV) : Word :=
  match ps with
  | [] => acc
  | p :: rest => BitVec.ofNat 32 (finish fmt32 .ne 0 (exAdd (fmt32.val acc.toNat) (exactSum p rest))).bits

/-- The chunks of R59 in ascending order of k over `n` chunks; `prod k` is the exact product at k. -/
def chunks (prod : Nat → FV) (acc : Word) (n : Nat) : Word :=
  (List.range n).foldl (fun a j => chunkAdd a ((List.range 16).map fun i => prod (16 * j + i))) acc

/-! ### Bank MAC arithmetic -/

/-- A BF16 input of a bank MAC: a subnormal is a zero of its sign (R62). -/
def macInput (p : Nat) : FV :=
  match fmtBf.val p with
  | .fin s v => if bitsOf p 7 8 = 0 then .fin s (Q.ofInt 0) else .fin s v
  | x => x

/-- A product accumulated (R62): exact; below 2^-126 it is flushed to zero; NaN and the infinities are sticky. -/
def BankAcc.addProduct (a : BankAcc) (x y : Nat) : BankAcc :=
  match (exMul (macInput x) (macInput y)).v with
  | .nan _ => { a with nan := true }
  | .inf n => if n then { a with ninf := true } else { a with pinf := true }
  | .fin _ v =>
    if v.n = 0 ∨ v.abs.lt (Q.two (-126)) then a
    else { a with sum := sext (bitsI (a.sum + (v.scale 266).floor) 560) 560 }

/-- The read-out of R62: one rounding; a result below 2^-126 is flushed to zero with the sign of the sum. -/
def BankAcc.readOut (a : BankAcc) : Word :=
  if a.nan || (a.pinf && a.ninf) then BitVec.ofNat 32 fmt32.nan
  else if a.pinf then BitVec.ofNat 32 (fmt32.inf false)
  else if a.ninf then BitVec.ofNat 32 (fmt32.inf true)
  else
    let r := (roundTo fmt32 .ne false { n := a.sum, e := -266 }).bits
    if bitsOf r 23 8 = 0 then BitVec.ofNat 32 (fmt32.zero (decide (a.sum < 0))) else BitVec.ofNat 32 r

/-! ### Rake blocks -/

/-- The delta width of R275: the least w in 1 to 32 that holds every delta. -/
def rakeWidth (ds : List Int) : Nat :=
  (((List.range 32).map (· + 1)).find? fun w => ds.all fun d =>
    decide (-(2 ^ (w - 1) : Nat) ≤ d) && decide (d < (2 ^ (w - 1) : Nat))).getD 32

/-- A plane of 16 words as a Rake block (R275, Table 12.3), as bytes. -/
def rakeEncode (t : List Nat) : List Byte :=
  let bytes (n v : Nat) : List Byte := (List.range n).map fun i => BitVec.ofNat 8 (v / 256 ^ i)
  let t0 := t.headD 0
  if t.all (· == t0) then bytes 4 (2 * 2 ^ 30) ++ bytes 4 t0
  else
    let ds := t.tail.map fun (x : Nat) => sext (bitsI ((x : Int) - t0) 32) 32
    let d := rakeWidth ds
    let size := 8 * ceilDiv (8 + ceilDiv (15 * d) 8) 8
    if size < 72 then
      let packed := ds.foldr (fun x n => bitsI x d + 2 ^ d * n) 0
      bytes 4 (2 ^ 30 + d * 2 ^ 24) ++ bytes 4 t0 ++ bytes (size - 8) packed
    else bytes 4 0 ++ bytes 4 t0 ++ (t.tail.flatMap (bytes 4)) ++ bytes 4 0

/-- The length of a Rake block from its header; none for a malformed one (R277). -/
def rakeLength (hdr : Nat) : Option Nat :=
  let mode := bitsOf hdr 30 2
  let d := bitsOf hdr 24 6
  if bitsOf hdr 0 24 ≠ 0 then none
  else match mode with
    | 0 => if d = 0 then some 72 else none
    | 1 => if d = 0 ∨ 32 < d then none else some (8 * ceilDiv (8 + ceilDiv (15 * d) 8) 8)
    | 2 => if d = 0 then some 8 else none
    | _ => none

/-- The 16 words of a Rake block given as a number of its bytes, least significant first (R275). -/
def rakeDecode (v : Nat) : List Nat :=
  let mode := bitsOf v 30 2
  let d := bitsOf v 24 6
  let t0 := bitsOf v 32 32
  match mode with
  | 0 => (List.range 16).map fun i => bitsOf v (32 + 32 * i) 32
  | 1 => t0 :: (List.range 15).map fun i => bitsI ((t0 : Int) + sext (bitsOf v (64 + i * d) d) d) 32
  | _ => List.replicate 16 t0

/-! ### The prefix decoder -/

/-- The 256 code lengths of a code table (R185). -/
def codeLengths (tab : List Byte) : List Nat := tab.flatMap fun b => [b.toNat % 16, b.toNat / 16]

/-- The Kraft sum is above 1: malformed (R185). -/
def overfull (lens : List Nat) : Bool :=
  decide (2 ^ 15 < ((lens.filter fun l => l != 0).map fun l => 2 ^ (15 - l)).sum)

/-- The first code of each length, from 1 on (R185). -/
def firstCodes (lens : List Nat) : Nat → Nat × List Nat
  | 0 => (0, [0])
  | l + 1 =>
    let r := firstCodes lens l
    let cnt := if l = 0 then 0 else (lens.filter fun x => x == l).length
    let code := (r.1 + cnt) * 2
    (code, r.2 ++ [code])

/-- The symbols with their lengths and codes, in ascending order of symbol (R185). -/
def codeTable (lens : List Nat) : List (Nat × Nat × Nat) :=
  let next := (firstCodes lens 15).2
  (((List.range 256).zip lens).foldl (fun (r : List Nat × List (Nat × Nat × Nat)) x =>
    if x.2 = 0 then r
    else (r.1.set x.2 (r.1.getD x.2 0 + 1), r.2 ++ [(x.2, r.1.getD x.2 0, x.1)])) (next, [])).2

end Sys2Proof.Machine
end

