-- ==== Sys2Proof/WellFormed.lean ====
section
/-! DEFINITION. WellFormed: every field of an instruction fits the bits its encoding gives it, and every argument
of a step or event names a thing that exists. An encoding that fits but is refused by a rule (an odd pair, operand
code 124) is well-formed: the machine traps on it (R84). -/

namespace Sys2Proof

/-- Every field of the modifier fits its bits (Table 03.5). -/
def Modifier.wf (q : Modifier) : Bool :=
  decide (q.scale < 32) && decide (q.kg < 64) && decide (q.ord < 4) && decide (q.scope < 8)
    && !(q.c && q.sat && q.clp && q.na && q.nb && q.aa && q.ab && q.scale == 31 && q.kg == 63 && q.gn && q.hb && q.ord == 3 && q.scope == 7 && q.rsv)

/-- A modifier, if present, is well-formed. -/
def wfMod : Option Modifier → Bool
  | none => true
  | some q => q.wf

/-- The fields of a `FTrap` fit their bits. -/
def FTrap.wf (f : FTrap) : Bool :=
  decide (f.i < 1048576)

/-- The fields of a `FR` fit their bits. -/
def FR.wf (f : FR) : Bool :=
  decide (f.d < 128) && decide (f.a < 128) && decide (f.b < 128)

/-- The fields of a `FUn` fit their bits. -/
def FUn.wf (f : FUn) : Bool :=
  decide (f.d < 128) && decide (f.a < 128)

/-- The fields of a `FRt` fit their bits. -/
def FRt.wf (f : FRt) : Bool :=
  decide (f.d < 128) && decide (f.a < 128) && decide (f.b < 128)

/-- The fields of a `FI` fit their bits. -/
def FI.wf (f : FI) : Bool :=
  decide (f.d < 128) && decide (f.a < 128) && decide (f.i < 512)

/-- The fields of a `FSh` fit their bits. -/
def FSh.wf (f : FSh) : Bool :=
  decide (f.d < 128) && decide (f.a < 128) && decide (f.i < 32)

/-- The fields of a `FL` fit their bits. -/
def FL.wf (f : FL) : Bool :=
  decide (f.d < 128) && decide (f.i < 65536)

/-- The fields of a `FSetx` fit their bits. -/
def FSetx.wf (f : FSetx) : Bool :=
  decide (f.a < 128) && decide (f.x < 4) && decide (f.i < 1024)

/-- The fields of a `FMovr` fit their bits. -/
def FMovr.wf (f : FMovr) : Bool :=
  decide (f.d < 128) && decide (f.x < 4) && decide (f.i < 1024)

/-- The fields of a `FMovw` fit their bits. -/
def FMovw.wf (f : FMovw) : Bool :=
  decide (f.s < 128) && decide (f.x < 4) && decide (f.i < 1024)

/-- The fields of a `FWin` fit their bits. -/
def FWin.wf (f : FWin) : Bool :=
  decide (f.l < 256) && decide (f.b < 256)

/-- The fields of a `FP` fit their bits. -/
def FP.wf (f : FP) : Bool :=
  decide (f.p < 8) && decide (f.k < 64) && decide (f.a < 128) && decide (f.b < 128)

/-- The fields of a `FPl` fit their bits. -/
def FPl.wf (f : FPl) : Bool :=
  decide (f.k < 64) && decide (f.j < 64) && decide (f.l < 64)

/-- The fields of a `FKpack` fit their bits. -/
def FKpack.wf (f : FKpack) : Bool :=
  decide (f.k < 64) && decide (f.d < 128) && decide (f.n < 64)

/-- The fields of a `FKunp` fit their bits. -/
def FKunp.wf (f : FKunp) : Bool :=
  decide (f.k < 64) && decide (f.a < 128) && decide (f.n < 64)

/-- The fields of a `FKset` fit their bits. -/
def FKset.wf (f : FKset) : Bool :=
  decide (f.k < 64)

/-- The fields of a `FSmov` fit their bits. -/
def FSmov.wf (f : FSmov) : Bool :=
  decide (f.d < 64) && decide (f.a < 64)

/-- The fields of a `FSli` fit their bits. -/
def FSli.wf (f : FSli) : Bool :=
  decide (f.d < 64) && decide (f.i < 1024)

/-- The fields of a `FSop` fit their bits. -/
def FSop.wf (f : FSop) : Bool :=
  decide (f.d < 64) && decide (f.a < 64) && decide (f.b < 64)

/-- The fields of a `FSsh` fit their bits. -/
def FSsh.wf (f : FSsh) : Bool :=
  decide (f.d < 64) && decide (f.a < 64) && decide (f.i < 32)

/-- The fields of a `FSmovv` fit their bits. -/
def FSmovv.wf (f : FSmovv) : Bool :=
  decide (f.a < 64) && decide (f.d < 128)

/-- The fields of a `FVmovs` fit their bits. -/
def FVmovs.wf (f : FVmovs) : Bool :=
  decide (f.d < 64) && decide (f.a < 128)

/-- The fields of a `FSld` fit their bits. -/
def FSld.wf (f : FSld) : Bool :=
  decide (f.d < 64) && decide (f.a < 64) && decide (f.i < 1024)

/-- The fields of a `FScmp` fit their bits. -/
def FScmp.wf (f : FScmp) : Bool :=
  decide (f.k < 64) && decide (f.a < 64) && decide (f.p < 8) && decide (f.b < 64)

/-- The fields of a `FB` fit their bits. -/
def FB.wf (f : FB) : Bool :=
  decide (f.k < 64) && decide (f.d < 262144)

/-- The fields of a `FA` fit their bits. -/
def FA.wf (f : FA) : Bool :=
  decide (f.a < 128)

/-- The fields of a `FXv` fit their bits. -/
def FXv.wf (f : FXv) : Bool :=
  decide (f.d < 128) && decide (f.a < 128)

/-- The fields of a `FXh` fit their bits. -/
def FXh.wf (f : FXh) : Bool :=
  decide (f.d < 128) && decide (f.a < 128)

/-- The fields of a `FXe` fit their bits. -/
def FXe.wf (f : FXe) : Bool :=
  decide (f.d < 128) && decide (f.a < 128) && decide (f.s < 4)

/-- The fields of a `FXu` fit their bits. -/
def FXu.wf (f : FXu) : Bool :=
  decide (f.d < 128) && decide (f.a < 128)

/-- The fields of a `FDsubf` fit their bits. -/
def FDsubf.wf (f : FDsubf) : Bool :=
  decide (f.d < 128) && decide (f.a < 64) && decide (f.b < 64)

/-- The fields of a `FDmin` fit their bits. -/
def FDmin.wf (f : FDmin) : Bool :=
  decide (f.d < 64) && decide (f.a < 64) && decide (f.b < 64)

/-- The fields of a `FDcmp` fit their bits. -/
def FDcmp.wf (f : FDcmp) : Bool :=
  decide (f.k < 64) && decide (f.a < 64) && decide (f.b < 64) && decide (f.p < 4)

/-- The fields of a `FLd` fit their bits. -/
def FLd.wf (f : FLd) : Bool :=
  decide (f.z < 8) && decide (f.d < 128) && decide (f.a < 128) && decide (f.o < 128)

/-- The fields of a `FSt` fit their bits. -/
def FSt.wf (f : FSt) : Bool :=
  decide (f.z < 8) && decide (f.s < 128) && decide (f.a < 128) && decide (f.o < 128)

/-- The fields of a `FAtom` fit their bits. -/
def FAtom.wf (f : FAtom) : Bool :=
  decide (f.d < 128) && decide (f.a < 128) && decide (f.b < 128)

/-- The fields of a `FPb` fit their bits. -/
def FPb.wf (f : FPb) : Bool :=
  decide (f.a < 128) && decide (f.b < 128)

/-- The fields of a `FPbw` fit their bits. -/
def FPbw.wf (f : FPbw) : Bool :=
  decide (f.a < 128)

/-- The fields of a `FPbt` fit their bits. -/
def FPbt.wf (f : FPbt) : Bool :=
  decide (f.k < 64) && decide (f.a < 128)

/-- The fields of a `FWaitc` fit their bits. -/
def FWaitc.wf (f : FWaitc) : Bool :=
  decide (f.a < 128) && decide (f.b < 128) && decide (f.p < 8)

/-- The fields of a `FLdsc` fit their bits. -/
def FLdsc.wf (f : FLdsc) : Bool :=
  decide (f.d < 128) && decide (f.a < 128) && decide (f.z < 4)

/-- The fields of a `FStsc` fit their bits. -/
def FStsc.wf (f : FStsc) : Bool :=
  decide (f.a < 128) && decide (f.b < 128) && decide (f.z < 4)

/-- The fields of a `FAsc` fit their bits. -/
def FAsc.wf (f : FAsc) : Bool :=
  decide (f.d < 128) && decide (f.a < 64) && decide (f.b < 128)

/-- The fields of a `FPref` fit their bits. -/
def FPref.wf (f : FPref) : Bool :=
  decide (f.a < 128) && decide (f.l < 4)

/-- The fields of a `FAcq` fit their bits. -/
def FAcq.wf (f : FAcq) : Bool :=
  decide (f.k < 4) && decide (f.n < 256)

/-- The fields of a `FAcqt` fit their bits. -/
def FAcqt.wf (f : FAcqt) : Bool :=
  decide (f.d < 128) && decide (f.k < 64) && decide (f.t < 4) && decide (f.n < 32)

/-- The fields of a `FQput` fit their bits. -/
def FQput.wf (f : FQput) : Bool :=
  decide (f.a < 128) && decide (f.b < 128) && decide (f.q < 8)

/-- The fields of a `FQget` fit their bits. -/
def FQget.wf (f : FQget) : Bool :=
  decide (f.d < 128) && decide (f.q < 8)

/-- The fields of a `FQfree` fit their bits. -/
def FQfree.wf (f : FQfree) : Bool :=
  decide (f.d < 128) && decide (f.a < 128) && decide (f.q < 8)

/-- The fields of a `FTdef` fit their bits. -/
def FTdef.wf (f : FTdef) : Bool :=
  decide (f.a < 64) && decide (f.t < 64)

/-- The fields of a `FTstat` fit their bits. -/
def FTstat.wf (f : FTstat) : Bool :=
  decide (f.k < 64) && decide (f.t < 64)

/-- The fields of a `FXu1` fit their bits. -/
def FXu1.wf (f : FXu1) : Bool :=
  decide (f.a < 64)

/-- The fields of a `FXs` fit their bits. -/
def FXs.wf (f : FXs) : Bool :=
  decide (f.d < 128) && decide (f.a < 128) && decide (f.s < 64)

/-- The fields of a `FCexp` fit their bits. -/
def FCexp.wf (f : FCexp) : Bool :=
  decide (f.a < 128) && decide (f.t < 8)

/-- The fields of a `FSalloc` fit their bits. -/
def FSalloc.wf (f : FSalloc) : Bool :=
  decide (f.d < 64) && decide (f.a < 64)

/-- The fields of a `FMzero` fit their bits. -/
def FMzero.wf (f : FMzero) : Bool :=
  decide (f.s < 8)

/-- The fields of a `FMdrain` fit their bits. -/
def FMdrain.wf (f : FMdrain) : Bool :=
  decide (f.d < 128) && decide (f.s < 64)

/-- The fields of a `FMstat` fit their bits. -/
def FMstat.wf (f : FMstat) : Bool :=
  decide (f.k < 64) && decide (f.s < 8)

/-- The fields of a `FEmit` fit their bits. -/
def FEmit.wf (f : FEmit) : Bool :=
  decide (f.a < 128) && decide (f.j < 16)

/-- The fields of a `FEmitt` fit their bits. -/
def FEmitt.wf (f : FEmitt) : Bool :=
  decide (f.k < 64) && decide (f.a < 128) && decide (f.j < 16)

/-- The fields of a `FSysrd` fit their bits. -/
def FSysrd.wf (f : FSysrd) : Bool :=
  decide (f.d < 128) && decide (f.a < 128) && decide (f.n < 64)

/-- The fields of a `FSyswr` fit their bits. -/
def FSyswr.wf (f : FSyswr) : Bool :=
  decide (f.a < 128) && decide (f.n < 64)

/-- The fields of a `FBallot` fit their bits. -/
def FBallot.wf (f : FBallot) : Bool :=
  decide (f.d < 128) && decide (f.k < 64)

/-- The fields of a `FKg` fit their bits. -/
def FKg.wf (f : FKg) : Bool :=
  decide (f.k < 64) && decide (f.j < 64)

/-- The fields of a `FXidx` fit their bits. -/
def FXidx.wf (f : FXidx) : Bool :=
  decide (f.d < 128) && decide (f.a < 128) && decide (f.t < 8)

/-- The fields of a `FXfer` fit their bits. -/
def FXfer.wf (f : FXfer) : Bool :=
  decide (f.d < 128) && decide (f.a < 128) && decide (f.i < 64)

/-- The fields of a `FScan` fit their bits. -/
def FScan.wf (f : FScan) : Bool :=
  decide (f.d < 128) && decide (f.a < 128)

/-- The fields of a `FGpos` fit their bits. -/
def FGpos.wf (f : FGpos) : Bool :=
  decide (f.d < 128)

/-- The fields of a `FGfirst` fit their bits. -/
def FGfirst.wf (f : FGfirst) : Bool :=
  decide (f.k < 64)

/-- The fields of a `FEnd` fit their bits. -/
def FEnd.wf (f : FEnd) : Bool :=
  decide (f.w < 65536)

/-- Well-formedness of an instruction. -/
def Instr.wf : Instr → Bool
  | .nop _ => true
  | .exit _ q => wfMod q
  | .trap f q => f.wf && wfMod q
  | .trapret _ q => wfMod q
  | .bkpt _ q => wfMod q
  | .yield _ q => wfMod q
  | .iadd f q => f.wf && wfMod q
  | .isub f q => f.wf && wfMod q
  | .imul f q => f.wf && wfMod q
  | .imulhU f q => f.wf && wfMod q
  | .imulhS f q => f.wf && wfMod q
  | .iabs f q => f.wf && wfMod q
  | .imad f q => f.wf && wfMod q
  | .iminS f q => f.wf && wfMod q
  | .imaxS f q => f.wf && wfMod q
  | .iminU f q => f.wf && wfMod q
  | .imaxU f q => f.wf && wfMod q
  | .and f q => f.wf && wfMod q
  | .or f q => f.wf && wfMod q
  | .xor f q => f.wf && wfMod q
  | .andn f q => f.wf && wfMod q
  | .shl f q => f.wf && wfMod q
  | .shr f q => f.wf && wfMod q
  | .sar f q => f.wf && wfMod q
  | .rot f q => f.wf && wfMod q
  | .popc f q => f.wf && wfMod q
  | .clz f q => f.wf && wfMod q
  | .bfxU f q => f.wf && wfMod q
  | .bfxS f q => f.wf && wfMod q
  | .bfi f q => f.wf && wfMod q
  | .iaddW f q => f.wf && wfMod q
  | .isubW f q => f.wf && wfMod q
  | .iaddi f q => f.wf && wfMod q
  | .andi f q => f.wf && wfMod q
  | .ori f q => f.wf && wfMod q
  | .xori f q => f.wf && wfMod q
  | .shli f q => f.wf && wfMod q
  | .shri f q => f.wf && wfMod q
  | .sari f q => f.wf && wfMod q
  | .muli f q => f.wf && wfMod q
  | .brev f q => f.wf && wfMod q
  | .lea f q => f.wf && wfMod q
  | .li f q => f.wf && wfMod q
  | .liu f q => f.wf && wfMod q
  | .lhi f q => f.wf && wfMod q
  | .mov f q => f.wf && wfMod q
  | .sel f q => f.wf && wfMod q
  | .setx f q => f.wf && wfMod q
  | .movxR f q => f.wf && wfMod q
  | .movxW f q => f.wf && wfMod q
  | .win f q => f.wf && wfMod q
  | .icmpS f q => f.wf && wfMod q
  | .icmpU f q => f.wf && wfMod q
  | .pand f q => f.wf && wfMod q
  | .por f q => f.wf && wfMod q
  | .pxor f q => f.wf && wfMod q
  | .pandn f q => f.wf && wfMod q
  | .kpack f q => f.wf && wfMod q
  | .kunpack f q => f.wf && wfMod q
  | .kset f q => f.wf && wfMod q
  | .smov f q => f.wf && wfMod q
  | .sli f q => f.wf && wfMod q
  | .sadd f q => f.wf && wfMod q
  | .ssub f q => f.wf && wfMod q
  | .sand f q => f.wf && wfMod q
  | .sor f q => f.wf && wfMod q
  | .sshl f q => f.wf && wfMod q
  | .sshr f q => f.wf && wfMod q
  | .smovv f q => f.wf && wfMod q
  | .vmovs f q => f.wf && wfMod q
  | .sld f q => f.wf && wfMod q
  | .scmp f q => f.wf && wfMod q
  | .bra f q => f.wf && wfMod q
  | .call f q => f.wf && wfMod q
  | .jmpr f q => f.wf && wfMod q
  | .ret f q => f.wf && wfMod q
  | .fadd f q => f.wf && wfMod q
  | .fsub f q => f.wf && wfMod q
  | .fmul f q => f.wf && wfMod q
  | .fmin f q => f.wf && wfMod q
  | .ffma f q => f.wf && wfMod q
  | .fmax f q => f.wf && wfMod q
  | .fclass f q => f.wf && wfMod q
  | .frndNe f q => f.wf && wfMod q
  | .frndZ f q => f.wf && wfMod q
  | .frndP f q => f.wf && wfMod q
  | .frndM f q => f.wf && wfMod q
  | .f2iS f q => f.wf && wfMod q
  | .f2iU f q => f.wf && wfMod q
  | .i2fS f q => f.wf && wfMod q
  | .i2fU f q => f.wf && wfMod q
  | .f2h f q => f.wf && wfMod q
  | .h2f f q => f.wf && wfMod q
  | .f2bf f q => f.wf && wfMod q
  | .bf2f f q => f.wf && wfMod q
  | .f2e4 f q => f.wf && wfMod q
  | .e42f f q => f.wf && wfMod q
  | .f2e5 f q => f.wf && wfMod q
  | .e52f f q => f.wf && wfMod q
  | .fcmp f q => f.wf && wfMod q
  | .hadd2 f q => f.wf && wfMod q
  | .hmul2 f q => f.wf && wfMod q
  | .hfma2 f q => f.wf && wfMod q
  | .bfma2 f q => f.wf && wfMod q
  | .dadd f q => f.wf && wfMod q
  | .dmul f q => f.wf && wfMod q
  | .dfma f q => f.wf && wfMod q
  | .d2f f q => f.wf && wfMod q
  | .f2d f q => f.wf && wfMod q
  | .d2i f q => f.wf && wfMod q
  | .i2d f q => f.wf && wfMod q
  | .dsubf f q => f.wf && wfMod q
  | .dmin f q => f.wf && wfMod q
  | .dmax f q => f.wf && wfMod q
  | .dcmp f q => f.wf && wfMod q
  | .rcp f q => f.wf && wfMod q
  | .rsq f q => f.wf && wfMod q
  | .sqrt f q => f.wf && wfMod q
  | .ex2 f q => f.wf && wfMod q
  | .lg2 f q => f.wf && wfMod q
  | .sin f q => f.wf && wfMod q
  | .cos f q => f.wf && wfMod q
  | .tanh f q => f.wf && wfMod q
  | .hmix f q => f.wf && wfMod q
  | .ld f q => f.wf && wfMod q
  | .st f q => f.wf && wfMod q
  | .lds f q => f.wf && wfMod q
  | .sts f q => f.wf && wfMod q
  | .ldt f q => f.wf && wfMod q
  | .stt f q => f.wf && wfMod q
  | .atomAdd f q => f.wf && wfMod q
  | .atomMinS f q => f.wf && wfMod q
  | .atomMinU f q => f.wf && wfMod q
  | .atomMaxS f q => f.wf && wfMod q
  | .atomMaxU f q => f.wf && wfMod q
  | .atomAnd f q => f.wf && wfMod q
  | .atomOr f q => f.wf && wfMod q
  | .atomXor f q => f.wf && wfMod q
  | .exch f q => f.wf && wfMod q
  | .cas f q => f.wf && wfMod q
  | .atomRinc f q => f.wf && wfMod q
  | .atomRdec f q => f.wf && wfMod q
  | .atomFadd f q => f.wf && wfMod q
  | .fence _ q => wfMod q
  | .fenceT _ q => wfMod q
  | .bar _ q => wfMod q
  | .barS _ q => wfMod q
  | .pbinit f q => f.wf && wfMod q
  | .pbarrive f q => f.wf && wfMod q
  | .pbexpect f q => f.wf && wfMod q
  | .pbwait f q => f.wf && wfMod q
  | .pbtest f q => f.wf && wfMod q
  | .waitc f q => f.wf && wfMod q
  | .ldsc f q => f.wf && wfMod q
  | .stsc f q => f.wf && wfMod q
  | .atomscAdd f q => f.wf && wfMod q
  | .atomscCas f q => f.wf && wfMod q
  | .cflush f q => f.wf && wfMod q
  | .cinv f q => f.wf && wfMod q
  | .prefetch f q => f.wf && wfMod q
  | .acqB f q => f.wf && wfMod q
  | .acqT f q => f.wf && wfMod q
  | .rel f q => f.wf && wfMod q
  | .qput f q => f.wf && wfMod q
  | .qget f q => f.wf && wfMod q
  | .qfree f q => f.wf && wfMod q
  | .tdef f q => f.wf && wfMod q
  | .tstat f q => f.wf && wfMod q
  | .kick f q => f.wf && wfMod q
  | .bankjob f q => f.wf && wfMod q
  | .suld f q => f.wf && wfMod q
  | .sust f q => f.wf && wfMod q
  | .tex f q => f.wf && wfMod q
  | .texl f q => f.wf && wfMod q
  | .texg f q => f.wf && wfMod q
  | .zexp f q => f.wf && wfMod q
  | .cexp f q => f.wf && wfMod q
  | .occ f q => f.wf && wfMod q
  | .salloc f q => f.wf && wfMod q
  | .sfree f q => f.wf && wfMod q
  | .mma f q => f.wf && wfMod q
  | .msca f q => f.wf && wfMod q
  | .mzero f q => f.wf && wfMod q
  | .mload f q => f.wf && wfMod q
  | .mdrain f q => f.wf && wfMod q
  | .mdrainAdd f q => f.wf && wfMod q
  | .mstat f q => f.wf && wfMod q
  | .emit f q => f.wf && wfMod q
  | .emitT f q => f.wf && wfMod q
  | .sysrd f q => f.wf && wfMod q
  | .syswr f q => f.wf && wfMod q
  | .ballot f q => f.wf && wfMod q
  | .kgor f q => f.wf && wfMod q
  | .kgand f q => f.wf && wfMod q
  | .xferIdx f q => f.wf && wfMod q
  | .xferRot f q => f.wf && wfMod q
  | .xferSh f q => f.wf && wfMod q
  | .xferFlip f q => f.wf && wfMod q
  | .gredAdd f q => f.wf && wfMod q
  | .gredMin f q => f.wf && wfMod q
  | .gredMax f q => f.wf && wfMod q
  | .gredFadd f q => f.wf && wfMod q
  | .gredFmax f q => f.wf && wfMod q
  | .gscanAdd f q => f.wf && wfMod q
  | .gpos f q => f.wf && wfMod q
  | .gsize f q => f.wf && wfMod q
  | .gfirst f q => f.wf && wfMod q
  | .pick f q => f.wf && wfMod q
  | .endrun f => f.wf
  | .fusedSoftmax => true
  | .runStart => true
  | .trailerRetire => true
  | .resultLanding col core => decide (col < 12) && decide (core < 48)
  | .loadPerformed col core _ => decide (col < 12) && decide (core < 48)
  | .gangFormation col core half => decide (col < 12) && decide (core < 48) && decide (half < 2)
  | .joinHoldEnd col core half => decide (col < 12) && decide (core < 48) && decide (half < 2)
  | .yieldEnd col core half => decide (col < 12) && decide (core < 48) && decide (half < 2)
  | .faultDomainStop _ => true
  | .collectiveReplay _ _ => true
  | .relCompletion _ => true
  | .holdingsReturn _ => true
  | .waitcRepoll _ => true
  | .l1AgeWriteback col core _ => decide (col < 12) && decide (core < 48)
  | .l1AgeInvalidate col core _ => decide (col < 12) && decide (core < 48)
  | .translationWalk col core _ => decide (col < 12) && decide (core < 48)
  | .pendingRewalk col core _ => decide (col < 12) && decide (core < 48)
  | .pendingTimeout col core _ => decide (col < 12) && decide (core < 48)
  | .copy col core _ => decide (col < 12) && decide (core < 48)
  | .gather col core _ => decide (col < 12) && decide (core < 48)
  | .fill col core _ => decide (col < 12) && decide (core < 48)
  | .decompress col core _ => decide (col < 12) && decide (core < 48)
  | .quantise col core _ => decide (col < 12) && decide (core < 48)
  | .tileFillComplete col core tile => decide (col < 12) && decide (core < 48) && decide (tile < 64)
  | .cardLock col core _ => decide (col < 12) && decide (core < 48)
  | .clear col core _ => decide (col < 12) && decide (core < 48)
  | .bcast col core _ => decide (col < 12) && decide (core < 48)
  | .mulrows col core _ => decide (col < 12) && decide (core < 48)
  | .readout col core _ => decide (col < 12) && decide (core < 48)
  | .cardEnd col core _ => decide (col < 12) && decide (core < 48)
  | .matrixWordCompletion col core => decide (col < 12) && decide (core < 48)
  | .currentStep col cluster => decide (col < 12) && decide (cluster < 12)
  | .issueUnitIdleRelease col core half => decide (col < 12) && decide (core < 48) && decide (half < 2)
  | .capChange col cluster cap refill => decide (col < 12) && decide (cluster < 12) && decide (cap < 353) && decide (refill < 65)
  | .rakeSpill vf _ _ => decide (vf < 64)
  | .rakeRefill vf _ _ => decide (vf < 64)
  | .surfaceDiscard vf _ => decide (vf < 64)
  | .raster vf _ node => decide (vf < 64) && decide (node < 4096)
  | .drawRetire twin draw => decide (twin < 6) && decide (draw < 65536)
  | .gate vf _ node => decide (vf < 64) && decide (node < 4096)
  | .traverse vf _ node => decide (vf < 64) && decide (node < 4096)
  | .classify vf _ node => decide (vf < 64) && decide (node < 4096)
  | .net vf _ node => decide (vf < 64) && decide (node < 4096)
  | .copyNode vf _ node => decide (vf < 64) && decide (node < 4096)
  | .hostqModerationExpiry vf => decide (vf < 64)
  | .groupLaunch vf _ node => decide (vf < 64) && decide (node < 4096)
  | .coalesceTimeout vf _ node => decide (vf < 64) && decide (node < 4096)
  | .groupAdmission col => decide (col < 12)
  | .preemptionOnQuantum col => decide (col < 12)
  | .preemptionHalt _ => true
  | .imageSave _ => true
  | .preemptionTimeout _ => true
  | .groupRestore _ => true
  | .hostTailWrite vf _ addr tail _ => decide (vf < 64) && decide (addr < 18446744073709551616) && decide (tail < 4294967296)
  | .bar2Access vf _ addr size _ value => decide (vf < 64) && decide (addr < 18446744073709551616) && decide (size < 9) && decide (value < 18446744073709551616)
  | .rootWrite vf addr => decide (vf < 64) && decide (addr < 18446744073709551616)
  | .bctlGo vf cols count => decide (vf < 64) && decide (cols < 4096) && decide (count < 4096)
  | .bctlUnbind vf => decide (vf < 64)
  | .tsplitw vf value => decide (vf < 64) && decide (value < 4294967296)
  | .tsplitFlushComplete vf => decide (vf < 64)
  | .surftabWrite vf addr => decide (vf < 64) && decide (addr < 18446744073709551616)
  | .surfcntWrite vf value => decide (vf < 64) && decide (value < 4294967296)
  | .ressizeWrite vf size => decide (vf < 64) && decide (size < 18446744073709551616)
  | .hsctlGo vf => decide (vf < 64)
  | .hostAllocationDone vf => decide (vf < 64)
  | .causeClear vf mask => decide (vf < 64) && decide (mask < 4294967296)
  | .discard vf entry => decide (vf < 64) && decide (entry < 16)
  | .stop vf entry => decide (vf < 64) && decide (entry < 16)
  | .flr vf => decide (vf < 64)
  | .flrReady vf => decide (vf < 64)
  | .partitionDescriptorWrite vf w0 w1 w2 => decide (vf < 64) && decide (w0 < 4294967296) && decide (w1 < 4294967296) && decide (w2 < 4294967296)
  | .shareUpdate vf => decide (vf < 64)
  | .partitionSwitch out inn => decide (out < 64) && decide (inn < 64)
  | .s2rootWrite vf addr => decide (vf < 64) && decide (addr < 18446744073709551616)
  | .inv2 vf value => decide (vf < 64) && decide (value < 18446744073709551616)
  | .invalPage vf value => decide (vf < 64) && decide (value < 18446744073709551616)
  | .invalAll vf => decide (vf < 64)
  | .resume vf idx => decide (vf < 64) && decide (idx < 64)
  | .fresStop vf idx => decide (vf < 64) && decide (idx < 64)
  | .attctlGo => true
  | .attestationReport => true
  | .pfcauseClear mask => decide (mask < 4294967296)
  | .pfvferrClear mask => decide (mask < 18446744073709551616)
  | .registerWrite vf offset value =>
    decide (vf < 64) && (decide (offset < 65536) || offset == 0x10000 || offset == 0x10008) && decide (value < 18446744073709551616)
  | .telemetrySnapshot => true
  | .powcapWrite value => decide (value < 4294967296)
  | .refmaxWrite value => decide (value < 4294967296)
  | .go => true
  | .firmwareStageDone => true
  | .raise => true
  | .revoke key => decide (key < 4)
  | .join number => decide (number < 16384)
  | .domainLeave => true
  | .domainEntry _ => true
  | .etimeAligned => true
  | .remoteAccessTimeout col core _ => decide (col < 12) && decide (core < 48)
  | .viaGroupStateChange col tower group => decide (col < 12) && decide (tower < 48) && decide (group < 9)
  | .channelNarrow col channel => decide (col < 12) && decide (channel < 24)
  | .channelRetire col channel _ => decide (col < 12) && decide (channel < 24)
  | .moduleFault => true
  | .moduleReset => true
  | .boot => true
  | .powerRemoval => true
  | .reservedEncoding word => decide (word < 4294967296)
  | .linkTraining _ _ _ => true

/-- True for the constructors that stand for encoded words. -/
def Instr.isWord : Instr → Bool
  | .fusedSoftmax => false
  | .runStart => false
  | .trailerRetire => false
  | .resultLanding _ _ => false
  | .loadPerformed _ _ _ => false
  | .gangFormation _ _ _ => false
  | .joinHoldEnd _ _ _ => false
  | .yieldEnd _ _ _ => false
  | .faultDomainStop _ => false
  | .collectiveReplay _ _ => false
  | .relCompletion _ => false
  | .holdingsReturn _ => false
  | .waitcRepoll _ => false
  | .l1AgeWriteback _ _ _ => false
  | .l1AgeInvalidate _ _ _ => false
  | .translationWalk _ _ _ => false
  | .pendingRewalk _ _ _ => false
  | .pendingTimeout _ _ _ => false
  | .copy _ _ _ => false
  | .gather _ _ _ => false
  | .fill _ _ _ => false
  | .decompress _ _ _ => false
  | .quantise _ _ _ => false
  | .tileFillComplete _ _ _ => false
  | .cardLock _ _ _ => false
  | .clear _ _ _ => false
  | .bcast _ _ _ => false
  | .mulrows _ _ _ => false
  | .readout _ _ _ => false
  | .cardEnd _ _ _ => false
  | .matrixWordCompletion _ _ => false
  | .currentStep _ _ => false
  | .issueUnitIdleRelease _ _ _ => false
  | .capChange _ _ _ _ => false
  | .rakeSpill _ _ _ => false
  | .rakeRefill _ _ _ => false
  | .surfaceDiscard _ _ => false
  | .raster _ _ _ => false
  | .drawRetire _ _ => false
  | .gate _ _ _ => false
  | .traverse _ _ _ => false
  | .classify _ _ _ => false
  | .net _ _ _ => false
  | .copyNode _ _ _ => false
  | .hostqModerationExpiry _ => false
  | .groupLaunch _ _ _ => false
  | .coalesceTimeout _ _ _ => false
  | .groupAdmission _ => false
  | .preemptionOnQuantum _ => false
  | .preemptionHalt _ => false
  | .imageSave _ => false
  | .preemptionTimeout _ => false
  | .groupRestore _ => false
  | .hostTailWrite _ _ _ _ _ => false
  | .bar2Access _ _ _ _ _ _ => false
  | .rootWrite _ _ => false
  | .bctlGo _ _ _ => false
  | .bctlUnbind _ => false
  | .tsplitw _ _ => false
  | .tsplitFlushComplete _ => false
  | .surftabWrite _ _ => false
  | .surfcntWrite _ _ => false
  | .ressizeWrite _ _ => false
  | .hsctlGo _ => false
  | .hostAllocationDone _ => false
  | .causeClear _ _ => false
  | .discard _ _ => false
  | .stop _ _ => false
  | .flr _ => false
  | .flrReady _ => false
  | .partitionDescriptorWrite _ _ _ _ => false
  | .shareUpdate _ => false
  | .partitionSwitch _ _ => false
  | .s2rootWrite _ _ => false
  | .inv2 _ _ => false
  | .invalPage _ _ => false
  | .invalAll _ => false
  | .resume _ _ => false
  | .fresStop _ _ => false
  | .attctlGo => false
  | .attestationReport => false
  | .pfcauseClear _ => false
  | .pfvferrClear _ => false
  | .registerWrite _ _ _ => false
  | .telemetrySnapshot => false
  | .powcapWrite _ => false
  | .refmaxWrite _ => false
  | .go => false
  | .firmwareStageDone => false
  | .raise => false
  | .revoke _ => false
  | .join _ => false
  | .domainLeave => false
  | .domainEntry _ => false
  | .etimeAligned => false
  | .remoteAccessTimeout _ _ _ => false
  | .viaGroupStateChange _ _ _ => false
  | .channelNarrow _ _ => false
  | .channelRetire _ _ _ => false
  | .moduleFault => false
  | .moduleReset => false
  | .boot => false
  | .powerRemoval => false
  | .reservedEncoding _ => false
  | .linkTraining _ _ _ => false
  | .nop _ => true
  | .exit _ _ => true
  | .trap _ _ => true
  | .trapret _ _ => true
  | .bkpt _ _ => true
  | .yield _ _ => true
  | .iadd _ _ => true
  | .isub _ _ => true
  | .imul _ _ => true
  | .imulhU _ _ => true
  | .imulhS _ _ => true
  | .iabs _ _ => true
  | .imad _ _ => true
  | .iminS _ _ => true
  | .imaxS _ _ => true
  | .iminU _ _ => true
  | .imaxU _ _ => true
  | .and _ _ => true
  | .or _ _ => true
  | .xor _ _ => true
  | .andn _ _ => true
  | .shl _ _ => true
  | .shr _ _ => true
  | .sar _ _ => true
  | .rot _ _ => true
  | .popc _ _ => true
  | .clz _ _ => true
  | .bfxU _ _ => true
  | .bfxS _ _ => true
  | .bfi _ _ => true
  | .iaddW _ _ => true
  | .isubW _ _ => true
  | .iaddi _ _ => true
  | .andi _ _ => true
  | .ori _ _ => true
  | .xori _ _ => true
  | .shli _ _ => true
  | .shri _ _ => true
  | .sari _ _ => true
  | .muli _ _ => true
  | .brev _ _ => true
  | .lea _ _ => true
  | .li _ _ => true
  | .liu _ _ => true
  | .lhi _ _ => true
  | .mov _ _ => true
  | .sel _ _ => true
  | .setx _ _ => true
  | .movxR _ _ => true
  | .movxW _ _ => true
  | .win _ _ => true
  | .icmpS _ _ => true
  | .icmpU _ _ => true
  | .pand _ _ => true
  | .por _ _ => true
  | .pxor _ _ => true
  | .pandn _ _ => true
  | .kpack _ _ => true
  | .kunpack _ _ => true
  | .kset _ _ => true
  | .smov _ _ => true
  | .sli _ _ => true
  | .sadd _ _ => true
  | .ssub _ _ => true
  | .sand _ _ => true
  | .sor _ _ => true
  | .sshl _ _ => true
  | .sshr _ _ => true
  | .smovv _ _ => true
  | .vmovs _ _ => true
  | .sld _ _ => true
  | .scmp _ _ => true
  | .bra _ _ => true
  | .call _ _ => true
  | .jmpr _ _ => true
  | .ret _ _ => true
  | .fadd _ _ => true
  | .fsub _ _ => true
  | .fmul _ _ => true
  | .fmin _ _ => true
  | .ffma _ _ => true
  | .fmax _ _ => true
  | .fclass _ _ => true
  | .frndNe _ _ => true
  | .frndZ _ _ => true
  | .frndP _ _ => true
  | .frndM _ _ => true
  | .f2iS _ _ => true
  | .f2iU _ _ => true
  | .i2fS _ _ => true
  | .i2fU _ _ => true
  | .f2h _ _ => true
  | .h2f _ _ => true
  | .f2bf _ _ => true
  | .bf2f _ _ => true
  | .f2e4 _ _ => true
  | .e42f _ _ => true
  | .f2e5 _ _ => true
  | .e52f _ _ => true
  | .fcmp _ _ => true
  | .hadd2 _ _ => true
  | .hmul2 _ _ => true
  | .hfma2 _ _ => true
  | .bfma2 _ _ => true
  | .dadd _ _ => true
  | .dmul _ _ => true
  | .dfma _ _ => true
  | .d2f _ _ => true
  | .f2d _ _ => true
  | .d2i _ _ => true
  | .i2d _ _ => true
  | .dsubf _ _ => true
  | .dmin _ _ => true
  | .dmax _ _ => true
  | .dcmp _ _ => true
  | .rcp _ _ => true
  | .rsq _ _ => true
  | .sqrt _ _ => true
  | .ex2 _ _ => true
  | .lg2 _ _ => true
  | .sin _ _ => true
  | .cos _ _ => true
  | .tanh _ _ => true
  | .hmix _ _ => true
  | .ld _ _ => true
  | .st _ _ => true
  | .lds _ _ => true
  | .sts _ _ => true
  | .ldt _ _ => true
  | .stt _ _ => true
  | .atomAdd _ _ => true
  | .atomMinS _ _ => true
  | .atomMinU _ _ => true
  | .atomMaxS _ _ => true
  | .atomMaxU _ _ => true
  | .atomAnd _ _ => true
  | .atomOr _ _ => true
  | .atomXor _ _ => true
  | .exch _ _ => true
  | .cas _ _ => true
  | .atomRinc _ _ => true
  | .atomRdec _ _ => true
  | .atomFadd _ _ => true
  | .fence _ _ => true
  | .fenceT _ _ => true
  | .bar _ _ => true
  | .barS _ _ => true
  | .pbinit _ _ => true
  | .pbarrive _ _ => true
  | .pbexpect _ _ => true
  | .pbwait _ _ => true
  | .pbtest _ _ => true
  | .waitc _ _ => true
  | .ldsc _ _ => true
  | .stsc _ _ => true
  | .atomscAdd _ _ => true
  | .atomscCas _ _ => true
  | .cflush _ _ => true
  | .cinv _ _ => true
  | .prefetch _ _ => true
  | .acqB _ _ => true
  | .acqT _ _ => true
  | .rel _ _ => true
  | .qput _ _ => true
  | .qget _ _ => true
  | .qfree _ _ => true
  | .tdef _ _ => true
  | .tstat _ _ => true
  | .kick _ _ => true
  | .bankjob _ _ => true
  | .suld _ _ => true
  | .sust _ _ => true
  | .tex _ _ => true
  | .texl _ _ => true
  | .texg _ _ => true
  | .zexp _ _ => true
  | .cexp _ _ => true
  | .occ _ _ => true
  | .salloc _ _ => true
  | .sfree _ _ => true
  | .mma _ _ => true
  | .msca _ _ => true
  | .mzero _ _ => true
  | .mload _ _ => true
  | .mdrain _ _ => true
  | .mdrainAdd _ _ => true
  | .mstat _ _ => true
  | .emit _ _ => true
  | .emitT _ _ => true
  | .sysrd _ _ => true
  | .syswr _ _ => true
  | .ballot _ _ => true
  | .kgor _ _ => true
  | .kgand _ _ => true
  | .xferIdx _ _ => true
  | .xferRot _ _ => true
  | .xferSh _ _ => true
  | .xferFlip _ _ => true
  | .gredAdd _ _ => true
  | .gredMin _ _ => true
  | .gredMax _ _ => true
  | .gredFadd _ _ => true
  | .gredFmax _ _ => true
  | .gscanAdd _ _ => true
  | .gpos _ _ => true
  | .gsize _ _ => true
  | .gfirst _ _ => true
  | .pick _ _ => true
  | .endrun _ => true

end Sys2Proof
end

