-- ==== Sys2Proof/Decode.lean ====
section
/-! DEFINITION. Decode: from words to instructions and back, from the encoding tables of 03 and 04. Code is packets of
three little-endian 32-bit words (R64); a word is decoded with the word after it in its packet, which may be its
modifier (R80). The decoder is total: a word of no row is rejected by name (R84, R97). -/

namespace Sys2Proof

/-- Bits [lo+n-1 : lo] of a word. -/
def bitsAt (w lo n : Nat) : Nat := w / 2 ^ lo % 2 ^ n

/-- Bit `b` of a word. -/
def bitAt (w b : Nat) : Bool := w / 2 ^ b % 2 == 1

/-- The modifier fields of a word of OP 0x3F (Table 03.5). -/
def Modifier.ofWord (w : Nat) : Modifier :=
  { c := bitAt w 31, sat := bitAt w 24, clp := bitAt w 23, na := bitAt w 22, nb := bitAt w 21, aa := bitAt w 20
    ab := bitAt w 19, scale := bitsAt w 14 5, kg := bitsAt w 8 6, gn := bitAt w 7, hb := bitAt w 6
    ord := bitsAt w 4 2, scope := bitsAt w 1 3, rsv := bitAt w 0 }

/-- The word of a modifier (Table 03.5). -/
def Modifier.toWord (q : Modifier) : Nat :=
  q.c.toNat * 2 ^ 31 + 0x3F * 2 ^ 25 + q.sat.toNat * 2 ^ 24 + q.clp.toNat * 2 ^ 23 + q.na.toNat * 2 ^ 22
    + q.nb.toNat * 2 ^ 21 + q.aa.toNat * 2 ^ 20 + q.ab.toNat * 2 ^ 19 + q.scale * 2 ^ 14 + q.kg * 2 ^ 8
    + q.gn.toNat * 2 ^ 7 + q.hb.toNat * 2 ^ 6 + q.ord * 2 ^ 4 + q.scope * 2 + q.rsv.toNat

/-- The fields of a `FC` in a word. -/
def FC.ofWord (w : Nat) : FC :=
  { c := bitAt w 31 }

/-- The bits of a `FC` at their places. -/
def FC.toWord (f : FC) : Nat :=
  f.c.toNat * 2 ^ 31

/-- The fields of a `FTrap` in a word. -/
def FTrap.ofWord (w : Nat) : FTrap :=
  { c := bitAt w 31, i := bitsAt w 0 20 }

/-- The bits of a `FTrap` at their places. -/
def FTrap.toWord (f : FTrap) : Nat :=
  f.c.toNat * 2 ^ 31 + f.i

/-- The fields of a `FR` in a word. -/
def FR.ofWord (w : Nat) : FR :=
  { c := bitAt w 31, h := bitAt w 23, d := bitsAt w 16 7, a := bitsAt w 9 7, b := bitsAt w 2 7, m := bitAt w 1, n := bitAt w 0 }

/-- The bits of a `FR` at their places. -/
def FR.toWord (f : FR) : Nat :=
  f.c.toNat * 2 ^ 31 + f.h.toNat * 2 ^ 23 + f.d * 2 ^ 16 + f.a * 2 ^ 9 + f.b * 2 ^ 2 + f.m.toNat * 2 ^ 1 + f.n.toNat

/-- The fields of a `FUn` in a word. -/
def FUn.ofWord (w : Nat) : FUn :=
  { c := bitAt w 31, h := bitAt w 23, d := bitsAt w 16 7, a := bitsAt w 9 7, m := bitAt w 1 }

/-- The bits of a `FUn` at their places. -/
def FUn.toWord (f : FUn) : Nat :=
  f.c.toNat * 2 ^ 31 + f.h.toNat * 2 ^ 23 + f.d * 2 ^ 16 + f.a * 2 ^ 9 + f.m.toNat * 2 ^ 1

/-- The fields of a `FRt` in a word. -/
def FRt.ofWord (w : Nat) : FRt :=
  { c := bitAt w 31, h := bitAt w 24, e := bitAt w 23, d := bitsAt w 16 7, a := bitsAt w 9 7, b := bitsAt w 2 7, m := bitAt w 1, n := bitAt w 0 }

/-- The bits of a `FRt` at their places. -/
def FRt.toWord (f : FRt) : Nat :=
  f.c.toNat * 2 ^ 31 + f.h.toNat * 2 ^ 24 + f.e.toNat * 2 ^ 23 + f.d * 2 ^ 16 + f.a * 2 ^ 9 + f.b * 2 ^ 2 + f.m.toNat * 2 ^ 1 + f.n.toNat

/-- The fields of a `FI` in a word. -/
def FI.ofWord (w : Nat) : FI :=
  { c := bitAt w 31, m := bitAt w 23, d := bitsAt w 16 7, a := bitsAt w 9 7, i := bitsAt w 0 9 }

/-- The bits of a `FI` at their places. -/
def FI.toWord (f : FI) : Nat :=
  f.c.toNat * 2 ^ 31 + f.m.toNat * 2 ^ 23 + f.d * 2 ^ 16 + f.a * 2 ^ 9 + f.i

/-- The fields of a `FSh` in a word. -/
def FSh.ofWord (w : Nat) : FSh :=
  { c := bitAt w 31, m := bitAt w 23, d := bitsAt w 16 7, a := bitsAt w 9 7, i := bitsAt w 0 5 }

/-- The bits of a `FSh` at their places. -/
def FSh.toWord (f : FSh) : Nat :=
  f.c.toNat * 2 ^ 31 + f.m.toNat * 2 ^ 23 + f.d * 2 ^ 16 + f.a * 2 ^ 9 + f.i

/-- The fields of a `FL` in a word. -/
def FL.ofWord (w : Nat) : FL :=
  { c := bitAt w 31, d := bitsAt w 16 7, i := bitsAt w 0 16 }

/-- The bits of a `FL` at their places. -/
def FL.toWord (f : FL) : Nat :=
  f.c.toNat * 2 ^ 31 + f.d * 2 ^ 16 + f.i

/-- The fields of a `FSetx` in a word. -/
def FSetx.ofWord (w : Nat) : FSetx :=
  { c := bitAt w 31, a := bitsAt w 13 7, m := bitAt w 12, x := bitsAt w 10 2, i := bitsAt w 0 10 }

/-- The bits of a `FSetx` at their places. -/
def FSetx.toWord (f : FSetx) : Nat :=
  f.c.toNat * 2 ^ 31 + f.a * 2 ^ 13 + f.m.toNat * 2 ^ 12 + f.x * 2 ^ 10 + f.i

/-- The fields of a `FMovr` in a word. -/
def FMovr.ofWord (w : Nat) : FMovr :=
  { c := bitAt w 31, d := bitsAt w 13 7, m := bitAt w 12, x := bitsAt w 10 2, i := bitsAt w 0 10 }

/-- The bits of a `FMovr` at their places. -/
def FMovr.toWord (f : FMovr) : Nat :=
  f.c.toNat * 2 ^ 31 + f.d * 2 ^ 13 + f.m.toNat * 2 ^ 12 + f.x * 2 ^ 10 + f.i

/-- The fields of a `FMovw` in a word. -/
def FMovw.ofWord (w : Nat) : FMovw :=
  { c := bitAt w 31, s := bitsAt w 13 7, m := bitAt w 12, x := bitsAt w 10 2, i := bitsAt w 0 10 }

/-- The bits of a `FMovw` at their places. -/
def FMovw.toWord (f : FMovw) : Nat :=
  f.c.toNat * 2 ^ 31 + f.s * 2 ^ 13 + f.m.toNat * 2 ^ 12 + f.x * 2 ^ 10 + f.i

/-- The fields of a `FWin` in a word. -/
def FWin.ofWord (w : Nat) : FWin :=
  { c := bitAt w 31, l := bitsAt w 8 8, b := bitsAt w 0 8 }

/-- The bits of a `FWin` at their places. -/
def FWin.toWord (f : FWin) : Nat :=
  f.c.toNat * 2 ^ 31 + f.l * 2 ^ 8 + f.b

/-- The fields of a `FP` in a word. -/
def FP.ofWord (w : Nat) : FP :=
  { c := bitAt w 31, p := bitsAt w 22 3, k := bitsAt w 16 6, a := bitsAt w 9 7, b := bitsAt w 2 7, m := bitAt w 1, n := bitAt w 0 }

/-- The bits of a `FP` at their places. -/
def FP.toWord (f : FP) : Nat :=
  f.c.toNat * 2 ^ 31 + f.p * 2 ^ 22 + f.k * 2 ^ 16 + f.a * 2 ^ 9 + f.b * 2 ^ 2 + f.m.toNat * 2 ^ 1 + f.n.toNat

/-- The fields of a `FPl` in a word. -/
def FPl.ofWord (w : Nat) : FPl :=
  { c := bitAt w 31, k := bitsAt w 17 6, j := bitsAt w 11 6, l := bitsAt w 5 6, x := bitAt w 4, y := bitAt w 3 }

/-- The bits of a `FPl` at their places. -/
def FPl.toWord (f : FPl) : Nat :=
  f.c.toNat * 2 ^ 31 + f.k * 2 ^ 17 + f.j * 2 ^ 11 + f.l * 2 ^ 5 + f.x.toNat * 2 ^ 4 + f.y.toNat * 2 ^ 3

/-- The fields of a `FKpack` in a word. -/
def FKpack.ofWord (w : Nat) : FKpack :=
  { c := bitAt w 31, k := bitsAt w 14 6, d := bitsAt w 7 7, n := bitsAt w 0 6 }

/-- The bits of a `FKpack` at their places. -/
def FKpack.toWord (f : FKpack) : Nat :=
  f.c.toNat * 2 ^ 31 + f.k * 2 ^ 14 + f.d * 2 ^ 7 + f.n

/-- The fields of a `FKunp` in a word. -/
def FKunp.ofWord (w : Nat) : FKunp :=
  { c := bitAt w 31, k := bitsAt w 14 6, a := bitsAt w 7 7, m := bitAt w 6, n := bitsAt w 0 6 }

/-- The bits of a `FKunp` at their places. -/
def FKunp.toWord (f : FKunp) : Nat :=
  f.c.toNat * 2 ^ 31 + f.k * 2 ^ 14 + f.a * 2 ^ 7 + f.m.toNat * 2 ^ 6 + f.n

/-- The fields of a `FKset` in a word. -/
def FKset.ofWord (w : Nat) : FKset :=
  { c := bitAt w 31, k := bitsAt w 14 6, v := bitAt w 0 }

/-- The bits of a `FKset` at their places. -/
def FKset.toWord (f : FKset) : Nat :=
  f.c.toNat * 2 ^ 31 + f.k * 2 ^ 14 + f.v.toNat

/-- The fields of a `FSmov` in a word. -/
def FSmov.ofWord (w : Nat) : FSmov :=
  { c := bitAt w 31, d := bitsAt w 16 6, a := bitsAt w 10 6 }

/-- The bits of a `FSmov` at their places. -/
def FSmov.toWord (f : FSmov) : Nat :=
  f.c.toNat * 2 ^ 31 + f.d * 2 ^ 16 + f.a * 2 ^ 10

/-- The fields of a `FSli` in a word. -/
def FSli.ofWord (w : Nat) : FSli :=
  { c := bitAt w 31, d := bitsAt w 16 6, i := bitsAt w 0 10 }

/-- The bits of a `FSli` at their places. -/
def FSli.toWord (f : FSli) : Nat :=
  f.c.toNat * 2 ^ 31 + f.d * 2 ^ 16 + f.i

/-- The fields of a `FSop` in a word. -/
def FSop.ofWord (w : Nat) : FSop :=
  { c := bitAt w 31, d := bitsAt w 16 6, a := bitsAt w 10 6, b := bitsAt w 0 6 }

/-- The bits of a `FSop` at their places. -/
def FSop.toWord (f : FSop) : Nat :=
  f.c.toNat * 2 ^ 31 + f.d * 2 ^ 16 + f.a * 2 ^ 10 + f.b

/-- The fields of a `FSsh` in a word. -/
def FSsh.ofWord (w : Nat) : FSsh :=
  { c := bitAt w 31, d := bitsAt w 16 6, a := bitsAt w 10 6, i := bitsAt w 0 5 }

/-- The bits of a `FSsh` at their places. -/
def FSsh.toWord (f : FSsh) : Nat :=
  f.c.toNat * 2 ^ 31 + f.d * 2 ^ 16 + f.a * 2 ^ 10 + f.i

/-- The fields of a `FSmovv` in a word. -/
def FSmovv.ofWord (w : Nat) : FSmovv :=
  { c := bitAt w 31, a := bitsAt w 10 6, d := bitsAt w 0 7 }

/-- The bits of a `FSmovv` at their places. -/
def FSmovv.toWord (f : FSmovv) : Nat :=
  f.c.toNat * 2 ^ 31 + f.a * 2 ^ 10 + f.d

/-- The fields of a `FVmovs` in a word. -/
def FVmovs.ofWord (w : Nat) : FVmovs :=
  { c := bitAt w 31, d := bitsAt w 16 6, m := bitAt w 7, a := bitsAt w 0 7 }

/-- The bits of a `FVmovs` at their places. -/
def FVmovs.toWord (f : FVmovs) : Nat :=
  f.c.toNat * 2 ^ 31 + f.d * 2 ^ 16 + f.m.toNat * 2 ^ 7 + f.a

/-- The fields of a `FSld` in a word. -/
def FSld.ofWord (w : Nat) : FSld :=
  { c := bitAt w 31, d := bitsAt w 16 6, a := bitsAt w 10 6, i := bitsAt w 0 10 }

/-- The bits of a `FSld` at their places. -/
def FSld.toWord (f : FSld) : Nat :=
  f.c.toNat * 2 ^ 31 + f.d * 2 ^ 16 + f.a * 2 ^ 10 + f.i

/-- The fields of a `FScmp` in a word. -/
def FScmp.ofWord (w : Nat) : FScmp :=
  { c := bitAt w 31, k := bitsAt w 16 6, a := bitsAt w 10 6, u := bitAt w 9, p := bitsAt w 6 3, b := bitsAt w 0 6 }

/-- The bits of a `FScmp` at their places. -/
def FScmp.toWord (f : FScmp) : Nat :=
  f.c.toNat * 2 ^ 31 + f.k * 2 ^ 16 + f.a * 2 ^ 10 + f.u.toNat * 2 ^ 9 + f.p * 2 ^ 6 + f.b

/-- The fields of a `FB` in a word. -/
def FB.ofWord (w : Nat) : FB :=
  { c := bitAt w 31, k := bitsAt w 19 6, g := bitAt w 18, d := bitsAt w 0 18 }

/-- The bits of a `FB` at their places. -/
def FB.toWord (f : FB) : Nat :=
  f.c.toNat * 2 ^ 31 + f.k * 2 ^ 19 + f.g.toNat * 2 ^ 18 + f.d

/-- The fields of a `FA` in a word. -/
def FA.ofWord (w : Nat) : FA :=
  { c := bitAt w 31, a := bitsAt w 13 7, m := bitAt w 5 }

/-- The bits of a `FA` at their places. -/
def FA.toWord (f : FA) : Nat :=
  f.c.toNat * 2 ^ 31 + f.a * 2 ^ 13 + f.m.toNat * 2 ^ 5

/-- The fields of a `FXv` in a word. -/
def FXv.ofWord (w : Nat) : FXv :=
  { c := bitAt w 31, d := bitsAt w 13 7, a := bitsAt w 6 7, m := bitAt w 5 }

/-- The bits of a `FXv` at their places. -/
def FXv.toWord (f : FXv) : Nat :=
  f.c.toNat * 2 ^ 31 + f.d * 2 ^ 13 + f.a * 2 ^ 6 + f.m.toNat * 2 ^ 5

/-- The fields of a `FXh` in a word. -/
def FXh.ofWord (w : Nat) : FXh :=
  { c := bitAt w 31, d := bitsAt w 13 7, a := bitsAt w 6 7, m := bitAt w 5, s := bitAt w 0 }

/-- The bits of a `FXh` at their places. -/
def FXh.toWord (f : FXh) : Nat :=
  f.c.toNat * 2 ^ 31 + f.d * 2 ^ 13 + f.a * 2 ^ 6 + f.m.toNat * 2 ^ 5 + f.s.toNat

/-- The fields of a `FXe` in a word. -/
def FXe.ofWord (w : Nat) : FXe :=
  { c := bitAt w 31, d := bitsAt w 13 7, a := bitsAt w 6 7, m := bitAt w 5, s := bitsAt w 0 2 }

/-- The bits of a `FXe` at their places. -/
def FXe.toWord (f : FXe) : Nat :=
  f.c.toNat * 2 ^ 31 + f.d * 2 ^ 13 + f.a * 2 ^ 6 + f.m.toNat * 2 ^ 5 + f.s

/-- The fields of a `FXu` in a word. -/
def FXu.ofWord (w : Nat) : FXu :=
  { c := bitAt w 31, d := bitsAt w 13 7, a := bitsAt w 6 7, m := bitAt w 5, u := bitAt w 0 }

/-- The bits of a `FXu` at their places. -/
def FXu.toWord (f : FXu) : Nat :=
  f.c.toNat * 2 ^ 31 + f.d * 2 ^ 13 + f.a * 2 ^ 6 + f.m.toNat * 2 ^ 5 + f.u.toNat

/-- The fields of a `FDsubf` in a word. -/
def FDsubf.ofWord (w : Nat) : FDsubf :=
  { c := bitAt w 31, d := bitsAt w 13 7, a := bitsAt w 7 6, b := bitsAt w 1 6 }

/-- The bits of a `FDsubf` at their places. -/
def FDsubf.toWord (f : FDsubf) : Nat :=
  f.c.toNat * 2 ^ 31 + f.d * 2 ^ 13 + f.a * 2 ^ 7 + f.b * 2 ^ 1

/-- The fields of a `FDmin` in a word. -/
def FDmin.ofWord (w : Nat) : FDmin :=
  { c := bitAt w 31, d := bitsAt w 14 6, a := bitsAt w 8 6, b := bitsAt w 2 6 }

/-- The bits of a `FDmin` at their places. -/
def FDmin.toWord (f : FDmin) : Nat :=
  f.c.toNat * 2 ^ 31 + f.d * 2 ^ 14 + f.a * 2 ^ 8 + f.b * 2 ^ 2

/-- The fields of a `FDcmp` in a word. -/
def FDcmp.ofWord (w : Nat) : FDcmp :=
  { c := bitAt w 31, k := bitsAt w 14 6, a := bitsAt w 8 6, b := bitsAt w 2 6, p := bitsAt w 0 2 }

/-- The bits of a `FDcmp` at their places. -/
def FDcmp.toWord (f : FDcmp) : Nat :=
  f.c.toNat * 2 ^ 31 + f.k * 2 ^ 14 + f.a * 2 ^ 8 + f.b * 2 ^ 2 + f.p

/-- The fields of a `FLd` in a word. -/
def FLd.ofWord (w : Nat) : FLd :=
  { c := bitAt w 31, z := bitsAt w 22 3, d := bitsAt w 15 7, a := bitsAt w 8 7, m := bitAt w 7, o := bitsAt w 0 7 }

/-- The bits of a `FLd` at their places. -/
def FLd.toWord (f : FLd) : Nat :=
  f.c.toNat * 2 ^ 31 + f.z * 2 ^ 22 + f.d * 2 ^ 15 + f.a * 2 ^ 8 + f.m.toNat * 2 ^ 7 + f.o

/-- The fields of a `FSt` in a word. -/
def FSt.ofWord (w : Nat) : FSt :=
  { c := bitAt w 31, z := bitsAt w 22 3, s := bitsAt w 15 7, a := bitsAt w 8 7, m := bitAt w 7, o := bitsAt w 0 7 }

/-- The bits of a `FSt` at their places. -/
def FSt.toWord (f : FSt) : Nat :=
  f.c.toNat * 2 ^ 31 + f.z * 2 ^ 22 + f.s * 2 ^ 15 + f.a * 2 ^ 8 + f.m.toNat * 2 ^ 7 + f.o

/-- The fields of a `FAtom` in a word. -/
def FAtom.ofWord (w : Nat) : FAtom :=
  { c := bitAt w 31, d := bitsAt w 15 7, a := bitsAt w 8 7, b := bitsAt w 1 7, m := bitAt w 0 }

/-- The bits of a `FAtom` at their places. -/
def FAtom.toWord (f : FAtom) : Nat :=
  f.c.toNat * 2 ^ 31 + f.d * 2 ^ 15 + f.a * 2 ^ 8 + f.b * 2 ^ 1 + f.m.toNat

/-- The fields of a `FPb` in a word. -/
def FPb.ofWord (w : Nat) : FPb :=
  { c := bitAt w 31, a := bitsAt w 13 7, b := bitsAt w 6 7, m := bitAt w 5, n := bitAt w 4 }

/-- The bits of a `FPb` at their places. -/
def FPb.toWord (f : FPb) : Nat :=
  f.c.toNat * 2 ^ 31 + f.a * 2 ^ 13 + f.b * 2 ^ 6 + f.m.toNat * 2 ^ 5 + f.n.toNat * 2 ^ 4

/-- The fields of a `FPbw` in a word. -/
def FPbw.ofWord (w : Nat) : FPbw :=
  { c := bitAt w 31, a := bitsAt w 13 7, m := bitAt w 5, p := bitAt w 0 }

/-- The bits of a `FPbw` at their places. -/
def FPbw.toWord (f : FPbw) : Nat :=
  f.c.toNat * 2 ^ 31 + f.a * 2 ^ 13 + f.m.toNat * 2 ^ 5 + f.p.toNat

/-- The fields of a `FPbt` in a word. -/
def FPbt.ofWord (w : Nat) : FPbt :=
  { c := bitAt w 31, k := bitsAt w 14 6, a := bitsAt w 7 7, m := bitAt w 6, p := bitAt w 0 }

/-- The bits of a `FPbt` at their places. -/
def FPbt.toWord (f : FPbt) : Nat :=
  f.c.toNat * 2 ^ 31 + f.k * 2 ^ 14 + f.a * 2 ^ 7 + f.m.toNat * 2 ^ 6 + f.p.toNat

/-- The fields of a `FWaitc` in a word. -/
def FWaitc.ofWord (w : Nat) : FWaitc :=
  { c := bitAt w 31, a := bitsAt w 13 7, b := bitsAt w 6 7, m := bitAt w 5, n := bitAt w 4, p := bitsAt w 0 3 }

/-- The bits of a `FWaitc` at their places. -/
def FWaitc.toWord (f : FWaitc) : Nat :=
  f.c.toNat * 2 ^ 31 + f.a * 2 ^ 13 + f.b * 2 ^ 6 + f.m.toNat * 2 ^ 5 + f.n.toNat * 2 ^ 4 + f.p

/-- The fields of a `FLdsc` in a word. -/
def FLdsc.ofWord (w : Nat) : FLdsc :=
  { c := bitAt w 31, d := bitsAt w 13 7, a := bitsAt w 6 7, m := bitAt w 5, z := bitsAt w 0 2 }

/-- The bits of a `FLdsc` at their places. -/
def FLdsc.toWord (f : FLdsc) : Nat :=
  f.c.toNat * 2 ^ 31 + f.d * 2 ^ 13 + f.a * 2 ^ 6 + f.m.toNat * 2 ^ 5 + f.z

/-- The fields of a `FStsc` in a word. -/
def FStsc.ofWord (w : Nat) : FStsc :=
  { c := bitAt w 31, a := bitsAt w 13 7, b := bitsAt w 6 7, m := bitAt w 5, n := bitAt w 4, z := bitsAt w 0 2 }

/-- The bits of a `FStsc` at their places. -/
def FStsc.toWord (f : FStsc) : Nat :=
  f.c.toNat * 2 ^ 31 + f.a * 2 ^ 13 + f.b * 2 ^ 6 + f.m.toNat * 2 ^ 5 + f.n.toNat * 2 ^ 4 + f.z

/-- The fields of a `FAsc` in a word. -/
def FAsc.ofWord (w : Nat) : FAsc :=
  { c := bitAt w 31, d := bitsAt w 13 7, a := bitsAt w 7 6, b := bitsAt w 0 7 }

/-- The bits of a `FAsc` at their places. -/
def FAsc.toWord (f : FAsc) : Nat :=
  f.c.toNat * 2 ^ 31 + f.d * 2 ^ 13 + f.a * 2 ^ 7 + f.b

/-- The fields of a `FPref` in a word. -/
def FPref.ofWord (w : Nat) : FPref :=
  { c := bitAt w 31, a := bitsAt w 13 7, m := bitAt w 5, l := bitsAt w 0 2 }

/-- The bits of a `FPref` at their places. -/
def FPref.toWord (f : FPref) : Nat :=
  f.c.toNat * 2 ^ 31 + f.a * 2 ^ 13 + f.m.toNat * 2 ^ 5 + f.l

/-- The fields of a `FAcq` in a word. -/
def FAcq.ofWord (w : Nat) : FAcq :=
  { c := bitAt w 31, k := bitsAt w 18 2, n := bitsAt w 0 8 }

/-- The bits of a `FAcq` at their places. -/
def FAcq.toWord (f : FAcq) : Nat :=
  f.c.toNat * 2 ^ 31 + f.k * 2 ^ 18 + f.n

/-- The fields of a `FAcqt` in a word. -/
def FAcqt.ofWord (w : Nat) : FAcqt :=
  { c := bitAt w 31, d := bitsAt w 13 7, k := bitsAt w 7 6, t := bitsAt w 5 2, n := bitsAt w 0 5 }

/-- The bits of a `FAcqt` at their places. -/
def FAcqt.toWord (f : FAcqt) : Nat :=
  f.c.toNat * 2 ^ 31 + f.d * 2 ^ 13 + f.k * 2 ^ 7 + f.t * 2 ^ 5 + f.n

/-- The fields of a `FQput` in a word. -/
def FQput.ofWord (w : Nat) : FQput :=
  { c := bitAt w 31, a := bitsAt w 13 7, b := bitsAt w 6 7, m := bitAt w 5, n := bitAt w 4, t := bitAt w 3, q := bitsAt w 0 3 }

/-- The bits of a `FQput` at their places. -/
def FQput.toWord (f : FQput) : Nat :=
  f.c.toNat * 2 ^ 31 + f.a * 2 ^ 13 + f.b * 2 ^ 6 + f.m.toNat * 2 ^ 5 + f.n.toNat * 2 ^ 4 + f.t.toNat * 2 ^ 3 + f.q

/-- The fields of a `FQget` in a word. -/
def FQget.ofWord (w : Nat) : FQget :=
  { c := bitAt w 31, d := bitsAt w 13 7, q := bitsAt w 0 3 }

/-- The bits of a `FQget` at their places. -/
def FQget.toWord (f : FQget) : Nat :=
  f.c.toNat * 2 ^ 31 + f.d * 2 ^ 13 + f.q

/-- The fields of a `FQfree` in a word. -/
def FQfree.ofWord (w : Nat) : FQfree :=
  { c := bitAt w 31, d := bitsAt w 13 7, a := bitsAt w 6 7, m := bitAt w 5, q := bitsAt w 0 3 }

/-- The bits of a `FQfree` at their places. -/
def FQfree.toWord (f : FQfree) : Nat :=
  f.c.toNat * 2 ^ 31 + f.d * 2 ^ 13 + f.a * 2 ^ 6 + f.m.toNat * 2 ^ 5 + f.q

/-- The fields of a `FTdef` in a word. -/
def FTdef.ofWord (w : Nat) : FTdef :=
  { c := bitAt w 31, a := bitsAt w 8 6, t := bitsAt w 0 6 }

/-- The bits of a `FTdef` at their places. -/
def FTdef.toWord (f : FTdef) : Nat :=
  f.c.toNat * 2 ^ 31 + f.a * 2 ^ 8 + f.t

/-- The fields of a `FTstat` in a word. -/
def FTstat.ofWord (w : Nat) : FTstat :=
  { c := bitAt w 31, k := bitsAt w 14 6, t := bitsAt w 0 6 }

/-- The bits of a `FTstat` at their places. -/
def FTstat.toWord (f : FTstat) : Nat :=
  f.c.toNat * 2 ^ 31 + f.k * 2 ^ 14 + f.t

/-- The fields of a `FXu1` in a word. -/
def FXu1.ofWord (w : Nat) : FXu1 :=
  { c := bitAt w 31, a := bitsAt w 8 6 }

/-- The bits of a `FXu1` at their places. -/
def FXu1.toWord (f : FXu1) : Nat :=
  f.c.toNat * 2 ^ 31 + f.a * 2 ^ 8

/-- The fields of a `FXs` in a word. -/
def FXs.ofWord (w : Nat) : FXs :=
  { c := bitAt w 31, d := bitsAt w 13 7, a := bitsAt w 6 7, s := bitsAt w 0 6 }

/-- The bits of a `FXs` at their places. -/
def FXs.toWord (f : FXs) : Nat :=
  f.c.toNat * 2 ^ 31 + f.d * 2 ^ 13 + f.a * 2 ^ 6 + f.s

/-- The fields of a `FCexp` in a word. -/
def FCexp.ofWord (w : Nat) : FCexp :=
  { c := bitAt w 31, a := bitsAt w 13 7, m := bitAt w 5, t := bitsAt w 0 3 }

/-- The bits of a `FCexp` at their places. -/
def FCexp.toWord (f : FCexp) : Nat :=
  f.c.toNat * 2 ^ 31 + f.a * 2 ^ 13 + f.m.toNat * 2 ^ 5 + f.t

/-- The fields of a `FSalloc` in a word. -/
def FSalloc.ofWord (w : Nat) : FSalloc :=
  { c := bitAt w 31, d := bitsAt w 14 6, a := bitsAt w 8 6 }

/-- The bits of a `FSalloc` at their places. -/
def FSalloc.toWord (f : FSalloc) : Nat :=
  f.c.toNat * 2 ^ 31 + f.d * 2 ^ 14 + f.a * 2 ^ 8

/-- The fields of a `FMzero` in a word. -/
def FMzero.ofWord (w : Nat) : FMzero :=
  { c := bitAt w 31, s := bitsAt w 0 3 }

/-- The bits of a `FMzero` at their places. -/
def FMzero.toWord (f : FMzero) : Nat :=
  f.c.toNat * 2 ^ 31 + f.s

/-- The fields of a `FMdrain` in a word. -/
def FMdrain.ofWord (w : Nat) : FMdrain :=
  { c := bitAt w 31, d := bitsAt w 13 7, s := bitsAt w 0 6 }

/-- The bits of a `FMdrain` at their places. -/
def FMdrain.toWord (f : FMdrain) : Nat :=
  f.c.toNat * 2 ^ 31 + f.d * 2 ^ 13 + f.s

/-- The fields of a `FMstat` in a word. -/
def FMstat.ofWord (w : Nat) : FMstat :=
  { c := bitAt w 31, k := bitsAt w 14 6, s := bitsAt w 0 3 }

/-- The bits of a `FMstat` at their places. -/
def FMstat.toWord (f : FMstat) : Nat :=
  f.c.toNat * 2 ^ 31 + f.k * 2 ^ 14 + f.s

/-- The fields of a `FEmit` in a word. -/
def FEmit.ofWord (w : Nat) : FEmit :=
  { c := bitAt w 31, a := bitsAt w 13 7, m := bitAt w 5, j := bitsAt w 0 4 }

/-- The bits of a `FEmit` at their places. -/
def FEmit.toWord (f : FEmit) : Nat :=
  f.c.toNat * 2 ^ 31 + f.a * 2 ^ 13 + f.m.toNat * 2 ^ 5 + f.j

/-- The fields of a `FEmitt` in a word. -/
def FEmitt.ofWord (w : Nat) : FEmitt :=
  { c := bitAt w 31, k := bitsAt w 14 6, a := bitsAt w 7 7, m := bitAt w 6, j := bitsAt w 0 4 }

/-- The bits of a `FEmitt` at their places. -/
def FEmitt.toWord (f : FEmitt) : Nat :=
  f.c.toNat * 2 ^ 31 + f.k * 2 ^ 14 + f.a * 2 ^ 7 + f.m.toNat * 2 ^ 6 + f.j

/-- The fields of a `FSysrd` in a word. -/
def FSysrd.ofWord (w : Nat) : FSysrd :=
  { c := bitAt w 31, d := bitsAt w 13 7, a := bitsAt w 6 7, n := bitsAt w 0 6 }

/-- The bits of a `FSysrd` at their places. -/
def FSysrd.toWord (f : FSysrd) : Nat :=
  f.c.toNat * 2 ^ 31 + f.d * 2 ^ 13 + f.a * 2 ^ 6 + f.n

/-- The fields of a `FSyswr` in a word. -/
def FSyswr.ofWord (w : Nat) : FSyswr :=
  { c := bitAt w 31, a := bitsAt w 6 7, n := bitsAt w 0 6 }

/-- The bits of a `FSyswr` at their places. -/
def FSyswr.toWord (f : FSyswr) : Nat :=
  f.c.toNat * 2 ^ 31 + f.a * 2 ^ 6 + f.n

/-- The fields of a `FBallot` in a word. -/
def FBallot.ofWord (w : Nat) : FBallot :=
  { c := bitAt w 31, d := bitsAt w 13 7, k := bitsAt w 7 6 }

/-- The bits of a `FBallot` at their places. -/
def FBallot.toWord (f : FBallot) : Nat :=
  f.c.toNat * 2 ^ 31 + f.d * 2 ^ 13 + f.k * 2 ^ 7

/-- The fields of a `FKg` in a word. -/
def FKg.ofWord (w : Nat) : FKg :=
  { c := bitAt w 31, k := bitsAt w 14 6, j := bitsAt w 8 6, n := bitAt w 7 }

/-- The bits of a `FKg` at their places. -/
def FKg.toWord (f : FKg) : Nat :=
  f.c.toNat * 2 ^ 31 + f.k * 2 ^ 14 + f.j * 2 ^ 8 + f.n.toNat * 2 ^ 7

/-- The fields of a `FXidx` in a word. -/
def FXidx.ofWord (w : Nat) : FXidx :=
  { c := bitAt w 31, d := bitsAt w 13 7, a := bitsAt w 6 7, t := bitsAt w 3 3 }

/-- The bits of a `FXidx` at their places. -/
def FXidx.toWord (f : FXidx) : Nat :=
  f.c.toNat * 2 ^ 31 + f.d * 2 ^ 13 + f.a * 2 ^ 6 + f.t * 2 ^ 3

/-- The fields of a `FXfer` in a word. -/
def FXfer.ofWord (w : Nat) : FXfer :=
  { c := bitAt w 31, d := bitsAt w 13 7, a := bitsAt w 6 7, i := bitsAt w 0 6 }

/-- The bits of a `FXfer` at their places. -/
def FXfer.toWord (f : FXfer) : Nat :=
  f.c.toNat * 2 ^ 31 + f.d * 2 ^ 13 + f.a * 2 ^ 6 + f.i

/-- The fields of a `FScan` in a word. -/
def FScan.ofWord (w : Nat) : FScan :=
  { c := bitAt w 31, d := bitsAt w 13 7, a := bitsAt w 6 7, m := bitAt w 5, x := bitAt w 0 }

/-- The bits of a `FScan` at their places. -/
def FScan.toWord (f : FScan) : Nat :=
  f.c.toNat * 2 ^ 31 + f.d * 2 ^ 13 + f.a * 2 ^ 6 + f.m.toNat * 2 ^ 5 + f.x.toNat

/-- The fields of a `FGpos` in a word. -/
def FGpos.ofWord (w : Nat) : FGpos :=
  { c := bitAt w 31, d := bitsAt w 13 7 }

/-- The bits of a `FGpos` at their places. -/
def FGpos.toWord (f : FGpos) : Nat :=
  f.c.toNat * 2 ^ 31 + f.d * 2 ^ 13

/-- The fields of a `FGfirst` in a word. -/
def FGfirst.ofWord (w : Nat) : FGfirst :=
  { c := bitAt w 31, k := bitsAt w 14 6 }

/-- The bits of a `FGfirst` at their places. -/
def FGfirst.toWord (f : FGfirst) : Nat :=
  f.c.toNat * 2 ^ 31 + f.k * 2 ^ 14

/-- The fields of a `FEnd` in a word. -/
def FEnd.ofWord (w : Nat) : FEnd :=
  { j := bitAt w 24, y := bitAt w 23, r := bitAt w 22, w := bitsAt w 0 16 }

/-- The bits of a `FEnd` at their places. -/
def FEnd.toWord (f : FEnd) : Nat :=
  f.j.toNat * 2 ^ 24 + f.y.toNat * 2 ^ 23 + f.r.toNat * 2 ^ 22 + f.w

/-- Major 0x00 (Tables 04.2, 04.4). -/
def dec00 (w : Nat) (q : Option Modifier) : Option Instr :=
  match bitsAt w 20 5 with
  | 0 => if bitsAt w 0 20 = 0 then some (.nop (FC.ofWord w)) else none
  | 1 => if bitsAt w 0 20 = 0 then some (.exit (FC.ofWord w) q) else none
  | 2 => some (.trap (FTrap.ofWord w) q)
  | 3 => if bitsAt w 0 20 = 0 then some (.trapret (FC.ofWord w) q) else none
  | 4 => if bitsAt w 0 20 = 0 then some (.bkpt (FC.ofWord w) q) else none
  | 5 => if bitsAt w 0 20 = 0 then some (.yield (FC.ofWord w) q) else none
  | _ => none

/-- Major 0x01 (Tables 04.2, 04.4). -/
def dec01 (w : Nat) (q : Option Modifier) : Option Instr :=
  match bitsAt w 24 1 with
  | 0 => some (.iadd (FR.ofWord w) q)
  | 1 => some (.isub (FR.ofWord w) q)
  | _ => none

/-- Major 0x02 (Tables 04.2, 04.4). -/
def dec02 (w : Nat) (q : Option Modifier) : Option Instr :=
  match bitsAt w 24 1 with
  | 0 => some (.imul (FR.ofWord w) q)
  | 1 => some (.imulhU (FR.ofWord w) q)
  | _ => none

/-- Major 0x03 (Tables 04.2, 04.4). -/
def dec03 (w : Nat) (q : Option Modifier) : Option Instr :=
  match bitsAt w 24 1 with
  | 0 => some (.imulhS (FR.ofWord w) q)
  | 1 => if bitsAt w 0 1 = 0 ∧ bitsAt w 2 7 = 0 then some (.iabs (FUn.ofWord w) q) else none
  | _ => none

/-- Major 0x04 (Tables 04.2, 04.4). -/
def dec04 (w : Nat) (q : Option Modifier) : Option Instr :=
  some (.imad (FRt.ofWord w) q)

/-- Major 0x05 (Tables 04.2, 04.4). -/
def dec05 (w : Nat) (q : Option Modifier) : Option Instr :=
  match bitsAt w 24 1 with
  | 0 => some (.iminS (FR.ofWord w) q)
  | 1 => some (.imaxS (FR.ofWord w) q)
  | _ => none

/-- Major 0x06 (Tables 04.2, 04.4). -/
def dec06 (w : Nat) (q : Option Modifier) : Option Instr :=
  match bitsAt w 24 1 with
  | 0 => some (.iminU (FR.ofWord w) q)
  | 1 => some (.imaxU (FR.ofWord w) q)
  | _ => none

/-- Major 0x07 (Tables 04.2, 04.4). -/
def dec07 (w : Nat) (q : Option Modifier) : Option Instr :=
  match bitsAt w 24 1 with
  | 0 => some (.and (FR.ofWord w) q)
  | 1 => some (.or (FR.ofWord w) q)
  | _ => none

/-- Major 0x08 (Tables 04.2, 04.4). -/
def dec08 (w : Nat) (q : Option Modifier) : Option Instr :=
  match bitsAt w 24 1 with
  | 0 => some (.xor (FR.ofWord w) q)
  | 1 => some (.andn (FR.ofWord w) q)
  | _ => none

/-- Major 0x09 (Tables 04.2, 04.4). -/
def dec09 (w : Nat) (q : Option Modifier) : Option Instr :=
  match bitsAt w 24 1 with
  | 0 => some (.shl (FR.ofWord w) q)
  | 1 => some (.shr (FR.ofWord w) q)
  | _ => none

/-- Major 0x0A (Tables 04.2, 04.4). -/
def dec0A (w : Nat) (q : Option Modifier) : Option Instr :=
  match bitsAt w 24 1 with
  | 0 => some (.sar (FR.ofWord w) q)
  | 1 => some (.rot (FR.ofWord w) q)
  | _ => none

/-- Major 0x0B (Tables 04.2, 04.4). -/
def dec0B (w : Nat) (q : Option Modifier) : Option Instr :=
  match bitsAt w 24 1 with
  | 0 => if bitsAt w 0 1 = 0 ∧ bitsAt w 2 7 = 0 then some (.popc (FUn.ofWord w) q) else none
  | 1 => if bitsAt w 0 1 = 0 ∧ bitsAt w 2 7 = 0 then some (.clz (FUn.ofWord w) q) else none
  | _ => none

/-- Major 0x0C (Tables 04.2, 04.4). -/
def dec0C (w : Nat) (q : Option Modifier) : Option Instr :=
  match bitsAt w 24 1 with
  | 0 => some (.bfxU (FR.ofWord w) q)
  | 1 => some (.bfxS (FR.ofWord w) q)
  | _ => none

/-- Major 0x0D (Tables 04.2, 04.4). -/
def dec0D (w : Nat) (q : Option Modifier) : Option Instr :=
  some (.bfi (FRt.ofWord w) q)

/-- Major 0x0E (Tables 04.2, 04.4). -/
def dec0E (w : Nat) (q : Option Modifier) : Option Instr :=
  match bitsAt w 24 1 with
  | 0 => some (.iaddW (FR.ofWord w) q)
  | 1 => some (.isubW (FR.ofWord w) q)
  | _ => none

/-- Major 0x0F (Tables 04.2, 04.4). -/
def dec0F (w : Nat) (q : Option Modifier) : Option Instr :=
  match bitsAt w 24 1 with
  | 0 => some (.iaddi (FI.ofWord w) q)
  | 1 => some (.andi (FI.ofWord w) q)
  | _ => none

/-- Major 0x10 (Tables 04.2, 04.4). -/
def dec10 (w : Nat) (q : Option Modifier) : Option Instr :=
  match bitsAt w 24 1 with
  | 0 => some (.ori (FI.ofWord w) q)
  | 1 => some (.xori (FI.ofWord w) q)
  | _ => none

/-- Major 0x11 (Tables 04.2, 04.4). -/
def dec11 (w : Nat) (q : Option Modifier) : Option Instr :=
  match bitsAt w 24 1 with
  | 0 => if bitsAt w 5 4 = 0 then some (.shli (FSh.ofWord w) q) else none
  | 1 => if bitsAt w 5 4 = 0 then some (.shri (FSh.ofWord w) q) else none
  | _ => none

/-- Major 0x12 (Tables 04.2, 04.4). -/
def dec12 (w : Nat) (q : Option Modifier) : Option Instr :=
  match bitsAt w 24 1 with
  | 0 => if bitsAt w 5 4 = 0 then some (.sari (FSh.ofWord w) q) else none
  | 1 => some (.muli (FI.ofWord w) q)
  | _ => none

/-- Major 0x13 (Tables 04.2, 04.4). -/
def dec13 (w : Nat) (q : Option Modifier) : Option Instr :=
  match bitsAt w 24 1 with
  | 0 => if bitsAt w 0 1 = 0 ∧ bitsAt w 2 7 = 0 then some (.brev (FUn.ofWord w) q) else none
  | 1 => some (.lea (FR.ofWord w) q)
  | _ => none

/-- Major 0x14 (Tables 04.2, 04.4). -/
def dec14 (w : Nat) (q : Option Modifier) : Option Instr :=
  match bitsAt w 23 2 with
  | 0 => some (.li (FL.ofWord w) q)
  | 1 => some (.liu (FL.ofWord w) q)
  | 2 => some (.lhi (FL.ofWord w) q)
  | _ => none

/-- Major 0x15 (Tables 04.2, 04.4). -/
def dec15 (w : Nat) (q : Option Modifier) : Option Instr :=
  match bitsAt w 24 1 with
  | 0 => if bitsAt w 0 1 = 0 ∧ bitsAt w 2 7 = 0 then some (.mov (FUn.ofWord w) q) else none
  | 1 => some (.sel (FR.ofWord w) q)
  | _ => none

/-- Major 0x16 (Tables 04.2, 04.4). -/
def dec16 (w : Nat) (q : Option Modifier) : Option Instr :=
  match bitsAt w 20 5 with
  | 0 => some (.setx (FSetx.ofWord w) q)
  | 1 => some (.movxR (FMovr.ofWord w) q)
  | 2 => some (.movxW (FMovw.ofWord w) q)
  | 3 => if bitsAt w 16 4 = 0 then some (.win (FWin.ofWord w) q) else none
  | _ => none

/-- Major 0x17 (Tables 04.2, 04.4). -/
def dec17 (w : Nat) (q : Option Modifier) : Option Instr :=
  some (.icmpS (FP.ofWord w) q)

/-- Major 0x18 (Tables 04.2, 04.4). -/
def dec18 (w : Nat) (q : Option Modifier) : Option Instr :=
  some (.icmpU (FP.ofWord w) q)

/-- Major 0x19 (Tables 04.2, 04.4). -/
def dec19 (w : Nat) (q : Option Modifier) : Option Instr :=
  match bitsAt w 23 2 with
  | 0 => if bitsAt w 0 3 = 0 then some (.pand (FPl.ofWord w) q) else none
  | 1 => if bitsAt w 0 3 = 0 then some (.por (FPl.ofWord w) q) else none
  | 2 => if bitsAt w 0 3 = 0 then some (.pxor (FPl.ofWord w) q) else none
  | 3 => if bitsAt w 0 3 = 0 then some (.pandn (FPl.ofWord w) q) else none
  | _ => none

/-- Major 0x1A (Tables 04.2, 04.4). -/
def dec1A (w : Nat) (q : Option Modifier) : Option Instr :=
  match bitsAt w 20 5 with
  | 0 => if bitsAt w 6 1 = 0 then some (.kpack (FKpack.ofWord w) q) else none
  | 1 => some (.kunpack (FKunp.ofWord w) q)
  | 2 => if bitsAt w 1 13 = 0 then some (.kset (FKset.ofWord w) q) else none
  | _ => none

/-- Major 0x1B (Tables 04.2, 04.4). -/
def dec1B (w : Nat) (q : Option Modifier) : Option Instr :=
  match bitsAt w 22 3 with
  | 0 => if bitsAt w 0 10 = 0 then some (.smov (FSmov.ofWord w) q) else none
  | 1 => if bitsAt w 10 6 = 0 then some (.sli (FSli.ofWord w) q) else none
  | 2 => if bitsAt w 6 4 = 0 then some (.sadd (FSop.ofWord w) q) else none
  | 3 => if bitsAt w 6 4 = 0 then some (.ssub (FSop.ofWord w) q) else none
  | 4 => if bitsAt w 6 4 = 0 then some (.sand (FSop.ofWord w) q) else none
  | 5 => if bitsAt w 6 4 = 0 then some (.sor (FSop.ofWord w) q) else none
  | 6 => if bitsAt w 5 5 = 0 then some (.sshl (FSsh.ofWord w) q) else none
  | 7 => if bitsAt w 5 5 = 0 then some (.sshr (FSsh.ofWord w) q) else none
  | _ => none

/-- Major 0x1C (Tables 04.2, 04.4). -/
def dec1C (w : Nat) (q : Option Modifier) : Option Instr :=
  match bitsAt w 22 3 with
  | 0 => if bitsAt w 7 3 = 0 ∧ bitsAt w 16 6 = 0 then some (.smovv (FSmovv.ofWord w) q) else none
  | 1 => if bitsAt w 8 8 = 0 then some (.vmovs (FVmovs.ofWord w) q) else none
  | 2 => some (.sld (FSld.ofWord w) q)
  | 3 => some (.scmp (FScmp.ofWord w) q)
  | _ => none

/-- Major 0x1D (Tables 04.2, 04.4). -/
def dec1D (w : Nat) (q : Option Modifier) : Option Instr :=
  some (.bra (FB.ofWord w) q)

/-- Major 0x1E (Tables 04.2, 04.4). -/
def dec1E (w : Nat) (q : Option Modifier) : Option Instr :=
  some (.call (FB.ofWord w) q)

/-- Major 0x1F (Tables 04.2, 04.4). -/
def dec1F (w : Nat) (q : Option Modifier) : Option Instr :=
  match bitsAt w 20 5 with
  | 0 => if bitsAt w 0 5 = 0 ∧ bitsAt w 6 7 = 0 then some (.jmpr (FA.ofWord w) q) else none
  | 1 => if bitsAt w 0 5 = 0 ∧ bitsAt w 6 7 = 0 then some (.ret (FA.ofWord w) q) else none
  | _ => none

/-- Major 0x20 (Tables 04.2, 04.4). -/
def dec20 (w : Nat) (q : Option Modifier) : Option Instr :=
  match bitsAt w 24 1 with
  | 0 => some (.fadd (FR.ofWord w) q)
  | 1 => some (.fsub (FR.ofWord w) q)
  | _ => none

/-- Major 0x21 (Tables 04.2, 04.4). -/
def dec21 (w : Nat) (q : Option Modifier) : Option Instr :=
  match bitsAt w 24 1 with
  | 0 => some (.fmul (FR.ofWord w) q)
  | 1 => some (.fmin (FR.ofWord w) q)
  | _ => none

/-- Major 0x22 (Tables 04.2, 04.4). -/
def dec22 (w : Nat) (q : Option Modifier) : Option Instr :=
  some (.ffma (FRt.ofWord w) q)

/-- Major 0x23 (Tables 04.2, 04.4). -/
def dec23 (w : Nat) (q : Option Modifier) : Option Instr :=
  match bitsAt w 24 1 with
  | 0 => some (.fmax (FR.ofWord w) q)
  | 1 => if bitsAt w 0 1 = 0 ∧ bitsAt w 2 7 = 0 then some (.fclass (FUn.ofWord w) q) else none
  | _ => none

/-- Major 0x24 (Tables 04.2, 04.4). -/
def dec24 (w : Nat) (q : Option Modifier) : Option Instr :=
  match bitsAt w 20 5 with
  | 0 => if bitsAt w 0 5 = 0 then some (.frndNe (FXv.ofWord w) q) else none
  | 1 => if bitsAt w 0 5 = 0 then some (.frndZ (FXv.ofWord w) q) else none
  | 2 => if bitsAt w 0 5 = 0 then some (.frndP (FXv.ofWord w) q) else none
  | 3 => if bitsAt w 0 5 = 0 then some (.frndM (FXv.ofWord w) q) else none
  | 4 => if bitsAt w 0 5 = 0 then some (.f2iS (FXv.ofWord w) q) else none
  | 5 => if bitsAt w 0 5 = 0 then some (.f2iU (FXv.ofWord w) q) else none
  | 6 => if bitsAt w 0 5 = 0 then some (.i2fS (FXv.ofWord w) q) else none
  | 7 => if bitsAt w 0 5 = 0 then some (.i2fU (FXv.ofWord w) q) else none
  | 8 => if bitsAt w 0 5 = 0 then some (.f2h (FXv.ofWord w) q) else none
  | 9 => if bitsAt w 1 4 = 0 then some (.h2f (FXh.ofWord w) q) else none
  | 10 => if bitsAt w 0 5 = 0 then some (.f2bf (FXv.ofWord w) q) else none
  | 11 => if bitsAt w 1 4 = 0 then some (.bf2f (FXh.ofWord w) q) else none
  | 12 => if bitsAt w 0 5 = 0 then some (.f2e4 (FXv.ofWord w) q) else none
  | 13 => if bitsAt w 2 3 = 0 then some (.e42f (FXe.ofWord w) q) else none
  | 14 => if bitsAt w 0 5 = 0 then some (.f2e5 (FXv.ofWord w) q) else none
  | 15 => if bitsAt w 2 3 = 0 then some (.e52f (FXe.ofWord w) q) else none
  | _ => none

/-- Major 0x25 (Tables 04.2, 04.4). -/
def dec25 (w : Nat) (q : Option Modifier) : Option Instr :=
  some (.fcmp (FP.ofWord w) q)

/-- Major 0x26 (Tables 04.2, 04.4). -/
def dec26 (w : Nat) (q : Option Modifier) : Option Instr :=
  match bitsAt w 24 1 with
  | 0 => some (.hadd2 (FR.ofWord w) q)
  | 1 => some (.hmul2 (FR.ofWord w) q)
  | _ => none

/-- Major 0x27 (Tables 04.2, 04.4). -/
def dec27 (w : Nat) (q : Option Modifier) : Option Instr :=
  some (.hfma2 (FRt.ofWord w) q)

/-- Major 0x28 (Tables 04.2, 04.4). -/
def dec28 (w : Nat) (q : Option Modifier) : Option Instr :=
  some (.bfma2 (FRt.ofWord w) q)

/-- Major 0x29 (Tables 04.2, 04.4). -/
def dec29 (w : Nat) (q : Option Modifier) : Option Instr :=
  match bitsAt w 24 1 with
  | 0 => some (.dadd (FR.ofWord w) q)
  | 1 => some (.dmul (FR.ofWord w) q)
  | _ => none

/-- Major 0x2A (Tables 04.2, 04.4). -/
def dec2A (w : Nat) (q : Option Modifier) : Option Instr :=
  some (.dfma (FRt.ofWord w) q)

/-- Major 0x2B (Tables 04.2, 04.4). -/
def dec2B (w : Nat) (q : Option Modifier) : Option Instr :=
  match bitsAt w 20 5 with
  | 0 => if bitsAt w 0 5 = 0 then some (.d2f (FXv.ofWord w) q) else none
  | 1 => if bitsAt w 0 5 = 0 then some (.f2d (FXv.ofWord w) q) else none
  | 2 => if bitsAt w 1 4 = 0 then some (.d2i (FXu.ofWord w) q) else none
  | 3 => if bitsAt w 1 4 = 0 then some (.i2d (FXu.ofWord w) q) else none
  | 4 => if bitsAt w 0 1 = 0 then some (.dsubf (FDsubf.ofWord w) q) else none
  | 5 => if bitsAt w 0 2 = 0 then some (.dmin (FDmin.ofWord w) q) else none
  | 6 => if bitsAt w 0 2 = 0 then some (.dmax (FDmin.ofWord w) q) else none
  | 7 => some (.dcmp (FDcmp.ofWord w) q)
  | _ => none

/-- Major 0x2C (Tables 04.2, 04.4). -/
def dec2C (w : Nat) (q : Option Modifier) : Option Instr :=
  match bitsAt w 20 5 with
  | 0 => if bitsAt w 0 5 = 0 then some (.rcp (FXv.ofWord w) q) else none
  | 1 => if bitsAt w 0 5 = 0 then some (.rsq (FXv.ofWord w) q) else none
  | 2 => if bitsAt w 0 5 = 0 then some (.sqrt (FXv.ofWord w) q) else none
  | 3 => if bitsAt w 0 5 = 0 then some (.ex2 (FXv.ofWord w) q) else none
  | 4 => if bitsAt w 0 5 = 0 then some (.lg2 (FXv.ofWord w) q) else none
  | 5 => if bitsAt w 0 5 = 0 then some (.sin (FXv.ofWord w) q) else none
  | 6 => if bitsAt w 0 5 = 0 then some (.cos (FXv.ofWord w) q) else none
  | 7 => if bitsAt w 0 5 = 0 then some (.tanh (FXv.ofWord w) q) else none
  | _ => none

/-- Major 0x2D (Tables 04.2, 04.4). -/
def dec2D (w : Nat) (q : Option Modifier) : Option Instr :=
  match bitsAt w 24 1 with
  | 0 => some (.hmix (FR.ofWord w) q)
  | _ => none

/-- Major 0x2E (Tables 04.2, 04.4). -/
def dec2E (w : Nat) (q : Option Modifier) : Option Instr :=
  some (.ld (FLd.ofWord w) q)

/-- Major 0x2F (Tables 04.2, 04.4). -/
def dec2F (w : Nat) (q : Option Modifier) : Option Instr :=
  some (.st (FSt.ofWord w) q)

/-- Major 0x30 (Tables 04.2, 04.4). -/
def dec30 (w : Nat) (q : Option Modifier) : Option Instr :=
  some (.lds (FLd.ofWord w) q)

/-- Major 0x31 (Tables 04.2, 04.4). -/
def dec31 (w : Nat) (q : Option Modifier) : Option Instr :=
  some (.sts (FSt.ofWord w) q)

/-- Major 0x32 (Tables 04.2, 04.4). -/
def dec32 (w : Nat) (q : Option Modifier) : Option Instr :=
  some (.ldt (FLd.ofWord w) q)

/-- Major 0x33 (Tables 04.2, 04.4). -/
def dec33 (w : Nat) (q : Option Modifier) : Option Instr :=
  some (.stt (FSt.ofWord w) q)

/-- Major 0x34 (Tables 04.2, 04.4). -/
def dec34 (w : Nat) (q : Option Modifier) : Option Instr :=
  match bitsAt w 22 3 with
  | 0 => some (.atomAdd (FAtom.ofWord w) q)
  | 1 => some (.atomMinS (FAtom.ofWord w) q)
  | 2 => some (.atomMinU (FAtom.ofWord w) q)
  | 3 => some (.atomMaxS (FAtom.ofWord w) q)
  | 4 => some (.atomMaxU (FAtom.ofWord w) q)
  | 5 => some (.atomAnd (FAtom.ofWord w) q)
  | 6 => some (.atomOr (FAtom.ofWord w) q)
  | 7 => some (.atomXor (FAtom.ofWord w) q)
  | _ => none

/-- Major 0x35 (Tables 04.2, 04.4). -/
def dec35 (w : Nat) (q : Option Modifier) : Option Instr :=
  match bitsAt w 22 3 with
  | 0 => some (.exch (FAtom.ofWord w) q)
  | 1 => some (.cas (FAtom.ofWord w) q)
  | 2 => some (.atomRinc (FAtom.ofWord w) q)
  | 3 => some (.atomRdec (FAtom.ofWord w) q)
  | 4 => some (.atomFadd (FAtom.ofWord w) q)
  | _ => none

/-- Major 0x36 (Tables 04.2, 04.4). -/
def dec36 (w : Nat) (q : Option Modifier) : Option Instr :=
  match bitsAt w 20 5 with
  | 0 => if bitsAt w 0 20 = 0 then some (.fence (FC.ofWord w) q) else none
  | 1 => if bitsAt w 0 20 = 0 then some (.fenceT (FC.ofWord w) q) else none
  | 2 => if bitsAt w 0 20 = 0 then some (.bar (FC.ofWord w) q) else none
  | 3 => if bitsAt w 0 20 = 0 then some (.barS (FC.ofWord w) q) else none
  | 4 => if bitsAt w 0 4 = 0 then some (.pbinit (FPb.ofWord w) q) else none
  | 5 => if bitsAt w 0 4 = 0 then some (.pbarrive (FPb.ofWord w) q) else none
  | 6 => if bitsAt w 0 4 = 0 then some (.pbexpect (FPb.ofWord w) q) else none
  | 7 => if bitsAt w 1 4 = 0 ∧ bitsAt w 6 7 = 0 then some (.pbwait (FPbw.ofWord w) q) else none
  | 8 => if bitsAt w 1 5 = 0 then some (.pbtest (FPbt.ofWord w) q) else none
  | 9 => if bitsAt w 3 1 = 0 then some (.waitc (FWaitc.ofWord w) q) else none
  | 10 => if bitsAt w 2 3 = 0 then some (.ldsc (FLdsc.ofWord w) q) else none
  | 11 => if bitsAt w 2 2 = 0 then some (.stsc (FStsc.ofWord w) q) else none
  | 12 => some (.atomscAdd (FAsc.ofWord w) q)
  | 13 => some (.atomscCas (FAsc.ofWord w) q)
  | 14 => if bitsAt w 0 5 = 0 ∧ bitsAt w 6 7 = 0 then some (.cflush (FA.ofWord w) q) else none
  | 15 => if bitsAt w 0 5 = 0 ∧ bitsAt w 6 7 = 0 then some (.cinv (FA.ofWord w) q) else none
  | 16 => if bitsAt w 2 3 = 0 ∧ bitsAt w 6 7 = 0 then some (.prefetch (FPref.ofWord w) q) else none
  | _ => none

/-- Major 0x37 (Tables 04.2, 04.4). -/
def dec37 (w : Nat) (q : Option Modifier) : Option Instr :=
  match bitsAt w 20 5 with
  | 0 => if bitsAt w 8 10 = 0 then some (.acqB (FAcq.ofWord w) q) else none
  | 1 => some (.acqT (FAcqt.ofWord w) q)
  | 2 => if bitsAt w 8 10 = 0 then some (.rel (FAcq.ofWord w) q) else none
  | 3 => some (.qput (FQput.ofWord w) q)
  | 4 => if bitsAt w 3 10 = 0 then some (.qget (FQget.ofWord w) q) else none
  | 5 => if bitsAt w 3 2 = 0 then some (.qfree (FQfree.ofWord w) q) else none
  | 6 => if bitsAt w 6 2 = 0 ∧ bitsAt w 14 6 = 0 then some (.tdef (FTdef.ofWord w) q) else none
  | 7 => if bitsAt w 6 8 = 0 then some (.tstat (FTstat.ofWord w) q) else none
  | 8 => if bitsAt w 0 8 = 0 ∧ bitsAt w 14 6 = 0 then some (.kick (FXu1.ofWord w) q) else none
  | 9 => if bitsAt w 0 8 = 0 ∧ bitsAt w 14 6 = 0 then some (.bankjob (FXu1.ofWord w) q) else none
  | _ => none

/-- Major 0x38 (Tables 04.2, 04.4). -/
def dec38 (w : Nat) (q : Option Modifier) : Option Instr :=
  match bitsAt w 20 5 with
  | 0 => some (.suld (FXs.ofWord w) q)
  | 1 => some (.sust (FXs.ofWord w) q)
  | 2 => some (.tex (FXs.ofWord w) q)
  | 3 => some (.texl (FXs.ofWord w) q)
  | 4 => some (.texg (FXs.ofWord w) q)
  | 5 => if bitsAt w 0 5 = 0 ∧ bitsAt w 6 7 = 0 then some (.zexp (FA.ofWord w) q) else none
  | 6 => if bitsAt w 3 2 = 0 ∧ bitsAt w 6 7 = 0 then some (.cexp (FCexp.ofWord w) q) else none
  | 7 => if bitsAt w 0 5 = 0 then some (.occ (FXv.ofWord w) q) else none
  | 8 => if bitsAt w 0 8 = 0 then some (.salloc (FSalloc.ofWord w) q) else none
  | 9 => if bitsAt w 0 8 = 0 ∧ bitsAt w 14 6 = 0 then some (.sfree (FXu1.ofWord w) q) else none
  | _ => none

/-- Major 0x39 (Tables 04.2, 04.4). -/
def dec39 (w : Nat) (q : Option Modifier) : Option Instr :=
  match bitsAt w 20 5 with
  | 0 => if bitsAt w 0 8 = 0 ∧ bitsAt w 14 6 = 0 then some (.mma (FXu1.ofWord w) q) else none
  | 1 => if bitsAt w 0 8 = 0 ∧ bitsAt w 14 6 = 0 then some (.msca (FXu1.ofWord w) q) else none
  | 2 => if bitsAt w 3 17 = 0 then some (.mzero (FMzero.ofWord w) q) else none
  | 3 => if bitsAt w 0 8 = 0 ∧ bitsAt w 14 6 = 0 then some (.mload (FXu1.ofWord w) q) else none
  | 4 => if bitsAt w 6 7 = 0 then some (.mdrain (FMdrain.ofWord w) q) else none
  | 5 => if bitsAt w 0 8 = 0 ∧ bitsAt w 14 6 = 0 then some (.mdrainAdd (FXu1.ofWord w) q) else none
  | 6 => if bitsAt w 3 11 = 0 then some (.mstat (FMstat.ofWord w) q) else none
  | _ => none

/-- Major 0x3A (Tables 04.2, 04.4). -/
def dec3A (w : Nat) (q : Option Modifier) : Option Instr :=
  match bitsAt w 20 5 with
  | 0 => if bitsAt w 4 1 = 0 ∧ bitsAt w 6 7 = 0 then some (.emit (FEmit.ofWord w) q) else none
  | 1 => if bitsAt w 4 2 = 0 then some (.emitT (FEmitt.ofWord w) q) else none
  | _ => none

/-- Major 0x3B (Tables 04.2, 04.4). -/
def dec3B (w : Nat) (q : Option Modifier) : Option Instr :=
  match bitsAt w 20 5 with
  | 0 => some (.sysrd (FSysrd.ofWord w) q)
  | 1 => if bitsAt w 13 7 = 0 then some (.syswr (FSyswr.ofWord w) q) else none
  | _ => none

/-- Major 0x3D (Tables 04.2, 04.4). -/
def dec3D (w : Nat) (q : Option Modifier) : Option Instr :=
  match bitsAt w 20 5 with
  | 0 => if bitsAt w 0 7 = 0 then some (.ballot (FBallot.ofWord w) q) else none
  | 1 => if bitsAt w 0 7 = 0 then some (.kgor (FKg.ofWord w) q) else none
  | 2 => if bitsAt w 0 7 = 0 then some (.kgand (FKg.ofWord w) q) else none
  | 3 => if bitsAt w 0 3 = 0 then some (.xferIdx (FXidx.ofWord w) q) else none
  | 4 => some (.xferRot (FXfer.ofWord w) q)
  | 5 => some (.xferSh (FXfer.ofWord w) q)
  | 6 => some (.xferFlip (FXfer.ofWord w) q)
  | 7 => if bitsAt w 0 5 = 0 then some (.gredAdd (FXv.ofWord w) q) else none
  | 8 => if bitsAt w 0 5 = 0 then some (.gredMin (FXv.ofWord w) q) else none
  | 9 => if bitsAt w 0 5 = 0 then some (.gredMax (FXv.ofWord w) q) else none
  | 10 => if bitsAt w 0 5 = 0 then some (.gredFadd (FXv.ofWord w) q) else none
  | 11 => if bitsAt w 0 5 = 0 then some (.gredFmax (FXv.ofWord w) q) else none
  | 12 => if bitsAt w 1 4 = 0 then some (.gscanAdd (FScan.ofWord w) q) else none
  | 13 => if bitsAt w 0 13 = 0 then some (.gpos (FGpos.ofWord w) q) else none
  | 14 => if bitsAt w 0 13 = 0 then some (.gsize (FGpos.ofWord w) q) else none
  | 15 => if bitsAt w 0 14 = 0 then some (.gfirst (FGfirst.ofWord w) q) else none
  | 16 => some (.pick (FXs.ofWord w) q)
  | _ => none

/-- Major 0x3E (Tables 04.2, 04.4). -/
def dec3E (w : Nat) : Option Instr :=
  if bitsAt w 16 6 = 0 ∧ bitAt w 31 = false then some (.endrun (FEnd.ofWord w)) else none

/-- The instruction of a word and its modifier, by the major opcode in bits [30:25] (R93). -/
def decodeWord (w : Nat) (q : Option Modifier) : Option Instr :=
  match bitsAt w 25 6 with
  | 0x00 => dec00 w q
  | 0x01 => dec01 w q
  | 0x02 => dec02 w q
  | 0x03 => dec03 w q
  | 0x04 => dec04 w q
  | 0x05 => dec05 w q
  | 0x06 => dec06 w q
  | 0x07 => dec07 w q
  | 0x08 => dec08 w q
  | 0x09 => dec09 w q
  | 0x0A => dec0A w q
  | 0x0B => dec0B w q
  | 0x0C => dec0C w q
  | 0x0D => dec0D w q
  | 0x0E => dec0E w q
  | 0x0F => dec0F w q
  | 0x10 => dec10 w q
  | 0x11 => dec11 w q
  | 0x12 => dec12 w q
  | 0x13 => dec13 w q
  | 0x14 => dec14 w q
  | 0x15 => dec15 w q
  | 0x16 => dec16 w q
  | 0x17 => dec17 w q
  | 0x18 => dec18 w q
  | 0x19 => dec19 w q
  | 0x1A => dec1A w q
  | 0x1B => dec1B w q
  | 0x1C => dec1C w q
  | 0x1D => dec1D w q
  | 0x1E => dec1E w q
  | 0x1F => dec1F w q
  | 0x20 => dec20 w q
  | 0x21 => dec21 w q
  | 0x22 => dec22 w q
  | 0x23 => dec23 w q
  | 0x24 => dec24 w q
  | 0x25 => dec25 w q
  | 0x26 => dec26 w q
  | 0x27 => dec27 w q
  | 0x28 => dec28 w q
  | 0x29 => dec29 w q
  | 0x2A => dec2A w q
  | 0x2B => dec2B w q
  | 0x2C => dec2C w q
  | 0x2D => dec2D w q
  | 0x2E => dec2E w q
  | 0x2F => dec2F w q
  | 0x30 => dec30 w q
  | 0x31 => dec31 w q
  | 0x32 => dec32 w q
  | 0x33 => dec33 w q
  | 0x34 => dec34 w q
  | 0x35 => dec35 w q
  | 0x36 => dec36 w q
  | 0x37 => dec37 w q
  | 0x38 => dec38 w q
  | 0x39 => dec39 w q
  | 0x3A => dec3A w q
  | 0x3B => dec3B w q
  | 0x3D => dec3D w q
  | 0x3E => dec3E w
  | _ => none

/-- Why the decoder refuses its input. -/
inductive DecodeError where
  /-- fewer than four bytes -/
  | tooShort
  /-- a word of OP 0x3F that follows no host in its packet (R80) -/
  | loneModifier
  /-- a word of no row of the opcode table (R84, R97) -/
  | reserved
  deriving DecidableEq, Repr

/-- `nop` and `endrun` take no modifier (R80, R81): the word after them is a word of its own. -/
def takesModifier (w : Nat) : Bool :=
  bitsAt w 25 6 != 0x3E && w % 2 ^ 31 != 0

/-- The word `next`, if it is the modifier of `w`; the all-ones word has no major opcode (R72) and is ILLEGAL by itself (R84). -/
def modifierOf (w : Nat) (next : Option Nat) : Option Modifier :=
  match next with
  | none => none
  | some x => if takesModifier w && bitsAt x 25 6 == 0x3F && x != 0xFFFFFFFF then some (Modifier.ofWord x) else none

/-- Decode the word `w` that `next` follows in its packet: the instruction and how many words it takes. -/
def decodeAt (w : Nat) (next : Option Nat) : Except DecodeError (Instr × Nat) :=
  let q := modifierOf w next
  match decodeWord w q with
  | some i => .ok (i, if q.isSome then 2 else 1)
  | none => if bitsAt w 25 6 == 0x3F then .error .loneModifier else .error .reserved

/-- The little-endian word at the head of a byte list (R5). -/
def wordOfBytes : List (BitVec 8) → Option (Nat × List (BitVec 8))
  | b0 :: b1 :: b2 :: b3 :: rest =>
    some (b0.toNat + b1.toNat * 2 ^ 8 + b2.toNat * 2 ^ 16 + b3.toNat * 2 ^ 24, rest)
  | _ => none

/-- The bytes of a word, the lowest address first (R5). -/
def bytesOfWord (w : Nat) : List (BitVec 8) :=
  [BitVec.ofNat 8 w, BitVec.ofNat 8 (w / 2 ^ 8), BitVec.ofNat 8 (w / 2 ^ 16), BitVec.ofNat 8 (w / 2 ^ 24)]

/-- Decode the instruction at the head of the bytes of a packet, with the bytes left over. -/
def decodeBytes (bs : List (BitVec 8)) : Except DecodeError (Instr × List (BitVec 8)) :=
  match wordOfBytes bs with
  | none => .error .tooShort
  | some (w, rest) =>
    match decodeAt w ((wordOfBytes rest).map (·.1)) with
    | .error e => .error e
    | .ok (i, n) => .ok (i, if n = 2 then rest.drop 4 else rest)

/-- The words of a host word and its modifier. -/
def withMod (w : Nat) : Option Modifier → List Nat
  | none => [w]
  | some q => [w, q.toWord]

/-- The words of an instruction; a step or event without an encoding has none. -/
def encode : Instr → List Nat
  | .nop f => [f.toWord]
  | .exit f q => withMod (0x00100000 + f.toWord) q
  | .trap f q => withMod (0x00200000 + f.toWord) q
  | .trapret f q => withMod (0x00300000 + f.toWord) q
  | .bkpt f q => withMod (0x00400000 + f.toWord) q
  | .yield f q => withMod (0x00500000 + f.toWord) q
  | .iadd f q => withMod (0x02000000 + f.toWord) q
  | .isub f q => withMod (0x03000000 + f.toWord) q
  | .imul f q => withMod (0x04000000 + f.toWord) q
  | .imulhU f q => withMod (0x05000000 + f.toWord) q
  | .imulhS f q => withMod (0x06000000 + f.toWord) q
  | .iabs f q => withMod (0x07000000 + f.toWord) q
  | .imad f q => withMod (0x08000000 + f.toWord) q
  | .iminS f q => withMod (0x0A000000 + f.toWord) q
  | .imaxS f q => withMod (0x0B000000 + f.toWord) q
  | .iminU f q => withMod (0x0C000000 + f.toWord) q
  | .imaxU f q => withMod (0x0D000000 + f.toWord) q
  | .and f q => withMod (0x0E000000 + f.toWord) q
  | .or f q => withMod (0x0F000000 + f.toWord) q
  | .xor f q => withMod (0x10000000 + f.toWord) q
  | .andn f q => withMod (0x11000000 + f.toWord) q
  | .shl f q => withMod (0x12000000 + f.toWord) q
  | .shr f q => withMod (0x13000000 + f.toWord) q
  | .sar f q => withMod (0x14000000 + f.toWord) q
  | .rot f q => withMod (0x15000000 + f.toWord) q
  | .popc f q => withMod (0x16000000 + f.toWord) q
  | .clz f q => withMod (0x17000000 + f.toWord) q
  | .bfxU f q => withMod (0x18000000 + f.toWord) q
  | .bfxS f q => withMod (0x19000000 + f.toWord) q
  | .bfi f q => withMod (0x1A000000 + f.toWord) q
  | .iaddW f q => withMod (0x1C000000 + f.toWord) q
  | .isubW f q => withMod (0x1D000000 + f.toWord) q
  | .iaddi f q => withMod (0x1E000000 + f.toWord) q
  | .andi f q => withMod (0x1F000000 + f.toWord) q
  | .ori f q => withMod (0x20000000 + f.toWord) q
  | .xori f q => withMod (0x21000000 + f.toWord) q
  | .shli f q => withMod (0x22000000 + f.toWord) q
  | .shri f q => withMod (0x23000000 + f.toWord) q
  | .sari f q => withMod (0x24000000 + f.toWord) q
  | .muli f q => withMod (0x25000000 + f.toWord) q
  | .brev f q => withMod (0x26000000 + f.toWord) q
  | .lea f q => withMod (0x27000000 + f.toWord) q
  | .li f q => withMod (0x28000000 + f.toWord) q
  | .liu f q => withMod (0x28800000 + f.toWord) q
  | .lhi f q => withMod (0x29000000 + f.toWord) q
  | .mov f q => withMod (0x2A000000 + f.toWord) q
  | .sel f q => withMod (0x2B000000 + f.toWord) q
  | .setx f q => withMod (0x2C000000 + f.toWord) q
  | .movxR f q => withMod (0x2C100000 + f.toWord) q
  | .movxW f q => withMod (0x2C200000 + f.toWord) q
  | .win f q => withMod (0x2C300000 + f.toWord) q
  | .icmpS f q => withMod (0x2E000000 + f.toWord) q
  | .icmpU f q => withMod (0x30000000 + f.toWord) q
  | .pand f q => withMod (0x32000000 + f.toWord) q
  | .por f q => withMod (0x32800000 + f.toWord) q
  | .pxor f q => withMod (0x33000000 + f.toWord) q
  | .pandn f q => withMod (0x33800000 + f.toWord) q
  | .kpack f q => withMod (0x34000000 + f.toWord) q
  | .kunpack f q => withMod (0x34100000 + f.toWord) q
  | .kset f q => withMod (0x34200000 + f.toWord) q
  | .smov f q => withMod (0x36000000 + f.toWord) q
  | .sli f q => withMod (0x36400000 + f.toWord) q
  | .sadd f q => withMod (0x36800000 + f.toWord) q
  | .ssub f q => withMod (0x36C00000 + f.toWord) q
  | .sand f q => withMod (0x37000000 + f.toWord) q
  | .sor f q => withMod (0x37400000 + f.toWord) q
  | .sshl f q => withMod (0x37800000 + f.toWord) q
  | .sshr f q => withMod (0x37C00000 + f.toWord) q
  | .smovv f q => withMod (0x38000000 + f.toWord) q
  | .vmovs f q => withMod (0x38400000 + f.toWord) q
  | .sld f q => withMod (0x38800000 + f.toWord) q
  | .scmp f q => withMod (0x38C00000 + f.toWord) q
  | .bra f q => withMod (0x3A000000 + f.toWord) q
  | .call f q => withMod (0x3C000000 + f.toWord) q
  | .jmpr f q => withMod (0x3E000000 + f.toWord) q
  | .ret f q => withMod (0x3E100000 + f.toWord) q
  | .fadd f q => withMod (0x40000000 + f.toWord) q
  | .fsub f q => withMod (0x41000000 + f.toWord) q
  | .fmul f q => withMod (0x42000000 + f.toWord) q
  | .fmin f q => withMod (0x43000000 + f.toWord) q
  | .ffma f q => withMod (0x44000000 + f.toWord) q
  | .fmax f q => withMod (0x46000000 + f.toWord) q
  | .fclass f q => withMod (0x47000000 + f.toWord) q
  | .frndNe f q => withMod (0x48000000 + f.toWord) q
  | .frndZ f q => withMod (0x48100000 + f.toWord) q
  | .frndP f q => withMod (0x48200000 + f.toWord) q
  | .frndM f q => withMod (0x48300000 + f.toWord) q
  | .f2iS f q => withMod (0x48400000 + f.toWord) q
  | .f2iU f q => withMod (0x48500000 + f.toWord) q
  | .i2fS f q => withMod (0x48600000 + f.toWord) q
  | .i2fU f q => withMod (0x48700000 + f.toWord) q
  | .f2h f q => withMod (0x48800000 + f.toWord) q
  | .h2f f q => withMod (0x48900000 + f.toWord) q
  | .f2bf f q => withMod (0x48A00000 + f.toWord) q
  | .bf2f f q => withMod (0x48B00000 + f.toWord) q
  | .f2e4 f q => withMod (0x48C00000 + f.toWord) q
  | .e42f f q => withMod (0x48D00000 + f.toWord) q
  | .f2e5 f q => withMod (0x48E00000 + f.toWord) q
  | .e52f f q => withMod (0x48F00000 + f.toWord) q
  | .fcmp f q => withMod (0x4A000000 + f.toWord) q
  | .hadd2 f q => withMod (0x4C000000 + f.toWord) q
  | .hmul2 f q => withMod (0x4D000000 + f.toWord) q
  | .hfma2 f q => withMod (0x4E000000 + f.toWord) q
  | .bfma2 f q => withMod (0x50000000 + f.toWord) q
  | .dadd f q => withMod (0x52000000 + f.toWord) q
  | .dmul f q => withMod (0x53000000 + f.toWord) q
  | .dfma f q => withMod (0x54000000 + f.toWord) q
  | .d2f f q => withMod (0x56000000 + f.toWord) q
  | .f2d f q => withMod (0x56100000 + f.toWord) q
  | .d2i f q => withMod (0x56200000 + f.toWord) q
  | .i2d f q => withMod (0x56300000 + f.toWord) q
  | .dsubf f q => withMod (0x56400000 + f.toWord) q
  | .dmin f q => withMod (0x56500000 + f.toWord) q
  | .dmax f q => withMod (0x56600000 + f.toWord) q
  | .dcmp f q => withMod (0x56700000 + f.toWord) q
  | .rcp f q => withMod (0x58000000 + f.toWord) q
  | .rsq f q => withMod (0x58100000 + f.toWord) q
  | .sqrt f q => withMod (0x58200000 + f.toWord) q
  | .ex2 f q => withMod (0x58300000 + f.toWord) q
  | .lg2 f q => withMod (0x58400000 + f.toWord) q
  | .sin f q => withMod (0x58500000 + f.toWord) q
  | .cos f q => withMod (0x58600000 + f.toWord) q
  | .tanh f q => withMod (0x58700000 + f.toWord) q
  | .hmix f q => withMod (0x5A000000 + f.toWord) q
  | .ld f q => withMod (0x5C000000 + f.toWord) q
  | .st f q => withMod (0x5E000000 + f.toWord) q
  | .lds f q => withMod (0x60000000 + f.toWord) q
  | .sts f q => withMod (0x62000000 + f.toWord) q
  | .ldt f q => withMod (0x64000000 + f.toWord) q
  | .stt f q => withMod (0x66000000 + f.toWord) q
  | .atomAdd f q => withMod (0x68000000 + f.toWord) q
  | .atomMinS f q => withMod (0x68400000 + f.toWord) q
  | .atomMinU f q => withMod (0x68800000 + f.toWord) q
  | .atomMaxS f q => withMod (0x68C00000 + f.toWord) q
  | .atomMaxU f q => withMod (0x69000000 + f.toWord) q
  | .atomAnd f q => withMod (0x69400000 + f.toWord) q
  | .atomOr f q => withMod (0x69800000 + f.toWord) q
  | .atomXor f q => withMod (0x69C00000 + f.toWord) q
  | .exch f q => withMod (0x6A000000 + f.toWord) q
  | .cas f q => withMod (0x6A400000 + f.toWord) q
  | .atomRinc f q => withMod (0x6A800000 + f.toWord) q
  | .atomRdec f q => withMod (0x6AC00000 + f.toWord) q
  | .atomFadd f q => withMod (0x6B000000 + f.toWord) q
  | .fence f q => withMod (0x6C000000 + f.toWord) q
  | .fenceT f q => withMod (0x6C100000 + f.toWord) q
  | .bar f q => withMod (0x6C200000 + f.toWord) q
  | .barS f q => withMod (0x6C300000 + f.toWord) q
  | .pbinit f q => withMod (0x6C400000 + f.toWord) q
  | .pbarrive f q => withMod (0x6C500000 + f.toWord) q
  | .pbexpect f q => withMod (0x6C600000 + f.toWord) q
  | .pbwait f q => withMod (0x6C700000 + f.toWord) q
  | .pbtest f q => withMod (0x6C800000 + f.toWord) q
  | .waitc f q => withMod (0x6C900000 + f.toWord) q
  | .ldsc f q => withMod (0x6CA00000 + f.toWord) q
  | .stsc f q => withMod (0x6CB00000 + f.toWord) q
  | .atomscAdd f q => withMod (0x6CC00000 + f.toWord) q
  | .atomscCas f q => withMod (0x6CD00000 + f.toWord) q
  | .cflush f q => withMod (0x6CE00000 + f.toWord) q
  | .cinv f q => withMod (0x6CF00000 + f.toWord) q
  | .prefetch f q => withMod (0x6D000000 + f.toWord) q
  | .acqB f q => withMod (0x6E000000 + f.toWord) q
  | .acqT f q => withMod (0x6E100000 + f.toWord) q
  | .rel f q => withMod (0x6E200000 + f.toWord) q
  | .qput f q => withMod (0x6E300000 + f.toWord) q
  | .qget f q => withMod (0x6E400000 + f.toWord) q
  | .qfree f q => withMod (0x6E500000 + f.toWord) q
  | .tdef f q => withMod (0x6E600000 + f.toWord) q
  | .tstat f q => withMod (0x6E700000 + f.toWord) q
  | .kick f q => withMod (0x6E800000 + f.toWord) q
  | .bankjob f q => withMod (0x6E900000 + f.toWord) q
  | .suld f q => withMod (0x70000000 + f.toWord) q
  | .sust f q => withMod (0x70100000 + f.toWord) q
  | .tex f q => withMod (0x70200000 + f.toWord) q
  | .texl f q => withMod (0x70300000 + f.toWord) q
  | .texg f q => withMod (0x70400000 + f.toWord) q
  | .zexp f q => withMod (0x70500000 + f.toWord) q
  | .cexp f q => withMod (0x70600000 + f.toWord) q
  | .occ f q => withMod (0x70700000 + f.toWord) q
  | .salloc f q => withMod (0x70800000 + f.toWord) q
  | .sfree f q => withMod (0x70900000 + f.toWord) q
  | .mma f q => withMod (0x72000000 + f.toWord) q
  | .msca f q => withMod (0x72100000 + f.toWord) q
  | .mzero f q => withMod (0x72200000 + f.toWord) q
  | .mload f q => withMod (0x72300000 + f.toWord) q
  | .mdrain f q => withMod (0x72400000 + f.toWord) q
  | .mdrainAdd f q => withMod (0x72500000 + f.toWord) q
  | .mstat f q => withMod (0x72600000 + f.toWord) q
  | .emit f q => withMod (0x74000000 + f.toWord) q
  | .emitT f q => withMod (0x74100000 + f.toWord) q
  | .sysrd f q => withMod (0x76000000 + f.toWord) q
  | .syswr f q => withMod (0x76100000 + f.toWord) q
  | .ballot f q => withMod (0x7A000000 + f.toWord) q
  | .kgor f q => withMod (0x7A100000 + f.toWord) q
  | .kgand f q => withMod (0x7A200000 + f.toWord) q
  | .xferIdx f q => withMod (0x7A300000 + f.toWord) q
  | .xferRot f q => withMod (0x7A400000 + f.toWord) q
  | .xferSh f q => withMod (0x7A500000 + f.toWord) q
  | .xferFlip f q => withMod (0x7A600000 + f.toWord) q
  | .gredAdd f q => withMod (0x7A700000 + f.toWord) q
  | .gredMin f q => withMod (0x7A800000 + f.toWord) q
  | .gredMax f q => withMod (0x7A900000 + f.toWord) q
  | .gredFadd f q => withMod (0x7AA00000 + f.toWord) q
  | .gredFmax f q => withMod (0x7AB00000 + f.toWord) q
  | .gscanAdd f q => withMod (0x7AC00000 + f.toWord) q
  | .gpos f q => withMod (0x7AD00000 + f.toWord) q
  | .gsize f q => withMod (0x7AE00000 + f.toWord) q
  | .gfirst f q => withMod (0x7AF00000 + f.toWord) q
  | .pick f q => withMod (0x7B000000 + f.toWord) q
  | .endrun f => [0x7C000000 + f.toWord]
  | .fusedSoftmax => []
  | .runStart => []
  | .trailerRetire => []
  | .resultLanding _ _ => []
  | .loadPerformed _ _ _ => []
  | .gangFormation _ _ _ => []
  | .joinHoldEnd _ _ _ => []
  | .yieldEnd _ _ _ => []
  | .faultDomainStop _ => []
  | .collectiveReplay _ _ => []
  | .relCompletion _ => []
  | .holdingsReturn _ => []
  | .waitcRepoll _ => []
  | .l1AgeWriteback _ _ _ => []
  | .l1AgeInvalidate _ _ _ => []
  | .translationWalk _ _ _ => []
  | .pendingRewalk _ _ _ => []
  | .pendingTimeout _ _ _ => []
  | .copy _ _ _ => []
  | .gather _ _ _ => []
  | .fill _ _ _ => []
  | .decompress _ _ _ => []
  | .quantise _ _ _ => []
  | .tileFillComplete _ _ _ => []
  | .cardLock _ _ _ => []
  | .clear _ _ _ => []
  | .bcast _ _ _ => []
  | .mulrows _ _ _ => []
  | .readout _ _ _ => []
  | .cardEnd _ _ _ => []
  | .matrixWordCompletion _ _ => []
  | .currentStep _ _ => []
  | .issueUnitIdleRelease _ _ _ => []
  | .capChange _ _ _ _ => []
  | .rakeSpill _ _ _ => []
  | .rakeRefill _ _ _ => []
  | .surfaceDiscard _ _ => []
  | .raster _ _ _ => []
  | .drawRetire _ _ => []
  | .gate _ _ _ => []
  | .traverse _ _ _ => []
  | .classify _ _ _ => []
  | .net _ _ _ => []
  | .copyNode _ _ _ => []
  | .hostqModerationExpiry _ => []
  | .groupLaunch _ _ _ => []
  | .coalesceTimeout _ _ _ => []
  | .groupAdmission _ => []
  | .preemptionOnQuantum _ => []
  | .preemptionHalt _ => []
  | .imageSave _ => []
  | .preemptionTimeout _ => []
  | .groupRestore _ => []
  | .hostTailWrite _ _ _ _ _ => []
  | .bar2Access _ _ _ _ _ _ => []
  | .rootWrite _ _ => []
  | .bctlGo _ _ _ => []
  | .bctlUnbind _ => []
  | .tsplitw _ _ => []
  | .tsplitFlushComplete _ => []
  | .surftabWrite _ _ => []
  | .surfcntWrite _ _ => []
  | .ressizeWrite _ _ => []
  | .hsctlGo _ => []
  | .hostAllocationDone _ => []
  | .causeClear _ _ => []
  | .discard _ _ => []
  | .stop _ _ => []
  | .flr _ => []
  | .flrReady _ => []
  | .partitionDescriptorWrite _ _ _ _ => []
  | .shareUpdate _ => []
  | .partitionSwitch _ _ => []
  | .s2rootWrite _ _ => []
  | .inv2 _ _ => []
  | .invalPage _ _ => []
  | .invalAll _ => []
  | .resume _ _ => []
  | .fresStop _ _ => []
  | .attctlGo => []
  | .attestationReport => []
  | .pfcauseClear _ => []
  | .pfvferrClear _ => []
  | .registerWrite _ _ _ => []
  | .telemetrySnapshot => []
  | .powcapWrite _ => []
  | .refmaxWrite _ => []
  | .go => []
  | .firmwareStageDone => []
  | .raise => []
  | .revoke _ => []
  | .join _ => []
  | .domainLeave => []
  | .domainEntry _ => []
  | .etimeAligned => []
  | .remoteAccessTimeout _ _ _ => []
  | .viaGroupStateChange _ _ _ => []
  | .channelNarrow _ _ => []
  | .channelRetire _ _ _ => []
  | .moduleFault => []
  | .moduleReset => []
  | .boot => []
  | .powerRemoval => []
  | .reservedEncoding _ => []
  | .linkTraining _ _ _ => []

/-- The instruction the decoder reads from an opcode-table row's word, numbered as the table numbers bits: 32 bits,
the word after it in its packet zero. -/
def decodeTableWord (nbits w : Nat) : Option Instr :=
  match decodeBytes (bytesOfWord (w % 2 ^ nbits) ++ bytesOfWord 0) with
  | .ok (i, _) => some i
  | .error _ => none

end Sys2Proof
end

