-- ==== Sys2Proof/Machine/Special.lean ====
section
/-! DEFINITION. Special: the special functions (06 R133, R134). Outside the exact cases and special inputs the
architecture fixes a bound, not bits: the bits are the opaque `Config.specialBits`, taken as they are when they lie
within the bound of a fixed-point enclosure computed here, and replaced by the rounded true value when they do not
(log entry 7). -/

namespace Sys2Proof.Machine

/-- Fixed-point fraction bits of the enclosures. -/
def fxBits : Nat := 200

/-- 1.0 in fixed point. -/
def fxOne : Int := (2 ^ fxBits : Nat)

/-- ln 2 · 2^200, rounded down. -/
def ln2Fx : Int := 1113844574712631719546256151097547306333272293549090750737802

/-- π · 2^400, rounded down. -/
def piBig : Int :=
  8112377246730971238862271351300894519161151600179265203591191037615230905373990498745523360926816815427566779727327576236

/-- Fixed-point product. -/
def fxMul (a b : Int) : Int := (a * b).fdiv fxOne

/-- An exact value in fixed point, rounded down. -/
def fxOf (q : Q) : Int := (q.scale fxBits).floor

/-- A fixed-point number as an exact value. -/
def fxQ (a : Int) : Q := { n := a, e := -(fxBits : Int) }

/-- e^x for a small fixed-point x by its series, with `n` terms. -/
def expSeries (x : Int) : Nat → Nat → Int → Int
  | 0, _, _ => 0
  | n + 1, k, term => term + expSeries x n (k + 1) ((fxMul term x).fdiv ((k : Int) + 1))

/-- 2^t for a fixed-point t: a mantissa in [1, 2) and an exponent. -/
def exp2Fx (t : Int) : Q :=
  let n := t.fdiv fxOne
  let f := t - n * fxOne
  (fxQ (expSeries (fxMul f ln2Fx) 60 0 fxOne)).scale n

/-- atanh series: sum of z^(2k+1)/(2k+1). -/
def atanhSeries (z2 : Int) : Nat → Nat → Int → Int
  | 0, _, _ => 0
  | n + 1, k, p => p.fdiv (2 * (k : Int) + 1) + atanhSeries z2 n (k + 1) (fxMul p z2)

/-- log2 of a positive exact value. -/
def log2Fx (q : Q) : Int :=
  let e := q.log2
  let m := fxOf (q.scale (-e))
  let z := ((m - fxOne) * fxOne).fdiv (m + fxOne)
  let ln := 2 * atanhSeries (fxMul z z) 70 0 z
  (ln * fxOne).fdiv ln2Fx + e * fxOne

/-- The alternating series of sine (from `k` = 1) or cosine (from `k` = 0). -/
def trigSeries (x2 : Int) : Nat → Nat → Int → Int
  | 0, _, _ => 0
  | n + 1, k, term => term + trigSeries x2 n (k + 2) (-(fxMul term x2).fdiv (((k : Int) + 1) * ((k : Int) + 2)))

/-- sin of an exact value after exact reduction against π, in fixed point; `quarter` adds quarter turns. -/
def sinFx (q : Q) (quarter : Int) : Int :=
  let half := piBig                                 -- π/2 · 2^401
  let x := (q.scale 401).floor
  let k := (2 * x + half).fdiv (2 * half)
  let r := (x - k * half).fdiv (2 ^ 201 : Nat)      -- in [-π/4, π/4], fixed point
  let r2 := fxMul r r
  let s := trigSeries r2 40 1 r
  let c := trigSeries r2 40 0 fxOne
  match (k + quarter) % 4 with
  | 0 => s
  | 1 => c
  | 2 => -s
  | _ => -c

/-- tanh of an exact value, |x| < 9. -/
def tanhFx (q : Q) : Int :=
  let t := ((fxOf q) * 2 * fxOne).fdiv ln2Fx
  let e := exp2Fx t
  let r := (e.sub (Q.ofInt 1)).div (e.add (Q.ofInt 1))
  fxOf r

/-- Integer square root of n · 4^k, for 1/√x: floor(2^s / √v). -/
def rsqQ (q : Q) : Q :=
  let (n, d) := q.ratio 0
  let inner := d * 2 ^ 1400 / n
  { n := (Nat.sqrt inner : Int), e := -700 }

/-- √v, as an exact value when it is one, else with enough bits that rounding is right: the root and whether it is
exact. -/
def sqrtQ (q : Q) : Q × Bool :=
  let (n, d) := q.ratio 700
  let inner := n * 2 ^ 700 / d
  let r := Nat.sqrt inner
  ({ n := (if r * r = inner then 2 * (r : Int) else 2 * (r : Int) + 1), e := -701 }, r * r == inner)

/-- One unit in the last place of binary32 at a value. -/
def ulp32 (q : Q) : Q := Q.two (max q.log2 fmt32.emin - 23)

/-- The bits of a special function within a bound of its true value (R133). -/
def boundedBits (fn : Nat) (p : Word) (approx : Q) (bound : Q) : Word :=
  let cand := Config.specialBits fn p
  let slack := bound.add (Q.two (approx.log2 - 90))
  match fmt32.val cand.toNat with
  | .fin _ v => if (v.sub approx).abs.le slack then cand else f32Of approx
  | _ => f32Of approx

/-- A special function's pattern before SCALE, and the flags (Table 06.7, R134). The result of an exact or special
case is exact; another is within the bound and raises NX. -/
def specialFn (fn : Nat) (p : Word) : Rnd :=
  let canon : Rnd := { bits := fmt32.nan }
  let invalid : Rnd := { bits := fmt32.nan, fl := flNV }
  match fmt32.val p.toNat with
  | .nan s => if s then invalid else canon
  | .inf neg =>
    match fn with
    | 0 => { bits := fmt32.zero neg }
    | 1 => if neg then invalid else { bits := 0 }
    | 2 => if neg then invalid else { bits := fmt32.inf false }
    | 3 => if neg then { bits := 0 } else { bits := fmt32.inf false }
    | 4 => if neg then invalid else { bits := fmt32.inf false }
    | 5 => invalid
    | 6 => invalid
    | _ => { bits := fmt32.one neg }
  | .fin neg x =>
    let pow2 := x.abs.eq (Q.two x.log2)
    let inexactOf (v : Q) (b : Q) : Rnd :=
      let w := boundedBits fn p v b
      { bits := w.toNat
        fl := flNX ||| (if bitsOf w.toNat 23 8 = 0 then flUF else 0) }
    match fn with
    | 0 =>
      if x.n = 0 then { bits := fmt32.inf neg, fl := flDZ }
      else if x.abs.le (Q.two (-128)) then { bits := fmt32.inf neg, fl := flOF ||| flNX }
      else if (Q.two 126).lt x.abs then { bits := fmt32.zero neg, fl := flUF ||| flNX }
      else
        let v := (Q.ofInt 1).div x
        if pow2 then { bits := (f32Of v).toNat } else { bits := (boundedBits 0 p v (ulp32 v)).toNat, fl := flNX }
    | 1 =>
      if x.n = 0 then { bits := fmt32.inf neg, fl := flDZ }
      else if neg then invalid
      else if pow2 && x.log2 % 2 == 0 then { bits := (f32Of (Q.two (-x.log2 / 2))).toNat }
      else { bits := (boundedBits 1 p (rsqQ x) (ulp32 (rsqQ x))).toNat, fl := flNX }
    | 2 =>
      if x.n = 0 then { bits := p.toNat }
      else if neg then invalid
      else roundTo fmt32 .ne false (sqrtQ x).1
    | 3 =>
      if x.n = 0 then { bits := fmt32.one false }
      else if (Q.ofInt 128).le x then { bits := fmt32.inf false, fl := flOF ||| flNX }
      else if x.lt (Q.ofInt (-150)) then { bits := 0, fl := flUF ||| flNX }
      else if (Q.ofInt x.floor).eq x && (Q.ofInt (-149)).le x then { bits := (f32Of (Q.two x.floor)).toNat }
      else
        let v := exp2Fx (fxOf x)
        inexactOf v (if v.lt (Q.two (-126)) then Q.two (-149) else (ulp32 v).scale 1)
    | 4 =>
      if x.n = 0 then { bits := fmt32.inf true, fl := flDZ }
      else if neg then invalid
      else if pow2 then { bits := (f32Of (Q.ofInt x.log2)).toNat }
      else
        let v := fxQ (log2Fx x)
        if (Q.two (-1)).le x && x.lt (Q.ofInt 2) then inexactOf v (Q.two (-22)) else inexactOf v ((ulp32 v).scale 1)
    | 5 =>
      if x.n = 0 then { bits := p.toNat }
      else if x.abs.lt (Q.two (-12)) then { bits := p.toNat, fl := flNX ||| (if x.log2 < -126 then flUF else 0) }
      else inexactOf (fxQ (sinFx x 0)) (Q.two (-22))
    | 6 =>
      if x.n = 0 then { bits := fmt32.one false } else inexactOf (fxQ (sinFx x 1)) (Q.two (-22))
    | _ =>
      if x.n = 0 then { bits := p.toNat }
      else if x.abs.lt (Q.two (-12)) then { bits := p.toNat, fl := flNX ||| (if x.log2 < -126 then flUF else 0) }
      else if (Q.ofInt 9).le x.abs then { bits := fmt32.one neg, fl := flNX }
      else
        let v := fxQ (tanhFx x)
        inexactOf v ((ulp32 v).scale 1)

end Sys2Proof.Machine
end

