-- ==== Sys2Proof/Machine/Ops.lean ====
section
/-! DEFINITION. Ops: the shared operations of the machine: interrupts (17 R321, R322), landing of fixed-latency writes
(03 R76, R77), taking a trap and returning from one (10 R242, R243, 01 R30), leaving a gang, speculation, the group
barrier (07 R162 to R165, 10 R234 to R238), performing stores, remote queues and phase barriers. -/

namespace Sys2Proof.Machine

/-! ### Interrupts -/

/-- The MSI-X vector of each CAUSE bit (Table 17.5). -/
def causeVector (b : Nat) : Nat :=
  match b with
  | 0 => 0 | 1 => 1 | 2 => 2 | 3 => 2 | 4 => 3 | 5 => 4 | 6 => 0 | 7 => 5 | 8 => 5 | _ => 6

/-- The MSI-X vector of each PFCAUSE bit (Table 17.7). -/
def pfVector (b : Nat) : Nat :=
  match b with
  | 0 => 0 | 1 => 1 | 2 => 2 | 3 => 3 | 4 => 3 | 5 => 4 | _ => 0

/-- A source sets a PFCAUSE bit; an unmasked bit sends its vector once per transition (R322). -/
def Mach.raisePf (m : Mach) (b : Nat) : Mach :=
  if m.pf.cause.getLsbD b then m
  else
    let pf := { m.pf with cause := m.pf.cause ||| BitVec.ofNat 7 (2 ^ b) }
    { m with pf := if pf.cmask.getLsbD b then pf else { pf with sent := (0, pfVector b) :: pf.sent } }

/-- A source sets a CAUSE bit (R321). A vector-0 cause of a function without MSI-X also sets VFIDLE and PFVFERR
(R322). The interrupts of a time-shared partition that is not loaded are kept (R314). -/
def Mach.raise (m : Mach) (v b : Nat) : Mach :=
  let r := m.vf v
  if r.away then m.onVf v fun r => { r with kept := r.kept ++ [b] }
  else if r.cause.getLsbD b then m
  else
    let m := m.onVf v fun r => { r with cause := r.cause ||| BitVec.ofNat 10 (2 ^ b) }
    if r.cmask.getLsbD b then m
    else if r.msix then { m with pf := { m.pf with sent := (v, causeVector b) :: m.pf.sent } }
    else if causeVector b = 0 then
      ({ m with pf := { m.pf with vferr := m.pf.vferr ||| BitVec.ofNat 64 (2 ^ v) } }).raisePf 6
    else m


/-! ### Causes -/

/-- Cause codes (Table 10.8). -/
def Cause.code : Cause → Nat
  | .illegal => 0x01 | .illchain => 0x02 | .latch => 0x03 | .emptyread => 0x04 | .regrange => 0x05
  | .idxrange => 0x06 | .claimx => 0x07 | .align => 0x08 | .space => 0x09 | .xlate => 0x0A | .surf => 0x0B
  | .ampover => 0x0C | .fpx => 0x0D | .swtrap => 0x0E | .bkpt => 0x0F | .dataloss => 0x10 | .qfull => 0x11
  | .opform => 0x12 | .runform => 0x13

/-- Causes that are always fatal (Table 10.8). -/
def Cause.fatal : Cause → Bool
  | .space => true
  | .xlate => true
  | .dataloss => true
  | _ => false

/-- The latch entry of a lane. -/
def Latch.entry (l : Latch) (e : Nat) : Option LatchEnt :=
  match e with
  | 0 => l.l0
  | 1 => l.l1
  | _ => l.l2

/-! ### Fixed-latency writes -/

/-- The bits of `new` under `mask` over `old`. -/
def mergeMask (old new mask : Word) : Word := (old &&& ~~~mask) ||| (new &&& mask)

/-- Land one write in a context. k0 takes none (R17). -/
def Ctx.apply (c : Ctx) (w : PWrite) : Ctx :=
  match w.tgt with
  | .lane n => { c with v := SMap.set 0 c.v n (mergeMask (SMap.get 0 c.v n) w.val w.mask) }
  | .tmp n => { c with t := SMap.set 0 c.t n (mergeMask (SMap.get 0 c.t n) w.val w.mask) }
  | .idx n => { c with x := SMap.set 0 c.x n (mergeMask (SMap.get 0 c.x n) w.val w.mask) }
  | .pred n =>
    if n = 0 then c
    else
      let bit : BitVec 64 := BitVec.ofNat 64 (2 ^ n)
      { c with k := if w.val.getLsbD 0 then c.k ||| bit else c.k &&& ~~~bit }
  | .xwin => { c with winBase := w.val.setWidth 8, winLimit := (w.val >>> 8).setWidth 8 }
  | .uni _ => c

/-- Land every write that is due by a cycle, in order. -/
def Ctx.landBy (c : Ctx) (now : Nat) : Ctx :=
  let due := c.pend.filter fun w => decide (w.due ≤ now)
  let rest := c.pend.filter fun w => !decide (w.due ≤ now)
  due.foldl Ctx.apply { c with pend := rest }

/-- Land every write in flight. -/
def Ctx.landAll (c : Ctx) : Ctx := c.pend.foldl Ctx.apply { c with pend := [] }

/-- What a read in a cycle sees: the context with the writes due by then landed (R77). -/
def Ctx.view (c : Ctx) (now : Nat) : Ctx := c.pend.foldl (fun c w => if w.due ≤ now then c.apply w else c) c

/-- Writes of values under masks, in order. -/
def Ctx.settle (c : Ctx) (ws : List (Tgt × Word × Word)) : Ctx :=
  ws.foldl (fun c w => c.apply { tgt := w.1, mask := w.2.1, val := w.2.2, due := 0 }) c

/-- Land the writes in flight to some targets, so that what is written there next is the younger (R76). -/
def Ctx.landTo (c : Ctx) (p : Tgt → Bool) : Ctx :=
  (c.pend.filter fun w => p w.tgt).foldl Ctx.apply { c with pend := c.pend.filter fun w => !p w.tgt }

/-- The bits of registers in a full-bit mask. -/
def regMask (rs : List Nat) : BitVec 256 := rs.foldl (fun b r => b ||| BitVec.ofNat 256 (2 ^ r)) 0

/-- A value written to destinations, which become full (R12). -/
def Ctx.fill (c : Ctx) (rs : List Nat) (v : Nat) : Ctx :=
  { c with
    v := ((List.range rs.length).zip rs).foldl (fun m x => SMap.set 0 m x.2 (BitVec.ofNat 32 (v / 2 ^ (32 * x.1)))) c.v
    notFull := c.notFull &&& ~~~regMask rs }

/-- A value written to destinations of a thread. That of a word issued before the thread's checkpoint, one that is not `spec`, is written there too: a
rollback does not undo it (R234, R236). -/
def Thread.fillDsts (t : Thread) (rs : List Nat) (v : Nat) (spec : Bool) : Thread :=
  { t with c := t.c.fill rs v, epi := if spec then t.epi else t.epi.map fun e => { e with ckpt := e.ckpt.fill rs v } }

/-- A target is one of some lane registers. -/
def Tgt.isLane (t : Tgt) (rs : List Nat) : Bool :=
  match t with
  | .lane n => rs.contains n
  | _ => false

/-- Append a write; it lands after every older write to its target (R76). -/
def pushWrite (ws : List PWrite) (w : PWrite) : List PWrite :=
  let due := ws.foldl (fun d x => if x.tgt = w.tgt then max d x.due else d) w.due
  ws ++ [{ w with due := due }]

/-- Predicate `n`; k0 reads 1 (R17). -/
def Ctx.pred (c : Ctx) (n : Nat) : Bool := n == 0 || c.k.getLsbD n

/-- Land a uniform write in a group. -/
def Group.applyUni (g : Group) (w : PWrite) : Group :=
  match w.tgt with
  | .uni n => { g with s := SMap.set 0 g.s n w.val }
  | _ => g

/-- Uniform registers as a read in a cycle sees them (R99). -/
def Group.uniView (g : Group) (now : Nat) (n : Nat) : Word :=
  SMap.get 0 (g.spend.foldl (fun g w => if w.due ≤ now then g.applyUni w else g) g).s n

/-- Land the uniform writes due by a cycle. -/
def Group.landUni (g : Group) (now : Nat) : Group :=
  let due := g.spend.filter fun w => decide (w.due ≤ now)
  let rest := g.spend.filter fun w => !decide (w.due ≤ now)
  due.foldl Group.applyUni { g with spend := rest }

/-- The divergence rule of R19 on a uniform write; `loc` is the code location. -/
def Group.noteUni (g : Group) (n : Nat) (v : Word) (loc : Nat) : Group :=
  { g with
    epoch := { reg := n, val := v, loc := loc } :: g.epoch.filter fun u => u.reg != n
    udiv := g.udiv || g.epoch.any fun u => u.reg == n && u.val != v && u.loc != loc }

/-- A uniform write in flight (R99). Of two gangs' racing writes R19 leaves open which stays; in the model the write that issued later
lands later and stays, and the gangs' order is free (DESIGN CHOICE, log entry 42). -/
def Group.writeUni (g : Group) (n : Nat) (v : Word) (loc due : Nat) : Group :=
  { g.noteUni n v loc with spend := pushWrite g.spend { tgt := .uni n, mask := 0xFFFFFFFF#32, val := v, due := due } }

/-- The uniform write of a blocking word, written by its completion (R92), after every older write of the register. -/
def Group.writeUniNow (g : Group) (n : Nat) (v : Word) (loc : Nat) : Group :=
  { g.noteUni n v loc with s := SMap.set 0 g.s n v, spend := g.spend.filter fun w => w.tgt != .uni n }

/-! ### Resources -/

/-- The amount of a kind (R176: 0 REG, 1 SCR, 2 MSL, 3 SPC). -/
def Res.kind (r : Res) (k : Nat) : Nat :=
  match k with
  | 0 => r.reg | 1 => r.scr | 2 => r.msl | _ => r.spc

/-- Add to a kind. -/
def Res.addKind (r : Res) (k n : Nat) : Res :=
  match k with
  | 0 => { r with reg := r.reg + n } | 1 => { r with scr := r.scr + n }
  | 2 => { r with msl := r.msl + n } | _ => { r with spc := r.spc + n }

/-- Take from a kind. -/
def Res.subKind (r : Res) (k n : Nat) : Res :=
  match k with
  | 0 => { r with reg := r.reg - n } | 1 => { r with scr := r.scr - n }
  | 2 => { r with msl := r.msl - n } | _ => { r with spc := r.spc - n }

/-- The word of HOLD or CLAIM (Table 01.9). -/
def Res.word (r : Res) : Word := BitVec.ofNat 32 (r.spc * 2 ^ 24 + r.msl * 2 ^ 16 + r.scr * 2 ^ 8 + r.reg)

/-- HOLD or CLAIM from its word. -/
def Res.ofWord (w : Nat) : Res :=
  { reg := bitsOf w 0 8, scr := bitsOf w 8 8, msl := bitsOf w 16 8, spc := bitsOf w 24 8 }

/-- The acquired count of the group's threads (R10). -/
def Group.acquired (g : Group) : Nat := 8 * min g.hold.reg 32

/-! ### Gangs and lanes -/

/-- A lane leaves its gang: the thread keeps the run state to go on at `slot` of the run at `pc`. -/
def Mach.leaveGang (m : Mach) (gang : Gang) (tid slot : Nat) (w : Wait) : Mach :=
  let m := m.onThread gang.gid tid fun t =>
    { t with c := { t.c with pc := gang.pc, slot := slot, mid := true }, wait := w }
  m.onGang gang.id fun g => { g with lanes := g.lanes.filter fun l => l != tid }

/-- A lane that waits for a collective run's trap (R142): its writes in flight land, and no control word of the run has been taken in it. -/
def Thread.holdCollective (t : Thread) : Thread := { t with c := t.c.landAll, taken := none, keep := false, yieldNext := false }

/-- Drop a gang no lane is left in. -/
def Mach.reapGang (m : Mach) (id : Nat) : Mach :=
  match m.gang? id with
  | some g => if g.lanes.isEmpty then m.dropGang id else m
  | none => m

/-! ### Traps -/


/-- An uncorrectable error reported to a fault domain (R339), and counted in its column (Table 19.2). -/
def Mach.reportLoss (m : Mach) (col vf root : Nat) : Mach := (m.count col 11).queueStop vf root Cause.dataloss.code

/-- A report of DATALOSS counts in the column where it is made (Table 19.2). -/
def Mach.countLoss (m : Mach) (col : Nat) (cause : Cause) : Mach := if cause = .dataloss then m.count col 11 else m

/-- The core's own write of the trap registers and the redirection to the handler (R28, R242): the run state goes to
the trap frame, HND is set, and the lane continues at HENTRY, at a run start. -/
def Thread.enter (t : Thread) (e : Env) (cause : Cause) (arg : Nat) (pc slot : Nat) (cr : Bool) : Thread :=
  let c := t.c.landAll
  { t with
    tcause := BitVec.ofNat 8 cause.code
    trappc := BitVec.ofNat 32 pc
    entryPc := BitVec.ofNat 32 pc
    tslot := slot
    entrySlot := slot
    traparg := BitVec.ofNat 64 arg
    hnd := true
    cr := cr
    frame := { t := c.t, latch := c.latch, slot := slot }
    c := { c with pc := e.hentry, slot := 0, mid := false, t := [], latch := {} }
    taken := none
    keep := false
    await := 0
    wait := .run }

/-- The trap registers of a lane whose trap is fatal: cause, place and detail stand in them for the dump (R29, R36). R28 names the write for a handled trap;
that a fatal one writes them too follows from the causes of Table 01.8 that are always fatal (DEDUCED, log entry 47). -/
def Thread.noteTrap (t : Thread) (cause : Cause) (arg pc slot : Nat) : Thread :=
  { t with tcause := BitVec.ofNat 8 cause.code, trappc := BitVec.ofNat 32 pc, tslot := slot, traparg := BitVec.ofNat 64 arg }

/-- A trap of one lane (R242, R243): fatal when its cause is, when the region has no handler, or inside the handler;
else the lane enters the handler. The lane leaves its gang. -/
def Mach.trapLane (m : Mach) (gang : Gang) (tid slot : Nat) (cause : Cause) (arg : Nat) : Mach :=
  match m.group? gang.gid with
  | none => m
  | some g =>
    match g.thread? tid with
    | none => m
    | some t =>
      let m := m.onGang gang.id fun k => { k with lanes := k.lanes.filter fun l => l != tid }
      if cause.fatal || g.env.hbase == 0 || t.hnd then
        let m := m.onThread gang.gid tid fun t =>
          { t.noteTrap cause arg gang.pc slot with wait := .hold, c := { t.c with pc := gang.pc, slot := slot, mid := true } }
        (m.countLoss g.column cause).queueStop g.env.vf g.env.fdroot cause.code
      else m.onThread gang.gid tid fun t => t.enter g.env cause arg gang.pc slot gang.cr

/-- The fault of a queued access, which no gang carries any more: fatal traps only reach here (XLATE, DATALOSS), and stop the fault domain. XLATE names the
address (Table 01.8). -/
def Mach.fatalAcc (m : Mach) (a : Acc) (cause : Cause) : Mach :=
  match m.group? a.gid with
  | none => m
  | some g =>
    let m := m.onThread a.gid a.tid fun t => { t.noteTrap cause (if cause = .xlate then a.addr else 0) a.pc a.slot with wait := .hold }
    (m.countLoss g.column cause).queueStop g.env.vf g.env.fdroot cause.code

/-- How `trapret` ends (R30). -/
inductive RetCase where
  | runform
  | replay
  | resume (slot : Nat)
  | fresh
  deriving DecidableEq, Repr

/-- The first case of R30 that fits. -/
def Thread.retCase (t : Thread) : RetCase :=
  let pcSame := t.trappc == t.entryPc
  if 23 < t.tslot then .runform
  else if pcSame && t.cr then .replay
  else if pcSame && t.tslot == t.entrySlot then .resume t.entrySlot
  else if pcSame && decide (t.entrySlot < t.tslot) then .resume t.tslot
  else if !pcSame && t.tslot == 0 then .fresh
  else .runform

/-- The return from a trap of one lane (R30): HND is cleared and the run state restored or discarded. A lane whose
collective run is to be replayed waits with the lanes that hold (R142). -/
def Thread.leave (t : Thread) : Thread :=
  let c := t.c.landAll
  match t.retCase with
  | .runform => t
  | .replay => { t with hnd := false, wait := .hold, taken := some t.trappc.toNat, keep := true
                        c := { c with pc := t.trappc.toNat, slot := 0, mid := false, t := [], latch := {} } }
  | .resume s => { t with hnd := false, wait := .run, taken := some t.trappc.toNat, keep := true
                          c := { c with pc := t.trappc.toNat, slot := s, mid := true, t := t.frame.t, latch := t.frame.latch } }
  | .fresh => { t with hnd := false, wait := .run, taken := some t.trappc.toNat, keep := true
                       c := { c with pc := t.trappc.toNat, slot := 0, mid := false, t := [], latch := {} } }

/-! ### Stores -/

/-- Bits of the read filter a store's bytes select (R235): the sectors of `size` bytes at an address of a path. -/
def filterBit (p : Path) (tow addr : Nat) : Nat :=
  let q := addr / 64
  let h := match p with
    | .glob => hmixHash (BitVec.ofNat 32 q) (BitVec.ofNat 32 (q / 2 ^ 32))
    | .scr => hmixHash (BitVec.ofNat 32 q) (BitVec.ofNat 32 (2 ^ 28))
    | .tow => hmixHash (BitVec.ofNat 32 q) (BitVec.ofNat 32 (2 * 2 ^ 28 + tow * 2 ^ 16))
    | .surf => 0
  h.toNat % 4096

/-- The filter bits of an access. -/
def filterMask (p : Path) (tow addr size : Nat) : BitVec 4096 :=
  BitVec.ofNat 4096 (2 ^ filterBit p tow addr ||| 2 ^ filterBit p tow (addr + size - 1))

/-- Roll back one thread of an episode (R236): registers, full bits and run state from the checkpoint, buffered
stores discarded, the thread waits at the barrier. -/
def Thread.rollback (t : Thread) (e : Episode) : Thread :=
  { t with c := e.ckpt, hnd := e.hnd, epi := none, wait := .barrier e.round, taken := none, keep := false, yieldNext := false
           await := 0, joinAt := none, yieldAt := none }

/-- Roll back every thread of the group that is in an episode and meets a test; each adds 1 to SPECROLLBACK, and the
filter is cleared (R235, R236). Their queued accesses are dropped and they leave their gangs. -/
def Mach.rollbackIf (m : Mach) (gid : Nat) (test : Episode → Bool) : Mach :=
  match m.group? gid with
  | none => m
  | some g =>
    let hit := g.threads.filter fun t => match t.epi with | some e => test e | none => false
    if hit.isEmpty then m
    else
      let ids := hit.map (·.tid)
      let m := m.onGroup gid fun g =>
        { g with
          threads := g.threads.map fun t => match t.epi with | some e => if test e then t.rollback e else t | none => t
          rollbacks := g.rollbacks + BitVec.ofNat 32 hit.length
          filter := 0 }
      let m := m.onCore g.column g.core fun c =>
        { c with accs := c.accs.filter fun a => !(a.gid == gid && a.spec && ids.contains a.tid) }
      let m := { m with gangs := m.gangs.map fun (k : Gang) =>
        if k.gid == gid then { k with lanes := k.lanes.filter fun l => !ids.contains l } else k }
      { m with gangs := m.gangs.filter fun (k : Gang) => !(k.gid == gid && k.lanes.isEmpty) }

/-- A store or atomic of a thread that has not arrived tests the read filter (R235, R236). -/
def Mach.testFilter (m : Mach) (gid : Nat) (p : Path) (tow addr size : Nat) : Mach :=
  match m.group? gid with
  | none => m
  | some g => if g.filter &&& filterMask p tow addr size = 0 then m else m.rollbackIf gid fun e => e.loaded

/-- Perform a scratchpad store (R149). -/
def Mach.doScr (m : Mach) (gid off size val : Nat) : Mach := m.winWrite gid off size val

/-- Perform a relaxed global store in the L1, or at its home for a release at cluster scope or wider (Table 11.1). -/
def Mach.doGlob (m : Mach) (col c pa size val : Nat) (home : Bool) : Mach :=
  if home then
    let m := m.l1Drop col c (pa / 64)
    m.store pa size val
  else (m.l1Room col c pa).l1Write col c pa size val

/-- A buffered store that the barrier's completion performs (R165): a relaxed store. -/
def BufStore.acc (b : BufStore) (gid tid : Nat) : Acc :=
  { gid := gid, tid := tid, pc := b.pc, slot := b.slot, op := .store b.size b.val, path := b.path, tow := b.tow, addr := b.addr, size := b.size
    commit := true }

/-- Put the `i`-th buffered store of a thread into a queue where it stands in program order: before the loads that the thread issued after it. -/
def putStore (i : Nat) (a : Acc) : List Acc → List Acc
  | [] => [a]
  | x :: xs => if x.gid = a.gid ∧ x.tid = a.tid ∧ x.spec ∧ i < x.nbuf then a :: x :: xs else x :: putStore i a xs

/-- The buffered stores of a thread's episode enter the queue of its core, in program order (R165). -/
def Thread.commitInto (gid : Nat) (l : List Acc) (t : Thread) : List Acc :=
  match t.epi with
  | some e => ((List.range e.bufs.length).zip e.bufs).foldl (fun l x => putStore x.1 (x.2.acc gid t.tid) l) l
  | none => l

/-! ### The group barrier -/

/-- Every thread that has not exited has arrived in this round (R162, R119). -/
def Group.barrierFull (g : Group) : Bool := g.threads.all fun t => t.exited || t.bar == some g.round

/-- Completion (R162, R238): a new round and a new uniform epoch, the filter cleared; every speculating or stopped thread adds 1 to SPECCOMMIT, and
waiting threads go on. -/
def Group.complete (g : Group) : Group :=
  { g with
    round := g.round + 1
    closing := false
    epoch := []
    filter := 0
    commits := g.commits + BitVec.ofNat 32 (g.threads.filter fun t => t.epi.isSome).length
    threads := g.threads.map fun t =>
      if t.epi.isSome || t.wait == .barrier g.round then
        { t with epi := none, bar := none, wait := if t.wait == .barrier g.round then .run else t.wait }
      else t }

/-- Some buffered store of a group is still to be performed. -/
def Core.commits (c : Core) (gid : Nat) : Bool := c.accs.any fun a => a.gid == gid && a.commit

/-- The last thread has arrived: the buffered stores of the group's episodes enter the core's queue, each in its place in its thread's program order, and no
access is speculative any more (R165). -/
def Mach.closeBarrier (m : Mach) (g : Group) : Mach :=
  (m.onCore g.column g.core fun c =>
    { c with accs := (g.threads.foldl (Thread.commitInto g.gid) c.accs).map fun a => if a.gid == g.gid then { a with spec := false } else a }).onGroup
    g.gid fun x => { x with closing := true }

/-- The barrier completes once the buffered stores are performed (R165, R263). -/
def Mach.settleBarrier (m : Mach) (gid : Nat) : Mach :=
  match m.group? gid with
  | some g => if g.closing && !(m.core g.column g.core).commits gid then m.onGroup gid Group.complete else m
  | none => m

/-- The barrier's last thread has arrived or exited: its completion begins, and ends at once where no store is buffered. -/
def Mach.checkBarrier (m : Mach) (gid : Nat) : Mach :=
  match m.group? gid with
  | some g =>
    if g.barrierFull && !g.closing && g.threads.any (fun t => t.bar == some g.round) then (m.closeBarrier g).settleBarrier gid else m
  | none => m

/-- A thread stops speculating (R164): it keeps its episode and waits as at the barrier, before the word at `slot`. One
that stops at the first word after `bar.s` has started no episode (R34). -/
def Mach.stopSpec (m : Mach) (gang : Gang) (tid slot : Nat) (e : Episode) : Mach :=
  let m := m.leaveGang gang tid slot (.barrier e.round)
  m.onThread gang.gid tid fun t =>
    { t with epi := if e.ckpt.pc = gang.pc ∧ e.ckpt.slot = slot then none else some { e with stopped := true } }

/-- The group has issued an engine word: the next has another number (R177). -/
def Mach.nextSeq (m : Mach) (gid : Nat) : Mach := m.onGroup gid fun g => { g with seq := g.seq + 1 }

/-! ### Phase barriers -/

/-- PEND, EXPECT, BAL, PH of the object at a window offset (Table 07.8). -/
structure PhaseObj where
  pend : Nat
  expect : Nat
  bal : Int
  ph : Nat
  deriving DecidableEq, Repr

/-- Read an object. -/
def Mach.phaseObj (m : Mach) (gid off : Nat) : PhaseObj :=
  { pend := m.win32 gid off, expect := m.win32 gid (off + 4), bal := sext (m.win32 gid (off + 8)) 32
    ph := m.win32 gid (off + 12) % 2 }

/-- Write an object; the reserved bits read 0. -/
def Mach.putPhase (m : Mach) (gid off : Nat) (o : PhaseObj) : Mach :=
  (((m.setWin32 gid off o.pend).setWin32 gid (off + 4) o.expect).setWin32 gid (off + 8) (bitsI o.bal 32)).setWin32 gid (off + 12) o.ph

/-- A phase ends when PEND and BAL are both 0: the parity flips and PEND reloads (R166). -/
def PhaseObj.settle (o : PhaseObj) : PhaseObj :=
  if o.pend = 0 ∧ o.bal = 0 then { o with ph := 1 - o.ph, pend := o.expect } else o

/-- `pbarrive` of b on an object (R167), before the test for the end of the phase; none where it traps OPFORM. -/
def PhaseObj.arrive (o : PhaseObj) (b : Nat) : Option PhaseObj :=
  if b = 0 ∨ o.pend < b then none else some { o with pend := o.pend - b }

/-- Write an object after an update that may end its phase; a phase that begins has counted no byte with a global
destination yet (R166, R257). -/
def Mach.settlePhase (m : Mach) (gid off : Nat) (o : PhaseObj) : Mach :=
  let o' := o.settle
  let m := m.putPhase gid off o'
  if o'.ph = o.ph then m
  else m.onGroup gid fun g => { g with globCount := g.globCount.filter fun x => !(x.1 == off && x.2 == o'.ph) }

/-- A group whose holdings lie on a core. -/
def Group.onCore (g : Group) : Bool :=
  match g.stage with
  | .queued => false
  | .saved => false
  | .done => false
  | _ => true

/-- The data banks a job card command names (Table 08.4): with MC the four strata banks of the via group. -/
def CardCmd.banks (x : CardCmd) : List Nat := if x.mc then (List.range 4).map fun s => 8 * s + x.bank % 8 else [x.bank]

/-- A running card of the column holds the lock of a data bank (R190, R260). -/
def Mach.bankLocked (m : Mach) (col tower bank : Nat) : Bool :=
  m.cores.any fun e => e.1 / 48 == col && e.2.cards.any fun k => k.locked &&
    k.cmds.any fun x => x.cmd != 0 && x.tower == tower && x.banks.contains bank

/-- The data banks that bytes [off, off + n) of a tower portion lie in (R147, R154). -/
def banksOf (off n : Nat) : List Nat := (List.range ((off + n - 1) / 4 - off / 4 + 1)).map fun i => (off / 4 + i) % 32

/-- Some bank of the bytes is locked. -/
def Mach.lockedAt (m : Mach) (col tower off n : Nat) : Bool := (banksOf off n).any fun b => m.bankLocked col tower b

/-- Some bank of the bytes cannot be served (R354). -/
def Mach.lostAt (m : Mach) (col tower off n : Nat) : Bool := (banksOf off n).any fun b => m.bankLost col tower b

/-- Count the rebuilds an access takes: counter 1 for each performed, counter 2 for each failed (Table 19.2, R353). -/
def Mach.rebuilds (m : Mach) (col tower off n : Nat) : Mach :=
  (banksOf off n).foldl (fun m b =>
    if m.via col tower (b % 8) == 2 then m.count col (if m.bankLost col tower b then 2 else 1) else m) m

/-- The bytes of a group's window lie in a locked bank: an access to them waits (R260). -/
def Mach.winLocked (m : Mach) (gid off n : Nat) : Bool :=
  (m.group? gid).any fun g => g.onCore && m.lockedAt g.column g.core off n

/-- The bytes of a group's window lie in a bank that cannot be served (R354). -/
def Mach.winLost (m : Mach) (gid off n : Nat) : Bool := (m.group? gid).any fun g => g.onCore && m.lostAt g.column g.core off n

/-- The object of an engine completion lies in a locked bank: the completion waits (R260). -/
def Mach.objLocked (m : Mach) (gid : Nat) (obj : Option Nat) : Bool := obj.any fun off => m.winLocked gid off 16

/-- An engine meets a bank of a group's window that cannot be served (R339, R354). -/
def Mach.winReport (m : Mach) (gid : Nat) : Mach :=
  match m.group? gid with
  | some g => m.reportLoss g.column g.env.vf g.env.fdroot
  | none => m

/-- A phase of an object has counted what its waiters acquire with an L1 invalidation (R167, R257). -/
def Mach.noteGlob (m : Mach) (gid off : Nat) : Mach :=
  m.onGroup gid fun g => { g with globCount := (off, (m.phaseObj gid off).ph) :: g.globCount.filter fun x => x != (off, (m.phaseObj gid off).ph) }

/-- An engine completion counts bytes into an object; `glob` that some had a global destination (R166, R257). -/
def Mach.countBytes (m : Mach) (gid : Nat) (obj : Option Nat) (n : Nat) (glob : Bool) : Mach :=
  match obj with
  | none => m
  | some off =>
    if m.winLost gid off 16 then m.winReport gid
    else
      let o := m.phaseObj gid off
      let m := if glob && n != 0 then m.noteGlob gid off else m
      m.settlePhase gid off { o with bal := sext (bitsI (o.bal + n) 32) 32 }

/-! ### Remote queues -/

/-- The resident group of a core that binds a queue (R178). -/
def Mach.binder (m : Mach) (col c q : Nat) : Option Group :=
  m.groups.find? fun g => g.stage == .resident && g.column == col && g.core == c && g.queues.any fun x => x.num == q

/-- The group that binds a queue of a core, resident or swapped out (R179). -/
def Mach.binderAny (m : Mach) (col c q : Nat) : Option Group :=
  m.groups.find? fun g => (g.stage == .resident || g.stage == .halting || g.stage == .saving || g.stage == .saved || g.stage == .restoring)
    && g.column == col && g.core == c && g.queues.any fun x => x.num == q

/-- Free entries of a queue of a core (R178). -/
def Mach.qfreeEntries (m : Mach) (col c q : Nat) : Nat :=
  match m.binder col c q with
  | none => 0
  | some g => match g.queues.find? fun x => x.num == q with
    | some x => x.qn - (x.tail - x.head)
    | none => 0

/-- Hand arrived messages of a queue to the `qget`s that wait, in the order they wait; a fill is an acquire at cluster
scope (R178), and waits for a locked bank (R260). -/
def Mach.fillQgets (m : Mach) (gid q : Nat) : Nat → Mach
  | 0 => m
  | n + 1 =>
    match m.group? gid with
    | none => m
    | some g =>
      match g.queues.find? (fun x => x.num == q), g.qwaits.find? (fun w => w.num == q) with
      | some x, some w =>
        let off := x.base + 8 * (x.head % x.qn)
        if x.tail ≤ x.head || m.winLocked gid off 8 then m
        else if m.winLost gid off 8 then (m.onGroup gid fun g => { g with qwaits := g.qwaits.erase w }).winReport gid
        else
          let v := m.winRead gid off 8
          let m := m.onGroup gid fun g =>
            { g with
              queues := g.queues.map fun y => if y.num == q then { y with head := y.head + 1 } else y
              qwaits := g.qwaits.erase w }
          let m := if w.dst = 123 then m else m.onThread gid w.tid fun t => t.fillDsts [w.dst, w.dst + 1] v false
          let m := m.l1Inv g.column g.core
          fillQgets m gid q n
      | _, _ => m

/-- Enqueue a message (R178): written at QBASE + 8·(tail mod QN), the tail advances, and waiting `qget`s fill. -/
def Mach.enqueue (m : Mach) (gid q msg : Nat) : Mach :=
  match m.group? gid with
  | none => m
  | some g =>
    match g.queues.find? fun x => x.num == q with
    | none => m
    | some x =>
      let m := m.winWrite gid (x.base + 8 * (x.tail % x.qn)) 8 msg
      let m := m.onGroup gid fun g => { g with queues := g.queues.map fun y => if y.num == q then { y with tail := y.tail + 1 } else y }
      m.fillQgets gid q (g.qwaits.length + 1)

end Sys2Proof.Machine
end

