-- ==== Sys2Proof/Machine/Device.lean ====
section
/-! DEFINITION. Device: what units do on their own: translated accesses of engines and of the scheduler, the freeze of a
master (17 R324), the fault ring (18 R336), region control blocks (10 R214, R215), locked and lost banks (08 R190, 19
R353, R354). -/

namespace Sys2Proof.Machine

/-! ### Translated accesses of units -/

/-- Read `n` bytes that lie in one page, at their home. -/
def devRead (cfg : Cfg) (vf va n : Nat) (m : Mach) : Mach × Except TransRes Nat :=
  match translate cfg m vf va false false with
  | (m, some pa, _) => (m, if m.homeLost pa n then .error .lost else .ok (m.homeRead pa n))
  | (m, none, r) => (m, .error r)

/-- Write `n` bytes that lie in one page, at their home. -/
def devWrite (cfg : Cfg) (vf va n v : Nat) (m : Mach) : Mach × Except TransRes Unit :=
  match translate cfg m vf va true false with
  | (m, some pa, _) => (m.store pa n v, .ok ())
  | (m, none, r) => (m, .error r)

/-- The pages of a structure can be used, or the use waits. A structure that cannot be reached is used as well: it reads 0. -/
inductive Pages where
  | ready
  | wait
  deriving DecidableEq, Repr

/-- The addresses that name the pages of `n` bytes. -/
def pageVas (va n : Nat) : List Nat := (List.range ((va + n - 1) / 65536 - va / 65536 + 1)).map fun i => if i = 0 then va else (va / 65536 + i) * 65536

/-- Translate the pages of a structure before it is used (R330, R333): the walks set A, and D for a page to be written. -/
def touchPages (cfg : Cfg) (vf : Nat) (write : Bool) : List Nat → Mach → Mach × Pages
  | [], m => (m, .ready)
  | va :: vas, m =>
    if 2 ^ 57 ≤ va then (m, .ready)
    else match unitTranslate cfg m vf va write false with
      | (m, none, .pending _) => (m, .wait)
      | (m, none, .lost) => (m, .wait)
      | (m, _, _) => touchPages cfg vf write vas m

/-- The column in which an uncorrectable error in a structure of `n` bytes is met. -/
def vaLost (vf va n : Nat) (m : Mach) : Option Nat :=
  if m.lost.isEmpty then none
  else (pageVas va n).findSome? fun a => match m.tlbHit vf a false false with
    | some pa => if m.homeLost pa (min (va + n) ((a / 65536 + 1) * 65536) - a) then some (Config.homeColumn (pa / 64) % 12) else none
    | none => none

/-- Make `n` bytes of a structure of a partition ready for use: the use waits while a page of it is pending (R333); DATALOSS in it is a partition-level
fault (R338). -/
def touchStruct (cfg : Cfg) (vf va n : Nat) (write : Bool) (m : Mach) : Mach × Pages :=
  match touchPages cfg vf write (pageVas va n) m with
  | (m, .wait) => (m, .wait)
  | (m, .ready) => match vaLost vf va n m with
    | some col => ((m.count col 11).queuePartStop vf 0x10, .wait)
    | none => (m, .ready)

/-- One structure after another. -/
def thenTouch (r : Mach × Pages) (f : Mach → Mach × Pages) : Mach × Pages :=
  match r with
  | (m, .wait) => (m, .wait)
  | (m, .ready) => f m

/-- An event whose structures are ready. -/
def whenReady (r : Mach × Pages) (f : Mach → Mach) : Mach :=
  match r with
  | (m, .wait) => m
  | (m, .ready) => f m

/-- Read words of a structure; an unreadable one reads 0. -/
def readVa (cfg : Cfg) (vf va n : Nat) (m : Mach) : Nat :=
  match devRead cfg vf va n m with
  | (_, .ok v) => v
  | (_, .error _) => 0

/-- Write a field of a structure, if it is mapped. -/
def writeVa (cfg : Cfg) (vf va n v : Nat) (m : Mach) : Mach := (devWrite cfg vf va n v m).1

/-- Write a list of bytes at a virtual address, byte by byte. -/
def writeVaList (cfg : Cfg) (vf va : Nat) : List Byte → Mach → Mach
  | [], m => m
  | b :: bs, m => writeVaList cfg vf (va + 1) bs (writeVa cfg vf va 1 b.toNat m)

/-! ### Images of groups -/

/-- The sections of an image with their sizes, each 256-aligned, in the order of Table 18.7. -/
def imageSections (g : Group) : List Nat :=
  [1024, 256 * g.gsize, 256 * g.gsize, 32 * g.gsize * g.claim.reg, g.gsize * g.claim.reg, 16896 * g.claim.msl, 1024, 2048
  , 65536 * g.claim.scr].map fun n => roundUp n 256

/-- Offset of section `i`. -/
def sectionOff (g : Group) (i : Nat) : Nat := ((imageSections g).take i).sum

/-- Size of an image in units of 64 KiB, as bytes. -/
def imageSize (g : Group) : Nat := roundUp (imageSections g).sum 65536

/-- The group is swapped out: its image stands in its save area, and what reaches it goes there too (R36, R179, R188). -/
def Group.away (g : Group) : Bool := g.imageLen != 0 && (g.stage == .saved || g.stage == .restoring)

/-- The bytes of a group's window that differ between two machines. -/
def windowDiff (gid : Nat) (m m' : Mach) : List (Nat × Byte) :=
  let mine (x : Mem) : Mem := x.filter fun e => decide (scrKey gid 0 ≤ e.1) && decide (e.1 < scrKey (gid + 1) 0)
  ((mine m'.smem).filter fun e => byteAt m.smem e.1 != e.2).map (fun e => (e.1 - scrKey gid 0, e.2))
    ++ ((mine m.smem).filter fun e => byteAt m'.smem e.1 == unwritten).map fun e => (e.1 - scrKey gid 0, unwritten)

/-- What an engine or an arrival changed in the window of a group that is swapped out lands in its saved image (R179, R188, R364): `m` is the machine before. -/
def mirrored (cfg : Cfg) (g : Group) (m m' : Mach) : Mach :=
  if g.away then (windowDiff g.gid m m').foldl (fun m' e => writeVa cfg g.env.vf (g.image + sectionOff g 8 + e.1) 1 e.2.toNat m') m' else m'

/-- The bytes of a tile entry (Table 18.7): its state, and its descriptor in the words of `tdef` (R180). -/
def tileWords (x : Tile) : List Nat :=
  let st := match x.st with
    | .empty => 0
    | .filling => 1
    | .ready => 2
    | .draining => 3
  [st, x.src % 2 ^ 32, x.src / 2 ^ 32, x.rb * 256 + x.rows, x.sstride, x.buf, x.prog, if x.faulted then 1 else 0]

/-- A list of 32-bit words written at a virtual address. -/
def writeVaWords (cfg : Cfg) (vf va : Nat) : List Nat → Mach → Mach
  | [], m => m
  | w :: ws, m => writeVaWords cfg vf (va + 4) ws (writeVa cfg vf va 4 (w % 2 ^ 32) m)

/-- A tile entry of a group that is swapped out, in its image (R364). -/
def mirrorTile (cfg : Cfg) (g : Group) (t : Nat) (x : Tile) (m : Mach) : Mach :=
  if g.away then writeVaWords cfg g.env.vf (g.image + sectionOff g 7 + 32 * t) (tileWords x) m else m

/-! ### Regions -/

/-- The fields of a region control block that rules use (Table 10.1). -/
structure Rcb where
  id : Word := 0
  parent : Nat := 0
  ovr : Nat := 0
  cores : Nat := 0
  regb : Nat := 0
  scrb : Nat := 0
  surfb : Nat := 0
  mslb : Nat := 0
  spcb : Nat := 0
  quantum : Nat := 0
  prio : Nat := 0
  fd : Bool := false
  hbase : Nat := 0
  hentry : Nat := 0
  hseg : Nat := 0
  save : Nat := 0
  savesz : Nat := 0
  deriving DecidableEq, Repr

/-- Read an RCB. -/
def readRcb (cfg : Cfg) (vf a : Nat) (m : Mach) : Rcb :=
  let w (byte n : Nat) := readVa cfg vf (a + byte) n m
  { parent := w 0 8, id := BitVec.ofNat 32 (w 8 4), ovr := w 16 4, cores := w 20 4, regb := w 24 4, scrb := w 28 4
    surfb := w 32 4, mslb := w 36 4, spcb := w 40 4, quantum := w 44 4, prio := bitsOf (w 48 4) 20 4
    fd := bitOf (w 48 4) 27, hbase := w 56 8, hentry := w 64 4, hseg := w 68 4, save := w 72 8, savesz := w 80 4 }

/-- The addresses from a region on that is not yet in `seen`: a chain that comes back to a region ends there. -/
def regionPathFrom (cfg : Cfg) (vf : Nat) (m : Mach) : Nat → List Nat → Nat → List Nat
  | 0, _, _ => []
  | n + 1, seen, a => if a = 0 ∨ seen.contains a then [] else a :: regionPathFrom cfg vf m n (a :: seen) (readRcb cfg vf a m).parent

/-- The addresses from a region up to its root. -/
def regionPath (cfg : Cfg) (vf : Nat) (m : Mach) (n a : Nat) : List Nat := regionPathFrom cfg vf m n [] a

/-- More levels than a chain of different addresses can have. -/
def treeDepth : Nat := 2 ^ 64

/-- The RCBs from a region up to its root are ready for use (R214). -/
def touchRegionFrom (cfg : Cfg) (vf : Nat) : Nat → List Nat → Nat → Mach → Mach × Pages
  | 0, _, _, m => (m, .ready)
  | n + 1, seen, a, m =>
    if a = 0 ∨ seen.contains a then (m, .ready)
    else thenTouch (touchStruct cfg vf a 128 false m) fun m => touchRegionFrom cfg vf n (a :: seen) (readRcb cfg vf a m).parent m

/-- The RCBs that a region's effective fields come from are ready for use. -/
def touchRegion (cfg : Cfg) (vf a : Nat) (m : Mach) : Mach × Pages := touchRegionFrom cfg vf treeDepth [] a m

/-- The effective value of a field that override bit `i` governs (R215). -/
def effective {α : Type} (rs : List Rcb) (i : Nat) (d : α) (f : Rcb → α) : α :=
  match rs.find? fun r => bitOf r.ovr i with
  | some r => f r
  | none => d

/-- The RCBs from a region up to its root. -/
def regionChain (cfg : Cfg) (vf a : Nat) (m : Mach) : List Rcb := (regionPath cfg vf m treeDepth a).map fun x => readRcb cfg vf x m

/-- The fault-domain root of a region: the nearest region whose effective FD is 1, else the root (R243). -/
def domainRoot (cfg : Cfg) (vf a : Nat) (m : Mach) : Nat :=
  let p := regionPath cfg vf m treeDepth a
  let fdOf (x : Nat) := effective (regionChain cfg vf x m) 8 false (·.fd)
  match p.find? fdOf with
  | some x => x
  | none => p.getLast?.getD a

/-- What a group takes from its region (R215, R218). -/
def regionEnv (cfg : Cfg) (vf a : Nat) (m : Mach) (e : Env) : Env :=
  let rs := regionChain cfg vf a m
  { e with
    vf := vf, leaf := a, rid := (readRcb cfg vf a m).id, prio := effective rs 7 0 (·.prio)
    quantum := effective rs 6 0 (·.quantum), hbase := effective rs 9 0 (·.hbase), hentry := effective rs 9 0 (·.hentry)
    hseg := effective rs 9 0 (·.hseg), save := effective rs 10 0 (·.save), savesz := effective rs 10 0 (·.savesz)
    fdroot := domainRoot cfg vf a m, path := regionPath cfg vf m treeDepth a }

/-! ### Freezing -/

/-- The lowest free index of the freeze log. -/
def freeEntry (l : List (Nat × Frz)) : Option Nat := (List.range 16).find? fun i => !l.any fun e => e.1 == i

/-- Log an offence, or keep it pending (R324). -/
def Mach.logFreeze (m : Mach) (vf : Nat) (z : Frz) : Mach :=
  let m := m.count z.column 13
  match freeEntry (m.vf vf).frzlog with
  | some i => (m.onVf vf fun r => { r with frzlog := (i, z) :: r.frzlog }).raise vf 2
  | none => (m.onVf vf fun r => { r with frzwait := r.frzwait ++ [z] }).raise vf 3

/-- Freeze a core context: the group's threads on its core (R324). `why`: 0 address, 1 handle, 2 tower or queue, 3 counter
area. -/
def Mach.freezeGroup (m : Mach) (g : Group) (why what : Nat) (a : Option Acc) : Mach :=
  let m := m.onGroup g.gid fun x => { x with frozen := true, offence := a }
  m.logFreeze g.env.vf { kind := 0, column := g.column, core := g.core, why := why, rid := g.env.rid, what := what, gid := g.gid }

/-- Freeze a core's copy queue; `src` as in `Frz`. -/
def Mach.freezeCopy (m : Mach) (g : Group) (src col core why what : Nat) : Mach :=
  let m := m.onCore col core fun c => { c with copyFrozen := true }
  m.logFreeze g.env.vf { kind := 1, column := col, core := core, why := why, rid := g.env.rid, what := what, gid := g.gid, src := src }

/-- Freeze a core's bank job queue. -/
def Mach.freezeBank (m : Mach) (g : Group) (col core why what : Nat) : Mach :=
  let m := m.onCore col core fun c => { c with bankFrozen := true }
  m.logFreeze g.env.vf { kind := 2, column := col, core := core, why := why, rid := g.env.rid, what := what, gid := g.gid }

/-! ### The fault ring -/

/-- The save area of the root region of a VF. -/
def rootSave (cfg : Cfg) (vf : Nat) (m : Mach) : Nat := (readRcb cfg vf (m.vf vf).root m).save

/-- The fault ring can be used (R336). -/
def touchRing (cfg : Cfg) (vf : Nat) (m : Mach) : Mach × Pages :=
  thenTouch (touchStruct cfg vf (m.vf vf).root 128 false m) fun m => touchStruct cfg vf (rootSave cfg vf m) 4096 true m

/-- Append a fault record and raise CBFAULT; a full ring drops it and adds 1 to FOVF (R336). `kind` is 1 for a command
block and 2 for a tile fill. -/
def Mach.faultRecord (cfg : Cfg) (m : Mach) (g : Group) (col core kind k va prog wr off : Nat) : Mach :=
  let vf := g.env.vf
  let base := rootSave cfg vf m
  let fh := readVa cfg vf base 4 m
  let ft := readVa cfg vf (base + 4) 4 m
  if (fh + 2 ^ 32 - ft) % 2 ^ 32 < 63 then
    let r := base + 0x40 + 64 * (fh % 63)
    let m := writeVa cfg vf r 4 (kind + col * 2 ^ 8 + core * 2 ^ 16 + k % 256 * 2 ^ 24) m
    let m := writeVa cfg vf (r + 4) 4 g.env.rid.toNat m
    let m := writeVa cfg vf (r + 8) 8 va m
    let m := writeVa cfg vf (r + 16) 4 prog m
    let m := writeVa cfg vf (r + 20) 4 wr m
    let m := writeVa cfg vf (r + 24) 4 off m
    let m := writeVaWords cfg vf (r + 28) (List.replicate 9 0) m
    let m := writeVa cfg vf base 4 ((fh + 1) % 2 ^ 32) m
    let m := m.onVf vf fun x => { x with faults := x.faults ++
      [{ ring := fh % 63, kind := kind, column := col, core := core, gid := g.gid, off := off }] }
    m.raise vf 4
  else
    let m := writeVa cfg vf (base + 8) 4 ((readVa cfg vf (base + 8) 4 m + 1) % 2 ^ 32) m
    m.raise vf 4

end Sys2Proof.Machine
end

