-- ==== Sys2Proof/Machine/Frame.lean ====
section
/-! DEFINITION. Frame: the bytes of registers and of a latch, and the trap frame of a thread in the image of its group (01 R36, 10 R242, 18 R340). -/

namespace Sys2Proof.Machine

/-- The bytes of a list of 32-bit words. -/
def bytesOf32 (ws : List Nat) : List Byte := ws.flatMap fun w => natBytes w 0 4

/-- The bytes of listed registers `lo` to `lo + n - 1`. -/
def regBytes (v : SMap Word) (lo n : Nat) : List Byte := bytesOf32 ((List.range n).map fun i => (SMap.get 0 v (lo + i)).toNat)

/-- Registers 0 to `n - 1` from bytes at `a`. -/
def regsAt (x : Mem) (a n : Nat) : SMap Word := (List.range n).foldl (fun v i => SMap.set 0 v i (read32 x (a + 4 * i))) []

/-- Latch values and tags (Table 18.8). -/
def latchWords (l : Latch) : List Nat × Nat :=
  let es := [l.l0, l.l1, l.l2]
  (es.map fun e => match e with | some x => x.val.toNat | none => 0
  , ((List.range 3).map fun i => match l.entry i with | some x => (x.slot % 64 + 64) * 2 ^ (7 * i) | none => 0).sum)

/-- A latch entry from its value and its tag. -/
def latchEnt (v : Word) (tag : Nat) : Option LatchEnt := if bitOf tag 6 then some { slot := bitsOf tag 0 6, val := v } else none

/-- A latch from its four words at `a`. -/
def latchAt (x : Mem) (a : Nat) : Latch :=
  let tags := readN x (a + 12) 4
  { l0 := latchEnt (read32 x a) (bitsOf tags 0 7), l1 := latchEnt (read32 x (a + 4)) (bitsOf tags 7 7), l2 := latchEnt (read32 x (a + 8)) (bitsOf tags 14 7) }

/-- The trap frame: bytes 128 to 255 of a thread frame (Table 18.8). -/
def trapFrameBytes (f : Frame) : List Byte :=
  let l := latchWords f.latch
  regBytes f.t 0 8 ++ List.replicate 24 0 ++ bytesOf32 (l.1 ++ [l.2]) ++ List.replicate 36 0 ++ bytesOf32 [f.slot % 32] ++ List.replicate 16 0

/-- A trap frame from the 128 bytes at `a`. -/
def trapFrameAt (x : Mem) (a : Nat) : Frame := { t := regsAt x a 8, latch := latchAt x (a + 56), slot := readN x (a + 108) 4 % 32 }

/-- Address of a thread's trap frame in the image of its group (Table 18.7). -/
def Group.trapFrame (g : Group) (tid : Nat) : Nat := g.image + sectionOff g 1 + 256 * tid + 128

/-- A trap that is handled saves the interrupted run in the thread's trap frame (R36, R242). A group without an image has it in the core alone (log entry
38). -/
def saveTrapFrame (cfg : Cfg) (gid tid : Nat) (m : Mach) : Mach :=
  match m.group? gid with
  | none => m
  | some g => match g.thread? tid with
    | none => m
    | some t => if g.imageLen = 0 ∨ !t.hnd ∨ t.wait ≠ .run then m else writeVaList cfg g.env.vf (g.trapFrame tid) (trapFrameBytes t.frame) m

/-- Listed bytes of a range of virtual addresses, at their offsets in it; pages without a translation give none. -/
def readVaMem (cfg : Cfg) (vf va n : Nat) (m : Mach) : Mem :=
  (pageVas va n).flatMap fun a => match translate cfg m vf a false false with
    | (_, some pa, _) =>
      let k := min (va + n) ((a / 65536 + 1) * 65536) - a
      let lo := if pa < hostBase then m.devKey pa else pa - hostBase
      ((if pa < hostBase then m.dmem else m.hmem).filter fun e => decide (lo ≤ e.1) && decide (e.1 < lo + k)).map fun e => (e.1 - lo + (a - va), e.2)
    | _ => []

/-- A range of virtual addresses has a translation. -/
def vaMapped (cfg : Cfg) (vf va n : Nat) (m : Mach) : Bool :=
  (pageVas va n).all fun a => match translate cfg m vf a false false with
    | (_, some _, _) => true
    | _ => false

/-- The trap frame that `trapret` restores: the one in the save area (R36, R242); while that cannot be reached, the core's own copy. -/
def loadTrapFrame (cfg : Cfg) (g : Group) (m : Mach) (t : Thread) : Thread :=
  if g.imageLen = 0 ∨ !vaMapped cfg g.env.vf (g.trapFrame t.tid) 128 m then t
  else { t with frame := trapFrameAt (readVaMem cfg g.env.vf (g.trapFrame t.tid) 128 m) 0 }

end Sys2Proof.Machine
end

