-- ==== Sys2Proof/Machine/Operands.lean ====
section
/-! DEFINITION. Operands: operand fields and modifiers (03 R73 to R83), the operand phase of a word in a lane, and the one
way a word issues to the gang that is current: its checks in the order of R83, speculation (R115, R164, R234, R237), traps
(R67, R142), waits (R76, R92), its effect, and the advance of the gang (R206 to R209). -/

namespace Sys2Proof.Machine

/-! ### Operand fields -/

/-- A source operand: its field, its miss-mode bit, its width in registers, and the cycle after issue in which it is
read: 0 for A, 1 for B, 2 for a third source (R211). -/
structure Src where
  f : Nat
  mm : Bool := false
  w : Nat := 1
  cyc : Nat := 0
  deriving DecidableEq, Repr

/-- A destination: its field, its width in registers, and whether its producer is long-latency (R12). -/
structure Dst where
  f : Nat
  w : Nat := 1
  long : Bool := false
  deriving DecidableEq, Repr

/-- The operand field a pair code names (R95); 124, an illegal field, for codes 60 to 62. -/
def pairField (p : Nat) : Nat := if p < 56 then 2 * p else if p < 60 then 112 + 2 * (p - 56) else if p = 63 then 123 else 124

/-- A field that names a latch entry. -/
def isLatch (f : Nat) : Bool := decide (120 ≤ f) && decide (f ≤ 122)

/-- A source field that traps ILLEGAL (R73). -/
def Src.bad (s : Src) : Bool :=
  decide (124 ≤ s.f) || (decide (s.w ≠ 1) && (isLatch s.f || (decide (s.f ≤ 119) && s.f % s.w != 0)))

/-- A destination field that traps ILLEGAL (R13, R73). -/
def Dst.bad (d : Dst) : Bool :=
  decide (124 ≤ d.f) || isLatch d.f
    || (decide (d.f ≤ 119) && d.f % d.w != 0)
    || ((d.long || decide (d.w = 4)) && decide (112 ≤ d.f) && decide (d.f ≤ 119))

/-- The lane registers a destination names. -/
def Dst.regs (d : Dst) : List Nat := if d.f ≤ 111 then (List.range d.w).map fun i => d.f + i else []

/-! ### Modifiers -/

/-- The modifier fields a word accepts besides KG and GN (Tables 03.6, 06.1, 07.3): `negA` NA and AA, `negB` NB and AB,
`scl` SCALE, SAT and CLP, `hb` HB, the orders, the number of scopes; `any` false where every modifier is refused. -/
structure Accepts where
  any : Bool := true
  negA : Bool := false
  negB : Bool := false
  scl : Bool := false
  hb : Bool := false
  ords : List Nat := [0]
  scopes : Nat := 1
  deriving DecidableEq, Repr

/-- A modifier that traps ILLEGAL on its host (R80, R81). -/
def modBad (a : Accepts) : Option Modifier → Bool
  | none => false
  | some q =>
    !a.any || q.rsv || decide (7 ≤ q.scope) || (q.sat && q.clp)
      || ((q.na || q.aa) && !a.negA) || ((q.nb || q.ab) && !a.negB)
      || ((q.scale != 0 || q.sat || q.clp) && !a.scl) || (q.hb && !a.hb)
      || !a.ords.contains q.ord || decide (a.scopes ≤ q.scope)

/-- The guard of a lane: k[KG] xor GN, true without a modifier (R82). -/
def guard (q : Option Modifier) (c : Ctx) : Bool :=
  match q with
  | none => true
  | some q => c.pred q.kg != q.gn

/-- The signed scale of a modifier. -/
def scaleOf (q : Option Modifier) : Int :=
  match q with
  | none => 0
  | some q => sext q.scale 5

/-- SAT of a modifier. -/
def satOf (q : Option Modifier) : Bool := (q.map (·.sat)).getD false

/-- CLP of a modifier. -/
def clpOf (q : Option Modifier) : Bool := (q.map (·.clp)).getD false

/-- HB of a modifier. -/
def hbOf (q : Option Modifier) : Bool := (q.map (·.hb)).getD false

/-- ORD of a modifier; relaxed without one (R82). -/
def ordOf (q : Option Modifier) : Nat := (q.map (·.ord)).getD 0

/-- SCOPE of a modifier, or the default of the instruction (R82). -/
def scopeOf (dflt : Nat) (q : Option Modifier) : Nat := (q.map (·.scope)).getD dflt

/-- AA then NA on a 32-bit integer, wrapping (R82). -/
def intMods (abs neg : Bool) (x : Nat) : Nat :=
  let y := if abs && bitOf x 31 then bitsI (-(x : Int)) 32 else x
  if neg then bitsI (-(y : Int)) 32 else y

/-- The integer source A after NA and AA. -/
def intA (q : Option Modifier) (x : Nat) : Nat :=
  match q with
  | none => x
  | some q => intMods q.aa q.na x

/-- The integer source B after NB and AB. -/
def intB (q : Option Modifier) (x : Nat) : Nat :=
  match q with
  | none => x
  | some q => intMods q.ab q.nb x

/-- The integer result step of R82: floor(e · 2^SCALE), then SAT or CLP, then the low w bits. -/
def intOut (q : Option Modifier) (uns : Bool) (w : Nat) (e : Int) : Nat :=
  let s := scaleOf q
  let f : Int := if 0 ≤ s then e * (2 ^ s.toNat : Nat) else e.fdiv (2 ^ (-s).toNat : Nat)
  let y : Int :=
    if satOf q then (if uns then clampI f 0 ((2 ^ w : Nat) - 1) else clampI f (-(2 ^ (w - 1) : Nat)) ((2 ^ (w - 1) : Nat) - 1))
    else if clpOf q then clampI f (-32768) 32767
    else f
  bitsI y w

/-- A floating-point source after AA and NA: the sign bit alone, in a format (R82). -/
def fpMods (f : Fmt) (abs neg : Bool) (x : Nat) : Nat :=
  let sb := f.xb + f.fb
  let y := if abs then x % 2 ^ sb else x
  if neg then (if bitOf y sb then y - 2 ^ sb else y + 2 ^ sb) else y

/-- Source A of a floating-point word. -/
def fpA (f : Fmt) (q : Option Modifier) (x : Nat) : Nat :=
  match q with
  | none => x
  | some q => fpMods f q.aa q.na x

/-- Source B of a floating-point word. -/
def fpB (f : Fmt) (q : Option Modifier) (x : Nat) : Nat :=
  match q with
  | none => x
  | some q => fpMods f q.ab q.nb x

/-- The result of a floating-point word: one rounding of e · 2^SCALE, then SAT or CLP (R82, R122). -/
def fpOut (f : Fmt) (q : Option Modifier) (x : Exact) : Rnd :=
  let r := finish f .ne (scaleOf q) x
  { r with bits := fClampOut f (satOf q) (clpOf q) r.bits }

/-! ### The operand phase of a lane -/

/-- What the operand phase finds in a lane: the source values; a wait for an empty register; a trap. -/
inductive Opr where
  | ok (vs : List Nat)
  | wait
  | trap (c : Cause) (arg : Nat)
  deriving DecidableEq, Repr

/-- The trap an operand phase ends in. -/
def Opr.trap? : Opr → Option (Cause × Nat)
  | .trap c a => some (c, a)
  | _ => none

/-- The values an operand phase reads. -/
def Opr.vals? : Opr → Option (List Nat)
  | .ok vs => some vs
  | _ => none

/-- Read consecutive lane registers (`rd_opd`, R75): REGRANGE, then the full bit. -/
def rdRegs (cnt : Nat) (c v : Ctx) (mm : Bool) (f : Nat) : Nat → Opr
  | 0 => .ok []
  | n + 1 =>
    if cnt ≤ f then .trap .regrange f
    else if c.notFull.getLsbD f then (if mm then .trap .emptyread 0 else .wait)
    else match rdRegs cnt c v mm (f + 1) n with
      | .ok vs => .ok ((SMap.get 0 v.v f).toNat :: vs)
      | x => x

/-- Little-endian words as one number. -/
def joinWords : List Nat → Nat
  | [] => 0
  | x :: xs => x + 2 ^ 32 * joinWords xs

/-- Set a latch entry. -/
def Latch.put (l : Latch) (e : Nat) (x : LatchEnt) : Latch :=
  match e with
  | 0 => { l with l0 := some x }
  | 1 => { l with l1 := some x }
  | _ => { l with l2 := some x }

/-- `rd_opd` of R75 in a lane: `slot` the reader's slot, `first` the first slot of its chain, `now` the cycle of issue. -/
def rdOpd (cnt slot first now : Nat) (c : Ctx) (s : Src) : Opr :=
  let v := c.view (now + s.cyc)
  if s.f ≤ 111 then
    match rdRegs cnt c v s.mm s.f s.w with
    | .ok vs => .ok [joinWords vs]
    | x => x
  else if s.f ≤ 119 then .ok [joinWords ((List.range s.w).map fun i => (SMap.get 0 v.t (s.f - 112 + i)).toNat)]
  else if s.f ≤ 122 then
    match c.latch.entry (s.f - 120) with
    | some e => if e.slot < first ∧ (slot = e.slot + 1 ∨ slot = e.slot + 2) then .ok [e.val.toNat] else .trap .latch 0
    | none => .trap .latch 0
  else .ok [0]

/-- The sources in order. -/
def rdAll (cnt slot first now : Nat) (c : Ctx) : List Src → Opr
  | [] => .ok []
  | s :: ss =>
    match rdOpd cnt slot first now c s with
    | .ok x => match rdAll cnt slot first now c ss with
      | .ok xs => .ok (x ++ xs)
      | r => r
    | r => r

/-- `chk_dst` of R75. -/
def chkDst (cnt : Nat) (d : Dst) : Option Nat := d.regs.find? fun n => cnt ≤ n

/-! ### Words -/

/-- A lane at a word: its thread, its registers as the issue cycle sees them, the operand values, the guard `g`, and
whether the word acts in it. -/
structure LaneIn where
  t : Thread
  v : Ctx
  vs : List Nat
  g : Bool
  on : Bool
  deriving DecidableEq, Repr

/-- Operand value `i`. -/
def LaneIn.val (l : LaneIn) (i : Nat) : Nat := l.vs.getD i 0

/-- A word as the issue unit sees it. `ill` is an encoding that a rule of the instruction makes ILLEGAL; `chk` a further
operand check; `dyn` the lane registers it writes beside its destination; `exe` its execution trap;
`opx` an operand trap of a gang word, in every active lane (R83); `busy` what it waits
for beside operands; `always` that the guard does not suppress it; `more` the words of a fused
pattern after the first; `blk` that it blocks, so that it issues before it is `busy` (R92); `coll` that it is a gang collective; `store` that it may be buffered; `stop` that a speculating
thread stops before it; `cls` its timing class, 4 for none; `act` its effect over the active lanes, with the lanes in which a blocking word has not completed. -/
structure Desc where
  c : Bool
  q : Option Modifier := none
  acc : Accepts := {}
  ill : Bool := false
  h : Bool := false
  srcs : List Src := []
  dst : Option Dst := none
  cls : Nat := 0
  stop : Bool := false
  store : Bool := false
  coll : Bool := false
  always : Bool := false
  more : Nat := 0
  blk : Bool := false
  chk : Mach → Gang → Group → LaneIn → Opr := fun _ _ _ l => .ok l.vs
  dyn : Group → LaneIn → List Nat := fun _ _ => []
  exe : Cfg → Mach → Gang → Group → LaneIn → Option (Cause × Nat) := fun _ _ _ _ _ => none
  opx : Cfg → Mach → Gang → Group → Option (Cause × Nat) := fun _ _ _ _ => none
  busy : Cfg → Mach → Gang → Group → LaneIn → Bool := fun _ _ _ _ _ => false
  act : Cfg → Mach → Gang → Group → List LaneIn → Mach × List Nat := fun _ m _ _ _ => (m, [])

/-- A source that may not be held (R78): a 64-bit source or a latch entry. -/
def holdBad (s : Option Src) : Bool :=
  match s with
  | some s => decide (s.w ≠ 1) || isLatch s.f
  | none => false

/-- ILLEGAL by its encoding (R84). -/
def Desc.illegal (d : Desc) : Bool :=
  d.ill || modBad d.acc d.q || d.srcs.any Src.bad || (d.dst.map Dst.bad).getD false
    || (d.h && hbOf d.q) || (d.h && holdBad d.srcs.head?) || (hbOf d.q && holdBad d.srcs[1]?)

/-- The words it takes: the modifier is one more, a fused pattern three. -/
def Desc.words (d : Desc) : Nat := (if d.q.isSome then 2 else 1) + d.more

/-- The chain bit that stands: the modifier's, where there is one (R66). -/
def Desc.chained (d : Desc) : Bool :=
  match d.q with
  | some q => q.c
  | none => d.c

/-- ILLCHAIN by its own encoding (R65): C in a host that its modifier follows; C in slot 2. -/
def Desc.illchain (d : Desc) (slot : Nat) : Bool := (d.c && d.q.isSome) || (d.chained && (slot + d.words) % 3 == 0)

/-- The active lanes of a gang at its next word: not exited, not past a control word that it takes (R69), not yet
served. -/
def activeLanes (k : Gang) (g : Group) : List Thread :=
  k.lanes.filterMap fun l => match g.thread? l with
    | some t =>
      if (t.taken.isSome && decide (t.takenAt < k.slot)) || t.exited || k.sat.contains l || (decide (k.cutAt < k.slot) && k.cut.contains l) then none
      else some t
    | none => none

/-- The issue cycle of a word. -/
def issueCycle (m : Mach) (k : Gang) (g : Group) : Nat := (m.core g.column g.core).clk + k.off

/-- The cycle from which a word's latency counts: that of the last word of its chain (R211, R212). -/
def lastCycle (m : Mach) (k : Gang) (g : Group) : Nat := issueCycle m k g + k.lag

/-- The lane of a thread whose operands are read. -/
def Desc.laneIn (d : Desc) (now : Nat) (t : Thread) (vs : List Nat) : LaneIn :=
  let v := t.c.view now
  { t := t, v := v, vs := vs, g := guard d.q v, on := d.always || guard d.q v }

/-- The operand phase of a word in a lane: sources in order, then the further check, then the destination (R75). -/
def Desc.opr (d : Desc) (m : Mach) (k : Gang) (g : Group) (now : Nat) (t : Thread) : Opr :=
  match rdAll g.acquired k.slot k.first now t.c d.srcs with
  | .ok vs => match d.chk m k g (d.laneIn now t vs) with
    | .ok vs => match d.dst.bind (chkDst g.acquired) with
      | some n => .trap .regrange n
      | none => .ok vs
    | r => r
  | r => r

/-- The lane registers a word writes in a lane. -/
def Desc.writes (d : Desc) (g : Group) (l : LaneIn) : List Nat := ((d.dst.map Dst.regs).getD []) ++ d.dyn g l

/-- SPC bytes an episode has used (R234). -/
def Episode.used (e : Episode) : Nat :=
  80 + 8 * ((List.range 256).filter fun i => e.written.getLsbD i).length + 32 * e.bufs.length

/-- SPC bytes that the group's episodes have used. -/
def Group.spcUsed (g : Group) : Nat := (g.threads.map fun t => (t.epi.map Episode.used).getD 0).sum

/-- SPC bytes that a word needs in a lane of an episode (R234). -/
def Desc.needs (d : Desc) (g : Group) (l : LaneIn) (e : Episode) : Nat :=
  if l.on then 8 * ((d.writes g l).filter fun n => !e.written.getLsbD n).length + (if d.store then 32 else 0) else 0

/-- The same for a thread, by its operands. -/
def Desc.needsIn (d : Desc) (m : Mach) (k : Gang) (g : Group) (now : Nat) (t : Thread) : Nat :=
  match t.epi, d.opr m k g now t with
  | some e, .ok vs => d.needs g (d.laneIn now t vs) e
  | _, _ => 0

/-- The word would need space the group's SPC holding has not (R234), or is the 33rd buffered store (R164). Lanes of lower gang position are served
first (DESIGN CHOICE, log entry 45). -/
def Desc.noSpace (d : Desc) (m : Mach) (k : Gang) (g : Group) (now : Nat) (t : Thread) (l : LaneIn) (e : Episode) : Bool :=
  let need := d.needs g l e
  let before := (((activeLanes k g).filter fun x => decide (x.tid < t.tid)).map (d.needsIn m k g now)).sum
  l.on && ((need != 0 && decide (g.hold.spc * 65536 < g.spcUsed + before + need)) || (d.store && decide (32 ≤ e.bufs.length)))

/-- What the checks of a word find for its gang. -/
inductive Verdict where
  /-- a decode trap in every lane -/
  | all (c : Cause)
  /-- speculating lanes that stop before the word -/
  | stops (l : List Nat)
  /-- operand traps -/
  | traps (l : List (Nat × Cause × Nat))
  /-- a wait: for a source that is not full where `empty`, of a blocking word that has issued where `held` (R92), else before issue -/
  | wait (held empty : Bool)
  /-- the lanes, and execution traps -/
  | go (ls : List LaneIn) (tr : List (Nat × Cause × Nat))

/-- A lane in which a speculating thread stops before the word (R115, R164, R234, R237). -/
def Desc.stopsIn (d : Desc) (cfg : Cfg) (m : Mach) (k : Gang) (g : Group) (now : Nat) (bad : Bool) (t : Thread) : Bool :=
  match t.epi with
  | none => false
  | some e =>
    d.stop || bad || (match d.opr m k g now t with
      | .trap _ _ => true
      | .wait => false
      | .ok vs => (d.laneIn now t vs).on && (d.exe cfg m k g (d.laneIn now t vs)).isSome || d.noSpace m k g now t (d.laneIn now t vs) e)

/-- The checks of a word, in the order of R83. -/
def Desc.verdict (d : Desc) (cfg : Cfg) (m : Mach) (k : Gang) (g : Group) : Verdict :=
  let now := issueCycle m k g
  let ts := activeLanes k g
  let chain := d.illchain k.slot
  let bad := chain || d.illegal
  let stops := ts.filter (d.stopsIn cfg m k g now bad)
  if ts.isEmpty then .go [] []
  else if !stops.isEmpty then .stops (stops.map (·.tid))
  else if bad then .all (if chain then .illchain else .illegal)
  else
    let tr := ts.filterMap fun t => (d.opr m k g now t).trap?.map fun (x : Cause × Nat) => (t.tid, x.1, x.2)
    if !tr.isEmpty then .traps tr
    else match d.opx cfg m k g with
    | some x => .traps (ts.map fun t => (t.tid, x.1, x.2))
    | none =>
      let ls := ts.filterMap fun t => (d.opr m k g now t).vals?.map (d.laneIn now t)
      let empty := ls.any fun l => l.on && (d.writes g l).any fun n => l.t.c.notFull.getLsbD n
      let ex := ls.filterMap fun l => if l.on then (d.exe cfg m k g l).map fun x => (l.t.tid, x.1, x.2) else none
      if ls.length ≠ ts.length || empty then .wait false (ls.length != ts.length)
      else if ls.any (fun l => l.on && d.busy cfg m k g l) then (if d.blk && !ex.isEmpty then .traps ex else .wait d.blk false)
      else .go ls ex

/-! ### Time -/

/-- Cycle length of a class in picoseconds (Table 09.1). -/
def classPs : Nat → Nat
  | 0 => 625 | 1 => 800 | 2 => 1064 | _ => 1400

/-- The last cycle in which a class that issued in cycle `c` occupies the window (Table 09.1). -/
def windowLast (cls c : Nat) : Nat := if cls = 0 then c + 1 else c + 3

/-- A class that issued occupies the window in cycle `c`. -/
def inWindow (c : Nat) (e : Nat × Nat) : Bool := decide (e.2 ≤ c) && decide (c ≤ windowLast e.1 e.2)

/-- The length of cycle `c` under a window (R207). -/
def cyclePs (w : List (Nat × Nat)) (c : Nat) : Nat := w.foldl (fun l e => if inWindow c e then max l (classPs e.1) else l) 625

/-- The window after a word of a class enters it in cycle `c`; 4 stands for a word that occupies none (R207). -/
def enterWindow (w : List (Nat × Nat)) (c : Nat) (cls : Option Nat) : List (Nat × Nat) :=
  w ++ (match cls with
    | some k => if k = 4 then [] else [(k, c)]
    | none => [])

/-- The time of `n` cycles from `c` on; nothing occupies the window beyond the seventh (R207, R211). -/
def spanPs (w : List (Nat × Nat)) (c n : Nat) : Nat :=
  ((List.range 7).map fun i => if i < n then cyclePs w (c + i) else 0).sum + (n - 7) * 625

/-- An issue unit issues in the core's cycle (R208): the word's class enters the window, none for a word that traps (log entry 6), the unit
is taken for the cycle, and the cycle is an issue round of its half (R223). -/
def Core.useUnit (k : Core) (half : Nat) (cls : Option Nat) : Core :=
  if half = 0 then { k with window := enterWindow k.window k.clk cls, free0 := k.clk + 1, round0 := k.round0 + 1 }
  else { k with window := enterWindow k.window k.clk cls, free1 := k.clk + 1, round1 := k.round1 + 1 }

/-- An issue unit of a core issues. -/
def Mach.useUnit (m : Mach) (col c half : Nat) (cls : Option Nat) : Mach := m.onCore col c fun k => k.useUnit half cls

/-- A sample of CLK or ETIME, which is no memory access (R25). -/
def Acc.isValue (a : Acc) : Bool :=
  match a.op with
  | .value _ => true
  | .sample _ => true
  | _ => false

/-- A core's cycles matter: it has a group, or an access whose time they measure. -/
def coreActive (m : Mach) (col core : Nat) : Bool :=
  (m.groups.any fun g => g.column == col && g.core == core && (match g.stage with
    | .resident => true
    | .halting => true
    | .saving => true
    | .restoring => true
    | _ => false)) || (m.core col core).accs.any fun a => a.isValue || a.port

/-- A core that was idle goes on at the package's time, before a group comes to it: idle cycles count too (R24, R25, R207). -/
def Mach.syncCore (m : Mach) (col core : Nat) : Mach :=
  if coreActive m col core then m
  else
    let c := m.core col core
    let n := ceilDiv (m.etime - c.ps) 625
    m.setCore col core { c with clk := c.clk + n, ps := c.ps + spanPs c.window c.clk n }

/-- The issue rounds of a half. -/
def Core.rounds (c : Core) (half : Nat) : Nat := if half = 0 then c.round0 else c.round1

/-! ### The end of a word -/

/-- Every lane of `ls` takes `f`. -/
def Group.mapLanes (g : Group) (ls : List LaneIn) (f : LaneIn → Thread → Thread) : Group :=
  { g with threads := g.threads.map fun t => match ls.find? (fun l => l.t.tid == t.tid) with
      | some l => f l t
      | none => t }

/-- Every lane of `ls` takes `f`, in the machine. -/
def Mach.mapLanes (m : Mach) (gid : Nat) (ls : List LaneIn) (f : LaneIn → Thread → Thread) : Mach :=
  m.onGroup gid fun g => g.mapLanes ls f

/-- Fixed-latency writes of a thread, due in a cycle (R76, R77). -/
def Thread.push (t : Thread) (due : Nat) (ws : List (Tgt × Word × Word)) : Thread :=
  { t with c := { t.c with pend := ws.foldl (fun p w => pushWrite p { tgt := w.1, mask := w.2.1, val := w.2.2, due := due }) t.c.pend } }

/-- A blocking word that waits has issued (R92): it enters the window in its issue cycle, once. -/
def Mach.holdWord (m : Mach) (k : Gang) (g : Group) (cls : Nat) : Mach :=
  if k.out then m else (m.onGang k.id fun x => { x with out := true }).useUnit g.column g.core k.half (some cls)

/-- Traps of lanes at a slot: each lane leaves for its handler or its domain stops (R242, R243); FPX sets its flags
(R27). In a collective run the other lanes hold (R142). A handled trap saves the trap frame (R36). -/
def Mach.deliver (cfg : Cfg) (m : Mach) (k : Gang) (slot : Nat) (tr : List (Nat × Cause × Nat)) : Mach :=
  let m := tr.foldl (fun m x =>
    let m := if x.2.1 = .fpx then m.onThread k.gid x.1 fun t => { t with c := { t.c with fpstat := t.c.fpstat ||| BitVec.ofNat 5 x.2.2 } } else m
    saveTrapFrame cfg k.gid x.1 (m.trapLane k x.1 slot x.2.1 x.2.2)) m
  if k.cr && !tr.isEmpty then
    match m.gang? k.id with
    | none => m
    | some k' =>
      let rest := k'.lanes
      let m := rest.foldl (fun m l => (m.leaveGang k' l slot .hold).onThread k.gid l Thread.holdCollective) m
      let m := m.onGroup k.gid fun g =>
        { g with holds := g.holds ++ [{ pc := k.pc, hnd := k.hnd, half := k.half, win := k.win
                                        trapped := tr.map (·.1), waiting := rest }] }
      m.dropGang k.id
  else m.reapGang k.id

/-- The holds of a word (R78), and the registers an episode has written (R234), in lanes still in the gang. -/
def Desc.mark (d : Desc) (k : Gang) (g : Group) (l : LaneIn) (t : Thread) : Thread :=
  let held := if d.h then l.vs[0]? else if hbOf d.q then l.vs[1]? else none
  let t := match held with
    | some v => { t with c := { t.c with latch := t.c.latch.put (k.slot % 3) { slot := k.slot, val := BitVec.ofNat 32 v } } }
    | none => t
  match t.epi with
  | some e => if l.on then { t with epi := some { e with written := (d.writes g l).foldl (fun w n => w ||| BitVec.ofNat 256 (2 ^ n)) e.written } } else t
  | none => t

/-- The gang at its next word, `n` slots on. -/
def Gang.next (k : Gang) (n : Nat) : Gang :=
  { k with slot := k.slot + n, first := k.slot + n, st := .issuing, sat := [], ack := false, asked := false, out := false, empty := false, mode := .solo
           off := 0, lag := 0, vop := [], vex := [], vstop := [], vwait := false, vempty := false, vreads := [], von := [], cut := [], cutAt := 0 }

/-- Go on to the next word: the slot, and, unless the word issued in an earlier cycle and has waited since, the unit's cycle and the lanes'
issue round (R208, R223). -/
def Mach.advance (m : Mach) (k : Gang) (words cls : Nat) : Mach :=
  match m.group? k.gid with
  | none => m
  | some g =>
    let m := m.onGang k.id fun x => { x with slot := k.slot }.next words
    let r := (m.core g.column g.core).rounds k.half + 1
    if k.out then m
    else
      let m := m.onGroup k.gid fun g =>
        { g with threads := g.threads.map fun t => if k.lanes.contains t.tid then { t with lastIssue := r } else t }
      m.useUnit g.column g.core k.half (some cls)

/-- The effect of a word in the lanes that take it; true when it has completed in every lane. -/
def Desc.perform (d : Desc) (cfg : Cfg) (m : Mach) (k : Gang) (g : Group) (ls : List LaneIn) : Mach × Bool :=
  let r := d.act cfg m k g ls
  let left := match r.1.gang? k.id with
    | some k' => ls.filter fun l => k'.lanes.contains l.t.tid
    | none => []
  let m := r.1.mapLanes k.gid left (d.mark k g)
  if r.2.isEmpty then (m, true)
  else
    (m.onGang k.id fun x => { x with st := .parked, sat := x.sat ++ ((ls.map (·.t.tid)).filter fun l => !r.2.contains l) }, false)

/-- The gang that is current and its group. -/
def Mach.curGang (m : Mach) : Option (Gang × Group) :=
  match m.cur.bind m.gang? with
  | some k => (m.group? k.gid).map fun g => (k, g)
  | none => none

/-- The lane registers a word reads, each with the cycle after issue in which it is read (R211). -/
def Desc.reads (d : Desc) : List (Nat × Nat) :=
  d.srcs.flatMap fun s => if s.f ≤ 111 then (List.range s.w).map fun i => (s.cyc, s.f + i) else []

/-- What a check of a word adds to its gang's verdict (R67, R211). -/
def Gang.judged (x : Gang) (v : Verdict) (active : List Nat) (reads : List (Nat × Nat)) : Gang :=
  let x := { x with vreads := x.vreads ++ [reads] }
  match v with
  | .all c => { x with vop := x.vop ++ active.map fun i => (i, c, 0) }
  | .stops l => { x with vstop := x.vstop ++ l }
  | .traps l => { x with vop := x.vop ++ l }
  | .wait held empty => if held then x else { x with vwait := true, vempty := x.vempty || empty }
  | .go ls tr =>
    { x with vex := x.vex ++ tr, von := (ls.filter fun l => l.on && !tr.any fun y => y.1 == l.t.tid).map (·.t.tid) }

/-- A word issues to the current gang. -/
def runWord (d : Desc) (cfg : Cfg) (m : Mach) : Mach :=
  match m.curGang with
  | none => m
  | some (k, g) =>
    let v := d.verdict cfg m k g
    let trap (m : Mach) (l : List (Nat × Cause × Nat)) : Mach := (m.useUnit g.column g.core k.half none).deliver cfg k k.slot l
    let goOn (r : Mach × Bool) : Mach := if r.2 then r.1.advance k d.words d.cls else r.1.holdWord k g d.cls
    match k.mode with
    | .probe => m.onGang k.id fun x => x.judged v ((activeLanes k g).map (·.tid)) d.reads
    | .commit =>
      match v with
      | .go ls _ => (d.perform cfg m k g ls).1
      | _ => m.onGang k.id fun x => { x with st := .parked }
    | .solo =>
      match v with
      | .all c => trap m ((activeLanes k g).map fun t => (t.tid, c, 0))
      | .stops l =>
        let m := l.foldl (fun m i => match m.thread? k.gid i with
          | some t => match t.epi with
            | some e => m.stopSpec k i k.slot e
            | none => m
          | none => m) m
        m.reapGang k.id
      | .traps l => trap m l
      | .wait held empty =>
        let m := m.onGang k.id fun x => { x with st := .parked, empty := empty }
        if held then m.holdWord k g d.cls else m
      | .go ls tr =>
        if tr.isEmpty then goOn (d.perform cfg m k g ls)
        else if d.coll then trap m tr
        else (goOn (d.perform cfg m k g (ls.filter fun l => !(tr.map (·.1)).contains l.t.tid))).deliver cfg k k.slot tr

/-- A word's meaning: it issues to the current gang. -/
def word (d : Desc) (s : State) : Host.Outcome State Fault Refusal := onMach (runWord d) s

/-! ### Shared effects of lane words -/

/-- The guarded lanes. -/
def ons (ls : List LaneIn) : List LaneIn := ls.filter (·.on)

/-- The whole mask. -/
def fullMask : Word := 0xFFFFFFFF#32

/-- `wr_res` of R75: the writes of a value to a destination of `w` registers. -/
def resWrites (f w v : Nat) : List (Tgt × Word × Word) :=
  if f = 123 then []
  else (List.range w).map fun i =>
    ((if f ≤ 111 then Tgt.lane (f + i) else Tgt.tmp (f - 112 + i)), fullMask, BitVec.ofNat 32 (v / 2 ^ (32 * i)))

/-- The results of a blocking word, written by its completion (R92) after every older write to their targets (R76). -/
def Thread.writeNow (t : Thread) (ws : List (Tgt × Word × Word)) : Thread :=
  { t with c := (t.c.landTo fun x => ws.any fun w => w.1 == x).settle ws }

/-- Results of a blocking word in its guarded lanes. -/
def laneNow (f : LaneIn → List (Tgt × Word × Word)) (m : Mach) (k : Gang) (ls : List LaneIn) : Mach × List Nat :=
  (m.mapLanes k.gid (ons ls) fun l t => t.writeNow (f l), [])

/-- Fixed-latency writes and flags of the guarded lanes. -/
def laneAct (lat : Nat) (f : LaneIn → List (Tgt × Word × Word) × BitVec 5) (m : Mach) (k : Gang) (g : Group) (ls : List LaneIn) :
    Mach × List Nat :=
  let due := lastCycle m k g + lat
  (m.mapLanes k.gid (ons ls) fun l t =>
    let r := f l
    let t := t.push due r.1
    { t with c := { t.c with fpstat := t.c.fpstat ||| r.2 } }, [])

/-- FPX where an enabled flag is raised (R27, R122). -/
def fpxOf (g : Group) (fl : BitVec 5) : Option (Cause × Nat) := if fl &&& g.fpxen = 0 then none else some (.fpx, fl.toNat)

end Sys2Proof.Machine
end

