-- ==== Sys2Proof/Machine/Integer.lean ====
section
/-! DEFINITION. Integer: majors 0x01 to 0x16 (05 R98 to R109): integer arithmetic and logic, immediates, constants, moves,
index registers. Every word is one call of a shared form with the exact result of its table row. -/

namespace Sys2Proof.Machine

/-- The latency of pipes IN, PR, UN and CT (R89). -/
def lat4 : Nat := 4

/-- The modifier fields of the rows marked "both" in Table 05.1. -/
def accArith : Accepts := { negA := true, negB := true, scl := true, hb := true }

/-- The rows that accept SCALE, SAT and CLP only. -/
def accScale : Accepts := { scl := true, hb := true }

/-- The rows that accept neither. -/
def accPlain : Accepts := { hb := true }

/-- A word that writes `w` registers from a destination field `w` wide with a fixed-latency value (R98). -/
def laneRes (f w : Nat) (v : LaneIn → Nat) : Mach → Gang → Group → List LaneIn → Mach × List Nat :=
  laneAct lat4 fun l => (resWrites f w (v l), 0)

/-- An R-format integer word with two sources (Table 05.1); `e` takes the sources after their modifiers. -/
def intR (f : FR) (q : Option Modifier) (acc : Accepts) (uns : Bool) (e : Nat → Nat → Int) : Desc :=
  { c := f.c, q := q, acc := acc, h := f.h, srcs := [{ f := f.a, mm := f.m }, { f := f.b, mm := f.n, cyc := 1 }]
    dst := some { f := f.d }
    act := fun _ => laneRes f.d 1 fun l => intOut q uns 32 (e (intA q (l.val 0)) (intB q (l.val 1))) }

/-- An R-format integer word with one source (R100). -/
def intUn (f : FUn) (q : Option Modifier) (e : Nat → Int) : Desc :=
  { c := f.c, q := q, h := f.h, srcs := [{ f := f.a, mm := f.m }], dst := some { f := f.d }
    act := fun _ => laneRes f.d 1 fun l => intOut q false 32 (e (l.val 0)) }

/-- An RT-format integer word: D is the third source (R102, R103). -/
def intRt (f : FRt) (q : Option Modifier) (acc : Accepts) (e : Nat → Nat → Nat → Int) : Desc :=
  { c := f.c, q := q, acc := acc, h := f.h
    srcs := [{ f := f.a, mm := f.m }, { f := f.b, mm := f.n, cyc := 1 }, { f := f.d, mm := f.e, cyc := 2 }]
    dst := some { f := f.d }
    act := fun _ => laneRes f.d 1 fun l => intOut q false 32 (e (intA q (l.val 0)) (intB q (l.val 1)) (l.val 2)) }

/-- A 64-bit add or subtract over pairs (R104). -/
def intW (f : FR) (q : Option Modifier) (e : Int → Int → Int) : Desc :=
  { c := f.c, q := q, acc := accScale, h := f.h
    srcs := [{ f := f.a, mm := f.m, w := 2 }, { f := f.b, mm := f.n, w := 2, cyc := 1 }], dst := some { f := f.d, w := 2 }
    act := fun _ => laneRes f.d 2 fun l => intOut q false 64 (e (sext (l.val 0) 64) (sext (l.val 1) 64)) }

/-- An I-format word; `e` takes the source after its modifiers and the raw immediate (R105). -/
def intI (f : FI) (q : Option Modifier) (acc : Accepts) (e : Nat → Int → Int) : Desc :=
  { c := f.c, q := q, acc := acc, srcs := [{ f := f.a, mm := f.m }], dst := some { f := f.d }
    act := fun _ => laneRes f.d 1 fun l => intOut q false 32 (e (intA q (l.val 0)) (sext f.i 9)) }

/-- A shift by an immediate (R105). -/
def intSh (f : FSh) (q : Option Modifier) (e : Nat → Nat → Int) : Desc :=
  { c := f.c, q := q, srcs := [{ f := f.a, mm := f.m }], dst := some { f := f.d }
    act := fun _ => laneRes f.d 1 fun l => intOut q false 32 (e (l.val 0) f.i) }

/-- A 16-bit constant into D under a mask (R106). -/
def intL (f : FL) (q : Option Modifier) (mask : Word) (v : Nat) : Desc :=
  { c := f.c, q := q, dst := some { f := f.d }
    act := fun _ => laneAct lat4 fun _ => ((resWrites f.d 1 v).map fun x => (x.1, mask, x.2.2), 0) }

/-! ### Exact results (Table 05.1, R103) -/

/-- The signed value of a 32-bit pattern. -/
def sx (a : Nat) : Int := sext a 32

/-- Number of 1 bits. -/
def popcount (a : Nat) : Nat := ((List.range 32).filter fun i => bitOf a i).length

/-- Number of leading 0 bits of a 32-bit pattern. -/
def leadingZeros (a : Nat) : Nat := ((List.range 32).takeWhile fun i => !bitOf a (31 - i)).length

/-- Bit i moved to bit 31 - i. -/
def reverseBits (a : Nat) : Nat := ((List.range 32).map fun i => if bitOf a i then 2 ^ (31 - i) else 0).sum

/-- Rotated left by n mod 32. -/
def rotl (a n : Nat) : Nat := (a * 2 ^ (n % 32) + a / 2 ^ (32 - n % 32)) % 2 ^ 32

/-- Shifted left; 0 for amounts of 32 or more. -/
def shiftL (a n : Nat) : Nat := if n < 32 then a * 2 ^ n else 0

/-- Shifted right with zero fill; 0 for amounts of 32 or more. -/
def shiftR (a n : Nat) : Nat := if n < 32 then a / 2 ^ n else 0

/-- Shifted right arithmetically, by at most 31. -/
def shiftA (a n : Nat) : Int := (sx a).fdiv (2 ^ min n 31 : Nat)

/-- Position and length of a field from b (R103). -/
def fieldOf (b : Nat) : Nat × Nat :=
  let p := bitsOf b 0 5
  let n := min (bitsOf b 8 6) 32
  (p, if 32 < p + n then 32 - p else n)

/-- Bitwise operations on 32-bit patterns. -/
def bitAnd (a b : Nat) : Nat := a &&& b
def bitOr (a b : Nat) : Nat := a ||| b
def bitXor (a b : Nat) : Nat := a ^^^ b
def bitNot (a : Nat) : Nat := 2 ^ 32 - 1 - a % 2 ^ 32

/-! ### The words -/

/-- `iadd`: D := signed a + signed b. -/
def execIadd (f : FR) (q : Option Modifier) (s : State) : Host.Outcome State Fault Refusal :=
  word (intR f q accArith false fun a b => sx a + sx b) s

/-- `isub`: D := signed a - signed b. -/
def execIsub (f : FR) (q : Option Modifier) (s : State) : Host.Outcome State Fault Refusal :=
  word (intR f q accArith false fun a b => sx a - sx b) s

/-- `imul`: D := signed a × signed b. -/
def execImul (f : FR) (q : Option Modifier) (s : State) : Host.Outcome State Fault Refusal :=
  word (intR f q accArith false fun a b => sx a * sx b) s

/-- `imulh.u`: D := the high 32 bits of the unsigned product. -/
def execImulhU (f : FR) (q : Option Modifier) (s : State) : Host.Outcome State Fault Refusal :=
  word (intR f q accScale true fun a b => ((a * b / 2 ^ 32 : Nat) : Int)) s

/-- `imulh.s`: D := the high 32 bits of the signed product. -/
def execImulhS (f : FR) (q : Option Modifier) (s : State) : Host.Outcome State Fault Refusal :=
  word (intR f q accArith false fun a b => (sx a * sx b).fdiv (2 ^ 32)) s

/-- `iabs`: D := |signed a|. -/
def execIabs (f : FUn) (q : Option Modifier) (s : State) : Host.Outcome State Fault Refusal :=
  word (intUn f q fun a => ((sx a).natAbs : Int)) s

/-- `imad`: D := signed a × signed b + the old D (R102). -/
def execImad (f : FRt) (q : Option Modifier) (s : State) : Host.Outcome State Fault Refusal :=
  word (intRt f q accArith fun a b c => sx a * sx b + sx c) s

/-- `imin.s`: D := signed minimum. -/
def execIminS (f : FR) (q : Option Modifier) (s : State) : Host.Outcome State Fault Refusal :=
  word (intR f q accArith false fun a b => min (sx a) (sx b)) s

/-- `imax.s`: D := signed maximum. -/
def execImaxS (f : FR) (q : Option Modifier) (s : State) : Host.Outcome State Fault Refusal :=
  word (intR f q accArith false fun a b => max (sx a) (sx b)) s

/-- `imin.u`: D := unsigned minimum. -/
def execIminU (f : FR) (q : Option Modifier) (s : State) : Host.Outcome State Fault Refusal :=
  word (intR f q accScale true fun a b => ((min a b : Nat) : Int)) s

/-- `imax.u`: D := unsigned maximum. -/
def execImaxU (f : FR) (q : Option Modifier) (s : State) : Host.Outcome State Fault Refusal :=
  word (intR f q accScale true fun a b => ((max a b : Nat) : Int)) s

/-- `and`: D := a AND b. -/
def execAnd (f : FR) (q : Option Modifier) (s : State) : Host.Outcome State Fault Refusal :=
  word (intR f q accPlain false fun a b => (bitAnd a b : Int)) s

/-- `or`: D := a OR b. -/
def execOr (f : FR) (q : Option Modifier) (s : State) : Host.Outcome State Fault Refusal :=
  word (intR f q accPlain false fun a b => (bitOr a b : Int)) s

/-- `xor`: D := a XOR b. -/
def execXor (f : FR) (q : Option Modifier) (s : State) : Host.Outcome State Fault Refusal :=
  word (intR f q accPlain false fun a b => (bitXor a b : Int)) s

/-- `andn`: D := a AND NOT b. -/
def execAndn (f : FR) (q : Option Modifier) (s : State) : Host.Outcome State Fault Refusal :=
  word (intR f q accPlain false fun a b => (bitAnd a (bitNot b) : Int)) s

/-- `shl`: D := a shifted left by the whole of b. -/
def execShl (f : FR) (q : Option Modifier) (s : State) : Host.Outcome State Fault Refusal :=
  word (intR f q accPlain false fun a b => (shiftL a b : Int)) s

/-- `shr`: D := a shifted right, zero fill. -/
def execShr (f : FR) (q : Option Modifier) (s : State) : Host.Outcome State Fault Refusal :=
  word (intR f q accPlain false fun a b => (shiftR a b : Int)) s

/-- `sar`: D := a shifted right arithmetically. -/
def execSar (f : FR) (q : Option Modifier) (s : State) : Host.Outcome State Fault Refusal :=
  word (intR f q accPlain false fun a b => shiftA a b) s

/-- `rot`: D := a rotated left by b mod 32. -/
def execRot (f : FR) (q : Option Modifier) (s : State) : Host.Outcome State Fault Refusal :=
  word (intR f q accPlain false fun a b => (rotl a b : Int)) s

/-- `popc`: D := number of 1 bits. -/
def execPopc (f : FUn) (q : Option Modifier) (s : State) : Host.Outcome State Fault Refusal :=
  word (intUn f q fun a => (popcount a : Int)) s

/-- `clz`: D := number of leading 0 bits. -/
def execClz (f : FUn) (q : Option Modifier) (s : State) : Host.Outcome State Fault Refusal :=
  word (intUn f q fun a => (leadingZeros a : Int)) s

/-- `bfx.u`: D := a bit field, zero-extended (R103). -/
def execBfxU (f : FR) (q : Option Modifier) (s : State) : Host.Outcome State Fault Refusal :=
  word (intR f q accPlain false fun a b => (bitsOf a (fieldOf b).1 (fieldOf b).2 : Int)) s

/-- `bfx.s`: D := a bit field, sign-extended (R103). -/
def execBfxS (f : FR) (q : Option Modifier) (s : State) : Host.Outcome State Fault Refusal :=
  word (intR f q accPlain false fun a b =>
    if (fieldOf b).2 = 0 then 0 else sext (bitsOf a (fieldOf b).1 (fieldOf b).2) (fieldOf b).2) s

/-- `bfi`: D := the old D with a field replaced by the low bits of a (R103). -/
def execBfi (f : FRt) (q : Option Modifier) (s : State) : Host.Outcome State Fault Refusal :=
  word (intRt f q accPlain fun a b c => (putBits c (fieldOf b).1 (fieldOf b).2 a : Int)) s

/-- `iadd.w`: D := 64-bit sum (R104). -/
def execIaddW (f : FR) (q : Option Modifier) (s : State) : Host.Outcome State Fault Refusal :=
  word (intW f q fun a b => a + b) s

/-- `isub.w`: D := 64-bit difference (R104). -/
def execIsubW (f : FR) (q : Option Modifier) (s : State) : Host.Outcome State Fault Refusal :=
  word (intW f q fun a b => a - b) s

/-- `iaddi`: D := signed a + the immediate (R105). -/
def execIaddi (f : FI) (q : Option Modifier) (s : State) : Host.Outcome State Fault Refusal :=
  word (intI f q { negA := true, scl := true } fun a i => sx a + i) s

/-- `andi`: D := a AND the sign-extended immediate. -/
def execAndi (f : FI) (q : Option Modifier) (s : State) : Host.Outcome State Fault Refusal :=
  word (intI f q {} fun a i => (bitAnd a (bitsI i 32) : Int)) s

/-- `ori`: D := a OR the sign-extended immediate. -/
def execOri (f : FI) (q : Option Modifier) (s : State) : Host.Outcome State Fault Refusal :=
  word (intI f q {} fun a i => (bitOr a (bitsI i 32) : Int)) s

/-- `xori`: D := a XOR the sign-extended immediate. -/
def execXori (f : FI) (q : Option Modifier) (s : State) : Host.Outcome State Fault Refusal :=
  word (intI f q {} fun a i => (bitXor a (bitsI i 32) : Int)) s

/-- `shli`: D := a shifted left by the immediate. -/
def execShli (f : FSh) (q : Option Modifier) (s : State) : Host.Outcome State Fault Refusal :=
  word (intSh f q fun a n => (shiftL a n : Int)) s

/-- `shri`: D := a shifted right, zero fill. -/
def execShri (f : FSh) (q : Option Modifier) (s : State) : Host.Outcome State Fault Refusal :=
  word (intSh f q fun a n => (shiftR a n : Int)) s

/-- `sari`: D := a shifted right arithmetically. -/
def execSari (f : FSh) (q : Option Modifier) (s : State) : Host.Outcome State Fault Refusal :=
  word (intSh f q fun a n => shiftA a n) s

/-- `muli`: D := signed a × the immediate (R105). -/
def execMuli (f : FI) (q : Option Modifier) (s : State) : Host.Outcome State Fault Refusal :=
  word (intI f q { negA := true, scl := true } fun a i => sx a * i) s

/-- `brev`: D := the bits of a in reverse order. -/
def execBrev (f : FUn) (q : Option Modifier) (s : State) : Host.Outcome State Fault Refusal :=
  word (intUn f q fun a => (reverseBits a : Int)) s

/-- `lea`: D := a + 4 × b. -/
def execLea (f : FR) (q : Option Modifier) (s : State) : Host.Outcome State Fault Refusal :=
  word (intR f q accPlain false fun a b => ((a + 4 * b : Nat) : Int)) s

/-- `li`: D := the sign-extended 16-bit constant (R106). -/
def execLi (f : FL) (q : Option Modifier) (s : State) : Host.Outcome State Fault Refusal :=
  word (intL f q fullMask (bitsI (sext f.i 16) 32)) s

/-- `liu`: D := the zero-extended 16-bit constant (R106). -/
def execLiu (f : FL) (q : Option Modifier) (s : State) : Host.Outcome State Fault Refusal :=
  word (intL f q fullMask f.i) s

/-- `lhi`: D := the constant into bits [31:16] of D, a partial write (R106). -/
def execLhi (f : FL) (q : Option Modifier) (s : State) : Host.Outcome State Fault Refusal :=
  word (intL f q 0xFFFF0000#32 (f.i * 2 ^ 16)) s

/-- `mov`: D := a (R107). -/
def execMov (f : FUn) (q : Option Modifier) (s : State) : Host.Outcome State Fault Refusal :=
  word (intUn f q fun a => (a : Int)) s

/-- `sel`: D := a where the guard is true and b where it is false; it needs a modifier (R107). -/
def execSel (f : FR) (q : Option Modifier) (s : State) : Host.Outcome State Fault Refusal :=
  word { c := f.c, q := q, acc := accPlain, ill := q.isNone, h := f.h, always := true
         srcs := [{ f := f.a, mm := f.m }, { f := f.b, mm := f.n, cyc := 1 }], dst := some { f := f.d }
         act := fun _ => laneRes f.d 1 fun l => if l.g then l.val 0 else l.val 1 } s

/-- `setx`: x[X] := a + the sign-extended immediate, wrapping (R108). -/
def execSetx (f : FSetx) (q : Option Modifier) (s : State) : Host.Outcome State Fault Refusal :=
  word { c := f.c, q := q, srcs := [{ f := f.a, mm := f.m }]
         act := fun _ => laneAct lat4 fun l => ([(Tgt.idx f.x, fullMask, BitVec.ofInt 32 (sx (l.val 0) + sext f.i 10))], 0) } s

/-- n := x + disp, computed exactly (R16). -/
def indexOf (x : Nat) (i : Nat) (l : LaneIn) : Int := sx (SMap.get 0 l.v.x x).toNat + sext i 10

/-- The window and count checks of R16 on n. -/
def indexCheck (g : Group) (l : LaneIn) (n : Int) : Option Opr :=
  if n < l.v.winBase.toNat ∨ (l.v.winLimit.toNat : Int) < n then some (.trap .idxrange (bitsI n 64))
  else if (g.acquired : Int) ≤ n then some (.trap .regrange (bitsI n 64))
  else none

/-- `movx.r`: D := v[x + disp], after the checks of R16, which are operand checks (R109). -/
def execMovxR (f : FMovr) (q : Option Modifier) (s : State) : Host.Outcome State Fault Refusal :=
  word { c := f.c, q := q, dst := some { f := f.d }
         chk := fun _ _ g l =>
           let n := indexOf f.x f.i l
           match indexCheck g l n with
           | some r => r
           | none => rdRegs g.acquired l.t.c l.v f.m n.toNat 1
         act := fun _ => laneRes f.d 1 fun l => l.val 0 } s

/-- `movx.w`: v[x + disp] := S, after the checks of R16 (R108). -/
def execMovxW (f : FMovw) (q : Option Modifier) (s : State) : Host.Outcome State Fault Refusal :=
  word { c := f.c, q := q, srcs := [{ f := f.s, mm := f.m }]
         chk := fun _ _ g l =>
           let n := indexOf f.x f.i l
           match indexCheck g l n with
           | some r => r
           | none => .ok (l.vs ++ [n.toNat])
         dyn := fun _ l => [l.val 1]
         act := fun _ => laneAct lat4 fun l => ([(Tgt.lane (l.val 1), fullMask, BitVec.ofNat 32 (l.val 0))], 0) } s

/-- `win`: XWIN.BASE and XWIN.LIMIT from the word (R108). -/
def execWin (f : FWin) (q : Option Modifier) (s : State) : Host.Outcome State Fault Refusal :=
  word { c := f.c, q := q
         act := fun _ => laneAct lat4 fun _ => ([(Tgt.xwin, fullMask, BitVec.ofNat 32 (f.l * 256 + f.b))], 0) } s

end Sys2Proof.Machine
end

