-- ==== Sys2Proof/Machine/Predicate.lean ====
section
/-! DEFINITION. Predicate: majors 0x17 to 0x1A (05 R110 to R112): integer compares, predicate logic and packing. -/

namespace Sys2Proof.Machine

/-- The compares of Table 04.3: 0 eq, 1 ne, 2 lt, 3 le, 4 gt, 5 ge; 6 and 7 never hold (they trap ILLEGAL). -/
def intCompare (code : Nat) (a b : Int) : Bool :=
  match code with
  | 0 => a == b
  | 1 => a != b
  | 2 => decide (a < b)
  | 3 => decide (a ≤ b)
  | 4 => decide (b < a)
  | 5 => decide (b ≤ a)
  | _ => false

/-- A predicate result of fixed latency; k0 takes none (R17). -/
def predRes (k : Nat) (v : LaneIn → Bool) : Mach → Gang → Group → List LaneIn → Mach × List Nat :=
  laneAct lat4 fun l => ([(Tgt.pred k, 1#32, if v l then 1#32 else 0#32)], 0)

/-- `icmp.s` and `icmp.u` (R110). -/
def icmpWord (f : FP) (q : Option Modifier) (acc : Accepts) (val : Nat → Int) : Desc :=
  { c := f.c, q := q, acc := acc, ill := decide (6 ≤ f.p)
    srcs := [{ f := f.a, mm := f.m }, { f := f.b, mm := f.n, cyc := 1 }]
    act := fun _ => predRes f.k fun l => intCompare f.p (val (intA q (l.val 0))) (val (intB q (l.val 1))) }

/-- `icmp.s`: k[KD] := signed a CMP signed b (R110). -/
def execIcmpS (f : FP) (q : Option Modifier) (s : State) : Host.Outcome State Fault Refusal :=
  word (icmpWord f q { negA := true, negB := true, hb := true } sx) s

/-- `icmp.u`: k[KD] := unsigned a CMP unsigned b (R110). -/
def execIcmpU (f : FP) (q : Option Modifier) (s : State) : Host.Outcome State Fault Refusal :=
  word (icmpWord f q accPlain fun x => (x : Int)) s

/-- A predicate-logic word over k[KA] xor NA and k[KB] xor NB (R111). -/
def plWord (f : FPl) (q : Option Modifier) (e : Bool → Bool → Bool) : Desc :=
  { c := f.c, q := q, act := fun _ => predRes f.k fun l => e (l.v.pred f.j != f.x) (l.v.pred f.l != f.y) }

/-- `pand` (R111). -/
def execPand (f : FPl) (q : Option Modifier) (s : State) : Host.Outcome State Fault Refusal :=
  word (plWord f q fun p r => p && r) s

/-- `por` (R111). -/
def execPor (f : FPl) (q : Option Modifier) (s : State) : Host.Outcome State Fault Refusal :=
  word (plWord f q fun p r => p || r) s

/-- `pxor` (R111). -/
def execPxor (f : FPl) (q : Option Modifier) (s : State) : Host.Outcome State Fault Refusal :=
  word (plWord f q fun p r => p != r) s

/-- `pandn` (R111). -/
def execPandn (f : FPl) (q : Option Modifier) (s : State) : Host.Outcome State Fault Refusal :=
  word (plWord f q fun p r => p && !r) s

/-- Predicates k to k + n - 1 as bits 0 to n - 1. -/
def packPreds (c : Ctx) (k n : Nat) : Nat := ((List.range n).map fun i => if c.pred (k + i) then 2 ^ i else 0).sum

/-- `kpack`: bit i of D := k[KA + i] for i below the count, 0 above; the register keeps 32 of them (R112). -/
def execKpack (f : FKpack) (q : Option Modifier) (s : State) : Host.Outcome State Fault Refusal :=
  word { c := f.c, q := q, ill := decide (63 < f.k + f.n), dst := some { f := f.d }
         act := fun _ => laneRes f.d 1 fun l => packPreds l.v f.k (f.n + 1) } s

/-- `kunpack`: k[KD + i] := a[i] for i below the count (R112). -/
def execKunpack (f : FKunp) (q : Option Modifier) (s : State) : Host.Outcome State Fault Refusal :=
  word { c := f.c, q := q, ill := decide (63 < f.k + f.n), srcs := [{ f := f.a, mm := f.m }]
         act := fun _ => laneAct lat4 fun l =>
           ((List.range (f.n + 1)).map fun i => (Tgt.pred (f.k + i), 1#32, if bitOf (l.val 0) i then 1#32 else 0#32), 0) } s

/-- `kset`: k[KD] := the immediate bit (R112). -/
def execKset (f : FKset) (q : Option Modifier) (s : State) : Host.Outcome State Fault Refusal :=
  word { c := f.c, q := q, act := fun _ => predRes f.k fun _ => f.v } s

end Sys2Proof.Machine
end

