-- ==== Sys2Proof/Machine/Uniform.lean ====
section
/-! DEFINITION. Uniform: majors 0x1B and 0x1C (05 R113 to R115). A uniform word reads its uniform sources once for the gang
and writes its destination at most once, if its guard is true in an active lane. -/

namespace Sys2Proof.Machine

/-- The code location of the word a gang stands at: its packet and its slot (R19). -/
def codeLoc (k : Gang) : Nat := 3 * k.pc + k.slot

/-- Write a uniform register when some lane is guarded in. -/
def uniAct (d lat : Nat) (v : List LaneIn → Word) (m : Mach) (k : Gang) (g : Group) (ls : List LaneIn) : Mach × List Nat :=
  if (ons ls).isEmpty then (m, [])
  else 
    let due := lastCycle m k g + lat
    ((m.onGroup k.gid fun x => x.writeUni d (v (ons ls)) (codeLoc k) due).onGang k.id fun x => { x with uniDue := max x.uniDue due }, [])

/-- The uniform result of a blocking word, written by its completion (R92). -/
def uniNow (d : Nat) (v : Word) (m : Mach) (k : Gang) (ls : List LaneIn) : Mach × List Nat :=
  if (ons ls).isEmpty then (m, []) else (m.onGroup k.gid fun x => x.writeUniNow d v (codeLoc k), [])

/-- A word of major 0x1B; a speculating thread stops before it (R115). -/
def uniWord (c : Bool) (q : Option Modifier) (d : Nat) (v : (Nat → Word) → Word) : Desc :=
  { c := c, q := q, stop := true
    act := fun _ m k g ls => uniAct d lat4 (fun _ => v (g.uniView (issueCycle m k g))) m k g ls }

/-- `smov` (Table 05.4). -/
def execSmov (f : FSmov) (q : Option Modifier) (s : State) : Host.Outcome State Fault Refusal :=
  word (uniWord f.c q f.d fun r => r f.a) s

/-- `sli`: the sign-extended immediate. -/
def execSli (f : FSli) (q : Option Modifier) (s : State) : Host.Outcome State Fault Refusal :=
  word (uniWord f.c q f.d fun _ => BitVec.ofInt 32 (sext f.i 10)) s

/-- `sadd`. -/
def execSadd (f : FSop) (q : Option Modifier) (s : State) : Host.Outcome State Fault Refusal :=
  word (uniWord f.c q f.d fun r => r f.a + r f.b) s

/-- `ssub`. -/
def execSsub (f : FSop) (q : Option Modifier) (s : State) : Host.Outcome State Fault Refusal :=
  word (uniWord f.c q f.d fun r => r f.a - r f.b) s

/-- `sand`. -/
def execSand (f : FSop) (q : Option Modifier) (s : State) : Host.Outcome State Fault Refusal :=
  word (uniWord f.c q f.d fun r => r f.a &&& r f.b) s

/-- `sor`. -/
def execSor (f : FSop) (q : Option Modifier) (s : State) : Host.Outcome State Fault Refusal :=
  word (uniWord f.c q f.d fun r => r f.a ||| r f.b) s

/-- `sshl`. -/
def execSshl (f : FSsh) (q : Option Modifier) (s : State) : Host.Outcome State Fault Refusal :=
  word (uniWord f.c q f.d fun r => r f.a <<< f.i) s

/-- `sshr`. -/
def execSshr (f : FSsh) (q : Option Modifier) (s : State) : Host.Outcome State Fault Refusal :=
  word (uniWord f.c q f.d fun r => r f.a >>> f.i) s

/-- `smovv`: D := s[SA] in every guarded lane (R114). -/
def execSmovv (f : FSmovv) (q : Option Modifier) (s : State) : Host.Outcome State Fault Refusal :=
  word { c := f.c, q := q, dst := some { f := f.d }
         act := fun _ m k g ls => laneRes f.d 1 (fun _ => (g.uniView (issueCycle m k g) f.a).toNat) m k g ls } s

/-- The lane with the lowest thread id. -/
def lowestLane : List LaneIn → Option LaneIn
  | [] => none
  | l :: ls => match lowestLane ls with
    | some x => if x.t.tid < l.t.tid then some x else some l
    | none => some l

/-- `vmovs`: s[SD] := a of the lowest guarded lane; a speculating thread stops before it (R114, R115). -/
def execVmovs (f : FVmovs) (q : Option Modifier) (s : State) : Host.Outcome State Fault Refusal :=
  word { c := f.c, q := q, srcs := [{ f := f.a, mm := f.m }], stop := true
         act := fun _ => uniAct f.d lat4 fun ls => BitVec.ofNat 32 (((lowestLane ls).map fun l => l.val 0).getD 0) } s

/-- The checks of a scratchpad access of `n` bytes at a window offset: ALIGN, then SPACE (R144, R145); `arg` goes to
TRAPARG. -/
def scrCheck (g : Group) (off : Int) (n align : Nat) (arg : Nat) : Option (Cause × Nat) :=
  if off % (align : Int) ≠ 0 then some (.align, arg)
  else if off < 0 ∨ (granules g.hold.scr : Int) < off + n then some (.space, arg)
  else none

/-- `scmp`: k[KD] := s[SA] CMP s[SB] (R114). -/
def execScmp (f : FScmp) (q : Option Modifier) (s : State) : Host.Outcome State Fault Refusal :=
  word { c := f.c, q := q, ill := decide (6 ≤ f.p)
         act := fun _ m k g ls =>
           let a := (g.uniView (issueCycle m k g) f.a).toNat
           let b := (g.uniView (issueCycle m k g) f.b).toNat
           predRes f.k (fun _ => if f.u then intCompare f.p a b else intCompare f.p (sx a) (sx b)) m k g ls } s

end Sys2Proof.Machine
end

