-- ==== Sys2Proof/Machine/Control.lean ====
section
/-! DEFINITION. Control: majors 0x00 and 0x1D to 0x1F (05 R116 to R121) but `exit`, and the trailer word (03 R70). A taken control word
leaves its lane's next PC in `taken`; the trailer makes it the lane's PC (R69, R71). -/

namespace Sys2Proof.Machine

/-- The packet that holds the word a gang stands at: packet P of a control word (R116). -/
def packetOf (k : Gang) : Nat := (k.pc + k.slot / 3) % 2 ^ 32

/-- The lane's next PC is decided (R69). -/
def Thread.take (t : Thread) (k : Gang) (pc : Nat) : Thread := { t with taken := some (pc % 2 ^ 32), takenAt := k.slot }

/-- `nop`: occupies a slot and no pipe, no window (R118, R207). -/
def execNop (f : FC) (s : State) : Host.Outcome State Fault Refusal :=
  word { c := f.c, cls := 4 } s

/-- `trap imm`: traps SWTRAP (R118). -/
def execTrap (f : FTrap) (q : Option Modifier) (s : State) : Host.Outcome State Fault Refusal :=
  word { c := f.c, q := q, stop := true, exe := fun _ _ _ _ _ => some (.swtrap, f.i) } s

/-- `bkpt`: traps BKPT (R118). -/
def execBkpt (f : FC) (q : Option Modifier) (s : State) : Host.Outcome State Fault Refusal :=
  word { c := f.c, q := q, stop := true, exe := fun _ _ _ _ _ => some (.bkpt, 0) } s

/-- `trapret`: the cases of R30; ILLEGAL where HND is 0 (R118). -/
def execTrapret (f : FC) (q : Option Modifier) (s : State) : Host.Outcome State Fault Refusal :=
  word { c := f.c, q := q
         exe := fun _ _ _ _ l =>
           if !l.t.hnd then some (.illegal, 0) else if l.t.retCase = .runform then some (.runform, 0) else none
         act := fun cfg m k g ls => (m.mapLanes k.gid (ons ls) fun _ t => { (loadTrapFrame cfg g m t).leave with takenAt := k.slot }, []) } s

/-- `yield`: next PC is P + 1, and the quad takes the yield treatment (R118). -/
def execYield (f : FC) (q : Option Modifier) (s : State) : Host.Outcome State Fault Refusal :=
  word { c := f.c, q := q
         act := fun _ m k _ ls =>
           (m.mapLanes k.gid (ons ls) fun _ t => { t.take k (packetOf k + 1) with yieldNext := true }, []) } s

/-- The target of a B-format word: P + sext(DISP18, 18), modulo 2^32. -/
def branchTarget (k : Gang) (d : Nat) : Nat := bitsI ((packetOf k : Int) + sext d 18) 32

/-- `bra`: taken where the guard and k[K] xor NG hold (R116). -/
def execBra (f : FB) (q : Option Modifier) (s : State) : Host.Outcome State Fault Refusal :=
  word { c := f.c, q := q
         act := fun _ m k _ ls =>
           (m.mapLanes k.gid ((ons ls).filter fun l => l.v.pred f.k != f.g) fun _ t => t.take k (branchTarget k f.d), []) } s

/-- `call`: as `bra`, and v110 := P + 1 where taken; REGRANGE there when v110 is not below the count (R116). -/
def execCall (f : FB) (q : Option Modifier) (s : State) : Host.Outcome State Fault Refusal :=
  word { c := f.c, q := q
         dyn := fun _ l => if l.v.pred f.k != f.g then [110] else []
         exe := fun _ _ _ g l => if (l.v.pred f.k != f.g) && decide (g.acquired ≤ 110) then some (.regrange, 110) else none
         act := fun _ m k g ls =>
           let due := lastCycle m k g + lat4
           (m.mapLanes k.gid ((ons ls).filter fun l => l.v.pred f.k != f.g) fun _ t =>
             (t.take k (branchTarget k f.d)).push due (resWrites 110 1 ((packetOf k + 1) % 2 ^ 32)), []) } s

/-- `jmpr` and `ret`: the next PC is a (R117). -/
def jumpWord (f : FA) (q : Option Modifier) : Desc :=
  { c := f.c, q := q, srcs := [{ f := f.a, mm := f.m }]
    act := fun _ m k _ ls => (m.mapLanes k.gid (ons ls) fun l t => t.take k (l.val 0), []) }

/-- `jmpr` (R117). -/
def execJmpr (f : FA) (q : Option Modifier) (s : State) : Host.Outcome State Fault Refusal := word (jumpWord f q) s

/-- `ret` (R117). -/
def execRet (f : FA) (q : Option Modifier) (s : State) : Host.Outcome State Fault Refusal := word (jumpWord f q) s

/-- `endrun`: the trailer issues in a cycle of its own, as a T0 word (R207, R208); it retires by TRAILER_RETIRE. A gang
that is not at its trailer has no other use for it. -/
def execEndrun (_f : FEnd) (s : State) : Host.Outcome State Fault Refusal :=
  onMach (fun _ m => match m.curGang with
    | some (k, g) => (m.useUnit g.column g.core k.half (some 0)).onGang k.id fun x => { x with st := .trailer }
    | none => m) s

/-- RESERVED_ENCODING: a word that no row of the opcode table lists traps ILLEGAL in every active lane (R84, R97); a
trailer with C set, or a word with C in slot 2, traps ILLCHAIN (R65, R70). -/
def execReservedEncoding (w : Nat) (s : State) : Host.Outcome State Fault Refusal :=
  let c := bitOf w 31 && w != 0xFFFFFFFF
  if c && bitsOf w 25 6 == 0x3E then word { c := true, q := some (Modifier.ofWord 0) } s
  else word { c := c, ill := true } s

end Sys2Proof.Machine
end

