-- ==== Sys2Proof/Machine/Float.lean ====
section
/-! DEFINITION. Float: majors 0x20 to 0x2D (06 R122 to R135): every result is an exact value taken through one rounding
(R82, R122), with FPX where a raised flag is enabled (R27). -/

namespace Sys2Proof.Machine

/-- The latencies of pipes FA, DP and SF (R89). -/
def lat6 : Nat := 6
def lat8 : Nat := 8
def lat12 : Nat := 12

/-- A value and its flags as the writes of a destination of `w` registers. -/
def rndWrites (f w : Nat) (r : Rnd) : List (Tgt × Word × Word) × BitVec 5 := (resWrites f w r.bits, r.fl)

/-- A floating-point word over a base: flags may trap FPX, else the results land (R122). -/
def fpWord (d : Desc) (lat : Nat) (res : LaneIn → List (Tgt × Word × Word) × BitVec 5) : Desc :=
  { d with
    exe := fun _ _ _ g l => fpxOf g (res l).2
    act := fun _ => laneAct lat res }

/-- The base of an R-format word with two sources of `w` registers. -/
def baseR (f : FR) (q : Option Modifier) (acc : Accepts) (cls w : Nat) : Desc :=
  { c := f.c, q := q, acc := acc, h := f.h, cls := cls
    srcs := [{ f := f.a, mm := f.m, w := w }, { f := f.b, mm := f.n, w := w, cyc := 1 }], dst := some { f := f.d, w := w } }

/-- The base of an RT-format word. -/
def baseRt (f : FRt) (q : Option Modifier) (acc : Accepts) (cls w : Nat) : Desc :=
  { c := f.c, q := q, acc := acc, h := f.h, cls := cls
    srcs := [{ f := f.a, mm := f.m, w := w }, { f := f.b, mm := f.n, w := w, cyc := 1 }, { f := f.d, mm := f.e, w := w, cyc := 2 }]
    dst := some { f := f.d, w := w } }

/-- A binary32 word with two sources (Table 06.2). -/
def f32R (f : FR) (q : Option Modifier) (e : FV → FV → Exact) : Desc :=
  fpWord (baseR f q accArith 1 1) lat6 fun l =>
    rndWrites f.d 1 (fpOut fmt32 q (e (fmt32.val (fpA fmt32 q (l.val 0))) (fmt32.val (fpB fmt32 q (l.val 1)))))

/-- A binary64 word with two sources (R130). -/
def f64R (f : FR) (q : Option Modifier) (e : FV → FV → Exact) : Desc :=
  fpWord (baseR f q { accArith with hb := false } 3 2) lat8 fun l =>
    rndWrites f.d 2 (fpOut fmt64 q (e (fmt64.val (fpA fmt64 q (l.val 0))) (fmt64.val (fpB fmt64 q (l.val 1)))))

/-- The two halves of a packed word, each through the whole of R82 (R127). -/
def packed (half : Nat → Rnd) : Rnd :=
  let lo := half 0
  let hi := half 1
  { bits := lo.bits + hi.bits * 2 ^ 16, fl := lo.fl ||| hi.fl }

/-- Element `i` of a packed value. -/
def halfOf (x i : Nat) : Nat := bitsOf x (16 * i) 16

/-- A packed word with two sources (Table 06.4). -/
def pkR (f : FR) (q : Option Modifier) (fm : Fmt) (e : FV → FV → Exact) : Desc :=
  fpWord (baseR f q accArith 1 1) lat6 fun l =>
    rndWrites f.d 1 (packed fun i =>
      fpOut fm q (e (fm.val (fpA fm q (halfOf (l.val 0) i))) (fm.val (fpB fm q (halfOf (l.val 1) i)))))

/-- A packed fused multiply-add (Table 06.4). -/
def pkFma (f : FRt) (q : Option Modifier) (fm : Fmt) : Desc :=
  fpWord (baseRt f q accArith 1 1) lat6 fun l =>
    rndWrites f.d 1 (packed fun i =>
      fpOut fm q (exFma (fm.val (fpA fm q (halfOf (l.val 0) i))) (fm.val (fpB fm q (halfOf (l.val 1) i)))
        (fm.val (halfOf (l.val 2) i))))

/-- A conversion: one source of `wa` registers, a result of `wd` (R128, R131). -/
def cvt (c : Bool) (q : Option Modifier) (d a : Nat) (m : Bool) (cls lat wd wa : Nat) (r : Nat → Rnd) : Desc :=
  fpWord { c := c, q := q, cls := cls, srcs := [{ f := a, mm := m, w := wa }], dst := some { f := d, w := wd } } lat
    fun l => rndWrites d wd (r (l.val 0))

/-- An integer as a floating-point value (`i2f`, `i2d`). -/
def ofInt (fm : Fmt) (n : Int) : Rnd := roundTo fm .ne false (Q.ofInt n)

/-- Exact difference. -/
def exSub (a b : FV) : Exact := exAdd a b.neg

/-- `fadd` (Table 06.2). -/
def execFadd (f : FR) (q : Option Modifier) (s : State) : Host.Outcome State Fault Refusal :=
  word (f32R f q exAdd) s

/-- `fsub`. -/
def execFsub (f : FR) (q : Option Modifier) (s : State) : Host.Outcome State Fault Refusal :=
  word (f32R f q exSub) s

/-- `fmul`. -/
def execFmul (f : FR) (q : Option Modifier) (s : State) : Host.Outcome State Fault Refusal :=
  word (f32R f q exMul) s

/-- `fmin`: the minimum of R49. -/
def execFmin (f : FR) (q : Option Modifier) (s : State) : Host.Outcome State Fault Refusal :=
  word (f32R f q exMin) s

/-- `ffma`: a × b + the old D, one rounding; the third source is never negated (R123). -/
def execFfma (f : FRt) (q : Option Modifier) (s : State) : Host.Outcome State Fault Refusal :=
  word (fpWord (baseRt f q accArith 1 1) lat6 fun l =>
    rndWrites f.d 1 (fpOut fmt32 q (exFma (fmt32.val (fpA fmt32 q (l.val 0))) (fmt32.val (fpB fmt32 q (l.val 1))) (fmt32.val (l.val 2))))) s

/-- `fmax`: the maximum of R49. -/
def execFmax (f : FR) (q : Option Modifier) (s : State) : Host.Outcome State Fault Refusal :=
  word (f32R f q exMax) s

/-- `fclass`: the one-hot class mask; no flag (R125). -/
def execFclass (f : FUn) (q : Option Modifier) (s : State) : Host.Outcome State Fault Refusal :=
  word { c := f.c, q := q, h := f.h, cls := 1, srcs := [{ f := f.a, mm := f.m }], dst := some { f := f.d }
         act := fun _ => laneAct lat6 fun l => (resWrites f.d 1 (fclassMask (l.val 0)), 0) } s

/-- `frnd.ne`: the integral value of a in mode ne (Table 06.5). -/
def execFrndNe (f : FXv) (q : Option Modifier) (s : State) : Host.Outcome State Fault Refusal :=
  word (cvt f.c q f.d f.a f.m 1 lat6 1 1 fun a => frnd .ne a) s

/-- `frnd.z`: the integral value of a in mode z (Table 06.5). -/
def execFrndZ (f : FXv) (q : Option Modifier) (s : State) : Host.Outcome State Fault Refusal :=
  word (cvt f.c q f.d f.a f.m 1 lat6 1 1 fun a => frnd .z a) s

/-- `frnd.p`: the integral value of a in mode p (Table 06.5). -/
def execFrndP (f : FXv) (q : Option Modifier) (s : State) : Host.Outcome State Fault Refusal :=
  word (cvt f.c q f.d f.a f.m 1 lat6 1 1 fun a => frnd .p a) s

/-- `frnd.m`: the integral value of a in mode m (Table 06.5). -/
def execFrndM (f : FXv) (q : Option Modifier) (s : State) : Host.Outcome State Fault Refusal :=
  word (cvt f.c q f.d f.a f.m 1 lat6 1 1 fun a => frnd .m a) s

/-- `f2i.s` (R129). -/
def execF2iS (f : FXv) (q : Option Modifier) (s : State) : Host.Outcome State Fault Refusal :=
  word (cvt f.c q f.d f.a f.m 1 lat6 1 1 fun a => toInt32 fmt32 false a) s

/-- `f2i.u` (R129). -/
def execF2iU (f : FXv) (q : Option Modifier) (s : State) : Host.Outcome State Fault Refusal :=
  word (cvt f.c q f.d f.a f.m 1 lat6 1 1 fun a => toInt32 fmt32 true a) s

/-- `i2f.s`. -/
def execI2fS (f : FXv) (q : Option Modifier) (s : State) : Host.Outcome State Fault Refusal :=
  word (cvt f.c q f.d f.a f.m 1 lat6 1 1 fun a => ofInt fmt32 (sx a)) s

/-- `i2f.u`. -/
def execI2fU (f : FXv) (q : Option Modifier) (s : State) : Host.Outcome State Fault Refusal :=
  word (cvt f.c q f.d f.a f.m 1 lat6 1 1 fun a => ofInt fmt32 a) s

/-- `f2h`: the narrow result in the low bits of D, 0 above. -/
def execF2h (f : FXv) (q : Option Modifier) (s : State) : Host.Outcome State Fault Refusal :=
  word (cvt f.c q f.d f.a f.m 1 lat6 1 1 fun a => convert fmt32 fmt16 a) s

/-- `f2bf`: the narrow result in the low bits of D, 0 above. -/
def execF2bf (f : FXv) (q : Option Modifier) (s : State) : Host.Outcome State Fault Refusal :=
  word (cvt f.c q f.d f.a f.m 1 lat6 1 1 fun a => convert fmt32 fmtBf a) s

/-- `f2e4`: the narrow result in the low bits of D, 0 above. -/
def execF2e4 (f : FXv) (q : Option Modifier) (s : State) : Host.Outcome State Fault Refusal :=
  word (cvt f.c q f.d f.a f.m 1 lat6 1 1 fun a => convert fmt32 fmtE4 a) s

/-- `f2e5`: the narrow result in the low bits of D, 0 above. -/
def execF2e5 (f : FXv) (q : Option Modifier) (s : State) : Host.Outcome State Fault Refusal :=
  word (cvt f.c q f.d f.a f.m 1 lat6 1 1 fun a => convert fmt32 fmtE5 a) s

/-- `h2f`: the selected half of a. -/
def execH2f (f : FXh) (q : Option Modifier) (s : State) : Host.Outcome State Fault Refusal :=
  word (cvt f.c q f.d f.a f.m 1 lat6 1 1 fun a => convert fmt16 fmt32 (bitsOf a (if f.s then 16 else 0) 16)) s

/-- `bf2f`: the selected half of a. -/
def execBf2f (f : FXh) (q : Option Modifier) (s : State) : Host.Outcome State Fault Refusal :=
  word (cvt f.c q f.d f.a f.m 1 lat6 1 1 fun a => convert fmtBf fmt32 (bitsOf a (if f.s then 16 else 0) 16)) s

/-- `e42f`: the selected byte of a. -/
def execE42f (f : FXe) (q : Option Modifier) (s : State) : Host.Outcome State Fault Refusal :=
  word (cvt f.c q f.d f.a f.m 1 lat6 1 1 fun a => convert fmtE4 fmt32 (bitsOf a (8 * f.s) 8)) s

/-- `e52f`: the selected byte of a. -/
def execE52f (f : FXe) (q : Option Modifier) (s : State) : Host.Outcome State Fault Refusal :=
  word (cvt f.c q f.d f.a f.m 1 lat6 1 1 fun a => convert fmtE5 fmt32 (bitsOf a (8 * f.s) 8)) s

/-- A compare into a predicate, with its flags (R126, R131). -/
def fcmpWord (d : Desc) (lat k : Nat) (r : LaneIn → Bool × BitVec 5) : Desc :=
  fpWord d lat fun l => ([(Tgt.pred k, 1#32, if (r l).1 then 1#32 else 0#32)], (r l).2)

/-- `fcmp.cc` (R126). -/
def execFcmp (f : FP) (q : Option Modifier) (s : State) : Host.Outcome State Fault Refusal :=
  word (fcmpWord { c := f.c, q := q, acc := { negA := true, negB := true, hb := true }, cls := 1
                   srcs := [{ f := f.a, mm := f.m }, { f := f.b, mm := f.n, cyc := 1 }] } lat6 f.k fun l =>
    fcompare f.p (fmt32.val (fpA fmt32 q (l.val 0))) (fmt32.val (fpB fmt32 q (l.val 1)))) s

/-- `hadd2` (Table 06.4). -/
def execHadd2 (f : FR) (q : Option Modifier) (s : State) : Host.Outcome State Fault Refusal :=
  word (pkR f q fmt16 exAdd) s

/-- `hmul2`. -/
def execHmul2 (f : FR) (q : Option Modifier) (s : State) : Host.Outcome State Fault Refusal :=
  word (pkR f q fmt16 exMul) s

/-- `hfma2`. -/
def execHfma2 (f : FRt) (q : Option Modifier) (s : State) : Host.Outcome State Fault Refusal :=
  word (pkFma f q fmt16) s

/-- `bfma2`. -/
def execBfma2 (f : FRt) (q : Option Modifier) (s : State) : Host.Outcome State Fault Refusal :=
  word (pkFma f q fmtBf) s

/-- `dadd` (R130). -/
def execDadd (f : FR) (q : Option Modifier) (s : State) : Host.Outcome State Fault Refusal :=
  word (f64R f q exAdd) s

/-- `dmul`. -/
def execDmul (f : FR) (q : Option Modifier) (s : State) : Host.Outcome State Fault Refusal :=
  word (f64R f q exMul) s

/-- `dfma`. -/
def execDfma (f : FRt) (q : Option Modifier) (s : State) : Host.Outcome State Fault Refusal :=
  word (fpWord (baseRt f q { accArith with hb := false } 3 2) lat8 fun l =>
    rndWrites f.d 2 (fpOut fmt64 q (exFma (fmt64.val (fpA fmt64 q (l.val 0))) (fmt64.val (fpB fmt64 q (l.val 1))) (fmt64.val (l.val 2))))) s

/-- `d2f` (Table 06.6). -/
def execD2f (f : FXv) (q : Option Modifier) (s : State) : Host.Outcome State Fault Refusal :=
  word (cvt f.c q f.d f.a f.m 3 lat8 1 2 fun a => convert fmt64 fmt32 a) s

/-- `f2d`: exact. -/
def execF2d (f : FXv) (q : Option Modifier) (s : State) : Host.Outcome State Fault Refusal :=
  word (cvt f.c q f.d f.a f.m 3 lat8 2 1 fun a => convert fmt32 fmt64 a) s

/-- `d2i.s`, `d2i.u` (R129). -/
def execD2i (f : FXu) (q : Option Modifier) (s : State) : Host.Outcome State Fault Refusal :=
  word (cvt f.c q f.d f.a f.m 3 lat8 1 2 fun a => toInt32 fmt64 f.u a) s

/-- `i2d.s`, `i2d.u`: exact. -/
def execI2d (f : FXu) (q : Option Modifier) (s : State) : Host.Outcome State Fault Refusal :=
  word (cvt f.c q f.d f.a f.m 3 lat8 2 1 fun a => ofInt fmt64 (if f.u then (a : Int) else sx a)) s

/-- The modifier fields of major 0x2B's arithmetic (Table 06.1). -/
def accD : Accepts := { negA := true, negB := true, scl := true }

/-- `dsubf`: the exact binary64 difference, rounded once to binary32 (R132). -/
def execDsubf (f : FDsubf) (q : Option Modifier) (s : State) : Host.Outcome State Fault Refusal :=
  word (fpWord { c := f.c, q := q, acc := accD, cls := 3, dst := some { f := f.d }
                 srcs := [{ f := pairField f.a, w := 2 }, { f := pairField f.b, w := 2, cyc := 1 }] } lat8 fun l =>
    rndWrites f.d 1 (fpOut fmt32 q (exSub (fmt64.val (fpA fmt64 q (l.val 0))) (fmt64.val (fpB fmt64 q (l.val 1)))))) s

/-- `dmin` and `dmax` (Table 06.6). -/
def dminWord (f : FDmin) (q : Option Modifier) (e : FV → FV → Exact) : Desc :=
  fpWord { c := f.c, q := q, acc := accD, cls := 3, dst := some { f := pairField f.d, w := 2 }
           srcs := [{ f := pairField f.a, w := 2 }, { f := pairField f.b, w := 2, cyc := 1 }] } lat8 fun l =>
    rndWrites (pairField f.d) 2 (fpOut fmt64 q (e (fmt64.val (fpA fmt64 q (l.val 0))) (fmt64.val (fpB fmt64 q (l.val 1)))))

/-- `dmin`. -/
def execDmin (f : FDmin) (q : Option Modifier) (s : State) : Host.Outcome State Fault Refusal := word (dminWord f q exMin) s

/-- `dmax`. -/
def execDmax (f : FDmin) (q : Option Modifier) (s : State) : Host.Outcome State Fault Refusal := word (dminWord f q exMax) s

/-- `dcmp.cc`: eq, ne, lt, le (R131). -/
def execDcmp (f : FDcmp) (q : Option Modifier) (s : State) : Host.Outcome State Fault Refusal :=
  word (fcmpWord { c := f.c, q := q, acc := { negA := true, negB := true }, cls := 3
                   srcs := [{ f := pairField f.a, w := 2 }, { f := pairField f.b, w := 2, cyc := 1 }] } lat8 f.k fun l =>
    fcompare f.p (fmt64.val (fpA fmt64 q (l.val 0))) (fmt64.val (fpB fmt64 q (l.val 1)))) s

/-- A special function: the unit's result, then one rounding of it scaled (R133). -/
def sfWord (f : FXv) (q : Option Modifier) (fn : Nat) : Desc :=
  fpWord { c := f.c, q := q, acc := { negA := true, scl := true }, cls := 2, srcs := [{ f := f.a, mm := f.m }]
           dst := some { f := f.d } } lat12 fun l =>
    let r := specialFn fn (BitVec.ofNat 32 (fpA fmt32 q (l.val 0)))
    rndWrites f.d 1 (fpOut fmt32 q { v := fmt32.val r.bits, fl := r.fl })

/-- `rcp` (Table 06.7). -/
def execRcp (f : FXv) (q : Option Modifier) (s : State) : Host.Outcome State Fault Refusal :=
  word (sfWord f q 0) s

/-- `rsq` (Table 06.7). -/
def execRsq (f : FXv) (q : Option Modifier) (s : State) : Host.Outcome State Fault Refusal :=
  word (sfWord f q 1) s

/-- `sqrt` (Table 06.7). -/
def execSqrt (f : FXv) (q : Option Modifier) (s : State) : Host.Outcome State Fault Refusal :=
  word (sfWord f q 2) s

/-- `ex2` (Table 06.7). -/
def execEx2 (f : FXv) (q : Option Modifier) (s : State) : Host.Outcome State Fault Refusal :=
  word (sfWord f q 3) s

/-- `lg2` (Table 06.7). -/
def execLg2 (f : FXv) (q : Option Modifier) (s : State) : Host.Outcome State Fault Refusal :=
  word (sfWord f q 4) s

/-- `sin` (Table 06.7). -/
def execSin (f : FXv) (q : Option Modifier) (s : State) : Host.Outcome State Fault Refusal :=
  word (sfWord f q 5) s

/-- `cos` (Table 06.7). -/
def execCos (f : FXv) (q : Option Modifier) (s : State) : Host.Outcome State Fault Refusal :=
  word (sfWord f q 6) s

/-- `tanh` (Table 06.7). -/
def execTanh (f : FXv) (q : Option Modifier) (s : State) : Host.Outcome State Fault Refusal :=
  word (sfWord f q 7) s

/-- `hmix`: the mixing hash (R135). -/
def execHmix (f : FR) (q : Option Modifier) (s : State) : Host.Outcome State Fault Refusal :=
  word { baseR f q accPlain 1 1 with
         act := fun _ => laneAct lat6 fun l =>
           (resWrites f.d 1 (hmixHash (BitVec.ofNat 32 (l.val 0)) (BitVec.ofNat 32 (l.val 1))).toNat, 0) } s

end Sys2Proof.Machine
end

