-- ==== Sys2Proof/Machine/Collective.lean ====
section
/-! DEFINITION. Collective: major 0x3D (06 R136 to R142) and the fused softmax (R143). A collective combines the lanes of
the participating set: the active lanes of the gang whose guard is true, each at its gang position. -/

namespace Sys2Proof.Machine

/-- The latency of pipe CO (R89). -/
def lat10 : Nat := 10

/-- The gang position of a lane (R136). -/
def LaneIn.pos (l : LaneIn) : Nat := l.t.tid % 64

/-- A collective word over the participating set. -/
def collWord (c : Bool) (q : Option Modifier) (srcs : List Src) (dst : Option Dst) (ill : Bool)
    (res : List LaneIn → LaneIn → List (Tgt × Word × Word)) : Desc :=
  { c := c, q := q, ill := ill, srcs := srcs, dst := dst, cls := 2, coll := true
    act := fun _ m k g ls => laneAct lat10 (fun l => (res (ons ls) l, 0)) m k g ls }

/-- A D field that may name a temporary or ZERO only (R14, R137). -/
def notPositionDst (d : Nat) : Bool := decide (d ≤ 111)

/-- The mask of positions at which a test holds. -/
def posMask (ls : List LaneIn) (p : LaneIn → Bool) : Nat := ((ls.filter p).map fun l => 2 ^ l.pos).sum

/-- `ballot`: the mask of the lanes of P with k[KA] = 1, to a temporary pair (R137). -/
def execBallot (f : FBallot) (q : Option Modifier) (s : State) : Host.Outcome State Fault Refusal :=
  word (collWord f.c q [] (some { f := f.d, w := 2 }) (notPositionDst f.d) fun ps _ =>
    resWrites f.d 2 (posMask ps fun l => l.v.pred f.k)) s

/-- A predicate result. -/
def predWrite (k : Nat) (b : Bool) : List (Tgt × Word × Word) := [(Tgt.pred k, 1#32, if b then 1#32 else 0#32)]

/-- `kgor`: the OR over P of k[KA] xor NA (R138). -/
def execKgor (f : FKg) (q : Option Modifier) (s : State) : Host.Outcome State Fault Refusal :=
  word (collWord f.c q [] none false fun ps _ => predWrite f.k (ps.any fun l => l.v.pred f.j != f.n)) s

/-- `kgand`: the AND over P of k[KA] xor NA (R138). -/
def execKgand (f : FKg) (q : Option Modifier) (s : State) : Host.Outcome State Fault Refusal :=
  word (collWord f.c q [] none false fun ps _ => predWrite f.k (ps.all fun l => l.v.pred f.j != f.n)) s

/-- The value a lane receives from position `src`, if a lane of P stands there (R139). -/
def received (ps : List LaneIn) (src : Int) (d : Nat) : List (Tgt × Word × Word) :=
  match ps.find? fun l => (l.pos : Int) == src with
  | some l => resWrites d 1 (l.val 0)
  | none => []

/-- `xfer.idx`: from the position in the lane's own temporary (R139). -/
def execXferIdx (f : FXidx) (q : Option Modifier) (s : State) : Host.Outcome State Fault Refusal :=
  word (collWord f.c q [{ f := f.a }, { f := 112 + f.t, cyc := 1 }] (some { f := f.d }) false fun ps l =>
    received ps (bitsOf (l.val 1) 0 6) f.d) s

/-- `xfer.rot`: from (p + n) mod 64 (R139). -/
def execXferRot (f : FXfer) (q : Option Modifier) (s : State) : Host.Outcome State Fault Refusal :=
  word (collWord f.c q [{ f := f.a }] (some { f := f.d }) false fun ps l => received ps ((l.pos + f.i) % 64 : Nat) f.d) s

/-- `xfer.sh`: from p - n, n signed (R139). -/
def execXferSh (f : FXfer) (q : Option Modifier) (s : State) : Host.Outcome State Fault Refusal :=
  word (collWord f.c q [{ f := f.a }] (some { f := f.d }) false fun ps l => received ps ((l.pos : Int) - sext f.i 6) f.d) s

/-- `xfer.flip`: from p xor m (R139). -/
def execXferFlip (f : FXfer) (q : Option Modifier) (s : State) : Host.Outcome State Fault Refusal :=
  word (collWord f.c q [{ f := f.a }] (some { f := f.d }) false fun ps l => received ps (l.pos ^^^ f.i : Nat) f.d) s

/-- A reduction to every lane of P. -/
def gredWord (f : FXv) (q : Option Modifier) (v : List LaneIn → Nat) : Desc :=
  collWord f.c q [{ f := f.a, mm := f.m }] (some { f := f.d }) false fun ps _ => resWrites f.d 1 (v ps)

/-- The minimum of a non-empty list. -/
def minInt : List Int → Int
  | [] => 0
  | [x] => x
  | x :: xs => min x (minInt xs)

/-- The maximum of a non-empty list. -/
def maxInt : List Int → Int
  | [] => 0
  | [x] => x
  | x :: xs => max x (maxInt xs)

/-- `gred.add`: the sum modulo 2^32 (R140). -/
def execGredAdd (f : FXv) (q : Option Modifier) (s : State) : Host.Outcome State Fault Refusal :=
  word (gredWord f q fun ps => (ps.map fun l => l.val 0).sum) s

/-- `gred.min`: the signed minimum (R140). -/
def execGredMin (f : FXv) (q : Option Modifier) (s : State) : Host.Outcome State Fault Refusal :=
  word (gredWord f q fun ps => bitsI (minInt (ps.map fun l => sx (l.val 0))) 32) s

/-- `gred.max`: the signed maximum (R140). -/
def execGredMax (f : FXv) (q : Option Modifier) (s : State) : Host.Outcome State Fault Refusal :=
  word (gredWord f q fun ps => bitsI (maxInt (ps.map fun l => sx (l.val 0))) 32) s

/-- One level of the tree of R60, with the flags of its steps. -/
def treeLevel (op : Word → Word → Word × BitVec 5) : List Word → List Word × BitVec 5
  | a :: b :: rest =>
    let r := op a b
    let t := treeLevel op rest
    (r.1 :: t.1, r.2 ||| t.2)
  | l => (l, 0)

/-- `n` levels of the tree. -/
def treeLevels (op : Word → Word → Word × BitVec 5) : Nat → List Word → List Word × BitVec 5
  | 0, l => (l, 0)
  | n + 1, l =>
    let t := treeLevel op l
    let r := treeLevels op n t.1
    (r.1, t.2 ||| r.2)

/-- The tree of R60 over the 64 gang positions; an absent position contributes +0. -/
def treeReduce (op : Word → Word → Word × BitVec 5) (ps : List LaneIn) (v : LaneIn → Word) : Word × BitVec 5 :=
  let row := (List.range 64).map fun p => match ps.find? fun l => l.pos == p with
    | some l => v l
    | none => 0
  let r := treeLevels op 6 row
  (r.1.headD 0, r.2)

/-- The lanes of a gang at a word whose operands read well. -/
def gangLanes (d : Desc) (m : Mach) (k : Gang) (g : Group) : List LaneIn :=
  let now := issueCycle m k g
  (activeLanes k g).filterMap fun t => (d.opr m k g now t).vals?.map (d.laneIn now t)

/-- A floating-point reduction: every lane of P receives the value and the flags, and traps FPX with them (R60, R140). -/
def fredWord (f : FXv) (q : Option Modifier) (op : Word → Word → Word × BitVec 5) : Desc :=
  let base := collWord f.c q [{ f := f.a, mm := f.m }] (some { f := f.d }) false fun _ _ => []
  let red (ps : List LaneIn) := treeReduce op ps fun l => BitVec.ofNat 32 (l.val 0)
  { base with
    exe := fun _ m k g _ => fpxOf g (red (ons (gangLanes base m k g))).2
    act := fun _ m k g ls => laneAct lat10 (fun _ => (resWrites f.d 1 (red (ons ls)).1.toNat, (red (ons ls)).2)) m k g ls }

/-- `gred.fadd` (R140). -/
def execGredFadd (f : FXv) (q : Option Modifier) (s : State) : Host.Outcome State Fault Refusal := word (fredWord f q f32Add) s

/-- `gred.fmax` (R140). -/
def execGredFmax (f : FXv) (q : Option Modifier) (s : State) : Host.Outcome State Fault Refusal := word (fredWord f q f32Max) s

/-- `gscan.add`: the sum over the lanes of P at positions up to, or below, the lane's own (R140). -/
def execGscanAdd (f : FScan) (q : Option Modifier) (s : State) : Host.Outcome State Fault Refusal :=
  word (collWord f.c q [{ f := f.a, mm := f.m }] (some { f := f.d }) false fun ps l =>
    resWrites f.d 1 ((ps.filter fun x => if f.x then decide (x.pos < l.pos) else decide (x.pos ≤ l.pos)).map fun x => x.val 0).sum) s

/-- `gpos`: the number of lanes of P at lower positions (R137). -/
def execGpos (f : FGpos) (q : Option Modifier) (s : State) : Host.Outcome State Fault Refusal :=
  word (collWord f.c q [] (some { f := f.d }) (notPositionDst f.d) fun ps l =>
    resWrites f.d 1 (ps.filter fun x => decide (x.pos < l.pos)).length) s

/-- `gsize`: the number of lanes of P (R137). -/
def execGsize (f : FGpos) (q : Option Modifier) (s : State) : Host.Outcome State Fault Refusal :=
  word (collWord f.c q [] (some { f := f.d }) (notPositionDst f.d) fun ps _ => resWrites f.d 1 ps.length) s

/-- `gfirst`: 1 in the lane of P at the lowest position, 0 in the others (R137). -/
def execGfirst (f : FGfirst) (q : Option Modifier) (s : State) : Host.Outcome State Fault Refusal :=
  word (collWord f.c q [] none false fun ps l => predWrite f.k (ps.all fun x => decide (l.pos ≤ x.pos))) s

/-- A lane inserted by ascending thread id. -/
def insertLane (l : LaneIn) : List LaneIn → List LaneIn
  | [] => [l]
  | x :: xs => if l.t.tid < x.t.tid then l :: x :: xs else x :: insertLane l xs

/-- The lanes in ascending thread id, which is ascending gang position. -/
def sortLanes (ps : List LaneIn) : List LaneIn := ps.foldl (fun a l => insertLane l a) []

/-- The weight of a lane: a negative or NaN weight counts as +0 (R141). -/
def pickWeight (a : Nat) : Word :=
  if bitOf a 31 || (fmt32.val a).isNan then 0 else BitVec.ofNat 32 a

/-- Inclusive prefix sums of the weights, each rounded (R141). -/
def prefixes : Word → List LaneIn → List (LaneIn × Word × Word)
  | _, [] => []
  | acc, l :: ls =>
    let w := pickWeight (l.val 0)
    let p := (f32Add acc w).1
    (l, w, p) :: prefixes p ls

/-- The thread `pick` draws (R141). -/
def pickResult (ps : List LaneIn) (u : Word) : Word :=
  let rows := prefixes 0 (sortLanes ps)
  let total := (rows.getLast?.map fun r => r.2.2).getD 0
  match fmt32.val total.toNat with
  | .fin _ v =>
    if v.n = 0 then 0xFFFFFFFF#32
    else
      let target := fmt32.val (roundTo fmt32 .ne false ((Q.ofInt u.toNat).mul v |>.scale (-32))).bits
      match rows.find? fun r => target.below (fmt32.val r.2.2.toNat) with
      | some r => BitVec.ofNat 32 r.1.t.tid
      | none => match (rows.filter fun r => r.2.1 != 0).getLast? with
        | some r => BitVec.ofNat 32 r.1.t.tid
        | none => 0xFFFFFFFF#32
  | _ => match rows.find? fun r => r.2.2 == total with
    | some r => BitVec.ofNat 32 r.1.t.tid
    | none => 0xFFFFFFFF#32

/-- `pick`: the drawn thread id to every lane of P; no flag (R141). -/
def execPick (f : FXs) (q : Option Modifier) (s : State) : Host.Outcome State Fault Refusal :=
  word { collWord f.c q [{ f := f.a }] (some { f := f.d }) false (fun _ _ => []) with
         act := fun _ m k g ls =>
           let u := g.uniView (issueCycle m k g) f.s
           laneAct lat10 (fun _ => (resWrites f.d 1 (pickResult (ons ls) u).toNat, 0)) m k g ls } s

/-! ### Fused softmax -/

/-- The four words of the pattern of R143. -/
structure Fused where
  x : FXv
  sub : FR
  ex : FXv
  sum : FXv
  deriving DecidableEq, Repr

/-- The pattern at a slot of a run: no word chained, none followed by a modifier (R143). The four words match in their register fields and in H, which the
pattern does not show; their miss-mode bits may be any (DESIGN CHOICE, log entry 57). -/
def fusedAt (run : List Word) (slot : Nat) : Option Fused :=
  let at' (i : Nat) := (run[slot + i]?).bind fun w => decodeWord w.toNat none
  let tail := ((run[slot + 4]?).map fun w => bitsAt w.toNat 25 6 == 0x3F && (slot + 4) % 3 != 0).getD false
  match at' 0, at' 1, at' 2, at' 3 with
  | some (.gredFmax a none), some (.fsub b none), some (.ex2 c none), some (.gredFadd e none) =>
    if !a.c && !b.c && !c.c && !e.c && !tail && !b.h && b.a == a.a && b.b == a.d && a.d != a.a && c.a == b.d && e.a == c.d
    then some { x := a, sub := b, ex := c, sum := e } else none
  | _, _, _, _ => none

/-- What a lane reads back from a destination field just written: ZERO reads 0. -/
def readBack (d : Nat) (v : Word) : Word := if d = 123 then 0 else v

/-- The values and flags of the four words in a lane. -/
structure FusedVals where
  m : Word
  y : Rnd
  z : Rnd
  s : Word
  f0 : BitVec 5
  f3 : BitVec 5
  deriving DecidableEq, Repr

/-- `fsub` in a lane, from the reduced maximum. -/
def fusedY (f : Fused) (mx : Word) (l : LaneIn) : Rnd :=
  fpOut fmt32 none (exSub (fmt32.val (l.val 0)) (fmt32.val (readBack f.x.d mx).toNat))

/-- `ex2` in a lane. -/
def fusedZ (f : Fused) (mx : Word) (l : LaneIn) : Rnd := specialFn 3 (readBack f.sub.d (BitVec.ofNat 32 (fusedY f mx l).bits))

/-- All four results of a lane of the gang `ps`. -/
def fusedVals (f : Fused) (ps : List LaneIn) (l : LaneIn) : FusedVals :=
  let mx := treeReduce f32Max ps fun l => BitVec.ofNat 32 (l.val 0)
  let sm := treeReduce f32Add ps fun l => readBack f.ex.d (BitVec.ofNat 32 (fusedZ f mx.1 l).bits)
  { m := mx.1, y := fusedY f mx.1 l, z := fusedZ f mx.1 l, s := sm.1, f0 := mx.2, f3 := sm.2 }

/-- The word, from 1 to 4, at which a lane traps, with the trap (R143); word 1's operand traps are the operand phase's. -/
def fusedTrap (f : Fused) (ps : List LaneIn) (k : Gang) (g : Group) (now : Nat) (l : LaneIn) : Option (Nat × Cause × Nat) :=
  let v := fusedVals f ps l
  let dst (i d : Nat) : Option (Nat × Cause × Nat) :=
    if Dst.bad { f := d } then some (i, .illegal, 0) else (chkDst g.acquired { f := d }).map fun n => (i, .regrange, n)
  let fpx (i : Nat) (fl : BitVec 5) : Option (Nat × Cause × Nat) := (fpxOf g fl).map fun x => (i, x.1, x.2)
  let src2 : Option (Nat × Cause × Nat) := match rdOpd g.acquired (k.slot + 1) (k.slot + 1) now l.t.c { f := f.x.a, mm := f.sub.m } with
    | .trap c a => some (2, c, a)
    | _ => none
  (fpx 1 v.f0).orElse fun _ => (src2.orElse fun _ => dst 2 f.sub.d).orElse fun _ => (fpx 2 v.y.fl).orElse fun _ =>
    (dst 3 f.ex.d).orElse fun _ => (fpx 3 v.z.fl).orElse fun _ => (dst 4 f.sum.d).orElse fun _ => fpx 4 v.f3

/-- The base of the fused word. -/
def fusedBase (f : Fused) : Desc :=
  { c := false, srcs := [{ f := f.x.a, mm := f.x.m }], dst := some { f := f.x.d }, cls := 2, coll := true, more := 3
    dyn := fun _ _ => [f.sub.d, f.ex.d, f.sum.d].filter fun d => decide (d ≤ 111) }

/-- The least word at which any lane traps; 5 for none. -/
def fusedStop (f : Fused) (ps : List LaneIn) (k : Gang) (g : Group) (now : Nat) : Nat :=
  ps.foldl (fun n l => match fusedTrap f ps k g now l with | some x => min n x.1 | none => n) 5

/-- The flags a lane raised in the words before word `n`. -/
def fusedFlags (f : Fused) (ps : List LaneIn) (n : Nat) (l : LaneIn) : BitVec 5 :=
  let v := fusedVals f ps l
  (if 1 < n then v.f0 else 0) ||| (if 2 < n then v.y.fl else 0) ||| (if 3 < n then v.z.fl else 0) ||| (if 4 < n then v.f3 else 0)

/-- The fused word (R143): its four destinations land 38 cycles after issue; a trap of any of the four is reported at the
slot of `gred.fmax`. -/
def fusedDesc (f : Fused) : Desc :=
  { fusedBase f with
    exe := fun _ m k g l =>
      let now := issueCycle m k g
      let ps := gangLanes (fusedBase f) m k g
      match fusedTrap f ps k g now l with
      | some x => if x.1 = fusedStop f ps k g now then some (x.2.1, x.2.2) else none
      | none => none
    act := fun _ m k g ls => laneAct 38 (fun l =>
      let v := fusedVals f ls l
      (resWrites f.x.d 1 v.m.toNat ++ resWrites f.sub.d 1 v.y.bits ++ resWrites f.ex.d 1 v.z.bits ++ resWrites f.sum.d 1 v.s.toNat,
        fusedFlags f ls 5 l)) m k g ls }

/-- FUSED_SOFTMAX: the pattern at the gang's slot issues as one operation; where it traps, every lane keeps the flags it
raised in the words before (R143). -/
def execFusedSoftmax (s : State) : Host.Outcome State Fault Refusal :=
  onMach (fun cfg m => match m.curGang with
    | none => m
    | some (k, g) => match fusedAt k.run k.slot with
      | none => m
      | some f =>
        match (fusedDesc f).verdict cfg m k g with
        | .go ls tr =>
          if tr.isEmpty then runWord (fusedDesc f) cfg m
          else
            let n := fusedStop f ls k g (issueCycle m k g)
            let r := runWord (fusedDesc f) cfg m
            r.mapLanes k.gid ls fun l t => { t with c := { t.c with fpstat := t.c.fpstat ||| fusedFlags f ls n l } }
        | _ => runWord (fusedDesc f) cfg m) s

end Sys2Proof.Machine
end

