-- ==== Sys2Proof/Machine/Texel.lean ====
section
/-! DEFINITION. Texel: the layout of surfaces and the placement of their blocks on the twin (12 R264 to R271), surface handles (08 R191), and the texels
that a surface access touches (08 R192, R193). -/

namespace Sys2Proof.Machine

/-! ### Layout -/

/-- Texel bytes of a format (Table 08.6). -/
def texelBytes (fmt : Nat) : Nat :=
  match fmt with
  | 1 => 8 | 2 => 16 | 3 => 8 | 4 => 8 | 7 => 2 | _ => 4

/-- Registers `suld` writes (Table 08.6). -/
def texelRegs (fmt : Nat) : Nat :=
  match fmt with
  | 1 => 2 | 2 => 4 | 3 => 2 | 4 => 2 | _ => 1

/-- Channels of a format (Table 12.2). -/
def texelChannels (fmt : Nat) : Nat :=
  match fmt with
  | 0 => 1 | 1 => 2 | 7 => 1 | 8 => 1 | _ => 4

/-- Blocks of a row, rows of blocks, blocks and planes of a surface (R269, R276). -/
def Surf.bw (s : Surf) : Nat := ceilDiv s.width 4
def Surf.bh (s : Surf) : Nat := ceilDiv s.height 4
def Surf.blocks (s : Surf) : Nat := (s.layers + 1) * s.bw * s.bh
def Surf.planes (s : Surf) : Nat := max 1 (texelBytes s.fmt / 4)

/-- Bytes of a resident block. -/
def Surf.blockBytes (s : Surf) : Nat := 16 * texelBytes s.fmt

/-- The block of a texel (R271). -/
def Surf.block (s : Surf) (x y l : Nat) : Nat := (l * s.bh + y / 4) * s.bw + x / 4

/-- Coordinates inside the surface. -/
def Surf.inside (s : Surf) (x y l : Nat) : Bool := decide (x < s.width) && decide (y < s.height) && decide (l ≤ s.layers)

/-- The key in `fmem` of block `b`. -/
def Surf.blockKey (s : Surf) (b : Nat) : Nat := (s.vf * 65536 + s.idx) * 2 ^ 40 + b * 256

/-- The key of a texel. -/
def Surf.key (s : Surf) (x y l : Nat) : Nat := s.blockKey (s.block x y l) + (y % 4 * 4 + x % 4) * 16

/-- The bytes of a texel that is resident. -/
def Mach.texel (m : Mach) (s : Surf) (x y l : Nat) : Nat := readN m.fmem (s.key x y l) (texelBytes s.fmt)

/-- Write a texel of a resident block. -/
def Mach.setTexel (m : Mach) (s : Surf) (x y l v : Nat) : Mach :=
  { m with fmem := writeN m.fmem (s.key x y l) (texelBytes s.fmt) v }

/-- The state of a block in the block state map: 0 resident, 1 spilled, 2 spilling, 3 refilling (R277). -/
def Surf.blockState (s : Surf) (b : Nat) : Nat := SMap.get 0 s.spilled b

/-- Blocks in frames: those that are not spilled; one being spilled frees its frame at the end, one being refilled has been given it (R273, R277). -/
def Surf.resBlocks (s : Surf) : Nat := s.blocks - (s.spilled.filter fun e => e.2 == 1).length

/-- Resident bytes (R269). -/
def Surf.resBytes (s : Surf) : Nat := s.resBlocks * s.blockBytes

/-- An access to a block waits: it is not resident (R277). -/
def Surf.away (s : Surf) (b : Nat) : Bool := s.blockState b != 0

/-- The square of a block: (sx, sy, layer). -/
def Surf.square (s : Surf) (b : Nat) : Nat × Nat × Nat := (b % s.bw / 2, b / s.bw % s.bh / 2, b / (s.bw * s.bh))

/-- The number of a square, ascending with (layer, sy, sx). -/
def Surf.squareNo (s : Surf) (b : Nat) : Nat :=
  let q := s.square b
  (q.2.2 * ceilDiv s.height 8 + q.2.1) * ceilDiv s.width 8 + q.1

/-- The next tower from `t` upward, modulo 48, that is not retired (R270). -/
def Mach.upTower (m : Mach) (col t : Nat) : Nat → Nat
  | 0 => t % 48
  | n + 1 => if m.retired col (t % 48) then m.upTower col (t + 1) n else t % 48

/-- Column and tower of a block (R270). -/
def Mach.placeBlock (m : Mach) (s : Surf) (b : Nat) : Nat × Nat :=
  let q := s.square b
  let col := 2 * s.twin + (q.1 + q.2.1) % 2
  (col, m.upTower col (q.1 + 13 * q.2.1 + 29 * q.2.2 + s.seed) 48)

/-- The tower that holds a column's counter area: the highest that is not retired (R264). -/
def Mach.counterTower (m : Mach) (col : Nat) : Nat :=
  ((List.range 48).reverse.find? fun t => !m.retired col t).getD 47

/-- Frame bytes of a tower under a partition's TSPLIT (R264, R265). -/
def frameBytes (cfg : Cfg) (m : Mach) (vf col t : Nat) : Nat :=
  (cfg.part vf).tsSurf * 8 * 2 ^ 20 - (if m.counterTower col = t then 256 * 1024 else 0)

/-- The data bank of its tower that holds a block's frame: not architectural (R265; log entry 12). -/
def Surf.frameBank (s : Surf) (b : Nat) : Nat := Config.freeBits (2 ^ 128 + s.blockKey b) % 32

/-- A resident block's bank is locked by a job card (R260). -/
def Mach.frameLocked (m : Mach) (s : Surf) (b : Nat) : Bool :=
  m.bankLocked (m.placeBlock s b).1 (m.placeBlock s b).2 (s.frameBank b)

/-- A resident block's bank cannot be served (R354). -/
def Mach.frameLost (m : Mach) (s : Surf) (b : Nat) : Bool :=
  m.bankLost (m.placeBlock s b).1 (m.placeBlock s b).2 (s.frameBank b)

/-- Bytes of the frames of a surface's blocks that lie in a tower. -/
def Mach.inTower (m : Mach) (s : Surf) (col t : Nat) : Nat :=
  ((List.range s.blocks).filter fun b => s.blockState b != 1 && m.placeBlock s b == (col, t)).length * s.blockBytes

/-! ### Handles -/

/-- What a handle names (R191). -/
inductive HandleRes where
  | outside
  | stale
  | ok (s : Surf)
  deriving DecidableEq, Repr

/-- Resolve a handle: INDEX outside the table, free or stale, or a surface (R191). -/
def Mach.handle (m : Mach) (vf : Nat) (h : Word) : HandleRes :=
  let i := bitsOf h.toNat 0 16
  if (m.vf vf).surfcnt ≤ i then .outside
  else match m.surfs.find? fun s => s.vf == vf && s.idx == i && s.tag == bitsOf h.toNat 16 16 with
    | some s => .ok s
    | none => .stale

/-- The surface a handle names, if any. -/
def Mach.surf? (m : Mach) (vf : Nat) (h : Word) : Option Surf :=
  match m.handle vf h with
  | .ok s => some s
  | _ => none

/-- The handle of a surface. -/
def Surf.handle (s : Surf) : Word := BitVec.ofNat 32 (s.tag * 65536 + s.idx)

/-- A texel coordinate clamped to the surface. -/
def clampTexel (x0 i n : Int) : Nat := (clampI (x0 + i) 0 (n - 1)).toNat

/-- floor and fraction in 256ths of a texture coordinate along an extent (R193); NaN counts as 0. -/
def texCoord (u : Word) (n : Nat) : Int × Nat :=
  match fmt32.val u.toNat with
  | .inf neg => (if neg then -1 else (n : Int), 0)
  | v =>
    let q := match v with
      | .fin _ q => q
      | _ => Q.ofInt 0
    let x := (q.mul (Q.ofInt n)).sub (Q.two (-1))
    let x0 := x.floor
    let f : Int := ((x.sub (Q.ofInt x0)).scale 8).roundNe
    if f = 256 then (x0 + 1, 0) else (x0, f.toNat)

/-- The layer of a texture read: `texl` rounds ne and clamps; the others read layer 0 (R193). A NaN layer is a free value, the same for one pattern (log
entry 1). -/
def texLayer (s : Surf) (kind : Nat) (l : Word) : Nat :=
  if kind ≠ 1 then 0
  else match fmt32.val l.toNat with
    | .nan _ => Config.freeBits (2 ^ 129 + l.toNat) % (s.layers + 1)
    | .inf neg => if neg then 0 else s.layers
    | .fin _ q => (clampI q.roundNe 0 s.layers).toNat

/-- The four texels of a texture read, as coordinates. -/
def texTaps (s : Surf) (kind : Nat) (u v l : Word) : List (Nat × Nat × Nat) :=
  let x := texCoord u s.width
  let y := texCoord v s.height
  let la := texLayer s kind l
  [(0, 0), (1, 0), (0, 1), (1, 1)].map fun (p : Int × Int) =>
    (clampTexel x.1 p.1 s.width, clampTexel y.1 p.2 s.height, la)

/-- The surface of a queued surface access, and the texels it touches. -/
def accTexels (m : Mach) (vf : Nat) (a : Acc) : Option (Surf × List (Nat × Nat × Nat)) :=
  match a.op with
  | .suld h x y l => (m.surf? vf h).map fun s => (s, if s.inside x y l then [(x, y, l)] else [])
  | .sust h x y l _ => (m.surf? vf h).map fun s => (s, if s.inside x y l then [(x, y, l)] else [])
  | .tex k h u v l => (m.surf? vf h).map fun s => (s, texTaps s k u v l)
  | _ => none

/-- The blocks a queued surface access touches. -/
def accBlocks (m : Mach) (vf : Nat) (a : Acc) : Option (Surf × List Nat) :=
  (accTexels m vf a).map fun x => (x.1, x.2.map fun t => x.1.block t.1 t.2.1 t.2.2)

/-- Two surface accesses of a function touch one texel (R245). -/
def texelsMeet (m : Mach) (vf : Nat) (a b : Acc) : Bool :=
  match accTexels m vf a, accTexels m vf b with
  | some x, some y => x.1.idx == y.1.idx && x.2.any fun t => y.2.contains t
  | _, _ => false

end Sys2Proof.Machine
end

