-- ==== Sys2Proof/Machine/Memory.lean ====
section
/-! DEFINITION. Memory: addresses and checks (07 R144, R145), queued accesses and how each is performed at its place (11
R245, R249), and majors 0x2E to 0x33, cache maintenance and prefetch. A store is performed when it issues or later, as a
free choice decides; a long-latency access is always performed later, by LOAD_PERFORMED. -/

namespace Sys2Proof.Machine

/-! ### Addresses -/

/-- The scratchpad aperture (R144). -/
def apertureBase : Nat := 0x1FFFFFFFF800000
def apertureEnd : Nat := 0x200000000000000

/-- An address in the aperture. -/
def inAperture (a : Int) : Bool := decide ((apertureBase : Int) ≤ a) && decide (a < apertureEnd)

/-- The path and the offset a global address takes. -/
def placeOf (a : Int) : Path × Nat := if inAperture a then (.scr, (a - apertureBase).toNat) else (.glob, a.toNat)

/-- The checks of a global access (R144, R145): ALIGN, SPACE in the aperture, XLATE above 57 bits. -/
def globCheck (g : Group) (a : Int) (n : Nat) : Option (Cause × Nat) :=
  if inAperture a then scrCheck g (a - apertureBase) n (min n 4) a.toNat
  else if a % (n : Int) ≠ 0 then some (.align, bitsI a 57)
  else if a < 0 ∨ (2 ^ 57 : Nat) ≤ a then some (.xlate, bitsI a 57)
  else none

/-- The checks of a tower-direct access (R144, R145). -/
def towCheck (cfg : Cfg) (m : Mach) (g : Group) (tower : Nat) (off : Int) (n : Nat) : Option (Cause × Nat) :=
  let arg := bitsI ((tower * 2 ^ 32 : Nat) + off) 64
  if off % (min n 4 : Nat) ≠ 0 then some (.align, arg)
  else if 47 < tower ∨ m.retired g.column tower ∨ off < 0 ∨ ((cfg.part g.env.vf).tsTdir * 8 * 2 ^ 20 : Int) < off + n then
    some (.space, arg)
  else none

/-- DATALOSS where a bank of the access cannot be served (R146, R354). -/
def lossCheck (m : Mach) (g : Group) (p : Path) (tower off n : Nat) : Option (Cause × Nat) :=
  let t := match p with
    | .tow => tower
    | _ => g.core
  match p with
  | .glob => none
  | .surf => none
  | _ => if m.lostAt g.column t off n then some (.dataloss, 0) else none

/-! ### Queued accesses -/

/-- An acquiring access. -/
def Acc.isAcq (a : Acc) : Bool := a.ord == 1 || a.ord == 3

/-- A releasing access. -/
def Acc.isRel (a : Acc) : Bool := a.ord == 2 || a.ord == 3

/-- Byte ranges that meet. -/
def rangesMeet (a n b k : Nat) : Bool := decide (a < b + k) && decide (b < a + n)

/-- Two global addresses name one physical page, as far as the cached translations tell; where one is not cached they may (R245). -/
def Mach.samePage (m : Mach) (vf a b : Nat) : Bool :=
  match m.tlbHit vf a false false, m.tlbHit vf b false false with
  | some x, some y => x / 65536 == y / 65536
  | _, _ => true

/-- Accesses of one group that name one location (R245): virtual aliases of a physical byte are one location, and share their offset in a page;
tower-direct accesses are compared by word (R155). -/
def Mach.meets (m : Mach) (g : Group) (a b : Acc) : Bool :=
  match a.path, b.path with
  | .glob, .glob => rangesMeet a.addr a.size b.addr b.size
      || (rangesMeet (a.addr % 65536) a.size (b.addr % 65536) b.size && a.addr / 65536 != b.addr / 65536 && m.samePage g.env.vf a.addr b.addr)
  | .scr, .scr => rangesMeet a.addr a.size b.addr b.size
  | .tow, .tow => a.tow == b.tow && rangesMeet (a.addr / 4) ((a.size + 3) / 4) (b.addr / 4) ((b.size + 3) / 4)
  | .surf, .surf => texelsMeet m g.env.vf a b
  | _, _ => false

/-- A store. -/
def Acc.isStore (a : Acc) : Bool :=
  match a.op with
  | .store _ _ => true
  | .sust _ _ _ _ _ => true
  | .scStore _ _ => true
  | _ => false

/-- The scratchpad port serves accesses in issue order, whatever their threads (R306); those of a frozen master are passed over. -/
def Mach.portHolds (m : Mach) (e a : Acc) : Bool := e.port && a.port && !(m.group? e.gid).any (·.frozen)

/-- Program order (Table 11.2): whether the earlier access `e` must be performed before `a`, of group `g`. Buffered stores are performed in program order
(R263), and the lanes of one store instruction write in ascending position (R150). -/
def Mach.holds (m : Mach) (g : Group) (e a : Acc) : Bool :=
  !e.isValue && !a.isValue && ((e.gid == a.gid && e.tid == a.tid
    && ((e.isAcq && a.path != .tow) || (a.isRel && e.path != .tow) || (e.commit && a.commit) || m.meets g e a))
  || (e.gid == a.gid && e.issued == a.issued && e.isStore && a.isStore && m.meets g e a))

/-- The place of an access is not held: no locked bank (R260), no TSPLIT flush (R326). -/
def Mach.placeFree (m : Mach) (g : Group) (a : Acc) : Bool :=
  match a.path with
  | .scr => !m.lockedAt g.column g.core a.addr a.size
  | .tow => !m.lockedAt g.column a.tow a.addr a.size && (m.vf g.env.vf).tsplitst != 1
  | .surf => (m.vf g.env.vf).tsplitst != 1
  | .glob => true

/-- Queued accesses of a thread. -/
def Mach.accsOf (m : Mach) (g : Group) (tid : Nat) : List Acc :=
  (m.core g.column g.core).accs.filter fun a => a.gid == g.gid && a.tid == tid

/-- An acquire of the thread, a `qget` among them, is not performed yet: no later access issues (R153, R178). -/
def acqPending (m : Mach) (g : Group) (tid : Nat) : Bool := (m.accsOf g tid).any Acc.isAcq || g.qwaits.any fun w => w.tid == tid

/-- Scratchpad, global or surface accesses of the thread are still to be performed. -/
def accPending (m : Mach) (g : Group) (tid : Nat) : Bool := (m.accsOf g tid).any fun a => a.path != .tow && !a.isValue

/-- Tower-direct accesses of the thread are still to be performed. -/
def towPending (m : Mach) (g : Group) (tid : Nat) : Bool := (m.accsOf g tid).any fun a => a.path == .tow

/-- A scratchpad access of the thread that meets `n` bytes at a window offset is still to be performed (R150). -/
def scrPending (m : Mach) (g : Group) (tid off n : Nat) : Bool :=
  (m.accsOf g tid).any fun a => a.path == .scr && !a.isValue && rangesMeet a.addr a.size off n

/-- A global access of the thread to `n` bytes at an address, under whatever name, is still to be performed (R150). -/
def globPending (m : Mach) (g : Group) (tid addr n : Nat) : Bool :=
  (m.accsOf g tid).any fun a => a.path == .glob && !a.isValue && (match a.op with | .touch _ => false | _ => true)
    && m.meets g a { gid := g.gid, tid := tid, op := .load n false, path := .glob, addr := addr, size := n }

/-- A thread has 16 long-latency words outstanding (R340). -/
def longFull (m : Mach) (g : Group) (l : LaneIn) : Bool :=
  decide (16 ≤ ((m.accsOf g l.t.tid).filter fun a => !a.isStore).length + (g.qwaits.filter fun w => w.tid == l.t.tid).length)

/-- A memory word waits at issue: for an acquire, or, when long-latency, for one of 16 places (R340). -/
def memBusy (long : Bool) (m : Mach) (g : Group) (l : LaneIn) : Bool := acqPending m g l.t.tid || (long && longFull m g l)

/-! ### The scratchpad port -/

/-- Lanes of a sub-group: an access group of 32 lanes, half of one for 8 bytes, a quarter for 16 (R154). -/
def subgroup (size : Nat) : Nat := if size ≤ 4 then 32 else if size ≤ 8 then 16 else 8

/-- The scratchpad words of an access. -/
def Acc.words (a : Acc) : List Nat := (List.range ((a.size + 3) / 4)).map fun i => a.addr / 4 + i

/-- Port cycles of a sub-group's words: as many passes as the most distinct words of one bank, and one beat more for each pass that touches a bank
whose via group is marked in SLOWMAP (R154, R306). -/
def passCycles (slow : BitVec 10) (ws : List Nat) : Nat :=
  let counts := (List.range 32).map fun b => ((ws.filter fun w => w % 32 == b).eraseDups).length
  let passes := counts.foldl max 0
  passes + ((List.range passes).filter fun j => (List.range 32).any fun b => slow.getLsbD (b % 8) && decide (j < counts.getD b 0)).length

/-- Port cycles of the scratchpad accesses of one word: the sum over its sub-groups, in ascending gang position (R154, R306). -/
def portCycles (slow : BitVec 10) (as : List Acc) : Nat :=
  ((List.range 8).map fun i => passCycles slow ((as.filter fun a => a.tid % 64 / subgroup a.size == i).flatMap Acc.words)).sum

/-- The scratchpad accesses of a word that issues in a cycle take the port from two cycles later on, or from when it is idle, in issue order: its last
pass ends `due` - 5, and a load sets its registers full in `due` (R306). -/
def Mach.usePort (m : Mach) (g : Group) (cycle : Nat) (as : List Acc) : Mach × List Acc :=
  let p := portCycles (m.slow g.column g.core) (as.filter fun a => a.path == .scr)
  let start := max (cycle + 2) (m.core g.column g.core).scrFree
  if p = 0 then (m, as)
  else
    (m.onCore g.column g.core fun c => { c with scrFree := start + p }
    , as.map fun a => if a.path == .scr then { a with port := true, due := start + p + 4 } else a)

/-- Where the word that issues stands, and its words (Table 18.7). -/
def Acc.ofWord (a : Acc) (k : Gang) : Acc :=
  let w := (k.run.getD k.slot 0).toNat
  let x := (k.run.getD (k.slot + 1) 0).toNat
  { a with pc := k.pc, slot := k.slot, iw := w, im := if takesModifier w && bitsAt x 25 6 == 0x3F then x else 0 }

/-- Queue accesses of the word that issues. -/
def Mach.queueAccs (m : Mach) (g : Group) (as : List Acc) : Mach :=
  let as := match m.cur.bind m.gang? with
    | some k => as.map fun (a : Acc) => a.ofWord k
    | none => as
  m.onCore g.column g.core fun c => { c with accs := c.accs ++ as.map fun a => { a with since := m.etime } }

/-- Destinations become empty at issue (R12), after every older write to them (R76). -/
def Thread.emptyDsts (t : Thread) (rs : List Nat) : Thread :=
  let c := t.c.landTo fun x => x.isLane rs
  { t with c := { c with notFull := c.notFull ||| regMask rs } }


/-! ### Performing an access -/

/-- The new word of an atomic (Table 07.5), by its number: 0 add, 1 min.s, 2 min.u, 3 max.s, 4 max.u, 5 and, 6 or, 7 xor,
8 exch, 9 cas, 10 rinc, 11 rdec, 12 fadd. -/
def atomNew (op : Nat) (old b c : Word) : Word :=
  match op with
  | 0 => old + b
  | 1 => if old.toInt ≤ b.toInt then old else b
  | 2 => if old.toNat ≤ b.toNat then old else b
  | 3 => if b.toInt ≤ old.toInt then old else b
  | 4 => if b.toNat ≤ old.toNat then old else b
  | 5 => old &&& b
  | 6 => old ||| b
  | 7 => old ^^^ b
  | 8 => b
  | 9 => if old = c then b else old
  | 10 => if b = 0 then old + 1 else if b.toNat ≤ old.toNat + 1 then 0 else old + 1
  | 11 => if b = 0 then old - 1 else if old = 0 ∨ b.toNat ≤ old.toNat then b - 1 else old - 1
  | _ => (f32Add old b).1

/-- Bytes a speculating thread has buffered, over bytes read (Table 07.7). -/
def overlay (bufs : List BufStore) (p : Path) (tow addr n v : Nat) : Nat :=
  bufs.foldl (fun v b =>
    if b.path = p ∧ b.tow = tow then
      (List.range b.size).foldl (fun v i =>
        if addr ≤ b.addr + i ∧ b.addr + i < addr + n then putBits v (8 * (b.addr + i - addr)) 8 (bitsOf b.val (8 * i) 8) else v) v
    else v) v

/-- Widen loaded bytes to their registers (R149). -/
def widen (n : Nat) (sgn : Bool) (v : Nat) : Nat := if sgn then bitsI (sext v (8 * n)) 32 else v

/-- A release of a scope wider than the group writes back the core's L1 (Table 07.4). -/
def Mach.releaseAt (m : Mach) (g : Group) (ord scope : Nat) : Mach :=
  if (ord = 2 ∨ ord = 3) ∧ scope ≠ 0 then m.l1BackAll g.column g.core else m

/-- An acquire of a scope wider than the group invalidates the core's L1 (Table 07.4). -/
def Mach.acquireAt (m : Mach) (g : Group) (ord scope : Nat) : Mach :=
  if (ord = 1 ∨ ord = 3) ∧ scope ≠ 0 then m.l1Inv g.column g.core else m

/-- The home of an access: performed there, not in the L1 (Table 11.1). -/
def atHome (a : Acc) : Bool := a.ord != 0 && a.scope != 0

/-- A queued operation that writes. -/
def AOp.writes : AOp → Bool
  | .store _ _ => true
  | .atom _ _ _ => true
  | .scStore _ _ => true
  | .scAtom _ _ _ => true
  | .touch w => w
  | _ => false

/-- An access to global memory reads its home, and finds an uncorrectable error there (R146, R357). A store reads nothing (log entry 55). -/
def Mach.homeFails (m : Mach) (g : Group) (a : Acc) : Bool :=
  let away (home : Bool) : Bool := match m.tlbHit g.env.vf a.addr a.op.writes false with
    | some pa => m.homeLost pa a.size && (home || !(m.core g.column g.core).hits pa a.size)
    | none => false
  match a.op with
  | .load _ _ => away (atHome a)
  | .atom _ _ _ => away (a.scope != 0)
  | .scLoad _ => away true
  | .scAtom _ _ _ => away true
  | _ => false

/-- An access meets an uncorrectable error at its place (R146, R354). -/
def Mach.accLost (m : Mach) (g : Group) (a : Acc) : Bool :=
  match a.path with
  | .scr => m.lostAt g.column g.core a.addr a.size
  | .tow => m.lostAt g.column a.tow a.addr a.size
  | .glob => m.homeFails g a
  | .surf => false

/-- Read the bytes of a load at its place; none where no translation is cached. -/
def Mach.readPlace (m : Mach) (g : Group) (a : Acc) : Option (Mach × Nat) :=
  match a.path with
  | .scr => some ((m.rebuilds g.column g.core a.addr a.size), m.winRead g.gid a.addr a.size)
  | .tow => some ((m.rebuilds g.column a.tow a.addr a.size), m.towRead g.column a.tow a.addr a.size)
  | .surf => some (m, 0)
  | .glob =>
    match m.tlbHit g.env.vf a.addr false false with
    | none => none
    | some pa =>
      if atHome a then
        let m := m.l1Back g.column g.core (pa / 64)
        some (m, m.homeRead pa a.size)
      else some ((m.l1Room g.column g.core pa).l1Read g.column g.core pa a.size)

/-- A store of a thread that has not arrived tests the read filter (R235); one that has exited counts as arrived (R162). -/
def Mach.storeFilter (m : Mach) (g : Group) (a : Acc) : Mach :=
  match m.thread? g.gid a.tid with
  | some t => if t.exited || t.bar == some g.round then m else m.testFilter g.gid a.path a.tow a.addr a.size
  | none => m

/-- Write the bytes of a store at its place (Table 11.1). -/
def Mach.writePlace (m : Mach) (g : Group) (a : Acc) (val : Nat) : Option Mach :=
  match a.path with
  | .scr => some ((((m.releaseAt g a.ord a.scope).rebuilds g.column g.core a.addr a.size).winWrite g.gid a.addr a.size val).storeFilter g a)
  | .tow => some (((m.rebuilds g.column a.tow a.addr a.size).towWrite g.column a.tow a.addr a.size val).storeFilter g a)
  | .surf => some m
  | .glob =>
    match m.tlbHit g.env.vf a.addr true false with
    | none => none
    | some pa => some (((m.releaseAt g a.ord a.scope).doGlob g.column g.core pa a.size val (atHome a)).storeFilter g a)

/-- An atomic at its place (R157): indivisibly the old word out, the new word in. -/
def Mach.atomPlace (m : Mach) (g : Group) (a : Acc) (new : Word → Word) : Option (Mach × Nat) :=
  match a.path with
  | .scr =>
    let old := m.winRead g.gid a.addr 4
    some (((((m.releaseAt g a.ord a.scope).rebuilds g.column g.core a.addr 4).winWrite g.gid a.addr 4
      (new (BitVec.ofNat 32 old)).toNat).storeFilter g a).acquireAt g a.ord a.scope, old)
  | .glob =>
    match m.tlbHit g.env.vf a.addr true false with
    | none => none
    | some pa =>
      if a.scope = 0 then
        let r := ((m.l1Room g.column g.core pa).l1Fill g.column g.core pa).l1Read g.column g.core pa 4
        some ((r.1.l1Write g.column g.core pa 4 (new (BitVec.ofNat 32 r.2)).toNat).storeFilter g a, r.2)
      else
        let m := (m.releaseAt g a.ord a.scope).l1Drop g.column g.core (pa / 64)
        let old := m.homeRead pa 4
        some (((m.store pa 4 (new (BitVec.ofNat 32 old)).toNat).storeFilter g a).acquireAt g a.ord a.scope, old)
  | _ => some (m, 0)

/-- The stamp of an SC operation (R159): one more than the larger of the core's and the slice's clock; both take it. -/
def Mach.stampAt (m : Mach) (g : Group) (pa : Nat) : Mach :=
  let sl := Config.homeColumn (pa / 64) % 12 * 64 + Config.sliceOf (pa / 64) % 64
  let s := max (m.core g.column g.core).stamp (SMap.get 0 m.slices sl) + 1
  let m := m.onCore g.column g.core fun c => { c with stamp := s }
  { m with slices := SMap.set 0 m.slices sl s }

/-- An SC operation at its home: the L1 write-back before it, the invalidation after it (R159). -/
def Mach.scPlace (m : Mach) (g : Group) (a : Acc) (write : Bool) (f : Nat → Option Nat) : Option (Mach × Nat) :=
  match m.tlbHit g.env.vf a.addr write false with
  | none => none
  | some pa =>
    let m := (m.l1BackAll g.column g.core).stampAt g pa
    let old := m.homeRead pa a.size
    let m := match f old with
      | some v => (m.store pa a.size v).storeFilter g a
      | none => m
    some (m.l1Inv g.column g.core, old)

/-- Cache maintenance on the 128-byte line of an address (R171). -/
def Mach.maintPlace (m : Mach) (g : Group) (a : Acc) (kind : Nat) : Option Mach :=
  match m.tlbHit g.env.vf a.addr false false with
  | none => none
  | some pa =>
    let s := pa / 128 * 2
    some (match kind with
      | 0 => (m.l1Back g.column g.core s).l1Back g.column g.core (s + 1)
      | 1 => (m.l1Drop g.column g.core s).l1Drop g.column g.core (s + 1)
      | 2 => ((m.l1Room g.column g.core (s * 64)).l1Fill g.column g.core (s * 64)).l1Fill g.column g.core (s * 64 + 64)
      | _ => m)

/-- Deliver a value to the destinations of an access. -/
def Mach.deliverValue (m : Mach) (a : Acc) (v : Nat) : Mach := m.onThread a.gid a.tid fun t => t.fillDsts a.dsts v a.spec

/-! ### Issue of memory words -/

/-- A store or maintenance access performed now; none where it needs a walk. -/
def Mach.storeNow (m : Mach) (g : Group) (a : Acc) : Option Mach :=
  match a.op with
  | .store _ v => m.writePlace g a v
  | .scStore _ v => (m.scPlace g a true fun _ => some v).map (·.1)
  | .maint k => m.maintPlace g a k
  | _ => none

/-- The access may be performed as it issues: it does not use the scratchpad port, nothing before it holds it, its place is free, its translation
cached. -/
def Mach.mayNow (m : Mach) (g : Group) (a : Acc) : Bool :=
  !a.port && !((m.core g.column g.core).accs.any fun e => m.holds g e a) && m.placeFree g a
    && (match a.path with
      | .glob => (m.tlbHit g.env.vf a.addr (match a.op with | .maint _ => false | _ => true) false).isSome
      | _ => true)

/-- Stores of one word that issues in a cycle: performed now, in lane order, or queued, as a free choice and their places decide
(log entry 11). -/
def Mach.issueStores (m : Mach) (g : Group) (cycle : Nat) (as : List Acc) : Mach :=
  let p := m.pick 2
  let (m, as) := p.2.usePort g cycle as
  if p.1 = 0 ∧ as.all (fun a => m.mayNow g a) then
    as.foldl (fun m a => match m.storeNow g a with
      | some m' => m'
      | none => m.queueAccs g [a]) m
  else m.queueAccs g as

/-- Size in bytes, sign and registers of a load (Table 04.3). -/
def loadForm (z : Nat) : Nat × Bool × Nat :=
  match z with
  | 0 => (1, false, 1) | 1 => (2, false, 1) | 2 => (4, false, 1) | 3 => (8, false, 2) | 4 => (16, false, 4)
  | 5 => (1, true, 1) | _ => (2, true, 1)

/-- The path, tower and offset or address that a lane's operand names: `p` 0 global, 1 scratchpad, 2 tower-direct. -/
def laneAddr (p : Nat) (l : LaneIn) (off n : Nat) : Int :=
  match p with
  | 2 => (bitsOf (l.val 0) 0 32 : Int) + sext off 7 * n
  | _ => (l.val 0 : Int) + sext off 7 * n

/-- The tower of a tower-direct operand. -/
def laneTower (l : LaneIn) : Nat := bitsOf (l.val 0) 32 32

/-- Path, tower and address of an access that passed its checks. -/
def lanePlace (p : Nat) (l : LaneIn) (off n : Nat) : Path × Nat × Nat :=
  let a := laneAddr p l off n
  match p with
  | 0 => ((placeOf a).1, 0, (placeOf a).2)
  | 1 => (.scr, 0, a.toNat)
  | _ => (.tow, laneTower l, a.toNat)

/-- The checks of R145 on a lane's access. -/
def memCheck (p : Nat) (cfg : Cfg) (m : Mach) (g : Group) (l : LaneIn) (off n : Nat) : Option (Cause × Nat) :=
  let a := laneAddr p l off n
  let r := match p with
    | 0 => globCheck g a n
    | 1 => scrCheck g a n (min n 4) (bitsI a 64)
    | _ => towCheck cfg m g (laneTower l) a n
  match r with
  | some x => some x
  | none =>
    let pl := lanePlace p l off n
    lossCheck m g pl.1 pl.2.1 pl.2.2 n

/-- Record a speculating thread's load in the read filter (R235). -/
def Mach.recordLoad (m : Mach) (g : Group) (tid : Nat) (p : Path) (tow addr n : Nat) : Mach :=
  let m := m.onGroup g.gid fun x => { x with filter := x.filter ||| filterMask p tow addr n }
  m.onThread g.gid tid fun t => match t.epi with
    | some e => { t with epi := some { e with loaded := true } }
    | none => t

/-- A long-latency access issues: its destinations become empty and it is queued. -/
def Mach.issueLong (m : Mach) (g : Group) (a : Acc) : Mach :=
  (m.onThread g.gid a.tid fun t => t.emptyDsts a.dsts).queueAccs g [a]

/-- The long-latency accesses of one word that issues in a cycle, in lane order. -/
def Mach.issueLongs (m : Mach) (g : Group) (cycle : Nat) (as : List Acc) : Mach :=
  let (m, as) := m.usePort g cycle as
  as.foldl (fun m a => m.issueLong g a) m

/-- The access of a load in a lane (R149). -/
def loadAcc (p : Nat) (g : Group) (l : LaneIn) (d off z ord scope issued : Nat) : Acc :=
  let f := loadForm z
  let pl := lanePlace p l off f.1
  { gid := g.gid, tid := l.t.tid, op := .load f.1 f.2.1, path := pl.1, tow := pl.2.1, addr := pl.2.2, size := f.1
    dsts := Dst.regs { f := d, w := f.2.2 }, ord := ord, scope := scope, issued := issued
    spec := l.t.epi.isSome, nbuf := (l.t.epi.map fun e => e.bufs.length).getD 0 }

/-- A load of a path (R148, R149). -/
def loadWord (p : Nat) (f : FLd) (q : Option Modifier) (acc : Accepts) : Desc :=
  let fm := loadForm f.z
  { c := f.c, q := q, acc := acc, ill := decide (7 ≤ f.z), cls := 1, stop := ordOf q != 0
    srcs := [{ f := f.a, mm := f.m, w := if p = 1 then 1 else 2 }], dst := some { f := f.d, w := fm.2.2, long := true }
    exe := fun cfg m _ g l => memCheck p cfg m g l f.o fm.1
    busy := fun _ m _ g l => memBusy true m g l
    act := fun _ m k g ls =>
      let as := (ons ls).map fun l => loadAcc p g l f.d f.o f.z (ordOf q) (scopeOf 2 q) m.free
      let m := (as.filter (·.spec)).foldl (fun m a => m.recordLoad g a.tid a.path a.tow a.addr a.size) m
      (m.issueLongs g (lastCycle m k g) as, []) }

/-- The access of a store in a lane. -/
def storeAcc (p : Nat) (g : Group) (l : LaneIn) (off n ord scope issued : Nat) : Acc :=
  let pl := lanePlace p l off n
  { gid := g.gid, tid := l.t.tid, op := .store n (l.val 1), path := pl.1, tow := pl.2.1, addr := pl.2.2, size := n
    ord := ord, scope := scope, issued := issued }

/-- Buffer a speculating thread's store (R164). -/
def Mach.bufferStore (m : Mach) (g : Group) (a : Acc) : Mach :=
  let a := match m.cur.bind m.gang? with
    | some k => a.ofWord k
    | none => a
  m.onThread g.gid a.tid fun t => match t.epi with
    | some e => { t with epi := some { e with bufs := e.bufs ++
        [{ pc := a.pc, slot := a.slot, path := a.path, tow := a.tow, addr := a.addr, size := a.size
           val := match a.op with | .store n v => v % 2 ^ (8 * n) | _ => 0 }] } }
    | none => t

/-- Registers of store data of a size. -/
def storeRegs (n : Nat) : Nat := if n ≤ 4 then 1 else n / 4

/-- A store of a path (R148, R149, R150). -/
def storeWord (p : Nat) (f : FSt) (q : Option Modifier) (acc : Accepts) : Desc :=
  let n := (loadForm f.z).1
  { c := f.c, q := q, acc := acc, ill := decide (5 ≤ f.z), cls := 1, stop := ordOf q != 0, store := true
    srcs := [{ f := f.a, mm := f.m, w := if p = 1 then 1 else 2 }, { f := f.s, mm := f.m, w := storeRegs n, cyc := 1 }]
    exe := fun cfg m _ g l => memCheck p cfg m g l f.o n
    busy := fun _ m _ g l => memBusy false m g l
    act := fun _ m k g ls =>
      let acc (l : LaneIn) := storeAcc p g l f.o n (ordOf q) (scopeOf 2 q) m.free
      let m := ((ons ls).filter fun l => l.t.epi.isSome).foldl (fun m l => m.bufferStore g (acc l)) m
      (m.issueStores g (lastCycle m k g) (((ons ls).filter fun l => l.t.epi.isNone).map acc), []) }

/-- The orders and scopes of Table 07.3. -/
def accLd : Accepts := { ords := [0, 1], scopes := 7 }
def accSt : Accepts := { ords := [0, 2], scopes := 7 }
def accLds : Accepts := { ords := [0, 1] }
def accSts : Accepts := { ords := [0, 2] }

/-- `ld` (R148). -/
def execLd (f : FLd) (q : Option Modifier) (s : State) : Host.Outcome State Fault Refusal := word (loadWord 0 f q accLd) s

/-- `st`. -/
def execSt (f : FSt) (q : Option Modifier) (s : State) : Host.Outcome State Fault Refusal := word (storeWord 0 f q accSt) s

/-- `lds`. -/
def execLds (f : FLd) (q : Option Modifier) (s : State) : Host.Outcome State Fault Refusal := word (loadWord 1 f q accLds) s

/-- `sts`. -/
def execSts (f : FSt) (q : Option Modifier) (s : State) : Host.Outcome State Fault Refusal := word (storeWord 1 f q accSts) s

/-- `ldt`. -/
def execLdt (f : FLd) (q : Option Modifier) (s : State) : Host.Outcome State Fault Refusal := word (loadWord 2 f q {}) s

/-- `stt`. -/
def execStt (f : FSt) (q : Option Modifier) (s : State) : Host.Outcome State Fault Refusal := word (storeWord 2 f q {}) s

/-- `cflush`, `cinv` and `prefetch` (R171): an aperture address makes them do nothing; a prefetch never traps. -/
def maintWord (c : Bool) (q : Option Modifier) (a : Nat) (mm ill stop pref : Bool) (kind : Nat) : Desc :=
  { c := c, q := q, ill := ill, cls := 1, stop := stop, srcs := [{ f := a, mm := mm, w := 2 }]
    exe := fun _ _ _ _ l => if pref || decide (l.val 0 < 2 ^ 57) then none else some (.xlate, bitsI (l.val 0) 57)
    busy := fun _ m _ g l => memBusy false m g l
    act := fun _ m k g ls =>
      (m.issueStores g (lastCycle m k g) (((ons ls).filter fun l => !inAperture (l.val 0) && decide (l.val 0 < 2 ^ 57)).map fun l =>
        { gid := g.gid, tid := l.t.tid, op := .maint kind, path := .glob, addr := l.val 0 / 128 * 128, size := 128, issued := m.free }), []) }

/-- `cflush`: the line's dirty bytes go home; the sectors stay, clean. -/
def execCflush (f : FA) (q : Option Modifier) (s : State) : Host.Outcome State Fault Refusal :=
  word (maintWord f.c q f.a f.m false true false 0) s

/-- `cinv`: the same, then the line is invalid. -/
def execCinv (f : FA) (q : Option Modifier) (s : State) : Host.Outcome State Fault Refusal :=
  word (maintWord f.c q f.a f.m false true false 1) s

/-- `prefetch`: fills the line's sectors. -/
def execPrefetch (f : FPref) (q : Option Modifier) (s : State) : Host.Outcome State Fault Refusal :=
  word (maintWord f.c q f.a f.m (decide (2 ≤ f.l)) false true (2 + f.l)) s

/-- `sld`: s[SD] := the word at window offset s[SA] + 4 × the immediate; blocking, so the register is written by then
(R92); ordered as a load of the lowest active lane (R114, R150). -/
def execSld (f : FSld) (q : Option Modifier) (s : State) : Host.Outcome State Fault Refusal :=
  word { c := f.c, q := q, stop := true
         exe := fun _ m k g _ =>
           let off := (g.uniView (issueCycle m k g) f.a).toNat + 4 * f.i
           (scrCheck g off 4 4 off).orElse fun _ => lossCheck m g .scr 0 off 4
         blk := true
         busy := fun _ m k g l =>
           let off := (g.uniView (issueCycle m k g) f.a).toNat + 4 * f.i
           m.lockedAt g.column g.core off 4 || match (activeLanes k g).map (·.tid) |> least with
             | some low => acqPending m g low || scrPending m g low off 4
             | none => acqPending m g l.t.tid
         act := fun _ m k g ls =>
           let off := (g.uniView (issueCycle m k g) f.a).toNat + 4 * f.i
           uniNow f.d (BitVec.ofNat 32 (m.winRead g.gid off 4)) m k ls } s

end Sys2Proof.Machine
end

