-- ==== Sys2Proof/Machine/Atomic.lean ====
section
/-! DEFINITION. Atomic: majors 0x34 and 0x35 (07 R156, R157) and the SC operations of major 0x36 (07 R158, R159). Each
issues as a long-latency access that LOAD_PERFORMED performs indivisibly at its place. -/

namespace Sys2Proof.Machine

/-- The modifier fields of atomics (R156). -/
def accAtom : Accepts := { hb := true, ords := [0, 1, 2, 3], scopes := 7 }

/-- The access of an atomic in a lane. -/
def atomAcc (op : Nat) (q : Option Modifier) (f : FAtom) (g : Group) (l : LaneIn) (issued : Nat) : Acc :=
  let pl := placeOf (l.val 0)
  { gid := g.gid, tid := l.t.tid, op := .atom op (BitVec.ofNat 32 (l.val 1)) (BitVec.ofNat 32 (l.val 2))
    path := pl.1, addr := pl.2, size := 4, dsts := Dst.regs { f := f.d }, ord := ordOf q, scope := scopeOf 2 q, issued := issued }

/-- An atomic (Table 07.5): A, B and, for `cas`, D, all under one miss mode. -/
def atomWord (op : Nat) (f : FAtom) (q : Option Modifier) : Desc :=
  { c := f.c, q := q, acc := accAtom, cls := 1, stop := true
    srcs := [{ f := f.a, mm := f.m, w := 2 }, { f := f.b, mm := f.m, cyc := 1 }] ++ (if op = 9 then [{ f := f.d, mm := f.m, cyc := 2 }] else [])
    dst := some { f := f.d, long := true }
    exe := fun _ m _ g l => (globCheck g (l.val 0) 4).orElse fun _ =>
      lossCheck m g (placeOf (l.val 0)).1 0 (placeOf (l.val 0)).2 4
    busy := fun _ m _ g l => memBusy true m g l
    act := fun _ m k g ls => (m.issueLongs g (lastCycle m k g) ((ons ls).map fun l => atomAcc op q f g l m.free), []) }

/-- `atom.add` (Table 07.5). -/
def execAtomAdd (f : FAtom) (q : Option Modifier) (s : State) : Host.Outcome State Fault Refusal := word (atomWord 0 f q) s

/-- `atom.min.s` (Table 07.5). -/
def execAtomMinS (f : FAtom) (q : Option Modifier) (s : State) : Host.Outcome State Fault Refusal := word (atomWord 1 f q) s

/-- `atom.min.u` (Table 07.5). -/
def execAtomMinU (f : FAtom) (q : Option Modifier) (s : State) : Host.Outcome State Fault Refusal := word (atomWord 2 f q) s

/-- `atom.max.s` (Table 07.5). -/
def execAtomMaxS (f : FAtom) (q : Option Modifier) (s : State) : Host.Outcome State Fault Refusal := word (atomWord 3 f q) s

/-- `atom.max.u` (Table 07.5). -/
def execAtomMaxU (f : FAtom) (q : Option Modifier) (s : State) : Host.Outcome State Fault Refusal := word (atomWord 4 f q) s

/-- `atom.and` (Table 07.5). -/
def execAtomAnd (f : FAtom) (q : Option Modifier) (s : State) : Host.Outcome State Fault Refusal := word (atomWord 5 f q) s

/-- `atom.or` (Table 07.5). -/
def execAtomOr (f : FAtom) (q : Option Modifier) (s : State) : Host.Outcome State Fault Refusal := word (atomWord 6 f q) s

/-- `atom.xor` (Table 07.5). -/
def execAtomXor (f : FAtom) (q : Option Modifier) (s : State) : Host.Outcome State Fault Refusal := word (atomWord 7 f q) s

/-- `exch` (Table 07.5). -/
def execExch (f : FAtom) (q : Option Modifier) (s : State) : Host.Outcome State Fault Refusal := word (atomWord 8 f q) s

/-- `cas` (Table 07.5). -/
def execCas (f : FAtom) (q : Option Modifier) (s : State) : Host.Outcome State Fault Refusal := word (atomWord 9 f q) s

/-- `atom.rinc` (Table 07.5). -/
def execAtomRinc (f : FAtom) (q : Option Modifier) (s : State) : Host.Outcome State Fault Refusal := word (atomWord 10 f q) s

/-- `atom.rdec` (Table 07.5). -/
def execAtomRdec (f : FAtom) (q : Option Modifier) (s : State) : Host.Outcome State Fault Refusal := word (atomWord 11 f q) s

/-- `atom.fadd` (Table 07.5). -/
def execAtomFadd (f : FAtom) (q : Option Modifier) (s : State) : Host.Outcome State Fault Refusal := word (atomWord 12 f q) s

/-- The checks of an SC operation: global and outside the aperture (R158). -/
def scCheck (g : Group) (a n : Nat) : Option (Cause × Nat) :=
  if a % n ≠ 0 then some (.align, bitsI a 57)
  else if inAperture a then some (.space, a)
  else globCheck g a n

/-- An SC operation waits until the thread's earlier accesses are performed: it acts as an acquire-release at package
scope (R159). -/
def scBusy (m : Mach) (g : Group) (l : LaneIn) : Bool := memBusy true m g l || accPending m g l.t.tid

/-- An SC access. -/
def scAcc (g : Group) (l : LaneIn) (op : AOp) (n : Nat) (dsts : List Nat) (issued : Nat) : Acc :=
  { gid := g.gid, tid := l.t.tid, op := op, path := .glob, addr := l.val 0, size := n, dsts := dsts, ord := 3, scope := 4
    issued := issued }

/-- `ldsc`: D := the word, or pair, at addr. -/
def execLdsc (f : FLdsc) (q : Option Modifier) (s : State) : Host.Outcome State Fault Refusal :=
  let n := if f.z = 0 then 4 else 8
  word { c := f.c, q := q, ill := decide (2 ≤ f.z), cls := 1, stop := true, srcs := [{ f := f.a, mm := f.m, w := 2 }]
         dst := some { f := f.d, w := n / 4, long := true }
         exe := fun _ _ _ g l => scCheck g (l.val 0) n
         busy := fun _ m _ g l => scBusy m g l
         act := fun _ m k g ls =>
           (m.issueLongs g (lastCycle m k g) ((ons ls).map fun l => scAcc g l (.scLoad n) n (Dst.regs { f := f.d, w := n / 4 }) m.free), []) } s

/-- `stsc`: the word, or pair, at addr := b. -/
def execStsc (f : FStsc) (q : Option Modifier) (s : State) : Host.Outcome State Fault Refusal :=
  let n := if f.z = 0 then 4 else 8
  word { c := f.c, q := q, acc := { hb := true }, ill := decide (2 ≤ f.z), cls := 1, stop := true
         srcs := [{ f := f.a, mm := f.m, w := 2 }, { f := f.b, mm := f.n, w := n / 4, cyc := 1 }]
         exe := fun _ _ _ g l => scCheck g (l.val 0) n
         busy := fun _ m _ g l => scBusy m g l
         act := fun _ m k g ls =>
           (m.issueStores g (lastCycle m k g) ((ons ls).map fun l => scAcc g l (.scStore n (l.val 1)) n [] m.free), []) } s

/-- `atomsc.add` and `atomsc.cas`: A is a pair code; every source reads with miss mode 0. -/
def atomscWord (cas : Bool) (f : FAsc) (q : Option Modifier) : Desc :=
  { c := f.c, q := q, cls := 1, stop := true
    srcs := [{ f := pairField f.a, w := 2 }, { f := f.b, cyc := 1 }] ++ (if cas then [{ f := f.d, cyc := 2 }] else [])
    dst := some { f := f.d, long := true }
    exe := fun _ _ _ g l => scCheck g (l.val 0) 4
    busy := fun _ m _ g l => scBusy m g l
    act := fun _ m k g ls =>
      (m.issueLongs g (lastCycle m k g) ((ons ls).map fun l =>
        scAcc g l (.scAtom cas (BitVec.ofNat 32 (l.val 1)) (BitVec.ofNat 32 (l.val 2))) 4 (Dst.regs { f := f.d }) m.free), []) }

/-- `atomsc.add`. -/
def execAtomscAdd (f : FAsc) (q : Option Modifier) (s : State) : Host.Outcome State Fault Refusal := word (atomscWord false f q) s

/-- `atomsc.cas`. -/
def execAtomscCas (f : FAsc) (q : Option Modifier) (s : State) : Host.Outcome State Fault Refusal := word (atomscWord true f q) s

end Sys2Proof.Machine
end

