-- ==== Sys2Proof/Machine/Sync.lean ====
section
/-! DEFINITION. Sync: fences, the group barrier, phase barriers and condition monitors (07 R160 to R170, 10 R234). -/

namespace Sys2Proof.Machine

/-- `fence`: orders every earlier scratchpad and global access of the thread against every later one, with the L1 actions
of Table 07.4; without a modifier, or with ORD 0, ILLEGAL (R160). -/
def execFence (f : FC) (q : Option Modifier) (s : State) : Host.Outcome State Fault Refusal :=
  word { c := f.c, q := q, acc := { ords := [1, 2, 3], scopes := 7 }, ill := q.isNone, cls := 1, stop := true
         busy := fun _ m _ g l => accPending m g l.t.tid
         act := fun _ m _ g ls =>
           if (ons ls).isEmpty then (m, [])
           else ((m.releaseAt g (ordOf q) (scopeOf 2 q)).acquireAt g (ordOf q) (scopeOf 2 q), []) } s

/-- `fence.t`: waits until every earlier `ldt` and `stt` of the thread has been performed; it issues after an earlier
acquire (R161, Table 11.2). -/
def execFenceT (f : FC) (q : Option Modifier) (s : State) : Host.Outcome State Fault Refusal :=
  word { c := f.c, q := q, cls := 1, stop := true
         busy := fun _ m _ g l => towPending m g l.t.tid || acqPending m g l.t.tid } s

/-- The lanes of a list that still wait for the completion of the round they arrived in; the others leave the barrier. -/
def barWaiters (m : Mach) (gid : Nat) (ls : List LaneIn) : List Nat :=
  match m.group? gid with
  | none => []
  | some g => (ls.map (·.t.tid)).filter fun i => match g.thread? i with
    | some t => t.bar == some g.round
    | none => false

/-- A barrier word is a release side: it waits for the thread's earlier accesses, and for an acquire among them (Table 11.2). -/
def barBusy (m : Mach) (g : Group) (l : LaneIn) : Bool := accPending m g l.t.tid || acqPending m g l.t.tid

/-- The lanes arrive, where they have not; the barrier completes with its last thread (R162). -/
def arriveBar (m : Mach) (g : Group) (ls : List LaneIn) : Mach :=
  (m.mapLanes g.gid ls fun _ t => if t.bar.isSome then t else { t with bar := some g.round }).checkBarrier g.gid

/-- Lanes through the barrier forget their arrival. -/
def leaveBar (m : Mach) (g : Group) (ls : List LaneIn) (w : List Nat) : Mach :=
  m.mapLanes g.gid (ls.filter fun l => !w.contains l.t.tid) fun _ t => { t with bar := none }

/-- `bar`: waits at the group barrier (R162). -/
def execBar (f : FC) (q : Option Modifier) (s : State) : Host.Outcome State Fault Refusal :=
  word { c := f.c, q := q, acc := { any := false }, cls := 1, stop := true
         blk := true
         busy := fun _ m _ g l => barBusy m g l
         act := fun _ m _ g ls =>
           let m := arriveBar m g ls
           let w := barWaiters m g.gid ls
           (leaveBar m g ls w, w) } s

/-- The checkpoint of a thread that passes `bar.s`: it would resume at the word after (R234, R236). -/
def Thread.speculate (t : Thread) (k : Gang) (round : Nat) : Thread :=
  { t with epi := some { round := round, ckpt := { t.c with pc := k.pc, slot := k.slot + 1, mid := true }, hnd := t.hnd } }

/-- `bar.s`: as `bar`, but a thread that finds others missing while the group holds an SPC granule goes on in a speculative
episode (R163, R234). -/
def execBarS (f : FC) (q : Option Modifier) (s : State) : Host.Outcome State Fault Refusal :=
  word { c := f.c, q := q, acc := { any := false }, cls := 1, stop := true
         blk := true
         busy := fun _ m _ g l => barBusy m g l
         act := fun _ m k g ls =>
           let fresh := ls.filter fun l => l.t.bar.isNone
           let m := arriveBar m g ls
           let w := barWaiters m g.gid ls
           if 0 < g.hold.spc then
             let spec := fresh.filter fun l => w.contains l.t.tid
             let m := m.mapLanes g.gid spec fun _ t => t.speculate k g.round
             let w := w.filter fun i => !(spec.map (·.t.tid)).contains i
             (m.mapLanes g.gid (ls.filter fun l => !w.contains l.t.tid && !(spec.map (·.t.tid)).contains l.t.tid)
               fun _ t => { t with bar := none }, w)
           else (leaveBar m g ls w, w) } s

/-! ### Phase barriers -/

/-- The checks of a phase barrier object's offset (R167). -/
def pbCheck (m : Mach) (g : Group) (off : Nat) : Option (Cause × Nat) :=
  (scrCheck g off 16 16 off).orElse fun _ => lossCheck m g .scr 0 off 16

/-- A phase barrier word waits for an acquire, for a locked bank (R260), and for the thread's earlier accesses to the object (R150). -/
def pbBusy (m : Mach) (g : Group) (l : LaneIn) : Bool :=
  acqPending m g l.t.tid || m.lockedAt g.column g.core (l.val 0) 16 || scrPending m g l.t.tid (l.val 0) 16

/-- A phase barrier word with a count. -/
def pbWord (f : FPb) (q : Option Modifier) (rel : Bool) : Desc :=
  { c := f.c, q := q, acc := { hb := true }, cls := 1, stop := true
    srcs := [{ f := f.a, mm := f.m }, { f := f.b, mm := f.n, cyc := 1 }]
    busy := fun _ m _ g l => pbBusy m g l || (rel && accPending m g l.t.tid) }

/-- `pbinit`: EXPECT and PEND := b, BAL and PH := 0; b outside 1 to 2^20 traps OPFORM (R167). -/
def execPbinit (f : FPb) (q : Option Modifier) (s : State) : Host.Outcome State Fault Refusal :=
  word { pbWord f q false with
         exe := fun _ m _ g l => (pbCheck m g (l.val 0)).orElse fun _ =>
           if l.val 1 = 0 ∨ 2 ^ 20 < l.val 1 then some (.opform, 0) else none
         act := fun _ m _ g ls =>
           ((ons ls).foldl (fun m l =>
             (m.putPhase g.gid (l.val 0) { pend := l.val 1, expect := l.val 1, bal := 0, ph := 0 }).onGroup g.gid fun x =>
               { x with globCount := x.globCount.filter fun y => y.1 != l.val 0 }) m, []) } s

/-- The object after the arrivals of the guarded lanes before a lane, those that trap leaving it unchanged (R167). -/
def objBefore (m : Mach) (g : Group) (ls : List LaneIn) (l : LaneIn) : PhaseObj :=
  ((ons ls).filter fun x => decide (x.t.tid < l.t.tid) && x.val 0 == l.val 0).foldl
    (fun o x => match o.arrive (x.val 1) with | some o' => o'.settle | none => o) (m.phaseObj g.gid (l.val 0))

/-- `pbarrive`: a release at group scope, then PEND := PEND - b; b = 0 or above PEND traps OPFORM (R167). -/
def execPbarrive (f : FPb) (q : Option Modifier) (s : State) : Host.Outcome State Fault Refusal :=
  word { pbWord f q true with
         exe := fun _ m k g l => (pbCheck m g (l.val 0)).orElse fun _ =>
           match (objBefore m g (gangLanes (pbWord f q true) m k g) l).arrive (l.val 1) with
           | some _ => none
           | none => some (.opform, 0)
         act := fun _ m _ g ls =>
           ((ons ls).foldl (fun m l => match (m.phaseObj g.gid (l.val 0)).arrive (l.val 1) with
             | some o => m.settlePhase g.gid (l.val 0) o
             | none => m) m, []) } s

/-- `pbexpect`: BAL := BAL - b; b = 0 has no effect (R167). -/
def execPbexpect (f : FPb) (q : Option Modifier) (s : State) : Host.Outcome State Fault Refusal :=
  word { pbWord f q false with
         exe := fun _ m _ g l => pbCheck m g (l.val 0)
         act := fun _ m _ g ls =>
           ((ons ls).foldl (fun m l =>
             if l.val 1 = 0 then m
             else
               let o := m.phaseObj g.gid (l.val 0)
               m.settlePhase g.gid (l.val 0) { o with bal := sext (bitsI (o.bal - l.val 1) 32) 32 }) m, []) } s

/-- The acquire of `pbwait` and `pbtest`: an L1 invalidation where the phase counted a byte with a global destination (R257) or an arrival of queue 7, whose
scope is the cluster (R179, Table 11.4). -/
def Mach.pbAcquire (m : Mach) (g : Group) (offs : List Nat) (p : Nat) : Mach :=
  if offs.any fun o => g.globCount.contains (o, p) then m.l1Inv g.column g.core else m

/-- `pbwait`: waits until PH ≠ p, then acquires (R167). -/
def execPbwait (f : FPbw) (q : Option Modifier) (s : State) : Host.Outcome State Fault Refusal :=
  let p := if f.p then 1 else 0
  word { c := f.c, q := q, cls := 1, stop := true, srcs := [{ f := f.a, mm := f.m }]
         exe := fun _ m _ g l => pbCheck m g (l.val 0)
         blk := true
         busy := fun _ m _ g l => pbBusy m g l
         act := fun _ m _ g ls =>
           let done := (ons ls).filter fun l => (m.phaseObj g.gid (l.val 0)).ph != p
           (m.pbAcquire g (done.map fun l => l.val 0) p,
             ((ons ls).filter fun l => (m.phaseObj g.gid (l.val 0)).ph == p).map (·.t.tid)) } s

/-- `pbtest`: k[KD] := (PH ≠ p), with the acquire when 1 (R167). -/
def execPbtest (f : FPbt) (q : Option Modifier) (s : State) : Host.Outcome State Fault Refusal :=
  let p := if f.p then 1 else 0
  word { c := f.c, q := q, cls := 1, stop := true, srcs := [{ f := f.a, mm := f.m }]
         exe := fun _ m _ g l => pbCheck m g (l.val 0)
         blk := true
         busy := fun _ m _ g l => pbBusy m g l
         act := fun _ m k g ls =>
           let done := (ons ls).filter fun l => (m.phaseObj g.gid (l.val 0)).ph != p
           let r := laneNow (fun l => predWrite f.k ((m.phaseObj g.gid (l.val 0)).ph != p)) m k ls
           (r.1.pbAcquire g (done.map fun l => l.val 0) p, r.2) } s

/-! ### Condition monitors -/

/-- The monitor of a lane. -/
def Mach.monitor? (m : Mach) (gid tid : Nat) : Option Monitor := m.monitors.find? fun x => x.gid == gid && x.tid == tid

/-- Release the monitor of a lane. -/
def Mach.dropMonitor (m : Mach) (gid tid : Nat) : Mach :=
  { m with monitors := m.monitors.filter fun x => !(x.gid == gid && x.tid == tid) }

/-- Monitors a slice has armed. -/
def Mach.armedAt (m : Mach) (pa : Nat) : Nat :=
  (m.monitors.filter fun x => x.armed && Config.homeColumn (x.pa / 64) % 12 == Config.homeColumn (pa / 64) % 12
    && Config.sliceOf (x.pa / 64) % 64 == Config.sliceOf (pa / 64) % 64).length

/-- The check of one lane (R170): true when the lane is satisfied. The thread's earlier accesses to the word come first (R150), the word is read at its home
after the core has written back what is dirty of its sector, and no older copy stays in the L1 (R246; DEDUCED, log entry 44). -/
def Mach.checkWaitc (m : Mach) (g : Group) (tid addr cond : Nat) (b : Word) : Mach × Bool :=
  match m.monitor? g.gid tid with
  | some x => if x.met then ((m.dropMonitor g.gid tid).l1Drop g.column g.core (x.pa / 64), true) else (m, false)
  | none =>
    if globPending m g tid addr 4 then (m, false)
    else match m.tlbHit g.env.vf addr false false with
    | none =>
      if (m.accsOf g tid).any fun a => a.addr == addr && (match a.op with | .touch _ => true | _ => false) then (m, false)
      else (m.queueAccs g [{ gid := g.gid, tid := tid, op := .touch false, path := .glob, addr := addr, size := 4 }], false)
    | some pa =>
      let m := m.l1Drop g.column g.core (pa / 64)
      if waitcHolds cond (BitVec.ofNat 32 (m.homeRead pa 4)) b then (m, true)
      else
        ({ m with monitors := { gid := g.gid, tid := tid, pa := pa, cond := cond, b := b, armed := decide (m.armedAt pa < 1024)
                                met := false, column := g.column, lastPoll := m.etime } :: m.monitors }, false)

/-- The word of a `waitc` lies in a sector with an uncorrectable error (R146, R357). -/
def Mach.wordLost (m : Mach) (g : Group) (addr : Nat) : Bool := (m.tlbHit g.env.vf addr false false).any fun pa => m.homeLost pa 4

/-- `waitc.cc`: waits until the word at addr meets the condition; with ORD 1 the completion is an acquire (R169, R170). -/
def execWaitc (f : FWaitc) (q : Option Modifier) (s : State) : Host.Outcome State Fault Refusal :=
  word { c := f.c, q := q, acc := { hb := true, ords := [0, 1], scopes := 7 }, ill := f.p == 7, cls := 1, stop := true
         srcs := [{ f := f.a, mm := f.m, w := 2 }, { f := f.b, mm := f.n, cyc := 1 }]
         exe := fun _ m _ g l => match scCheck g (l.val 0) 4 with
           | some c => some c
           | none => if m.wordLost g (l.val 0) then some (.dataloss, 0) else none
         blk := true
         busy := fun _ m _ g l => acqPending m g l.t.tid
         act := fun _ m _ g ls =>
           let r := (ons ls).foldl (fun (r : Mach × List Nat) l =>
             let x := r.1.checkWaitc g l.t.tid (l.val 0) f.p (BitVec.ofNat 32 (l.val 1))
             (x.1, if x.2 then r.2 else r.2 ++ [l.t.tid])) (m, [])
           if r.2.isEmpty ∧ !(ons ls).isEmpty then (r.1.acquireAt g (ordOf q) (scopeOf 2 q), []) else r } s

/-- WAITC_REPOLL: without a free monitor the slice re-reads the word every 4 µs (R170). -/
def execWaitcRepoll (gid : Nat) (s : State) : Host.Outcome State Fault Refusal :=
  onMach (fun _ m =>
    { m with monitors := m.monitors.map fun x =>
        if x.gid == gid && !x.armed && decide (x.lastPoll + 4000000 ≤ m.etime) then
          { x with lastPoll := m.etime, met := x.met || waitcHolds x.cond (BitVec.ofNat 32 (m.homeRead x.pa 4)) x.b }
        else x }) s

end Sys2Proof.Machine
end

