-- ==== Sys2Proof/Machine/Unfold.lean ====
section
/-! DEFINITION. Unfold: the parameter blocks of the matrix words (08 R196) and the unfolding unit: the source pixels of an operand and, where the source is a
surface, its blocks (08 R197, 12 R272). -/

namespace Sys2Proof.Machine

/-! ### Parameter blocks -/

/-- The 16 words of a block. -/
def readBlk (m : Mach) (gid off : Nat) : List Word := (List.range 16).map fun i => BitVec.ofNat 32 (m.win32 gid (off + 4 * i))

/-- Word `i` of a block. -/
def bword (b : List Word) (i : Nat) : Nat := (b.getD i 0).toNat

/-- Fields of word 0 (Table 08.7). -/
def blkFmt (b : List Word) : Nat := bitsOf (bword b 0) 0 4
def blkM (b : List Word) : Nat := 16 * 2 ^ bitsOf (bword b 0) 4 2
def blkN (b : List Word) : Nat := 16 * 2 ^ bitsOf (bword b 0) 6 2
def blkAcc (b : List Word) : Bool := bitOf (bword b 0) 8
def blkChk (b : List Word) : Bool := bitOf (bword b 0) 12
def blkDst (b : List Word) : Nat := bitsOf (bword b 0) 16 3
def blkSrc (b : List Word) : Nat := bitsOf (bword b 0) 20 3

/-- A field error of word 0 (Table 08.7). -/
def word0Bad (b : List Word) : Bool :=
  let w := bword b 0
  bitsOf w 23 9 + bitsOf w 19 1 + bitsOf w 13 3 != 0 || decide (6 < blkFmt b) || bitsOf w 4 2 == 3 || bitsOf w 6 2 == 3

/-- The block is not 64-aligned or not inside the window (R196). -/
def badBlkAt (g : Group) (off : Nat) : Bool := off % 64 != 0 || decide (granules g.hold.scr < off + 64)

/-- A Brine format. -/
def isBrine (fmt : Nat) : Bool := decide (4 ≤ fmt)

/-- Bytes of an element of a format below Brine. -/
def elemSize (fmt : Nat) : Nat := if fmt < 2 then 2 else 1

/-- An operand of an operation block (Table 08.8); `rowMajor` that its index outside K steps by STRIDE. -/
structure Oper where
  kind : Nat
  copy : Bool
  tile : Nat
  base : Nat
  stride : Nat
  scale : Nat
  rsv : Nat
  rowMajor : Bool
  deriving DecidableEq, Repr

/-- Operand A: transposed when TA = 1. -/
def operA (b : List Word) : Oper :=
  let d := bword b 2
  { kind := bitsOf d 0 2, copy := bitOf d 2, tile := bitsOf d 8 6, rsv := bitsOf d 3 5 + bitsOf d 14 18, base := bword b 3
    stride := bword b 4, scale := bword b 8, rowMajor := !bitOf (bword b 0) 10 }

/-- Operand B: its columns step by STRIDE when TB = 1. -/
def operB (b : List Word) : Oper :=
  let d := bword b 5
  { kind := bitsOf d 0 2, copy := bitOf d 2, tile := bitsOf d 8 6, rsv := bitsOf d 3 5 + bitsOf d 14 18, base := bword b 6
    stride := bword b 7, scale := bword b 9, rowMajor := bitOf (bword b 0) 11 }

/-- K of an operation block. -/
def blkK (b : List Word) : Nat := 16 * bitsOf (bword b 1) 0 13

/-- The window offset of the element at outer index `i` and reduction index `k` (R197). -/
def Oper.elem (o : Oper) (e i k : Nat) : Nat :=
  if o.rowMajor then o.base + i * o.stride + k * e else o.base + k * o.stride + i * e

/-- The end of the window bytes of a scratchpad or tile operand of `n` outer indices. -/
def Oper.extent (o : Oper) (e n k : Nat) : Nat :=
  if o.rowMajor then o.base + (n - 1) * o.stride + k * e else o.base + (k - 1) * o.stride + n * e

/-- The window offset of the scale entry of outer index `i` of a Brine operand (R197). Of a STRIDE that is no multiple of the block size the spec states no
rounding of 2·i·STRIDE over it; the model rounds down (DESIGN CHOICE, log entry 48). -/
def Oper.scaleAt (o : Oper) (fmt i : Nat) : Nat := o.scale + 2 * i * o.stride / brineBytes fmt

/-- The end of the window bytes of a Brine operand; `msca` reads its scale entries only. -/
def Oper.brineEnd (o : Oper) (op fmt n : Nat) : Nat :=
  max (if op = 0 then o.base + (n - 1) * o.stride + brineBytes fmt else 0) (o.scaleAt fmt (n - 1) + 2)

/-! ### The unfolded operand -/

/-- The fields of UNF, ORG, OW and SHAPE (Table 08.8). -/
structure Unf where
  surface : Bool
  pad : Bool
  step : Nat
  kw : Nat
  kh : Nat
  y0 : Nat
  x0 : Nat
  layer : Nat
  ow : Nat
  c : Nat
  w : Nat
  h : Nat
  rsv : Nat
  deriving DecidableEq, Repr

/-- Read them. -/
def unfOf (b : List Word) : Unf :=
  let u := bword b 10
  let o := bword b 11
  let p := bword b 12
  let s := bword b 13
  { surface := bitOf u 11, pad := bitOf u 10, step := bitsOf u 8 2, kw := bitsOf u 4 4, kh := bitsOf u 0 4
    y0 := bitsOf o 16 16, x0 := bitsOf o 0 16, layer := bitsOf p 16 16, ow := bitsOf p 0 16
    c := bitsOf s 24 8, w := bitsOf s 12 12, h := bitsOf s 0 12, rsv := bitsOf u 12 20 }

/-- Ranges of UNF and OW (Table 08.8). -/
def Unf.bad (u : Unf) : Bool :=
  u.rsv != 0 || u.step == 0 || u.kw == 0 || decide (7 < u.kw) || u.kh == 0 || decide (7 < u.kh) || u.ow == 0 || decide (4096 < u.ow)

/-- The source pixel of output row `i` and tap `t` in a source of a given size: none outside it with PAD 0 (R197). -/
def Unf.pixel (u : Unf) (width height i t : Nat) : Option (Nat × Nat) :=
  let x : Int := (u.step * (u.x0 + i % u.ow) + t % u.kw : Nat) - (u.kw / 2 : Nat)
  let y : Int := (u.step * (u.y0 + i / u.ow) + t / u.kw : Nat) - (u.kh / 2 : Nat)
  let inside := decide (0 ≤ x) && decide (x < width) && decide (0 ≤ y) && decide (y < height)
  if inside then some (x.toNat, y.toNat)
  else if u.pad then some ((clampI x 0 (width - 1)).toNat, (clampI y 0 (height - 1)).toNat)
  else none

/-- The element (i, k) of an unfolded operand; `px x y c` reads the source (R197). -/
def Unf.elem (u : Unf) (c width height i k : Nat) (px : Nat → Nat → Nat → Nat) : Nat :=
  if u.kh * u.kw * c ≤ k then 0
  else match u.pixel width height i (k / c) with
    | some (x, y) => px x y (k % c)
    | none => 0

/-- Source pixels that `rows` output rows read over the first K elements, each with the channels read (R197). -/
def Unf.taps (u : Unf) (c width height rows k : Nat) : List ((Nat × Nat) × Nat) :=
  (List.range rows).flatMap fun i => ((List.range (u.kh * u.kw)).filter fun t => t * c < k).filterMap fun t =>
    (u.pixel width height i t).map fun p => (p, min c (k - t * c))

/-- The pixels alone. -/
def Unf.pixels (u : Unf) (c width height rows k : Nat) : List (Nat × Nat) := (u.taps c width height rows k).map (·.1)

/-- The surface handle that an issued `mma` unfolds (R310). -/
def MWord.unfolds (w : MWord) : Option Word :=
  let b (i : Nat) := (w.blk.getD i 0).toNat
  if w.op = 0 ∧ bitsOf (b 2) 0 2 = 2 ∧ bitOf (b 10) 11 then some (BitVec.ofNat 32 (b 3)) else none

/-- The blocks of the surface that an unfolding word reads. -/
def MWord.surfBlocks (m : Mach) (g : Group) (w : MWord) : Option (Surf × List Nat) :=
  match w.unfolds with
  | none => none
  | some h => (m.surf? g.env.vf h).map fun s =>
      let u := unfOf w.blk
      (s, ((u.pixels 4 s.width s.height (blkM w.blk) (blkK w.blk)).map fun p => s.block p.1 p.2 u.layer).eraseDups)

end Sys2Proof.Machine
end

