-- ==== Sys2Proof/Machine/Surface.lean ====
section
/-! DEFINITION. Surface: the surface table, texels, placement on the twin, the Rake (12 R264 to R278), allocation and
freeing (08 R191, 17 R327), and the values of texture reads (08 R193). A spill or a refill is one step. -/

namespace Sys2Proof.Machine

/-! ### The surface table -/

/-- Replace a surface's record. -/
def Mach.putSurf (m : Mach) (s : Surf) : Mach :=
  { m with surfs := m.surfs.map fun x => if x.vf == s.vf && x.idx == s.idx then s else x }

/-- Write all 64 bytes of a surface's table entry, with a count of resident blocks (Table 12.1, R266); reserved bits are 0. -/
def putEntry (cfg : Cfg) (s : Surf) (res : Nat) (m : Mach) : Mach :=
  let a := (m.vf s.vf).surftab + 64 * s.idx
  let w (o n v : Nat) (m : Mach) : Mach := writeVa cfg s.vf (a + o) n v m
  w 56 8 s.smap (w 48 8 s.back (w 40 8 s.rcb (w 36 4 res
    (w 32 4 (s.tag * 65536 + s.st * 2 ^ 14 + s.seed) (w 28 4 (s.twin * 2 ^ 24 + s.layers * 2 ^ 16 + s.fmt * 2 ^ 8)
      (w 24 4 (s.height * 65536 + s.width) (w 20 4 s.spillb (w 16 4 0 (w 8 8 0 (w 0 8 0 m))))))))))

/-- Write a surface's table entry (R266). -/
def writeEntry (cfg : Cfg) (s : Surf) (m : Mach) : Mach := putEntry cfg s s.resBlocks m

/-- A surface's table entry can be used (R338). -/
def touchEntry (cfg : Cfg) (vf idx : Nat) (m : Mach) : Mach × Pages := touchStruct cfg vf ((m.vf vf).surftab + 64 * idx) 64 true m

/-- Set the state of a block in the record and in the block state map (R277). -/
def setBlockState (cfg : Cfg) (s : Surf) (b st : Nat) (m : Mach) : Surf × Mach :=
  let s' := { s with spilled := SMap.set 0 s.spilled b st }
  let a := s.smap + b / 4
  (s', writeVa cfg s.vf a 1 (putBits (readVa cfg s.vf a 1 m) (2 * (b % 4)) 2 st) m)

/-- A surface by VF and INDEX. -/
def Mach.surfAt (m : Mach) (vf idx : Nat) : Option Surf := m.surfs.find? fun s => s.vf == vf && s.idx == idx

/-! ### Spill and refill -/

/-- The words of plane `j` of a block (R276). -/
def Mach.planeWords (m : Mach) (s : Surf) (b j : Nat) : List Nat :=
  (List.range 16).map fun t => readN m.fmem (s.blockKey b + 16 * t + 4 * j) (min 4 (texelBytes s.fmt))

/-- Address of the backing slot of plane `j` (R271). -/
def Surf.slotAddr (s : Surf) (b j : Nat) : Nat := s.back + 72 * (s.planes * b + j)

/-- The backing slots and map bytes of some blocks, and the surface's entry, can be used: their pages wait for the driver where they are pending (R333);
`write` that the slots are written. -/
def touchBlocks (cfg : Cfg) (s : Surf) (bs : List Nat) (write : Bool) (m : Mach) : Mach × Pages :=
  thenTouch (touchEntry cfg s.vf s.idx m) fun m =>
    thenTouch (touchPages cfg s.vf true (bs.map fun b => s.smap + b / 4) m)
      (touchPages cfg s.vf write (bs.flatMap fun b => pageVas (s.slotAddr b 0) (72 * s.planes)))

/-- The blocks of a square in a state. -/
def Surf.squareBlocks (s : Surf) (sq st : Nat) : List Nat := (List.range s.blocks).filter fun b => s.squareNo b == sq && s.blockState b == st

/-- Write a block's planes to its slots, and free its frame (R275, R277). -/
def spillBlock (cfg : Cfg) (s : Surf) (b : Nat) (m : Mach) : Surf × Mach :=
  let r := (List.range s.planes).foldl (fun (r : Nat × Mach) j =>
    let bytes := rakeEncode (r.2.planeWords s b j)
    (r.1 + bytes.length, writeVaList cfg s.vf (s.slotAddr b j) bytes r.2)) (0, m)
  let m := { r.2 with fmem := clearRange r.2.fmem (s.blockKey b) (s.blockKey b + 256) }
  setBlockState cfg { s with spillb := s.spillb + r.1 } b 1 m

/-- Change the blocks of a list one after the other, then the surface's record and its entry. -/
def onBlocks (cfg : Cfg) (f : Surf → Nat → Mach → Surf × Mach) (s : Surf) (bs : List Nat) (m : Mach) : Mach :=
  let r := bs.foldl (fun (r : Surf × Mach) b => f r.1 b r.2) (s, m)
  writeEntry cfg r.1 (r.2.putSurf r.1)

/-- The Rake begins to spill every resident block of a square: state 2 (R274, R277). -/
def beginSpill (cfg : Cfg) (s : Surf) (sq : Nat) (m : Mach) : Mach :=
  onBlocks cfg (fun s b m => setBlockState cfg s b 2 m) s (s.squareBlocks sq 0) m

/-- The spill of a square comes to its end: its planes are in their slots, state 1, and its frames are free (R277). -/
def finishSpill (cfg : Cfg) (s : Surf) (sq : Nat) (m : Mach) : Mach := onBlocks cfg (spillBlock cfg) s (s.squareBlocks sq 2) m

/-- The Rake blocks of a block, plane by plane; none where a header is malformed (R277) or a slot has an uncorrectable error (R339). -/
def backingOf (cfg : Cfg) (m : Mach) (s : Surf) (b : Nat) : Option (List Nat × Nat) :=
  if (vaLost s.vf (s.slotAddr b 0) (72 * s.planes) m).isSome then none
  else (List.range s.planes).foldl (fun r j => r.bind fun (x : List Nat × Nat) =>
    let a := s.slotAddr b j
    (rakeLength (readVa cfg s.vf a 4 m)).map fun n =>
      (x.1 ++ [((List.range n).map fun i => readVa cfg s.vf (a + i) 1 m * 256 ^ i).sum], x.2 + n)) (some ([], 0))

/-- A block's texels from its planes, in a memory. -/
def putPlanes (s : Surf) (b : Nat) (planes : List Nat) (f : Mem) : Mem :=
  ((List.range planes.length).zip planes).foldl (fun f x =>
    ((List.range 16).zip (rakeDecode x.2)).foldl (fun f y =>
      writeN f (s.blockKey b + 16 * y.1 + 4 * x.1) (min 4 (texelBytes s.fmt)) y.2) f) f

/-- The last access of a square (R274). -/
def Surf.lastUse (s : Surf) (sq : Nat) : Nat := (SMap.get 0 s.access sq).max s.born

/-- Record an access to a block. -/
def Mach.useBlock (m : Mach) (s : Surf) (b : Nat) : Mach :=
  match m.surfs.find? fun x => x.vf == s.vf && x.idx == s.idx with
  | some x => m.putSurf { x with access := SMap.set 0 x.access (s.squareNo b) m.etime }
  | none => m

/-- Queued surface accesses of a VF. -/
def Mach.surfAccs (m : Mach) (vf : Nat) : List Acc :=
  (m.cores.flatMap fun c => c.2.accs).filter fun a =>
    a.path == .surf && (match m.group? a.gid with | some g => g.env.vf == vf | none => false)

/-- Some listed block lies in a square of a surface. -/
def Surf.anyIn (s : Surf) (sq : Nat) (x : Surf) (bs : List Nat) : Bool := x.vf == s.vf && x.idx == s.idx && bs.any fun b => s.squareNo b == sq

/-- A pending raster update of a square (R274): a pixel whose draw's depth, stencil or colour target is the surface. -/
def PixEnt.busies (p : PixEnt) (s : Surf) (sq : Nat) : Bool :=
  p.vf == s.vf && p.targets.contains s.handle && s.inside p.x p.y 0 && s.squareNo (s.block p.x p.y 0) == sq

/-- A square that the Rake may not take (R274): an access in flight, a matrix word's fetch among them, a refill in progress, a pending raster update, or a block
in a bank that a job card holds. -/
def Mach.busySquare (m : Mach) (s : Surf) (sq : Nat) : Bool :=
  ((m.surfAccs s.vf).any fun a => match accBlocks m s.vf a with
    | some (x, bs) => s.anyIn sq x bs
    | none => false)
  || (m.cores.any fun c => c.2.mwords.any fun w => w.started && (match m.group? w.gid with
    | some g => (match w.surfBlocks m g with
      | some (x, bs) => s.anyIn sq x ((bs.filter fun b => !w.got.contains b).take 1)
      | none => false)
    | none => false))
  || (m.pix.any fun p => p.busies s sq)
  || ((List.range s.blocks).any fun b => s.squareNo b == sq && (s.blockState b == 3 || (!s.away b && m.frameLocked s b)))

/-- What a placement needs: the region path of its owner, bytes, and bytes by tower; and the square being refilled. -/
structure Need where
  vf : Nat
  path : List Nat
  total : Nat
  towers : List (Nat × Nat × Nat)
  skip : Option (Nat × Nat)
  deriving DecidableEq, Repr

/-- The effective surface budget of a region in bytes. -/
def surfBudget (cfg : Cfg) (m : Mach) (vf r : Nat) : Nat := effective (regionChain cfg vf r m) 3 0 (·.surfb) * 65536

/-- Surfaces of the subtree of a region. -/
def subtreeSurfs (cfg : Cfg) (m : Mach) (vf r : Nat) : List Surf :=
  m.surfs.filter fun s => s.vf == vf && (regionPath cfg vf m treeDepth s.rcb).contains r

/-- Resident bytes of a list of surfaces. -/
def resBytes (ss : List Surf) : Nat := (ss.map Surf.resBytes).sum

/-- A surface as it stands once the spills in progress have ended. -/
def Surf.afterSpills (s : Surf) : Surf := { s with spilled := s.spilled.map fun e => if e.2 = 2 then (e.1, 1) else e }

/-- What is short for a placement: a region's budget or a tower's frames (R273). -/
inductive Short where
  | region (r : Nat)
  | tower (col t : Nat)
  deriving DecidableEq, Repr

/-- The first shortage. -/
def shortOf (cfg : Cfg) (m : Mach) (n : Need) : Option Short :=
  match n.path.find? fun r => decide (surfBudget cfg m n.vf r < resBytes (subtreeSurfs cfg m n.vf r) + n.total) with
  | some r => some (.region r)
  | none => (n.towers.find? fun t => decide (frameBytes cfg m n.vf t.1 t.2.1 <
      ((m.surfs.map fun s => m.inTower s t.1 t.2.1).sum) + t.2.2)).map fun t => .tower t.1 t.2.1

/-- The shortage no spill can relieve (R273). -/
def hopeless (cfg : Cfg) (m : Mach) (n : Need) : Bool :=
  (n.path.any fun r => decide (surfBudget cfg m n.vf r < n.total))
    || n.towers.any fun t => decide (frameBytes cfg m n.vf t.1 t.2.1 < t.2.2)

/-- Victim squares of some surfaces: those with a resident block, not busy, not being refilled, in a tower if one is
given. -/
def victims (m : Mach) (skip : Option (Nat × Nat)) (tower : Option (Nat × Nat)) (ss : List Surf) : List (Surf × Nat) :=
  ss.flatMap fun s =>
    let sqs := (((List.range s.blocks).filter fun b => !s.away b &&
      (match tower with | some t => m.placeBlock s b == t | none => true)).map s.squareNo).eraseDups
    (sqs.filter fun q => !m.busySquare s q && skip != some (s.idx, q)).map fun q => (s, q)

/-- The earlier victim: last access, then INDEX, then (layer, sy, sx) (R274). -/
def olderVictim (a b : Surf × Nat) : Bool :=
  let ka := a.1.lastUse a.2
  let kb := b.1.lastUse b.2
  decide (ka < kb) || (ka == kb && (decide (a.1.idx < b.1.idx) || (a.1.idx == b.1.idx && decide (a.2 < b.2))))

/-- The least of a list of victims. -/
def oldest : List (Surf × Nat) → Option (Surf × Nat)
  | [] => none
  | x :: xs => match oldest xs with
    | some y => if olderVictim y x then some y else some x
    | none => some x

/-- The victim for a shortage (R274). -/
def victimOf (cfg : Cfg) (m : Mach) (n : Need) : Short → Option (Surf × Nat)
  | .region r => oldest (victims m n.skip none (subtreeSurfs cfg m n.vf r))
  | .tower c t =>
    match oldest (victims m n.skip (some (c, t)) (subtreeSurfs cfg m n.vf (n.path.headD 0))) with
    | some v => some v
    | none => oldest (victims m n.skip (some (c, t)) (m.surfs.filter fun s => s.vf == n.vf))

/-- The Rake makes room for a placement: it begins to spill victims, one after the other as they qualify, until the spills in progress make it fit; true where it
fits now (R273, R274). -/
def makeRoom (cfg : Cfg) (n : Need) : Nat → Mach → Mach × Bool
  | 0, m => (m, false)
  | k + 1, m =>
    match shortOf cfg { m with surfs := m.surfs.map Surf.afterSpills } n with
    | none => (m, (shortOf cfg m n).isNone)
    | some sh => match victimOf cfg m n sh with
      | none => (m, false)
      | some v => match touchBlocks cfg v.1 (v.1.squareBlocks v.2 0) true m with
        | (m, .wait) => (m, false)
        | (m, .ready) => makeRoom cfg n k (beginSpill cfg v.1 v.2 m)

/-- More spills than there are resident squares. -/
def Mach.roomFuel (m : Mach) : Nat := (m.surfs.map Surf.blocks).sum + 1

/-- How far blocks are that an access needs: all in frames; on their way; or one has corrupt backing. -/
inductive Refill where
  | done (m : Mach)
  | wait (m : Mach)
  | corrupt
  deriving DecidableEq, Repr

/-- What the refill of a block needs (R273). -/
def refillNeed (cfg : Cfg) (m : Mach) (s : Surf) (b : Nat) : Need :=
  let pl := m.placeBlock s b
  { vf := s.vf, path := regionPath cfg s.vf m treeDepth s.rcb, total := s.blockBytes
    towers := [(pl.1, pl.2, s.blockBytes)], skip := some (s.idx, s.squareNo b) }

/-- A partition's Rake works: not while TSPLIT is being changed (R326). -/
def Mach.rakeRuns (m : Mach) (vf : Nat) : Bool := (m.vf vf).tsplitst != 1

/-- The refill of a spilled block begins, once there is room: state 3, in a frame of its own (R273, R277). -/
def beginRefill (cfg : Cfg) (m : Mach) (s : Surf) (b : Nat) : Refill :=
  if !m.rakeRuns s.vf then .wait m
  else match touchBlocks cfg s [b] false m with
  | (m, .wait) => .wait m
  | (m, .ready) => match backingOf cfg m s b with
    | none => .corrupt
    | some _ => match makeRoom cfg (refillNeed cfg m s b) m.roomFuel m with
      | (m, false) => .wait m
      | (m, true) => .wait (onBlocks cfg (fun s b m => setBlockState cfg s b 3 m) ((m.surfAt s.vf s.idx).getD s) [b] m)

/-- The refill of a block ends: its texels stand in its frame, state 0; a block whose backing has become corrupt stays spilled (R277). -/
def finishRefill (cfg : Cfg) (m : Mach) (s : Surf) (b : Nat) : Mach :=
  match backingOf cfg m s b with
  | none => onBlocks cfg (fun s b m => setBlockState cfg s b 1 m) s [b] m
  | some (planes, n) =>
    let m := { m with fmem := putPlanes s b planes m.fmem }
    (onBlocks cfg (fun s b m => setBlockState cfg { s with spillb := s.spillb - n } b 0 m) s [b] m).useBlock s b

/-- Bring a list of blocks in for a unit's accesses: a spilled one begins its refill, and the unit waits (R277); it waits for a bank that a job card holds (R260);
a bank that cannot be served is DATALOSS as a corrupt block is (R354). -/
def refillAll (cfg : Cfg) (vf idx : Nat) : List Nat → Mach → Refill
  | [], m => .done m
  | b :: bs, m =>
    match m.surfAt vf idx with
    | none => .done m
    | some s => match s.blockState b with
      | 0 => if m.frameLocked s b then .wait m else if m.frameLost s b then .corrupt else refillAll cfg vf idx bs (m.useBlock s b)
      | 1 => match beginRefill cfg m s b with
        | .corrupt => .corrupt
        | .done m => .wait m
        | .wait m => .wait m
      | _ => .wait m

/-! ### Allocation -/

/-- The end of an allocation request (R191, R273). -/
inductive AllocRes where
  | null
  | wait (m : Mach)
  | ok (m : Mach) (h : Word)
  deriving DecidableEq, Repr

/-- Free places of `n` bytes in a VF's backing reserve, on 4 KiB bounds. -/
def freePlaces (r : Vf) (n : Nat) : List Nat :=
  ((List.range ((r.ressize + 4095) / 4096)).map fun i => r.resbase + 4096 * i).filter fun a =>
    decide (a + n ≤ r.resbase + r.ressize) && r.resused.all fun u => decide (a + n ≤ u.1) || decide (u.1 + u.2 ≤ a)

/-- Take a place of the reserve: which one is a free choice. -/
def takePlace (vf n : Nat) (m : Mach) : Option (Nat × Mach) :=
  let ps := freePlaces (m.vf vf) n
  if ps.isEmpty then none
  else
    let p := m.pick ps.length
    let a := ps.getD p.1 0
    some (a, p.2.onVf vf fun r => { r with resused := (a, n) :: r.resused })

/-- Places for the slots and for the map of a surface (R269). -/
def freePlaces2 (vf backN mapN : Nat) (m : Mach) : Option (Nat × Nat × Mach) :=
  (takePlace vf backN m).bind fun x => (takePlace vf mapN x.2).map fun y => (x.1, y.1, y.2)

/-- Places go back to the reserve (R278). -/
def Mach.givePlaces (m : Mach) (vf : Nat) (ps : List Nat) : Mach := m.onVf vf fun r => { r with resused := r.resused.filter fun u => !ps.contains u.1 }

/-- Bytes a surface's blocks need, tower by tower (R270). -/
def Mach.towerNeeds (m : Mach) (s : Surf) : List (Nat × Nat × Nat) :=
  let ps := (List.range s.blocks).map fun b => m.placeBlock s b
  ps.eraseDups.map fun p => (p.1, p.2, (ps.filter fun x => x == p).length * s.blockBytes)

/-- Allocate a surface of a partition for an owning region (R191, R266 to R273). `seed` 255 is a free choice (R267). -/
def allocSurface (cfg : Cfg) (vf rcb layers fmt height width twin seed : Nat) (m : Mach) : AllocRes :=
  match (List.range (m.vf vf).surfcnt).find? fun i => !m.surfs.any fun s => s.vf == vf && s.idx == i with
  | none => .null
  | some idx =>
    let p := m.pick 48
    let m := if seed = 255 then p.2 else m
    let s : Surf := { vf := vf, idx := idx, tag := SMap.get 1 m.tags (vf * 65536 + idx), st := 1, seed := if seed = 255 then p.1 else seed
                      twin := twin, layers := layers, fmt := fmt, height := height, width := width, rcb := rcb, smap := 0, back := 0
                      born := m.etime }
    let need : Need := { vf := vf, path := regionPath cfg vf m treeDepth rcb, total := s.blocks * s.blockBytes
                         towers := m.towerNeeds s, skip := none }
    if (cfg.part vf).tsSurf = 0 || hopeless cfg m need then .null
    else
      let backN := roundUp (s.blocks * s.planes * 72) 4096
      let mapN := roundUp (ceilDiv s.blocks 4) 4096
      if (freePlaces2 vf backN mapN m).isNone then .null
      else match touchEntry cfg vf idx m with
        | (m, .wait) => .wait m
        | (m, .ready) => match makeRoom cfg need m.roomFuel m with
          | (m, false) => .wait m
          | (m, true) => match freePlaces2 vf backN mapN m with
            | none => .null
            | some (back, smap, m) => match touchPages cfg vf true (pageVas smap (ceilDiv s.blocks 4)) m with
              | (m, .wait) => .wait (m.givePlaces vf [back, smap])
              | (m, .ready) =>
                let s := { s with back := back, smap := smap }
                let m := { m with surfs := m.surfs ++ [s] }
                let m := writeVaList cfg vf smap (List.replicate (ceilDiv s.blocks 4) 0) m
                .ok (writeEntry cfg s m) s.handle

/-- A surface is being freed (R278). -/
def freeSurface (cfg : Cfg) (s : Surf) (m : Mach) : Mach :=
  let s := { s with st := 2 }
  writeEntry cfg s (m.putSurf s)

/-- SURFACE_DISCARD: no access, fetch or raster update of the surface is outstanding; frames, slots and backing go, ST
becomes 0 and TAG advances past 0 (R267, R278). -/
def discardSurface (cfg : Cfg) (s : Surf) (m : Mach) : Mach :=
  let tag := if s.tag = 0xFFFF then 1 else s.tag + 1
  let m := { m with
    surfs := m.surfs.filter fun x => !(x.vf == s.vf && x.idx == s.idx)
    tags := SMap.set 1 m.tags (s.vf * 65536 + s.idx) tag
    fmem := clearRange m.fmem (s.blockKey 0) (s.blockKey 0 + 2 ^ 40) }
  putEntry cfg { s with st := 0, tag := tag, spillb := 0 } 0 (m.givePlaces s.vf [s.back, s.smap])

/-! ### Texture values -/

/-- Channel `c` of a texel's bytes, exactly (R193, R268); missing channels read 0, and 1 for A. -/
def texChannel (fmt t c : Nat) : FV :=
  if texelChannels fmt ≤ c then .fin false (Q.ofInt (if c = 3 then 1 else 0))
  else match fmt with
    | 3 => fmt16.val (bitsOf t (16 * c) 16)
    | 4 => fmtBf.val (bitsOf t (16 * c) 16)
    | 5 => .fin false { n := (bitsOf t (8 * c) 8 : Nat), d := 255 }
    | 6 =>
      let n := max (sext (bitsOf t (8 * c) 8) 8) (-127)
      .fin (decide (n < 0)) { n := n, d := 127 }
    | 7 => .fin false (Q.ofInt (bitsOf t 0 16 : Nat))
    | 9 => fmtE4.val (bitsOf t (8 * c) 8)
    | 10 => fmtE5.val (bitsOf t (8 * c) 8)
    | _ => fmt32.val (bitsOf t (32 * c) 32)

/-- round_ne to binary32 of a value. -/
def roundF32 (v : FV) : Nat := (finish fmt32 .ne 0 { v := v }).bits

/-- The four values of a texture read from its four texels (R193): weights in 256ths, one rounding. -/
def texValue (kind fmt fx fy : Nat) (t : List Nat) : Nat :=
  let ws := [(256 - fx) * (256 - fy), fx * (256 - fy), (256 - fx) * fy, fx * fy]
  let chan (c : Nat) : Nat :=
    if kind = 2 then roundF32 (texChannel fmt (t.getD c 0) 0)
    else match (ws.zip t).map fun x => (exMul (.fin false { n := (x.1 : Nat), e := -16 }) (texChannel fmt x.2 c)).v with
      | [] => 0
      | p :: ps => roundF32 (exactSum p ps)
  joinWords ((List.range 4).map chan)

/-- A texture read of resident texels. -/
def Mach.texRead (m : Mach) (s : Surf) (kind : Nat) (u v l : Word) : Nat :=
  texValue kind s.fmt (texCoord u s.width).2 (texCoord v s.height).2
    ((texTaps s kind u v l).map fun t => m.texel s t.1 t.2.1 t.2.2)

/-! ### Events of the Rake -/

/-- A square is the victim of a refill that a queued access waits for (R273, R274). -/
def rakeSpillWanted (cfg : Cfg) (m : Mach) (vf idx sq : Nat) : Bool :=
  m.rakeRuns vf && (m.surfAccs vf).any fun a => match accBlocks m vf a with
    | some (s, bs) => bs.any fun b => s.blockState b == 1 &&
        (match shortOf cfg { m with surfs := m.surfs.map Surf.afterSpills } (refillNeed cfg m s b) with
         | some sh => (match victimOf cfg m (refillNeed cfg m s b) sh with | some v => v.1.idx == idx && v.2 == sq | none => false)
         | none => false)
    | none => false

/-- RAKE_SPILL: a square that is being spilled is spilled; one that is the victim of a placement begins to be (R277). -/
def execRakeSpill (vf idx square : Nat) (s : State) : Host.Outcome State Fault Refusal :=
  onMach (fun cfg m => match m.surfAt vf idx with
    | none => m
    | some x =>
      if !(x.squareBlocks square 2).isEmpty then
        if m.rakeRuns vf then whenReady (touchBlocks cfg x (x.squareBlocks square 2) true m) (finishSpill cfg x square) else m
      else if rakeSpillWanted cfg m vf idx square then whenReady (touchBlocks cfg x (x.squareBlocks square 0) true m) (beginSpill cfg x square)
      else m) s

end Sys2Proof.Machine
end

