-- ==== Sys2Proof/Machine/Graph.lean ====
section
/-! DEFINITION. Graph: node descriptors and input queues (10 R218, R219), appending a record (08 R204, 17 R320), and the
words `emit` and `emit.t`. -/

namespace Sys2Proof.Machine

/-- A node descriptor (Table 10.2). -/
structure Node where
  kind : Nat := 0
  nemit : Nat := 0
  role : Nat := 0
  code : Nat := 0
  seglen : Nat := 0
  entry : Nat := 0
  coalesce : Nat := 0
  group : Nat := 0
  recsz : Nat := 0
  timeout : Nat := 0
  claim : Nat := 0
  initial : Nat := 0
  scratch : Nat := 0
  const : Nat := 0
  queue : Nat := 0
  qbind : List Nat := []
  emit : List Nat := []
  region : Nat := 0
  deriving DecidableEq, Repr

/-- Read descriptor `i` of a node table. -/
def readNode (cfg : Cfg) (vf table i : Nat) (m : Mach) : Node :=
  let a := table + 128 * i
  let w (o n : Nat) : Nat := readVa cfg vf (a + o) n m
  let d := w 0 4
  { kind := bitsOf d 28 4, nemit := bitsOf d 23 5, role := bitsOf d 21 2, code := w 4 8, seglen := w 12 4, entry := w 16 4
    coalesce := bitsOf (w 20 4) 0 11, group := bitsOf (w 20 4) 16 11, recsz := bitsOf (w 24 4) 0 9, timeout := w 26 2
    claim := w 28 4, initial := w 32 4, scratch := w 36 4, const := w 40 8, queue := w 48 8
    qbind := (List.range 7).map fun j => w (56 + 4 * j) 4, emit := (List.range 16).map fun j => w (84 + 2 * j) 2
    region := w 116 8 }

/-- The successors of a node. -/
def Node.successors (n : Node) : List Nat := n.emit.take n.nemit

/-- A queue header (R219). -/
structure QHdr where
  base : Nat
  cap : Nat
  head : Nat
  tail : Nat
  gate : Nat
  deriving DecidableEq, Repr

/-- Read a queue header. -/
def readQHdr (cfg : Cfg) (vf a : Nat) (m : Mach) : QHdr :=
  { base := readVa cfg vf a 8 m, cap := readVa cfg vf (a + 8) 4 m, head := readVa cfg vf (a + 12) 4 m
    tail := readVa cfg vf (a + 16) 4 m, gate := readVa cfg vf (a + 24) 8 m }

/-- Records in the queue, modulo 2^32. -/
def QHdr.count (h : QHdr) : Nat := (h.tail + 2 ^ 32 - h.head) % 2 ^ 32

/-- The queue is full. -/
def QHdr.full (h : QHdr) : Bool := decide (h.cap ≤ h.count)

/-- Address of record `n`. -/
def QHdr.recAddr (h : QHdr) (recsz n : Nat) : Nat := h.base + recsz * (n % h.cap)

/-- The binding of a leaf (R318). -/
def Mach.binding? (m : Mach) (vf leaf : Nat) : Option Binding := (m.vf vf).binds.find? fun b => b.leaf == leaf

/-- Change a leaf's binding. -/
def Mach.onBinding (m : Mach) (vf leaf : Nat) (f : Binding → Binding) : Mach :=
  m.onVf vf fun r => { r with binds := r.binds.map fun b => if b.leaf == leaf then f b else b }

/-- HOSTQ when a HOST node's TAIL advances, at most once per HQMOD µs (R320). `hqLast` is one more than the time of the
last interrupt. -/
def Mach.hostq (m : Mach) (vf : Nat) : Mach :=
  let r := m.vf vf
  if r.hqLast = 0 ∨ r.hqLast - 1 + r.hqmod * 1000000 ≤ m.etime then
    (m.onVf vf fun r => { r with hqLast := m.etime + 1, hqHeld := false }).raise vf 5
  else m.onVf vf fun r => { r with hqHeld := true }

/-- Append a record to a node's queue: the record, then TAIL (R204, R219, R320); none when the queue is full. -/
def appendRecord (cfg : Cfg) (vf : Nat) (n : Node) (bytes : List Byte) (m : Mach) : Option Mach :=
  let h := readQHdr cfg vf n.queue m
  if h.full then none
  else
    let m := writeVaList cfg vf (h.recAddr n.recsz h.tail) bytes m
    let m := writeVa cfg vf (n.queue + 16) 4 ((h.tail + 1) % 2 ^ 32) m
    some (if n.kind = 6 then m.hostq vf else m)

/-- What an append to a node's queue uses: its descriptor, its queue's header, and the record's place (R218, R219). -/
def touchAppend (cfg : Cfg) (vf table i : Nat) (m : Mach) : Mach × Pages :=
  thenTouch (touchStruct cfg vf (table + 128 * i) 128 false m) fun m =>
    let n := readNode cfg vf table i m
    thenTouch (touchStruct cfg vf n.queue 64 true m) fun m =>
      let h := readQHdr cfg vf n.queue m
      if h.full then (m, .ready) else touchPages cfg vf true (pageVas (h.recAddr n.recsz h.tail) n.recsz) m

/-- Append a fixed-function node's output to the queue of node `i`: it waits while the queue is full or a page of it is pending (R287, R333). -/
def appendTo (cfg : Cfg) (vf table i : Nat) (bytes : List Byte) (m : Mach) : Refill :=
  match touchAppend cfg vf table i m with
  | (m, .wait) => .wait m
  | (m, .ready) => match appendRecord cfg vf (readNode cfg vf table i m) bytes m with
    | some m => .done m
    | none => .wait m

/-- The descriptor of successor `j` of a group's node. -/
def successor (cfg : Cfg) (m : Mach) (g : Group) (j : Nat) : Option Node :=
  (g.env.emit[j]?).map fun i => readNode cfg g.env.vf g.env.table i m

/-- The checks of an emission (R204): OPFORM for j, ALIGN, SPACE, AMPOVER for the 257th mesh record of a task thread. -/
def emitCheck (cfg : Cfg) (m : Mach) (g : Group) (l : LaneIn) (j : Nat) : Option (Cause × Nat) :=
  let off := l.val 0
  match successor cfg m g j with
  | none => some (.opform, 0)
  | some n =>
    if off % 16 ≠ 0 then some (.align, off)
    else if granules g.hold.scr < off + n.recsz then some (.space, off)
    else if g.env.role = 1 ∧ n.kind = 0 ∧ n.role = 2 ∧ 256 ≤ l.t.mesh then some (.ampover, 256)
    else none

/-- How an emission ends: the record is appended, the queue is full, or a page of the queue is pending (R204, R333). -/
inductive Emitted where
  | yes
  | full
  | wait
  deriving DecidableEq, Repr

/-- The queue of successor `j` of a group's node can be used. -/
def touchSuccessor (cfg : Cfg) (g : Group) (j : Nat) (m : Mach) : Mach × Pages :=
  match g.env.emit[j]? with
  | some i => touchAppend cfg g.env.vf g.env.table i m
  | none => (m, .ready)

/-- Append one lane's record where there is room. Each emission is a release at package scope, which writes back
the core's L1 (R204). -/
def emitRecord (cfg : Cfg) (m : Mach) (g : Group) (l : LaneIn) (j : Nat) : Option Mach :=
  (successor cfg m g j).bind fun n =>
    let m := m.l1BackAll g.column g.core
    (appendRecord cfg g.env.vf n (readList m.smem (scrKey g.gid (l.val 0)) n.recsz) m).map fun m =>
      if g.env.role = 1 ∧ n.kind = 0 ∧ n.role = 2 then m.onThread g.gid l.t.tid fun t => { t with mesh := t.mesh + 1 } else m

/-- Emit one lane's record (R204). -/
def emitLane (cfg : Cfg) (m : Mach) (g : Group) (l : LaneIn) (j : Nat) : Mach × Emitted :=
  match touchSuccessor cfg g j m with
  | (m, .wait) => (m, .wait)
  | (m, .ready) => match emitRecord cfg m g l j with
    | some m => (m, .yes)
    | none => (m, .full)

/-- Emission waits for an acquire, for the thread's earlier accesses, and for a locked bank. -/
def emitBusy (m : Mach) (g : Group) (l : LaneIn) : Bool := accPending m g l.t.tid || m.lockedAt g.column g.core (l.val 0) 256

/-- `emit`: appends in ascending gang position; with a full queue the lane, and those behind it, wait (R204). -/
def execEmit (f : FEmit) (q : Option Modifier) (s : State) : Host.Outcome State Fault Refusal :=
  word { c := f.c, q := q, stop := true, srcs := [{ f := f.a, mm := f.m }]
         exe := fun cfg m _ g l => emitCheck cfg m g l f.j
         blk := true
         busy := fun _ m _ g l => emitBusy m g l
         act := fun cfg m _ g ls => (sortLanes (ons ls)).foldl (fun (r : Mach × List Nat) l =>
           if r.2.isEmpty then
             match emitLane cfg r.1 g l f.j with
             | (m, .yes) => (m, [])
             | (m, _) => (m, [l.t.tid])
           else (r.1, r.2 ++ [l.t.tid])) (m, []) } s

/-- `emit.t`: k[KD] := 1 where the record was appended, 0 where the queue was full (R204). -/
def execEmitT (f : FEmitt) (q : Option Modifier) (s : State) : Host.Outcome State Fault Refusal :=
  word { c := f.c, q := q, stop := true, srcs := [{ f := f.a, mm := f.m }]
         exe := fun cfg m _ g l => emitCheck cfg m g l f.j
         blk := true
         busy := fun _ m _ g l => emitBusy m g l
         act := fun cfg m k g ls => (sortLanes (ons ls)).foldl (fun (r : Mach × List Nat) l =>
           if r.2.isEmpty then
             match emitLane cfg r.1 g l f.j with
             | (m, .wait) => (m, [l.t.tid])
             | (m, e) => ((laneNow (fun _ => predWrite f.k (e == .yes)) m k [l]).1, [])
           else (r.1, r.2 ++ [l.t.tid])) (m, []) } s

end Sys2Proof.Machine
end

