-- ==== Sys2Proof/Machine/Raster.lean ====
section
/-! DEFINITION. Raster: the RASTER node and the bank raster units (12 R279 to R285), the export words (08 R194), `occ`
(R195) and `exit` (05 R119), which hands a pixel thread's exports to its raster unit. -/

namespace Sys2Proof.Machine

/-! ### The raster state block -/

/-- Word `i` of a raster state block (Table 12.4). -/
def rsWord (cfg : Cfg) (vf a i : Nat) (m : Mach) : Nat := readVa cfg vf (a + 4 * i) 4 m

/-- Handles of a state block: DEPTH, STEN and the colour targets in use. -/
structure RasterState where
  depth : Word
  sten : Word
  cts : List Word
  w10 : Nat
  w11 : Nat
  blend : List Nat
  x0 : Nat
  y0 : Nat
  x1 : Nat
  y1 : Nat
  deriving DecidableEq, Repr

/-- Colour targets. -/
def RasterState.nt (r : RasterState) : Nat := bitsOf r.w10 5 3 + 1

/-- EARLYZ. -/
def RasterState.early (r : RasterState) : Bool := bitOf r.w10 4

/-- Read a raster state block (Table 12.4). -/
def readRaster (cfg : Cfg) (vf a : Nat) (m : Mach) : RasterState :=
  let w (i : Nat) : Nat := rsWord cfg vf a i m
  { depth := BitVec.ofNat 32 (w 0), sten := BitVec.ofNat 32 (w 1)
    cts := (List.range (bitsOf (w 10) 5 3 + 1)).map fun j => BitVec.ofNat 32 (w (2 + j))
    w10 := w 10, w11 := w 11, blend := (List.range 8).map fun j => w (12 + j)
    x0 := bitsOf (w 20) 0 16, y0 := bitsOf (w 20) 16 16, x1 := bitsOf (w 21) 0 16, y1 := bitsOf (w 21) 16 16 }

/-- A state block with a field that is refused at binding (R279, Table 12.4). -/
def rasterRefused (r : RasterState) : Bool :=
  bitsOf r.w10 11 21 != 0
    || r.blend.any fun b => decide (6 ≤ bitsOf b 0 3) || decide (6 ≤ bitsOf b 3 3) || decide (5 ≤ bitsOf b 6 3)

/-- The code of a ZFUNC or SFUNC as a comparison (Table 12.4), on two values that are not NaN. -/
def zTest (func : Nat) (a b : FV) : Bool :=
  match func with
  | 0 => false
  | 1 => (fcompare 2 a b).1
  | 2 => (fcompare 3 a b).1
  | 3 => (fcompare 0 a b).1
  | 4 => (fcompare 4 a b).1
  | 5 => (fcompare 5 a b).1
  | 6 => (fcompare 1 a b).1
  | _ => true

/-- A stencil operation on 8 bits (Table 12.4). -/
def stencilOp (op ref sv : Nat) : Nat :=
  match op with
  | 0 => sv
  | 1 => 0
  | 2 => ref
  | 3 => min (sv + 1) 255
  | 4 => sv - 1
  | 5 => 255 - sv
  | 6 => (sv + 1) % 256
  | _ => (sv + 255) % 256

/-- Column of a twin that holds a pixel of layer 0 (R270, R285). -/
def pixelColumn (twin x y : Nat) : Nat := 2 * twin + (x / 8 + y / 8) % 2

/-- Key of an occlusion counter. -/
def occKey (col draw : Nat) : Nat := col * 65536 + draw

/-- The tests of R283 on a pixel whose blocks are resident: stencil stored, depth stored, counter advanced; and whether
the pixel passes. R281 does not clip to the stencil surface; of a pixel outside it the spec states no stencil value: it is free, and none is stored (DESIGN
CHOICE, log entry 49). -/
def rasterTest (m : Mach) (vf : Nat) (r : RasterState) (twin draw x y : Nat) (z : Word) : Mach × Bool :=
  let st := (m.surf? vf r.sten).filter fun s => s.inside x y 0
  let sv := match st with
    | some s => m.texel s x y 0 % 256
    | none => Config.freeBits (2 ^ 130 + x * 65536 + y) % 256
  let ref := bitsOf r.w11 0 8
  let mask := bitsOf r.w11 8 8
  let spass : Bool := r.sten == 0 || zTest (bitsOf r.w11 16 3) (.fin false (Q.ofInt (ref &&& mask : Nat))) (.fin false (Q.ofInt (sv &&& mask : Nat)))
  let dp := m.surf? vf r.depth
  let zv := fmt32.val z.toNat
  let zpass : Bool := r.depth == 0 || (!zv.isNan && (match dp with
    | some s => zTest (bitsOf r.w10 0 3) zv (fmt32.val (m.texel s x y 0))
    | none => false))
  let m := match st with
    | some s =>
      let op := if spass then (if zpass then bitsOf r.w11 25 3 else bitsOf r.w11 22 3) else bitsOf r.w11 19 3
      let old := m.texel s x y 0
      m.setTexel s x y 0 (old / 256 * 256 + stencilOp op ref sv)
    | none => m
  if spass && zpass then
    let m := match dp with
      | some s => if bitOf r.w10 3 then m.setTexel s x y 0 z.toNat else m
      | none => m
    ({ m with occ := SMap.modify 0 m.occ (occKey (pixelColumn twin x y) draw) fun n => min (n + 1) (2 ^ 32 - 1) }, true)
  else (m, false)

/-! ### Blending -/

/-- 1.0. -/
def oneV : FV := .fin false (Q.ofInt 1)

/-- A blend factor (Table 12.4). -/
def blendFactor (code : Nat) (sa da : FV) : FV :=
  match code with
  | 0 => .fin false (Q.ofInt 0)
  | 1 => oneV
  | 2 => sa
  | 3 => (exAdd oneV sa.neg).v
  | 4 => da
  | _ => (exAdd oneV da.neg).v

/-- The blended channel as a binary32 pattern (R284). -/
def blendChannel (b : Nat) (s d sa da : FV) : Nat :=
  if !bitOf b 9 then roundF32 s
  else
    let fs := blendFactor (bitsOf b 0 3) sa da
    let fd := blendFactor (bitsOf b 3 3) sa da
    let ps := (exMul s fs).v
    let pd := (exMul d fd).v
    match bitsOf b 6 3 with
    | 0 => roundF32 (exAdd ps pd).v
    | 1 => roundF32 (exAdd ps pd.neg).v
    | 2 => roundF32 (exAdd pd ps.neg).v
    | 3 => roundF32 (exMin s d).v
    | _ => roundF32 (exMax s d).v

/-- round_ne of a value clamped to a range, after scaling; NaN gives 0 (R284). -/
def toUnorm (v : Nat) (scale : Int) (lo hi : Q) : Int :=
  match fmt32.val v with
  | .nan _ => 0
  | .inf n => (((if n then lo else hi).mul (Q.ofInt scale))).roundNe
  | .fin _ q => (((Q.min (Q.max q lo) hi)).mul (Q.ofInt scale)).roundNe

/-- A channel converted once to the target format: its bits and their width (R284). -/
def storeChannel (fmt v : Nat) : Nat × Nat :=
  match fmt with
  | 3 => ((convert fmt32 fmt16 v).bits, 16)
  | 4 => ((convert fmt32 fmtBf v).bits, 16)
  | 5 => ((toUnorm v 255 (Q.ofInt 0) (Q.ofInt 1)).toNat, 8)
  | 6 => (bitsI (toUnorm v 127 (Q.ofInt (-1)) (Q.ofInt 1)) 8, 8)
  | 7 => ((toUnorm v 1 (Q.ofInt 0) (Q.ofInt 65535)).toNat, 16)
  | 9 => ((convert fmt32 fmtE4 v).bits, 8)
  | 10 => ((convert fmt32 fmtE5 v).bits, 8)
  | _ => ((convert fmt32 fmt32 v).bits, 32)

/-- The export of a channel. -/
def Export.chan (e : Export) (c : Nat) : Word :=
  match c with
  | 0 => e.r
  | 1 => e.g
  | 2 => e.b
  | _ => e.a

/-- Blend an export into a resident target (R284). -/
def blendTarget (m : Mach) (s : Surf) (b x y : Nat) (e : Export) : Mach :=
  let old := m.texel s x y 0
  let sa := fmt32.val e.a.toNat
  let da := texChannel s.fmt old 3
  let new := (List.range (texelChannels s.fmt)).foldl (fun t c =>
    if bitOf b (10 + c) then
      let v := storeChannel s.fmt (blendChannel b (fmt32.val (e.chan c).toNat) (texChannel s.fmt old c) sa da)
      putBits t (v.2 * c) v.2 v.1
    else t) old
  m.setTexel s x y 0 new

/-! ### Pixel updates in submission order -/

/-- The surfaces a state block names. -/
def RasterState.handles (r : RasterState) : List Word :=
  ((if r.depth = 0 then [] else [r.depth]) ++ (if r.sten = 0 then [] else [r.sten]) ++ r.cts)

/-- Bring in the blocks of a pixel in all surfaces of a list. -/
def refillPixel (cfg : Cfg) (vf x y : Nat) : List Word → Mach → Refill
  | [], m => .done m
  | h :: hs, m => match m.surf? vf h with
    | none => refillPixel cfg vf x y hs m
    | some s =>
      if s.inside x y 0 then
        match refillAll cfg vf s.idx [s.block x y 0] m with
        | .done m => refillPixel cfg vf x y hs m
        | r => r
      else refillPixel cfg vf x y hs m

/-- The update of a pixel whose thread has exited: the tests, unless they ran early, then blending (R283). -/
def applyPixel (cfg : Cfg) (p : PixEnt) (m : Mach) : Refill :=
  match touchStruct cfg p.vf p.state 128 false m with
  | (m, .wait) => .wait m
  | (m, .ready) =>
  let r := readRaster cfg p.vf p.state m
  match refillPixel cfg p.vf p.x p.y (if p.early then r.cts else r.handles) m with
  | .done m =>
    let t := if p.early then (m, p.passed) else rasterTest m p.vf r p.twin p.draw p.x p.y (p.expZ.getD p.z)
    if t.2 then
      .done (p.expC.foldl (fun m e => match (r.cts[e.target]?).bind (m.surf? p.vf) with
        | some s => if s.inside p.x p.y 0 then blendTarget m s (r.blend.getD e.target 0) p.x p.y e else m
        | none => m) t.1)
    else .done t.1
  | x => x

/-- An earlier primitive of the same node still has to update the pixel (R283). -/
def earlierPixel (l : List PixEnt) (p : PixEnt) : Bool :=
  (l.takeWhile fun x => x.id != p.id).any fun x => x.vf == p.vf && x.state == p.state && x.x == p.x && x.y == p.y

/-- Perform every pixel update that may be performed, in submission order. A refill that finds its backing corrupt stops
the fault domain of the pixel's leaf (R277). -/
def drainPixels (cfg : Cfg) (m : Mach) : Mach :=
  (m.pix.map (·.id)).foldl (fun m i => match m.pix.find? fun p => p.id == i with
    | none => m
    | some p =>
      if p.ready && !earlierPixel m.pix p && !(m.vf p.vf).away && m.rakeRuns p.vf then
        match applyPixel cfg p m with
        | .done m' => { m' with pix := m'.pix.filter fun x => x.id != i }
        | .wait m' => m'
        | .corrupt => ({ m with pix := m.pix.filter fun x => x.id != i }).reportLoss (pixelColumn p.twin p.x p.y) p.vf (domainRoot cfg p.vf p.leaf m)
      else m) m

/-- A pixel thread exits: its exports go to the raster unit (R194). -/
def Mach.exitPixel (m : Mach) (t : Thread) : Mach :=
  match t.pixel.bind (·.ent) with
  | none => m
  | some i => { m with pix := m.pix.map fun p =>
      if p.id == i then { p with ready := true, expZ := t.expZ, expC := t.expC } else p }

/-- `exit`: the thread ends, counts as arrived at every barrier of its group, and its exports are handed over; a
speculating thread stops first (R119, R194). -/
def execExit (f : FC) (q : Option Modifier) (s : State) : Host.Outcome State Fault Refusal :=
  word { c := f.c, q := q, stop := true
         act := fun cfg m k _ ls =>
           let m := ((ons ls).foldl (fun m l => m.exitPixel l.t) m)
           let m := m.mapLanes k.gid (ons ls) fun _ t => { t.take k 0 with exited := true }
           (drainPixels cfg (m.checkBarrier k.gid), []) } s

/-! ### Exports -/

/-- `zexp`: records a depth; OPFORM outside a pixel program node, and under EARLYZ (R194, R283). -/
def execZexp (f : FA) (q : Option Modifier) (s : State) : Host.Outcome State Fault Refusal :=
  word { c := f.c, q := q, cls := 1, stop := true, srcs := [{ f := f.a, mm := f.m }]
         exe := fun _ _ _ g l => if g.env.role != 3 || (l.t.pixel.map (·.early)).getD false then some (.opform, 0) else none
         act := fun _ m k _ ls => (m.mapLanes k.gid (ons ls) fun l t => { t with expZ := some (BitVec.ofNat 32 (l.val 0)) }, []) } s

/-- `cexp`: records four channels for a target; OPFORM outside a pixel program node and beyond the draw's targets (R194). -/
def execCexp (f : FCexp) (q : Option Modifier) (s : State) : Host.Outcome State Fault Refusal :=
  word { c := f.c, q := q, cls := 1, stop := true, srcs := [{ f := f.a, mm := f.m, w := 4 }]
         exe := fun _ _ _ g l => if g.env.role != 3 || decide ((l.t.pixel.map (·.nt)).getD 8 ≤ f.t) then some (.opform, 0) else none
         act := fun _ m k _ ls => (m.mapLanes k.gid (ons ls) fun l t =>
           { t with expC := (t.expC.filter fun e => e.target != f.t) ++
               [{ target := f.t, r := BitVec.ofNat 32 (l.val 0), g := BitVec.ofNat 32 (l.val 0 / 2 ^ 32)
                  b := BitVec.ofNat 32 (l.val 0 / 2 ^ 64), a := BitVec.ofNat 32 (l.val 0 / 2 ^ 96) }] }, []) } s

/-- `occ`: the sum of a draw's counters over both columns of the core's twin; above 65,535 SPACE (R195). Of a sum beyond 32 bits the spec does not say what the
register takes: its low 32 bits (DESIGN CHOICE, log entry 50). -/
def execOcc (f : FXv) (q : Option Modifier) (s : State) : Host.Outcome State Fault Refusal :=
  word { c := f.c, q := q, cls := 1, srcs := [{ f := f.a, mm := f.m }], dst := some { f := f.d }
         exe := fun _ _ _ _ l => if 65535 < l.val 0 then some (.space, 0) else none
         act := fun _ m k g ls =>
           let twin := g.column / 2
           laneNow (fun l => resWrites f.d 1 (SMap.get 0 m.occ (occKey (2 * twin) (l.val 0))
             + SMap.get 0 m.occ (occKey (2 * twin + 1) (l.val 0)))) m k ls } s

/-! ### RASTER -/

/-- A vertex. -/
structure Vtx where
  x : Q
  y : Q
  z : Q
  deriving DecidableEq, Repr

/-- det(a - o, b - o). -/
def det (o a b : Vtx) : Q := ((a.x.sub o.x).mul (b.y.sub o.y)).sub ((b.x.sub o.x).mul (a.y.sub o.y))

/-- The vertices of a primitive record; none when a coordinate is NaN or infinite (R281). -/
def vertices (ws : List Nat) : Option (Vtx × Vtx × Vtx) :=
  let c (i : Nat) : Option Q := f32Q (BitVec.ofNat 32 (ws.getD i 0))
  match c 0, c 1, c 2, c 3, c 4, c 5, c 6, c 7, c 8 with
  | some a, some b, some d, some e, some f, some g, some h, some i, some j =>
    some ({ x := a, y := b, z := d }, { x := e, y := f, z := g }, { x := h, y := i, z := j })
  | _, _, _, _, _, _, _, _, _ => none

/-- A vertex of an edge against the third vertex: the edge a-b of a triangle with the vertex c beside it is a top or a left
edge (R281). -/
def topLeft (a b c : Vtx) : Bool :=
  if a.y.eq b.y then a.y.lt c.y
  else
    -- x of the edge line at c's height, against c
    let t := (c.y.sub a.y).div (b.y.sub a.y)
    (a.x.add ((b.x.sub a.x).mul t)).lt c.x

/-- Barycentrics of a pixel centre (R281). -/
structure Bary where
  b0 : Q
  b1 : Q
  b2 : Q
  deriving DecidableEq, Repr

/-- Barycentrics at pixel (x, y). -/
def bary (v0 v1 v2 : Vtx) (x y : Nat) : Bary :=
  let p : Vtx := { x := { n := 2 * (x : Int) + 1, e := -1 }, y := { n := 2 * (y : Int) + 1, e := -1 }, z := Q.ofInt 0 }
  let d := det v0 v1 v2
  let b1 := (det v0 p v2).div d
  let b2 := (det v0 v1 p).div d
  { b0 := ((Q.ofInt 1).sub b1).sub b2, b1 := b1, b2 := b2 }

/-- Coverage: all three positive; a zero counts where its edge, or each of two, is top or left (R281). -/
def covers (v0 v1 v2 : Vtx) (b : Bary) : Bool :=
  let pos (q : Q) (tl : Bool) : Bool := decide (0 < q.n) || (q.n == 0 && tl)
  pos b.b0 (topLeft v1 v2 v0) && pos b.b1 (topLeft v2 v0 v1) && pos b.b2 (topLeft v0 v1 v2)

/-- Interpolated depth: one rounding (R281). -/
def depthAt (v0 v1 v2 : Vtx) (b : Bary) : Word :=
  f32Of ((v0.z.add (b.b1.mul (v1.z.sub v0.z))).add (b.b2.mul (v2.z.sub v0.z)))

/-- Ceiling of the largest coordinate, floor of the least, limited to an extent. -/
def pixelRange (vs : List Q) (n : Nat) : List Nat :=
  let lo := vs.foldl (fun a v => min a v.floor) (n : Int)
  let hi := vs.foldl (fun a v => max a (v.floor + 1)) 0
  (List.range n).filter fun i => decide (lo ≤ i) && decide ((i : Int) ≤ hi)

/-- The state of a draw. -/
def Mach.draw? (m : Mach) (twin d : Nat) : Option Draw := m.draws.find? fun x => x.twin == twin && x.draw == d

/-- DSTART clears a draw's counters in both columns (R285). -/
def Mach.startDraw (m : Mach) (twin d : Nat) : Mach :=
  { m with
    occ := SMap.set 0 (SMap.set 0 m.occ (occKey (2 * twin) d) 0) (occKey (2 * twin + 1) d) 0
    draws := { twin := twin, draw := d } :: m.draws.filter fun x => !(x.twin == twin && x.draw == d) }

/-- DEND of a draw has been processed. -/
def Mach.endDraw (m : Mach) (twin d : Nat) : Mach :=
  { m with draws := { twin := twin, draw := d, ended := true } :: m.draws.filter fun x => !(x.twin == twin && x.draw == d) }

/-- The covered pixels of a 2×2 quad with their barycentrics: index, x, y (R282). -/
def quadPixels (v0 v1 v2 : Vtx) (r : RasterState) (ss : List Surf) (qx qy : Nat) : List (Nat × Nat × Nat × Bary) :=
  (List.range 4).filterMap fun i =>
    let x := qx + i % 2
    let y := qy + i / 2
    let b := bary v0 v1 v2 x y
    if covers v0 v1 v2 b && decide (r.x0 ≤ x) && decide (x < r.x1) && decide (r.y0 ≤ y) && decide (y < r.y1)
      && ss.all fun s => s.inside x y 0
    then some (i, x, y, b) else none

/-- A pixel-quad record (R282). -/
def quadRecord (qx qy cov draw prim : Nat) (bs : List Bary) (payload : List Nat) : List Byte :=
  let ws := [qx + qy * 65536, cov + draw * 256] ++ (bs.flatMap fun b => [(f32Of b.b1).toNat, (f32Of b.b2).toNat]) ++ [prim] ++ payload
  ws.flatMap fun w => (List.range 4).map fun i => BitVec.ofNat 8 (w / 256 ^ i)

/-- What a RASTER step needs beside its record. -/
structure RasterCtx where
  vf : Nat
  leaf : Nat
  table : Nat
  succIdx : Nat
  succ : Node
  st : RasterState
  stAddr : Nat
  twin : Nat
  deriving DecidableEq, Repr

/-- The surfaces whose extent covers a pixel (R281): the targets and the depth surface. -/
def RasterState.clips (r : RasterState) : List Word := (if r.depth = 0 then [] else [r.depth]) ++ r.cts

/-- The early tests of a quad's pixels, in order (R283): the machine, and which pass. -/
def earlyTests (c : RasterCtx) (v : Vtx × Vtx × Vtx) (draw : Nat) (ps : List (Nat × Nat × Nat × Bary)) (m : Mach) : Mach × List Bool :=
  ps.foldl (fun x p =>
    let t := rasterTest x.1 c.vf c.st c.twin draw p.2.1 p.2.2.1 (depthAt v.1 v.2.1 v.2.2 p.2.2.2)
    (t.1, x.2 ++ [t.2])) (m, [])

/-- Bring in the blocks that the early tests of a quad touch: all its pixels lie in one block of each surface. -/
def refillQuad (cfg : Cfg) (c : RasterCtx) (ps : List (Nat × Nat × Nat × Bary)) (m : Mach) : Refill :=
  match ps.head? with
  | some p => if c.st.early then refillPixel cfg c.vf p.2.1 p.2.2.1 (c.st.handles.filter fun h => h == c.st.depth || h == c.st.sten) m else .done m
  | none => .done m

/-- Rasterise one quad: early tests, the record, and the pending updates of its pixels; it waits while the successor's queue
is full or a refill is due, and no test of it is done before (R282, R283, R287). -/
def rasterQuad (cfg : Cfg) (c : RasterCtx) (v : Vtx × Vtx × Vtx) (draw prim : Nat) (payload : List Nat) (qx qy : Nat) (m : Mach) :
    Refill :=
  let ps := quadPixels v.1 v.2.1 v.2.2 c.st (c.st.clips.filterMap (m.surf? c.vf)) qx qy
  match refillQuad cfg c ps m with
  | .wait m => .wait m
  | .corrupt => .corrupt
  | .done m =>
    if ps.isEmpty then .done m
    else
      let t := if c.st.early then earlyTests c v draw ps m else (m, ps.map fun _ => true)
      if c.st.early && t.2.all (· == false) then .done t.1
      else
        let h := readQHdr cfg c.vf c.succ.queue t.1
        let bs := (List.range 4).map fun i => bary v.1 v.2.1 v.2.2 (qx + i % 2) (qy + i / 2)
        let cov := (ps.map fun p => 2 ^ p.1).sum
        match touchAppend cfg c.vf c.table c.succIdx m, appendRecord cfg c.vf c.succ (quadRecord qx qy cov draw prim bs payload) t.1 with
        | (m, .wait), _ => .wait m
        | (_, .ready), none => .wait m
        | (_, .ready), some m =>
          let ents := ((List.range ps.length).zip (ps.zip t.2)).map fun (x : Nat × (Nat × Nat × Nat × Bary) × Bool) =>
            ({ id := m.nextPix + x.1, vf := c.vf, leaf := c.leaf, node := c.succIdx, record := h.tail, lane := x.2.1.1, state := c.stAddr
               targets := c.st.handles, twin := c.twin, draw := draw, x := x.2.1.2.1, y := x.2.1.2.2.1
               z := depthAt v.1 v.2.1 v.2.2 x.2.1.2.2.2, early := c.st.early, passed := x.2.2 } : PixEnt)
          .done { m with pix := m.pix ++ ents, nextPix := m.nextPix + ps.length }

/-- Words of a record. -/
def recWords (cfg : Cfg) (vf a n : Nat) (m : Mach) : List Nat := (List.range (n / 4)).map fun i => readVa cfg vf (a + 4 * i) 4 m

/-- The lowest package column of a partition. -/
def firstColumn (cfg : Cfg) (vf : Nat) : Nat := ((List.range 12).find? fun c => bitOf (cfg.part vf).twins (c / 2)).getD 0

/-- A fixed-function record error: counted, and the driver interrupted (R288, Table 19.2). -/
def Mach.fferr (m : Mach) (cfg : Cfg) (vf : Nat) : Mach :=
  ((m.onVf vf fun r => { r with fferr := r.fferr + 1 }).count (firstColumn cfg vf) 12).raise vf 6

/-- Records beyond HEAD that a node's gate has evaluated. -/
def Binding.seen (b : Binding) (node : Nat) : Nat := SMap.get 0 b.gateSeen node

/-- Set them. -/
def Mach.setSeen (m : Mach) (vf leaf node n : Nat) : Mach :=
  m.onBinding vf leaf fun b => { b with gateSeen := SMap.set 0 b.gateSeen node n }

/-- Advance HEAD past one record. -/
def stepHead (cfg : Cfg) (vf leaf node : Nat) (n : Node) (m : Mach) : Mach :=
  let h := readQHdr cfg vf n.queue m
  let m := writeVa cfg vf (n.queue + 12) 4 ((h.head + 1) % 2 ^ 32) m
  m.setSeen vf leaf node (((m.binding? vf leaf).map fun b => b.seen node).getD 0 - 1)

/-- Advance HEAD past records that a gate consumed (R286). -/
def skipDropped (cfg : Cfg) (vf leaf node : Nat) (n : Node) : Nat → Mach → Mach
  | 0, m => m
  | k + 1, m =>
    let h := readQHdr cfg vf n.queue m
    match m.binding? vf leaf with
    | none => m
    | some b =>
      if b.gateDrop.contains (node, h.head) then
        skipDropped cfg vf leaf node n k ((stepHead cfg vf leaf node n m).onBinding vf leaf fun b =>
          { b with gateDrop := b.gateDrop.erase (node, h.head) })
      else m

/-- Consume the record at HEAD of a node's queue, and those behind it that a gate has consumed. -/
def consumeRecord (cfg : Cfg) (vf leaf node : Nat) (n : Node) (m : Mach) : Mach :=
  let drops := ((m.binding? vf leaf).map fun b => b.gateDrop.length).getD 0
  skipDropped cfg vf leaf node n drops (stepHead cfg vf leaf node n m)

/-- The gate of a queue is enabled (Table 12.5). -/
def QHdr.gated (h : QHdr) : Bool := bitOf h.gate 63

/-- A partition whose scheduler works: ready, not being reset, loaded where it is time-shared, and not flushing (R314, R326,
R328). -/
def vfRuns (cfg : Cfg) (m : Mach) (vf : Nat) : Bool :=
  let r := m.vf vf
  (cfg.part vf).en && r.ready && !r.flrDrain && !r.away && r.tsplitst != 1

/-- The record at HEAD of a bound node whose leaf is not stopped and whose partition runs, with its queue; a gated record must have
passed. -/
def headRecord (cfg : Cfg) (vf leaf node kind : Nat) (m : Mach) : Option (Binding × Node × QHdr) :=
  match m.binding? vf leaf with
  | none => none
  | some b =>
    let n := readNode cfg vf b.table node m
    let h := readQHdr cfg vf n.queue m
    if vfRuns cfg m vf && !b.stopped && decide (node < b.count) && n.kind == kind && decide (h.count ≠ 0)
      && (!h.gated || decide (b.seen node ≠ 0)) then some (b, n, h) else none

/-- What an event of a bound node uses: the node's descriptor, its queue's header and the record at HEAD (R218, R219). -/
def touchNode (cfg : Cfg) (vf leaf node : Nat) (m : Mach) : Mach × Pages :=
  match m.binding? vf leaf with
  | none => (m, .ready)
  | some b => thenTouch (touchStruct cfg vf (b.table + 128 * node) 128 false m) fun m =>
    let n := readNode cfg vf b.table node m
    thenTouch (touchStruct cfg vf n.queue 64 false m) fun m =>
      let h := readQHdr cfg vf n.queue m
      if h.count = 0 then (m, .ready) else touchStruct cfg vf (h.recAddr n.recsz h.head) n.recsz false m

/-- The quads of a primitive in raster order. -/
def quadsOf (v : Vtx × Vtx × Vtx) (w h : Nat) : List (Nat × Nat) :=
  let xs := ((pixelRange [v.1.x, v.2.1.x, v.2.2.x] w).map fun x => x / 2 * 2).eraseDups
  let ys := ((pixelRange [v.1.y, v.2.1.y, v.2.2.y] h).map fun y => y / 2 * 2).eraseDups
  ys.flatMap fun y => xs.map fun x => (x, y)

/-- The primitive is discarded: a coordinate is not finite, its determinant is zero, or its facing is culled (R281). -/
def culled (r : RasterState) (v : Vtx × Vtx × Vtx) : Bool :=
  let d := det v.1 v.2.1 v.2.2
  let front := if bitOf r.w10 10 then decide (0 < d.n) else decide (d.n < 0)
  d.n == 0 || (front && bitOf r.w10 9) || (!front && bitOf r.w10 8)

/-- Outputs already emitted for the record at HEAD of a fixed-function node. -/
def Binding.done (b : Binding) (node : Nat) : Nat := SMap.get 0 b.progress node

/-- Set the outputs emitted. -/
def Mach.setDone (m : Mach) (vf leaf node n : Nat) : Mach :=
  m.onBinding vf leaf fun b => { b with progress := SMap.set 0 b.progress node n }

/-- Emit outputs in order from the first not yet emitted, until one has to wait or meets corrupt backing: the machine, the number emitted, and whether it did. -/
def emitFrom {α : Type} (f : α → Mach → Refill) : Nat → List α → Mach → Mach × Nat × Bool
  | n, [], m => (m, n, false)
  | n, x :: xs, m => match f x m with
    | .done m => emitFrom f (n + 1) xs m
    | .wait m => (m, n, false)
    | .corrupt => (m, n, true)

/-- The quads of a primitive record that may hold a covered pixel; none for a discarded primitive (R281). -/
def primQuads (st : RasterState) (ws : List Nat) : List ((Vtx × Vtx × Vtx) × (Nat × Nat)) :=
  match vertices ws with
  | none => []
  | some v => if culled st v then [] else (quadsOf v st.x1 st.y1).map fun q => (v, q)

/-- One primitive (R281, R282), from its first quad not yet done: the machine, the quads done, whether all are, and whether corrupt backing was met. -/
def rasterPrim (cfg : Cfg) (c : RasterCtx) (ws : List Nat) (done : Nat) (m : Mach) : Mach × Nat × Bool × Bool :=
  let w9 := ws.getD 9 0
  let draw := bitsOf w9 0 16
  let m := if bitOf w9 16 && done == 0 then m.startDraw c.twin draw else m
  let qs := primQuads c.st ws
  let r := emitFrom (fun (x : (Vtx × Vtx × Vtx) × (Nat × Nat)) m =>
    rasterQuad cfg c x.1 draw (ws.getD 10 0) ((List.range 5).map fun i => ws.getD (11 + i) 0) x.2.1 x.2.2 m) done (qs.drop done) m
  if qs.length ≤ r.2.1 then ((if bitOf w9 17 then r.1.endDraw c.twin draw else r.1), 0, true, false) else (r.1, r.2.1, false, r.2.2)

/-- The surfaces of a state block all exist on one twin, with the formats Table 12.4 asks for (R288). -/
def rasterTwin (m : Mach) (vf : Nat) (r : RasterState) : Option Nat :=
  let ss := r.handles.map (m.surf? vf)
  match r.cts.head?.bind (m.surf? vf) with
  | none => none
  | some c =>
    if ss.all (fun s => match s with | some s => s.twin == c.twin | none => false)
      && (r.depth == 0 || (m.surf? vf r.depth).any fun s => s.fmt == 8)
      && (r.sten == 0 || (m.surf? vf r.sten).any fun s => s.fmt == 7)
    then some c.twin else none

/-- A record that R288 consumes without effect: the error is counted, and later records proceed. -/
def failRecord (cfg : Cfg) (vf leaf node : Nat) (n : Node) (m : Mach) : Mach :=
  consumeRecord cfg vf leaf node n ((m.fferr cfg vf).setDone vf leaf node 0)

/-- A refill that finds its backing corrupt for a node: DATALOSS to the leaf's fault domain (R277, R339). -/
def nodeLoss (cfg : Cfg) (vf leaf : Nat) (m : Mach) : Mach := m.reportLoss (firstColumn cfg vf) vf (domainRoot cfg vf leaf m)

/-- RASTER: consumes a primitive record (R281, R282, R288). -/
def execRaster (vf leaf node : Nat) (s : State) : Host.Outcome State Fault Refusal :=
  onMach (fun cfg m => whenReady (touchNode cfg vf leaf node m) fun m => match headRecord cfg vf leaf node 1 m with
    | none => m
    | some (b, n, h) => whenReady (touchStruct cfg vf n.const 128 false m) fun m =>
      let st := readRaster cfg vf n.const m
      let ws := recWords cfg vf (h.recAddr 64 h.head) 64 m
      match rasterTwin m vf st with
      | none => failRecord cfg vf leaf node n m
      | some twin =>
        let si := n.emit.headD 0
        whenReady (touchAppend cfg vf b.table si m) fun m =>
          let c : RasterCtx :=
            { vf := vf, leaf := leaf, table := b.table, succIdx := si, succ := readNode cfg vf b.table si m, st := st, stAddr := n.const, twin := twin }
          let r := rasterPrim cfg c ws (b.done node) m
          let m := r.1.setDone vf leaf node r.2.1
          if r.2.2.2 then nodeLoss cfg vf leaf m else if r.2.2.1 then consumeRecord cfg vf leaf node n m else m) s

/-- DRAW_RETIRE: DEND has been processed and no pixel of the draw is outstanding, of the partition that the twin serves (R285, R343). -/
def execDrawRetire (twin draw : Nat) (s : State) : Host.Outcome State Fault Refusal :=
  onMach (fun cfg m =>
    let m := drainPixels cfg m
    if (m.pix.any fun p => p.twin == twin && p.draw == draw && !(m.vf p.vf).away) then m
    else { m with draws := m.draws.map fun d => if d.twin == twin && d.draw == draw && d.ended then { d with retired := true } else d }) s

end Sys2Proof.Machine
end

