-- ==== Sys2Proof/Machine/Texture.lean ====
section
/-! DEFINITION. Texture: the surface words (08 R191 to R193). A surface access issues as a queued access that LOAD_PERFORMED
performs at the texel's bank (11 R245, R261). -/

namespace Sys2Proof.Machine

/-- The handle a surface word names. -/
def wordHandle (m : Mach) (k : Gang) (g : Group) (s : Nat) : Word := g.uniView (issueCycle m k g) s

/-- A free or stale handle traps SURF; an access to a surface that is being freed completes or traps, a free choice
(R191). An INDEX outside the table is found when the access is performed. -/
def surfCheck (m : Mach) (g : Group) (h : Word) : Option (Cause × Nat) :=
  match m.handle g.env.vf h with
  | .stale => some (.surf, h.toNat)
  | .ok s => if s.st = 2 ∧ Config.freePick m.free % 2 = 1 then some (.surf, h.toNat) else none
  | .outside => none

/-- Registers of a texel of the surface a handle names; one where it names none. -/
def handleRegs (m : Mach) (g : Group) (h : Word) : Nat := ((m.surf? g.env.vf h).map fun s => texelRegs s.fmt).getD 1

/-- OPFORM where D is not aligned to its register count (R192). -/
def texelForm (d n : Nat) : Option (Cause × Nat) := if d < 123 ∧ d % n ≠ 0 then some (.opform, 0) else none

/-- Coordinates of `suld` and `sust` (R192). -/
def coordX (a : Nat) : Nat := bitsOf a 0 16
def coordY (a : Nat) : Nat := bitsOf a 16 16
def coordL (a : Nat) : Nat := bitsOf a 32 8

/-- A surface access in a lane. -/
def surfAcc (g : Group) (l : LaneIn) (op : AOp) (dsts : List Nat) (issued : Nat) : Acc :=
  { gid := g.gid, tid := l.t.tid, op := op, path := .surf, dsts := dsts, scope := 2, issued := issued }

/-- `suld`: the texel's bytes, zero-extended; zeros outside the surface (R192). -/
def execSuld (f : FXs) (q : Option Modifier) (s : State) : Host.Outcome State Fault Refusal :=
  word { c := f.c, q := q, cls := 1, stop := true, srcs := [{ f := f.a, w := 2 }], dst := some { f := f.d, long := true }
         chk := fun m k g l => match chkDst g.acquired { f := f.d, w := handleRegs m g (wordHandle m k g f.s) } with
           | some r => .trap .regrange r
           | none => .ok l.vs
         exe := fun _ m k g _ =>
           let h := wordHandle m k g f.s
           (surfCheck m g h).orElse fun _ => texelForm f.d (handleRegs m g h)
         busy := fun _ m k g l => memBusy true m g l ||
           (Dst.regs { f := f.d, w := handleRegs m g (wordHandle m k g f.s) }).any fun n => l.t.c.notFull.getLsbD n
         act := fun _ m k g ls =>
           let h := wordHandle m k g f.s
           let ds := Dst.regs { f := f.d, w := handleRegs m g h }
           ((ons ls).foldl (fun m l => m.issueLong g
             (surfAcc g l (.suld h (coordX (l.val 0)) (coordY (l.val 0)) (coordL (l.val 0))) ds m.free)) m, []) } s

/-- The data source of `sust`: D and the registers after it, with miss mode 0 (R192); a latch entry holds a texel of one register, and as a wider
source it traps ILLEGAL (R73). -/
def sustData (m : Mach) (k : Gang) (g : Group) (l : LaneIn) (d n : Nat) : Opr :=
  if isLatch d ∧ 1 < n then .trap .illegal 0
  else match rdOpd g.acquired k.slot k.first (issueCycle m k g) l.t.c { f := d, w := n, cyc := 1 } with
    | .ok vs => .ok (l.val 0 :: vs)
    | r => r

/-- `sust`: writes the texel; nothing outside the surface (R192). D is a source. -/
def execSust (f : FXs) (q : Option Modifier) (s : State) : Host.Outcome State Fault Refusal :=
  word { c := f.c, q := q, cls := 1, stop := true, srcs := [{ f := f.a, w := 2 }, { f := f.d, cyc := 1 }]
         chk := fun m k g l => sustData m k g l f.d (handleRegs m g (wordHandle m k g f.s))
         exe := fun _ m k g _ =>
           let h := wordHandle m k g f.s
           (surfCheck m g h).orElse fun _ => texelForm f.d (handleRegs m g h)
         busy := fun _ m _ g l => memBusy false m g l
         act := fun _ m k g ls =>
           let h := wordHandle m k g f.s
           (m.queueAccs g ((ons ls).map fun l =>
             surfAcc g l (.sust h (coordX (l.val 0)) (coordY (l.val 0)) (coordL (l.val 0)) (l.val 1)) [] m.free), []) } s

/-- A texture read: four FP32 values to D to D+3 (R193). `kind` is 0 tex, 1 texl, 2 texg. -/
def texWord (kind : Nat) (f : FXs) (q : Option Modifier) : Desc :=
  { c := f.c, q := q, cls := 1, stop := true
    ill := kind == 1 && (f.a == 110 || f.a == 118)
    srcs := { f := f.a, w := 2 } :: (if kind = 1 then [{ f := if f.a = 123 then 123 else f.a + 2, cyc := 1 }] else [])
    dst := some { f := f.d, w := 4, long := true }
    exe := fun _ m k g _ => surfCheck m g (wordHandle m k g f.s)
    busy := fun _ m _ g l => memBusy true m g l
    act := fun _ m k g ls =>
      let h := wordHandle m k g f.s
      ((ons ls).foldl (fun m l => m.issueLong g
        (surfAcc g l (.tex kind h (BitVec.ofNat 32 (l.val 0)) (BitVec.ofNat 32 (l.val 0 / 2 ^ 32)) (BitVec.ofNat 32 (l.val 1)))
          (Dst.regs { f := f.d, w := 4 }) m.free)) m, []) }

/-- `tex` (R193). -/
def execTex (f : FXs) (q : Option Modifier) (s : State) : Host.Outcome State Fault Refusal := word (texWord 0 f q) s

/-- `texl` (R193). -/
def execTexl (f : FXs) (q : Option Modifier) (s : State) : Host.Outcome State Fault Refusal := word (texWord 1 f q) s

/-- `texg` (R193). -/
def execTexg (f : FXs) (q : Option Modifier) (s : State) : Host.Outcome State Fault Refusal := word (texWord 2 f q) s

/-! ### salloc and sfree -/

/-- A surface descriptor (Table 08.5). -/
structure SurfDesc where
  layers : Nat
  fmt : Nat
  height : Nat
  width : Nat
  seed : Nat
  here : Bool
  twin : Nat
  bad : Bool
  deriving DecidableEq, Repr

/-- Read a descriptor from its three words; `bad` is what traps OPFORM whatever the twin. -/
def surfDesc (w0 w1 w2 : Nat) : SurfDesc :=
  let fmt := bitsOf w0 0 4
  let h := bitsOf w1 16 16
  let w := bitsOf w1 0 16
  let seed := bitsOf w2 8 8
  { layers := bitsOf w0 8 8, fmt := fmt, height := h, width := w, seed := seed, here := bitOf w2 3, twin := bitsOf w2 0 3
    bad := bitsOf w0 16 16 != 0 || bitsOf w0 4 4 != 0 || decide (11 ≤ fmt) || bitsOf w2 16 16 != 0 || bitsOf w2 4 4 != 0
      || h == 0 || w == 0 || decide (16384 < h) || decide (16384 < w) || (decide (48 ≤ seed) && seed != 255) }

/-- The twin a descriptor names, if it is one of the partition. -/
def descTwin (cfg : Cfg) (vf : Nat) (here : Option Nat) (d : SurfDesc) : Option Nat :=
  let t := match here with
    | some c => if d.here then c / 2 else d.twin
    | none => d.twin
  if bitOf (cfg.part vf).twins t then some t else none

/-- The number of a function's host allocation in the allocation queues. -/
def hostReq (vf : Nat) : Nat := 2 ^ 41 + vf

/-- A request that still waits: a host allocation, or that of a gang of a resident group. -/
def Mach.allocLive (m : Mach) (req : Nat) : Bool :=
  if 2 ^ 41 ≤ req then (m.vf (req - 2 ^ 41)).hsstatus == 1
  else match m.gang? req with
    | some k => (m.group? k.gid).any fun g => g.stage == .resident
    | none => false

/-- Requests on one twin are served one at a time, in the order they reach it (R278): an earlier one waits. -/
def Mach.allocTurn (m : Mach) (twin req : Nat) : Bool :=
  match m.allocq.find? fun x => x.1 == twin && m.allocLive x.2 with
  | some x => x.2 == req
  | none => true

/-- A request has come to its end. -/
def Mach.allocDone (m : Mach) (req : Nat) : Mach := { m with allocq := m.allocq.filter fun x => x.2 != req }

/-- A request waits for its turn. -/
def Mach.allocWait (m : Mach) (twin req : Nat) : Mach :=
  if m.allocq.any fun x => x.2 == req then m else { m with allocq := m.allocq ++ [(twin, req)] }

/-- The descriptor in s[SA] to s[SA+2]. -/
def uniDesc (m : Mach) (k : Gang) (g : Group) (a : Nat) : SurfDesc :=
  let u (i : Nat) : Nat := (g.uniView (issueCycle m k g) (a + i)).toNat
  surfDesc (u 0) (u 1) (u 2)

/-- `salloc`: one request for the gang; waits while the Rake makes room; the null handle where it cannot be met (R191). -/
def execSalloc (f : FSalloc) (q : Option Modifier) (s : State) : Host.Outcome State Fault Refusal :=
  word { c := f.c, q := q, ill := decide (61 < f.a), stop := true
         exe := fun cfg m k g _ =>
           let d := uniDesc m k g f.a
           if d.bad || (descTwin cfg g.env.vf (some g.column) d).isNone then some (.opform, 0) else none
         blk := true
         busy := fun _ m _ g l => memBusy false m g l
         act := fun cfg m k g ls =>
           if (ons ls).isEmpty then (m, [])
           else
             let d := uniDesc m k g f.a
             let twin := (descTwin cfg g.env.vf (some g.column) d).getD 0
             let done (m : Mach) (h : Word) : Mach × List Nat :=
               uniNow f.d h (m.allocDone k.id) k ls
             if !m.allocTurn twin k.id then (m.allocWait twin k.id, (ons ls).map (·.t.tid))
             else match allocSurface cfg g.env.vf g.env.leaf d.layers d.fmt d.height d.width twin d.seed m with
               | .null => done m 0
               | .wait m => (m.allocWait twin k.id, (ons ls).map (·.t.tid))
               | .ok m h => done m h } s

/-- `sfree`: the surface is freed after the gang's earlier accesses to it (R191, R278). -/
def execSfree (f : FXu1) (q : Option Modifier) (s : State) : Host.Outcome State Fault Refusal :=
  word { c := f.c, q := q, stop := true
         exe := fun _ m k g _ =>
           match m.handle g.env.vf (wordHandle m k g f.a) with
           | .stale => some (.surf, (wordHandle m k g f.a).toNat)
           | _ => none
         busy := fun _ m _ g l => (m.accsOf g l.t.tid).any fun a => a.path == .surf
         act := fun cfg m k g ls =>
           if (ons ls).isEmpty then (m, [])
           else
             let h := wordHandle m k g f.a
             match m.handle g.env.vf h with
             | .outside => (m.freezeGroup g 1 h.toNat none, [])
             | .ok x => (freeSurface cfg x m, [])
             | .stale => (m, []) } s

/-- A matrix word of the partition has yet to fetch from the surface, on a core or in the image of a group that is swapped out. -/
def Mach.unfoldsSurf (m : Mach) (vf idx : Nat) : Bool :=
  let names (w : MWord) : Bool := match w.unfolds with
    | some h => h.toNat % 65536 == idx
    | none => false
  m.cores.any (fun c => c.2.mwords.any fun w => (m.group? w.gid).any (fun g => g.env.vf == vf) && names w)
    || m.groups.any fun g => g.env.vf == vf && g.mwords.any names

/-- An access names a surface of a function. -/
def Acc.namesSurf (m : Mach) (vf idx : Nat) (a : Acc) : Bool :=
  match accBlocks m vf a with
  | some y => y.1.idx == idx
  | none => false

/-- What is outstanding at a surface (R191, R278): accesses, issued or on the replay list of a thread that is swapped out, raster updates, fetches of matrix words,
spills and refills in progress. -/
def Mach.surfBusy (m : Mach) (x : Surf) : Bool :=
  (m.surfAccs x.vf).any (Acc.namesSurf m x.vf x.idx)
    || m.groups.any (fun g => g.env.vf == x.vf && g.threads.any fun t => t.replay.any (Acc.namesSurf m x.vf x.idx))
    || m.pix.any (fun p => p.vf == x.vf && p.targets.contains x.handle)
    || m.unfoldsSurf x.vf x.idx
    || x.spilled.any fun e => e.2 != 1

/-- SURFACE_DISCARD: a freed surface goes once nothing is outstanding at it (R278). -/
def execSurfaceDiscard (vf idx : Nat) (s : State) : Host.Outcome State Fault Refusal :=
  onMach (fun cfg m => match m.surfAt vf idx with
    | none => m
    | some x => if x.st = 2 ∧ m.surfBusy x = false then whenReady (touchEntry cfg vf idx m) (discardSurface cfg x) else m) s

end Sys2Proof.Machine
end

