-- ==== Sys2Proof/Machine/Faults.lean ====
section
/-! DEFINITION. Faults: what the driver does about engine faults (18 R337), writes to the translation control page (18
R335), and the events INVAL_PAGE, INVAL_ALL, RESUME, FRES_STOP and INV2. -/

namespace Sys2Proof.Machine

/-- The engine fault in force at a ring index: of two, whose records had the same place in the ring, the one whose record stands there (DESIGN CHOICE, log entry
52). -/
def Mach.engFault? (m : Mach) (vf idx : Nat) : Option EngFault := (m.vf vf).faults.reverse.find? fun f => f.ring == idx

/-- The engine fault at a ring index is no longer in force; an older one of that index is. -/
def Mach.dropFault (m : Mach) (vf idx : Nat) : Mach :=
  match m.engFault? vf idx with
  | some z => m.onVf vf fun r => { r with faults := (r.faults.reverse.erase z).reverse }
  | none => m

/-- A driver's answer to an engine fault is kept while its time-shared partition is not loaded (R314). -/
def Mach.keepAway (m : Mach) (vf : Nat) (i : Instr) (f : Mach → Mach) : Mach :=
  if (m.vf vf).away then m.onVf vf fun r => { r with held := r.held ++ [i] } else f m

/-- STATE of a copy request in its window (Table 08.3). -/
def Mach.setReqState (m : Mach) (gid req st : Nat) : Mach :=
  m.setWin32 gid (req + 56) (putBits (m.win32 gid (req + 56)) 30 2 st)

/-- RESUME (R337): a faulted block restarts at its request, a faulted fill from its first row. -/
def fresResume (vf idx : Nat) (m : Mach) : Mach :=
  match m.engFault? vf idx with
  | none => m
  | some z =>
    let c := m.core z.column z.core
    let m := m.dropFault vf idx
    if z.kind = 1 then
      match c.kicks.find? fun k => k.gid == z.gid && k.off == z.off && k.faulted with
      | some k =>
        (m.setReqState k.gid k.req 0).onCore z.column z.core fun c =>
          { c with kicks := c.kicks.map fun x => if x == k then { x with faulted := false } else x }
      | none => m
    else
      let t := SMap.get {} c.tiles z.off
      if t.gid = z.gid ∧ t.faulted then
        m.onCore z.column z.core fun c => { c with tiles := SMap.set {} c.tiles z.off { t with faulted := false } }
      else m.onGroup z.gid fun g => { g with tiles := g.tiles.map fun e => if e.1 = z.off then (e.1, { e.2 with faulted := false }) else e }

/-- STOP (R337): the fault domain of the kicking group stops. -/
def fresStop (vf idx : Nat) (m : Mach) : Mach :=
  match m.engFault? vf idx with
  | none => m
  | some z => match m.group? z.gid with
    | some g => (m.dropFault vf idx).queueStop vf g.env.fdroot Cause.xlate.code
    | none => m.dropFault vf idx

/-- A write to the translation control page (Table 18.4): 4 or 8 bytes; other offsets are ignored. -/
def ctrlWrite (vf off size v : Nat) (m : Mach) : Mach :=
  if size ≠ 4 ∧ size ≠ 8 then m
  else if off = 0 then writeInval m vf v
  else if off = 0x10 then
    match bitsOf v 8 2 with
    | 1 => m.keepAway vf (.resume vf (bitsOf v 0 6)) (fresResume vf (bitsOf v 0 6))
    | 2 => m.keepAway vf (.fresStop vf (bitsOf v 0 6)) (fresStop vf (bitsOf v 0 6))
    | _ => m
  else m

/-- INVAL_PAGE: INVAL with OP 1 (R335). -/
def execInvalPage (vf value : Nat) (s : State) : Host.Outcome State Fault Refusal :=
  onMach (fun _ m => invalidate m vf (some (bitsOf value 16 41))) s

/-- INVAL_ALL: INVAL with OP 2 (R335). -/
def execInvalAll (vf : Nat) (s : State) : Host.Outcome State Fault Refusal := onMach (fun _ m => invalidate m vf none) s

/-- RESUME: FRES with action 1 (R337). -/
def execResume (vf idx : Nat) (s : State) : Host.Outcome State Fault Refusal :=
  onMach (fun _ m => m.keepAway vf (.resume vf idx) (fresResume vf idx)) s

/-- FRES_STOP: FRES with action 2 (R337). -/
def execFresStop (vf idx : Nat) (s : State) : Host.Outcome State Fault Refusal :=
  onMach (fun _ m => m.keepAway vf (.fresStop vf idx) (fresStop vf idx)) s

/-- INV2: a stage-2 invalidation of a page of IPA, or of everything; INV2SEQ advances when it completes (Table 18.1). A
cached translation covers both stages, so every one of the partition is dropped. -/
def execInv2 (vf value : Nat) (s : State) : Host.Outcome State Fault Refusal :=
  onMach (fun _ m =>
    if bitsOf value 0 4 = 1 ∨ bitsOf value 0 4 = 2 then
      ({ m with tlb := m.tlb.filter fun e => e.vf != vf }).onVf vf fun r => { r with inv2seq := (r.inv2seq + 1) % 2 ^ 32 }
    else m) s

end Sys2Proof.Machine
end

