-- ==== Sys2Proof/Machine/Perform.lean ====
section
/-! DEFINITION. Perform: LOAD_PERFORMED, the walks of stalled accesses (18 R331 to R335), the ageing of the L1 (07 R152) and
the landing of fixed-latency results (03 R77). -/

namespace Sys2Proof.Machine

/-- How an attempt to perform an access ends. -/
inductive PerfRes where
  | done (m : Mach)
  /-- no cached translation -/
  | walk
  /-- held by a refill or a lock -/
  | wait
  deriving DecidableEq, Repr

/-- From an optional result: none needs a walk. -/
def PerfRes.ofOption : Option Mach → PerfRes
  | some m => .done m
  | none => .walk

/-- The bytes a speculating thread had buffered before a load, over the bytes it reads (Table 07.7). -/
def Mach.withBuffer (m : Mach) (a : Acc) (v : Nat) : Nat :=
  if a.spec then
    match (m.thread? a.gid a.tid).bind (·.epi) with
    | some e => overlay (e.bufs.take a.nbuf) a.path a.tow a.addr a.size v
    | none => v
  else v

/-- Perform a surface access (R192, R193): an INDEX outside the table freezes the master (R324); a spilled block waits for
its refill; a bank that cannot be served is DATALOSS. -/
def performSurf (m : Mach) (g : Group) (a : Acc) (h : Word) : PerfRes :=
  match m.handle g.env.vf h with
  | .outside => .done (m.freezeGroup g 1 h.toNat (some a))
  | .stale => .done (m.deliverValue a 0)
  | .ok s =>
    let bs := ((accBlocks m g.env.vf a).map (·.2)).getD []
    if bs.any fun b => s.away b || m.frameLocked s b then .wait
    else if bs.any fun b => m.frameLost s b then .done (m.fatalAcc a .dataloss)
    else
      let m := bs.foldl (fun m b => m.useBlock s b) m
      match a.op with
      | .suld _ x y l => .done (m.deliverValue a (if s.inside x y l then m.texel s x y l else 0))
      | .sust _ x y l v => .done (if s.inside x y l then m.setTexel s x y l v else m)
      | .tex k _ u v l => .done (m.deliverValue a (m.texRead s k u v l))
      | _ => .done m

/-- The value of an access: one that the scratchpad port has served is written in its cycle (R306). -/
def Mach.answer (m : Mach) (g : Group) (a : Acc) (v : Nat) : Mach :=
  if a.port then m.onCore g.column g.core fun c => { c with accs := c.accs ++ [{ a with op := .value v, ord := 0, port := false }] }
  else m.deliverValue a v

/-- Perform an access at its place (Table 11.1). A speculating thread's load that meets a bank that cannot be served waits until the barrier completes
(R237). -/
def performAcc (m : Mach) (g : Group) (a : Acc) : PerfRes :=
  let lost := m.accLost g a
  if lost && a.spec then .wait
  else if lost then .done ((if a.path = .glob then m
    else m.rebuilds g.column (if a.path = .tow then a.tow else g.core) a.addr a.size).fatalAcc a .dataloss)
  else
    let give (r : Option (Mach × Nat)) : PerfRes := match r with
      | some (m, v) => .done (m.answer g a v)
      | none => .walk
    match a.op with
    | .load n sgn => match m.readPlace g a with
      | some (m', v) => .done ((m'.answer g a (widen n sgn (m.withBuffer a v))).acquireAt g a.ord a.scope)
      | none => .walk
    | .store _ v => .ofOption (m.writePlace g a v)
    | .atom op b c => give (m.atomPlace g a fun old => atomNew op old b c)
    | .scLoad _ => give (m.scPlace g a false fun _ => none)
    | .scStore _ v => .ofOption ((m.scPlace g a true fun _ => some v).map (·.1))
    | .scAtom cas b c => give (m.scPlace g a true fun old =>
        some (if cas then (if BitVec.ofNat 32 old = c then b.toNat else old) else (BitVec.ofNat 32 old + b).toNat))
    | .touch w => if (m.tlbHit g.env.vf a.addr w false).isSome then .done m else .walk
    | .maint k => .ofOption (m.maintPlace g a k)
    | .suld h _ _ _ => performSurf m g a h
    | .sust h _ _ _ _ => performSurf m g a h
    | .tex _ h _ _ _ => performSurf m g a h
    | .value v => .done (m.deliverValue a v)
    | .sample _ => .done m

/-- Take access `idx` out of a core's queue. -/
def Mach.dropAcc (m : Mach) (col core idx : Nat) : Mach := m.onCore col core fun c => { c with accs := c.accs.eraseIdx idx }

/-- Change access `idx`. -/
def Mach.setAcc (m : Mach) (col core idx : Nat) (a : Acc) : Mach := m.onCore col core fun c => { c with accs := c.accs.set idx a }

/-- Access `idx` of a core may be performed: its master is not frozen, it has its translation, no earlier access holds it back (R245, R249, R306), and
its place is free. -/
def Mach.mayPerform (m : Mach) (col core idx : Nat) : Option (Group × Acc) :=
  let accs := (m.core col core).accs
  match accs[idx]? with
  | none => none
  | some a => match m.group? a.gid with
    | none => none
    | some g =>
      if a.st = .ready ∧ !a.isValue ∧ !g.frozen ∧ ((accs.take idx).all fun e => !m.holds g e a && !m.portHolds e a) ∧ m.placeFree g a then some (g, a)
      else none

/-- Perform access `idx` of a core, where it may be. -/
def performIdx (col core idx : Nat) (m : Mach) : Mach :=
  match m.mayPerform col core idx with
  | none => m
  | some (g, a) => match performAcc (m.dropAcc col core idx) g a with
    | .done m' => if a.commit then m'.settleBarrier a.gid else m'
    | .walk => m.setAcc col core idx { a with st := .missing }
    | .wait => m

/-- LOAD_PERFORMED: a queued access that no earlier one holds back, and whose place is free, is performed (R245, R249). -/
def execLoadPerformed (col core idx : Nat) (s : State) : Host.Outcome State Fault Refusal := onMach (fun _ m => performIdx col core idx m) s

/-- The scratchpad port's work of a core's cycle: each access whose last pass ends in it is performed, in issue order (R306). -/
def servePort (col core : Nat) : Nat → Mach → Mach
  | 0, m => m
  | n + 1, m =>
    let c := m.core col core
    match (List.range c.accs.length).find? fun i => (c.accs[i]?).any (fun a => a.port && decide (a.due ≤ c.clk + 5)) && (m.mayPerform col core i).isSome with
    | some i => servePort col core n (performIdx col core i m)
    | none => m

/-- An access writes. -/
def Acc.writes (a : Acc) : Bool := a.op.writes

/-- An access to the translation control page (R335). -/
def ctrlAccess (vf off : Nat) (a : Acc) (m : Mach) : Mach :=
  match a.op with
  | .load n _ => m.deliverValue a (ctrlRead m vf off n)
  | .scLoad n => m.deliverValue a (ctrlRead m vf off n)
  | .store n v => ctrlWrite vf off n v m
  | .scStore n v => ctrlWrite vf off n v m
  | .atom _ _ _ => m.deliverValue a 0
  | .scAtom _ _ _ => m.deliverValue a 0
  | _ => m

/-- The walk of a stalled access failed in stage 1, or its 1 ms is over at an entry of stage 1 (R333, R334): XLATE, fatal; a prefetch is dropped
(R171); a speculating thread's access is held until the barrier completes (R237). -/
def walkFailed (col core idx : Nat) (a : Acc) (m : Mach) : Mach :=
  match a.op with
  | .maint k => if 2 ≤ k then m.dropAcc col core idx else (m.dropAcc col core idx).fatalAcc a .xlate
  | _ => if a.spec then m.setAcc col core idx { a with st := .missing } else (m.dropAcc col core idx).fatalAcc a .xlate

/-- The walk of a stalled access failed in stage 2 (R334): the master is frozen; a prefetch is dropped (R171). -/
def walkFroze (col core idx : Nat) (g : Group) (a : Acc) (m : Mach) : Mach :=
  match a.op with
  | .maint 2 => m.dropAcc col core idx
  | .maint 3 => m.dropAcc col core idx
  | _ => (m.dropAcc col core idx).freezeGroup g 0 a.addr (some a)

/-- A walk of a stalled access (R331 to R335); `first` is the time of its first walk. -/
def walkAcc (cfg : Cfg) (col core idx first : Nat) (g : Group) (a : Acc) (m : Mach) : Mach :=
  match translateWalk cfg m g.env.vf a.addr a.writes false with
  | (m, .ok _) => m.setAcc col core idx { a with st := .ready }
  | (m, .ctrl off) => (ctrlAccess g.env.vf off a (m.dropAcc col core idx)).settleBarrier a.gid
  | (m, .pending s2) => m.setAcc col core idx { a with st := .pending first m.etime s2 }
  | (m, .fail1) => walkFailed col core idx a m
  | (m, .fail2) => walkFroze col core idx g a m
  | (m, .lost) => m

/-- A queued access with its group, which is not frozen. -/
def Mach.accAt (m : Mach) (col core idx : Nat) : Option (Group × Acc) :=
  match (m.core col core).accs[idx]? with
  | none => none
  | some a => match m.group? a.gid with
    | some g => if g.frozen then none else some (g, a)
    | none => none

/-- TRANSLATION_WALK: an access without a cached translation walks both stages (R331). -/
def execTranslationWalk (col core idx : Nat) (s : State) : Host.Outcome State Fault Refusal :=
  onMach (fun cfg m => match m.accAt col core idx with
    | some (g, a) => if a.st = .missing then walkAcc cfg col core idx m.etime g a m else m
    | none => m) s

/-- PENDING_REWALK: a pending entry is walked again 2 µs after the last walk (R333). -/
def execPendingRewalk (col core idx : Nat) (s : State) : Host.Outcome State Fault Refusal :=
  onMach (fun cfg m => match m.accAt col core idx with
    | some (g, a) => match a.st with
      | .pending first last _ => if last + 2000000 ≤ m.etime then walkAcc cfg col core idx first g a m else m
      | _ => m
    | none => m) s

/-- PENDING_TIMEOUT: 1 ms after the first walk the walk fails in the stage whose entry is pending (R333, R334). -/
def execPendingTimeout (col core idx : Nat) (s : State) : Host.Outcome State Fault Refusal :=
  onMach (fun _ m => match m.accAt col core idx with
    | some (g, a) => match a.st with
      | .pending first _ s2 => if first + 1000000000 ≤ m.etime then (if s2 then walkFroze col core idx g a m else walkFailed col core idx a m) else m
      | _ => m
    | none => m) s

/-- L1_AGE_WRITEBACK: the L1 writes back a sector's dirty bytes, at the latest 16 µs after they first became dirty (R152). -/
def execL1AgeWriteback (col core idx : Nat) (s : State) : Host.Outcome State Fault Refusal :=
  onMach (fun _ m => match (m.core col core).l1[idx]? with
    | some x => m.l1Back col core x.sec
    | none => m) s

/-- L1_AGE_INVALIDATE: the L1 invalidates a sector, at the latest 16 µs after its fill; dirty bytes go home first (R152). -/
def execL1AgeInvalidate (col core idx : Nat) (s : State) : Host.Outcome State Fault Refusal :=
  onMach (fun _ m => match (m.core col core).l1[idx]? with
    | some x => m.l1Drop col core x.sec
    | none => m) s

/-- RESULT_LANDING: the fixed-latency results that a read in the core's cycle sees are written (R77). -/
def landResults (col core : Nat) (m : Mach) : Mach :=
  let now := (m.core col core).clk
  { m with groups := m.groups.map fun g =>
      if g.column == col && g.core == core && g.stage == .resident then
        { g.landUni now with threads := g.threads.map fun t => { t with c := t.c.landBy now } }
      else g }

/-- RESULT_LANDING (R77). -/
def execResultLanding (col core : Nat) (s : State) : Host.Outcome State Fault Refusal := onMach (fun _ m => landResults col core m) s

/-- A value whose cycle this is, or has been, is written to its destinations (R213, R306). -/
def fillValue (col core : Nat) (m : Mach) (a : Acc) : Mach :=
  match a.op with
  | .value v => if a.due ≤ (m.core col core).clk then m.deliverValue a v else m
  | _ => m

/-- The values of fixed time are written at the end of their cycle. -/
def fillValues (col core : Nat) (m : Mach) : Mach :=
  let c := m.core col core
  let m := c.accs.foldl (fillValue col core) m
  m.onCore col core fun k => { k with accs := k.accs.filter fun a => !(a.isValue && decide (a.due ≤ k.clk) && (match a.op with
    | .sample _ => false
    | _ => true)) }

/-- A cycle begins: ETIME is sampled for the words of a chain that issue in it (R211, R213). -/
def Acc.sampleAt (a : Acc) (cycle ps : Nat) : Acc :=
  match a.op with
  | .sample n => if n ≤ cycle then { a with op := .value (ps % 2 ^ 64) } else a
  | _ => a

end Sys2Proof.Machine
end

