-- ==== Sys2Proof/Machine/Resource.lean ====
section
/-! DEFINITION. Resource: the banker (10 R229 to R233), the resource words (08 R176, R177) and the remote queues (08 R178,
R179). -/

namespace Sys2Proof.Machine

/-! ### The banker -/

/-- Quad slots of a group (R222). -/
def Group.quadSlots (g : Group) : Nat := ceilDiv g.gsize 4

/-- The cost of an amount for a group (Table 10.3): REG counts 32 lane registers per quad slot and unit. -/
def Group.cost (g : Group) (r : Res) : Res := { r with reg := r.reg * 32 * g.quadSlots }

/-- Amounts, kind by kind. -/
def Res.le (a b : Res) : Bool := decide (a.reg ≤ b.reg) && decide (a.scr ≤ b.scr) && decide (a.msl ≤ b.msl) && decide (a.spc ≤ b.spc)
def Res.plus (a b : Res) : Res := { reg := a.reg + b.reg, scr := a.scr + b.scr, msl := a.msl + b.msl, spc := a.spc + b.spc }
def Res.minus (a b : Res) : Res := { reg := a.reg - b.reg, scr := a.scr - b.scr, msl := a.msl - b.msl, spc := a.spc - b.spc }

/-- The core pools of a partition (Table 10.3). -/
def capacity (cfg : Cfg) (vf : Nat) : Res :=
  { reg := 131072, scr := if (cfg.part vf).tsScr = 1 then 128 else 0, msl := 8, spc := 16 }

/-- Groups on a core. -/
def Mach.groupsAt (m : Mach) (col core : Nat) : List Group :=
  m.groups.filter fun g => g.onCore && g.column == col && g.core == core

/-- What is left of a capacity under the holdings of groups. -/
def availOf (cap : Res) (gs : List Group) : Res := gs.foldl (fun a g => a.minus (g.cost g.hold)) cap

/-- The safety check of R230: from an availability, some order finishes every group. -/
def finishes : Nat → Res → List Group → Bool
  | 0, _, gs => gs.isEmpty
  | n + 1, avail, gs =>
    match gs.find? fun g => (g.cost (g.claim.minus g.hold)).le avail with
    | some g => finishes n (avail.plus (g.cost g.hold)) (gs.filter fun x => x.gid != g.gid)
    | none => gs.isEmpty

/-- What a set of groups holds. -/
def heldBy (gs : List Group) : Res := gs.foldl (fun a g => a.plus (g.cost g.hold)) {}

/-- A state of a core is safe (R230): the holdings fit the capacity, since no request is at most an availability below 0, and some order
finishes every group. -/
def safeState (cap : Res) (gs : List Group) : Bool := (heldBy gs).le cap && finishes gs.length (availOf cap gs) gs

/-- How a request is decided (Table 10.4): 0 granted, 1 unsafe, 2 too little free. -/
def requestStatus (cfg : Cfg) (m : Mach) (g : Group) (kind n : Nat) : Nat :=
  let cap := capacity cfg g.env.vf
  let gs := m.groupsAt g.column g.core
  if !(g.cost (Res.addKind {} kind n)).le (availOf cap gs) then 2
  else if safeState cap (gs.map fun x => if x.gid == g.gid then { x with hold := x.hold.addKind kind n } else x) then 0
  else 1

/-- A grant changes HOLD at one instant for the whole group; new registers read 0 and are full, new slots read +0 (R176). -/
def Mach.grant (m : Mach) (gid kind n : Nat) : Mach := m.onGroup gid fun g => { g with hold := g.hold.addKind kind n }

/-- Units of a group's waiting `acq.b` requests of a kind (R176). -/
def waitUnits (m : Mach) (g : Group) (kind : Nat) : Nat :=
  (((m.core g.column g.core).waiters.filter fun w => w.gid == g.gid && w.kind == kind).map (·.n)).sum

/-- The banker re-checks the waiting requests of a core in the order in which they began to wait (R231). -/
def bankerRecheck (cfg : Cfg) (col core : Nat) (m : Mach) : Mach :=
  (m.core col core).waiters.foldl (fun m w => match m.group? w.gid with
    | none => m
    | some g =>
      if requestStatus cfg m g w.kind w.n = 0 then
        ((m.grant w.gid w.kind w.n).onGang w.gang fun k => { k with ack := true }).onCore col core fun c =>
          { c with waiters := c.waiters.erase w }
      else m) m

/-- TRAPARG of CLAIMX (R176). -/
def claimArg (kind n : Nat) : Nat := kind + n * 65536

/-- CLAIMX of an acquisition (R176). -/
def claimCheck (m : Mach) (g : Group) (kind n : Nat) : Option (Cause × Nat) :=
  if g.claim.kind kind < g.hold.kind kind + waitUnits m g kind + n then some (.claimx, claimArg kind n) else none

/-- The lanes of a gang word that still waits. -/
def allWait (ls : List LaneIn) : List Nat := ls.map (·.t.tid)

/-- `acq.b`: one request for the gang, which waits until the banker grants it (R176, R231). -/
def execAcqB (f : FAcq) (q : Option Modifier) (s : State) : Host.Outcome State Fault Refusal :=
  word { c := f.c, q := q, ill := f.n == 0, stop := true
         exe := fun _ m k g _ => if k.ack || k.asked then none else claimCheck m g f.k f.n
         act := fun cfg m k g ls =>
           if (ons ls).isEmpty || k.ack then (m, [])
           else if k.asked then (m, allWait ls)
           else if requestStatus cfg m g f.k f.n = 0 then (m.grant g.gid f.k f.n, [])
           else
             ((m.onGang k.id fun x => { x with asked := true }).onCore g.column g.core fun c =>
               { c with waiters := c.waiters ++ [{ gid := g.gid, gang := k.id, kind := f.k, n := f.n }] }, allWait ls) } s

/-- `acq.t`: decided at once; the status goes to D, and KD := (status = 0), in every active lane (R176). -/
def execAcqT (f : FAcqt) (q : Option Modifier) (s : State) : Host.Outcome State Fault Refusal :=
  word { c := f.c, q := q, ill := f.n == 0, stop := true, dst := some { f := f.d }
         exe := fun _ m _ g _ => claimCheck m g f.t f.n
         act := fun cfg m k g ls =>
           if (ons ls).isEmpty then (m, [])
           else
             let st := requestStatus cfg m g f.t f.n
             let m := if st = 0 then m.grant g.gid f.t f.n else m
             (m.mapLanes k.gid ls fun _ t =>
               t.writeNow (resWrites f.d 1 st ++ predWrite f.k (st == 0)), []) } s

/-- `rel`: the request is queued; REL_COMPLETION returns the units once they are idle (R177). -/
def execRel (f : FAcq) (q : Option Modifier) (s : State) : Host.Outcome State Fault Refusal :=
  word { c := f.c, q := q, ill := f.n == 0, stop := true
         exe := fun _ _ k g _ => if k.ack || k.asked then none
           else if g.hold.kind f.k < f.n then some (.claimx, claimArg f.k f.n) else none
         act := fun _ m k g ls =>
           if (ons ls).isEmpty || k.ack then (m, [])
           else if k.asked then (m, allWait ls)
           else
             ((m.onGang k.id fun x => { x with asked := true }).onGroup g.gid fun x =>
               { x with rels := x.rels ++ [{ gang := k.id, kind := f.k, n := f.n, seq := x.seq }] }, allWait ls) } s

/-! ### Idle units -/

/-- Slots a matrix word reads or writes: `mzero` names its slot; the others name SRC and DST in their block's first word
(Table 08.7). -/
def MWord.slotsUsed (w : MWord) : List Nat :=
  let w0 := (w.blk.headD 0).toNat
  let src := bitsOf w0 20 3
  let dst := bitsOf w0 16 3
  match w.op with
  | 0 => [dst]
  | 1 => [src, dst]
  | 2 => [w.slot]
  | 3 => [dst]
  | _ => [src]

/-- No matrix word of the group on its slots from `lo` on is pending. -/
def slotsIdle (c : Core) (gid lo : Nat) : Bool :=
  c.mwords.all fun w => w.gid != gid || w.slotsUsed.all fun s => decide (s < lo)

/-- No engine word that the group issued before number `seq` is outstanding: kicked blocks, cards, tile fills and drains, matrix words
(R177). -/
def enginesIdle (c : Core) (gid seq : Nat) : Bool :=
  c.kicks.all (fun k => k.gid != gid || decide (seq ≤ k.seq)) && c.cards.all (fun k => k.gid != gid || decide (seq ≤ k.seq))
    && c.mwords.all (fun w => w.gid != gid || decide (seq ≤ w.seq))
    && c.tiles.all fun t => t.2.gid != gid || decide (seq ≤ t.2.seq) || (match t.2.st with | .filling => false | .draining => false | _ => true)

/-- The units of a release are idle (R177). -/
def relIdle (m : Mach) (g : Group) (r : RelReq) : Bool :=
  let c := m.core g.column g.core
  match r.kind with
  | 0 => g.threads.all fun t => (List.range (8 * r.n)).all fun i => !t.c.notFull.getLsbD (8 * (g.hold.reg - r.n) + i)
  | 1 => enginesIdle c g.gid r.seq
  | 2 => slotsIdle c g.gid (g.hold.msl - r.n)
  | _ => true

/-- Drop listed registers from `lo` on. -/
def clearRegs (v : SMap Word) (lo : Nat) : SMap Word := v.filter fun e => decide (e.1 < lo)

/-- Lane registers from `n` on are lost, with the writes in flight to them (R10). -/
def Ctx.lose (c : Ctx) (n : Nat) : Ctx :=
  { c with
    v := clearRegs c.v n
    pend := c.pend.filter fun w => match w.tgt with
      | .lane i => decide (i < n)
      | _ => true }

/-- Contents released are lost (R177): registers, slots and window bytes beyond the new holding. -/
def Mach.loseReleased (m : Mach) (gid : Nat) : Mach :=
  match m.group? gid with
  | none => m
  | some g =>
    let m := m.onGroup gid fun g =>
      { g with slots := g.slots.filter fun s => decide (s.1 < g.hold.msl)
               threads := g.threads.map fun t => { t with c := t.c.lose g.acquired } }
    { m with smem := clearRange m.smem (scrKey gid (granules g.hold.scr)) (scrKey gid (2 ^ 32)) }

/-- Complete one release: HOLD falls, the gang goes on, and the banker re-checks the waiting requests (R177, R231). -/
def completeRel (cfg : Cfg) (gid : Nat) (g : Group) (r : RelReq) (m : Mach) : Mach :=
  let m := m.onGroup gid fun g => { g with hold := g.hold.subKind r.kind r.n, rels := g.rels.erase r }
  bankerRecheck cfg g.column g.core ((m.loseReleased gid).onGang r.gang fun k => { k with ack := true })

/-- REL_COMPLETION: the first release whose units are idle completes (R177). -/
def execRelCompletion (gid : Nat) (s : State) : Host.Outcome State Fault Refusal :=
  onMach (fun cfg m => match m.group? gid with
    | none => m
    | some g => match g.rels.find? (relIdle m g) with
      | some r => if g.stage = .resident then completeRel cfg gid g r m else m
      | none => m) s

/-! ### Remote queues -/

/-- The target core lies in the issuing core's cluster (R178). -/
def inCluster (g : Group) (c : Nat) : Bool := c / 4 == g.core / 4

/-- The target of a queue-7 arrival (R179): the group bound to queue 0 of core `c`, the object's offset, the number of arrivals; none where the
message traps OPFORM. R179 names no cause for an offset that is misaligned or outside the target's window, and R167 gives `pbarrive` ALIGN or SPACE for it; the
model traps OPFORM for these too (DESIGN CHOICE, log entry 58). -/
def arrivalAt (m : Mach) (g : Group) (c msg : Nat) : Option (Nat × Nat × Nat) :=
  match m.binderAny g.column c 0 with
  | none => none
  | some t =>
    let off := bitsOf msg 0 32
    if bitsOf msg 52 12 ≠ 0 ∨ off % 16 ≠ 0 ∨ granules t.hold.scr < off + 16 then none else some (t.gid, off, bitsOf msg 32 20)

/-- The queue-7 arrival of a lane (R179): the target group and the object after the arrival; none where it traps OPFORM. -/
def arrival (m : Mach) (g : Group) (c msg : Nat) : Option (Nat × Nat × PhaseObj) :=
  (arrivalAt m g c msg).bind fun x => ((m.phaseObj x.1 x.2.1).arrive x.2.2).map fun o => (x.1, x.2.1, o)

/-- A lane's queue-7 arrival is taken, once the lanes of the word before it have been served (R178, R179). -/
def arrives (m : Mach) (g : Group) (ls : List LaneIn) (l : LaneIn) : Bool :=
  match arrivalAt m g (l.val 1) (l.val 0) with
  | none => false
  | some x =>
    let o := ((sortLanes (ons ls)).filter fun y => decide (y.t.tid < l.t.tid)).foldl (fun o y =>
      match arrivalAt m g (y.val 1) (y.val 0) with
      | some z => if z.1 = x.1 ∧ z.2.1 = x.2.1 then (match o.arrive z.2.2 with | some o' => o'.settle | none => o) else o
      | none => o) (m.phaseObj x.1 x.2.1)
    (o.arrive x.2.2).isSome

/-- Lanes of the word before a lane that send to the same queue. -/
def sentBefore (ls : List LaneIn) (l : LaneIn) : Nat :=
  ((ons ls).filter fun x => decide (x.t.tid < l.t.tid) && x.val 1 == l.val 1).length

/-- The target queue has no entry for a lane, those before it served (R178). -/
def noEntry (m : Mach) (g : Group) (q : Nat) (ls : List LaneIn) (l : LaneIn) : Bool :=
  decide (m.qfreeEntries g.column (l.val 1) q ≤ sentBefore ls l)

/-- Take a queue-7 arrival: the object is updated, in the image of a group that is swapped out too, and the wait it ends acquires at cluster scope
(R167, R179, Table 11.4). -/
def takeArrival (cfg : Cfg) (m : Mach) (gid off : Nat) (o : PhaseObj) : Mach :=
  match m.group? gid with
  | some t => mirrored cfg t m ((m.noteGlob gid off).settlePhase gid off o)
  | none => m

/-- Send one lane's message: a release at cluster scope, then the entry or the arrival (R178, R179). -/
def sendLane (cfg : Cfg) (m : Mach) (g : Group) (q : Nat) (l : LaneIn) : Mach :=
  let m := m.l1BackAll g.column g.core
  if q = 7 then
    match arrival m g (l.val 1) (l.val 0) with
    | some (t, off, o) => takeArrival cfg m t off o
    | none => m
  else match m.binder g.column (l.val 1) q with
    | some t => m.enqueue t.gid q (l.val 0)
    | none => m

/-- The group and the window bytes that a lane's message goes to: the object of an arrival, or the first free entry of the queue (R178, R179). -/
def sendBytes (m : Mach) (g : Group) (q c msg : Nat) : Option (Nat × Nat × Nat) :=
  if q = 7 then (arrivalAt m g c msg).map fun x => (x.1, x.2.1, 16)
  else (m.binder g.column c q).bind fun t => (t.queues.find? fun x => x.num == q).map fun x => (t.gid, x.base + 8 * (x.tail % x.qn), 8)

/-- The base of `qput`: it waits for a locked bank of what it writes (R260). -/
def qputBase (f : FQput) (q : Option Modifier) : Desc :=
  { c := f.c, q := q, acc := { hb := true }, stop := true
    srcs := [{ f := f.a, mm := f.m, w := 2 }, { f := f.b, mm := f.n, cyc := 1 }]
    blk := true
    busy := fun _ m _ g l => accPending m g l.t.tid || acqPending m g l.t.tid
      || (sendBytes m g f.q (l.val 1) (l.val 0)).any fun x => m.winLocked x.1 x.2.1 x.2.2 }

/-- The lowest lane that finds no entry, among the guarded lanes of the word. -/
def firstFull (m : Mach) (g : Group) (q : Nat) (ls : List LaneIn) : Option LaneIn :=
  if q = 7 then none else lowestLane ((ons ls).filter (noEntry m g q ls))

/-- `qput.b` and `qput.t`: lanes in ascending gang position; with no free entry `.b` waits, `.t` traps QFULL, and lanes at
higher positions are not served (R178). -/
def execQput (f : FQput) (q : Option Modifier) (s : State) : Host.Outcome State Fault Refusal :=
  word { qputBase f q with
         exe := fun _ m k g l =>
           if !inCluster g (l.val 1) then some (.space, 0)
           else if (sendBytes m g f.q (l.val 1) (l.val 0)).any fun x => m.winLost x.1 x.2.1 x.2.2 then some (.dataloss, 0)
           else if f.q = 7 then (if arrives m g (gangLanes (qputBase f q) m k g) l then none else some (.opform, 0))
           else if f.t then
             match firstFull m g f.q (gangLanes (qputBase f q) m k g) with
             | some x => if x.t.tid = l.t.tid then some (.qfull, l.val 1) else none
             | none => none
           else none
         act := fun cfg m k g ls =>
           let stop := firstFull m g f.q (gangLanes (qputBase f q) m k g)
           let served := fun (l : LaneIn) => match stop with
             | some x => decide (l.t.tid < x.t.tid)
             | none => true
           ((sortLanes ((ons ls).filter served)).foldl (fun m l => sendLane cfg m g f.q l) m,
             ((ons ls).filter fun l => !served l).map (·.t.tid)) } s

/-- `qget`: dequeues into D, D+1 when a message has arrived; an acquire at cluster scope; SPACE for queue 7 and for a queue
the group does not bind (R178). -/
def execQget (f : FQget) (q : Option Modifier) (s : State) : Host.Outcome State Fault Refusal :=
  word { c := f.c, q := q, stop := true, dst := some { f := f.d, w := 2, long := true }
         exe := fun _ _ _ g _ => if f.q = 7 ∨ !(g.queues.any fun x => x.num == f.q) then some (.space, 0) else none
         busy := fun _ m _ g l => memBusy true m g l
         act := fun _ m k g ls =>
           let on := sortLanes (ons ls)
           let m := m.mapLanes k.gid on fun _ t => t.emptyDsts (Dst.regs { f := f.d, w := 2 })
           let m := m.onGroup g.gid fun x => { x with qwaits := x.qwaits ++ on.map fun l => { tid := l.t.tid, num := f.q, dst := f.d } }
           (m.fillQgets g.gid f.q (g.qwaits.length + on.length), []) } s

/-- `qfree`: free entries of a queue of a core of the cluster; 0 for one that is unbound or swapped out (R178). -/
def execQfree (f : FQfree) (q : Option Modifier) (s : State) : Host.Outcome State Fault Refusal :=
  word { c := f.c, q := q, srcs := [{ f := f.a, mm := f.m }], dst := some { f := f.d }
         exe := fun _ _ _ g l => if inCluster g (l.val 0) then none else some (.space, 0)
         act := fun _ m k g ls =>
           laneNow (fun l => resWrites f.d 1 (m.qfreeEntries g.column (l.val 0) f.q)) m k ls } s

end Sys2Proof.Machine
end

