-- ==== Sys2Proof/Machine/Engine.lean ====
section
/-! DEFINITION. Engine: the copy engine of a core: kicked command blocks and their requests (08 R182 to R188), tile entries and
their fills (08 R180, R181). Log entry 16: a request is performed in pieces whose length is a free choice. -/

namespace Sys2Proof.Machine

/-! ### Bytes of an engine -/

/-- Where an engine's byte lies: in the group's window or at a global address; an aperture address is a window offset (R144). -/
inductive EPlace where
  | win (off : Nat)
  | glob (va : Nat)
  deriving DecidableEq, Repr

/-- A byte's place from its request's selector. -/
def ePlace (window : Bool) (a : Nat) : EPlace :=
  if window then .win a
  else match placeOf a with
    | (.scr, off) => .win off
    | _ => .glob a

/-- Why an engine's access is not performed: it waits; a pending translation; an unresolvable fault; an access outside the
partition; a malformed request; a bank that cannot be served. -/
inductive EStop where
  | stall
  | pending (va : Nat) (write s2 : Bool)
  | fail1 (va : Nat) (write : Bool)
  | fail2 (va : Nat)
  | malformed
  | lost
  deriving DecidableEq, Repr

/-- The stop of a translation that gives no address (R334); stage 2 never maps the control page (R335). -/
def transStop (va : Nat) (write : Bool) : TransRes → EStop
  | .pending s2 => .pending va write s2
  | .fail2 => .fail2 va
  | .ctrl _ => .fail2 va
  | .lost => .lost
  | _ => .fail1 va write

/-- What holds back a window byte of a group: its extent, a lock (R260), a bank that cannot be served (R354). -/
def winStop (m : Mach) (g : Group) (off : Nat) : Option EStop :=
  if granules g.hold.scr ≤ off then some .malformed
  else if g.onCore && m.lockedAt g.column g.core off 1 then some .stall
  else if g.onCore && m.lostAt g.column g.core off 1 then some .lost
  else none

/-- Read one byte. -/
def engByte (cfg : Cfg) (g : Group) (p : EPlace) (m : Mach) : Mach × Except EStop Byte :=
  match p with
  | .win off => match winStop m g off with
    | some e => (m, .error e)
    | none => (m, .ok (byteAt m.smem (scrKey g.gid off)))
  | .glob va =>
    if 2 ^ 57 ≤ va then (m, .error (.fail1 va false))
    else match devRead cfg g.env.vf va 1 m with
      | (m, .ok v) => (m, .ok (BitVec.ofNat 8 v))
      | (m, .error r) => (m, .error (transStop va false r))

/-- Write one byte. -/
def engPut1 (cfg : Cfg) (g : Group) (p : EPlace) (b : Byte) (m : Mach) : Mach × Option EStop :=
  match p with
  | .win off => match winStop m g off with
    | some e => (m, some e)
    | none => (m.winWrite g.gid off 1 b.toNat, none)
  | .glob va =>
    if 2 ^ 57 ≤ va then (m, some (.fail1 va true))
    else match devWrite cfg g.env.vf va 1 b.toNat m with
      | (m, .ok _) => (m, none)
      | (m, .error r) => (m, some (transStop va true r))

/-- The key of a place. -/
def EPlace.key : EPlace → Nat
  | .win off => 2 * off
  | .glob va => 2 * va + 1

/-- Read one byte of a request, which the engine may have read ahead (R257). -/
def EngBuf.byte (eb : EngBuf) (cfg : Cfg) (g : Group) (p : EPlace) (m : Mach) : Mach × Except EStop Byte :=
  match SMap.get 0 eb.got p.key with
  | 0 => engByte cfg g p m
  | v + 1 => (m, .ok (BitVec.ofNat 8 v))

/-- Read a byte ahead. -/
def EngBuf.read (eb : EngBuf) (cfg : Cfg) (g : Group) (p : EPlace) (m : Mach) : Mach × EngBuf × Option EStop :=
  match eb.byte cfg g p m with
  | (m, .ok b) => (m, { eb with got := SMap.set 0 eb.got p.key (b.toNat + 1) }, none)
  | (m, .error e) => (m, eb, some e)

/-- Read the bytes at places of a request. -/
def EngBuf.bytes (eb : EngBuf) (cfg : Cfg) (g : Group) : List EPlace → Mach → Mach × Except EStop (List Byte)
  | [], m => (m, .ok [])
  | p :: ps, m => match eb.byte cfg g p m with
    | (m, .error e) => (m, .error e)
    | (m, .ok b) => match eb.bytes cfg g ps m with
      | (m, .ok bs) => (m, .ok (b :: bs))
      | (m, .error e) => (m, .error e)

/-- Read ahead what is not read yet of some places, in order. -/
def EngBuf.readAll (eb : EngBuf) (cfg : Cfg) (g : Group) : List EPlace → Mach → Mach × EngBuf × Option EStop
  | [], m => (m, eb, none)
  | p :: ps, m => match eb.read cfg g p m with
    | (m, eb, none) => eb.readAll cfg g ps m
    | r => r

/-- Read the bytes at places. -/
def engBytes (cfg : Cfg) (g : Group) : List EPlace → Mach → Mach × Except EStop (List Byte)
  | [], m => (m, .ok [])
  | p :: ps, m => match engByte cfg g p m with
    | (m, .error e) => (m, .error e)
    | (m, .ok b) => match engBytes cfg g ps m with
      | (m, .ok bs) => (m, .ok (b :: bs))
      | (m, .error e) => (m, .error e)

/-- Write bytes at places in order; how many were written before a stop. -/
def engPut (cfg : Cfg) (g : Group) : List (EPlace × Byte) → Mach → Mach × Nat × Option EStop
  | [], m => (m, 0, none)
  | (p, b) :: rest, m => match engPut1 cfg g p b m with
    | (m, some e) => (m, 0, some e)
    | (m, none) => match engPut cfg g rest m with
      | (m, n, e) => (m, n + 1, e)

/-- The number that bytes make, least significant first. -/
def bytesNat : List Byte → Nat
  | [] => 0
  | b :: bs => b.toNat + 256 * bytesNat bs

/-- `n` places from an address on. -/
def ePlaces (window : Bool) (a n : Nat) : List EPlace := (List.range n).map fun i => ePlace window (a + i)

/-! ### Copy requests -/

/-- A copy request (Table 08.3). `rsv` is the sum of its reserved fields. -/
structure Req where
  op : Nat
  fmt : Nat
  sbf : Bool
  dsp : Bool
  ssp : Bool
  link : Nat
  src : Nat
  dst : Nat
  len : Nat
  aux : Nat
  sstride : Nat
  dstride : Nat
  val : Nat
  qcv : Nat
  qcs : Nat
  state : Nat
  prog : Nat
  rsv : Nat
  deriving DecidableEq, Repr

/-- A request from its 16 words. -/
def reqOf (w : Nat → Nat) : Req :=
  let w0 := w 0
  { op := bitsOf w0 0 4, ssp := bitOf w0 4, dsp := bitOf w0 5, fmt := bitsOf w0 8 4, sbf := bitOf w0 12
    link := w 1, src := w 2 + 2 ^ 32 * w 3, dst := w 4 + 2 ^ 32 * w 5, len := w 6, aux := w 7, sstride := w 8
    dstride := w 9, val := w 10, qcv := w 11, qcs := w 12, state := bitsOf (w 14) 30 2, prog := bitsOf (w 14) 0 30
    rsv := bitsOf w0 6 2 + bitsOf w0 13 19 + w 13 + w 15 }

/-- Read a request in a window. -/
def readReq (m : Mach) (gid off : Nat) : Req := reqOf fun i => m.win32 gid (off + 4 * i)

/-- Destination bytes of a request (R184). -/
def Req.total (r : Req) : Nat :=
  match r.op with
  | 0 => r.len * r.aux
  | 1 => r.len * 2 ^ r.fmt
  | 2 => r.len
  | 3 => r.len
  | _ => 2 * (r.len * r.aux / 16) * (brineBytes r.fmt + 2)

/-- A malformed request (R174, R183 to R186). -/
def Req.bad (r : Req) (k : Nat) : Bool :=
  let misaligned (n : Nat) := r.dst % n != 0 || (r.op != 2 && r.src % n != 0)
  decide (64 ≤ k) || r.rsv != 0 || decide (4 < r.op)
    || (r.ssp && decide (2 ^ 32 ≤ r.src)) || (r.dsp && decide (2 ^ 32 ≤ r.dst))
    || (match r.op with
      | 0 => r.aux == 0 || decide (65536 < r.aux)
      | 1 => decide (4 < r.fmt) || misaligned (2 ^ r.fmt)
      | 2 => decide (4 < r.fmt) || misaligned (2 ^ r.fmt) || r.len % 2 ^ r.fmt != 0
      | 3 => false
      | _ => decide (r.fmt < 4) || decide (6 < r.fmt) || r.len % 16 != 0 || r.aux % 16 != 0 || misaligned 16
          || r.sstride % 16 != 0 || r.val % 16 != 0 || r.qcv % 16 != 0 || r.qcs % 16 != 0)

/-- Blocks of each copy of a quantise request. -/
def Req.blocks (r : Req) : Nat := r.len * r.aux / 16

/-- The destination of byte `i` (R184, R186). -/
def Req.dstAt (r : Req) (i : Nat) : EPlace :=
  match r.op with
  | 0 => ePlace r.dsp (r.dst + i / r.len * r.dstride + i % r.len)
  | 4 =>
    let v := r.blocks * brineBytes r.fmt
    let s := r.blocks * 2
    let off :=
      if i < v then i
      else if i < v + s then r.val + (i - v)
      else if i < v + s + v then r.qcv + (i - v - s)
      else r.qcs + (i - v - s - v)
    ePlace r.dsp (r.dst + off)
  | _ => ePlace r.dsp (r.dst + i)

/-- Decode one symbol, bit by bit from the source (R185): the symbol and the next bit position. -/
def engSym (cfg : Cfg) (g : Group) (r : Req) (eb : EngBuf) (tab : List (Nat × Nat × Nat)) (base : Nat) :
    Nat → Nat → Nat → Nat → Mach → Mach × Except EStop (Nat × Nat)
  | 0, _, _, _, m => (m, .error .malformed)
  | n + 1, pos, c, l, m => match eb.byte cfg g (ePlace r.ssp (base + pos / 8)) m with
    | (m, .error e) => (m, .error e)
    | (m, .ok b) =>
      let c := 2 * c + (if bitOf b.toNat (pos % 8) then 1 else 0)
      match tab.find? fun e => e.1 == l + 1 && e.2.1 == c with
      | some e => (m, .ok (e.2.2, pos + 1))
      | none => engSym cfg g r eb tab base n (pos + 1) c (l + 1) m

/-- Decode `n` symbols of a chunk. -/
def engChunk (cfg : Cfg) (g : Group) (r : Req) (eb : EngBuf) (tab : List (Nat × Nat × Nat)) (base : Nat) :
    Nat → Nat → Mach → Mach × Except EStop (List Byte)
  | 0, _, m => (m, .ok [])
  | n + 1, pos, m => match engSym cfg g r eb tab base 15 pos 0 0 m with
    | (m, .error e) => (m, .error e)
    | (m, .ok (s, pos)) => match engChunk cfg g r eb tab base n pos m with
      | (m, .ok bs) => (m, .ok (BitVec.ofNat 8 s :: bs))
      | (m, .error e) => (m, .error e)

/-- The places of the code table of a decompress request (R185). -/
def Req.table (r : Req) : List EPlace := ePlaces true r.val 128

/-- The bytes of a decompress request from byte `i` to the end of its chunk (R185). -/
def decompressAt (cfg : Cfg) (g : Group) (r : Req) (eb : EngBuf) (i : Nat) (m : Mach) : Mach × Except EStop (List Byte) :=
  match eb.bytes cfg g r.table m with
  | (m, .error e) => (m, .error e)
  | (m, .ok tab) => match eb.bytes cfg g (ePlaces true (r.aux + 4 * (i / 4096)) 4) m with
    | (m, .error e) => (m, .error e)
    | (m, .ok o) =>
      match engChunk cfg g r eb (codeTable (codeLengths tab)) (r.src + bytesNat o) (min 4096 (r.len - i / 4096 * 4096)) 0 m with
      | (m, .ok bs) => (m, .ok (bs.drop (i % 4096)))
      | (m, .error e) => (m, .error e)

/-- Bytes of a source element of a quantise request. -/
def Req.elemBytes (r : Req) : Nat := if r.sbf then 2 else 4

/-- The places of a source element of a quantise request (R186). -/
def Req.elemAt (r : Req) (row col : Nat) : List EPlace := ePlaces r.ssp (r.src + row * r.sstride + col * r.elemBytes) r.elemBytes

/-- The places of the source of a quantise request, row by row. -/
def Req.source (r : Req) : List EPlace := (List.range r.len).flatMap fun i => (List.range r.aux).flatMap fun j => r.elemAt i j

/-- The 16 source elements of a block of a quantise request, as binary32 patterns (R54, R57, R186). -/
def quantSource (cfg : Cfg) (g : Group) (r : Req) (eb : EngBuf) (byRow : Bool) (b : Nat) (m : Mach) : Mach × Except EStop (List Nat) :=
  let e := r.elemBytes
  let at_ (i : Nat) : List EPlace :=
    if byRow then r.elemAt (b / (r.aux / 16)) (16 * (b % (r.aux / 16)) + i) else r.elemAt (16 * (b % (r.len / 16)) + i) (b / (r.len / 16))
  match eb.bytes cfg g ((List.range 16).flatMap at_) m with
  | (m, .error x) => (m, .error x)
  | (m, .ok bs) => (m, .ok ((List.range 16).map fun i =>
      bytesNat ((bs.drop (e * i)).take e) * (if r.sbf then 2 ^ 16 else 1)))

/-- The bytes of a quantise request from byte `i` to the end of its block or scale entry (R186). -/
def quantiseAt (cfg : Cfg) (g : Group) (r : Req) (eb : EngBuf) (i : Nat) (m : Mach) : Mach × Except EStop (List Byte) :=
  let bs := brineBytes r.fmt
  let v := r.blocks * bs
  let s := r.blocks * 2
  let byRow := decide (i < v + s)
  let j := if byRow then i else i - v - s
  let value := decide (j < v)
  let b := if value then j / bs else (j - v) / 2
  match quantSource cfg g r eb byRow b m with
  | (m, .error e) => (m, .error e)
  | (m, .ok xs) =>
    let (blk, entry) := quantBlock r.fmt xs
    (m, .ok (if value then natBytes blk (j % bs) bs else natBytes entry ((j - v) % 2) 2))

/-- The source of element `i` of a gather request, by its index (R184). -/
def gatherSrc (cfg : Cfg) (g : Group) (r : Req) (eb : EngBuf) (i : Nat) (m : Mach) : Mach × Except EStop (List EPlace) :=
  match eb.bytes cfg g (ePlaces true (r.aux + 4 * i) 4) m with
  | (m, .error x) => (m, .error x)
  | (m, .ok ix) => (m, .ok (ePlaces r.ssp (r.src + bytesNat ix * 2 ^ r.fmt) (2 ^ r.fmt)))

/-- The bytes of a gather request from byte `i` to the end of its element (R184). -/
def gatherAt (cfg : Cfg) (g : Group) (r : Req) (eb : EngBuf) (i : Nat) (m : Mach) : Mach × Except EStop (List Byte) :=
  match gatherSrc cfg g r eb (i / 2 ^ r.fmt) m with
  | (m, .error x) => (m, .error x)
  | (m, .ok ps) => eb.bytes cfg g (ps.drop (i % 2 ^ r.fmt)) m

/-- The source of byte `i` of a copy request (R184). -/
def Req.copySrc (r : Req) (i : Nat) : EPlace := ePlace r.ssp (r.src + i / r.len * r.sstride + i % r.len)

/-- The next bytes a request writes, from destination byte `i` on: at least one (R184). -/
def Req.bytesAt (cfg : Cfg) (g : Group) (r : Req) (eb : EngBuf) (i : Nat) (m : Mach) : Mach × Except EStop (List Byte) :=
  match r.op with
  | 0 => eb.bytes cfg g [r.copySrc i] m
  | 1 => gatherAt cfg g r eb i m
  | 2 => (m, .ok [BitVec.ofNat 8 (r.val / 256 ^ (i % min (2 ^ r.fmt) 4))])
  | 3 => decompressAt cfg g r eb i m
  | _ => quantiseAt cfg g r eb i m

/-- Write the bytes of a request from byte `i` on, but those it has written ahead: how many are written before a stop. -/
def EngBuf.put (eb : EngBuf) (cfg : Cfg) (g : Group) (r : Req) : Nat → List Byte → Mach → Mach × Nat × Option EStop
  | _, [], m => (m, 0, none)
  | i, b :: bs, m => match (if eb.wrote.contains i then (m, none) else engPut1 cfg g (r.dstAt i) b m) with
    | (m, some e) => (m, 0, some e)
    | (m, none) => match eb.put cfg g r (i + 1) bs m with
      | (m, n, e) => (m, n + 1, e)

/-- Perform up to `n` pieces of a request from byte `p` on: the bytes done, and what stopped it. -/
def engRun (cfg : Cfg) (g : Group) (r : Req) (eb : EngBuf) : Nat → Nat → Mach → Mach × Nat × Option EStop
  | 0, p, m => (m, p, none)
  | n + 1, p, m =>
    if r.total ≤ p then (m, p, none)
    else match r.bytesAt cfg g eb p m with
      | (m, .error e) => (m, p, some e)
      | (m, .ok bs) => match eb.put cfg g r p bs m with
        | (m, k, some e) => (m, p + k, some e)
        | (m, k, none) => engRun cfg g r eb n (p + k) m

/-- What a request reads before its first byte is written: a decompression its code table, which may be malformed (R185); a quantise request its source, in
one pass (R58). -/
def Req.prepare (cfg : Cfg) (g : Group) (r : Req) (eb : EngBuf) (m : Mach) : Mach × EngBuf × Option EStop :=
  match r.op with
  | 3 => match eb.readAll cfg g r.table m with
    | (m, eb, none) => match eb.bytes cfg g r.table m with
      | (m, .ok tab) => (m, eb, if overfull (codeLengths tab) then some .malformed else none)
      | (m, .error e) => (m, eb, some e)
    | x => x
  | 4 => eb.readAll cfg g r.source m
  | _ => (m, eb, none)

/-- Work on a request from byte `p` on: what it reads first, then a free number of pieces. -/
def engWork (cfg : Cfg) (g : Group) (r : Req) (eb : EngBuf) (p : Nat) (m : Mach) : Mach × EngBuf × Nat × Option EStop :=
  match r.prepare cfg g eb m with
  | (m, eb, some e) => (m, eb, p, some e)
  | (m, eb, none) =>
    let (n, m) := m.pick (r.total - p)
    let (m, p, e) := engRun cfg g r eb (n + 1) p m
    (m, eb, p, e)

/-- The place that a request may read ahead for a number `i`, among those it reads in any case. -/
def Req.aheadPlace (cfg : Cfg) (g : Group) (r : Req) (eb : EngBuf) (i : Nat) (m : Mach) : Mach × Option EPlace :=
  match r.op with
  | 0 => (m, some (r.copySrc (i % r.total)))
  | 1 =>
    if i % 2 = 0 then (m, some (ePlace true (r.aux + i / 2 % (4 * r.len))))
    else match gatherSrc cfg g r eb (i / 2 % r.total / 2 ^ r.fmt) m with
      | (m, .ok ps) => (m, ps[i / 2 % 2 ^ r.fmt]?)
      | (m, .error _) => (m, none)
  | 3 =>
    if i % 2 = 0 then (m, some (ePlace true (r.aux + i / 2 % (4 * ceilDiv r.len 4096)))) else (m, some (ePlace r.ssp (r.src + i / 2)))
  | 4 => (m, (r.elemAt (i / r.elemBytes % r.len) (i / r.elemBytes / r.len % r.aux))[i % r.elemBytes]?)
  | _ => (m, none)

/-- A byte of a request, read or written ahead of its turn, in whatever order the engine takes them (R184, R257): an access that cannot be performed has no
effect. -/
def engAhead (cfg : Cfg) (g : Group) (r : Req) (eb : EngBuf) (p : Nat) (m : Mach) : Mach × EngBuf :=
  let (w, m) := m.pick 2
  let (x, m) := m.freeBits 57
  if r.total ≤ p then (m, eb)
  else if w = 0 then
    match r.aheadPlace cfg g eb x m with
    | (m, some a) => let y := eb.read cfg g a m; (y.1, y.2.1)
    | (m, none) => (m, eb)
  else
    let i := p + x % (r.total - p)
    match r.prepare cfg g eb m with
    | (m, eb, none) => match r.bytesAt cfg g eb i m with
      | (m, .ok (b :: _)) =>
        if eb.wrote.contains i then (m, eb)
        else match engPut1 cfg g (r.dstAt i) b m with
          | (m, none) => (m, { eb with wrote := i :: eb.wrote })
          | (m, some _) => (m, eb)
      | (m, _) => (m, eb)
    | (m, eb, some _) => (m, eb)

/-! ### Command blocks -/

/-- The queue entry of a block changes. -/
def Mach.setKick (m : Mach) (col core idx : Nat) (k : Kick) : Mach :=
  m.onCore col core fun c => { c with kicks := c.kicks.set idx k }

/-- STATE and PROGRESS of a request (Table 08.3). PROGRESS has 30 bits: of more than 2^30 bytes done the spec does not say what it shows; the model keeps the
low 30 bits (DESIGN CHOICE, log entry 46). -/
def Mach.setReq (m : Mach) (gid req st p : Nat) : Mach := m.setWin32 gid (req + 56) (st * 2 ^ 30 + p % 2 ^ 30)

/-- The block goes on to the request that LINK names, or ends (R183); a stopped domain's block ends after its current request
(R243). -/
def nextReq (col core idx : Nat) (k : Kick) (link : Nat) (m : Mach) : Mach :=
  if link = 0xFFFFFFFF ∨ (m.group? k.gid).any (fun g => g.stage == .stopped) then m.onCore col core fun c => { c with kicks := c.kicks.eraseIdx idx }
  else m.setKick col core idx { k with req := link, k := k.k + 1, prog := none, eb := {}, pend := none }

/-- A request that cannot go on faults its block, which waits for the driver (R187), once the fault ring can take its record. `st` is 2 or 3. -/
def faultReq (cfg : Cfg) (col core idx : Nat) (k : Kick) (g : Group) (st p va : Nat) (write : Bool) (m : Mach) : Mach :=
  match touchRing cfg g.env.vf m with
  | (m, .wait) => m.setKick col core idx { k with prog := some p }
  | (m, .ready) =>
    let m := m.setKick col core idx { k with prog := some p, eb := {}, faulted := true, pend := none }
    m.faultRecord cfg g col core 1 k.k va p (if write then 1 else 0) k.off |>.setReq g.gid k.req st p

/-- The request's window place is not a request: not 64-aligned, or not inside the window (R183). -/
def badReqAt (g : Group) (off : Nat) : Bool := off % 64 != 0 || decide (granules g.hold.scr < off + 64)

/-- How a piece of work on a request ends. -/
def endPiece (cfg : Cfg) (col core idx : Nat) (k : Kick) (g : Group) (r : Req) (m : Mach) (p : Nat) (e : Option EStop) : Mach :=
  match e with
  | none =>
    if r.total ≤ p && !m.objLocked g.gid k.obj then
      nextReq col core idx k r.link ((m.setReq g.gid k.req 1 p).countBytes g.gid k.obj r.total (!r.dsp))
    else (m.setReq g.gid k.req 0 p).setKick col core idx { k with prog := some p, pend := none }
  | some .stall => (m.setReq g.gid k.req 0 p).setKick col core idx { k with prog := some p, pend := none }
  | some (.pending va w s2) =>
    let first := (k.pend.map (·.1)).getD m.etime
    if first + 1000000000 ≤ m.etime then
      if s2 then ((m.setReq g.gid k.req 0 p).setKick col core idx { k with prog := some p, pend := none }).freezeCopy g 0 col core 0 va
      else faultReq cfg col core idx k g 2 p va w m
    else (m.setReq g.gid k.req 0 p).setKick col core idx { k with prog := some p, pend := some (first, m.etime) }
  | some (.fail1 va w) => faultReq cfg col core idx k g 2 p va w m
  | some (.fail2 va) => ((m.setReq g.gid k.req 0 p).setKick col core idx { k with prog := some p, pend := none }).freezeCopy g 0 col core 0 va
  | some .malformed => faultReq cfg col core idx k g 3 p 0 false m
  | some .lost =>
    ((m.setReq g.gid k.req 0 p).setKick col core idx { k with prog := some p, faulted := true, pend := none }).reportLoss
      col g.env.vf g.env.fdroot

/-- A pending walk is not due yet (R333). -/
def pendHeld (p : Option (Nat × Nat)) (now : Nat) : Bool :=
  match p with
  | some (first, last) => decide (now < last + 2000000) && decide (now < first + 1000000000)
  | none => false

/-- A block may work: not faulted, its engine not frozen and with its current reservation (R293), and started only
after the blocks kicked before it (R182). -/
def Core.kickFree (c : Core) (idx : Nat) (k : Kick) (now : Nat) : Bool :=
  !k.faulted && !c.copyFrozen && decide (4 ≤ c.copyCu) && !pendHeld k.pend now
    && (k.granted || (c.kicks.take idx).all (·.granted))

/-- The operation that serves a block's current request: 0 too where there is no request to read. -/
def Kick.op (m : Mach) (g : Group) (k : Kick) : Nat :=
  if badReqAt g k.req then 0
  else
    let op := (readReq m k.gid k.req).op
    if op ≤ 4 then op else 0

/-- The first byte of its current request that a block still has to write (R187). -/
def Kick.start (k : Kick) (r : Req) : Nat := k.prog.getD (if r.state = 0 then 0 else r.prog)

/-- A piece of work of the copy engine on the current request of a block, if that request is of operation `op` (R184, R187). A 65th request is malformed,
whatever it holds (R183). -/
def copyStep (op col core idx : Nat) (cfg : Cfg) (m : Mach) : Mach :=
  let c := m.core col core
  match c.kicks[idx]? with
  | none => m
  | some k => match m.group? k.gid with
    | none => m
    | some g =>
      if !c.kickFree idx k m.etime || k.op m g != op then m
      else
        let k := { k with granted := true }
        if badReqAt g k.req then
          whenReady (touchRing cfg g.env.vf m) fun m => (m.setKick col core idx { k with faulted := true }).faultRecord cfg g col core 1 k.k 0 0 0 k.off
        else
          let r := readReq m k.gid k.req
          if m.winLocked g.gid k.req 64 then m
          else if m.winLost g.gid k.req 64 then (m.setKick col core idx { k with faulted := true }).reportLoss col g.env.vf g.env.fdroot
          else if decide (k.k < 64) && k.prog.isNone && r.state == 1 then nextReq col core idx k r.link m
          else if r.bad k.k then mirrored cfg g m (faultReq cfg col core idx k g 3 (k.start r) 0 false m)
          else
            let (m', eb, p, e) := engWork cfg g r k.eb (k.start r) m
            mirrored cfg g m (endPiece cfg col core idx { k with eb := eb } g r m' p e)

/-- A byte of the current request of a block that has begun it, ahead of its turn (R257). -/
def copyAhead (col core idx : Nat) (s : State) : Host.Outcome State Fault Refusal :=
  onMach (fun cfg m =>
    let c := m.core col core
    match c.kicks[idx]? with
    | none => m
    | some k => match m.group? k.gid with
      | none => m
      | some g =>
        if !c.kickFree idx k m.etime || !k.granted || badReqAt g k.req || m.winLocked g.gid k.req 64 then m
        else
          let r := readReq m k.gid k.req
          if k.prog.isNone || r.bad k.k then m
          else
            let (m', eb) := engAhead cfg g r k.eb (k.start r) m
            mirrored cfg g m (m'.setKick col core idx { k with eb := eb })) s

/-- COPY (R184). -/
def execCopy (col core idx : Nat) (s : State) : Host.Outcome State Fault Refusal := onMach (copyStep 0 col core idx) s

/-- GATHER (R184). -/
def execGather (col core idx : Nat) (s : State) : Host.Outcome State Fault Refusal := onMach (copyStep 1 col core idx) s

/-- FILL (R184). -/
def execFill (col core idx : Nat) (s : State) : Host.Outcome State Fault Refusal := onMach (copyStep 2 col core idx) s

/-- DECOMPRESS (R185). -/
def execDecompress (col core idx : Nat) (s : State) : Host.Outcome State Fault Refusal := onMach (copyStep 3 col core idx) s

/-- QUANTISE (R186). -/
def execQuantise (col core idx : Nat) (s : State) : Host.Outcome State Fault Refusal := onMach (copyStep 4 col core idx) s

/-! ### Words that hand work to the copy engine -/

/-- Uniform register `a` as a word reads it. -/
def uniAt (m : Mach) (k : Gang) (g : Group) (a : Nat) : Nat := (g.uniView (issueCycle m k g) a).toNat

/-- The phase barrier object a word names; none for 0xFFFF_FFFF. -/
def objOf (v : Nat) : Option Nat := if v = 0xFFFFFFFF then none else some v

/-- A phase barrier object that does not fit: OPFORM (R174). -/
def badObj (g : Group) (v : Nat) : Bool := v != 0xFFFFFFFF && (v % 16 != 0 || decide (granules g.hold.scr < v + 16))

/-- A faulted block that a `kick` of the same block takes the place of (R187, R337). -/
def Core.refaulted (c : Core) (gid off : Nat) : Option Kick := c.kicks.find? fun x => x.gid == gid && x.off == off && x.faulted

/-- Put a kicked block into its core's queue; a block that is faulted is restarted in its place, and its fault is no longer
in force (R187, R337). -/
def kickBlock (g : Group) (off : Nat) (obj : Option Nat) (m : Mach) : Mach :=
  let c := m.core g.column g.core
  let m := match c.refaulted g.gid off with
    | some x => (m.onCore g.column g.core fun c => { c with kicks := c.kicks.erase x }).onVf g.env.vf fun v =>
        { v with faults := v.faults.filter fun f => !(f.kind == 1 && f.gid == g.gid && f.off == off) }
    | none => m
  (m.nextSeq g.gid).onCore g.column g.core fun c => { c with kicks := c.kicks ++ [{ gid := g.gid, off := off, obj := obj, req := off, seq := g.seq }] }

/-- `kick`: a release at column scope of the prior writes, then the block enters the queue; a 17th block waits at issue
(R182). -/
def execKick (f : FXu1) (q : Option Modifier) (s : State) : Host.Outcome State Fault Refusal :=
  word { c := f.c, q := q, ill := f.a % 2 == 1, stop := true
         exe := fun _ m k g _ =>
           if badReqAt g (uniAt m k g f.a) || badObj g (uniAt m k g (f.a + 1)) then some (.opform, 0) else none
         busy := fun _ m k g l => accPending m g l.t.tid || acqPending m g l.t.tid
           || (decide (16 ≤ (m.core g.column g.core).kicks.length)
                && ((m.core g.column g.core).refaulted g.gid (uniAt m k g f.a)).isNone)
         act := fun _ m k g ls =>
           if (ons ls).isEmpty then (m, [])
           else (kickBlock g (uniAt m k g f.a) (objOf (uniAt m k g (f.a + 1))) (m.l1BackAll g.column g.core), []) } s

/-! ### Tiles -/

/-- The tile entry of a core. -/
def Core.tile (c : Core) (t : Nat) : Tile := SMap.get {} c.tiles t

/-- Replace a tile entry. -/
def Mach.setTile (m : Mach) (col core t : Nat) (x : Tile) : Mach :=
  m.onCore col core fun c => { c with tiles := SMap.set {} c.tiles t x }

/-- The entry belongs to another group (Tiles, R180). -/
def Tile.foreign (x : Tile) (gid : Nat) : Bool := x.st != .empty && x.gid != gid

/-- An entry that fills or drains. -/
def Tile.moving (x : Tile) : Bool := x.st == .filling || x.st == .draining

/-- The tile descriptor in s[SA] to s[SA+4] (R180), with the sum of its reserved bits, those of SRC
above its 57 bits among them (R174). -/
def tileDesc (m : Mach) (k : Gang) (g : Group) (a : Nat) : Tile × Nat :=
  let u (i : Nat) := uniAt m k g (a + i)
  ({ st := .filling, gid := g.gid, src := u 0 + 2 ^ 32 * u 1, rb := bitsOf (u 2) 8 8, rows := bitsOf (u 2) 0 8
     sstride := u 3, buf := u 4 }, bitsOf (u 2) 16 16 + bitsOf (u 1) 25 7)

/-- A descriptor with a field error (R180): OPFORM. -/
def Tile.bad (x : Tile) (g : Group) : Bool :=
  x.rows != 0 && (decide (64 < x.rows) || x.rb == 0 || decide (16 < x.rb) || x.src % 16 != 0 || x.sstride % 16 != 0
    || x.buf % 16 != 0 || decide (granules g.hold.scr < x.buf + 16 * x.rb * x.rows))

/-- `tdef`: defines a tile entry and starts its fill, or releases it with ROWS 0; a release at column scope; waits while the tile
fills or drains (R180). -/
def execTdef (f : FTdef) (q : Option Modifier) (s : State) : Host.Outcome State Fault Refusal :=
  word { c := f.c, q := q, ill := decide (59 < f.a), stop := true
         exe := fun _ m k g _ =>
           let d := tileDesc m k g f.a
           if d.2 != 0 || d.1.bad g || ((m.core g.column g.core).tile f.t).foreign g.gid then some (.opform, 0) else none
         busy := fun _ m _ g l =>
           let x := (m.core g.column g.core).tile f.t
           accPending m g l.t.tid || acqPending m g l.t.tid || (x.gid == g.gid && x.moving)
         act := fun _ m k g ls =>
           if (ons ls).isEmpty then (m, [])
           else
             let m := m.l1BackAll g.column g.core
             let d := (tileDesc m k g f.a).1
             ((m.nextSeq g.gid).setTile g.column g.core f.t (if d.rows = 0 then {} else { d with seq := g.seq }), []) } s

/-- `tstat`: k[KD] := the entry is ready, in every active lane (R181). -/
def execTstat (f : FTstat) (q : Option Modifier) (s : State) : Host.Outcome State Fault Refusal :=
  word { c := f.c, q := q
         exe := fun _ m _ g _ => if ((m.core g.column g.core).tile f.t).foreign g.gid then some (.opform, 0) else none
         act := fun _ m k g ls =>
           if (ons ls).isEmpty then (m, [])
           else
             let x := (m.core g.column g.core).tile f.t
             (m.mapLanes k.gid ls fun _ t => t.writeNow (predWrite f.k (x.st == .ready)), []) } s

/-- The copy request that a fill is: ROWS rows of 16·RB bytes into the buffer (R180). -/
def Tile.req (x : Tile) : Req :=
  { op := 0, fmt := 0, sbf := false, dsp := true, ssp := false, link := 0, src := x.src, dst := x.buf, len := 16 * x.rb, aux := x.rows
    sstride := x.sstride, dstride := 16 * x.rb, val := 0, qcv := 0, qcs := 0, state := 0, prog := 0, rsv := 0 }

/-- The entry that fills under a number of a core: the core's own, or the saved one of a group that left that core (R180, R364). -/
def fillingTile (m : Mach) (col core t : Nat) : Option (Group × Tile × Bool) :=
  let x := (m.core col core).tile t
  if x.st == .filling then (m.group? x.gid).map fun g => (g, x, false)
  else (m.groups.find? fun g => g.column == col && g.core == core && (SMap.get {} g.tiles t).st == .filling).map
    fun g => (g, SMap.get {} g.tiles t, true)

/-- The entry that fills changes, on its core or among those of a group that is away; that in the group's image follows (R364). -/
def putFilling (cfg : Cfg) (g : Group) (col core t : Nat) (away : Bool) (x : Tile) (m : Mach) : Mach :=
  if away then mirrorTile cfg g t x (m.onGroup g.gid fun g => { g with tiles := SMap.set {} g.tiles t x }) else m.setTile col core t x

/-- TILE_FILL_COMPLETE: the rest of the fill, and the entry becomes ready; a translation that cannot be resolved leaves the entry filling and interrupts the
driver (R180, R337). -/
def execTileFillComplete (col core tile : Nat) (s : State) : Host.Outcome State Fault Refusal :=
  onMach (fun cfg m => match fillingTile m col core tile with
    | none => m
    | some (g, x, away) =>
      let put (x : Tile) (m : Mach) : Mach := putFilling cfg g col core tile away x m
      if x.faulted || (m.core col core).copyFrozen || pendHeld x.pend m.etime then m
      else
        let fault (va p : Nat) (m : Mach) : Mach := match touchRing cfg g.env.vf m with
          | (m, .wait) => put { x with prog := p } m
          | (m, .ready) => (put { x with prog := 0, eb := {}, faulted := true, pend := none } m).faultRecord cfg g col core 2 0 va 0 0 tile
        let (m', p, e) := engRun cfg g x.req x.eb x.req.total x.prog m
        mirrored cfg g m (match e with
          | none => put { x with st := .ready, prog := 0, eb := {}, pend := none } m'
          | some (.pending va _ s2) =>
            let first := (x.pend.map (·.1)).getD m'.etime
            if first + 1000000000 ≤ m'.etime then
              if s2 then (put { x with prog := p, pend := none } m').freezeCopy g 1 col core 0 va else fault va p m'
            else put { x with prog := p, pend := some (first, m'.etime) } m'
          | some (.fail1 va _) => fault va p m'
          | some (.fail2 va) => (put { x with prog := p, pend := none } m').freezeCopy g 1 col core 0 va
          | some .stall => put { x with prog := p } m'
          | some .malformed => m'
          | some .lost => (put { x with faulted := true } m').reportLoss col g.env.vf g.env.fdroot)) s

/-- A byte of a fill, ahead of its turn (R257). -/
def tileAhead (col core tile : Nat) (s : State) : Host.Outcome State Fault Refusal :=
  onMach (fun cfg m => match fillingTile m col core tile with
    | none => m
    | some (g, x, away) =>
      if x.faulted || (m.core col core).copyFrozen then m
      else
        let (m', eb) := engAhead cfg g x.req x.eb x.prog m
        mirrored cfg g m (putFilling cfg g col core tile away { x with eb := eb } m')) s

end Sys2Proof.Machine
end

