-- ==== Sys2Proof/Machine/Bank.lean ====
section
/-! DEFINITION. Bank: bank MAC job cards (08 R189, R190, 02 R62, 11 R260). -/

namespace Sys2Proof.Machine

/-- A card command read from a window, with the sum of its reserved fields (Table 08.4). -/
def readCardCmd (m : Mach) (gid off : Nat) : CardCmd × Nat :=
  let w0 := m.win32 gid off
  let mc := bitOf w0 4
  ({ cmd := bitsOf w0 0 4, cnt := bitsOf w0 24 4, bank := bitsOf w0 16 5, tower := bitsOf w0 8 6, mc := mc
     loff := m.win32 gid (off + 4), woff := m.win32 gid (off + 8) },
    bitsOf w0 28 4 + bitsOf w0 21 3 + bitsOf w0 14 2 + bitsOf w0 5 3 + (if mc then bitsOf w0 19 2 else 0) + m.win32 gid (off + 12))

/-- The commands before END, or 32 of them, and whether one lies outside the window or has a reserved field set. -/
def readCard (m : Mach) (g : Group) : Nat → Nat → List CardCmd × Bool
  | 0, _ => ([], false)
  | n + 1, off =>
    if granules g.hold.scr < off + 16 then ([], true)
    else
      let c := readCardCmd m g.gid off
      if c.2 ≠ 0 then ([], true)
      else if c.1.cmd = 0 then ([], false)
      else
        let r := readCard m g n (off + 16)
        (c.1 :: r.1, r.2)

/-- The cost of a command in matrix cycles (R190). -/
def CardCmd.cost (x : CardCmd) : Nat :=
  match x.cmd with
  | 1 => 1
  | 2 => 32
  | 3 => 16 * (x.cnt + 1)
  | _ => 4

/-- Bytes of window a command reads or writes. -/
def CardCmd.window (x : CardCmd) : Nat :=
  match x.cmd with
  | 2 => 512
  | 4 => 4 * (x.cnt + 1) * x.banks.length
  | _ => 0

/-- A command that makes its card malformed (R189, R190, R354). A tower above 47 is an offence of its own (R324). -/
def CardCmd.bad (cfg : Cfg) (m : Mach) (g : Group) (x : CardCmd) : Bool :=
  decide (4 < x.cmd) || (decide (x.tower ≤ 47) && m.retired g.column x.tower)
    || (x.cmd == 3 && (x.loff % 512 != 0 || decide ((cfg.part g.env.vf).tsTdir * 8 * 2 ^ 20 / 32 < x.loff + 512 * (x.cnt + 1))))
    || (x.window != 0 && decide (granules g.hold.scr < x.woff + x.window))

/-- A malformed card (R189, R190). LOFF of a command that reads no row is not looked at (DESIGN CHOICE, log entry 56). -/
def cardBad (cfg : Cfg) (m : Mach) (g : Group) (off : Nat) : Bool :=
  let r := readCard m g 32 off
  off % 16 != 0 || r.2 || r.1.any (CardCmd.bad cfg m g) || decide (1300 < (r.1.map CardCmd.cost).sum)

/-- A command that names a tower outside the column (R324). -/
def CardCmd.outside (x : CardCmd) : Bool := decide (47 < x.tower)

/-- `bankjob`: waits as at `fence.t`, releases the prior scratchpad writes, checks the whole card and submits it (R189). It waits for a locked bank of the
card's own bytes (R260). -/
def execBankjob (f : FXu1) (q : Option Modifier) (s : State) : Host.Outcome State Fault Refusal :=
  word { c := f.c, q := q, ill := f.a % 2 == 1, stop := true
         exe := fun cfg m k g _ =>
           if cardBad cfg m g (uniAt m k g f.a) || badObj g (uniAt m k g (f.a + 1)) then some (.opform, 0) else none
         busy := fun _ m k g l => towPending m g l.t.tid || accPending m g l.t.tid || acqPending m g l.t.tid
           || m.winLocked g.gid (uniAt m k g f.a) (16 * (readCard m g 32 (uniAt m k g f.a)).1.length + 16)
         act := fun _ m k g ls =>
           if (ons ls).isEmpty then (m, [])
           else
             let cmds := (readCard m g 32 (uniAt m k g f.a)).1
             let card : Card := { gid := g.gid, cmds := cmds, obj := objOf (uniAt m k g (f.a + 1)), seq := g.seq }
             ((m.nextSeq g.gid).onCore g.column g.core fun c => { c with cards := c.cards ++ [card] }, []) } s

/-! ### Running cards -/

/-- The banks a card names, as (tower, bank). -/
def Card.banks (x : Card) : List (Nat × Nat) := x.cmds.flatMap fun c => c.banks.map fun b => (c.tower, b)

/-- Some bank of both cards. -/
def Card.shares (a b : Card) : Bool := a.banks.any b.banks.contains

/-- Card `idx` of a core. -/
def Mach.card? (m : Mach) (col core idx : Nat) : Option (Card × Group) :=
  match (m.core col core).cards[idx]? with
  | none => none
  | some x => (m.group? x.gid).map fun g => (x, g)

/-- Replace a card. -/
def Mach.setCard (m : Mach) (col core idx : Nat) (x : Card) : Mach :=
  m.onCore col core fun c => { c with cards := c.cards.set idx x }

/-- Another card of the column holds a bank of this one. -/
def cardHeld (m : Mach) (col core idx : Nat) (x : Card) : Bool :=
  m.cores.any fun e => e.1 / 48 == col && (List.range e.2.cards.length).any fun i =>
    !(e.1 % 48 == core && i == idx) && (match e.2.cards[i]? with
      | some y => y.locked && y.shares x
      | none => false)

/-- A card that names a tower outside the column freezes its queue once it is at the head of it and no card of the queue holds a lock (R324). -/
def freezeCard (col core idx : Nat) (x : Card) (g : Group) (y : CardCmd) (m : Mach) : Mach :=
  if x.locked || idx != 0 || (m.core col core).cards.any (·.locked) then m else m.freezeBank g col core 2 (y.tower * 2 ^ 32 + y.loff)

/-- CARD_LOCK: a card locks all its banks at one instant, once the MAC towers of its commands hold their reservations (R293),
no other card holds one of the banks, and no earlier card of its core shares one (R190, R260). None locks behind a card that freezes the queue (R324). -/
def execCardLock (col core idx : Nat) (s : State) : Host.Outcome State Fault Refusal :=
  onMach (fun _ m => match m.card? col core idx with
    | none => m
    | some (x, g) =>
      let c := m.core col core
      if c.bankFrozen then m
      else match x.cmds.find? CardCmd.outside with
      | some y => freezeCard col core idx x g y m
      | none =>
        let free := !x.locked && !cardHeld m col core idx x
          && !((c.cards.take idx).any fun y => y.shares x || y.cmds.any CardCmd.outside)
          && x.cmds.all fun y => decide (4 ≤ (m.core col y.tower).bankCu)
        if free then m.setCard col core idx { x with locked := true } else m) s

/-- The MAC unit of a bank. -/
def Mach.bank (m : Mach) (col tower b : Nat) : Bank := SMap.get {} m.banks ((col * 48 + tower) * 32 + b)

/-- Change the MAC unit of a bank. -/
def Mach.onBank (m : Mach) (col tower b : Nat) (f : Bank → Bank) : Mach :=
  { m with banks := SMap.modify {} m.banks ((col * 48 + tower) * 32 + b) f }

/-- BF16 value `e` of a bank row: local word q of bank k is tower-direct offset 4·(32q + k) (R189). -/
def Mach.rowValue (m : Mach) (col tower b row e : Nat) : Nat :=
  m.towRead col tower (4 * (32 * (128 * row + e / 2) + b) + 2 * (e % 2)) 2

/-- CLEAR: accumulators 0 to CNT are cleared. -/
def cardClear (col : Nat) (_ : Group) (x : CardCmd) (m : Mach) : Mach :=
  x.banks.foldl (fun m b => m.onBank col x.tower b fun k =>
    { k with acc := (List.range (x.cnt + 1)).foldl (fun a i => SMap.set {} a i {}) k.acc }) m

/-- BCAST: the 512 bytes at WOFF become the vector. -/
def cardBcast (col : Nat) (g : Group) (x : CardCmd) (m : Mach) : Mach :=
  let v := (List.range 256).foldl (fun v e => SMap.set 0 v e (BitVec.ofNat 16 (m.winRead g.gid (x.woff + 2 * e) 2))) []
  x.banks.foldl (fun m b => m.onBank col x.tower b fun k => { k with vec := v }) m

/-- MULROWS: each of CNT + 1 rows times the vector, into its accumulator (R62). -/
def cardMulrows (col : Nat) (_ : Group) (x : CardCmd) (m : Mach) : Mach :=
  x.banks.foldl (fun m b => m.onBank col x.tower b fun k =>
    { k with acc := (List.range (x.cnt + 1)).foldl (fun a j =>
        SMap.set {} a j ((List.range 256).foldl (fun s e =>
          s.addProduct (m.rowValue col x.tower b (x.loff / 512 + j) e) (SMap.get 0 k.vec e).toNat) (SMap.get {} a j))) k.acc }) m

/-- READOUT: the rounded accumulators go to WOFF + 4j, bank after bank. -/
def cardReadout (col : Nat) (g : Group) (x : CardCmd) (m : Mach) : Mach :=
  let vs := x.banks.flatMap fun b => (List.range (x.cnt + 1)).map fun j => (SMap.get {} (m.bank col x.tower b).acc j).readOut
  ((List.range vs.length).zip vs).foldl (fun m v => m.winWrite g.gid (x.woff + 4 * v.1) 4 v.2.toNat) m

/-- The window bytes of a command wait for a lock of another card; one whose bank cannot be served is lost (R354). -/
def cardWindow (m : Mach) (col core idx : Nat) (g : Group) (x : CardCmd) : Option EStop :=
  if x.window = 0 ∨ !g.onCore then none
  else
    let here : Card := { gid := g.gid, obj := none, cmds := (banksOf x.woff x.window).map fun b =>
      { cmd := 1, cnt := 0, bank := b, tower := g.core, mc := false, loff := 0, woff := 0 } }
    if g.column = col ∧ cardHeld m col core idx here then some .stall
    else if m.lostAt g.column g.core x.woff x.window then some .lost
    else none

/-- A row the command reads lies in a bank that cannot be served. -/
def CardCmd.lost (m : Mach) (col : Nat) (x : CardCmd) : Bool := x.cmd == 3 && x.banks.any fun b => m.bankLost col x.tower b

/-- A card leaves its queue; its locks end at that instant. -/
def dropCard (col core idx : Nat) (m : Mach) : Mach := m.onCore col core fun c => { c with cards := c.cards.eraseIdx idx }

/-- One command of a locked card, if it is of kind `cmd`. A card that meets a bank that cannot be served ends uncounted, and
its domain stops (R339, R354). -/
def cardStep (cmd : Nat) (f : Nat → Group → CardCmd → Mach → Mach) (col core idx : Nat) (s : State) :
    Host.Outcome State Fault Refusal :=
  onMach (fun _ m => match m.card? col core idx with
    | none => m
    | some (x, g) => match x.cmds[x.pc]? with
      | none => m
      | some y =>
        if !x.locked || y.cmd != cmd then m
        else
          let lose (m : Mach) : Mach := (dropCard col core idx m).reportLoss col g.env.vf g.env.fdroot
          match cardWindow m col core idx g y with
          | some .stall => m
          | some _ => lose m
          | none =>
            if y.lost m col then lose m
            else (f col g y m).setCard col core idx
              { x with pc := x.pc + 1, bytes := x.bytes + (if cmd = 4 then y.window else 0) }) s

/-- CLEAR (R190). -/
def execClear (col core idx : Nat) (s : State) : Host.Outcome State Fault Refusal := cardStep 1 cardClear col core idx s

/-- BCAST (R190). -/
def execBcast (col core idx : Nat) (s : State) : Host.Outcome State Fault Refusal := cardStep 2 cardBcast col core idx s

/-- MULROWS (R190). -/
def execMulrows (col core idx : Nat) (s : State) : Host.Outcome State Fault Refusal := cardStep 3 cardMulrows col core idx s

/-- READOUT (R190). -/
def execReadout (col core idx : Nat) (s : State) : Host.Outcome State Fault Refusal := cardStep 4 cardReadout col core idx s

/-- The phase barrier object of a card lies in a bank that another card holds: its completion waits (R260). -/
def objHeld (m : Mach) (col core idx : Nat) (g : Group) (x : Card) : Bool :=
  match x.obj with
  | some off => cardWindow m col core idx g { cmd := 4, cnt := 3, bank := 0, tower := g.core, mc := false, loff := 0, woff := off } == some .stall
  | none => false

/-- END: the card completes: its banks unlock at one instant and the READOUT bytes are counted (R190, R260). -/
def execCardEnd (col core idx : Nat) (s : State) : Host.Outcome State Fault Refusal :=
  onMach (fun _ m => match m.card? col core idx with
    | none => m
    | some (x, g) =>
      if x.locked && decide (x.cmds.length ≤ x.pc) && !objHeld m col core idx g x then
        (dropCard col core idx m).countBytes g.gid x.obj x.bytes false
      else m) s

end Sys2Proof.Machine
end

