-- ==== Sys2Proof/Machine/Matrix.lean ====
section
/-! DEFINITION. Matrix: the matrix words and their blocks (08 R196 to R203, R364, 16 R310), the arithmetic of slots (02 R53 to R59),
MATRIX_WORD_COMPLETION, and RAKE_REFILL (12 R277). -/

namespace Sys2Proof.Machine

/-! ### Slots -/

/-- A group's slot; one that was never written reads +0. -/
def Group.mslot (g : Group) (s : Nat) : Slot := SMap.get {} g.slots s

/-- Element (i, n) of a slot. -/
def Slot.at_ (s : Slot) (i n : Nat) : Word := SMap.get 0 s.e (64 * i + n)

/-- Sums of the FP32 patterns of rows and of columns, modulo 2^32 (R203). -/
def rowSums (e : SMap Word) : SMap Word := e.foldl (fun s x => SMap.set 0 s (x.1 / 64) (SMap.get 0 s (x.1 / 64) + x.2)) []
def colSums (e : SMap Word) : SMap Word := e.foldl (fun s x => SMap.set 0 s (x.1 % 64) (SMap.get 0 s (x.1 % 64) + x.2)) []

/-- Sums that move by a difference. -/
def moveSums (s old new : SMap Word) : SMap Word :=
  (List.range 64).foldl (fun t i => SMap.set 0 t i (SMap.get 0 s i + SMap.get 0 new i - SMap.get 0 old i)) []

/-- Elements of a slot after a write of its first M rows and N columns; the others stay (R198). -/
def writeElems (e : SMap Word) (rows cols : Nat) (f : Nat → Nat → Word) : SMap Word :=
  (List.range 4096).filterMap fun x =>
    let v := if x / 64 < rows ∧ x % 64 < cols then f (x / 64) (x % 64) else SMap.get 0 e x
    if v = 0 then none else some (x, v)

/-- Every write of a slot updates its sums (R203). -/
def Slot.write (s : Slot) (rows cols : Nat) (f : Nat → Nat → Word) : Slot :=
  let e := writeElems s.e rows cols f
  { s with e := e, row := moveSums s.row (rowSums s.e) (rowSums e), col := moveSums s.col (colSums s.e) (colSums e) }

/-- `mload` writes the sums from what the slot holds after the load (R200). -/
def Slot.load (s : Slot) (rows cols : Nat) (f : Nat → Nat → Word) : Slot :=
  let e := writeElems s.e rows cols f
  { s with e := e, row := rowSums e, col := colSums e }

/-- The places where stored and recomputed sums differ. -/
def badSums (stored fresh : SMap Word) : List Nat := (List.range 64).filter fun i => SMap.get 0 stored i != SMap.get 0 fresh i

/-- The check of a slot before use (R203): none for a mismatch that cannot be corrected. -/
def Slot.check (s : Slot) : Option Slot :=
  let r := rowSums s.e
  let c := colSums s.e
  match badSums s.row r, badSums s.col c with
  | [], [] => some s
  | [_], [] => some { s with row := r }
  | [], [_] => some { s with col := c }
  | [i], [n] =>
    let d := SMap.get 0 s.row i - SMap.get 0 r i
    if d = SMap.get 0 s.col n - SMap.get 0 c n then some { s with e := SMap.modify 0 s.e (64 * i + n) (· + d) } else none
  | _, _ => none

/-! ### Formats and towers -/

/-- The surface format of each matrix format (R310). -/
def unfFmt (fmt : Nat) : Option Nat :=
  match fmt with
  | 0 => some 4
  | 2 => some 9
  | 3 => some 10
  | _ => none

/-! ### The checks of a word -/

/-- The outcome of a word's checks at issue: none for a word that may go on. -/
abbrev MCheck := Option (Cause × Nat)

/-- OPFORM where a test holds. -/
def opform (b : Bool) : MCheck := if b then some (.opform, 0) else none

/-- The tile a block names: another group's, or an empty one, is OPFORM (Table 08.2). -/
def tileCheck (m : Mach) (g : Group) (t : Nat) : MCheck :=
  let x := (m.core g.column g.core).tile t
  opform (x.foreign g.gid || x.st == .empty)

/-- A tile operand takes the tile's buffer and row length. -/
def Oper.resolve (o : Oper) (c : Core) : Oper :=
  if o.kind = 1 then { o with base := (c.tile o.tile).buf, stride := 16 * (c.tile o.tile).rb } else o

/-- The checks of an unfolded operand (R197, R310). -/
def unfCheck (m : Mach) (g : Group) (b : List Word) : MCheck :=
  let u := unfOf b
  let fmt := blkFmt b
  let e := elemSize fmt
  let stride := bword b 4
  let base := bword b 3
  let fields := stride != 0 || bword b 13 != 0 || !(operA b).rowMajor
  if u.bad || isBrine fmt then some (.opform, 0)
  else if u.surface then
    match m.handle g.env.vf (BitVec.ofNat 32 base) with
    | .stale => if fields || (unfFmt fmt).isNone then some (.opform, 0) else some (.surf, base)
    | .outside => opform (fields || (unfFmt fmt).isNone)
    | .ok s => opform (fields || unfFmt fmt != some s.fmt || s.twin != g.column / 2 || decide (s.layers < u.layer))
  else
    let last := ((u.taps u.c u.w u.h (blkM b) (blkK b)).map fun p => base + p.1.2 * stride + (p.1.1 * u.c + p.2) * e).foldl max 0
    opform (decide (stride < u.w * u.c * e) || stride % e != 0 || u.c == 0 || u.w == 0 || u.h == 0 || decide (granules g.hold.scr < last))

/-- The checks of `mma` (op 0) and `msca` (op 1) after the slot numbers (R196 to R198). -/
def operCheck (op : Nat) (m : Mach) (g : Group) (b : List Word) : MCheck :=
  let fmt := blkFmt b
  let c := m.core g.column g.core
  let x := operA b
  let y := operB b
  let kb := bitsOf (bword b 1) 0 13
  if word0Bad b || bitsOf (bword b 1) 13 19 != 0 || kb == 0 || decide (4096 < kb) || bword b 14 != 0 || bword b 15 != 0
    || x.rsv != 0 || y.rsv != 0 || x.kind == 3 || decide (2 ≤ y.kind) || (unfOf b).rsv != 0
    || (isBrine fmt && (kb != 1 || x.kind == 2 || x.copy != !x.rowMajor || y.copy != !y.rowMajor))
    || (op == 0 && isBrine fmt && blkAcc b) || (op == 1 && !isBrine fmt) then some (.opform, 0)
  else
    ((if x.kind = 1 then tileCheck m g x.tile else none).orElse fun _ => if y.kind = 1 then tileCheck m g y.tile else none).orElse fun _ =>
      let limit := granules g.hold.scr
      let x := x.resolve c
      let y := y.resolve c
      if isBrine fmt then opform (decide (limit < x.brineEnd op fmt (blkM b)) || decide (limit < y.brineEnd op fmt (blkN b)))
      else if limit < y.extent (elemSize fmt) (blkN b) (blkK b) then some (.opform, 0)
      else if x.kind = 2 then unfCheck m g b
      else opform (decide (limit < x.extent (elemSize fmt) (blkM b) (blkK b)))

/-- Element formats of a transfer block (Table 08.9): bytes. -/
def efBytes (ef : Nat) : Nat := if ef = 0 then 4 else 2

/-- Fields of word 2 of a transfer block. -/
def trKind (b : List Word) : Nat := bitsOf (bword b 2) 0 2
def trEf (b : List Word) : Nat := bitsOf (bword b 2) 2 2
def trTile (b : List Word) : Nat := bitsOf (bword b 2) 8 6

/-- ADDR of a transfer block. -/
def trAddr (b : List Word) : Nat := bword b 3 + 2 ^ 32 * bword b 4

/-- Reserved words and bits of a transfer block (R200). -/
def trReserved (b : List Word) : Bool :=
  word0Bad b || bword b 1 != 0 || (List.range 9).any (fun i => bword b (7 + i) != 0) || bitsOf (bword b 2) 4 4 + bitsOf (bword b 2) 14 18 != 0

/-- The checks of a transfer to or from memory (R196, R200). `op` is 3 `mload`, 4 `mdrain`, 5 `mdrain.add`. -/
def transferCheck (op : Nat) (m : Mach) (g : Group) (b : List Word) : MCheck :=
  let n := efBytes (trEf b)
  let span := trAddr b + (blkM b - 1) * bword b 5 + blkN b * n
  if trReserved b || trEf b == 3 || trKind b == 3 || (op == 5 && trEf b != 0) || (op != 4 && trKind b == 2)
    || (op != 3 && badObj g (bword b 6)) then some (.opform, 0)
  else if trKind b = 2 then
    (tileCheck m g (trTile b)).orElse fun _ =>
      let x := (m.core g.column g.core).tile (trTile b)
      opform (decide (x.rows < blkM b) || decide (16 * x.rb < blkN b * n)
        || decide (granules g.hold.scr < x.buf + (blkM b - 1) * (16 * x.rb) + blkN b * n))
  else opform (trAddr b % n != 0 || (trKind b == 0 && (bword b 4 != 0 || decide (granules g.hold.scr < span))))

/-! ### Issue -/

/-- The block offset a word names. -/
def blkAt (m : Mach) (k : Gang) (g : Group) (a : Nat) : Nat := uniAt m k g a

/-- The block a word names. -/
def blkOf (m : Mach) (k : Gang) (g : Group) (a : Nat) : List Word := readBlk m g.gid (blkAt m k g a)

/-- REGRANGE where a slot number is at or above HOLD.MSL (R20). -/
def slotCheck (g : Group) (s : Nat) : MCheck := if g.hold.msl ≤ s then some (.regrange, s) else none

/-- The engine holds 16 words of the group (R364). -/
def mwordsFull (m : Mach) (g : Group) : Bool :=
  decide (16 ≤ ((m.core g.column g.core).mwords.filter fun w => w.gid == g.gid).length)

/-- A tile moves. -/
def tileMoving (m : Mach) (g : Group) (t : Nat) : Bool :=
  let x := (m.core g.column g.core).tile t
  x.gid == g.gid && x.moving

/-- Hand the current gang's word to the engine. -/
def Mach.putMWord (m : Mach) (g : Group) (w : MWord) : Mach :=
  let iw := ((m.cur.bind m.gang?).bind fun k => k.run[k.slot]?).getD 0
  (m.nextSeq g.gid).onCore g.column g.core fun c => { c with mwords := c.mwords ++ [{ w with seq := g.seq, iw := iw.toNat }] }

/-- The block as issued: tile operands take the buffer and row length of their tile. -/
def issueBlk (c : Core) (b : List Word) : List Word :=
  let x := (operA b).resolve c
  let y := (operB b).resolve c
  let put (b : List Word) (i v : Nat) := b.set i (BitVec.ofNat 32 v)
  put (put (put (put b 3 x.base) 4 x.stride) 6 y.base) 7 y.stride

/-- An operation word: its slots, its checks, its tiles, and its effect: the word goes to the engine (R196 to R198). An INDEX outside
the surface table freezes the master (R324). -/
def operWord (op : Nat) (f : FXu1) (q : Option Modifier) : Desc :=
  { c := f.c, q := q, stop := true
    opx := fun _ m k g =>
      let b := blkOf m k g f.a
      if badBlkAt g (blkAt m k g f.a) then none
      else (slotCheck g (blkDst b)).orElse fun _ => if op = 1 then slotCheck g (blkSrc b) else none
    exe := fun _ m k g _ =>
      if badBlkAt g (blkAt m k g f.a) then some (.opform, 0) else operCheck op m g (blkOf m k g f.a)
    busy := fun _ m k g l =>
      let b := blkOf m k g f.a
      acqPending m g l.t.tid || accPending m g l.t.tid || mwordsFull m g
        || (!badBlkAt g (blkAt m k g f.a) && (((operA b).kind == 1 && tileMoving m g (operA b).tile)
             || ((operB b).kind == 1 && tileMoving m g (operB b).tile)))
    act := fun _ m k g ls =>
      if (ons ls).isEmpty then (m, [])
      else
        let b := blkOf m k g f.a
        let w : MWord := { gid := g.gid, op := op, blk := issueBlk (m.core g.column g.core) b }
        match w.unfolds with
        | some h => match m.handle g.env.vf h with
          | .outside => (m.freezeGroup g 1 h.toNat none, [])
          | _ => (m.putMWord g w, [])
        | none => (m.putMWord g w, []) }

/-- `mma` (R198). -/
def execMma (f : FXu1) (q : Option Modifier) (s : State) : Host.Outcome State Fault Refusal := word (operWord 0 f q) s

/-- `msca` (R198). -/
def execMsca (f : FXu1) (q : Option Modifier) (s : State) : Host.Outcome State Fault Refusal := word (operWord 1 f q) s

/-- `mzero`: +0 to every element of the slot, in the engine's order (R199). -/
def execMzero (f : FMzero) (q : Option Modifier) (s : State) : Host.Outcome State Fault Refusal :=
  word { c := f.c, q := q, stop := true
         opx := fun _ _ _ g => slotCheck g f.s
         busy := fun _ m _ g l => acqPending m g l.t.tid || mwordsFull m g
         act := fun _ m _ g ls =>
           if (ons ls).isEmpty then (m, []) else (m.putMWord g { gid := g.gid, op := 2, slot := f.s }, []) } s

/-- A transfer word without registers: `mload` and `mdrain.add` (R200). -/
def transferWord (op : Nat) (f : FXu1) (q : Option Modifier) : Desc :=
  { c := f.c, q := q, stop := true
    opx := fun _ m k g =>
      if badBlkAt g (blkAt m k g f.a) then none
      else slotCheck g (if op = 3 then blkDst (blkOf m k g f.a) else blkSrc (blkOf m k g f.a))
    exe := fun _ m k g _ =>
      if badBlkAt g (blkAt m k g f.a) then some (.opform, 0) else transferCheck op m g (blkOf m k g f.a)
    busy := fun _ m _ g l => acqPending m g l.t.tid || accPending m g l.t.tid || mwordsFull m g
    act := fun _ m k g ls =>
      if (ons ls).isEmpty then (m, []) else (m.putMWord g { gid := g.gid, op := op, blk := blkOf m k g f.a }, []) }

/-- `mload` (R200). -/
def execMload (f : FXu1) (q : Option Modifier) (s : State) : Host.Outcome State Fault Refusal := word (transferWord 3 f q) s

/-- `mdrain.add` (R200, R259). -/
def execMdrainAdd (f : FXu1) (q : Option Modifier) (s : State) : Host.Outcome State Fault Refusal := word (transferWord 5 f q) s

/-- The operand traps of `mdrain` (R196, R201): a slot or a register above its holding, and ILLEGAL past v111. -/
def drainOperand (f : FMdrain) (m : Mach) (k : Gang) (g : Group) : MCheck :=
  let b := blkOf m k g f.s
  if badBlkAt g (blkAt m k g f.s) then none
  else if f.d ≤ 111 ∧ bitsOf (bword b 0) 6 2 ≠ 3 ∧ 112 < f.d + blkN b then some (.illegal, 0)
  else (slotCheck g (blkSrc b)).orElse fun _ =>
    if f.d ≤ 111 ∧ g.acquired < f.d + blkN b then some (.regrange, max f.d g.acquired) else none

/-- The lanes that receive a row of a drain into registers (R201). -/
def drainLanes (b : List Word) (ls : List LaneIn) : List LaneIn := ls.filter fun l => decide (l.pos < blkM b)

/-- The destinations of a drain into registers. -/
def drainRegs (f : FMdrain) (b : List Word) : List Nat := (List.range (blkN b)).map fun n => f.d + n

/-- `mdrain`: to memory with D = ZERO, through a tile with KIND 2, or rows into the lanes of the gang (R200, R201). -/
def execMdrain (f : FMdrain) (q : Option Modifier) (s : State) : Host.Outcome State Fault Refusal :=
  let base : Desc := { c := f.c, q := q }
  word { c := f.c, q := q, ill := f.d != 123 && decide (112 ≤ f.d), stop := true
         opx := fun _ m k g => drainOperand f m k g
         exe := fun _ m k g _ =>
           let b := blkOf m k g f.s
           if badBlkAt g (blkAt m k g f.s) then some (.opform, 0)
           else if f.d = 123 then transferCheck 4 m g b
           else opform (trReserved b || trEf b == 3 || trKind b == 3)
         busy := fun _ m k g l =>
           let b := blkOf m k g f.s
           acqPending m g l.t.tid || accPending m g l.t.tid || mwordsFull m g
             || (!badBlkAt g (blkAt m k g f.s)
                  && (if f.d = 123 then trKind b == 2 && tileMoving m g (trTile b)
                      else (drainLanes b (gangLanes base m k g)).any fun x => (drainRegs f b).any fun r => x.t.c.notFull.getLsbD r))
         act := fun _ m k g ls =>
           if (ons ls).isEmpty then (m, [])
           else
             let b := blkOf m k g f.s
             if f.d = 123 then
               let t := trTile b
               let x := (m.core g.column g.core).tile t
               let m := if trKind b = 2 then m.setTile g.column g.core t { x with st := .draining, seq := g.seq } else m
               (m.putMWord g { gid := g.gid, op := 4, blk := b }, [])
             else
               let rs := drainLanes b ls
               let m := m.mapLanes k.gid rs fun _ t => t.emptyDsts (drainRegs f b)
               (m.putMWord g { gid := g.gid, op := 4, blk := b, dreg := some f.d, lanes := rs.map fun l => (l.pos, l.t.tid) }, []) } s

/-- `mstat`: k[KD] := no matrix word on the slot is pending, in every active lane; a 1 acquires, with the L1 invalidation where a
completed word wrote global memory (R202). -/
def execMstat (f : FMstat) (q : Option Modifier) (s : State) : Host.Outcome State Fault Refusal :=
  word { c := f.c, q := q
         opx := fun _ _ _ g => slotCheck g f.s
         act := fun _ m k g ls =>
           if (ons ls).isEmpty then (m, [])
           else
             let idle := (m.core g.column g.core).mwords.all fun w => w.gid != g.gid || !w.slotsUsed.contains f.s
             let m := if idle && (g.mslot f.s).glob then m.l1Inv g.column g.core else m
             (m.mapLanes k.gid ls fun _ t => t.writeNow (predWrite f.k idle), []) } s

/-! ### Work -/

/-- The work of a word: column-cycles of `mma` and `msca` (R294), matrix cycles of a drain (R308). -/
def MWord.need (w : MWord) : Nat :=
  let b := w.blk
  match w.op with
  | 0 => ceilDiv (64 * blkM b * blkN b * blkK b) (match blkFmt b with | 0 => 16384 | 1 => 16384 | 5 => 65536 | 4 => 131072 | _ => 32768)
  | 1 => ceilDiv (64 * blkM b * blkN b * blkK b) (match blkFmt b with | 5 => 65536 | 4 => 131072 | _ => 32768)
  | 4 => ceilDiv (blkM b * blkN b) 1024
  | 5 => ceilDiv (blkM b * blkN b) 1024
  | _ => 0

/-- A word that spends array columns and heat (R299, R308). -/
def MWord.array (w : MWord) : Bool := w.op == 0 || w.op == 1

/-- The window bytes that an operation word reads (R197, R198), each range with its length. -/
def MWord.reads (w : MWord) : List (Nat × Nat) :=
  let b := w.blk
  let fmt := blkFmt b
  let e := elemSize fmt
  let x := operA b
  let y := operB b
  let brine (o : Oper) (n : Nat) : List (Nat × Nat) := (List.range n).flatMap fun i =>
    if w.op = 1 then [(o.scaleAt fmt i + 1, 1)] else [(o.base + i * o.stride, brineBytes fmt), (o.scaleAt fmt i, 2)]
  let flat (o : Oper) (n : Nat) : List (Nat × Nat) := (List.range n).flatMap fun i => (List.range (blkK b)).map fun k => (o.elem e i k, e)
  if !w.array then []
  else if isBrine fmt then brine x (blkM b) ++ brine y (blkN b)
  else
    let u := unfOf b
    (if x.kind != 2 then flat x (blkM b)
     else if u.surface then []
     else (u.taps u.c u.w u.h (blkM b) (blkK b)).map fun p => (x.base + p.1.2 * x.stride + p.1.1 * u.c * e, p.2 * e)) ++ flat y (blkN b)

/-- Read an element of a window operand. -/
def winElem (m : Mach) (g : Group) (o : Oper) (e i k : Nat) : Nat := m.winRead g.gid (o.elem e i k) e

/-- Channel `c` of a fetched texel. -/
def gotElem (w : MWord) (s : Surf) (layer e x y c : Nat) : Nat := bitsOf (readN w.gotMem (s.key x y layer) 8) (8 * e * c) (8 * e)

/-- Element (i, k) of operand A. -/
def elemA (m : Mach) (g : Group) (w : MWord) (i k : Nat) : Nat :=
  let b := w.blk
  let x := operA b
  let e := elemSize (blkFmt b)
  if x.kind = 2 then
    let u := unfOf b
    if u.surface then
      match m.surf? g.env.vf (BitVec.ofNat 32 x.base) with
      | some s => u.elem 4 s.width s.height i k fun px py c => gotElem w s u.layer e px py c
      | none => 0
    else u.elem u.c u.w u.h i k fun px py c => m.winRead g.gid (x.base + py * x.stride + (px * u.c + c) * e) e
  else winElem m g x e i k

/-- One element of `mma`, from the step its slot stands at to chunk `c` (R55, R59, R198, R364). -/
def mmaUpTo (m : Mach) (g : Group) (w : MWord) (c : Nat) (old : Word) (i n : Nat) : Word :=
  let b := w.blk
  let fmt := blkFmt b
  let x := operA b
  let y := operB b
  if isBrine fmt then
    brinePartial fmt (m.winRead g.gid (x.base + i * x.stride) (brineBytes fmt)) (m.winRead g.gid (x.scaleAt fmt i) 2)
      (m.winRead g.gid (y.base + n * y.stride) (brineBytes fmt)) (m.winRead g.gid (y.scaleAt fmt n) 2)
  else
    let v (p : Nat) := (matFmt fmt).val p
    chunks (fun k => (exMul (v (elemA m g w i (16 * w.step + k))) (v (winElem m g y (elemSize fmt) n (16 * w.step + k)))).v)
      (if blkAcc b ∨ w.step ≠ 0 then old else 0) (c - w.step)

/-- One element of `mma` (R55, R59, R198). -/
def mmaElem (m : Mach) (g : Group) (w : MWord) (old : Word) (i n : Nat) : Word := mmaUpTo m g w (blkK w.blk / 16) old i n

/-- One element of `msca` (R56, R198). -/
def mscaElem (m : Mach) (g : Group) (w : MWord) (dst src : Word) (i n : Nat) : Word :=
  let b := w.blk
  let e (o : Oper) (j : Nat) := m.winRead g.gid (o.scaleAt (blkFmt b) j + 1) 1
  brineScale dst src (e (operA b) i) (e (operB b) n)

/-- An element widened from its memory format, and rounded to it (R200); FP32 bits pass unchanged. -/
def efWiden (ef p : Nat) : Word :=
  if ef = 0 then BitVec.ofNat 32 p
  else BitVec.ofNat 32 (finish fmt32 .ne 0 { v := (if ef = 1 then fmtBf else fmt16).val p }).bits
def efRound (ef : Nat) (p : Word) : Nat :=
  if ef = 0 then p.toNat else (finish (if ef = 1 then fmtBf else fmt16) .ne 0 { v := fmt32.val p.toNat }).bits

/-- The places of the rows of a transfer, in order (R200). -/
def trPlaces (m : Mach) (col core : Nat) (b : List Word) : List EPlace :=
  let n := blkN b * efBytes (trEf b)
  let x := (m.core col core).tile (trTile b)
  let base := if trKind b = 2 then x.buf else trAddr b
  let stride := if trKind b = 2 then 16 * x.rb else bword b 5
  (List.range (blkM b)).flatMap fun i => ePlaces (trKind b != 1) (base + i * stride) n

/-- The bytes of an M by N matrix of words in a memory format. -/
def trBytes (b : List Word) (f : Nat → Nat → Word) : List Byte :=
  (List.range (blkM b)).flatMap fun i => (List.range (blkN b)).flatMap fun n =>
    natBytes (efRound (trEf b) (f i n)) 0 (efBytes (trEf b))

/-- Element (i, n) among the bytes of a transfer. -/
def trElem (b : List Word) (bs : List Byte) (i n : Nat) : Word :=
  let e := efBytes (trEf b)
  efWiden (trEf b) (bytesNat ((bs.drop ((i * blkN b + n) * e)).take e))

/-- Every place can be written now. -/
def engProbe (cfg : Cfg) (g : Group) : List EPlace → Mach → Mach × Option EStop
  | [], m => (m, none)
  | .win off :: ps, m => match winStop m g off with
    | some e => (m, some e)
    | none => engProbe cfg g ps m
  | .glob va :: ps, m =>
    if 2 ^ 57 ≤ va then (m, some (.fail1 va true))
    else match translate cfg m g.env.vf va true false with
      | (m, some _, _) => engProbe cfg g ps m
      | (m, none, r) => (m, some (transStop va true r))

/-- Write bytes at places that have all been probed, at one instant (R259). -/
def engWriteAll (cfg : Cfg) (g : Group) (ps : List EPlace) (bs : List Byte) (m : Mach) : Mach × Option EStop :=
  match engProbe cfg g ps m with
  | (m, some e) => (m, some e)
  | (m, none) => ((engPut cfg g (ps.zip bs) m).1, none)

/-- Replace a slot of a group. -/
def Mach.setSlot (m : Mach) (gid s : Nat) (x : Slot) : Mach := m.onGroup gid fun g => { g with slots := SMap.set {} g.slots s x }

/-- The slot whose sums a word checks (R196, R203). -/
def MWord.checked (w : MWord) : Option Nat :=
  if w.op = 2 ∨ w.op = 3 ∨ !blkChk w.blk then none
  else if w.op = 0 then (if blkAcc w.blk then some (blkDst w.blk) else none)
  else some (blkSrc w.blk)

/-- Fetch the resident blocks that an unfolding word still misses; true when it has them all. -/
def fetchBlocks (m : Mach) (g : Group) (w : MWord) : Mach × MWord × Bool :=
  match w.surfBlocks m g with
  | none => (m, w, true)
  | some (s, bs) =>
    let r := bs.foldl (fun (r : Mach × MWord) b =>
      if r.2.got.contains b || s.away b || m.frameLocked s b || !m.rakeRuns g.env.vf then r
      else
        (r.1.useBlock s b, { r.2 with
          got := b :: r.2.got
          gotMem := writeList r.2.gotMem (s.blockKey b) (readList m.fmem (s.blockKey b) 256) })) (m, w)
    (r.1, r.2, bs.all r.2.got.contains)

/-- A block that an unfolding word reads cannot be served (R354). -/
def fetchLost (m : Mach) (g : Group) (w : MWord) : Bool :=
  match w.surfBlocks m g with
  | none => false
  | some (s, bs) => bs.any fun b => !w.got.contains b && !s.away b && m.frameLost s b

/-- The word at the head of the engine's queue is done (R257). -/
def endMWord (col core : Nat) (m : Mach) : Mach := m.onCore col core fun c => { c with mwords := c.mwords.tail }

/-- The word at the head changes. -/
def setMWord (col core : Nat) (w : MWord) (m : Mach) : Mach := m.onCore col core fun c => { c with mwords := w :: c.mwords.tail }

/-- A word that cannot go on: it waits, or its group's fault domain stops, or its group freezes (R203, R324, R333, R334). -/
def stopMWord (col core : Nat) (g : Group) (w : MWord) (e : EStop) (m : Mach) : Mach :=
  let fatal (c : Cause) := ((endMWord col core m).countLoss col c).queueStop g.env.vf g.env.fdroot c.code
  match e with
  | .pending va _ s2 =>
    let first := (w.pend.map (·.1)).getD m.etime
    if first + 1000000000 ≤ m.etime then (if s2 then (endMWord col core m).freezeGroup g 0 va none else fatal .xlate)
    else setMWord col core { w with pend := some (first, m.etime) } m
  | .fail1 _ _ => fatal .xlate
  | .fail2 va => (endMWord col core m).freezeGroup g 0 va none
  | .lost => fatal .dataloss
  | _ => m

/-- The end of a drain to memory: the tile is ready again, and the bytes are counted (R200). -/
def endDrain (col core : Nat) (g : Group) (w : MWord) (m : Mach) : Mach :=
  let b := w.blk
  let x := (m.core col core).tile (trTile b)
  let m := if trKind b = 2 then m.setTile col core (trTile b) { x with st := .ready } else m
  let glob := trKind b == 1 && !inAperture (trAddr b)
  let m := if glob then m.onGroup g.gid fun g => { g with slots := SMap.modify {} g.slots (blkSrc b) fun s => { s with glob := true } } else m
  (endMWord col core m).countBytes g.gid (objOf (bword b 6)) (blkM b * blkN b * efBytes (trEf b)) glob

/-- A tower with two lost via groups or more cannot serve all its banks (R354). -/
def Mach.towerBroken (m : Mach) (col tower : Nat) : Bool := decide (2 ≤ ((List.range 9).filter fun g => m.via col tower g == 2).length)

/-- What holds back the window operands of an operation word: a locked bank (R260), a bank that cannot be served (R354). -/
def operStop (m : Mach) (g : Group) (w : MWord) : Option EStop :=
  if !(m.cores.any fun e => e.1 / 48 == g.column && e.2.cards.any (·.locked)) && !m.towerBroken g.column g.core then none
  else w.reads.findSome? fun x =>
    if m.lockedAt g.column g.core x.1 x.2 then some .stall else if m.lostAt g.column g.core x.1 x.2 then some .lost else none

/-- Write the bytes of a drain to memory up to byte `n`, from the step it stands at (R364). -/
def drainTo (cfg : Cfg) (col core : Nat) (g : Group) (w : MWord) (n : Nat) (m : Mach) : Mach × Nat × Option EStop :=
  let xs := ((trPlaces m col core w.blk).zip (trBytes w.blk (g.mslot (blkSrc w.blk)).at_)).take n
  match engPut cfg g (xs.drop w.step) m with
  | (m, k, e) => (m, w.step + k, e)

/-- Bring the word in progress to the boundary at which the engine stops (R36, R364): the chunks of K, or the bytes, that its work so far covers stand in its slot
or in memory. Of how far a step takes the slot or the bytes the spec says nothing; in the model both grow in proportion to the work (DESIGN CHOICE, log entry
16). -/
def stepMWord (cfg : Cfg) (col core : Nat) (g : Group) (w : MWord) (m : Mach) : Mach × MWord :=
  let b := w.blk
  let part (n : Nat) : Nat := if w.need = 0 then 0 else n * min w.prog w.need / w.need
  if !w.started then (m, w)
  else if w.op = 0 ∧ !isBrine (blkFmt b) then
    let c := part (blkK b / 16)
    let r := fetchBlocks m g w
    if c ≤ w.step ∨ !r.2.2 ∨ (operStop m g w).isSome then (m, w)
    else
      let dst := g.mslot (blkDst b)
      (r.1.setSlot g.gid (blkDst b) (dst.write (blkM b) (blkN b) fun i n => mmaUpTo m g r.2.1 c (dst.at_ i n) i n), { r.2.1 with step := c })
  else if w.op = 4 ∧ w.dreg.isNone then
    let r := drainTo cfg col core g w (part (blkM b * blkN b * efBytes (trEf b))) m
    (r.1, { w with step := max w.step r.2.1 })
  else (m, w)

/-- The effect of a word whose slot has passed its check. -/
def performMWord (cfg : Cfg) (col core : Nat) (g : Group) (w : MWord) (m : Mach) : Mach :=
  let b := w.blk
  let dst := g.mslot (blkDst b)
  let src := g.mslot (blkSrc b)
  match w.op with
  | 0 =>
    let r := fetchBlocks m g w
    if fetchLost m g w then stopMWord col core g w .lost m
    else if let some e := operStop m g w then stopMWord col core g w e m
    else if r.2.2 then
      endMWord col core (r.1.setSlot g.gid (blkDst b) (dst.write (blkM b) (blkN b) fun i n => mmaElem m g r.2.1 (dst.at_ i n) i n))
    else setMWord col core r.2.1 r.1
  | 1 => match operStop m g w with
    | some e => stopMWord col core g w e m
    | none => endMWord col core (m.setSlot g.gid (blkDst b) (dst.write (blkM b) (blkN b) fun i n => mscaElem m g w (dst.at_ i n) (src.at_ i n) i n))
  | 2 => endMWord col core (m.setSlot g.gid w.slot { g.mslot w.slot with e := [], row := [], col := [] })
  | 3 =>
    match engBytes cfg g (trPlaces m col core b) m with
    | (m, .error e) => stopMWord col core g w e m
    | (m, .ok bs) => endMWord col core (m.setSlot g.gid (blkDst b) (dst.load (blkM b) (blkN b) (trElem b bs)))
  | 4 =>
    match w.dreg with
    | some d =>
      let regs := (List.range (blkN b)).map fun n => d + n
      endMWord col core (w.lanes.foldl (fun m l => m.onThread g.gid l.2 fun t =>
        t.fillDsts regs (joinWords ((List.range (blkN b)).map fun n => (src.at_ l.1 n).toNat)) false) m)
    | none =>
      match drainTo cfg col core g w (blkM b * blkN b * efBytes (trEf b)) m with
      | (m, k, some e) => stopMWord col core g { w with step := k } e (setMWord col core { w with step := k } m)
      | (m, _, none) => endDrain col core g w m
  | _ =>
    match engBytes cfg g (trPlaces m col core b) m with
    | (m, .error e) => stopMWord col core g w e m
    | (m, .ok bs) =>
      let add (i n : Nat) : Word := (f32Add (trElem b bs i n) (src.at_ i n)).1
      match engWriteAll cfg g (trPlaces m col core b) (trBytes b add) m with
      | (m, some e) => stopMWord col core g w e m
      | (m, none) => endDrain col core g w m

/-- A drain counts its bytes into an object that lies in a locked bank: it waits (R260). -/
def MWord.objLocked (m : Mach) (w : MWord) : Bool := decide (4 ≤ w.op) && w.dreg.isNone && m.objLocked w.gid (objOf (bword w.blk 6))

/-- MATRIX_WORD_COMPLETION: the word at the head of the engine, once it has started and its work is done, checks its slot and takes
effect (R196 to R203). -/
def execMatrixWordCompletion (col core : Nat) (s : State) : Host.Outcome State Fault Refusal :=
  onMach (fun cfg m => match (m.core col core).mwords.head? with
    | none => m
    | some w => match m.group? w.gid with
      | none => endMWord col core m
      | some g =>
        if g.frozen || (w.op != 2 && !w.started) || decide (w.prog < w.need) || pendHeld w.pend m.etime || MWord.objLocked m w then m
        else match w.checked with
          | none => performMWord cfg col core g w m
          | some i => match (g.mslot i).check with
            | none => stopMWord col core g w .lost m
            | some x =>
              let m := m.setSlot g.gid i x
              performMWord cfg col core { g with slots := SMap.set {} g.slots i x } w m) s

/-! ### The Rake -/

/-- A started matrix word of a partition waits for a block. -/
def mwordWants (m : Mach) (vf idx block : Nat) (w : MWord) : Bool :=
  match m.group? w.gid with
  | none => false
  | some g => g.env.vf == vf && w.started && !w.got.contains block && (match w.surfBlocks m g with
    | some (s, bs) => s.idx == idx && bs.contains block
    | none => false)

/-- A queued access waits for a block. -/
def accWants (m : Mach) (vf idx block : Nat) (a : Acc) : Bool :=
  match accBlocks m vf a with
  | some (s, bs) => s.idx == idx && bs.contains block
  | none => false

/-- A refill that finds its backing corrupt: DATALOSS at every access that waits for the block (R277). -/
def corruptBlock (vf idx block : Nat) (m : Mach) : Mach :=
  let m := ((m.surfAccs vf).filter (accWants m vf idx block)).foldl (fun m a =>
    ({ m with cores := m.cores.map fun (c : Nat × Core) => (c.1, { c.2 with accs := c.2.accs.erase a }) }).fatalAcc a .dataloss) m
  m.cores.foldl (fun m c => (c.2.mwords.filter (mwordWants m vf idx block)).foldl (fun m w =>
    match m.group? w.gid with
    | some g => (m.onCore (c.1 / 48) (c.1 % 48) fun c => { c with mwords := c.mwords.erase w }).reportLoss (c.1 / 48) g.env.vf g.env.fdroot
    | none => m) m) m

/-- A queued access or a matrix word waits for a block; raster updates and nodes begin the refills they need on their own. -/
def blockWanted (m : Mach) (vf idx block : Nat) : Bool :=
  (m.surfAccs vf).any (accWants m vf idx block) || m.cores.any fun c => c.2.mwords.any (mwordWants m vf idx block)

/-- RAKE_REFILL: a spilled block that an access waits for begins to come back alone, once there is room; a block that is being refilled is resident, and
pixel updates that waited for it go on (R273, R277). -/
def execRakeRefill (vf idx block : Nat) (s : State) : Host.Outcome State Fault Refusal :=
  onMach (fun cfg m => match m.surfAt vf idx with
    | none => m
    | some x =>
      if x.blockState block = 3 then
        if m.rakeRuns vf then whenReady (touchBlocks cfg x [block] false m) fun m => drainPixels cfg (finishRefill cfg m x block) else m
      else if x.blockState block = 1 ∧ blockWanted m vf idx block then
        match beginRefill cfg m x block with
        | .done m => m
        | .wait m => m
        | .corrupt => corruptBlock vf idx block m
      else m) s

end Sys2Proof.Machine
end

