-- ==== Sys2Proof/Machine/System.lean ====
section
/-! DEFINITION. System: `sysrd` and `syswr` (08 R205, 01 R21 to R35). -/

namespace Sys2Proof.Machine

/-- STATUS (Table 01.5); a thread that has stopped speculates no more (R164, Table 10.6). -/
def Group.status (g : Group) : Nat :=
  g.env.prio % 16 * 2 ^ 12 + (if g.restored then 8 else 0) + (if g.threads.any fun t => t.epi.any fun e => !e.stopped then 4 else 0)
    + (if g.hold.spc = 0 then 2 else 0) + (if g.udiv then 1 else 0)

/-- TSPLIT (Table 01.10). -/
def Part.tsplit (p : Part) : Nat := p.tsSurf * 2 ^ 16 + p.tsTdir * 2 ^ 8 + p.tsScr

/-- The value of a system register in a lane (Table 01.3); A names SLOWMAP's tower. -/
def sysValue (cfg : Cfg) (m : Mach) (g : Group) (n : Nat) (l : LaneIn) : Nat :=
  let t := l.t
  match n with
  | 0x00 => t.tid
  | 0x01 => g.gidx.toNat
  | 0x02 => g.gsize
  | 0x03 => g.core
  | 0x04 => g.core / 4
  | 0x05 => g.column
  | 0x06 => g.column / 2
  | 0x07 => m.module
  | 0x0A => g.status
  | 0x0B => t.c.fpstat.toNat
  | 0x0C => g.fpxen.toNat
  | 0x0D => t.tcause.toNat
  | 0x0E => t.trappc.toNat
  | 0x0F => (if t.hnd then 2 ^ 9 else 0) + (if t.cr then 2 ^ 8 else 0) + t.tslot
  | 0x10 => t.traparg.toNat
  | 0x11 => g.hold.word.toNat
  | 0x12 => g.claim.word.toNat
  | 0x13 => l.v.winLimit.toNat * 2 ^ 8 + l.v.winBase.toNat
  | 0x14 => let tower := l.val 0 % 64; if tower < 48 then (m.slow g.column tower).toNat else 0
  | 0x15 => g.commits.toNat
  | 0x16 => g.rollbacks.toNat
  | 0x17 => (cfg.part g.env.vf).tsplit
  | _ => 0

/-- CLK and ETIME: long-latency reads (R205). -/
def sysLong (n : Nat) : Bool := n == 8 || n == 9

/-- `sysrd`: CLK and ETIME are sampled at issue, ETIME as the time at which the cycle began, and set their destination full 4 cycles after issue
(R213, R306); other registers are F4 (R22, R205). -/
def execSysrd (f : FSysrd) (q : Option Modifier) (s : State) : Host.Outcome State Fault Refusal :=
  let wide := sysLong f.n || f.n == 0x10
  word { c := f.c, q := q, ill := decide (0x17 < f.n) || (f.n != 0x14 && f.a != 123)
         srcs := [{ f := f.a }]
         dst := some { f := f.d, w := if wide then 2 else 1, long := sysLong f.n }
         busy := fun _ m _ g l => sysLong f.n && longFull m g l
         act := fun cfg m k g ls =>
           if sysLong f.n then
             let c := m.core g.column g.core
             let op := if f.n = 8 then AOp.value ((c.clk + k.off) % 2 ^ 64) else if k.off = 0 then .value (c.ps % 2 ^ 64) else .sample (c.clk + k.off)
             let regs := Dst.regs { f := f.d, w := 2 }
             let m := m.mapLanes k.gid (ons ls) fun _ t => t.emptyDsts regs
             (m.queueAccs g ((ons ls).map fun l =>
               { gid := g.gid, tid := l.t.tid, op := op, path := .glob, dsts := regs, issued := m.free, due := lastCycle m k g + lat4
                 spec := l.t.epi.isSome }), [])
           else laneAct lat4 (fun l => (resWrites f.d (if wide then 2 else 1) (sysValue cfg m g f.n l), 0)) m k g ls } s

/-- Registers that `syswr` may write (Table 01.3). -/
def sysWritable (n : Nat) : Bool := [0x0A, 0x0B, 0x0C, 0x0D, 0x0E, 0x0F, 0x10, 0x15, 0x16].contains n

/-- The write of a thread's own register. -/
def Thread.sysWrite (t : Thread) (n v : Nat) : Thread :=
  match n with
  | 0x0B => { t with c := { t.c with fpstat := BitVec.ofNat 5 v } }
  | 0x0D => { t with tcause := BitVec.ofNat 8 v }
  | 0x0E => { t with trappc := BitVec.ofNat 32 v }
  | 0x0F => { t with tslot := v % 32 }
  | 0x10 => { t with traparg := BitVec.ofNat 64 v }
  | _ => t

/-- The write of a group's register, from every guarded lane's value, that of the highest position last (R205). -/
def Group.sysWrite (g : Group) (n : Nat) (vs : List Nat) : Group :=
  match vs.getLast? with
  | none => g
  | some v =>
    match n with
    | 0x0A => { g with restored := g.restored && !vs.any fun v => bitOf v 3, udiv := g.udiv && !vs.any fun v => bitOf v 0 }
    | 0x0C => { g with fpxen := BitVec.ofNat 5 v }
    | 0x15 => { g with commits := BitVec.ofNat 32 v }
    | 0x16 => { g with rollbacks := BitVec.ofNat 32 v }
    | _ => g

/-- `syswr` (R22, R205). -/
def execSyswr (f : FSyswr) (q : Option Modifier) (s : State) : Host.Outcome State Fault Refusal :=
  word { c := f.c, q := q, ill := !sysWritable f.n, stop := true
         srcs := [{ f := f.a, w := if f.n = 0x10 then 2 else 1 }]
         act := fun _ m k _ ls =>
           let on := sortLanes (ons ls)
           let m := m.mapLanes k.gid on fun l t => t.sysWrite f.n (l.val 0)
           (m.onGroup k.gid fun x => x.sysWrite f.n (on.map fun l => l.val 0), []) } s

end Sys2Proof.Machine
end

