-- ==== Sys2Proof/Machine/Power.lean ====
section
/-! DEFINITION. Power: the current arbiter of a cluster, filler and heat tokens (13 R293 to R300). -/

namespace Sys2Proof.Machine

/-! ### Requesters -/

/-- The requesters of a core in the order of R296: issue unit 0, issue unit 1, copy engine, bank MAC tower, matrix engine. -/
def requesters : List Nat := [0, 1, 2, 3, 4]

/-- The step size of a requester (Table 13.1). -/
def stepCu (r : Nat) : Nat :=
  match r with
  | 0 => 8 | 1 => 8 | 2 => 4 | 3 => 4 | _ => 16

/-- The full draw of a requester (Table 13.1). -/
def fullCu (r : Nat) : Nat := if r = 4 then 64 else stepCu r

/-- The reservation of a requester. -/
def Core.cu (c : Core) (r : Nat) : Nat :=
  match r with
  | 0 => c.unit0 | 1 => c.unit1 | 2 => c.copyCu | 3 => c.bankCu | _ => c.eng.cu

/-- Set the reservation of a requester. -/
def Core.setCu (c : Core) (r n : Nat) : Core :=
  match r with
  | 0 => { c with unit0 := n, lower0 := c.lower0 && n != 0 }
  | 1 => { c with unit1 := n, lower1 := c.lower1 && n != 0 }
  | 2 => { c with copyCu := n }
  | 3 => { c with bankCu := n }
  | _ => { c with eng := { c.eng with cu := n } }

/-- A gang stands in a gang slot of a half; a parked gang has given its slot up (log entry 9). -/
def gangsIn (m : Mach) (col core half : Nat) : Bool :=
  m.gangs.any fun k => k.half == half && k.st != .parked && (match m.group? k.gid with
    | some g => g.stage == .resident && g.column == col && g.core == core
    | none => false)

/-- Cards of a column that name a tower; those of a frozen queue that run count until they end (R190). -/
def towerCards (m : Mach) (col tower : Nat) : Bool :=
  m.cores.any fun e => e.1 / 48 == col && e.2.cards.any fun x => (x.locked || !e.2.bankFrozen) && x.cmds.any fun y => y.tower == tower

/-- A word that the engine may work on: its group is not frozen. -/
def MWord.live (m : Mach) (w : MWord) : Bool := match m.group? w.gid with
  | some g => !g.frozen
  | none => false

/-- A word whose work is not done. `mzero` needs no reservation. -/
def MWord.open (m : Mach) (w : MWord) : Bool := w.live m && w.op != 2 && (!w.started || decide (w.prog < w.need))

/-- The word in progress: the first one whose work is not done (R294). -/
def workOf (m : Mach) (c : Core) : Option MWord := c.mwords.find? fun w => w.open m

/-- A requester has work that needs a reservation (Table 13.1, R297, R337). -/
def wantsCu (m : Mach) (col core r : Nat) : Bool :=
  let c := m.core col core
  match r with
  | 0 => gangsIn m col core 0
  | 1 => gangsIn m col core 1
  | 2 => !c.kicks.isEmpty || !c.copyNodes.isEmpty
  | 3 => towerCards m col core
  | _ => (workOf m c).isSome

/-- A requester asks to lower its reservation: an issue unit after its idle time; the others when they have no work left. -/
def asksLower (m : Mach) (col core r : Nat) : Bool :=
  let c := m.core col core
  c.cu r != 0 && (match r with
    | 0 => c.lower0
    | 1 => c.lower1
    | _ => !wantsCu m col core r)

/-- A requester asks to raise its reservation. -/
def asksRaise (m : Mach) (col core r : Nat) : Bool :=
  wantsCu m col core r && decide ((m.core col core).cu r < fullCu r)

/-- All requesters of a cluster in the order of R296, as (core, requester). -/
def clusterOrder (cluster : Nat) : List (Nat × Nat) :=
  (List.range 4).flatMap fun i => requesters.map fun r => (4 * cluster + i, r)

/-- The sum of the reservations of a cluster. -/
def clusterTotal (m : Mach) (col cluster : Nat) : Nat := ((clusterOrder cluster).map fun x => (m.core col x.1).cu x.2).sum

/-! ### The arbiter -/

/-- Move a reservation. -/
def moveCu (m : Mach) (col : Nat) (x : Nat × Nat) (n : Nat) : Mach := m.onCore col x.1 fun c => c.setCu x.2 n

/-- The first pass of R295: the machine, the fall, and who has moved. -/
def fallPass (col : Nat) : List (Nat × Nat) → Mach → Nat → List (Nat × Nat) → Mach × Nat × List (Nat × Nat)
  | [], m, fall, moved => (m, fall, moved)
  | x :: xs, m, fall, moved =>
    if asksLower m col x.1 x.2 && decide (fall + stepCu x.2 ≤ 32) then
      fallPass col xs (moveCu m col x ((m.core col x.1).cu x.2 - stepCu x.2)) (fall + stepCu x.2) (x :: moved)
    else fallPass col xs m fall moved

/-- The forced lowering of R300, over the engines in descending core order. -/
def forcePass (col cluster cap : Nat) : List (Nat × Nat) → Mach → Nat → List (Nat × Nat) → Mach × Nat × List (Nat × Nat)
  | [], m, fall, moved => (m, fall, moved)
  | x :: xs, m, fall, moved =>
    let cu := (m.core col x.1).cu x.2
    if clusterTotal m col cluster ≤ cap then (m, fall, moved)
    else if moved.contains x || cu == 0 then forcePass col cluster cap xs m fall moved
    else if fall + 16 ≤ 32 then forcePass col cluster cap xs (moveCu m col x (cu - 16)) (fall + 16) (x :: moved)
    else (m, fall, moved)

/-- The second pass of R295: it stops at the first request that does not fit, as that of an engine which has been lowered at this boundary. -/
def risePass (col cluster cap fall : Nat) (moved : List (Nat × Nat)) : List (Nat × Nat) → Mach → Nat → Mach
  | [], m, _ => m
  | x :: xs, m, rise =>
    if asksRaise m col x.1 x.2 then
      if moved.contains x ∨ 32 + fall < rise + stepCu x.2 ∨ cap < clusterTotal m col cluster + stepCu x.2 then m
      else risePass col cluster cap fall moved xs (moveCu m col x ((m.core col x.1).cu x.2 + stepCu x.2)) (rise + stepCu x.2)
    else risePass col cluster cap fall moved xs m rise

/-- A step boundary: the two passes, with the forced lowering between them (R295, R300). -/
def arbitrate (col cluster : Nat) (m : Mach) : Mach :=
  let order := clusterOrder cluster
  let cap := (m.cluster col cluster).cap
  let (m, fall, moved) := fallPass col order m 0 []
  let (m, fall, moved) := forcePass col cluster cap ((order.filter fun x => x.2 == 4).reverse) m fall moved
  risePass col cluster cap fall moved order m 0

/-! ### Matrix cycles -/

/-- Every column's bucket after a cycle (R299): the columns that worked spend 64, every column gains REFILL, at most full. -/
def heatCycle (spent : SMap Nat) (width refill : Nat) : SMap Nat :=
  (List.range 64).foldl (fun h i => SMap.set 0 h i (SMap.get 0 spent i + (if i < width then 64 else 0) - refill)) []

/-- Every active column holds at least 64 tokens. -/
def coolEnough (spent : SMap Nat) (width : Nat) : Bool := (List.range width).all fun i => decide (SMap.get 0 spent i + 64 ≤ 8192)

/-- A matrix cycle supplies `n` column-cycles (R294). What a word leaves goes to the next, if that uses columns too (R309: in Table 15.11 the cores at width
48 do 1,536 column-cycles in 32 cycles, across the end of a word). A word that needs none has started. -/
def supply (m : Mach) (n : Nat) : List MWord → List MWord
  | [] => []
  | w :: ws =>
    if n = 0 then w :: ws
    else if !w.open m then w :: supply m n ws
    else if w.need = 0 then { w with started := true } :: supply m n ws
    else if !w.array then w :: ws
    else
      let k := min n (w.need - w.prog)
      { w with started := true, prog := w.prog + k } :: supply m (n - k) ws

/-- A matrix cycle of a drain (R308). -/
def drainCycle (m : Mach) : List MWord → List MWord
  | [] => []
  | w :: ws =>
    if !w.open m then w :: drainCycle m ws
    else if w.need = 0 then { w with started := true } :: drainCycle m ws
    else { w with started := true, prog := w.prog + 1 } :: ws

/-- The first word in progress that takes matrix cycles is a drain. -/
def drains (m : Mach) (c : Core) : Bool := (c.mwords.find? fun w => w.open m && w.need != 0).any fun w => !w.array

/-- One matrix cycle of a core's engine (R294, R298, R299, R308): a drain uses no column; array work and filler spend tokens, or the
cycle is a cool wait. -/
def engineCycle (col core refill : Nat) (m : Mach) : Mach :=
  let c := m.core col core
  let w := c.eng.cu
  let still (c : Core) : Core := { c with eng := { c.eng with spent := heatCycle c.eng.spent 0 refill } }
  if w = 0 then m.setCore col core (still c)
  else
    if drains m c then m.setCore col core { still c with mwords := drainCycle m c.mwords }
    else if coolEnough c.eng.spent w then
      m.setCore col core
        { c with mwords := supply m w c.mwords, eng := { c.eng with spent := heatCycle c.eng.spent w refill } }
    else (m.setCore col core (still c)).count col 5

/-- An issue unit's matrix cycles without an occupied gang slot (Table 13.1). -/
def idleCycle (m : Mach) (col core : Nat) : Mach :=
  let next (half idle : Nat) : Nat := if gangsIn m col core half then 0 else min 64 (idle + 1)
  let n0 := next 0 (m.core col core).idle0
  let n1 := next 1 (m.core col core).idle1
  m.onCore col core fun c => { c with idle0 := n0, idle1 := n1, lower0 := c.lower0 && n0 != 0, lower1 := c.lower1 && n1 != 0 }

/-- The four cores of a cluster. -/
def clusterCores (cluster : Nat) : List Nat := (List.range 4).map fun i => 4 * cluster + i

/-- A step boundary: a new REFILL takes effect, and the arbiter acts once (R295, R299, R359). -/
def stepBoundary (refmax col cluster : Nat) (m : Mach) : Mach :=
  let m := m.onCluster col cluster fun k => { k with refill := min refmax k.refillNext }
  let m := if (m.cluster col cluster).cap < 352 then m.count col 6 else m
  arbitrate col cluster m

/-- CURRENT_STEP: a matrix cycle of a cluster, the first of every four with the step boundary before it (R295, R297). -/
def currentStep (refmax col cluster : Nat) (m : Mach) : Mach :=
  let m := (clusterCores cluster).foldl (fun m c => idleCycle m col c) m
  let m := if (m.cluster col cluster).phase = 0 then stepBoundary refmax col cluster m else m
  let refill := (m.cluster col cluster).refill
  let m := (clusterCores cluster).foldl (fun m c => engineCycle col c refill m) m
  m.onCluster col cluster fun k => { k with phase := (k.phase + 1) % 4 }

/-- CURRENT_STEP (R295). -/
def execCurrentStep (col cluster : Nat) (s : State) : Host.Outcome State Fault Refusal :=
  .next { s with m := currentStep s.fleet.refmax col cluster s.m }

/-- ISSUE_UNIT_IDLE_RELEASE: after 64 matrix cycles without an occupied gang slot an issue unit asks to return its reservation (R293). -/
def execIssueUnitIdleRelease (col core half : Nat) (s : State) : Host.Outcome State Fault Refusal :=
  onMach (fun _ m =>
    if gangsIn m col core half then m
    else m.onCore col core fun c =>
      if half = 0 then { c with lower0 := c.lower0 || (decide (64 ≤ c.idle0) && c.unit0 != 0) }
      else { c with lower1 := c.lower1 || (decide (64 ≤ c.idle1) && c.unit1 != 0) }) s

/-- CAP_CHANGE: firmware sets a cluster's CAP, a multiple of 32 from 160 to 352, and the REFILL of its next step boundary, 32 to 64
(R299, R300). -/
def execCapChange (col cluster cap refill : Nat) (s : State) : Host.Outcome State Fault Refusal :=
  onMach (fun _ m =>
    if cap % 32 = 0 ∧ 160 ≤ cap ∧ cap ≤ 352 ∧ 32 ≤ refill ∧ refill ≤ 64 then
      m.onCluster col cluster fun k => { k with cap := cap, refillNext := refill }
    else m) s

end Sys2Proof.Machine
end

