-- ==== Sys2Proof/Machine/FixedFn.lean ====
section
/-! DEFINITION. FixedFn: gates (12 R286) and the fixed-function nodes beside RASTER: TRAVERSE (R289), CLASSIFY (R290), NET (R291,
R292), COPY (R288), and the moderated HOSTQ interrupt (17 R320). -/

namespace Sys2Proof.Machine

/-! ### Gates -/

/-- The draw and the twin that a gate names for a record (Table 12.5). -/
def gateDraw (cfg : Cfg) (vf gate rec : Nat) (m : Mach) : Nat × Nat :=
  (bitsOf gate 16 3, if bitOf gate 61 then readVa cfg vf (rec + 2 * bitsOf gate 48 8) 2 m else bitsOf gate 0 16)

/-- GATE: the next record that the gate has not seen, once its draw is retired, passes or is consumed (R286). The records of a HOST node are the host's
(R288). -/
def execGate (vf leaf node : Nat) (s : State) : Host.Outcome State Fault Refusal :=
  onMach (fun cfg m => whenReady (touchNode cfg vf leaf node m) fun m => match m.binding? vf leaf with
    | none => m
    | some b =>
      let n := readNode cfg vf b.table node m
      let h := readQHdr cfg vf n.queue m
      let i := b.seen node
      let no := (h.head + i) % 2 ^ 32
      if !vfRuns cfg m vf || b.stopped || decide (b.count ≤ node) || n.kind == 6 || !h.gated || decide (h.count ≤ i) then m
      else whenReady (touchStruct cfg vf (h.recAddr n.recsz no) n.recsz false m) fun m =>
        let d := gateDraw cfg vf h.gate (h.recAddr n.recsz no) m
        if ((m.draw? d.1 d.2).map (·.retired)).getD false then
          let sum := SMap.get 0 m.occ (occKey (2 * d.1) d.2) + SMap.get 0 m.occ (occKey (2 * d.1 + 1) d.2)
          if (sum != 0) != bitOf h.gate 62 then m.setSeen vf leaf node (i + 1)
          else if i = 0 then consumeRecord cfg vf leaf node n (m.setSeen vf leaf node 1)
          else (m.setSeen vf leaf node (i + 1)).onBinding vf leaf fun b => { b with gateDrop := b.gateDrop ++ [(node, no)] }
        else m) s

/-! ### TRAVERSE -/

/-- A point or a direction. -/
structure Vec where
  x : Q
  y : Q
  z : Q
  deriving DecidableEq, Repr

def Vec.sub (a b : Vec) : Vec := { x := a.x.sub b.x, y := a.y.sub b.y, z := a.z.sub b.z }
def Vec.dot (a b : Vec) : Q := ((a.x.mul b.x).add (a.y.mul b.y)).add (a.z.mul b.z)
def Vec.cross (a b : Vec) : Vec :=
  { x := (a.y.mul b.z).sub (a.z.mul b.y), y := (a.z.mul b.x).sub (a.x.mul b.z), z := (a.x.mul b.y).sub (a.y.mul b.x) }

/-- A bound beyond every finite binary32 quotient, which stands for an infinity. -/
def farAway : Q := Q.two 1000

/-- A binary32 bound: infinities lie beyond every quotient; none for NaN. -/
def boundOf (w : Nat) : Option Q :=
  match fmt32.val (w % 2 ^ 32) with
  | .nan _ => none
  | .inf n => some (if n then farAway.neg else farAway)
  | .fin _ v => some v

/-- A finite coordinate. -/
def finOf (w : Nat) : Option Q := f32Q (BitVec.ofNat 32 w)

/-- Three values. -/
def vecOf (f : Nat → Option Q) (ws : List Nat) (i : Nat) : Option Vec :=
  match f (ws.getD i 0), f (ws.getD (i + 1) 0), f (ws.getD (i + 2) 0) with
  | some x, some y, some z => some { x := x, y := y, z := z }
  | _, _, _ => none

/-- A ray. -/
structure Ray where
  o : Vec
  d : Vec
  tmin : Q
  tmax : Q
  deriving DecidableEq, Repr

/-- The ray of a record; none where a field is NaN, or an origin or direction infinite. -/
def rayOf (ws : List Nat) : Option Ray :=
  match vecOf finOf ws 0, boundOf (ws.getD 3 0), vecOf finOf ws 4, boundOf (ws.getD 7 0) with
  | some o, some a, some d, some b => some { o := o, d := d, tmin := a, tmax := b }
  | _, _, _, _ => none

/-- One slab: the interval of t that is left. -/
def slab (o d lo hi : Q) (t : Q × Q) : Option (Q × Q) :=
  if d.isZero then (if lo.le o && o.le hi then some t else none)
  else
    let a := (lo.sub o).div d
    let b := (hi.sub o).div d
    let t' := (t.1.max (a.min b), t.2.min (a.max b))
    if t'.1.le t'.2 then some t' else none

/-- The exact slab intersection of a box with [tmin, tmax] (R289). -/
def boxHit (r : Ray) (lo hi : Vec) : Bool :=
  (((if r.tmin.le r.tmax then some (r.tmin, r.tmax) else none).bind (slab r.o.x r.d.x lo.x hi.x)).bind
    (slab r.o.y r.d.y lo.y hi.y)).bind (slab r.o.z r.d.z lo.z hi.z) |>.isSome

/-- A hit: t, barycentrics, triangle index, PRIM. -/
structure Hit where
  t : Q
  b1 : Q
  b2 : Q
  tri : Nat
  prim : Nat
  deriving DecidableEq, Repr

/-- The exact intersection with a triangle (R289). -/
def triHit (r : Ray) (v0 v1 v2 : Vec) (tri prim : Nat) : Option Hit :=
  let e1 := v1.sub v0
  let e2 := v2.sub v0
  let p := r.d.cross e2
  let det := e1.dot p
  if det.isZero then none
  else
    let s := r.o.sub v0
    let q := s.cross e1
    let b1 := (s.dot p).div det
    let b2 := (r.d.dot q).div det
    let t := (e2.dot q).div det
    if (Q.ofInt 0).le b1 && (Q.ofInt 0).le b2 && (b1.add b2).le (Q.ofInt 1) && r.tmin.le t && t.le r.tmax then
      some { t := t, b1 := b1, b2 := b2, tri := tri, prim := prim }
    else none

/-- What is found at an address of a structure: a value; no cached translation, and the address to walk; a malformed structure; an uncorrectable error. -/
inductive Struct (α : Type) where
  | ok (x : α)
  | miss (va : Nat)
  | bad
  | lost
  deriving DecidableEq, Repr

/-- Go on with a value. -/
def Struct.bind {α β : Type} (x : Struct α) (f : α → Struct β) : Struct β :=
  match x with
  | .ok x => f x
  | .miss va => .miss va
  | .bad => .bad
  | .lost => .lost

/-- A list of structures, the first that is not a value first. -/
def Struct.all {α β : Type} (f : α → Struct β) : List α → Struct (List β)
  | [] => .ok []
  | x :: xs => (f x).bind fun y => (Struct.all f xs).bind fun ys => .ok (y :: ys)

/-- `n` bytes of a structure that lie in one page; an address beyond 57 bits cannot be translated (R330). -/
def structValue (vf n : Nat) (m : Mach) (a : Nat) : Struct Nat :=
  if 2 ^ 57 ≤ a then .bad
  else match m.tlbHit vf a false false with
    | none => .miss a
    | some pa => if m.homeLost pa n then .lost else .ok (m.homeRead pa n)

/-- Words of a structure. -/
def structWords (vf a n : Nat) (m : Mach) : Struct (List Nat) := Struct.all (fun i => structValue vf 4 m (a + 4 * i)) (List.range n)

/-- A triangle's hit, or none. -/
def triangleHits (vf base : Nat) (r : Ray) (m : Mach) (i : Nat) : Struct (List Hit) :=
  (structWords vf (base + 48 * i) 12 m).bind fun ws =>
    match vecOf finOf ws 0, vecOf finOf ws 3, vecOf finOf ws 6 with
    | some a, some b, some c => .ok (triHit r a b c i (ws.getD 9 0)).toList
    | _, _, _ => .bad

/-- The hits of a run of triangles. -/
def leafHits (vf base : Nat) (r : Ray) (m : Mach) (first cnt : Nat) : Struct (List Hit) :=
  (Struct.all (fun i => triangleHits vf base r m (first + i)) (List.range cnt)).bind fun hs => .ok hs.flatten

/-- The hits below a node, at most `fuel` levels deep (R289). -/
def nodeHits (vf root base : Nat) (r : Ray) (m : Mach) : Nat → Nat → Struct (List Hit)
  | 0, _ => .bad
  | n + 1, i =>
    (structWords vf (root + 64 * i) 16 m).bind fun ws =>
      let child (k : Nat) : Struct (List Hit) :=
        let ref := ws.getD (12 + k) 0
        if ref = 0xFFFFFFFF then .ok []
        else match vecOf boundOf ws (6 * k), vecOf boundOf ws (6 * k + 3) with
          | some lo, some hi =>
            let cnt := bitsOf ref 24 7
            if bitOf ref 31 != (cnt != 0) then .bad
            else if !boxHit r lo hi then .ok []
            else if cnt = 0 then nodeHits vf root base r m n (bitsOf ref 0 24)
            else leafHits vf base r m (bitsOf ref 0 24) cnt
          | _, _ => .bad
      (child 0).bind fun a => (child 1).bind fun b => .ok (a ++ b)

/-- The nearer of two hits; ties to the lower triangle index (R289). -/
def nearer (a b : Hit) : Hit := if b.t.lt a.t || (b.t.eq a.t && decide (b.tri < a.tri)) then b else a

/-- The words of a hit record (Table 12.7). -/
def hitWords (h : Option Hit) (payload : List Nat) : List Nat :=
  (match h with
    | some h => [1, (f32Of h.t).toNat, (f32Of h.b1).toNat, (f32Of h.b2).toNat, h.prim]
    | none => [0, 0, 0, 0, 0]) ++ List.replicate 8 0 ++ payload

/-- Words as bytes. -/
def wordBytes (ws : List Nat) : List Byte := ws.flatMap fun w => natBytes w 0 4

/-- More levels than a tree of 24-bit indices can have. -/
def traverseDepth : Nat := 2 ^ 24 + 1

/-- The hit record of a ray record; bad for a malformed structure (R288, R289). A ray with a field that is not finite where it must
be has an unstated result: free words (log entry 1). -/
def traverseRecord (vf : Nat) (ws : List Nat) (m : Mach) : Struct (List Nat × Mach) :=
  let root := ws.getD 8 0 + 2 ^ 32 * ws.getD 9 0
  let base := ws.getD 10 0 + 2 ^ 32 * ws.getD 11 0
  let payload := [ws.getD 13 0, ws.getD 14 0, ws.getD 15 0]
  if root % 16 ≠ 0 ∨ base % 16 ≠ 0 ∨ 2 ≤ ws.getD 12 0 then .bad
  else match rayOf ws with
    | none =>
      let (b, m) := m.freeBits 160
      .ok ((List.range 5).map (fun i => bitsOf b (32 * i) 32) ++ List.replicate 8 0 ++ payload, m)
    | some r => (nodeHits vf root base r m traverseDepth 0).bind fun hs => match hs with
      | [] => .ok (hitWords none payload, m)
      | h :: hs =>
        if ws.getD 12 0 = 1 then
          let (i, m) := m.pick (hs.length + 1)
          .ok (hitWords (some ((h :: hs).getD i h)) payload, m)
        else .ok (hitWords (some (hs.foldl nearer h)) payload, m)

/-- Successor 0 of a node of a binding. -/
def succ0 (cfg : Cfg) (vf : Nat) (b : Binding) (n : Node) (m : Mach) : Node := readNode cfg vf b.table (n.emit.headD 0) m

/-- The walk that a node's structure needs: the node goes on once it is cached; an address that cannot be translated consumes the record (R289, R333). -/
def structWalk (cfg : Cfg) (vf leaf node va : Nat) (n : Node) (m : Mach) : Mach :=
  match unitTranslate cfg m vf va false false with
  | (m, some _, _) => m
  | (m, none, .pending _) => m
  | (m, none, .lost) => m
  | (m, none, _) => failRecord cfg vf leaf node n m

/-- TRAVERSE: consumes a ray record and emits a hit record; waits while the successor's queue is full (R287 to R289). -/
def execTraverse (vf leaf node : Nat) (s : State) : Host.Outcome State Fault Refusal :=
  onMach (fun cfg m => whenReady (touchNode cfg vf leaf node m) fun m => match headRecord cfg vf leaf node 2 m with
    | none => m
    | some (b, n, h) =>
      match traverseRecord vf (recWords cfg vf (h.recAddr 64 h.head) 64 m) m with
      | .bad => failRecord cfg vf leaf node n m
      | .lost => nodeLoss cfg vf leaf m
      | .miss va => structWalk cfg vf leaf node va n m
      | .ok (ws, m) => match appendTo cfg vf b.table (n.emit.headD 0) (wordBytes ws) m with
        | .done m => consumeRecord cfg vf leaf node n m
        | .wait m => m
        | .corrupt => m) s

/-! ### CLASSIFY -/

/-- The blocks of a surface that a node has read for its record at HEAD, as a memory. -/
def EngBuf.texels (eb : EngBuf) : Mem := eb.got.map fun e => (e.1, BitVec.ofNat 8 (e.2 - 1))

/-- What a node has read and written for its record at HEAD. -/
def Binding.buf (b : Binding) (node : Nat) : EngBuf := SMap.get {} b.eb node

/-- Keep it. -/
def Mach.setBuf (m : Mach) (vf leaf node : Nat) (eb : EngBuf) : Mach := m.onBinding vf leaf fun b => { b with eb := SMap.set {} b.eb node eb }

/-- Bring blocks in one after the other and read them; those read stay read while another is waited for. -/
def readBlocks (cfg : Cfg) (vf idx : Nat) : List Nat → EngBuf → Mach → Refill × EngBuf
  | [], eb, m => (.done m, eb)
  | b :: bs, eb, m => match m.surfAt vf idx with
    | none => (.done m, eb)
    | some s =>
      if SMap.get 0 eb.got (s.blockKey b) != 0 then readBlocks cfg vf idx bs eb m
      else match refillAll cfg vf idx [b] m with
        | .done m => readBlocks cfg vf idx bs
            { eb with got := (List.range 256).foldl (fun g i => SMap.set 0 g (s.blockKey b + i) ((byteAt m.fmem (s.blockKey b + i)).toNat + 1)) eb.got } m
        | r => (r, eb)

/-- The 16×16 tile's pixels inside the surface, with their material, in raster order (R290). -/
def tilePixels (s : Surf) (f : Mem) (tx ty layer : Nat) : List (Nat × Nat) :=
  (List.range 256).filterMap fun i =>
    let x := 16 * tx + i % 16
    let y := 16 * ty + i / 16
    if s.inside x y layer then
      let v := readN f (s.key x y layer) 2
      if v = 0xFFFF then none else some (i, v)
    else none

/-- Cut a list into pieces of at most 64. -/
def pieces64 {α : Type} : Nat → List α → List (List α)
  | 0, _ => []
  | _, [] => []
  | n + 1, l => l.take 64 :: pieces64 n (l.drop 64)

/-- The output records of a tile: materials ascending, at most 64 pixels each (R290). -/
def classifyRecords (ws : List Nat) (px : List (Nat × Nat)) : List (List Byte) :=
  let mats := (List.range 65536).filter fun v => px.any fun p => p.2 == v
  mats.flatMap fun v => (pieces64 4 (px.filter fun p => p.2 == v)).map fun ps =>
    wordBytes [ws.getD 0 0, v + ps.length * 65536, ws.getD 2 0, ws.getD 3 0]
      ++ (List.range 64).map fun i => BitVec.ofNat 8 ((ps[i]?.map (·.1)).getD 0)

/-- CLASSIFY (R290): bins a tile's pixels by material; resumes where the successor's queue was full. -/
def execClassify (vf leaf node : Nat) (s : State) : Host.Outcome State Fault Refusal :=
  onMach (fun cfg m => whenReady (touchNode cfg vf leaf node m) fun m => match headRecord cfg vf leaf node 3 m with
    | none => m
    | some (b, n, h) =>
      let ws := recWords cfg vf (h.recAddr 16 h.head) 16 m
      let layer := ws.getD 2 0 % 256
      let fail (m : Mach) : Mach := failRecord cfg vf leaf node n (m.setBuf vf leaf node {})
      match m.surf? vf (BitVec.ofNat 32 (ws.getD 0 0)) with
      | none => fail m
      | some x =>
        if x.fmt ≠ 7 ∨ x.layers < layer then fail m
        else
          let tx := bitsOf (ws.getD 1 0) 0 16
          let ty := bitsOf (ws.getD 1 0) 16 16
          let bs := ((List.range 256).filterMap fun i =>
            if x.inside (16 * tx + i % 16) (16 * ty + i / 16) layer then some (x.block (16 * tx + i % 16) (16 * ty + i / 16) layer) else none).eraseDups
          match readBlocks cfg vf x.idx bs (b.buf node) m with
          | (.wait m, eb) => m.setBuf vf leaf node eb
          | (.corrupt, _) => nodeLoss cfg vf leaf m
          | (.done m, eb) =>
            let out := classifyRecords ws (tilePixels x eb.texels tx ty layer)
            let done := b.done node
            let r := emitFrom (fun bytes m => appendTo cfg vf b.table (n.emit.headD 0) bytes m) done (out.drop done) (m.setBuf vf leaf node eb)
            if out.length ≤ r.2.1 then consumeRecord cfg vf leaf node n ((r.1.setDone vf leaf node 0).setBuf vf leaf node {})
            else r.1.setDone vf leaf node r.2.1) s

/-! ### NET -/

/-- A layer entry of a network block (R291). -/
structure NetLayer where
  k3 : Bool
  cin : Nat
  cout : Nat
  relu : Bool
  weights : Nat
  bias : Nat
  rsv : Nat
  deriving DecidableEq, Repr

/-- Channels of a code (R291); 0 for the code that has none. -/
def netChannels (c : Nat) : Nat := if c < 3 then 4 * 2 ^ c else 0

/-- Layer `j` of the block at an address. -/
def netLayer (cfg : Cfg) (vf a j : Nat) (m : Mach) : NetLayer :=
  let w (i : Nat) := readVa cfg vf (a + 16 + 16 * j + 4 * i) 4 m
  let w0 := w 0
  let wt := w 1 + 2 ^ 32 * w 2
  { k3 := bitOf w0 0, cin := netChannels (bitsOf w0 4 2), cout := netChannels (bitsOf w0 8 2), relu := bitOf w0 12
    weights := wt, bias := wt / 2 ^ 32 * 2 ^ 32 + w 3
    rsv := bitsOf w0 1 3 + bitsOf w0 6 2 + bitsOf w0 10 2 + bitsOf w0 13 19 }

/-- The network at an address: PAD, its layers, and whether it keeps the rules of R291. -/
def readNet (cfg : Cfg) (vf a : Nat) (m : Mach) : Bool × List NetLayer × Bool :=
  let w (i : Nat) := readVa cfg vf (a + 4 * i) 4 m
  let nl := bitsOf (w 0) 0 4
  let ls := (List.range (min nl 8)).map fun j => netLayer cfg vf a j m
  let linked := (ls.zip ls.tail).all fun x => x.1.cout == x.2.cin
  let ok := decide (1 ≤ nl) && decide (nl ≤ 8) && bitsOf (w 0) 5 27 + w 1 + w 2 + w 3 == 0
    && ls.all (fun l => l.rsv == 0 && l.cin != 0 && l.cout != 0) && linked
    && (ls.head?.map (·.cin)) == some 4 && (ls.getLast?.map (·.cout)) == some 4
  (bitOf (w 0) 4, ls, ok)

/-- The parameters of a layer: weights and biases as bit patterns. -/
def netParams (vf : Nat) (l : NetLayer) (m : Mach) : Struct (List Nat × List Nat) :=
  let taps := if l.k3 then 9 else 1
  (Struct.all (fun i => structValue vf 2 m (l.weights + 2 * i)) (List.range (l.cout * taps * l.cin))).bind fun w =>
    (Struct.all (fun i => structValue vf 4 m (l.bias + 4 * i)) (List.range l.cout)).bind fun b => .ok (w, b)

/-- One output channel of a layer at a pixel (R292); `act x y c` is an input activation. -/
def netChannel (l : NetLayer) (pad : Bool) (w b : List Nat) (width height : Nat) (act : Nat → Nat → Nat → Nat) (x y o : Nat) : Nat :=
  let weight (k : Nat) := w.getD (o * (if l.k3 then 9 else 1) * l.cin + k) 0
  let tap (k : Nat) : Nat :=
    let px : Int := (x : Int) + (k / l.cin % 3 : Nat) - 1
    let py : Int := (y : Int) + (k / l.cin / 3 : Nat) - 1
    let inside := decide (0 ≤ px) && decide (px < width) && decide (0 ≤ py) && decide (py < height)
    if inside || pad then act (clampI px 0 (width - 1)).toNat (clampI py 0 (height - 1)).toNat (k % l.cin) else 0
  let n := 9 * l.cin
  let s : Word :=
    if l.k3 then
      chunks (fun k => if k < n then (exMul (fmtBf.val (tap k)) (fmtBf.val (weight k))).v else .fin false (Q.ofInt 0)) 0 (ceilDiv n 16)
    else ((List.range l.cin).foldl (fun a c => a.addProduct (act x y c) (weight c)) ({} : BankAcc)).readOut
  let v := (f32Add s (BitVec.ofNat 32 (b.getD o 0))).1
  let v := if l.relu && (match fmt32.val v.toNat with | .fin n _ => n | .inf n => n | .nan _ => false) then 0#32 else v
  (finish fmtBf .ne 0 { v := fmt32.val v.toNat }).bits

/-- One layer over a whole image; activations stand at (y · width + x) · channels + c. -/
def netApply (l : NetLayer) (pad : Bool) (w b : List Nat) (width height : Nat) (acts : Array Nat) : Array Nat :=
  let act (x y c : Nat) : Nat := acts.getD ((y * width + x) * l.cin + c) 0
  ((List.range (height * width * l.cout)).map fun i =>
    netChannel l pad w b width height act (i / l.cout % width) (i / l.cout / width) (i % l.cout)).toArray

/-- All layers. -/
def netRun (vf : Nat) (pad : Bool) (width height : Nat) (m : Mach) : List NetLayer → Array Nat → Struct (Array Nat)
  | [], a => .ok a
  | l :: ls, a => (netParams vf l m).bind fun x => netRun vf pad width height m ls (netApply l pad x.1 x.2 width height a)

/-- The blocks of one layer of a surface. -/
def layerBlocks (s : Surf) (l : Nat) : List Nat := (List.range (s.bw * s.bh)).map fun i => l * (s.bw * s.bh) + i

/-- Write an image into the blocks of a layer that it is not yet written to, each brought in first: the blocks written, and how it ends. -/
def writeImage (cfg : Cfg) (vf idx layer width : Nat) (a : Array Nat) : List Nat → EngBuf → Mach → Refill × EngBuf
  | [], eb, m => (.done m, eb)
  | b :: bs, eb, m =>
    if eb.wrote.contains b then writeImage cfg vf idx layer width a bs eb m
    else match refillAll cfg vf idx [b] m with
    | .done m => match m.surfAt vf idx with
      | none => (.done m, eb)
      | some s =>
        let base := b - layer * (s.bw * s.bh)
        writeImage cfg vf idx layer width a bs { eb with wrote := b :: eb.wrote } ((List.range 16).foldl (fun m t =>
          let x := base % s.bw * 4 + t % 4
          let y := base / s.bw * 4 + t / 4
          if s.inside x y layer then
            m.setTexel s x y layer (((List.range 4).map fun c => a.getD ((y * width + x) * 4 + c) 0 * 2 ^ (16 * c)).sum)
          else m) m)
    | r => (r, eb)

/-- The surfaces of a NET record (R292): both 4x16B, of one size, on one twin, distinct, with the layer. -/
def netSurfs (m : Mach) (vf : Nat) (ws : List Nat) : Option (Surf × Surf) :=
  match m.surf? vf (BitVec.ofNat 32 (ws.getD 0 0)), m.surf? vf (BitVec.ofNat 32 (ws.getD 1 0)) with
  | some a, some b =>
    if a.fmt = 4 ∧ b.fmt = 4 ∧ a.width = b.width ∧ a.height = b.height ∧ a.twin = b.twin ∧ a.idx ≠ b.idx
      ∧ ws.getD 2 0 ≤ a.layers ∧ ws.getD 2 0 ≤ b.layers then some (a, b) else none
  | _, _ => none

/-- A network block can be read (R291). -/
def touchNet (cfg : Cfg) (vf a : Nat) (m : Mach) : Mach × Pages :=
  thenTouch (touchStruct cfg vf a 16 false m) fun m => touchStruct cfg vf a (16 + 16 * min (bitsOf (readVa cfg vf a 4 m) 0 4) 8) false m

/-- NET (R292): the network over a whole layer of the input, written to the output. Its parameters are fetched before its first write. -/
def execNet (vf leaf node : Nat) (s : State) : Host.Outcome State Fault Refusal :=
  onMach (fun cfg m => whenReady (touchNode cfg vf leaf node m) fun m => match headRecord cfg vf leaf node 4 m with
    | none => m
    | some (b, n, h) => whenReady (touchNet cfg vf n.const m) fun m =>
      let ws := recWords cfg vf (h.recAddr 16 h.head) 16 m
      let layer := ws.getD 2 0
      let (pad, ls, ok) := readNet cfg vf n.const m
      let fail (m : Mach) : Mach := failRecord cfg vf leaf node n (m.setBuf vf leaf node {})
      match netSurfs m vf ws with
      | none => fail m
      | some (x, y) =>
        if !ok then fail m
        else match readBlocks cfg vf x.idx (layerBlocks x layer) (b.buf node) m with
          | (.wait m, eb) => m.setBuf vf leaf node eb
          | (.corrupt, _) => nodeLoss cfg vf leaf m
          | (.done m, eb) =>
            let m := m.setBuf vf leaf node eb
            let img := ((List.range (x.height * x.width * 4)).map fun i =>
              readN eb.texels (x.key (i / 4 % x.width) (i / 4 / x.width) layer + 2 * (i % 4)) 2).toArray
            match netRun vf pad x.width x.height m ls img with
            | .bad => fail m
            | .lost => nodeLoss cfg vf leaf m
            | .miss va => structWalk cfg vf leaf node va n m
            | .ok out => match writeImage cfg vf y.idx layer x.width out (layerBlocks y layer) eb m with
              | (.done m, _) => consumeRecord cfg vf leaf node n (m.setBuf vf leaf node {})
              | (.wait m, eb) => m.setBuf vf leaf node eb
              | (.corrupt, _) => nodeLoss cfg vf leaf m) s

/-! ### COPY -/

/-- The column's request engine that serves COPY nodes: that of its lowest core that is not retired. -/
def copyCore (m : Mach) (col : Nat) : Nat := ((List.range 48).find? fun c => !m.retired col c).getD 0

/-- The issuer of a COPY node's accesses: it has no window. -/
def nodeIssuer (cfg : Cfg) (vf leaf : Nat) (m : Mach) : Group := { gid := 2 ^ 40, env := regionEnv cfg vf leaf m {} }

/-- Marks, beside a record's progress, a request whose offence a driver discards (R325). -/
def dropMark : Nat := 2 ^ 50

/-- A COPY node's record is done: STATE and PROGRESS are written, the record goes to successor 0 if there is one (R288). -/
def endCopyNode (cfg : Cfg) (vf leaf node col core : Nat) (b : Binding) (n : Node) (ws : List Nat) (st p : Nat) (m : Mach) : Mach :=
  let out := ws.set 14 (st * 2 ^ 30 + p % 2 ^ 30)
  let m := if n.nemit = 1 then (appendRecord cfg vf (succ0 cfg vf b n m) (wordBytes out) m).getD m else m
  let m := if st = 1 then m else m.fferr cfg vf
  let m := m.setBuf vf leaf node {}
  consumeRecord cfg vf leaf node n ((m.setDone vf leaf node 0).onCore col core fun c => { c with copyNodes := c.copyNodes.filter (· != (vf, leaf, node)) })

/-- A COPY node's record occupies its copy engine, which takes its reservation before the record's first access (R293). -/
def Core.noteNode (c : Core) (x : Nat × Nat × Nat) : Core := if c.copyNodes.contains x then c else { c with copyNodes := x :: c.copyNodes }

/-- The copy request that the record at HEAD of a COPY node is. -/
def nodeReq (cfg : Cfg) (vf : Nat) (h : QHdr) (m : Mach) : Req :=
  let ws := recWords cfg vf (h.recAddr 64 h.head) 64 m
  reqOf fun i => ws.getD i 0

/-- The end of a piece of work on a COPY node's record (R187, R288, R333, R334). -/
def endNodePiece (cfg : Cfg) (vf leaf node col core : Nat) (b : Binding) (n : Node) (ws : List Nat) (r : Req) (eb : EngBuf) (p : Nat) (e : Option EStop) (m : Mach) :
    Mach :=
  let fin (st : Nat) (m : Mach) : Mach := endCopyNode cfg vf leaf node col core b n ws st p m
  let keep (m : Mach) : Mach := (m.setDone vf leaf node p).setBuf vf leaf node eb
  let froze (va : Nat) (m : Mach) : Mach := (m.setDone vf leaf node (dropMark + p)).freezeCopy (nodeIssuer cfg vf leaf m) 2 col core 0 va
  match e with
  | none => if r.total ≤ p then fin 1 m else keep m
  | some .stall => keep m
  | some (.pending va _ s2) => match m.pendMet vf va with
    | (m, true) => if s2 then froze va m else fin 2 m
    | (m, false) => keep m
  | some (.fail1 _ _) => fin 2 m
  | some (.fail2 va) => froze va m
  | some .malformed => fin 3 m
  | some .lost => fin 2 (nodeLoss cfg vf leaf m)

/-- A COPY node's record may be worked on: its engine is not frozen, and the successor's queue has room (R288). -/
def copyNodeFree (cfg : Cfg) (vf : Nat) (c : Core) (b : Binding) (n : Node) (m : Mach) : Bool :=
  !c.copyFrozen && !(n.nemit == 1 && (readQHdr cfg vf (succ0 cfg vf b n m).queue m).full)

/-- COPY_NODE: a piece of the copy request that the record is, on the column's request engine, which needs its current reservation
(R184, R288, R293). -/
def execCopyNode (vf leaf node : Nat) (s : State) : Host.Outcome State Fault Refusal :=
  onMach (fun cfg m => whenReady (touchNode cfg vf leaf node m) fun m => match headRecord cfg vf leaf node 5 m with
    | none => m
    | some (b, n, h) =>
      let col := firstColumn cfg vf
      let core := copyCore m col
      if !copyNodeFree cfg vf (m.core col core) b n m then m
      else
        let m := m.onCore col core fun c => c.noteNode (vf, leaf, node)
        if (m.core col core).copyCu < 4 then m
        else
          let ws := recWords cfg vf (h.recAddr 64 h.head) 64 m
          let r := nodeReq cfg vf h m
          let p := b.done node
          if dropMark ≤ p then endCopyNode cfg vf leaf node col core b n ws 2 (p - dropMark) m
          else if r.bad 0 || r.ssp || r.dsp then endCopyNode cfg vf leaf node col core b n ws 3 p m
          else
            let (m, eb, p, e) := engWork cfg (nodeIssuer cfg vf leaf m) r (b.buf node) p m
            endNodePiece cfg vf leaf node col core b n ws r eb p e m) s

/-- A byte of a COPY node's request, ahead of its turn (R257). -/
def nodeAhead (vf leaf node : Nat) (s : State) : Host.Outcome State Fault Refusal :=
  onMach (fun cfg m => match headRecord cfg vf leaf node 5 m with
    | none => m
    | some (b, n, h) =>
      let c := m.core (firstColumn cfg vf) (copyCore m (firstColumn cfg vf))
      let r := nodeReq cfg vf h m
      if !copyNodeFree cfg vf c b n m || !c.copyNodes.contains (vf, leaf, node) || decide (c.copyCu < 4) || decide (dropMark ≤ b.done node) || r.bad 0 || r.ssp || r.dsp
      then m
      else
        let (m, eb) := engAhead cfg (nodeIssuer cfg vf leaf m) r (b.buf node) (b.done node) m
        m.setBuf vf leaf node eb) s

/-- HOSTQ_MODERATION_EXPIRY: a HOSTQ that HQMOD held back is raised (R320). -/
def execHostqModerationExpiry (vf : Nat) (s : State) : Host.Outcome State Fault Refusal :=
  onMach (fun _ m => if (m.vf vf).hqHeld then m.hostq vf else m) s

end Sys2Proof.Machine
end

