-- ==== Sys2Proof/Machine/Image.lean ====
section
/-! DEFINITION. Image: group images and dumps (18 R340, R347), the stop of a fault domain or of a partition (10 R243, 18 R338), and
the return of holdings (10 R233). -/

namespace Sys2Proof.Machine

/-! ### Images -/

/-- Free places for an image in the image pool of the group's save area (R340, Table 18.5). -/
def imagePlaces (m : Mach) (g : Group) : List Nat :=
  let n := imageSize g
  ((List.range ((g.env.savesz - 0x2000) / 65536)).map fun i => g.env.save + 0x2000 + 65536 * i).filter fun a =>
    decide (a + n ≤ g.env.save + g.env.savesz) && m.groups.all fun x =>
      x.env.vf != g.env.vf || x.imageLen == 0 || decide (a + n ≤ x.image) || decide (x.image + x.imageLen ≤ a)

/-- The gang that holds a lane. -/
def gangOf (m : Mach) (g : Group) (tid : Nat) : Option Gang := m.gangs.find? fun k => k.gid == g.gid && k.lanes.contains tid

/-- The gang stands at `waitc`. -/
def Gang.atWaitc (k : Gang) : Bool := k.out && (k.run[k.slot]?).any fun w => bitsAt w.toNat 25 6 == 0x36 && bitsAt w.toNat 20 5 == 9

/-- A thread frame (Table 18.8). PC and slot are those of the run in which the lane is stopped; bit 8 tells a run that is replayed from word 0 (R36). -/
def threadFrame (m : Mach) (g : Group) (t : Thread) : List Byte :=
  let l := latchWords t.c.latch
  let bit (b : Bool) (n : Nat) : Nat := if b then 2 ^ n else 0
  let k := gangOf m g t.tid
  let pc := (k.map (·.pc)).getD t.c.pc
  let slot := (k.map (·.slot)).getD t.c.slot
  regBytes t.c.t 0 8 ++ regBytes t.c.x 0 4 ++ natBytes (t.c.k ||| 1).toNat 0 8 ++ bytesOf32 (l.1 ++ [l.2])
    ++ bytesOf32 [t.c.winLimit.toNat * 256 + t.c.winBase.toNat, t.c.fpstat.toNat, t.tcause.toNat, t.trappc.toNat
      , bit t.hnd 9 + bit t.cr 8 + t.tslot, 0] ++ natBytes t.traparg.toNat 0 8
    ++ bytesOf32 [pc, slot % 32 + bit (t.wait == .hold) 8 + bit t.bar.isSome 9 + bit t.exited 10 + bit (k.any Gang.atWaitc) 11, 0, 0, 0, 0]
    ++ trapFrameBytes t.frame

/-- A replay-list entry: instruction word, modifier word, address (Table 18.7). -/
def replayEntry (iw im addr : Nat) : List Byte := bytesOf32 [iw, im] ++ natBytes addr 0 8

/-- A thread's replay list: its loads not performed (R172), and the word that has served other lanes of its gang and not this one (R365). -/
def replayBytes (m : Mach) (g : Group) (t : Thread) : List Byte :=
  let loads := t.replay.map fun a => replayEntry a.iw a.im a.addr
  let rest := match gangOf m g t.tid with
    | some k =>
      if k.st = .parked ∧ k.sat ≠ [] ∧ !k.sat.contains t.tid then
        let w := (k.run.getD k.slot 0)
        let x := (k.run.getD (k.slot + 1) 0).toNat
        [replayEntry w.toNat (if takesModifier w.toNat && bitsAt x 25 6 == 0x3F then x else 0) 0]
      else []
    | none => []
  ((loads ++ rest).take 16).flatten

/-- The full bits of a thread's registers, `n` bytes. -/
def fullBytes (t : Thread) (n : Nat) : List Byte := natBytes (~~~t.c.notFull).toNat 0 n

/-- A matrix slot's bytes: elements, row sums, column sums (Table 18.7). -/
def slotBytes (s : Slot) : List Byte := regBytes s.e 0 4096 ++ regBytes s.row 0 64 ++ regBytes s.col 0 64

/-- The 64 bytes of a saved matrix word: its parameter block, the word, and the step that the first has reached (Table 18.7). -/
def mwordBytes (w : MWord) : List Byte := bytesOf32 ((List.range 14).map (fun i => (w.blk.getD i 0).toNat) ++ [w.iw, if w.started then w.step else 0])

/-- The fields of the header, in the order of Table 18.7; the table fixes no offsets (log entry 16). -/
def headerBytes (g : Group) : List Byte :=
  bytesOf32 ([g.env.node, g.env.rid.toNat, g.gidx.toNat, g.gsize, g.claim.word.toNat, g.hold.word.toNat, g.status, g.fpxen.toNat
    , g.commits.toNat, g.rollbacks.toNat, (g.threads.filter fun t => t.bar.isSome).length, g.round % 2 ^ 32]
    ++ (List.range 64).map (fun i => (SMap.get 0 g.s i).toNat)
    ++ (List.range 7).flatMap (fun i => match g.queues.find? fun q => q.num == i with
      | some q => [q.head % 2 ^ 32, q.tail % 2 ^ 32]
      | none => [0, 0])
    ++ [g.globCount.length] ++ (g.globCount.take 80).flatMap fun x => [x.1, x.2])

/-- The sections of an image as byte lists with their offsets; `m` is the machine as the save finds it. -/
def imageBytes (m : Mach) (g : Group) : List (Nat × List Byte) :=
  let ts := (List.range g.threads.length).zip g.threads
  let tiles := if g.stage = .saved then g.tiles else (m.core g.column g.core).tiles.filter fun t => t.2.gid == g.gid
  let mwords := if g.stage = .saved then g.mwords else (m.core g.column g.core).mwords.filter fun w => w.gid == g.gid
  [(0, headerBytes g)]
    ++ ts.map (fun x => (sectionOff g 1 + 256 * x.1, threadFrame m g x.2))
    ++ ts.map (fun x => (sectionOff g 2 + 256 * x.1, replayBytes m g x.2))
    ++ ts.map (fun x => (sectionOff g 3 + 32 * g.claim.reg * x.1, regBytes x.2.c.v 0 g.acquired))
    ++ ts.map (fun x => (sectionOff g 4 + g.claim.reg * x.1, fullBytes x.2 g.hold.reg))
    ++ g.slots.map (fun s => (sectionOff g 5 + 16896 * s.1, slotBytes s.2))
    ++ ((List.range mwords.length).zip mwords).map (fun x => (sectionOff g 6 + 64 * x.1, mwordBytes x.2))
    ++ tiles.map (fun t => (sectionOff g 7 + 32 * t.1, bytesOf32 (tileWords t.2)))
    ++ [(sectionOff g 8, readList m.smem (scrKey g.gid 0) (granules g.hold.scr))]

/-- Write a group's image as the machine `src` has it. -/
def writeGroupImage (cfg : Cfg) (src : Mach) (g : Group) (m : Mach) : Mach :=
  (imageBytes src g).foldl (fun m x => writeVaList cfg g.env.vf (g.image + x.1) x.2 m) m

/-- Whether an image can be read or written. -/
inductive ImageRes where
  | ready
  | wait
  | bad
  deriving DecidableEq, Repr

/-- The pages of an image, for reading or for writing: a pending one is waited for (R333); DATALOSS in the save area stops the partition (R338). -/
def touchImage (cfg : Cfg) (g : Group) (write : Bool) (m : Mach) : Mach × ImageRes :=
  match touchStruct cfg g.env.vf g.image g.imageLen write m with
  | (m, .wait) => (m, .wait)
  | (m, .ready) =>
    if (pageVas g.image g.imageLen).all fun a => (m.tlbHit g.env.vf a write false).isSome then (m, .ready) else (m, .bad)

/-- A thread as its image has it: `i` is its place in the group. What Table 18.8 has no bits for stays in the device (log entry 38), and a lane that its run
holds stopped goes on where that run stands. -/
def Thread.ofImage (x : Mem) (g : Group) (placed : Bool) (i : Nat) (t : Thread) : Thread :=
  let a := sectionOff g 1 + 256 * i
  let w (o : Nat) : Word := read32 x (a + o)
  let win := (w 72).toNat
  let ts := (w 88).toNat
  { t with
    c := { t.c with
      v := regsAt x (sectionOff g 3 + 32 * g.claim.reg * i) g.acquired
      notFull := BitVec.ofNat 256 (2 ^ g.acquired - 1 - readN x (sectionOff g 4 + g.claim.reg * i) g.hold.reg)
      t := regsAt x a 8, x := regsAt x (a + 32) 4
      k := (BitVec.ofNat 64 (readN x (a + 48) 8) &&& ~~~1#64) ||| (t.c.k &&& 1#64)
      latch := latchAt x (a + 56)
      winBase := BitVec.ofNat 8 win, winLimit := BitVec.ofNat 8 (win / 256)
      fpstat := BitVec.ofNat 5 (w 76).toNat
      pc := if placed then t.c.pc else (w 104).toNat
      slot := if placed then t.c.slot else bitsOf (w 108).toNat 0 5 }
    tcause := BitVec.ofNat 8 (w 80).toNat, trappc := w 84, tslot := bitsOf ts 0 8, cr := bitOf ts 8, hnd := bitOf ts 9
    traparg := BitVec.ofNat 64 (readN x (a + 96) 8)
    exited := bitOf (w 108).toNat 10
    frame := trapFrameAt x (a + 128) }

/-- A matrix slot as its image has it. -/
def Slot.ofImage (x : Mem) (a : Nat) (s : Slot) : Slot :=
  { s with e := regsAt x a 4096, row := regsAt x (a + 16384) 64, col := regsAt x (a + 16640) 64 }

/-- A group as its image has it (R36, R342). -/
def Group.ofImage (m : Mach) (x : Mem) (g : Group) : Group :=
  { g with
    fpxen := BitVec.ofNat 5 (read32 x 28).toNat, commits := read32 x 32, rollbacks := read32 x 36
    s := regsAt x 48 64
    queues := g.queues.map fun q =>
      let h := (read32 x (304 + 8 * q.num)).toNat
      { q with head := h, tail := h + ((read32 x (308 + 8 * q.num)).toNat + 2 ^ 32 - h) % 2 ^ 32 }
    slots := g.slots.map fun s => (s.1, s.2.ofImage x (sectionOff g 5 + 16896 * s.1))
    threads := ((List.range g.threads.length).zip g.threads).map fun e => e.2.ofImage x g (gangOf m g e.2.tid).isSome e.1 }

/-- The window of a group as its image has it. -/
def loadWindow (cfg : Cfg) (g : Group) (m : Mach) : Mach :=
  let bytes := readVaMem cfg g.env.vf (g.image + sectionOff g 8) (granules g.hold.scr) m
  { m with smem := bytes.foldl (fun d e => setByte d (scrKey g.gid e.1) e.2) (clearRange m.smem (scrKey g.gid 0) (scrKey g.gid (2 ^ 32))) }

/-! ### Freezes -/

/-- Pending masters take the free entries of the freeze log (R324). -/
def Mach.frzRefill (m : Mach) (vf : Nat) : Nat → Mach
  | 0 => m
  | n + 1 =>
    match (m.vf vf).frzwait, freeEntry (m.vf vf).frzlog with
    | z :: zs, some i =>
      frzRefill ((m.onVf vf fun r => { r with frzlog := (i, z) :: r.frzlog, frzwait := zs }).raise vf 2) vf n
    | _, _ => m

/-- A master's freeze ends. -/
def Mach.unfreeze (m : Mach) (z : Frz) : Mach :=
  match z.kind with
  | 0 => m.onGroup z.gid fun g => { g with frozen := false, offence := none }
  | 1 => m.onCore z.column z.core fun c => { c with copyFrozen := false }
  | _ => m.onCore z.column z.core fun c => { c with bankFrozen := false }

/-- Freezes that meet a test end, and their entries are cleared (R325). -/
def Mach.endFreezes (m : Mach) (vf : Nat) (test : Frz → Bool) : Mach :=
  let zs := ((m.vf vf).frzlog.map (·.2) ++ (m.vf vf).frzwait).filter test
  let m := zs.foldl Mach.unfreeze m
  let m := m.onVf vf fun r => { r with frzlog := r.frzlog.filter fun e => !test e.2, frzwait := r.frzwait.filter fun z => !test z }
  m.frzRefill vf 16

/-! ### Stopping -/

/-- Engine faults of a group are no longer in force. -/
def Mach.dropFaultsOf (m : Mach) (vf gid : Nat) : Mach := m.onVf vf fun r => { r with faults := r.faults.filter fun f => f.gid != gid }

/-- Discard a group's faulted blocks and fills (R233, R337). -/
def Core.dropFaulted (c : Core) (gid : Nat) : Core :=
  { c with
    kicks := c.kicks.filter fun k => k.gid != gid || !k.faulted
    tiles := c.tiles.filter fun t => t.2.gid != gid || !t.2.faulted }

/-- Halt a group at an instruction boundary without a save (R243): its gangs end; its blocks not begun and cards without locks are
dropped, as are the updates that its pixel threads have not fed; what its engines have begun goes on (R233). -/
def Mach.haltGroup (m : Mach) (g : Group) : Mach :=
  let frozen (k : Nat) : Bool := (m.vf g.env.vf).frzlog.any (fun e => e.2.gid == g.gid && e.2.kind == k)
    || (m.vf g.env.vf).frzwait.any fun z => z.gid == g.gid && z.kind == k
  let m := { m with
    gangs := m.gangs.filter fun k => k.gid != g.gid
    monitors := m.monitors.filter fun x => x.gid != g.gid
    pix := m.pix.filter fun p => p.ready || !(g.threads.any fun t => (t.pixel.bind fun (x : Pixel) => x.ent) == some p.id) }
  let m := m.onCore g.column g.core fun c =>
    { (c.dropFaulted g.gid) with
      accs := c.accs.filter fun a => a.gid != g.gid || !a.spec
      waiters := c.waiters.filter fun w => w.gid != g.gid }
  let m := { m with cores := m.cores.map fun (e : Nat × Core) => (e.1, { e.2 with
    kicks := e.2.kicks.filter fun k => k.gid != g.gid || (k.prog.isSome && !frozen 1 && !k.faulted)
    cards := e.2.cards.filter fun k => k.gid != g.gid || k.locked }) }
  let m := m.onVf g.env.vf fun r => { r with
    kicks := r.kicks.filter fun k => k.2.gid != g.gid
    cards := r.cards.filter fun k => k.2.gid != g.gid }
  let m := m.onGroup g.gid fun x => { x with
    stage := .stopped, frozen := false, closing := false, offence := none, qwaits := [], rels := [], holds := []
    tiles := [], mwords := [], threads := x.threads.map fun t => { t with epi := none } }
  (m.dropFaultsOf g.env.vf g.gid).endFreezes g.env.vf fun z => z.gid == g.gid

/-- A group that a stop halts: one that has been admitted, swapped out or not (log entry 22). -/
def Group.haltable (g : Group) : Bool :=
  match g.stage with
  | .resident => true
  | .halting => true
  | .saving => true
  | .saved => true
  | .restoring => true
  | _ => false

/-- Write a dump of KIND 1 or 2 into the dump page of a region's save area: the header and one entry per halted group's image, written
in place, as the machine `src` had it (R347). -/
def writeDump (cfg : Cfg) (src : Mach) (vf region kind cause : Nat) (gs : List Group) (m : Mach) : Mach :=
  let base := effective (regionChain cfg vf region m) 10 0 (·.save) + 0x1000
  let fit := gs.take 126
  let m := fit.foldl (fun m g => writeGroupImage cfg src g m) m
  let n := fit.length
  let head := [0x4D424744, 1, kind, cause] ++ [m.etime % 2 ^ 32, m.etime / 2 ^ 32 % 2 ^ 32, (readRcb cfg vf region m).id.toNat, 0, n
    , if n < gs.length then 1 else 0, (64 + 32 * n + (fit.map (·.imageLen)).sum) % 2 ^ 32, (64 + 32 * n + (fit.map (·.imageLen)).sum) / 2 ^ 32
    , 0, 0, 0, 0]
  let m := writeVaList cfg vf base (bytesOf32 head) m
  ((List.range n).zip fit).foldl (fun m x =>
    writeVaList cfg vf (base + 64 + 32 * x.1) (bytesOf32 [7, x.2.column, x.2.core, 0] ++ natBytes x.2.image 0 8 ++ natBytes x.2.imageLen 0 8) m) m

/-- Stop the groups and leaves of a VF that lie in the subtree of a region (R243), with a dump of a kind. A launch that waits for admission has taken no record
yet: it is no launch any more, and its records stay. -/
def stopTree (cfg : Cfg) (vf root kind cause : Nat) (m : Mach) : Mach :=
  let inTree (path : List Nat) : Bool := kind == 2 || path.contains root
  let gs := m.groups.filter fun g => g.env.vf == vf && g.haltable && inTree g.env.path
  let src := m
  let m := gs.foldl Mach.haltGroup { m with groups := m.groups.filter fun g => !(g.env.vf == vf && g.stage == .queued && inTree g.env.path) }
  let leaves := ((m.vf vf).binds.map (·.leaf)).filter fun l => inTree (regionPath cfg vf m treeDepth l)
  let rids := leaves.map fun l => (readRcb cfg vf l m).id
  let m := m.endFreezes vf fun z => rids.contains z.rid
  let m := m.onVf vf fun r => { r with
    stopped := root :: r.stopped.filter fun x => x != root
    binds := r.binds.map fun b => if leaves.contains b.leaf then
      { b with stopped := true, progress := b.progress.filter fun e => decide (e.2 < dropMark) } else b }
  ((writeDump cfg src vf root kind cause gs m).raise vf 1).raise vf 9

/-- A partition-level fault: every domain of the partition stops (R338, Table 18.6). -/
def partitionStop (cfg : Cfg) (vf cause : Nat) (m : Mach) : Mach := stopTree cfg vf (m.vf vf).root 2 cause m

/-- FAULT_DOMAIN_STOP: a domain that a fatal trap, FRES or FRZCTL marked is stopped; one that is stopped already stays so (R243). A partition-level fault
stops every domain of the partition (R338). -/
def execFaultDomainStop (idx : Nat) (s : State) : Host.Outcome State Fault Refusal :=
  onMach (fun cfg m => match m.stops[idx]? with
    | none => m
    | some x =>
      let m := { m with stops := m.stops.eraseIdx idx }
      let root := x.2 / 256
      if root = wholePartition then partitionStop cfg x.1 (x.2 % 256) m
      else if (m.vf x.1).stopped.contains root && !(m.groups.any fun g => g.env.vf == x.1 && g.haltable && g.env.path.contains root) then m
      else stopTree cfg x.1 root 1 (x.2 % 256) m) s

/-! ### Return of holdings -/

/-- Nothing of a group is outstanding on its core (R233, Table 10.5). -/
def groupIdle (m : Mach) (g : Group) : Bool :=
  let c := m.core g.column g.core
  g.qwaits.isEmpty && c.accs.all (fun a => a.gid != g.gid) && m.cores.all fun e => enginesIdle e.2 g.gid g.seq

/-- A group's last thread has exited, or its domain is stopped. -/
def Group.over (g : Group) : Bool := g.stage == .stopped || (g.stage == .resident && !g.frozen && g.threads.all (·.exited))

/-- HOLDINGS_RETURN: the holdings of a group that is over return to the pool once its units are idle; its tile entries become empty,
its window is gone, and the banker re-checks the waiting requests (R231, R233). -/
def execHoldingsReturn (gid : Nat) (s : State) : Host.Outcome State Fault Refusal :=
  onMach (fun cfg m => match m.group? gid with
    | none => m
    | some g =>
      if !g.over then m
      else
        let m := { m with cores := m.cores.map fun (e : Nat × Core) => (e.1, e.2.dropFaulted gid) }
        let m := m.dropFaultsOf g.env.vf gid
        if !groupIdle m g then m
        else
          let m := m.onCore g.column g.core fun c => { c with tiles := c.tiles.filter fun t => t.2.gid != gid }
          let m := { m with
            groups := m.groups.filter fun x => x.gid != gid
            gangs := m.gangs.filter fun k => k.gid != gid
            smem := clearRange m.smem (scrKey gid 0) (scrKey gid (2 ^ 32)) }
          bankerRecheck cfg g.column g.core m) s

end Sys2Proof.Machine
end

