-- ==== Sys2Proof/Machine/Issue.lean ====
section
/-! DEFINITION. Issue: the run check (03 R64, R68), the trailer (03 R69, R71), gang formation (10 R222 to R227), the ends of join
holds and yields, and the replay of collective runs (06 R142). -/

namespace Sys2Proof.Machine

/-! ### The run check -/

/-- Major opcode and sub-operation of a word. -/
def majorOf (w : Word) : Nat := bitsOf w.toNat 25 6
def subOf (w : Word) : Nat := bitsOf w.toNat 20 5

/-- A control word (R68): `exit`, `trapret`, `yield`, `bra`, `call`, `jmpr`, `ret`. -/
def isControl (w : Word) : Bool :=
  (majorOf w == 0 && [1, 3, 5].contains (subOf w)) || majorOf w == 0x1D || majorOf w == 0x1E
    || (majorOf w == 0x1F && decide (subOf w < 2))

/-- A gang collective (R68). -/
def isCollective (w : Word) : Bool := majorOf w == 0x3D

/-- A word that a collective run may not hold (R68). -/
def isEffect (w : Word) : Bool :=
  [0x2F, 0x31, 0x33, 0x34, 0x35, 0x36, 0x37, 0x39, 0x3A].contains (majorOf w)
    || (majorOf w == 0x38 && [1, 5, 6, 8, 9].contains (subOf w))

/-- An `endrun` word (R68). -/
def isEnd (w : Word) : Bool := majorOf w == 0x3E

/-- The slot of the first `endrun` of a run. -/
def endSlot (ws : List Word) : Option Nat := ws.findIdx? isEnd

/-- CR of the run's trailer. -/
def runCr (ws : List Word) : Bool := ((endSlot ws).bind fun i => ws[i]?).any fun w => bitOf w.toNat 22

/-- The final packet of a fetched run: the one with the trailer. A run with no trailer in its first 8 packets is taken to end with the eighth, so that a
control word there is no offence of its own (DESIGN CHOICE, log entry 43); one whose fetch ended before has none. -/
def finalPacket (ws : List Word) : Option Nat :=
  match endSlot ws with
  | some e => some (e / 3)
  | none => if ws.length = 24 then some 7 else none

/-- The slot of the first offending word of a fetched run; none for a run that may issue (R68). -/
def runBad (ws : List Word) : Option Nat :=
  let fin := finalPacket ws
  let cr := runCr ws
  let noEnd := (endSlot ws).isNone
  least (((List.range ws.length).filter fun i =>
    let w := ws.getD i 0
    match endSlot ws with
    | some e => (i == e && i % 3 != 2) || (decide (i < e) && ((isControl w && some (i / 3) != fin) || (isCollective w && !cr) || (isEffect w && cr)))
    | none => isControl w && some (i / 3) != fin) ++ (if noEnd then [23] else []))

/-- The end of a run's fetch. -/
inductive Fetch where
  | run (ws : List Word)
  | stall
  | space (packet : Nat)
  | xlate (va : Nat)
  | freeze (va : Nat)
  | lost
  deriving DecidableEq, Repr

/-- Fetch one word at a virtual address. A page that is pending is walked again every 2 µs for 1 ms (R333); an uncorrectable error traps DATALOSS (R339). -/
def fetchWord (cfg : Cfg) (vf va : Nat) (m : Mach) : Mach × Except Fetch Word :=
  if 2 ^ 57 ≤ va then (m, .error (.xlate va))
  else match unitTranslate cfg m vf va false true with
    | (m, some pa, _) => if m.homeLost pa 4 then (m, .error .lost) else (m, .ok (BitVec.ofNat 32 (m.homeRead pa 4)))
    | (m, none, .ctrl off) => (m, .ok (BitVec.ofNat 32 (ctrlRead m vf off 4)))
    | (m, none, .pending _) => (m, .error .stall)
    | (m, none, .lost) => (m, .error .stall)
    | (m, none, .fail2) => (m, .error (.freeze va))
    | (m, none, _) => (m, .error (.xlate va))

/-- Fetch the packet at a virtual address: three words, slot 0 lowest (R64). -/
def fetchPacket (cfg : Cfg) (vf va : Nat) (m : Mach) : Mach × Except Fetch (List Word) :=
  match fetchWord cfg vf va m with
  | (m, .error e) => (m, .error e)
  | (m, .ok a) => match fetchWord cfg vf (va + 4) m with
    | (m, .error e) => (m, .error e)
    | (m, .ok b) => match fetchWord cfg vf (va + 8) m with
      | (m, .error e) => (m, .error e)
      | (m, .ok c) => (m, .ok [a, b, c])

/-- Fetch packets up to the trailer, at most `n` more (R64, R68). A control word in an earlier packet is a RUNFORM condition, whatever
lies beyond. -/
def fetchRun (cfg : Cfg) (vf base len : Nat) : Nat → Nat → List Word → Mach → Mach × Fetch
  | 0, _, ws, m => (m, .run ws)
  | n + 1, pc, ws, m =>
    let fail (m : Mach) (e : Fetch) : Mach × Fetch := if ws.any isControl then (m, .run ws) else (m, e)
    if len ≤ pc then fail m (.space pc)
    else match fetchPacket cfg vf (base + 12 * pc) m with
      | (m, .error e) => fail m e
      | (m, .ok p) =>
        if p.any isEnd then (m, .run (ws ++ p)) else fetchRun cfg vf base len n ((pc + 1) % 2 ^ 32) (ws ++ p) m

/-- The temporaries and the latch are empty at the first word of a run (R14, R15). -/
def Thread.startRun (t : Thread) : Thread := if t.c.mid then t else { t with c := { t.c with t := [], latch := {} } }

/-- A speculating thread whose run start would trap stops before it, and waits as at the barrier (R237, R238). -/
def Mach.stopAtStart (m : Mach) (k : Gang) (tid : Nat) (e : Episode) : Mach :=
  (m.onThread k.gid tid fun t =>
    { t with
      wait := .barrier e.round
      epi := if e.ckpt.pc = t.c.pc ∧ e.ckpt.slot = t.c.slot ∧ e.ckpt.mid = t.c.mid then none else some { e with stopped := true } }).onGang k.id fun x =>
    { x with lanes := x.lanes.filter fun l => l != tid }

/-- The speculating lanes of a gang, with their episodes. -/
def Gang.speculating (k : Gang) (g : Group) : List (Nat × Episode) :=
  k.lanes.filterMap fun l => ((g.thread? l).bind (·.epi)).map fun e => (l, e)

/-- The run check finds a trap at a slot, before any word issues (R68): every lane takes it; where threads speculate, those stop first, and the others
check again (R237). -/
def trapAll (cfg : Cfg) (m : Mach) (k : Gang) (g : Group) (slot : Nat) (c : Cause) (arg : Nat) : Mach :=
  match k.speculating g with
  | [] => m.deliver cfg k slot (k.lanes.map fun l => (l, c, arg))
  | ls => (ls.foldl (fun m x => m.stopAtStart k x.1 x.2) m).reapGang k.id

/-- The run of a gang is fetched and checked as a whole; the gang then issues from its slot (R68). A fetch that meets a pending translation is tried
again in the next cycle. -/
def runStart (cfg : Cfg) (m : Mach) (k : Gang) (g : Group) : Mach :=
  let base := if k.hnd then g.env.hbase else g.env.code
  let len := if k.hnd then g.env.hseg else g.env.seglen
  match fetchRun cfg g.env.vf base len 8 k.pc [] m with
  | (m, .stall) => m.onGang k.id fun x => { x with tried := (m.core g.column g.core).clk + 1 }
  | (m, .space p) => trapAll cfg m k g (3 * ((p + 2 ^ 32 - k.pc) % 2 ^ 32)) .space p
  | (m, .xlate va) => trapAll cfg m k g 0 .xlate va
  | (m, .lost) => trapAll cfg m k g 0 .dataloss 0
  | (m, .freeze va) => m.freezeGroup g 0 va none
  | (m, .run ws) =>
    let k := { k with run := ws, cr := runCr ws }
    let m := m.onGang k.id fun x => { x with run := ws, cr := runCr ws }
    match runBad ws with
    | some i => trapAll cfg m k g i .runform 0
    | none =>
      let m := m.onGroup k.gid fun g => { g with threads := g.threads.map fun t => if k.lanes.contains t.tid then t.startRun else t }
      m.onGang k.id fun x => { x with st := .issuing }

/-- RUN_START: the run check of the current gang (R68). -/
def execRunStart (s : State) : Host.Outcome State Fault Refusal :=
  onMach (fun cfg m => match m.curGang with
    | some (k, g) => if k.st = .formed ∧ g.stage = .resident ∧ !g.frozen then runStart cfg m k g else m
    | none => m) s

/-! ### The trailer -/

/-- The trailer of a gang. -/
def Gang.trailer (k : Gang) : FEnd := FEnd.ofWord ((k.run.getLast?.map BitVec.toNat).getD 0)

/-- A lane at the trailer (R69, R71): its next PC, and what AWAIT names. -/
def Thread.retire (t : Thread) (k : Gang) : Thread :=
  let c := t.c.landAll
  let c := if t.keep then c else
    { c with pc := t.taken.getD ((k.pc + k.run.length / 3) % 2 ^ 32), slot := 0, mid := false }
  { t with c := c, taken := none, keep := false, yieldNext := false, await := BitVec.ofNat 16 k.trailer.w }

/-- The holds that a trailer's J and Y begin in a quad, and the yield treatment of a lane that took `yield` (R71, R118, R227): they hold the quad, with
those of its lanes that stand elsewhere. -/
def Thread.holdQuad (t : Thread) (f : FEnd) (round : Nat) (yields : Bool) : Thread :=
  { t with joinAt := if f.j then some round else t.joinAt, yieldAt := if f.y || yields then some round else none }

/-- A trapping lane of a collective run that has returned or ended is waited for no more; one that returned to replay waits with the
others (R142). -/
def Hold.note (h : Hold) (t : Thread) : Hold :=
  if h.trapped.contains t.tid ∧ (t.exited ∨ !t.hnd) then
    { h with trapped := h.trapped.erase t.tid, waiting := if !t.exited && t.wait == .hold then h.waiting ++ [t.tid] else h.waiting }
  else h

/-- A group whose gangs may issue. -/
def Group.live (g : Group) (col core : Nat) : Bool := g.stage == .resident && !g.frozen && g.column == col && g.core == core

/-- The threads of a half of a core change. -/
def Mach.onHalf (m : Mach) (col core half : Nat) (f : Group → Thread → Thread) : Mach :=
  { m with groups := m.groups.map fun g =>
      if g.live col core then { g with threads := g.threads.map fun t => if g.halves.getD (t.tid / 64) 0 == half then f g t else t } else g }

/-- Every fixed-latency write of the run of a gang has landed (R71, R208). -/
def gangLanded (m : Mach) (k : Gang) (g : Group) : Bool :=
  let clk := (m.core g.column g.core).clk
  decide (k.uniDue ≤ clk) && (g.threads.filter fun t => k.lanes.contains t.tid).all fun t => t.c.pend.all fun w => decide (w.due ≤ clk)

/-- The gang retires its trailer: its lanes go to the regrouper, and other gangs' yields in the half end (R71). -/
def retireGang (m : Mach) (k : Gang) (g : Group) : Mach :=
  let c := m.core g.column g.core
  let round := c.rounds k.half
  let mine := g.threads.filter fun t => k.lanes.contains t.tid
  let quads := mine.map fun t => t.tid / 4
  let yq := (mine.filter (·.yieldNext)).map fun t => t.tid / 4
  let m := m.onHalf g.column g.core k.half fun x t =>
    if x.gid == k.gid && quads.contains (t.tid / 4) then t.holdQuad k.trailer round (yq.contains (t.tid / 4)) else { t with yieldAt := none }
  let m := m.onGroup k.gid fun x =>
    let x := x.landUni c.clk
    let ts := x.threads.map fun (t : Thread) => if k.lanes.contains t.tid then t.retire k else t
    { x with threads := ts, holds := x.holds.map fun h => ts.foldl (fun (h : Hold) (t : Thread) => if k.lanes.contains t.tid then h.note t else h) h }
  m.dropGang k.id

/-- TRAILER_RETIRE: the current gang, whose trailer has issued, ends its run in the first cycle in which every fixed-latency write of the run has landed
(R71, R208). -/
def execTrailerRetire (s : State) : Host.Outcome State Fault Refusal :=
  onMach (fun _ m => match m.curGang with
    | some (k, g) => if k.st = .trailer ∧ g.stage = .resident ∧ gangLanded m k g then retireGang m k g else m
    | none => m) s

/-! ### Gang formation -/

/-- The lane registers that an AWAIT still waits for (R71). -/
def awaitHeld (g : Group) (t : Thread) : Bool :=
  (List.range (min g.acquired 128)).any fun n => t.await.getLsbD (n / 8) && t.c.notFull.getLsbD n

/-- A lane of no gang that may run (R223); one whose buffered stores are being performed issues nothing before they are (R165). -/
def Thread.runnable (t : Thread) (g : Group) : Bool :=
  !t.exited && t.wait == .run && t.joinAt.isNone && t.yieldAt.isNone && !awaitHeld g t && !(g.closing && t.epi.isSome)

/-- Where a lane stands: handler code first, then PC, then the slot it goes on at (R223, log entry 9). -/
def Thread.place (t : Thread) : Nat × Nat × Nat := (if t.hnd then 0 else 1, t.c.pc, if t.c.mid then t.c.slot else 0)

/-- The order of places. -/
def placeLt (a b : Nat × Nat × Nat) : Bool :=
  decide (a.1 < b.1) || (a.1 == b.1 && (decide (a.2.1 < b.2.1) || (a.2.1 == b.2.1 && decide (a.2.2 < b.2.2))))

/-- A row of the PC table: group, window, quad, key, and the issue round in which the quad last issued. -/
structure Row where
  gid : Nat
  win : Nat
  quad : Nat
  key : Nat × Nat × Nat
  last : Nat
  deriving DecidableEq, Repr

/-- The least place of some lanes. -/
def leastPlace : List Thread → Option (Nat × Nat × Nat)
  | [] => none
  | t :: ts => match leastPlace ts with
    | some p => if placeLt p t.place then some p else some t.place
    | none => some t.place

/-- The lane that has waited longest. -/
def oldestLane : List Thread → Option Thread
  | [] => none
  | t :: ts => match oldestLane ts with
    | some x => if x.lastIssue < t.lastIssue then some x else some t
    | none => some t

/-- The PC key of a quad from its runnable lanes (R223). -/
def quadKey (rounds : Nat) (ts : List Thread) : Option (Nat × Nat × Nat) :=
  match oldestLane ts with
  | some t => if 64 ≤ rounds - t.lastIssue then some t.place else leastPlace ts
  | none => none

/-- Lanes in gangs of a group. -/
def Mach.inGangs (m : Mach) (gid : Nat) : List Nat := (m.gangs.filter fun k => k.gid == gid).flatMap (·.lanes)

/-- Quads of a group's gangs that are not parked. -/
def Mach.busyQuads (m : Mach) (gid : Nat) : List Nat :=
  (m.gangs.filter fun k => k.gid == gid && k.st != .parked).flatMap (·.quads)

/-- The runnable lanes of a quad that stand at no gang. -/
def freeLanes (m : Mach) (g : Group) (q : Nat) : List Thread :=
  g.threads.filter fun t => t.tid / 4 == q && t.runnable g && !(m.inGangs g.gid).contains t.tid

/-- The PC table of a half of a core (R224). -/
def pcTable (m : Mach) (col core half : Nat) : List Row :=
  let rounds := (m.core col core).rounds half
  (m.groups.filter fun g => g.live col core).flatMap fun g =>
    let busy := m.busyQuads g.gid
    (List.range g.quadSlots).filterMap fun q =>
      if g.halves.getD (q / 16) 0 == half && !busy.contains q then
        (quadKey rounds (freeLanes m g q)).map fun key =>
          { gid := g.gid, win := q / 16, quad := q, key := key
            last := ((g.threads.filter fun t => t.tid / 4 == q).map (·.lastIssue)).foldl max 0 }
      else none

/-- Rows no other row comes before, in an order. -/
def firstRows (lt : Row → Row → Bool) (rs : List Row) : List Row := rs.filter fun r => rs.all fun x => !lt x r

/-- Occupied gang slots of a half; a parked gang has given its slot up (log entry 9). -/
def slotsUsed (m : Mach) (col core half : Nat) : Nat :=
  (m.gangs.filter fun k => k.half == half && k.st != .parked && (m.group? k.gid).any fun g => g.live col core).length

/-- Place a gang in a slot. What an earlier trailer's AWAIT named is done with: it withholds the next run only (R71). -/
def Mach.addGang (m : Mach) (g : Group) (half win : Nat) (lanes : List Nat) (hnd : Bool) (pc slot : Nat) : Mach :=
  let m := m.onGroup g.gid fun x => { x with threads := x.threads.map fun t => if lanes.contains t.tid then { t with await := 0 } else t }
  { m with
    gangs := m.gangs ++ [{ id := m.nextGang, gid := g.gid, half := half, win := win, lanes := lanes, quads := (lanes.map (· / 4)).eraseDups
                           hnd := hnd, pc := pc, slot := slot, first := slot }]
    nextGang := m.nextGang + 1 }

/-- Form a gang from a row: every quad of its window in the table with its key (R224). -/
def formGang (m : Mach) (half : Nat) (rs : List Row) (r : Row) : Mach :=
  match m.group? r.gid with
  | none => m
  | some g =>
    let qs := (rs.filter fun x => x.gid == r.gid && x.win == r.win && x.key == r.key).map (·.quad)
    let lanes := (qs.flatMap fun q => (freeLanes m g q).filter fun t => t.place == r.key).map (·.tid)
    m.addGang g half r.win lanes (r.key.1 == 0) r.key.2.1 r.key.2.2

/-- GANG_FORMATION: while a gang slot is free, the regrouper forms one gang: at the key of the longest-waiting quad that has gone 64
issue rounds without issuing, else at the head of the PC table (R224). Rows the order leaves equal are a free choice. -/
def gangFormation (col core half : Nat) (m : Mach) : Mach :=
  if 16 ≤ slotsUsed m col core half then m
  else
    let rounds := (m.core col core).rounds half
    let rs := pcTable m col core half
    let starved := rs.filter fun r => decide (64 ≤ rounds - r.last)
    let heads := if starved.isEmpty then firstRows (fun a b => placeLt a.key b.key || (a.key == b.key && decide (a.win < b.win))) rs
      else firstRows (fun a b => decide (a.last < b.last)) starved
    if heads.isEmpty then m
    else
      let p := m.pick heads.length
      match heads[p.1]? with
      | some r => formGang p.2 half rs r
      | none => m

/-- GANG_FORMATION (R224). -/
def execGangFormation (col core half : Nat) (s : State) : Host.Outcome State Fault Refusal := onMach (fun _ m => gangFormation col core half m) s

/-! ### Join holds and yields -/

/-- A quad of a half is held by a join or a yield (R223). -/
def heldQuad (m : Mach) (col core half : Nat) : Bool :=
  m.groups.any fun g => g.live col core && g.threads.any fun t =>
    g.halves.getD (t.tid / 64) 0 == half && !t.exited && (t.joinAt.isSome || t.yieldAt.isSome)

/-- A lane of a quad whose hold ends; its starvation count has not advanced (R227). -/
def Thread.endJoin (t : Thread) (since rounds : Nat) : Thread := { t with joinAt := none, lastIssue := t.lastIssue + (rounds - since) }

/-- A quad under a join hold: group, quad, key, and the round in which the hold began. -/
structure HeldQuad where
  gid : Nat
  quad : Nat
  key : Option (Nat × Nat × Nat)
  since : Nat
  deriving DecidableEq, Repr

/-- The quads of a half under a join hold. -/
def joinHeld (m : Mach) (col core half : Nat) : List HeldQuad :=
  (m.groups.filter fun g => g.live col core).flatMap fun g =>
    (List.range g.quadSlots).filterMap fun q =>
      let ts := g.threads.filter fun t => t.tid / 4 == q && !t.exited
      if g.halves.getD (q / 16) 0 == half then
        ((ts.filterMap (·.joinAt)).head?).map fun since => { gid := g.gid, quad := q, key := quadKey since (ts.filter fun t => t.wait == .run), since := since }
      else none

/-- A quad of the window of a held quad, with a lane that runs or may run, has a lower PC key (R227). Held quads wait, and count for nothing here. -/
def laggard (m : Mach) (g : Group) (rounds : Nat) (h : HeldQuad) : Bool :=
  match h.key with
  | none => false
  | some key =>
    let parked := (m.gangs.filter fun k => k.gid == g.gid && k.st == .parked).flatMap (·.lanes)
    (List.range g.quadSlots).any fun q => q / 16 == h.quad / 16
      && (quadKey rounds (g.threads.filter fun t => t.tid / 4 == q && t.runnable g && !parked.contains t.tid)).any fun x => placeLt x key

/-- The hold of a quad ends (R227). -/
def joinDue (m : Mach) (rounds : Nat) (h : HeldQuad) : Bool :=
  decide (64 ≤ rounds - h.since) || match m.group? h.gid with
    | some g => !laggard m g rounds h
    | none => true

/-- The next hold of a half to end: of those that are due, the one with the lowest key, since a quad that is let go may run and so hold those behind it
(log entry 9). -/
def nextJoin (m : Mach) (col core half : Nat) : Option HeldQuad :=
  let due := (joinHeld m col core half).filter (joinDue m ((m.core col core).rounds half))
  due.find? fun h => due.all fun x => match x.key, h.key with
    | some a, some b => !placeLt a b
    | _, _ => true

/-- The hold of a quad ends. -/
def endJoinOf (rounds : Nat) (m : Mach) (h : HeldQuad) : Mach :=
  m.onGroup h.gid fun g => { g with threads := g.threads.map fun t => if t.tid / 4 == h.quad then t.endJoin h.since rounds else t }

/-- Let go every quad of a half whose hold ends, one after the other. -/
def joinEnds (col core half : Nat) : Nat → Mach → Mach
  | 0, m => m
  | n + 1, m => match nextJoin m col core half with
    | some h => joinEnds col core half n (endJoinOf ((m.core col core).rounds half) m h)
    | none => m

/-- JOIN_HOLD_END: a hold ends when no quad of the window with a runnable lane has a lower key, or after 64 issue rounds (R227). -/
def execJoinHoldEnd (col core half : Nat) (s : State) : Host.Outcome State Fault Refusal := onMach (fun _ m => joinEnds col core half 512 m) s

/-- Yields that have lasted 64 issue rounds end (R71). -/
def yieldEnds (col core half : Nat) (m : Mach) : Mach :=
  let rounds := (m.core col core).rounds half
  m.onHalf col core half fun _ t => match t.yieldAt with
    | some r => if 64 ≤ rounds - r then { t with yieldAt := none } else t
    | none => t

/-- YIELD_END: a yield ends after 64 issue rounds, if no other gang's run has ended it (R71). -/
def execYieldEnd (col core half : Nat) (s : State) : Host.Outcome State Fault Refusal := onMach (fun _ m => yieldEnds col core half m) s

/-! ### Collective replay -/

/-- A hold is over: every trapping lane has returned or ended, and the lanes that wait may form a gang, if any is left (R142). -/
def replayDue (m : Mach) (g : Group) (h : Hold) : Bool :=
  h.trapped.isEmpty && g.stage == .resident && !g.frozen
    && (h.waiting.isEmpty || (decide (slotsUsed m g.column g.core (g.halves.getD h.win 0) < 16) && !h.waiting.any fun l => (m.busyQuads g.gid).contains (l / 4)))

/-- COLLECTIVE_REPLAY: every trapping lane has returned or ended, so the lanes that wait replay the run from word 0 as one gang (R142). -/
def execCollectiveReplay (gid idx : Nat) (s : State) : Host.Outcome State Fault Refusal :=
  onMach (fun _ m => match m.group? gid with
    | none => m
    | some g => match g.holds[idx]? with
      | none => m
      | some h =>
        if !replayDue m g h then m
        else if h.waiting.isEmpty then m.onGroup gid fun x => { x with holds := x.holds.eraseIdx idx }
        else
          let m := m.onGroup gid fun x => { x with
            holds := x.holds.eraseIdx idx
            threads := x.threads.map fun t => if h.waiting.contains t.tid then
              let t := t.holdCollective
              { t with wait := .run, c := { t.c with pc := h.pc, slot := 0, mid := false } } else t }
          m.addGang g (g.halves.getD h.win 0) h.win h.waiting h.hnd h.pc 0) s

end Sys2Proof.Machine
end

