-- ==== Sys2Proof/Machine/Sched.lean ====
section
/-! DEFINITION. Sched: the graph scheduler: launch (10 R214, R215, R218 to R220, 12 R282), admission (10 R216, R217, R221, R222, R230, 13
R301), pre-emption, image save and restore (10 R217, R239, 18 R340 to R342, R365). -/

namespace Sys2Proof.Machine

/-! ### Launch -/

/-- The root of the VF sets OVR bits 0 to 10 (R215). -/
def rootComplete (cfg : Cfg) (vf : Nat) (m : Mach) : Bool := bitsOf (readRcb cfg vf (m.vf vf).root m).ovr 0 11 == 2 ^ 11 - 1

/-- Launches of a node that wait for admission. -/
def queuedOf (m : Mach) (vf leaf node : Nat) : List Group :=
  m.groups.filter fun g => g.stage == .queued && g.env.vf == vf && g.env.leaf == leaf && g.env.node == node

/-- The records of a queue that launches waiting for admission will take (R220). -/
def reserved (m : Mach) (vf leaf node : Nat) : Nat := ((queuedOf m vf leaf node).map (·.recs)).sum

/-- The numbers of the records that a gate has passed, from HEAD on (R286). -/
def passedNos (b : Binding) (node : Nat) (h : QHdr) : List Nat :=
  ((List.range (b.seen node)).map fun i => (h.head + i) % 2 ^ 32).filter fun no => !b.gateDrop.contains (node, no)

/-- The records at the head of a queue that a launch may take: those a gate has passed (R220, R286), and no other launch takes. -/
def available (m : Mach) (vf leaf : Nat) (b : Binding) (node : Nat) (h : QHdr) : Nat :=
  (if h.gated then (passedNos b node h).length else h.count) - reserved m vf leaf node

/-- The number of the oldest record that a launch may take. -/
def oldestNo (m : Mach) (vf leaf : Nat) (b : Binding) (node : Nat) (h : QHdr) : Nat :=
  let k := reserved m vf leaf node
  if h.gated then (passedNos b node h).getD k h.head else (h.head + k) % 2 ^ 32

/-- Record `no` lies before a value of TAIL, modulo 2^32. -/
def before (no tail : Nat) : Bool := decide (0 < (tail + 2 ^ 32 - no) % 2 ^ 32) && decide ((tail + 2 ^ 32 - no) % 2 ^ 32 ≤ 2 ^ 31)

/-- The scheduler sees TAIL (R219): a value it has not seen is noted with its time; values that HEAD has passed are forgotten. -/
def Binding.noteTail (b : Binding) (node : Nat) (h : QHdr) (now : Nat) : Binding :=
  let live := b.tailAt.filter fun e => e.1 != node || before h.head e.2.1
  { b with tailAt := if h.count = 0 ∨ live.any fun e => e.1 == node && e.2.1 == h.tail then live else live ++ [(node, h.tail, now)] }

/-- The time at which the scheduler first saw record `no` of a node's queue. -/
def Binding.seenAt (b : Binding) (node no : Nat) : Option Nat := (b.tailAt.find? fun e => e.1 == node && before no e.2.1).map (·.2.2)

/-- The record area offset o of R220. -/
def Node.recOff (n : Node) : Nat := roundUp n.scratch 16

/-- Records that fit the initial window (R220). -/
def Node.fit (n : Node) : Nat := ((Res.ofWord n.initial).scr * 65536 - n.recOff) / n.recsz

/-- Records of a launch (R220). -/
def Node.take (n : Node) (a : Nat) : Nat := min a (min n.coalesce n.fit)

/-- Queue bindings of QBIND (Table 10.2): codes 0 to 9 bind. -/
def Node.queues (n : Node) : List RQueue :=
  ((List.range 7).zip n.qbind).filterMap fun x =>
    if bitsOf x.2 28 4 ≤ 9 then some { num := x.1, base := bitsOf x.2 0 23, qn := 2 ^ (bitsOf x.2 28 4 + 3) } else none

/-- Columns of a partition. -/
def partColumns (cfg : Cfg) (vf : Nat) : List Nat := (List.range 12).filter fun c => bitOf (cfg.part vf).twins (c / 2)

/-- The columns a binding allows (R318). -/
def Binding.columns (cfg : Cfg) (vf : Nat) (b : Binding) : Nat :=
  if b.cols = 0 then ((partColumns cfg vf).map fun c => 2 ^ c).sum else b.cols

/-- The pixel that thread `t` of a pixel group serves, for the records `ns` (R282). -/
def pixelOf (cfg : Cfg) (vf leaf node : Nat) (ns : List Nat) (m : Mach) (t : Nat) : Option Pixel :=
  match ns[t / 4]? with
  | none => none
  | some no =>
    let es := m.pix.filter fun p => p.vf == vf && p.leaf == leaf && p.node == node && p.record == no && !p.ready
    let own := es.find? fun p => p.lane == t % 4
    let nt := match es.head? with
      | some p => (readRaster cfg vf p.state m).nt
      | none => 8
    some { cov := own.isSome, ent := own.map (·.id), nt := nt, early := (es.head?.map (·.early)).getD false }

/-- A thread at launch (Table 01.1). -/
def newThread (tid entry : Nat) (exited : Bool) : Thread := { tid := tid, c := { pc := entry }, exited := exited }

/-- A group of a program node for `r` records, before its admission (R218, R220, Table 01.2). -/
def newGroup (cfg : Cfg) (vf leaf table node cols gidx : Nat) (n : Node) (r : Nat) (m : Mach) : Group :=
  let env := regionEnv cfg vf leaf m
    { table := table, node := node, code := n.code, entry := n.entry, seglen := n.seglen, emit := n.successors, role := n.role, recsz := n.recsz }
  { gid := m.nextGid, env := env, gidx := BitVec.ofNat 32 gidx, gsize := n.group, cols := cols, claim := Res.ofWord n.claim
    hold := Res.ofWord n.initial, queues := n.queues, since := m.etime, recs := r
    s := ([n.recOff, r, n.const % 2 ^ 32, n.const / 2 ^ 32, gidx, env.rid.toNat].zip (List.range 6)).foldl
      (fun s x => SMap.set 0 s x.2 (BitVec.ofNat 32 x.1)) []
    threads := (List.range n.group).map fun t => newThread t n.entry (n.role == 3 && decide (4 * r ≤ t)) }

/-- The launch of a group (R220). It waits for admission; its records stay in the queue until then (log entry 22). -/
def launchGroup (cfg : Cfg) (vf leaf node : Nat) (b : Binding) (n : Node) (a : Nat) (m : Mach) : Mach :=
  let no := SMap.get 0 b.launches node
  let g := newGroup cfg vf leaf b.table node (b.columns cfg vf) no n (n.take a) m
  let m := m.onBinding vf leaf fun x => { x with launches := SMap.set 0 x.launches node ((no + 1) % 2 ^ 32) }
  { m with groups := m.groups ++ [g], nextGid := m.nextGid + 1 }

/-- What a launch from a node uses: its queue, its head record and the RCBs of its leaf. -/
def touchLaunch (cfg : Cfg) (vf leaf node : Nat) (m : Mach) : Mach × Pages :=
  thenTouch (touchNode cfg vf leaf node m) fun m => thenTouch (touchRegion cfg vf leaf m) (touchRegion cfg vf (m.vf vf).root)

/-- A program node with records to launch: its binding, descriptor and their number. A root whose OVR bits 0 to 10 are not all set launches
nothing, and the driver is told (R215). -/
def launchable (cfg : Cfg) (vf leaf node : Nat) (m : Mach) : Mach × Option (Binding × Node × Nat) :=
  match headRecord cfg vf leaf node 0 m with
  | none => (m, none)
  | some (b, n, h) =>
    let a := available m vf leaf b node h
    if a = 0 then (m, none)
    else if !rootComplete cfg vf m then (m.raise vf 0, none)
    else if n.take a = 0 then (m, none)
    else (m, some (b, n, a))

/-- The scheduler looks at a node's queue (R219). -/
def lookTail (cfg : Cfg) (vf leaf node : Nat) (m : Mach) : Mach :=
  match headRecord cfg vf leaf node 0 m with
  | none => m
  | some (_, _, h) => m.onBinding vf leaf fun b => b.noteTail node h m.etime

/-- The oldest record that a launch may take has waited TIMEOUT µs since the scheduler saw it, which is within 2 µs of its append (R219, R220). -/
def timedOut (cfg : Cfg) (vf leaf node : Nat) (b : Binding) (n : Node) (m : Mach) : Bool :=
  match b.seenAt node (oldestNo m vf leaf b node (readQHdr cfg vf n.queue m)) with
  | some t => decide (t + n.timeout * 1000000 ≤ m.etime)
  | none => false

/-- GROUP_LAUNCH: a launch as soon as COALESCE records are pending (R220). -/
def execGroupLaunch (vf leaf node : Nat) (s : State) : Host.Outcome State Fault Refusal :=
  onMach (fun cfg m => whenReady (touchLaunch cfg vf leaf node m) fun m => match launchable cfg vf leaf node (lookTail cfg vf leaf node m) with
    | (m, none) => m
    | (m, some (b, n, a)) => if n.coalesce ≤ a then launchGroup cfg vf leaf node b n a m else m) s

/-- COALESCE_TIMEOUT: a launch once the oldest pending record has waited TIMEOUT µs (R220). -/
def execCoalesceTimeout (vf leaf node : Nat) (s : State) : Host.Outcome State Fault Refusal :=
  onMach (fun cfg m => whenReady (touchLaunch cfg vf leaf node m) fun m => match launchable cfg vf leaf node (lookTail cfg vf leaf node m) with
    | (m, none) => m
    | (m, some (b, n, a)) => if timedOut cfg vf leaf node b n m then launchGroup cfg vf leaf node b n a m else m) s

/-! ### Admission -/

/-- Quads of window `w` of a group. -/
def Group.winQuads (g : Group) (w : Nat) : Nat := min 16 (g.quadSlots - 16 * w)

/-- Windows of a group (R222). -/
def Group.windows (g : Group) : Nat := ceilDiv g.gsize 64

/-- Occupied quad slots of a half of a core. -/
def halfQuads (m : Mach) (col core half : Nat) : Nat :=
  ((m.groupsAt col core).flatMap fun g => (List.range g.windows).map fun w => if g.halves.getD w 0 == half then g.winQuads w else 0).sum

/-- Windows taken in ascending order, each to the half with fewer occupied quad slots, or to half 0 on a tie (R222): the halves, and the
slots then occupied. -/
def assignHalves (g : Group) : List Nat → Nat → Nat → List Nat × Nat × Nat
  | [], a, b => ([], a, b)
  | w :: ws, a, b =>
    if a ≤ b then let r := assignHalves g ws (a + g.winQuads w) b; (0 :: r.1, r.2)
    else let r := assignHalves g ws a (b + g.winQuads w); (1 :: r.1, r.2)

/-- The halves of a group on a core. -/
def halvesOn (m : Mach) (g : Group) (col core : Nat) : List Nat × Nat × Nat :=
  assignHalves g (List.range g.windows) (halfQuads m col core 0) (halfQuads m col core 1)

/-- A core can take a group: claim, group count, quad slots, safety, free queue numbers and tile entries (R178, R180, R230). A swapped-out
group keeps its queue numbers. -/
def coreFits (cfg : Cfg) (m : Mach) (g : Group) (col core : Nat) : Bool :=
  let gs := m.groupsAt col core
  let cap := capacity cfg g.env.vf
  let hs := halvesOn m g col core
  !m.retired col core && decide (gs.length < 64) && decide (hs.2.1 ≤ 256) && decide (hs.2.2 ≤ 256)
    && (g.cost g.claim).le cap && safeState cap (gs ++ [g])
    && g.queues.all (fun q => match m.binderAny col core q.num with | some x => x.gid == g.gid | none => true)
    && (g.stage != .saved || g.queues.isEmpty || g.core == core)
    && g.tiles.all fun t => (SMap.get {} (m.core col core).tiles t.1).st == .empty

/-- Claims, and the cores used, of the resident groups of a region's subtree with a new group (R216). -/
def budgetFits (cfg : Cfg) (m : Mach) (g : Group) (col core r : Nat) : Bool :=
  let rs := regionChain cfg g.env.vf r m
  let gs := (m.groups.filter fun x => x.onCore && x.env.vf == g.env.vf && x.env.path.contains r && x.gid != g.gid)
  let sum (f : Group → Nat) : Nat := ((gs ++ [g]).map f).sum
  let cores := ((gs.map fun x => (x.column, x.core)) ++ [(col, core)]).eraseDups.length
  let limit := if r = (m.vf g.env.vf).root then min (effective rs 0 0 (·.cores)) (48 * (partColumns cfg g.env.vf).length)
    else effective rs 0 0 (·.cores)
  decide (cores ≤ limit)
    && decide (sum (fun x => 32 * x.claim.reg * x.quadSlots) ≤ 1024 * effective rs 1 0 (·.regb))
    && decide (sum (fun x => x.claim.scr) ≤ effective rs 2 0 (·.scrb))
    && decide (sum (fun x => x.claim.msl) ≤ effective rs 4 0 (·.mslb))
    && decide (sum (fun x => x.claim.spc) ≤ effective rs 5 0 (·.spcb))

/-- A core can take a group within every budget. -/
def roomOn (cfg : Cfg) (m : Mach) (g : Group) (col core : Nat) : Bool :=
  coreFits cfg m g col core && g.env.path.all fun r => budgetFits cfg m g col core r

/-- A group placed on a core. A launch acts as an acquire of its threads: the core invalidates its L1 (R251, R262). -/
def Mach.place (m : Mach) (g : Group) (col core : Nat) : Mach :=
  let hs := (halvesOn m g col core).1
  let m := m.syncCore col core
  let m := if g.stage = .saved then m else m.l1Inv col core
  let c := m.core col core
  let m := { m with groups := m.groups.filter fun x => x.gid != g.gid }
  { m with groups := m.groups ++ [{ g with
      stage := if g.stage = .saved then .restoring else .resident
      column := col, core := core, halves := hs, since := m.etime
      threads := g.threads.map fun t => { t with lastIssue := c.rounds (hs.getD (t.tid / 64) 0) } }] }

/-- After an admission every successor has a resident group or room in the column for one (R221). -/
def successorsFit (cfg : Cfg) (m : Mach) (g : Group) (col : Nat) : Bool :=
  g.env.emit.all fun i =>
    let n := readNode cfg g.env.vf g.env.table i m
    n.kind != 0 || (m.groups.any fun x => x.stage == .resident && x.env.vf == g.env.vf && x.env.leaf == g.env.leaf && x.env.node == i)
      || (List.range 48).any fun c => roomOn cfg m (newGroup cfg g.env.vf g.env.leaf g.env.table i g.cols 0 n 0 m) col c

/-- The cores of a column in the order in which they are tried: those of unthrottled clusters first, each ascending (R301). -/
def coreOrder (m : Mach) (col : Nat) : List Nat :=
  let thr (c : Nat) : Bool := decide ((m.cluster col (c / 4)).cap < 352)
  ((List.range 48).filter fun c => !thr c) ++ (List.range 48).filter thr

/-- The core that a launch or a restore is admitted to, if any (R216, R221, R230, R301). -/
def admitCore (cfg : Cfg) (m : Mach) (g : Group) (col : Nat) : Option Nat :=
  if g.imageLen = 0 ∧ (imagePlaces m g).isEmpty then none
  else (coreOrder m col).find? fun c => roomOn cfg m g col c && successorsFit cfg (m.place g col c) g col

/-- The group's leaf runs: its partition's scheduler works and its domain is not stopped (R243). -/
def leafRuns (cfg : Cfg) (m : Mach) (g : Group) : Bool :=
  vfRuns cfg m g.env.vf && !((m.binding? g.env.vf g.env.leaf).any fun b => b.stopped)

/-- Pending launches and waiting restores of a column (R217). -/
def pendingIn (cfg : Cfg) (m : Mach) (col : Nat) : List Group :=
  m.groups.filter fun g => leafRuns cfg m g &&
    ((g.stage == .queued && bitOf g.cols col) || (g.stage == .saved && g.column == col))

/-- The key of a leaf in the turn of a column. -/
def leafKey (g : Group) : Nat := g.env.vf * 2 ^ 64 + g.env.leaf

/-- The first group of a list in an order. -/
def firstBy (lt : Group → Group → Bool) : List Group → Option Group
  | [] => none
  | g :: gs => match firstBy lt gs with
    | some x => if lt x g then some x else some g
    | none => some g

/-- A waiting restore that makes way for a pending launch of its priority: it was swapped out for such a launch while this one was pending (R217, R239).
Were it restored at once into the room it has left, no launch would ever be admitted, against R239 and R304 (DEDUCED, log entry 51). -/
def givesWay (ps : List Group) (g : Group) : Bool := g.gave && ps.any fun x => x.stage == .queued && decide (x.since ≤ g.since)

/-- The launch a column serves next (R217): the highest priority; in it waiting restores, the earliest swapped out first, then the leaves in
turn. -/
def nextPending (cfg : Cfg) (m : Mach) (col : Nat) : Option Group :=
  let ps := pendingIn cfg m col
  let top := (ps.map fun g => g.env.prio).foldl max 0
  let ps := ps.filter fun g => g.env.prio == top
  let saved := ps.filter fun g => g.stage == .saved && !givesWay ps g
  if !saved.isEmpty then firstBy (fun a b => decide (a.since < b.since)) saved
  else
    let last := SMap.get 0 m.turn col
    let ps := ps.filter fun g => g.stage == .queued
    let later := ps.filter fun g => decide (last < leafKey g)
    firstBy (fun a b => decide (leafKey a < leafKey b) || (leafKey a == leafKey b && decide (a.gid < b.gid)))
      (if later.isEmpty then ps else later)

/-- Take `k` records from the head of a queue: their numbers and their bytes, in queue order (R220). -/
def takeRecords (cfg : Cfg) (vf leaf node : Nat) (n : Node) : Nat → Mach → Mach × List (Nat × List Byte)
  | 0, m => (m, [])
  | k + 1, m =>
    let h := readQHdr cfg vf n.queue m
    let bytes := wordBytes (recWords cfg vf (h.recAddr n.recsz h.head) n.recsz m)
    let r := takeRecords cfg vf leaf node n k (consumeRecord cfg vf leaf node n m)
    (r.1, (h.head, bytes) :: r.2)

/-- The records of a launch that is admitted (R220): they go to window offset o, HEAD advances past them, and the threads of a pixel group take their
pixels (R282). -/
def fillLaunch (cfg : Cfg) (g : Group) (m : Mach) : Mach × Group :=
  let n := readNode cfg g.env.vf g.env.table g.env.node m
  match takeRecords cfg g.env.vf g.env.leaf g.env.node n g.recs m with
  | (m', rs) =>
    let ns := rs.map (·.1)
    ({ m' with smem := writeList m'.smem (scrKey g.gid n.recOff) (rs.flatMap (·.2)) }
    , { g with threads := g.threads.map fun t => { t with pixel := if n.role = 3 then pixelOf cfg g.env.vf g.env.leaf g.env.node ns m t.tid else none } })

/-- Structures ready for use, one after another. -/
def touchEach {α : Type} (f : α → Mach → Mach × Pages) : List α → Mach → Mach × Pages
  | [], m => (m, .ready)
  | x :: xs, m => thenTouch (f x m) (touchEach f xs)

/-- What the admission of a group uses: the RCBs of its leaf, the descriptors of its node and successors, and, for a launch, its queue and the records it
takes. -/
def touchAdmission (cfg : Cfg) (g : Group) (m : Mach) : Mach × Pages :=
  let vf := g.env.vf
  thenTouch (touchRegion cfg vf g.env.leaf m) fun m =>
    thenTouch (touchEach (fun i => touchStruct cfg vf (g.env.table + 128 * i) 128 false) (g.env.node :: g.env.emit) m) fun m =>
      let n := readNode cfg vf g.env.table g.env.node m
      if g.stage ≠ .queued then (m, .ready)
      else thenTouch (touchStruct cfg vf n.queue 64 true m) fun m =>
        let h := readQHdr cfg vf n.queue m
        touchEach (fun i => touchStruct cfg vf (h.recAddr n.recsz (h.head + i)) n.recsz false) (List.range g.recs) m

/-- Admit a group to a core: a launch takes its records, the image is reserved, tile entries and matrix words return to the core (R220, R230, R340,
R364). -/
def admitGroup (cfg : Cfg) (m : Mach) (g : Group) (col core : Nat) : Mach :=
  let (m, g) := if g.stage = .queued then fillLaunch cfg g m else (m, g)
  let ps := imagePlaces m g
  let p := m.pick (max 1 ps.length)
  let m := if g.imageLen = 0 then p.2 else m
  let g' := if g.imageLen = 0 then { g with image := ps.getD p.1 0, imageLen := imageSize g } else g
  let m := m.place { g' with tiles := [], mwords := [], gave := false } col core
  let m := m.onCore col core fun c => { c with
    tiles := g.tiles.foldl (fun ts (t : Nat × Tile) => SMap.set {} ts t.1 t.2) c.tiles
    mwords := c.mwords ++ g.mwords }
  if g.stage = .queued then { m with turn := SMap.set 0 m.turn col (leafKey g) } else m

/-! ### Choosing whom to swap out -/

/-- A word at which a gang waits (R239). -/
def isWaitWord (w : Word) : Bool :=
  (majorOf w == 0x36 && [2, 3, 7, 9].contains (subOf w)) || (majorOf w == 0x37 && [0, 3].contains (subOf w)) || (majorOf w == 0x3A && subOf w == 0)

/-- A gang that waits (R239): it stands at such a word, which has issued, or at a read of an empty register. -/
def gangWaits (k : Gang) : Bool := k.st == .parked && (if k.out then (k.run[k.slot]?).any isWaitWord else k.empty)

/-- A waiting group: every lane that has not exited waits (R239). -/
def groupWaits (m : Mach) (g : Group) : Bool :=
  g.threads.all fun t => t.exited || (match m.gangs.find? fun k => k.gid == g.gid && k.lanes.contains t.tid with
    | some k => gangWaits k
    | none => !t.runnable g)

/-- Resident groups of a column that may be swapped out; a frozen one may not (R325). -/
def swappable (m : Mach) (col : Nat) : List Group := m.groups.filter fun g => g.stage == .resident && !g.frozen && g.column == col

/-- A swap-out under way in the column. -/
def swapping (m : Mach) (col : Nat) : Bool := m.groups.any fun g => g.column == col && !g.frozen && (g.stage == .halting || g.stage == .saving)

/-- Lowest priority first and, within one priority, the most recently admitted first. -/
def lowLate (a b : Group) : Bool :=
  decide (a.env.prio < b.env.prio) || (a.env.prio == b.env.prio && (decide (b.since < a.since) || (b.since == a.since && decide (b.gid < a.gid))))

/-- The waiting group to swap out for a launch of priority `p` (R239). -/
def waitingVictim (m : Mach) (col p : Nat) : Option Group :=
  firstBy lowLate ((swappable m col).filter fun g => decide (g.env.prio ≤ p) && groupWaits m g)

/-- The group to swap out for a launch of priority `p` that cannot be admitted: a waiting one first (R239), then one of lower priority
(R217). -/
def victimFor (m : Mach) (col p : Nat) : Option Group :=
  (waitingVictim m col p).orElse fun _ => firstBy lowLate ((swappable m col).filter fun g => decide (g.env.prio < p))

/-- A pre-emption is requested for a launch of priority `p`. -/
def Mach.preempt (m : Mach) (gid p : Nat) : Mach :=
  m.onGroup gid fun g => { g with stage := .halting, since := m.etime, gave := g.env.prio == p }

/-- GROUP_ADMISSION: the launch the column serves next is admitted, or a group is swapped out for it; one at a time, so that it stops as
soon as the launch can be admitted (R217, R230, R239). -/
def execGroupAdmission (col : Nat) (s : State) : Host.Outcome State Fault Refusal :=
  onMach (fun cfg m => match nextPending cfg m col with
    | none => m
    | some g => whenReady (touchAdmission cfg g m) fun m => match admitCore cfg m g col with
      | some core => admitGroup cfg m g col core
      | none =>
        if swapping m col then m
        else match victimFor m col g.env.prio with
          | some v => m.preempt v.gid g.env.prio
          | none => m) s

/-- PREEMPTION_ON_QUANTUM: for a launch that cannot be admitted, and once no waiting group is left to swap out (R239), a group of its priority or a lower
one that has been resident for its QUANTUM is swapped out, the longest resident first (R217). -/
def execPreemptionOnQuantum (col : Nat) (s : State) : Host.Outcome State Fault Refusal :=
  onMach (fun cfg m => match nextPending cfg m col with
    | none => m
    | some g => whenReady (touchAdmission cfg g m) fun m =>
      if (admitCore cfg m g col).isSome || swapping m col || (waitingVictim m col g.env.prio).isSome then m
      else
        let gs := (swappable m col).filter fun x => decide (x.env.prio ≤ g.env.prio) && decide (x.since + x.env.quantum * 1000000 ≤ m.etime)
        match firstBy (fun a b => decide (a.since < b.since)) gs with
        | some v => m.preempt v.gid g.env.prio
        | none => m) s

/-! ### Halt, save, restore -/

/-- A load that a pre-emption abandons and replays (R172, R277). -/
def Acc.replays (a : Acc) : Bool :=
  match a.op with
  | .load _ _ => true
  | .scLoad _ => true
  | .suld _ _ _ _ => true
  | .tex _ _ _ _ _ => true
  | _ => false

/-- An access that a pre-emption drops: its word checks again after the restore, or it was only a hint (R170, R171). -/
def Acc.drops (a : Acc) : Bool :=
  match a.op with
  | .touch _ => true
  | .maint k => decide (2 ≤ k)
  | _ => false

/-- A write to a surface that waits on a refill (R277). -/
def refillWait (m : Mach) (g : Group) (a : Acc) : Bool :=
  match a.op with
  | .sust h _ _ _ _ => match m.handle g.env.vf h with
    | .ok s => (((accBlocks m g.env.vf a).map (·.2)).getD []).any s.away
    | _ => false
  | _ => false

/-- Accesses of a group on its core. -/
def groupAccs (m : Mach) (g : Group) : List Acc := (m.core g.column g.core).accs.filter fun a => a.gid == g.gid

/-- Nothing keeps a pre-emption from ending: issued stores and atomics are performed, running cards have finished (Table 18.9). -/
def haltReady (m : Mach) (g : Group) : Bool :=
  !g.closing && (groupAccs m g).all (fun a => a.replays || a.drops || a.isValue || refillWait m g a) && (m.core g.column g.core).cards.all fun k => k.gid != g.gid || !k.locked

/-- The gangs of a group are cut: a gang at its trailer retires it, one that has issued no word is dissolved, a collective run is to be
replayed from word 0, and any other stays with its slot and what its lanes have done (R36, R341, R365, log entry 9). -/
def cutGang (m : Mach) (k : Gang) (g : Group) : Mach :=
  match k.st with
  | .trailer => retireGang m k g
  | .formed => m.dropGang k.id
  | _ =>
    if k.cr then
      let rest := k.lanes.filter fun l => (g.thread? l).any fun t => !t.exited && !t.keep
      let m := m.onGroup g.gid fun x => { x with
        holds := x.holds ++ [{ pc := k.pc, hnd := k.hnd, half := k.half, win := k.win, trapped := [], waiting := rest }]
        threads := x.threads.map fun t =>
          if rest.contains t.tid then { t with wait := .hold, taken := none, c := { t.c with slot := 0, mid := false } }
          else if k.lanes.contains t.tid then { t with taken := none, keep := false } else t }
      m.dropGang k.id
    else m.onGang k.id fun x => { x with st := .parked, asked := false }

/-- Steps 1 to 3 of Table 18.9. -/
def haltForSwap (m : Mach) (g : Group) : Mach :=
  let m := m.rollbackIf g.gid fun _ => true
  let m := (m.gangs.filter fun k => k.gid == g.gid).foldl (fun m k => match m.group? g.gid with
    | some g => cutGang m k g
    | none => m) m
  let accs := groupAccs m g
  let m := (accs.filter Acc.isValue).foldl (fun m a => match a.op with
    | .value v => m.deliverValue a v
    | _ => m) m
  let keep := accs.filter fun a => a.replays || refillWait m g a
  let m := { m with monitors := m.monitors.filter fun x => x.gid != g.gid }
  let m := m.onCore g.column g.core fun c => { c with
    accs := c.accs.filter fun a => a.gid != g.gid
    waiters := c.waiters.filter fun w => w.gid != g.gid }
  m.onGroup g.gid fun x =>
    let x := x.spend.foldl Group.applyUni { x with spend := [] }
    { x with
      stage := .saving, rels := []
      threads := x.threads.map fun (t : Thread) => { t with
        c := t.c.landAll, joinAt := none, yieldAt := none
        replay := keep.filter fun a => a.tid == t.tid } }

/-- PREEMPTION_HALT: issue has stopped; speculation rolls back, loads not yet performed enter the replay list, and requests of `acq.b` and
`rel` are abandoned (R172, R341, R365). -/
def execPreemptionHalt (gid : Nat) (s : State) : Host.Outcome State Fault Refusal :=
  onMach (fun _ m => match m.group? gid with
    | some g => if g.stage = .halting ∧ !g.frozen ∧ haltReady m g then haltForSwap m g else m
    | none => m) s

/-- The matrix engine of a core stops the group's word in progress at a step boundary (Table 18.9, R364). -/
def haltEngine (cfg : Cfg) (g : Group) (m : Mach) : Mach :=
  let ws := (m.core g.column g.core).mwords
  let i := ws.findIdx fun w => w.gid == g.gid && w.started
  match ws[i]? with
  | none => m
  | some w => match stepMWord cfg g.column g.core g w m with
    | (m, w) => m.onCore g.column g.core fun c => { c with mwords := c.mwords.set i w }

/-- Step 4 of Table 18.9: every dirty byte of the L1 goes home, the image is written with STATUS.RESTORED set, and the holdings leave the core
(R36, R37, R341). -/
def saveGroup (cfg : Cfg) (m : Mach) (g : Group) : Mach :=
  let m := haltEngine cfg g (m.l1BackAll g.column g.core)
  let g := (m.group? g.gid).getD g
  let c := m.core g.column g.core
  let m := m.onCore g.column g.core fun c => { c with
    tiles := c.tiles.filter fun t => t.2.gid != g.gid
    mwords := c.mwords.filter fun w => w.gid != g.gid }
  let g' := { g with stage := .saved, since := m.etime, restored := true
                     tiles := c.tiles.filter fun t => t.2.gid == g.gid
                     mwords := c.mwords.filter fun w => w.gid == g.gid }
  let m := m.onGroup g.gid fun _ => g'
  bankerRecheck cfg g.column g.core (writeGroupImage cfg m g' m)

/-- IMAGE_SAVE; a fault in saving an image is a partition-level fault (R338, R341). -/
def execImageSave (gid : Nat) (s : State) : Host.Outcome State Fault Refusal :=
  onMach (fun cfg m => match m.group? gid with
    | some g =>
      if g.stage ≠ .saving then m
      else match touchImage cfg g true m with
        | (m, .wait) => m
        | (m, .ready) => saveGroup cfg m g
        | (m, .bad) => partitionStop cfg g.env.vf 0 m
    | none => m) s

/-- PREEMPTION_TIMEOUT: a pre-emption that a core not frozen has not met within 2 µs is a partition-level fault (R338). -/
def execPreemptionTimeout (gid : Nat) (s : State) : Host.Outcome State Fault Refusal :=
  onMach (fun cfg m => match m.group? gid with
    | some g => if g.stage = .halting ∧ !g.frozen ∧ g.since + 2000000 ≤ m.etime then partitionStop cfg g.env.vf 0 m else m
    | none => m) s

/-- Read an image back (R36, R342). -/
def loadGroup (cfg : Cfg) (m : Mach) (g : Group) : Mach :=
  let x := readVaMem cfg g.env.vf g.image (sectionOff g 8) m
  let g' := g.ofImage m x
  let replay := g.threads.flatMap fun t => t.replay.map fun (a : Acc) => { a with st := .ready, since := m.etime }
  let m := (loadWindow cfg g m).onCore g.column g.core fun c => { c with accs := c.accs ++ replay }
  let m := { m with gangs := m.gangs.map fun (k : Gang) => if k.gid == g.gid then { k with half := g.halves.getD k.win 0 } else k }
  m.onGroup g.gid fun _ => { g' with stage := .resident, threads := g'.threads.map fun t => { t with replay := [] } }

/-- GROUP_RESTORE: the image is read back, the new core invalidates its L1, and each thread's replay list issues before the thread does (R37,
R342). -/
def execGroupRestore (gid : Nat) (s : State) : Host.Outcome State Fault Refusal :=
  onMach (fun cfg m => match m.group? gid with
    | none => m
    | some g =>
      if g.stage ≠ .restoring then m
      else match touchImage cfg g false m with
        | (m, .wait) => m
        | (m, .bad) => partitionStop cfg g.env.vf 0 m
        | (m, .ready) => loadGroup cfg (m.l1Inv g.column g.core) g) s

end Sys2Proof.Machine
end

