-- ==== Sys2Proof/Machine/Driver.lean ====
section
/-! DEFINITION. Driver: what a VF's driver and the PF driver do: host accesses, the function's registers, binding, TSPLIT, surfaces from the
host side, the freeze log, function-level reset, partitions and their switching (17 R313 to R328, 18 R330, R343, R344). An event's
arguments stand for what the host writes; a 64-bit register takes effect at the write of its high word, so that one event is one
effect (R316, log entry 15). -/

namespace Sys2Proof.Machine

/-! ### Register writes of a function -/

/-- A register or TAIL write of a VF: dropped while READY is 0 (R328), kept while its time-shared partition is not loaded (R314). -/
def vfWrite (vf : Nat) (i : Instr) (f : State → State) (s : State) : Host.Outcome State Fault Refusal :=
  .next (if !(s.m.vf vf).ready then s
    else if (s.m.vf vf).away then { s with m := s.m.onVf vf fun r => { r with held := r.held ++ [i] } }
    else f s)

/-- A register write that touches only the machine. -/
def vfMach (vf : Nat) (i : Instr) (f : Cfg → Mach → Mach) (s : State) : Host.Outcome State Fault Refusal :=
  vfWrite vf i (fun s => { s with m := f s.cfg s.m }) s

/-- Virtual address of a BAR2 offset (R316). -/
def bar2Va (m : Mach) (vf off : Nat) : Nat := ((m.vf vf).winbase + off) % 2 ^ 57

/-- A host write of `n` bytes through BAR2, translated as a device access; the translation control page takes 4 or 8 bytes (R316,
R335). An access that cannot be translated is dropped. -/
def bar2Write (cfg : Cfg) (vf va n v : Nat) (m : Mach) : Mach :=
  if 65536 < va % 65536 + n then writeVaList cfg vf va (natBytes v 0 n) m
  else match devWrite cfg vf va n v m with
    | (m, .ok _) => m
    | (m, .error (.ctrl off)) => if va % n = 0 then ctrlWrite vf off n v m else m
    | (m, .error _) => m

/-- A host access to BAR2 is performed once the pages it names are translated (R316, R333). A read leaves only the marks of its walks. -/
def bar2Perform (cfg : Cfg) (vf : Nat) (a : HostAcc) (m : Mach) : Mach × Pages :=
  thenTouch (touchPages cfg vf a.write (pageVas a.va a.n) m) fun m => (if a.write then bar2Write cfg vf a.va a.n a.v m else m, .ready)

/-- A host access to BAR2; it waits behind those that wait, in the order of PCIe (R319). -/
def postBar2 (cfg : Cfg) (vf : Nat) (a : HostAcc) (m : Mach) : Mach :=
  let keep (m : Mach) : Mach := m.onVf vf fun r => { r with posted := r.posted ++ [a] }
  if (m.vf vf).posted ≠ [] then keep m
  else match bar2Perform cfg vf a m with
    | (m, .wait) => keep m
    | (m, .ready) => m

/-- The first host access that waits is tried again. -/
def hostRetry (vf : Nat) (s : State) : Host.Outcome State Fault Refusal :=
  onMach (fun cfg m => match (m.vf vf).posted with
    | [] => m
    | a :: rest => whenReady (bar2Perform cfg vf a m) fun m => m.onVf vf fun r => { r with posted := rest }) s

/-- A host access of `n` bytes to its own memory, or to an offset of BAR2, whose size the host has set (R313). -/
def hostAccess (cfg : Cfg) (vf : Nat) (host : Bool) (addr n : Nat) (write : Bool) (v : Nat) (m : Mach) : Mach :=
  if host then (if write then m.store (hostBase + addr) n v else m)
  else if 2 ^ (m.vf vf).bar2Bits < addr + n then m
  else postBar2 cfg vf { va := bar2Va m vf addr, n := n, write := write, v := v } m

/-- HOST_TAIL_WRITE: a posted write of TAIL. It reaches memory after the earlier writes of the function, which it releases, so that a
scheduler that sees it sees their records (R319); relaxed ordering releases nothing, which no later step can show (log entry 17). -/
def execHostTailWrite (vf : Nat) (host : Bool) (addr tail : Nat) (relaxed : Bool) (s : State) : Host.Outcome State Fault Refusal :=
  if host then onMach (fun cfg m => if addr % 4 = 0 then hostAccess cfg vf true addr 4 true tail m else m) s
  else vfMach vf (.hostTailWrite vf host addr tail relaxed)
    (fun cfg m => if addr % 4 = 0 then hostAccess cfg vf false addr 4 true tail m else m) s

/-- BAR2_ACCESS: offset o of BAR2 reaches WINBASE + o of the partition (R316). -/
def execBar2Access (vf : Nat) (host : Bool) (addr size : Nat) (write : Bool) (value : Nat) (s : State) : Host.Outcome State Fault Refusal :=
  onMach (fun cfg m => if host || (m.vf vf).ready then hostAccess cfg vf host addr size write value m else m) s

/-! ### Binding -/

/-- No group of the VF is resident. -/
def Mach.noneResident (m : Mach) (vf : Nat) : Bool := m.groups.all fun g => g.env.vf != vf || g.stage == .queued || g.stage == .saved

/-- ROOT_WRITE: takes effect only while no group of the partition is resident and no graph is bound (R317). -/
def execRootWrite (vf addr : Nat) (s : State) : Host.Outcome State Fault Refusal :=
  vfMach vf (.rootWrite vf addr)
    (fun _ m => if m.noneResident vf && (m.vf vf).binds.isEmpty then m.onVf vf fun r => { r with root := addr } else m.raise vf 0) s

/-- Remove, `k` times, the nodes with no successor left. What stays leads into a cycle. -/
def peelNodes (ns : List (Nat × List Nat)) : Nat → List (Nat × List Nat)
  | 0 => ns
  | k + 1 => peelNodes (ns.filter fun x => x.2.any fun j => ns.any fun y => y.1 == j) k

/-- The fields that a fixed-function node leaves 0 (R279, R288). -/
def Node.zeroRest (n : Node) : Bool :=
  n.role == 0 && n.group == 0 && n.coalesce == 0 && n.timeout == 0 && n.claim == 0 && n.initial == 0 && n.scratch == 0 && n.entry == 0
    && n.seglen == 0 && n.code == 0 && n.qbind.all fun w => w == 0

/-- The field rules of a fixed-function node (R279, R288 to R291). -/
def Node.fixedOk (cfg : Cfg) (vf : Nat) (ns : List Node) (m : Mach) (n : Node) : Bool :=
  match n.kind with
  | 0 => true
  | 1 => n.zeroRest && n.recsz == 64 && n.nemit == 1 && n.const % 64 == 0 && !rasterRefused (readRaster cfg vf n.const m)
  | 2 => n.zeroRest && n.recsz == 64 && n.nemit == 1 && n.const == 0
  | 3 => n.zeroRest && n.recsz == 16 && n.nemit == 1 && n.const == 0 && (ns[n.emit.headD 0]?).any fun x => x.recsz == 80
  | 4 => n.zeroRest && n.recsz == 16 && n.const % 64 == 0 && (readNet cfg vf n.const m).2.2
  | 5 => n.zeroRest && n.recsz == 64 && decide (n.nemit ≤ 1) && n.const == 0
  | _ => n.zeroRest && decide (16 ≤ n.recsz) && decide (n.recsz ≤ 256) && n.recsz % 16 == 0 && n.const == 0

/-- What a role lets a node emit to (R287). -/
def Node.roleOk (ns : List Node) (n : Node) : Bool :=
  let succ := n.successors.filterMap fun j => ns[j]?
  n.kind != 0 || (match n.role with
    | 1 => succ.all fun x => x.kind == 0
    | 2 => succ.all fun x => x.kind == 1
    | 3 => succ.all fun x => x.kind == 0 && x.role == 0
    | _ => true)

/-- The STATUS a BCTL write with GO ends with: 1, or the least code of Table 17.4 that applies (R318). -/
def bindStatus (cfg : Cfg) (vf table cols count : Nat) (m : Mach) : Nat :=
  let ns := (List.range count).map fun i => readNode cfg vf table i m
  let edges := (List.range count).zip (ns.map Node.successors)
  let programs := ns.filter fun n => n.kind == 0
  if !(peelNodes edges count).isEmpty then 2
  else if count = 0 ∨ ns.any (fun n => decide (16 < n.nemit) || n.successors.any fun j => decide (count ≤ j)) then 3
  else if ns.any fun n => decide (7 ≤ n.kind) then 4
  else if !ns.all (Node.fixedOk cfg vf ns m) then 5
  else if !ns.all (Node.roleOk ns) then 6
  else if (List.range 12).any fun c => bitOf cols c && !bitOf (cfg.part vf).twins (c / 2) then 7
  else if programs.any fun n => n.fit == 0 then 9
  else if programs.any fun n => n.role == 3 && (n.recsz != 64 || n.group != 4 * n.coalesce) then 10
  else 1

/-- BCTL_GO: the checks, and the binding of the graph at BGRAPH to the leaf at BLEAF; a leaf of a stopped domain takes a new binding and
runs again (R318, R243). -/
def execBctlGo (vf cols count : Nat) (s : State) : Host.Outcome State Fault Refusal :=
  vfMach vf (.bctlGo vf cols count) (fun cfg m =>
    let r := m.vf vf
    if r.bstatus = 8 then m
    else if (m.binding? vf r.bleaf).any fun b => !b.stopped then m.raise vf 0
    else
      let m := m.onVf vf fun r => { r with bcols := cols, bcount := count }
      let st := bindStatus cfg vf r.bgraph cols count m
      if st ≠ 1 then (m.onVf vf fun r => { r with bstatus := st }).raise vf 0
      else
        let path := regionPath cfg vf m treeDepth r.bleaf
        m.onVf vf fun r => { r with
          bstatus := 1
          stopped := r.stopped.filter fun x => !path.contains x
          binds := r.binds.filter (fun b => b.leaf != r.bleaf) ++ [{ leaf := r.bleaf, table := r.bgraph, count := count, cols := cols }] }) s

/-- Records pending in the queues of a binding's nodes; a HOST node's records are the host's (R318). -/
def pendingRecords (cfg : Cfg) (vf : Nat) (b : Binding) (m : Mach) : Bool :=
  (List.range b.count).any fun i =>
    let n := readNode cfg vf b.table i m
    n.kind != 6 && (readQHdr cfg vf n.queue m).count != 0

/-- BCTL_UNBIND: STATUS is 8 until the leaf has no resident group and no record pending; a leaf of a stopped domain is unbound with records pending
(R318). The step offers the event again while STATUS is 8. A group that is swapped out is not resident: it keeps its graph (log entry 22). -/
def execBctlUnbind (vf : Nat) (s : State) : Host.Outcome State Fault Refusal :=
  vfMach vf (.bctlUnbind vf) (fun cfg m =>
    let r := m.vf vf
    let leaf := r.unbind.getD r.bleaf
    match m.binding? vf leaf with
    | none => m.onVf vf fun r => { r with unbind := none, bstatus := 0 }
    | some b =>
      let busy := m.groups.any (fun g => g.env.vf == vf && g.env.leaf == leaf && g.onCore && (!b.stopped || g.haltable))
        || (!b.stopped && pendingRecords cfg vf b m)
      if busy then m.onVf vf fun r => { r with unbind := some leaf, bstatus := 8 }
      else
        m.onVf vf fun r => { r with unbind := none, bstatus := 0, binds := r.binds.filter fun b => b.leaf != leaf }) s

/-! ### TSPLIT -/

/-- TSPLITW: refused with TSPLITST 2 or 3, or a flush begins (R326). -/
def execTsplitw (vf value : Nat) (s : State) : Host.Outcome State Fault Refusal :=
  vfWrite vf (.tsplitw vf value) (fun s =>
    let scr := bitsOf value 0 1
    let tdir := bitsOf value 8 5
    let surf := bitsOf value 16 5
    let refuse (st : Nat) : State := { s with m := ((s.m.onVf vf fun r => { r with tsplitst := st }).raise vf 0).raise vf 7 }
    if (s.m.vf vf).tsplitst = 1 then s
    else if 20 < scr + tdir + surf then refuse 2
    else if scr ≠ (s.cfg.part vf).tsScr ∧ !s.m.noneResident vf then refuse 3
    else { s with
      m := s.m.onVf vf fun r => { r with tsplitst := 1 }
      cfg := s.cfg.onPart vf fun p => { p with tsNext := some (scr, tdir, surf) } }) s

/-- The partition's surfaces with the blocks that are to be spilled. -/
def spillList (vf : Nat) (m : Mach) : List (Surf × List Nat) :=
  (m.surfs.filter fun x => x.vf == vf).map fun x => (x, (List.range x.blocks).filter fun b => x.blockState b != 1)

/-- What the spill of a partition's surfaces uses. -/
def touchSpill (cfg : Cfg) (vf : Nat) (m : Mach) : Mach × Pages :=
  touchEach (fun (x : Surf × List Nat) => touchBlocks cfg x.1 x.2 true) (spillList vf m) m

/-- Spill every resident block of the partition's surfaces (R326, R343); a refill in progress is given up. -/
def spillAll (cfg : Cfg) (vf : Nat) (m : Mach) : Mach :=
  (spillList vf m).foldl (fun m x =>
    onBlocks cfg (fun s b m => if s.blockState b = 3 then setBlockState cfg s b 1 m else spillBlock cfg s b m) x.1 x.2 m) m

/-- Zero the tower-direct portions of the partition's columns. -/
def zeroTowers (cfg : Cfg) (vf : Nat) (m : Mach) : Mach :=
  (partColumns cfg vf).foldl (fun m c => { m with tmem := clearRange m.tmem (towKey c 0 0) (towKey (c + 1) 0 0) }) m

/-- TSPLIT_FLUSH_COMPLETE: each portion that changes is flushed, and TSPLIT takes its new value in every column (R326). A tower-direct portion
moves when SCR changes too (R264). -/
def execTsplitFlushComplete (vf : Nat) (s : State) : Host.Outcome State Fault Refusal :=
  .next (match (s.cfg.part vf).tsNext with
    | none => s
    | some (scr, tdir, surf) =>
      if (s.m.vf vf).tsplitst ≠ 1 then s
      else if (touchSpill s.cfg vf s.m).2 = .wait then { s with m := (touchSpill s.cfg vf s.m).1 }
      else
        let p := s.cfg.part vf
        let m := (touchSpill s.cfg vf s.m).1
        let m := if surf ≠ p.tsSurf ∨ tdir ≠ p.tsTdir ∨ scr ≠ p.tsScr then spillAll s.cfg vf m else m
        let m := if tdir ≠ p.tsTdir ∨ scr ≠ p.tsScr then zeroTowers s.cfg vf m else m
        { s with
          m := (m.onVf vf fun r => { r with tsplitst := 0 }).raise vf 7
          cfg := s.cfg.onPart vf fun p => { p with tsScr := scr, tsTdir := tdir, tsSurf := surf, tsNext := none } })

/-! ### Surfaces -/

/-- Some surface of the partition is live. -/
def Mach.liveSurf (m : Mach) (vf : Nat) : Bool := m.surfs.any fun x => x.vf == vf

/-- At the setting of the surface table TAG becomes 1 in every entry (R327). -/
def tagTable (cfg : Cfg) (vf : Nat) (m : Mach) : Mach :=
  let r := m.vf vf
  let m := { m with tags := m.tags.filter fun e => e.1 / 65536 != vf }
  if r.surftab = 0 then m
  else (List.range r.surfcnt).foldl (fun m i => writeVa cfg vf (r.surftab + 64 * i + 32) 4 65536 m) m

/-- SURFTAB_WRITE: the address is 4 KiB-aligned (R327). -/
def execSurftabWrite (vf addr : Nat) (s : State) : Host.Outcome State Fault Refusal :=
  vfMach vf (.surftabWrite vf addr) (fun cfg m =>
    if m.liveSurf vf then m.raise vf 0
    else tagTable cfg vf (m.onVf vf fun r => { r with surftab := addr / 4096 * 4096 })) s

/-- SURFCNT_WRITE: a log2 from 4 to 16; other values are ignored (Table 17.3, R327). -/
def execSurfcntWrite (vf value : Nat) (s : State) : Host.Outcome State Fault Refusal :=
  vfMach vf (.surfcntWrite vf value) (fun cfg m =>
    let k := bitsOf value 0 5
    if k < 4 ∨ 16 < k then m
    else if m.liveSurf vf then m.raise vf 0
    else tagTable cfg vf (m.onVf vf fun r => { r with surfcnt := 2 ^ k })) s

/-- RESSIZE_WRITE: a multiple of 2 MiB; a value below the bytes in use is ignored with ERR (R327). -/
def execRessizeWrite (vf size : Nat) (s : State) : Host.Outcome State Fault Refusal :=
  vfMach vf (.ressizeWrite vf size) (fun _ m =>
    let n := size / 2 ^ 21 * 2 ^ 21
    if n < ((m.vf vf).resused.map (·.2)).sum then m.raise vf 0 else m.onVf vf fun r => { r with ressize := n }) s

/-- HSCTL_GO: a host allocation begins; ignored while one is busy (R327). -/
def execHsctlGo (vf : Nat) (s : State) : Host.Outcome State Fault Refusal :=
  vfMach vf (.hsctlGo vf) (fun _ m => if (m.vf vf).hsstatus = 1 then m else m.onVf vf fun r => { r with hsstatus := 1 }) s

/-- HOST_ALLOCATION_DONE: allocation as `salloc` does it, under the region at HSRCB, which must lie in the partition's tree (R327, R191). -/
def execHostAllocationDone (vf : Nat) (s : State) : Host.Outcome State Fault Refusal :=
  onMach (fun cfg m =>
    let r := m.vf vf
    if r.hsstatus ≠ 1 ∨ r.away then m
    else
      let d := surfDesc r.hsdesc0.toNat r.hsdesc1.toNat r.hsdesc2.toNat
      let fin (st : Nat) (h : Word) (m : Mach) : Mach :=
        ((m.allocDone (hostReq vf)).onVf vf fun r => { r with hshandle := h, hsstatus := st }).raise vf 8
      if d.bad || !(regionPath cfg vf m treeDepth r.hsrcb).contains r.root then fin 3 0 m
      else match descTwin cfg vf none d with
        | none => fin 3 0 m
        | some twin =>
          if !m.allocTurn twin (hostReq vf) then m.allocWait twin (hostReq vf)
          else match allocSurface cfg vf r.hsrcb d.layers d.fmt d.height d.width twin d.seed m with
            | .null => fin 3 0 m
            | .wait m => m.allocWait twin (hostReq vf)
            | .ok m h => fin 2 h m) s

/-! ### Interrupt registers and other registers -/

/-- CAUSE_CLEAR: writing 1 clears a bit (R321). -/
def execCauseClear (vf mask : Nat) (s : State) : Host.Outcome State Fault Refusal :=
  vfMach vf (.causeClear vf mask) (fun _ m => m.onVf vf fun r => { r with cause := r.cause &&& ~~~BitVec.ofNat 10 mask }) s

/-- PFCAUSE_CLEAR (R322). -/
def execPfcauseClear (mask : Nat) (s : State) : Host.Outcome State Fault Refusal :=
  onMach (fun _ m => { m with pf := { m.pf with cause := m.pf.cause &&& ~~~BitVec.ofNat 7 mask } }) s

/-- PFVFERR_CLEAR (R322). -/
def execPfvferrClear (mask : Nat) (s : State) : Host.Outcome State Fault Refusal :=
  onMach (fun _ m => { m with pf := { m.pf with vferr := m.pf.vferr &&& ~~~BitVec.ofNat 64 mask } }) s

/-- The registers of Table 17.3 that only hold a value; BCTL without GO and UNBIND sets COLS and COUNT, but while STATUS is 8 (R318). -/
def Vf.write (r : Vf) (off v : Nat) : Vf :=
  match off with
  | 0x10 => { r with bgraph := v / 128 * 128 }
  | 0x18 => { r with bleaf := v }
  | 0x20 => if bitsOf v 14 2 = 0 ∧ r.bstatus ≠ 8 then { r with bcols := bitsOf v 16 12, bcount := bitsOf v 0 12 } else r
  | 0x40 => { r with resbase := v / 2 ^ 21 * 2 ^ 21 }
  | 0x50 => { r with hsdesc0 := BitVec.ofNat 32 v }
  | 0x54 => { r with hsdesc1 := BitVec.ofNat 32 v }
  | 0x58 => { r with hsdesc2 := BitVec.ofNat 32 v }
  | 0x60 => { r with hsrcb := v }
  | 0x84 => { r with cmask := BitVec.ofNat 10 v }
  | 0x88 => { r with hqmod := bitsOf v 0 16 }
  | 0x208 => { r with winbase := bitsOf v 0 57 / 2 ^ 30 * 2 ^ 30 }
  | _ => r

/-- The PF registers of Tables 18.1 and 19.1 that only hold a value. -/
def Fleet.write (f : Fleet) (off v : Nat) : Fleet :=
  match off with
  | 0x100 => { f with dumpbase := v / 4096 * 4096 }
  | 0x108 => { f with dumpsize := v }
  | 0x228 => { f with attbuf := v / 4096 * 4096 }
  | 0x3000 => { f with telbase := v / 4096 * 4096 }
  | 0x3008 => if bitsOf v 0 16 = 0 then f else { f with telper := bitsOf v 0 16 }
  | 0x3018 => { f with fwsrc := v / 4096 * 4096 }
  | 0x3020 => { f with fwlen := v % 2 ^ 32 }
  | 0x3030 => { f with repsel := bitsOf v 0 10 }
  | _ =>
    if 0x200 ≤ off ∧ off < 0x220 ∧ off % 4 = 0 then
      { f with nonce := ((List.range 8).map fun i => f.nonce.getD i 0).set ((off - 0x200) / 4) (BitVec.ofNat 32 v) }
    else f

/-- A PF register write; a TELPER of 0 is ignored with ERR (R348). -/
def pfWrite (off v : Nat) (s : State) : State :=
  if off = 0x84 then { s with m := { s.m with pf := { s.m.pf with cmask := BitVec.ofNat 7 v } } }
  else if off = 0x3008 ∧ bitsOf v 0 16 = 0 then { s with m := s.m.raisePf 0 }
  else if 0x2020 ≤ off ∧ off < 0x2800 ∧ off % 32 = 8 then
    { s with cfg := s.cfg.onPart ((off - 0x2000) / 32) fun p => { p with swimg := v / 2 ^ 21 * 2 ^ 21 } }
  else { s with fleet := s.fleet.write off v }

/-- The settings of a function's configuration space that rules name, which have no row of their own (log entry 15): behind the 64 KiB of BAR0, whether the
function's MSI-X is enabled (R322), and the size of BAR2 as a power of two, 1 GiB to 256 GiB (R313). -/
def Vf.configure (r : Vf) (off v : Nat) : Vf :=
  match off with
  | 0x10000 => { r with msix := bitOf v 0 }
  | 0x10008 => if 30 ≤ v ∧ v ≤ 38 then { r with bar2Bits := v } else r
  | _ => r

/-- REGISTER_WRITE: a register of a function's BAR0 that has no row of its own takes its value (R316, R348), or a setting of its configuration space;
function 0 is the PF. -/
def execRegisterWrite (vf offset value : Nat) (s : State) : Host.Outcome State Fault Refusal :=
  if vf = 0 then .next (pfWrite offset value s)
  else if 65536 ≤ offset then onMach (fun _ m => m.onVf vf fun r => r.configure offset value) s
  else vfMach vf (.registerWrite vf offset value) (fun _ m => m.onVf vf fun r => r.write offset value) s

/-- A freeze log entry's word `i` (Table 17.6). -/
def Frz.word (z : Frz) (i : Nat) : Nat :=
  match i with
  | 0 => 2 ^ 31 + z.kind * 2 ^ 28 + z.column * 2 ^ 24 + z.core * 2 ^ 16 + z.why * 2 ^ 8
  | 1 => z.rid.toNat
  | 2 => z.what % 2 ^ 32
  | _ => z.what / 2 ^ 32 % 2 ^ 32

/-- The word that a host read of BAR0 gives, at a 4-aligned offset (Table 17.3); other offsets read 0. -/
def Vf.word (r : Vf) (vf twins off : Nat) : Nat :=
  let lo (n : Nat) : Nat := n % 2 ^ 32
  let hi (n : Nat) : Nat := n / 2 ^ 32 % 2 ^ 32
  match off with
  | 0x00 => 2 ^ 31 + vf * 2 ^ 16 + twins
  | 0x08 => lo r.root
  | 0x0C => hi r.root
  | 0x10 => lo r.bgraph
  | 0x14 => hi r.bgraph
  | 0x18 => lo r.bleaf
  | 0x1C => hi r.bleaf
  | 0x20 => r.bstatus * 2 ^ 28 + r.bcols * 2 ^ 16 + r.bcount
  | 0x28 => lo r.surftab
  | 0x2C => hi r.surftab
  | 0x30 => r.surfcnt.log2
  | 0x38 => r.tsplitst
  | 0x40 => lo r.resbase
  | 0x44 => hi r.resbase
  | 0x48 => lo r.ressize
  | 0x4C => hi r.ressize
  | 0x50 => r.hsdesc0.toNat
  | 0x54 => r.hsdesc1.toNat
  | 0x58 => r.hsdesc2.toNat
  | 0x60 => lo r.hsrcb
  | 0x64 => hi r.hsrcb
  | 0x68 => r.hsstatus * 2
  | 0x6C => r.hshandle.toNat
  | 0x80 => r.cause.toNat
  | 0x84 => r.cmask.toNat
  | 0x88 => r.hqmod
  | 0x208 => lo r.winbase
  | 0x20C => hi r.winbase
  | _ =>
    if 0x100 ≤ off ∧ off < 0x200 ∧ off % 4 = 0 then
      match r.frzlog.find? fun e => e.1 == (off - 0x100) / 16 with
      | some e => e.2.word ((off - 0x100) / 4 % 4)
      | none => 0
    else 0

/-- A host read of a VF's BAR0: while READY is 0, IDENT reads 0 and everything else all ones (R316, R328). -/
def bar0Read (cfg : Cfg) (m : Mach) (vf off : Nat) : Nat :=
  if (m.vf vf).ready then (m.vf vf).word vf (cfg.part vf).twins off
  else if off = 0 then 0 else 2 ^ 32 - 1

/-! ### The freeze log -/

/-- The group of a freeze, or the issuer of a COPY node's request of the region it names. -/
def frzMaster (cfg : Cfg) (vf : Nat) (z : Frz) (m : Mach) : Option Group :=
  match m.group? z.gid with
  | some g => some g
  | none => ((m.vf vf).binds.find? fun b => (readRcb cfg vf b.leaf m).id == z.rid).map fun b => nodeIssuer cfg vf b.leaf m

/-- A tile fill whose offence is dropped cannot go on: it faults as one that stage 1 refuses (R180). -/
def faultFill (cfg : Cfg) (z : Frz) (m : Mach) : Mach :=
  let hit := (List.range 64).find? fun t => (fillingTile m z.column z.core t).any fun f => f.1.gid == z.gid && !f.2.1.faulted
  match hit.bind fun t => (fillingTile m z.column z.core t).map fun f => (t, f) with
  | none => m
  | some (t, g, x, away) =>
    let x := { x with faulted := true, pend := none }
    let m := if away then m.onGroup g.gid fun g => { g with tiles := SMap.set {} g.tiles t x } else m.setTile z.column z.core t x
    m.faultRecord cfg g z.column z.core 2 0 z.what 0 0 t

/-- A master resumes with its offence dropped (R325). -/
def discardOffence (cfg : Cfg) (z : Frz) (m : Mach) : Mach :=
  match z.kind with
  | 0 => match (m.group? z.gid).bind (·.offence) with
    | some a => if a.commit then m.settleBarrier a.gid else m.deliverValue a 0
    | none => m
  | 1 =>
    if z.src = 0 then
      match (m.core z.column z.core).kicks.findIdx? fun k => k.gid == z.gid && k.granted && k.prog.isSome && !k.faulted with
      | none => m
      | some i => match (m.core z.column z.core).kicks[i]?, m.group? z.gid with
        | some k, some g => faultReq cfg z.column z.core i k g 2 (k.prog.getD 0) z.what false m
        | _, _ => m
    else if z.src = 1 then faultFill cfg z m
    else m
  | _ => match (m.core z.column z.core).cards.findIdx? fun x => x.gid == z.gid && x.cmds.any CardCmd.outside with
    | some i => dropCard z.column z.core i m
    | none => m

/-- Two freezes name one master (R324). -/
def Frz.sameMaster (a b : Frz) : Bool := a.kind == b.kind && a.column == b.column && a.core == b.core && (a.kind != 0 || a.gid == b.gid)

/-- DISCARD: FRZCTL action 1; an entry not in use is ignored (R325). A master that another entry names stays frozen. -/
def execDiscard (vf entry : Nat) (s : State) : Host.Outcome State Fault Refusal :=
  vfMach vf (.discard vf entry) (fun cfg m =>
    match (m.vf vf).frzlog.find? fun e => e.1 == entry with
    | none => m
    | some (i, z) =>
      let m := discardOffence cfg z m
      let m := m.onVf vf fun r => { r with frzlog := r.frzlog.filter fun e => e.1 != i }
      let others := (m.vf vf).frzlog.map (·.2) ++ (m.vf vf).frzwait
      (if others.any z.sameMaster then m else m.unfreeze z).frzRefill vf 16) s

/-- STOP: FRZCTL action 2; the master's fault domain stops with SPACE as the cause, and the stop ends the freeze and clears the entry
(R325, R243). -/
def execStop (vf entry : Nat) (s : State) : Host.Outcome State Fault Refusal :=
  vfMach vf (.stop vf entry) (fun cfg m =>
    match (m.vf vf).frzlog.find? fun e => e.1 == entry with
    | none => m
    | some (_, z) => match frzMaster cfg vf z m with
      | some g => m.queueStop vf g.env.fdroot Cause.space.code
      | none => m) s

/-! ### Function-level reset -/

/-- Run a request on to byte `stop`, piece by piece; a piece that cannot be done ends it. -/
def engTo (cfg : Cfg) (g : Group) (r : Req) (eb : EngBuf) (stop : Nat) : Nat → Nat → Mach → Mach × Nat
  | 0, p, m => (m, p)
  | n + 1, p, m =>
    if stop ≤ p then (m, p)
    else match engRun cfg g r eb 1 p m with
      | (m, p', none) => if p' ≤ p then (m, p) else engTo cfg g r eb stop n p' m
      | (m, p', some _) => (m, p')

/-- Run a request on to its next 4 KiB (R328). -/
def engTo4K (cfg : Cfg) (g : Group) (r : Req) (eb : EngBuf) (p : Nat) (m : Mach) : Mach × Nat :=
  let stop := min r.total (roundUp p 4096)
  match r.prepare cfg g eb m with
  | (m, _, some _) => (m, p)
  | (m, eb, none) => engTo cfg g r eb stop (stop - p) p m

/-- Copy engines stop the blocks of a partition at the next 4 KiB of their current request (R328). -/
def stopCopies (cfg : Cfg) (vf : Nat) (m : Mach) : Mach :=
  let mine (m : Mach) (k : Kick) : Option Group := (m.group? k.gid).filter fun g => g.env.vf == vf
  let m := (m.cores.flatMap fun e => e.2.kicks).foldl (fun m k =>
    match mine m k, k.prog with
    | some g, some p =>
      let x := engTo4K cfg g (readReq m k.gid k.req) k.eb p m
      x.1.setReq k.gid k.req 0 x.2
    | _, _ => m) m
  { m with cores := m.cores.map fun (e : Nat × Core) => (e.1, { e.2 with kicks := e.2.kicks.filter fun k => (mine m k).isNone }) }

/-- So do the requests of its COPY nodes. -/
def stopCopyNodes (cfg : Cfg) (vf : Nat) (m : Mach) : Mach :=
  let m := ((m.cores.flatMap fun e => e.2.copyNodes).filter fun x => x.1 == vf).foldl (fun m x =>
    match headRecord cfg vf x.2.1 x.2.2 5 m with
    | none => m
    | some (b, _, h) =>
      let r := nodeReq cfg vf h m
      let p := b.done x.2.2
      if r.bad 0 || r.ssp || r.dsp || decide (dropMark ≤ p) then m else (engTo4K cfg (nodeIssuer cfg vf x.2.1 m) r (b.buf x.2.2) p m).1) m
  { m with cores := m.cores.map fun (e : Nat × Core) => (e.1, { e.2 with copyNodes := e.2.copyNodes.filter fun x => x.1 != vf }) }

/-- What waits for a partition goes: launches that wait for admission, marked stops, waits for pages. -/
def Mach.dropWaits (m : Mach) (vf : Nat) : Mach :=
  { m with
    groups := m.groups.filter fun g => !(g.env.vf == vf && g.stage == .queued)
    stops := m.stops.filter fun x => x.1 != vf
    pends := m.pends.filter fun p => p.vf != vf }

/-- FLR of the PF (R313), of which no rule says more: its cause registers return to reset (PRESUMED, log entry 53). -/
def pfReset (m : Mach) : Mach := { m with pf := { m.pf with cause := 0, cmask := 0, vferr := 0 } }

/-- FLR: the drain of a function-level reset begins: READY is 0, every group is halted as for a fatal stop, every freeze ends, and copy engines
stop (R328). A second one is ignored. -/
def execFlr (vf : Nat) (s : State) : Host.Outcome State Fault Refusal :=
  onMach (fun cfg m =>
    if vf = 0 then pfReset m
    else if !(m.vf vf).ready then m
    else
      let m := stopCopyNodes cfg vf m
      let m := m.onVf vf fun r => { r with ready := false, flrDrain := true, held := [], posted := [] }
      let m := (m.groups.filter fun g => g.env.vf == vf && g.haltable).foldl Mach.haltGroup m
      let m := stopCopies cfg vf m
      (m.dropWaits vf).endFreezes vf fun _ => true) s

/-- Bytes of one column in a switch image (R343). -/
def swimgColumn (p : Part) : Nat := 48 * p.tsTdir * 2 ^ 23 + 2 ^ 18

/-- The switch image of a partition as a range of device memory. -/
def swimgRange (cfg : Cfg) (vf : Nat) : Nat × Nat :=
  let p := cfg.part vf
  (p.swimg, p.swimg + (partColumns cfg vf).length * swimgColumn p)

/-- FLR_READY: once the drain is over, the tree is cleared, the surfaces are freed with TAG incremented, the banks of the partition (or its
saved image) are zeroed, TSPLIT, the BAR0 registers and CAUSE return to reset, and READY becomes 1 (R328). -/
def execFlrReady (vf : Nat) (s : State) : Host.Outcome State Fault Refusal :=
  .next (
    let r := s.m.vf vf
    if !r.flrDrain || s.m.groups.any (fun g => g.env.vf == vf) then s
    else
      let m := (s.m.surfs.filter fun x => x.vf == vf).foldl (fun m x => discardSurface s.cfg x m) (s.m.dropWaits vf)
      let m := { m with pix := m.pix.filter fun p => p.vf != vf }
      let m :=
        if r.away then { m with dmem := clearRange m.dmem (swimgRange s.cfg vf).1 (swimgRange s.cfg vf).2 }
        else
          let cols := partColumns s.cfg vf
          { (zeroTowers s.cfg vf m) with
            occ := m.occ.filter fun e => !cols.contains (e.1 / 65536)
            draws := m.draws.filter fun d => !bitOf (s.cfg.part vf).twins d.twin }
      { s with
        m := m.onVf vf fun r => { ready := true, away := r.away, turnStart := r.turnStart, invseq := r.invseq, inv2seq := r.inv2seq, served := r.served }
        cfg := s.cfg.onPart vf fun p => { p with tsScr := 1, tsTdir := 0, tsSurf := 0, tsNext := none } })

/-! ### Partitions -/

/-- Twins of a mask. -/
def twinCount (t : Nat) : Nat := ((List.range 6).filter fun i => bitOf t i).length

/-- An enable that R314 allows: 1, 2, 3 or 6 twins; disjoint from every other enabled partition, but for those that share exactly these
twins by time. -/
def enableOk (cfg : Cfg) (vf slice twins : Nat) : Bool :=
  [1, 2, 3, 6].contains (twinCount twins) && (List.range 64).all fun v =>
    let p := cfg.part v
    v == vf || !p.en || twins &&& p.twins == 0 || (slice != 0 && p.slice != 0 && p.twins == twins)

/-- Another partition of a time-shared set is loaded. -/
def setLoaded (cfg : Cfg) (m : Mach) (vf slice twins : Nat) : Bool :=
  slice != 0 && (List.range 64).any fun v =>
    v != vf && (cfg.part v).en && (cfg.part v).slice != 0 && (cfg.part v).twins == twins && !(m.vf v).away

/-- The loaded time of a partition, with its turn in progress (R314). -/
def loadedTime (m : Mach) (vf : Nat) : Nat := (m.vf vf).served + if (m.vf vf).away then 0 else m.etime - (m.vf vf).turnStart

/-- A partition that joins a time-shared set starts level with the loaded one: it makes up for no time before (log entry 54). -/
def startShare (cfg : Cfg) (m : Mach) (vf slice twins : Nat) : Nat :=
  match (List.range 64).find? fun v => v != vf && (cfg.part v).en && (cfg.part v).slice != 0 && (cfg.part v).twins == twins && !(m.vf v).away with
  | some v => loadedTime m v * slice / (cfg.part v).slice
  | none => 0

/-- PARTITION_DESCRIPTOR_WRITE: words 0 to 2 of Table 17.2. While EN is 1 only EN and the share fields can change, the shares at the next
1 µs boundary; an enable that breaks R314 is refused (R314, R315). -/
def execPartitionDescriptorWrite (vf w0 w1 w2 : Nat) (s : State) : Host.Outcome State Fault Refusal :=
  .next (
    let en := bitOf w0 31
    let slice := bitsOf w0 8 8
    let twins := bitsOf w0 0 6
    let p := s.cfg.part vf
    if vf = 0 ∨ 63 < vf then s
    else if p.en then
      { s with
        cfg := s.cfg.onPart vf fun p => { p with en := en, shareNext := some (bitOf w1 24, bitsOf w1 16 6, bitsOf w1 8 6, bitsOf w1 0 6),
                                                  shareAt := (s.m.etime / 1000000 + 1) * 1000000 }
        m := if en then s.m else s.m.onVf vf fun r => { r with ready := false } }
    else
      let ok := en && enableOk s.cfg vf slice twins
      let away := ok && setLoaded s.cfg s.m vf slice twins
      let m := if en && !ok then s.m.raisePf 0 else s.m
      { s with
        cfg := s.cfg.onPart vf fun p => { p with
          en := ok, slice := slice, twins := twins, capped := bitOf w1 24, cirsh := bitsOf w1 16 6, g7sh := bitsOf w1 8 6
          l2sh := bitsOf w1 0 6, quant := w2, shareNext := none }
        m := if ok then m.onVf vf fun r => { r with ready := s.fleet.booted && !s.fleet.halted && !r.flrDrain, away := away, turnStart := m.etime,
                                                        served := startShare s.cfg m vf slice twins }
             else m })

/-- SHARE_UPDATE: changed share fields take effect at the next 1 µs boundary (R315). -/
def execShareUpdate (vf : Nat) (s : State) : Host.Outcome State Fault Refusal :=
  .next (match (s.cfg.part vf).shareNext with
    | none => s
    | some (cap, cir, g7, l2) =>
      if s.m.etime < (s.cfg.part vf).shareAt then s
      else { s with cfg := s.cfg.onPart vf fun p => { p with capped := cap, cirsh := cir, g7sh := g7, l2sh := l2, shareNext := none } })

/-- S2ROOT_WRITE: only while EN is 0 (R330). -/
def execS2rootWrite (vf addr : Nat) (s : State) : Host.Outcome State Fault Refusal :=
  .next (if (s.cfg.part vf).en ∨ vf = 0 ∨ 63 < vf then s
    else { s with cfg := s.cfg.onPart vf fun p => { p with s2root := bitsOf addr 0 57 / 2 ^ 21 * 2 ^ 21 } })

/-! ### Partition switching -/

/-- Where a byte of a bank goes in the image of its column: tower, bank, offset; the counter area follows the tower-direct portion in the
banks of tower `t` (R343, log entry 16). -/
def imagePlace (per t tower bank off : Nat) : Nat :=
  tower * 32 * per + (if t < tower then 2 ^ 18 else 0) + bank * (per + if tower = t then 8192 else 0) + off

/-- The bytes of a column's tower-direct portions and counters that are not 0, at their places in its image. -/
def columnImage (m : Mach) (p : Part) (col : Nat) : List (Nat × Byte) :=
  let per := p.tsTdir * 2 ^ 18
  let t := m.counterTower col
  let towers := (m.tmem.filter fun e => e.1 / 2 ^ 32 / 48 == col).map fun e =>
    let off := e.1 % 2 ^ 32
    (imagePlace per t (e.1 / 2 ^ 32 % 48) (bankOf off) (off / 128 * 4 + off % 4), e.2)
  let counters := (m.occ.filter fun e => e.1 / 65536 == col).flatMap fun e =>
    (List.range 4).map fun i => (imagePlace per t t (e.1 % 65536 % 32) (per + e.1 % 65536 / 32 * 4 + i), BitVec.ofNat 8 (e.2 / 256 ^ i))
  towers ++ counters

/-- Put a byte of an image back. -/
def loadImageByte (p : Part) (col : Nat) (m : Mach) (a : Nat) (v : Byte) : Mach :=
  let per := p.tsTdir * 2 ^ 18
  let t := m.counterTower col
  let own := t * 32 * per ≤ a ∧ a < t * 32 * per + 32 * (per + 8192)
  let r := if own then a - t * 32 * per else if a < t * 32 * per then a else a - 2 ^ 18
  let tower := if own then t else r / (32 * per)
  let r := if own then r else r % (32 * per)
  let size := if own then per + 8192 else per
  let bank := r / size
  let off := r % size
  if off < per then { m with tmem := setByte m.tmem (towKey col tower (off / 4 * 128 + bank * 4 + off % 4)) v }
  else { m with occ := SMap.modify 0 m.occ (occKey col ((off - per) / 4 * 32 + bank)) fun n => n + v.toNat * 256 ^ ((off - per) % 4) }

/-- Write the switch image of a partition (R343). -/
def writeSwimg (cfg : Cfg) (vf : Nat) (m : Mach) : Mach :=
  let p := cfg.part vf
  let rg := swimgRange cfg vf
  let cols := partColumns cfg vf
  let m := { m with dmem := clearRange m.dmem rg.1 rg.2 }
  ((List.range cols.length).zip cols).foldl (fun m x =>
    (columnImage m p x.2).foldl (fun m b => { m with dmem := setByte m.dmem (rg.1 + x.1 * swimgColumn p + b.1) b.2 }) m) m

/-- Load the switch image of a partition into the banks of its columns (R343). -/
def loadSwimg (cfg : Cfg) (vf : Nat) (m : Mach) : Mach :=
  let p := cfg.part vf
  let rg := swimgRange cfg vf
  let cols := partColumns cfg vf
  let m := { (zeroTowers cfg vf m) with occ := m.occ.filter fun e => !cols.contains (e.1 / 65536) }
  (m.dmem.filter fun e => decide (rg.1 ≤ e.1) && decide (e.1 < rg.2)).foldl (fun m e =>
    loadImageByte p (cols.getD ((e.1 - rg.1) / swimgColumn p) 0) m ((e.1 - rg.1) % swimgColumn p) e.2) m

/-- The blocks, cards, draws and freezes of a partition leave the device with it (R343). -/
def Mach.putAway (cfg : Cfg) (vf : Nat) (m : Mach) : Mach :=
  let mine (gid : Nat) : Bool := (m.group? gid).any fun g => g.env.vf == vf
  let ks := m.cores.flatMap fun e => (e.2.kicks.filter fun k => mine k.gid).map fun k => (e.1, k)
  let cs := m.cores.flatMap fun e => (e.2.cards.filter fun k => mine k.gid).map fun k => (e.1, k)
  let zs := (m.vf vf).frzlog.map (·.2) ++ (m.vf vf).frzwait
  let flag (x kind : Nat) : Bool := zs.any fun z => z.kind == kind && z.column * 48 + z.core == x
  let cores := m.cores.map fun (e : Nat × Core) => (e.1, { e.2 with
    kicks := e.2.kicks.filter fun k => !mine k.gid
    cards := e.2.cards.filter fun k => !mine k.gid
    copyFrozen := e.2.copyFrozen && !flag e.1 1
    bankFrozen := e.2.bankFrozen && !flag e.1 2 })
  let here (d : Draw) : Bool := bitOf (cfg.part vf).twins d.twin
  let ds := m.draws.filter here
  ({ m with cores := cores, draws := m.draws.filter fun d => !here d }).onVf vf fun r =>
    { r with away := true, kicks := ks, cards := cs, draws := ds }

/-- They come back with it, and its turn starts (R343, R344). -/
def Mach.bringBack (vf : Nat) (m : Mach) : Mach :=
  let r := m.vf vf
  let m := r.kicks.foldl (fun m x => m.onCore (x.1 / 48) (x.1 % 48) fun c => { c with kicks := c.kicks ++ [x.2] }) m
  let m := r.cards.foldl (fun m x => m.onCore (x.1 / 48) (x.1 % 48) fun c => { c with cards := c.cards ++ [x.2] }) m
  let m := (r.frzlog.map (·.2) ++ r.frzwait).foldl (fun m z => match z.kind with
    | 1 => m.onCore z.column z.core fun c => { c with copyFrozen := true }
    | 2 => m.onCore z.column z.core fun c => { c with bankFrozen := true }
    | _ => m) m
  let m := { m with draws := m.draws ++ r.draws }
  let m := m.onVf vf fun r => { r with away := false, kicks := [], cards := [], draws := [], held := [], kept := [], turnStart := m.etime }
  r.kept.foldl (fun m b => m.raise vf b) m

/-- Step 1 of R343: every group is pre-empted; a frozen one is saved with its freeze once its accesses allow (R325). -/
def switchOut (cfg : Cfg) (vf : Nat) (m : Mach) : Mach :=
  (m.groups.filter fun g => g.env.vf == vf && g.stage == .resident).foldl (fun m g =>
    if !g.frozen then m.preempt g.gid (2 ^ 32)
    else if !haltReady m g then m
    else match touchImage cfg g true m with
      | (m, .wait) => m
      | (m, .bad) => partitionStop cfg vf 0 m
      | (m, .ready) => match (haltForSwap m g).group? g.gid with
        | some g' => saveGroup cfg (haltForSwap m g) g'
        | none => m) m

/-- Something of the partition still keeps its switch from step 4: a group on a core, a request begun and neither faulted nor frozen, or a card that
holds its locks, or a host access that waits. -/
def switchBusy (vf : Nat) (m : Mach) : Bool :=
  let mine (gid : Nat) : Bool := (m.group? gid).any fun g => g.env.vf == vf
  !(m.vf vf).posted.isEmpty || m.groups.any (fun g => g.env.vf == vf && g.onCore)
    || m.cores.any fun e => e.2.kicks.any (fun k => mine k.gid && k.prog.isSome && !k.faulted && !e.2.copyFrozen)
      || e.2.cards.any fun k => mine k.gid && k.locked

/-- The loaded partition's turn is over, or it has been disabled (R314, R343). -/
def turnOver (cfg : Cfg) (out : Nat) (m : Mach) : Bool :=
  !(cfg.part out).en || decide ((m.vf out).turnStart + (cfg.part out).quant * 1000000 ≤ m.etime)

/-- The partitions of a time-shared set that may have the next turn. -/
def turnSet (cfg : Cfg) (out : Nat) : List Nat :=
  (List.range 64).filter fun v => (cfg.part v).en && (cfg.part v).slice != 0 && (cfg.part v).twins == (cfg.part out).twins

/-- The partition that has the next turn: the one with the least loaded time for its SLICE, so that loaded time comes in proportion to SLICE (R314); among equals
one that waits, the first by number. The order of turns is the model's (DESIGN CHOICE, log entry 54). -/
def nextTurn (cfg : Cfg) (out : Nat) (m : Mach) : Option Nat :=
  let lt (a b : Nat) : Bool := decide (loadedTime m a * (cfg.part b).slice < loadedTime m b * (cfg.part a).slice)
  let vs := turnSet cfg out
  let least := vs.filter fun a => vs.all fun b => !lt b a
  (least.find? fun v => v != out).orElse fun _ => least.head?

/-- The turn of the loaded partition is over, and another of its set has the next (R314, R343); the same one, if it is due. -/
def switchable (cfg : Cfg) (out inn : Nat) (m : Mach) : Bool :=
  (cfg.part out).slice != 0 && !(m.vf out).away && turnOver cfg out m && nextTurn cfg out m == some inn && (inn == out || (m.vf inn).away)

/-- A tower of the partition cannot give all its banks to a switch image (R339, R354). -/
def swimgLost (cfg : Cfg) (vf : Nat) (m : Mach) : Bool :=
  (partColumns cfg vf).any fun c => (List.range 48).any fun t => !m.retired c t && m.towerBroken c t

/-- A partition's switch image lies in sectors with an uncorrectable error (R338, R357). -/
def imageLost (cfg : Cfg) (vf : Nat) (m : Mach) : Bool :=
  let r := swimgRange cfg vf
  m.lost.any fun x => decide (r.1 ≤ 64 * x) && decide (64 * x < r.2)

/-- A fault in a switch stops the partition being saved or loaded (R338, R344). -/
def switchFault (cfg : Cfg) (vf : Nat) (bad : Bool) (m : Mach) : Mach :=
  if bad && !(m.vf vf).stopped.contains (m.vf vf).root then partitionStop cfg vf 0x10 m else m

/-- Steps 2 to 5 of a switch. -/
def switchOver (cfg : Cfg) (out inn : Nat) (m : Mach) : Mach :=
  let m := switchFault cfg out (swimgLost cfg out m) m
  let m := (partColumns cfg out).foldl (fun m c => (List.range 48).foldl (fun m k => m.l1BackAll c k) m) (spillAll cfg out m)
  let m := Mach.putAway cfg out (writeSwimg cfg out m)
  let bad := imageLost cfg inn m
  switchFault cfg inn bad (Mach.bringBack inn (loadSwimg cfg inn m)).wakeMonitors

/-- PARTITION_SWITCH: step 1, and once everything of the outgoing partition has stopped, steps 2 to 5; then the kept writes and interrupts take
effect (R343, R344). The control processor offers the event again until the switch is done. A partition that is due again has another turn. -/
def execPartitionSwitch (out inn : Nat) (s : State) : Host.Outcome State Fault Refusal :=
  .next (
    if !switchable s.cfg out inn s.m then s
    else if inn = out then
      { s with m := s.m.onVf out fun r => { r with served := loadedTime s.m out, turnStart := s.m.etime } }
    else
      let m := switchOut s.cfg out s.m
      if switchBusy out m then { s with m := m }
      else if deviceBytes < (swimgRange s.cfg out).2 % 2 ^ 42 then { s with m := switchFault s.cfg out true m }
      else if (touchSpill s.cfg out m).2 = .wait then { s with m := (touchSpill s.cfg out m).1 }
      else
        { s with
          m := switchOver s.cfg out inn ((touchSpill s.cfg out m).1.onVf out fun r => { r with served := loadedTime m out })
          agenda := s.agenda ++ (s.m.vf inn).held })

end Sys2Proof.Machine
end

