-- ==== Sys2Proof/Machine/Fleet.lean ====
section
/-! DEFINITION. Fleet: what the fleet controller, firmware and the package control processor do: attestation (18 R346), telemetry, repair,
power limits, firmware update and domain membership (19 R348 to R363), module faults and resets, boot and power (18 R338, R345, R347, 17
R313, R329). -/

namespace Sys2Proof.Machine

/-! ### Attestation -/

/-- Write bytes to the host's memory; the writes are releases at system scope (R346, R349). -/
def hostBytes (m : Mach) (addr : Nat) (bs : List Byte) : Mach := ({ m with hmem := writeList m.hmem addr bs }).wakeMonitors

/-- ATTCTL_GO: ignored while a report is busy (R346). -/
def execAttctlGo (s : State) : Host.Outcome State Fault Refusal :=
  .next (if s.fleet.attctl = 1 then s else { s with fleet := { s.fleet with attctl := 1 } })

/-- The report: its contents in the order of R346, and their signature (log entries 8, 16). -/
def reportBytes (f : Fleet) (module : Nat) : List Byte :=
  let body := ((List.range 8).flatMap fun i => natBytes (f.nonce.getD i 0).toNat 0 4) ++ natBytes f.measure 0 64 ++ natBytes f.version 0 4
    ++ natBytes f.fuses.rollback 0 4 ++ natBytes module 0 4 ++ Config.identityKey f.measure
  body ++ Config.identitySign f.measure body

/-- ATTESTATION_REPORT: the report goes to ATTBUF, or is refused where ATTBUF is 0; ATTDONE is raised (R346, Table 17.7). -/
def execAttestationReport (s : State) : Host.Outcome State Fault Refusal :=
  .next (
    if s.fleet.attctl ≠ 1 then s
    else if s.fleet.attbuf = 0 then { s with m := s.m.raisePf 4, fleet := { s.fleet with attctl := 3 } }
    else
      { s with
        m := (hostBytes s.m s.fleet.attbuf (reportBytes s.fleet s.m.module)).raisePf 4
        fleet := { s.fleet with attctl := 2 } })

/-! ### Telemetry -/

/-- A counter of a column (Table 19.2); 14 and 15 are gauges of a sensor, which are free. -/
def counterBytes (m : Mach) (col i : Nat) : List Byte :=
  natBytes (if i = 14 ∨ i = 15 then Config.freeBits (m.free + col * 2 + i) else if i < 14 then SMap.get 0 m.tele (col * 32 + i) else 0) 0 8

/-- The sum of a counter over all columns. -/
def counterSum (m : Mach) (i : Nat) : Nat := ((List.range 12).map fun c => SMap.get 0 m.tele (c * 32 + i)).sum

/-- FOVF of a VF's root save area, or 0 for one that is not enabled (R349). -/
def fovf (cfg : Cfg) (m : Mach) (vf : Nat) : Nat := if (cfg.part vf).en then readVa cfg vf (rootSave cfg vf m + 8) 4 m else 0

/-- The body of a snapshot with the header fields after SEQ (R349). -/
def snapshotBytes (cfg : Cfg) (m : Mach) : List Byte :=
  let power := Config.freeBits (m.free + 64)
  natBytes 0 0 4 ++ natBytes m.etime 0 8 ++ natBytes m.module 0 2 ++ natBytes 0 0 2 ++ natBytes power 0 4 ++ natBytes 0 0 40
    ++ ((List.range 12).flatMap fun c => (List.range 32).flatMap fun i => counterBytes m c i)
    ++ natBytes (counterSum m 9) 0 8 ++ natBytes (counterSum m 10) 0 8
    ++ ((List.range 63).flatMap fun v => natBytes (fovf cfg m (v + 1)) 0 4) ++ natBytes 0 0 52

/-- TELEMETRY_SNAPSHOT: every TELPER ms of ETIME, unless TELBASE is 0: SEQ odd, the body, SEQ the next even value (R349). -/
def execTelemetrySnapshot (s : State) : Host.Outcome State Fault Refusal :=
  .next (
    let f := s.fleet
    if f.telbase = 0 ∨ f.telper = 0 ∨ !f.booted ∨ f.halted ∨ s.m.etime < f.telLast + f.telper * 1000000000 then s
    else
      let seq := (f.telseq + 2) % 2 ^ 32
      let m := hostBytes s.m f.telbase (natBytes (f.telseq + 1) 0 4)
      let m := hostBytes m (f.telbase + 4) (snapshotBytes s.cfg m)
      { s with
        m := { (hostBytes m f.telbase (natBytes seq 0 4)) with free := m.free + 65 }
        fleet := { f with telseq := seq, telLast := s.m.etime } })

/-! ### Power limits -/

/-- POWCAP_WRITE: 200 to 660 in units of 10 W; other values are ignored with ERR (R348, R358). Firmware then moves CAP, REFILL and admissions as it
sees fit: the events CAP_CHANGE and GROUP_ADMISSION. -/
def execPowcapWrite (value : Nat) (s : State) : Host.Outcome State Fault Refusal :=
  let v := bitsOf value 0 16
  .next (if 200 ≤ v ∧ v ≤ 660 then { s with fleet := { s.fleet with powcap := v } } else { s with m := s.m.raisePf 0 })

/-- REFMAX_WRITE: 32 to 64; other values are ignored with ERR. It takes effect at the next step of every cluster (R348, R359). -/
def execRefmaxWrite (value : Nat) (s : State) : Host.Outcome State Fault Refusal :=
  let v := bitsOf value 0 7
  .next (if 32 ≤ v ∧ v ≤ 64 then { s with fleet := { s.fleet with refmax := v } } else { s with m := s.m.raisePf 0 })

/-! ### Firmware -/

/-- What the check of a stage finds (R345): the index of its key, or a STATUS of Table 19.4. -/
def checkStage (f : Fuses) (img : List Byte) : Except Nat Nat :=
  match Config.slhVerify img with
  | none => .error 3
  | some key =>
    match (List.range 4).find? fun i => !f.revoked.getLsbD i && Config.keyHash i == Config.shake256 key 32 with
    | none => .error 3
    | some i => if Config.imageVersion img < f.rollback then .error 4 else .ok i

/-- GO: firmware reads and checks the image at FWSRC; ignored while STATUS is 1 (R360). -/
def execGo (s : State) : Host.Outcome State Fault Refusal :=
  .next (if s.fleet.fwstatus = 1 then s else { s with fleet := { s.fleet with fwstatus := 1, staging := true } })

/-- FIRMWARE_STAGE_DONE: an image that passes goes to the firmware store and runs from the next module reset; FWDONE is raised (R360). -/
def execFirmwareStageDone (s : State) : Host.Outcome State Fault Refusal :=
  .next (
    if !s.fleet.staging then s
    else
      let img := readList s.m.hmem s.fleet.fwsrc s.fleet.fwlen
      let f := { s.fleet with staging := false }
      { s with
        m := s.m.raisePf 3
        fleet := match checkStage f.fuses img with
          | .ok _ => { f with fwstatus := 2, staged := some img }
          | .error e => { f with fwstatus := e } })

/-- RAISE: the fused rollback counter rises to the running firmware's version (Table 19.4, R361). -/
def execRaise (s : State) : Host.Outcome State Fault Refusal :=
  .next { s with
    m := s.m.raisePf 3
    fleet := { s.fleet with fuses := { s.fleet.fuses with rollback := max s.fleet.fuses.rollback s.fleet.version } } }

/-- A REVOKE that firmware refuses: of the key that signed the running firmware, or one that leaves no key (R361). -/
def revokeRefused (f : Fleet) (key : Nat) : Bool :=
  (f.booted && key == f.signer) || (List.range 4).all fun i => i == key || f.fuses.revoked.getLsbD i

/-- REVOKE of key hash `key`, which RKEY names (R361). -/
def execRevoke (key : Nat) (s : State) : Host.Outcome State Fault Refusal :=
  let f := { s.fleet with rkey := key }
  .next { s with
    m := s.m.raisePf 3
    fleet := if revokeRefused f key then { f with fwstatus := 5, staging := false }
      else { f with fuses := { f.fuses with revoked := f.fuses.revoked ||| BitVec.ofNat 4 (2 ^ key) } } }

/-! ### Domain membership -/

/-- Some partition is enabled. -/
def Cfg.anyEnabled (c : Cfg) : Bool := (List.range 64).any fun v => (c.part v).en

/-- A change of the domain state; DOM is raised where DOMSTAT.IN, DUP or ALIGNED changes (Table 17.7). -/
def setDomain (f : Fleet) (s : State) : State :=
  let g := s.fleet
  { s with
    m := if f.domIn == g.domIn && f.domDup == g.domDup && f.domAligned == g.domAligned then s.m else s.m.raisePf 5
    fleet := f }

/-- JOIN: a DOMCFG write with JOIN 1 sets MODULE and starts the entry; ignored with ERR while a partition is enabled, and for a number above
9,215 (R362, R322). -/
def execJoin (number : Nat) (s : State) : Host.Outcome State Fault Refusal :=
  .next (
    if s.cfg.anyEnabled ∨ 9215 < number then { s with m := s.m.raisePf 0 }
    else
      let s := { s with m := { s.m with module := number } }
      setDomain { s.fleet with domJoin := true, domNum := number, domIn := false, domDup := false, domAligned := false } s)

/-- DOMAIN_LEAVE: a DOMCFG write with JOIN 0 (R362). -/
def execDomainLeave (s : State) : Host.Outcome State Fault Refusal :=
  .next (
    if s.cfg.anyEnabled then { s with m := s.m.raisePf 0 }
    else setDomain { s.fleet with domJoin := false, domIn := false, domDup := false, domAligned := false } s)

/-- DOMAIN_ENTRY: the fabric accepts the entry, or refuses it for a number that another member holds (R362). -/
def execDomainEntry (dup : Bool) (s : State) : Host.Outcome State Fault Refusal :=
  .next (
    if !s.fleet.domJoin || s.fleet.domIn || s.fleet.domDup then s
    else setDomain { s.fleet with domIn := !dup, domDup := dup } s)

/-- ETIME_ALIGNED: firmware has aligned ETIME with the member of the lowest number (R363); by how much is free. -/
def execEtimeAligned (s : State) : Host.Outcome State Fault Refusal :=
  .next (
    if !s.fleet.domIn then s
    else
      let m := s.m.passTo (s.m.etime + Config.freeTime s.m.free)
      let s := { s with m := { m with free := m.free + 1 } }
      setDomain { s.fleet with domAligned := true } s)

/-- REMOTE_ACCESS_TIMEOUT: an access to another module, outstanding for 100 µs, is reported as an uncorrectable error (R362, R339). -/
def execRemoteAccessTimeout (col core idx : Nat) (s : State) : Host.Outcome State Fault Refusal :=
  onMach (fun _ m => match m.accAt col core idx with
    | none => m
    | some (g, a) =>
      let pa := if a.path == .glob then m.tlbHit g.env.vf a.addr a.writes false else none
      if pa.any (fun p => decide (p < hostBase) && p / 2 ^ 42 % 2 ^ 14 != m.module) && decide (a.since + 100000000 ≤ m.etime) then
        (m.dropAcc col core idx).fatalAcc a .dataloss
      else m) s

/-! ### Storage errors -/

/-- A G7 channel that stays in service unrepaired meets an uncorrectable error in a sector, of free address, homed in its column (R357). -/
def g7Error (col : Nat) (s : State) : Host.Outcome State Fault Refusal :=
  onMach (fun _ m =>
    let (i, m) := m.freeBits 32
    let pa := i % (deviceBytes / 64) * 64
    if m.homeLost pa 64 || Config.homeColumn (m.devKey (m.module * 2 ^ 42 + pa) / 64) % 12 != col then m
    else { (m.count col 8) with lost := pa / 64 :: m.lost }) s

/-- A scrub finds such a sector in the memory of a partition: an error with no issuing master stops the partition that owns the storage (R339). -/
def scrubError (vf : Nat) (s : State) : Host.Outcome State Fault Refusal :=
  onMach (fun cfg m =>
    let (ipa, m) := m.freeBits 57
    match (walk2 cfg m vf ipa false).2 with
    | .ok a _ _ false => if m.homeLost a 1 then (m.count (Config.homeColumn (a / 64) % 12) 11).queuePartStop vf 0x10 else m
    | _ => m) s

/-! ### Repair -/

/-- VIA_GROUP_STATE_CHANGE: the group moves down Table 19.3: the repair table, SLOWMAP, and only then counter 3 or 4 (R351, R352). -/
def execViaGroupStateChange (col tower group : Nat) (s : State) : Host.Outcome State Fault Refusal :=
  onMach (fun _ m =>
    let st := m.via col tower group
    if 2 ≤ st ∨ 9 ≤ group then m
    else
      ({ m with
        vias := SMap.set 0 m.vias ((col * 48 + tower) * 9 + group) (st + 1)
        towers := SMap.modify {} m.towers (col * 48 + tower) fun t => { t with slow := t.slow ||| BitVec.ofNat 10 (2 ^ group) } }).count col (3 + st)) s

/-- The key of a channel. -/
def chanKey (col c : Nat) : Nat := col * 24 + c

/-- A channel narrows to half its data pins (R356). -/
def narrow (col c : Nat) (s : State) : State :=
  if SMap.get 0 s.fleet.chans (chanKey col c) = 0 then
    { s with
      m := s.m.count col 9
      fleet := { s.fleet with chans := SMap.set 0 s.fleet.chans (chanKey col c) 1 } }
  else s

/-- CHANNEL_NARROW (R356). -/
def execChannelNarrow (col channel : Nat) (s : State) : Host.Outcome State Fault Refusal := .next (narrow col channel s)

/-- CHANNEL_RETIRE: the channel's lines go to the column's spare; where the spare is in use, the channel narrows if half its pins work, and else
stays in service with SPAREOUT (R356, R357). -/
def execChannelRetire (col channel : Nat) (halfPins : Bool) (s : State) : Host.Outcome State Fault Refusal :=
  .next (
    let f := s.fleet
    if SMap.get 0 f.chans (chanKey col channel) = 2 then s
    else if SMap.get 0 f.spares col = 0 then
      { s with
        m := s.m.count col 10
        fleet := { f with spares := SMap.set 0 f.spares col 1, chans := SMap.set 0 f.chans (chanKey col channel) 2 } }
    else if halfPins then narrow col channel s
    else { s with m := s.m.raisePf 2, fleet := { f with spareout := SMap.set 0 f.spareout (chanKey col channel) 1 } })

/-! ### The PF's registers -/

/-- The word that a host read of the PF's BAR0 gives, at a 4-aligned offset: the boot error code, the cause registers (R322, R345), Tables 17.2, 18.1 and
19.1; other offsets read 0. -/
def pfWord (s : State) (off : Nat) : Nat :=
  let f := s.fleet
  let lo (n : Nat) : Nat := n % 2 ^ 32
  let hi (n : Nat) : Nat := n / 2 ^ 32 % 2 ^ 32
  let flag (b : Bool) (i : Nat) : Nat := if b then 2 ^ i else 0
  let sel (k : SMap Nat) (base n : Nat) : Nat := ((List.range n).map fun i => SMap.get 0 k (base + i) * 4 ^ i).sum
  let g7 := sel f.chans (f.repsel % 16 * 24) 24
  match off with
  | 0x0000 => f.bootError
  | 0x0080 => s.m.pf.cause.toNat
  | 0x0084 => s.m.pf.cmask.toNat
  | 0x0088 => lo s.m.pf.vferr.toNat
  | 0x008C => hi s.m.pf.vferr.toNat
  | 0x0100 => lo f.dumpbase
  | 0x0104 => hi f.dumpbase
  | 0x0108 => lo f.dumpsize
  | 0x010C => hi f.dumpsize
  | 0x0220 => f.attctl * 2
  | 0x0228 => lo f.attbuf
  | 0x022C => hi f.attbuf
  | 0x3000 => lo f.telbase
  | 0x3004 => hi f.telbase
  | 0x3008 => f.telper
  | 0x3010 => f.powcap
  | 0x3014 => f.refmax
  | 0x3018 => lo f.fwsrc
  | 0x301C => hi f.fwsrc
  | 0x3020 => f.fwlen
  | 0x3024 => f.rkey * 2 ^ 9 + f.fwstatus * 16
  | 0x3028 => flag f.domJoin 31 + f.domNum
  | 0x302C => flag f.domIn 31 + flag f.domDup 30 + flag f.domAligned 29 + s.m.module
  | 0x3030 => f.repsel
  | 0x3034 => sel s.m.vias ((f.repsel % 16 * 48 + f.repsel / 16) * 9) 9
  | 0x3038 => lo g7
  | 0x303C => hi g7
  | _ =>
    if off % 4 ≠ 0 then 0
    else if 0x200 ≤ off ∧ off < 0x220 then (f.nonce.getD ((off - 0x200) / 4) 0).toNat
    else if 0x1010 ≤ off ∧ off < 0x1400 then
      let p := s.cfg.part ((off - 0x1000) / 16)
      match (off - 0x1000) / 4 % 4 with
      | 0 => flag p.en 31 + p.slice * 2 ^ 8 + p.twins
      | 1 => flag p.capped 24 + p.cirsh * 2 ^ 16 + p.g7sh * 2 ^ 8 + p.l2sh
      | 2 => p.quant
      | _ => 0
    else if 0x2020 ≤ off ∧ off < 0x2800 then
      let v := (off - 0x2000) / 32
      match (off - 0x2000) % 32 with
      | 0x00 => lo (s.cfg.part v).s2root
      | 0x04 => hi (s.cfg.part v).s2root
      | 0x08 => lo (s.cfg.part v).swimg
      | 0x0C => hi (s.cfg.part v).swimg
      | 0x18 => (s.m.vf v).inv2seq
      | _ => 0
    else 0

/-! ### Module fault, module reset, boot, power -/

/-- A section of a module dump: type, column, core and its bytes, which begin with version, entry size and entry count (R347). -/
structure Section where
  type : Nat
  col : Nat
  core : Nat
  bytes : List Byte
  deriving DecidableEq, Repr

/-- A section of `n` entries of `size` bytes. -/
def Section.of (type col core size n : Nat) (entries : List Byte) : Section :=
  { type := type, col := col, core := core, bytes := bytesOf32 [1, size, n, 0] ++ entries }

/-- A tile entry as 32 bytes: state and descriptor (Table 18.7). -/
def tileBytes (x : Tile) : List Byte := bytesOf32 (tileWords x)

/-- A freeze log entry (Table 17.6). -/
def frzBytes (z : Frz) : List Byte := bytesOf32 ((List.range 4).map z.word)

/-- A surface table entry, from the device's own copy (Table 12.1). -/
def surfBytes (x : Surf) : List Byte :=
  natBytes 0 0 20 ++ bytesOf32 [x.spillb, x.height * 65536 + x.width, x.twin * 2 ^ 24 + x.layers * 2 ^ 16 + x.fmt * 2 ^ 8
    , x.tag * 65536 + x.st * 2 ^ 14 + x.seed, x.resBlocks] ++ natBytes x.rcb 0 8 ++ natBytes x.back 0 8 ++ natBytes x.smap 0 8

/-- The queue headers of a function's bound graphs, 32 bytes each (R219). -/
def queueBytes (cfg : Cfg) (m : Mach) (vf : Nat) : List (List Byte) :=
  (m.vf vf).binds.flatMap fun b => (List.range b.count).map fun i =>
    let a := (readNode cfg vf b.table i m).queue
    (List.range 32).map fun j => BitVec.ofNat 8 (readVa cfg vf (a + j) 1 m)

/-- The head and tail of the remote queues bound on a core, 4 bytes each (R178). -/
def pointerBytes (m : Mach) (i : Nat) : List (List Byte) :=
  (m.groups.filter fun g => g.onCore && g.column * 48 + g.core == i).flatMap fun g => g.queues.map fun q => bytesOf32 [q.head % 2 ^ 32, q.tail % 2 ^ 32]

/-- The sections of a module dump whose contents this manual lays out: tile tables, queues, surface tables, group images and freeze logs. Firmware may add
others (log entry 16). -/
def dumpSections (cfg : Cfg) (m : Mach) : List Section :=
  let vfs := (List.range 64).filter fun v => (cfg.part v).en
  let whole := 2 ^ 32 - 1
  (m.cores.filter fun e => !e.2.tiles.isEmpty).map (fun e =>
      Section.of 3 (e.1 / 48) (e.1 % 48) 32 64 ((List.range 64).flatMap fun t => tileBytes (e.2.tile t)))
    ++ (vfs.filter fun v => !(queueBytes cfg m v).isEmpty).map (fun v =>
      Section.of 4 whole whole 32 (queueBytes cfg m v).length (queueBytes cfg m v).flatten)
    ++ (((m.groups.map fun g => g.column * 48 + g.core).eraseDups.filter fun i => !(pointerBytes m i).isEmpty).map fun i =>
      Section.of 4 (i / 48) (i % 48) 8 (pointerBytes m i).length (pointerBytes m i).flatten)
    ++ (vfs.filter m.liveSurf).map (fun v =>
      let ss := m.surfs.filter fun x => x.vf == v
      Section.of 5 whole whole 64 ss.length (ss.flatMap surfBytes))
    ++ (m.groups.filter Group.haltable).map (fun g =>
      { type := 7, col := g.column, core := g.core
        bytes := readList ((imageBytes m g).foldl (fun d x => writeList d x.1 x.2) []) 0 (imageSize g) })
    ++ (vfs.filter fun v => !(m.vf v).frzlog.isEmpty).map fun v =>
      Section.of 8 whole whole 16 (m.vf v).frzlog.length ((m.vf v).frzlog.flatMap fun e => frzBytes e.2)

/-- The first sections that fit in a number of bytes, each with its directory entry. -/
def fitSections : Nat → List Section → List Section
  | _, [] => []
  | room, x :: xs => if 32 + x.bytes.length ≤ room then x :: fitSections (room - 32 - x.bytes.length) xs else []

/-- Bytes of the region that firmware keeps for a module dump (R347). -/
def dumpRegion : Nat := 2 ^ 30

/-- The header, directory and sections of a module dump, cut to `room` bytes at a whole section (R347, Tables 18.10, 18.11). -/
def moduleDump (cfg : Cfg) (m : Mach) (room : Nat) : List Byte :=
  let all := dumpSections cfg m
  let ss := fitSections (room - 64) all
  let n := ss.length
  let start := 64 + 32 * n
  let vfs := ((List.range 64).map fun v => if (cfg.part v).en then 2 ^ v else 0).sum
  let total := start + (ss.map fun x => x.bytes.length).sum
  let dir := (List.range n).flatMap fun i => match ss[i]? with
    | none => []
    | some x => bytesOf32 [x.type, x.col, x.core, 0] ++ natBytes (start + ((ss.take i).map fun y => y.bytes.length).sum) 0 8
      ++ natBytes x.bytes.length 0 8
  bytesOf32 [0x4D424744, 1, 3, 0] ++ natBytes m.etime 0 8 ++ natBytes vfs 0 8 ++ bytesOf32 [n, if n < all.length then 1 else 0] ++ natBytes total 0 8 ++ natBytes 0 0 16
    ++ dir ++ ss.flatMap (·.bytes)

/-- A module dump with all its sections fits in a number of bytes. -/
def dumpFits (cfg : Cfg) (m : Mach) (size : Nat) : Bool :=
  decide (64 + ((dumpSections cfg m).map fun x => 32 + x.bytes.length).sum ≤ size)

/-- MODULE_FAULT: every unit halts, the module dump goes to DUMPBASE, or to the region that firmware keeps where DUMPSIZE is too small, MODFAULT is raised
when it is complete, and every VF reads READY 0 until the PF resets the module (R338, R347). -/
def execModuleFault (s : State) : Host.Outcome State Fault Refusal :=
  .next (
    if s.fleet.halted then s
    else
      let fits := s.fleet.dumpbase != 0 && dumpFits s.cfg s.m s.fleet.dumpsize
      let bytes := moduleDump s.cfg s.m (if fits then s.fleet.dumpsize else dumpRegion)
      let m := if fits then hostBytes s.m s.fleet.dumpbase bytes else s.m
      { s with
        m := ({ m with vfs := m.vfs.map fun (e : Nat × Vf) => (e.1, { e.2 with ready := false }) }).raisePf 1
        fleet := { s.fleet with halted := true, dumpKeep := if fits then s.fleet.dumpKeep else bytes } })

/-- The stages that boot verifies: the image in the firmware store, or those of power-up (R345, R360, log entry 8). -/
def Fleet.stages (f : Fleet) : List (List Byte) :=
  match f.staged with
  | some img => [img]
  | none => Config.bootStages

/-- Verify and measure stages in order; a stage that fails halts boot with an error code, whose value is free (R345). -/
def bootFrom (code : Nat) : List (List Byte) → Fleet → Fleet
  | [], f => { f with booted := true, bootError := 0 }
  | img :: rest, f => match checkStage f.fuses img with
    | .error _ => { f with booted := false, bootError := code }
    | .ok key => bootFrom code rest
        { f with
          measure := Config.shake256 (natBytes f.measure 0 64 ++ natBytes (Config.shake256 img 64) 0 64) 64
          version := Config.imageVersion img
          signer := key }

/-- Boot from a state that holds nothing running. -/
def bootState (s : State) : State :=
  { s with
    m := { s.m with free := s.m.free + 1 }
    fleet := bootFrom (Config.freeBits s.m.free % 2 ^ 32) s.fleet.stages { s.fleet with powered := true, halted := false, measure := 0 } }

/-- BOOT: at power-up the control processor verifies and measures each firmware stage (R345). -/
def execBoot (s : State) : Host.Outcome State Fault Refusal :=
  .next (if s.fleet.powered && (s.fleet.booted || s.fleet.bootError != 0) then s else bootState s)

/-- A tower in which two groups are lost, and one retired already (R354). -/
def towerGone (m : Mach) (col tower : Nat) : Bool :=
  m.retired col tower || decide (2 ≤ ((List.range 9).filter fun g => m.via col tower g == 2).length)

/-- The repair table at a module reset: the core below a tower that cannot rebuild is retired: SLOWMAP 0x3FF, its groups in state 2
(R354). -/
def retireTowers (m : Mach) : Mach :=
  (List.range (12 * 48)).foldl (fun m i =>
    if towerGone m (i / 48) (i % 48) then
      { m with
        towers := SMap.set {} m.towers i { slow := 0x3FF }
        vias := (List.range 9).foldl (fun v g => SMap.set 0 v (i * 9 + g) 2) m.vias }
    else m) m

/-- What is left of the machine when every unit starts again: device memory and the host's, the repair table, and the counter of free values. Sectors with an
uncorrectable error are served again until a channel meets the next (log entry 55). -/
def Mach.restart (m : Mach) : Mach :=
  { free := m.free, etime := m.etime, dmem := m.dmem, hmem := m.hmem, vias := m.vias, towers := m.towers, nextGid := m.nextGid
    nextGang := m.nextGang, nextPix := m.nextPix }

/-- What is left of the fleet state: fuses, channels, the firmware store and a dump that firmware keeps. -/
def Fleet.restart (f : Fleet) : Fleet :=
  { fuses := f.fuses, staged := f.staged, chans := f.chans, spares := f.spares, spareout := f.spareout, dumpKeep := f.dumpKeep }

/-- MODULE_RESET: counts return to 0, towers are retired, and the module boots again (R338, R350, R354, R360). -/
def execModuleReset (s : State) : Host.Outcome State Fault Refusal :=
  .next (
    if !s.fleet.powered then s
    else bootState { m := retireTowers s.m.restart, cfg := {}, fleet := s.fleet.restart, agenda := s.agenda })

/-- POWER_REMOVAL: all state is lost (R329), but for what is not the module's: the host's memory and what it will do; and for the repair
table, the fuses and the firmware store, from which a module powers up (R351, R345). -/
def execPowerRemoval (s : State) : Host.Outcome State Fault Refusal :=
  .next {
    m := { hmem := s.m.hmem, vias := s.m.vias, towers := s.m.towers, free := s.m.free }
    fleet := { s.fleet.restart with powered := false, dumpKeep := [] }
    agenda := s.agenda }

/-- Rates in units of 100 MT/s (R313). -/
def linkRates : List Nat := [25, 50, 80, 160, 320, 640, 1280]

/-- LINK_TRAINING: the link trains in flit mode only, at a rate of R313 and a width of 16, 8, 4 or 1 lanes; otherwise it does not train. -/
def execLinkTraining (rate width : Nat) (flit : Bool) (s : State) : Host.Outcome State Fault Refusal :=
  .next { s with fleet :=
    if flit && linkRates.contains rate && [1, 4, 8, 16].contains width then { s.fleet with linkUp := true, linkRate := rate, linkWidth := width }
    else { s.fleet with linkUp := false } }

end Sys2Proof.Machine
end

