-- ==== Sys2Proof/Machine/Dispatch.lean ====
section
/-! DEFINITION. Dispatch: the meaning of each instruction, one arm per constructor. -/

namespace Sys2Proof.Machine

/-- Run one instruction. -/
def exec (i : Instr) (s : State) : Host.Outcome State Fault Refusal :=
  match i with
  | .nop f => Sys2Proof.Machine.execNop f s
  | .exit f q => Sys2Proof.Machine.execExit f q s
  | .trap f q => Sys2Proof.Machine.execTrap f q s
  | .trapret f q => Sys2Proof.Machine.execTrapret f q s
  | .bkpt f q => Sys2Proof.Machine.execBkpt f q s
  | .yield f q => Sys2Proof.Machine.execYield f q s
  | .iadd f q => Sys2Proof.Machine.execIadd f q s
  | .isub f q => Sys2Proof.Machine.execIsub f q s
  | .imul f q => Sys2Proof.Machine.execImul f q s
  | .imulhU f q => Sys2Proof.Machine.execImulhU f q s
  | .imulhS f q => Sys2Proof.Machine.execImulhS f q s
  | .iabs f q => Sys2Proof.Machine.execIabs f q s
  | .imad f q => Sys2Proof.Machine.execImad f q s
  | .iminS f q => Sys2Proof.Machine.execIminS f q s
  | .imaxS f q => Sys2Proof.Machine.execImaxS f q s
  | .iminU f q => Sys2Proof.Machine.execIminU f q s
  | .imaxU f q => Sys2Proof.Machine.execImaxU f q s
  | .and f q => Sys2Proof.Machine.execAnd f q s
  | .or f q => Sys2Proof.Machine.execOr f q s
  | .xor f q => Sys2Proof.Machine.execXor f q s
  | .andn f q => Sys2Proof.Machine.execAndn f q s
  | .shl f q => Sys2Proof.Machine.execShl f q s
  | .shr f q => Sys2Proof.Machine.execShr f q s
  | .sar f q => Sys2Proof.Machine.execSar f q s
  | .rot f q => Sys2Proof.Machine.execRot f q s
  | .popc f q => Sys2Proof.Machine.execPopc f q s
  | .clz f q => Sys2Proof.Machine.execClz f q s
  | .bfxU f q => Sys2Proof.Machine.execBfxU f q s
  | .bfxS f q => Sys2Proof.Machine.execBfxS f q s
  | .bfi f q => Sys2Proof.Machine.execBfi f q s
  | .iaddW f q => Sys2Proof.Machine.execIaddW f q s
  | .isubW f q => Sys2Proof.Machine.execIsubW f q s
  | .iaddi f q => Sys2Proof.Machine.execIaddi f q s
  | .andi f q => Sys2Proof.Machine.execAndi f q s
  | .ori f q => Sys2Proof.Machine.execOri f q s
  | .xori f q => Sys2Proof.Machine.execXori f q s
  | .shli f q => Sys2Proof.Machine.execShli f q s
  | .shri f q => Sys2Proof.Machine.execShri f q s
  | .sari f q => Sys2Proof.Machine.execSari f q s
  | .muli f q => Sys2Proof.Machine.execMuli f q s
  | .brev f q => Sys2Proof.Machine.execBrev f q s
  | .lea f q => Sys2Proof.Machine.execLea f q s
  | .li f q => Sys2Proof.Machine.execLi f q s
  | .liu f q => Sys2Proof.Machine.execLiu f q s
  | .lhi f q => Sys2Proof.Machine.execLhi f q s
  | .mov f q => Sys2Proof.Machine.execMov f q s
  | .sel f q => Sys2Proof.Machine.execSel f q s
  | .setx f q => Sys2Proof.Machine.execSetx f q s
  | .movxR f q => Sys2Proof.Machine.execMovxR f q s
  | .movxW f q => Sys2Proof.Machine.execMovxW f q s
  | .win f q => Sys2Proof.Machine.execWin f q s
  | .icmpS f q => Sys2Proof.Machine.execIcmpS f q s
  | .icmpU f q => Sys2Proof.Machine.execIcmpU f q s
  | .pand f q => Sys2Proof.Machine.execPand f q s
  | .por f q => Sys2Proof.Machine.execPor f q s
  | .pxor f q => Sys2Proof.Machine.execPxor f q s
  | .pandn f q => Sys2Proof.Machine.execPandn f q s
  | .kpack f q => Sys2Proof.Machine.execKpack f q s
  | .kunpack f q => Sys2Proof.Machine.execKunpack f q s
  | .kset f q => Sys2Proof.Machine.execKset f q s
  | .smov f q => Sys2Proof.Machine.execSmov f q s
  | .sli f q => Sys2Proof.Machine.execSli f q s
  | .sadd f q => Sys2Proof.Machine.execSadd f q s
  | .ssub f q => Sys2Proof.Machine.execSsub f q s
  | .sand f q => Sys2Proof.Machine.execSand f q s
  | .sor f q => Sys2Proof.Machine.execSor f q s
  | .sshl f q => Sys2Proof.Machine.execSshl f q s
  | .sshr f q => Sys2Proof.Machine.execSshr f q s
  | .smovv f q => Sys2Proof.Machine.execSmovv f q s
  | .vmovs f q => Sys2Proof.Machine.execVmovs f q s
  | .sld f q => Sys2Proof.Machine.execSld f q s
  | .scmp f q => Sys2Proof.Machine.execScmp f q s
  | .bra f q => Sys2Proof.Machine.execBra f q s
  | .call f q => Sys2Proof.Machine.execCall f q s
  | .jmpr f q => Sys2Proof.Machine.execJmpr f q s
  | .ret f q => Sys2Proof.Machine.execRet f q s
  | .fadd f q => Sys2Proof.Machine.execFadd f q s
  | .fsub f q => Sys2Proof.Machine.execFsub f q s
  | .fmul f q => Sys2Proof.Machine.execFmul f q s
  | .fmin f q => Sys2Proof.Machine.execFmin f q s
  | .ffma f q => Sys2Proof.Machine.execFfma f q s
  | .fmax f q => Sys2Proof.Machine.execFmax f q s
  | .fclass f q => Sys2Proof.Machine.execFclass f q s
  | .frndNe f q => Sys2Proof.Machine.execFrndNe f q s
  | .frndZ f q => Sys2Proof.Machine.execFrndZ f q s
  | .frndP f q => Sys2Proof.Machine.execFrndP f q s
  | .frndM f q => Sys2Proof.Machine.execFrndM f q s
  | .f2iS f q => Sys2Proof.Machine.execF2iS f q s
  | .f2iU f q => Sys2Proof.Machine.execF2iU f q s
  | .i2fS f q => Sys2Proof.Machine.execI2fS f q s
  | .i2fU f q => Sys2Proof.Machine.execI2fU f q s
  | .f2h f q => Sys2Proof.Machine.execF2h f q s
  | .h2f f q => Sys2Proof.Machine.execH2f f q s
  | .f2bf f q => Sys2Proof.Machine.execF2bf f q s
  | .bf2f f q => Sys2Proof.Machine.execBf2f f q s
  | .f2e4 f q => Sys2Proof.Machine.execF2e4 f q s
  | .e42f f q => Sys2Proof.Machine.execE42f f q s
  | .f2e5 f q => Sys2Proof.Machine.execF2e5 f q s
  | .e52f f q => Sys2Proof.Machine.execE52f f q s
  | .fcmp f q => Sys2Proof.Machine.execFcmp f q s
  | .hadd2 f q => Sys2Proof.Machine.execHadd2 f q s
  | .hmul2 f q => Sys2Proof.Machine.execHmul2 f q s
  | .hfma2 f q => Sys2Proof.Machine.execHfma2 f q s
  | .bfma2 f q => Sys2Proof.Machine.execBfma2 f q s
  | .dadd f q => Sys2Proof.Machine.execDadd f q s
  | .dmul f q => Sys2Proof.Machine.execDmul f q s
  | .dfma f q => Sys2Proof.Machine.execDfma f q s
  | .d2f f q => Sys2Proof.Machine.execD2f f q s
  | .f2d f q => Sys2Proof.Machine.execF2d f q s
  | .d2i f q => Sys2Proof.Machine.execD2i f q s
  | .i2d f q => Sys2Proof.Machine.execI2d f q s
  | .dsubf f q => Sys2Proof.Machine.execDsubf f q s
  | .dmin f q => Sys2Proof.Machine.execDmin f q s
  | .dmax f q => Sys2Proof.Machine.execDmax f q s
  | .dcmp f q => Sys2Proof.Machine.execDcmp f q s
  | .rcp f q => Sys2Proof.Machine.execRcp f q s
  | .rsq f q => Sys2Proof.Machine.execRsq f q s
  | .sqrt f q => Sys2Proof.Machine.execSqrt f q s
  | .ex2 f q => Sys2Proof.Machine.execEx2 f q s
  | .lg2 f q => Sys2Proof.Machine.execLg2 f q s
  | .sin f q => Sys2Proof.Machine.execSin f q s
  | .cos f q => Sys2Proof.Machine.execCos f q s
  | .tanh f q => Sys2Proof.Machine.execTanh f q s
  | .hmix f q => Sys2Proof.Machine.execHmix f q s
  | .ld f q => Sys2Proof.Machine.execLd f q s
  | .st f q => Sys2Proof.Machine.execSt f q s
  | .lds f q => Sys2Proof.Machine.execLds f q s
  | .sts f q => Sys2Proof.Machine.execSts f q s
  | .ldt f q => Sys2Proof.Machine.execLdt f q s
  | .stt f q => Sys2Proof.Machine.execStt f q s
  | .atomAdd f q => Sys2Proof.Machine.execAtomAdd f q s
  | .atomMinS f q => Sys2Proof.Machine.execAtomMinS f q s
  | .atomMinU f q => Sys2Proof.Machine.execAtomMinU f q s
  | .atomMaxS f q => Sys2Proof.Machine.execAtomMaxS f q s
  | .atomMaxU f q => Sys2Proof.Machine.execAtomMaxU f q s
  | .atomAnd f q => Sys2Proof.Machine.execAtomAnd f q s
  | .atomOr f q => Sys2Proof.Machine.execAtomOr f q s
  | .atomXor f q => Sys2Proof.Machine.execAtomXor f q s
  | .exch f q => Sys2Proof.Machine.execExch f q s
  | .cas f q => Sys2Proof.Machine.execCas f q s
  | .atomRinc f q => Sys2Proof.Machine.execAtomRinc f q s
  | .atomRdec f q => Sys2Proof.Machine.execAtomRdec f q s
  | .atomFadd f q => Sys2Proof.Machine.execAtomFadd f q s
  | .fence f q => Sys2Proof.Machine.execFence f q s
  | .fenceT f q => Sys2Proof.Machine.execFenceT f q s
  | .bar f q => Sys2Proof.Machine.execBar f q s
  | .barS f q => Sys2Proof.Machine.execBarS f q s
  | .pbinit f q => Sys2Proof.Machine.execPbinit f q s
  | .pbarrive f q => Sys2Proof.Machine.execPbarrive f q s
  | .pbexpect f q => Sys2Proof.Machine.execPbexpect f q s
  | .pbwait f q => Sys2Proof.Machine.execPbwait f q s
  | .pbtest f q => Sys2Proof.Machine.execPbtest f q s
  | .waitc f q => Sys2Proof.Machine.execWaitc f q s
  | .ldsc f q => Sys2Proof.Machine.execLdsc f q s
  | .stsc f q => Sys2Proof.Machine.execStsc f q s
  | .atomscAdd f q => Sys2Proof.Machine.execAtomscAdd f q s
  | .atomscCas f q => Sys2Proof.Machine.execAtomscCas f q s
  | .cflush f q => Sys2Proof.Machine.execCflush f q s
  | .cinv f q => Sys2Proof.Machine.execCinv f q s
  | .prefetch f q => Sys2Proof.Machine.execPrefetch f q s
  | .acqB f q => Sys2Proof.Machine.execAcqB f q s
  | .acqT f q => Sys2Proof.Machine.execAcqT f q s
  | .rel f q => Sys2Proof.Machine.execRel f q s
  | .qput f q => Sys2Proof.Machine.execQput f q s
  | .qget f q => Sys2Proof.Machine.execQget f q s
  | .qfree f q => Sys2Proof.Machine.execQfree f q s
  | .tdef f q => Sys2Proof.Machine.execTdef f q s
  | .tstat f q => Sys2Proof.Machine.execTstat f q s
  | .kick f q => Sys2Proof.Machine.execKick f q s
  | .bankjob f q => Sys2Proof.Machine.execBankjob f q s
  | .suld f q => Sys2Proof.Machine.execSuld f q s
  | .sust f q => Sys2Proof.Machine.execSust f q s
  | .tex f q => Sys2Proof.Machine.execTex f q s
  | .texl f q => Sys2Proof.Machine.execTexl f q s
  | .texg f q => Sys2Proof.Machine.execTexg f q s
  | .zexp f q => Sys2Proof.Machine.execZexp f q s
  | .cexp f q => Sys2Proof.Machine.execCexp f q s
  | .occ f q => Sys2Proof.Machine.execOcc f q s
  | .salloc f q => Sys2Proof.Machine.execSalloc f q s
  | .sfree f q => Sys2Proof.Machine.execSfree f q s
  | .mma f q => Sys2Proof.Machine.execMma f q s
  | .msca f q => Sys2Proof.Machine.execMsca f q s
  | .mzero f q => Sys2Proof.Machine.execMzero f q s
  | .mload f q => Sys2Proof.Machine.execMload f q s
  | .mdrain f q => Sys2Proof.Machine.execMdrain f q s
  | .mdrainAdd f q => Sys2Proof.Machine.execMdrainAdd f q s
  | .mstat f q => Sys2Proof.Machine.execMstat f q s
  | .emit f q => Sys2Proof.Machine.execEmit f q s
  | .emitT f q => Sys2Proof.Machine.execEmitT f q s
  | .sysrd f q => Sys2Proof.Machine.execSysrd f q s
  | .syswr f q => Sys2Proof.Machine.execSyswr f q s
  | .ballot f q => Sys2Proof.Machine.execBallot f q s
  | .kgor f q => Sys2Proof.Machine.execKgor f q s
  | .kgand f q => Sys2Proof.Machine.execKgand f q s
  | .xferIdx f q => Sys2Proof.Machine.execXferIdx f q s
  | .xferRot f q => Sys2Proof.Machine.execXferRot f q s
  | .xferSh f q => Sys2Proof.Machine.execXferSh f q s
  | .xferFlip f q => Sys2Proof.Machine.execXferFlip f q s
  | .gredAdd f q => Sys2Proof.Machine.execGredAdd f q s
  | .gredMin f q => Sys2Proof.Machine.execGredMin f q s
  | .gredMax f q => Sys2Proof.Machine.execGredMax f q s
  | .gredFadd f q => Sys2Proof.Machine.execGredFadd f q s
  | .gredFmax f q => Sys2Proof.Machine.execGredFmax f q s
  | .gscanAdd f q => Sys2Proof.Machine.execGscanAdd f q s
  | .gpos f q => Sys2Proof.Machine.execGpos f q s
  | .gsize f q => Sys2Proof.Machine.execGsize f q s
  | .gfirst f q => Sys2Proof.Machine.execGfirst f q s
  | .pick f q => Sys2Proof.Machine.execPick f q s
  | .endrun f => Sys2Proof.Machine.execEndrun f s
  | .reservedEncoding word => Sys2Proof.Machine.execReservedEncoding word s
  | .hostTailWrite vf host addr tail relaxed => Sys2Proof.Machine.execHostTailWrite vf host addr tail relaxed s
  | .rootWrite vf addr => Sys2Proof.Machine.execRootWrite vf addr s
  | .bctlGo vf cols count => Sys2Proof.Machine.execBctlGo vf cols count s
  | .bctlUnbind vf => Sys2Proof.Machine.execBctlUnbind vf s
  | .tsplitw vf value => Sys2Proof.Machine.execTsplitw vf value s
  | .surftabWrite vf addr => Sys2Proof.Machine.execSurftabWrite vf addr s
  | .surfcntWrite vf value => Sys2Proof.Machine.execSurfcntWrite vf value s
  | .ressizeWrite vf size => Sys2Proof.Machine.execRessizeWrite vf size s
  | .hsctlGo vf => Sys2Proof.Machine.execHsctlGo vf s
  | .causeClear vf mask => Sys2Proof.Machine.execCauseClear vf mask s
  | .discard vf entry => Sys2Proof.Machine.execDiscard vf entry s
  | .stop vf entry => Sys2Proof.Machine.execStop vf entry s
  | .registerWrite vf offset value => Sys2Proof.Machine.execRegisterWrite vf offset value s
  | .fusedSoftmax => Sys2Proof.Machine.execFusedSoftmax s
  | .runStart => Sys2Proof.Machine.execRunStart s
  | .trailerRetire => Sys2Proof.Machine.execTrailerRetire s
  | .resultLanding col core => Sys2Proof.Machine.execResultLanding col core s
  | .loadPerformed col core idx => Sys2Proof.Machine.execLoadPerformed col core idx s
  | .gangFormation col core half => Sys2Proof.Machine.execGangFormation col core half s
  | .joinHoldEnd col core half => Sys2Proof.Machine.execJoinHoldEnd col core half s
  | .yieldEnd col core half => Sys2Proof.Machine.execYieldEnd col core half s
  | .faultDomainStop idx => Sys2Proof.Machine.execFaultDomainStop idx s
  | .collectiveReplay gid idx => Sys2Proof.Machine.execCollectiveReplay gid idx s
  | .relCompletion gid => Sys2Proof.Machine.execRelCompletion gid s
  | .holdingsReturn gid => Sys2Proof.Machine.execHoldingsReturn gid s
  | .waitcRepoll gid => Sys2Proof.Machine.execWaitcRepoll gid s
  | .l1AgeWriteback col core idx => Sys2Proof.Machine.execL1AgeWriteback col core idx s
  | .l1AgeInvalidate col core idx => Sys2Proof.Machine.execL1AgeInvalidate col core idx s
  | .translationWalk col core idx => Sys2Proof.Machine.execTranslationWalk col core idx s
  | .pendingRewalk col core idx => Sys2Proof.Machine.execPendingRewalk col core idx s
  | .pendingTimeout col core idx => Sys2Proof.Machine.execPendingTimeout col core idx s
  | .copy col core idx => Sys2Proof.Machine.execCopy col core idx s
  | .gather col core idx => Sys2Proof.Machine.execGather col core idx s
  | .fill col core idx => Sys2Proof.Machine.execFill col core idx s
  | .decompress col core idx => Sys2Proof.Machine.execDecompress col core idx s
  | .quantise col core idx => Sys2Proof.Machine.execQuantise col core idx s
  | .tileFillComplete col core tile => Sys2Proof.Machine.execTileFillComplete col core tile s
  | .cardLock col core idx => Sys2Proof.Machine.execCardLock col core idx s
  | .clear col core idx => Sys2Proof.Machine.execClear col core idx s
  | .bcast col core idx => Sys2Proof.Machine.execBcast col core idx s
  | .mulrows col core idx => Sys2Proof.Machine.execMulrows col core idx s
  | .readout col core idx => Sys2Proof.Machine.execReadout col core idx s
  | .cardEnd col core idx => Sys2Proof.Machine.execCardEnd col core idx s
  | .matrixWordCompletion col core => Sys2Proof.Machine.execMatrixWordCompletion col core s
  | .currentStep col cluster => Sys2Proof.Machine.execCurrentStep col cluster s
  | .issueUnitIdleRelease col core half => Sys2Proof.Machine.execIssueUnitIdleRelease col core half s
  | .capChange col cluster cap refill => Sys2Proof.Machine.execCapChange col cluster cap refill s
  | .rakeSpill vf idx square => Sys2Proof.Machine.execRakeSpill vf idx square s
  | .rakeRefill vf idx block => Sys2Proof.Machine.execRakeRefill vf idx block s
  | .surfaceDiscard vf idx => Sys2Proof.Machine.execSurfaceDiscard vf idx s
  | .raster vf leaf node => Sys2Proof.Machine.execRaster vf leaf node s
  | .drawRetire twin draw => Sys2Proof.Machine.execDrawRetire twin draw s
  | .gate vf leaf node => Sys2Proof.Machine.execGate vf leaf node s
  | .traverse vf leaf node => Sys2Proof.Machine.execTraverse vf leaf node s
  | .classify vf leaf node => Sys2Proof.Machine.execClassify vf leaf node s
  | .net vf leaf node => Sys2Proof.Machine.execNet vf leaf node s
  | .copyNode vf leaf node => Sys2Proof.Machine.execCopyNode vf leaf node s
  | .hostqModerationExpiry vf => Sys2Proof.Machine.execHostqModerationExpiry vf s
  | .groupLaunch vf leaf node => Sys2Proof.Machine.execGroupLaunch vf leaf node s
  | .coalesceTimeout vf leaf node => Sys2Proof.Machine.execCoalesceTimeout vf leaf node s
  | .groupAdmission col => Sys2Proof.Machine.execGroupAdmission col s
  | .preemptionOnQuantum col => Sys2Proof.Machine.execPreemptionOnQuantum col s
  | .preemptionHalt gid => Sys2Proof.Machine.execPreemptionHalt gid s
  | .imageSave gid => Sys2Proof.Machine.execImageSave gid s
  | .preemptionTimeout gid => Sys2Proof.Machine.execPreemptionTimeout gid s
  | .groupRestore gid => Sys2Proof.Machine.execGroupRestore gid s
  | .bar2Access vf host addr size write value => Sys2Proof.Machine.execBar2Access vf host addr size write value s
  | .tsplitFlushComplete vf => Sys2Proof.Machine.execTsplitFlushComplete vf s
  | .hostAllocationDone vf => Sys2Proof.Machine.execHostAllocationDone vf s
  | .flr vf => Sys2Proof.Machine.execFlr vf s
  | .flrReady vf => Sys2Proof.Machine.execFlrReady vf s
  | .partitionDescriptorWrite vf w0 w1 w2 => Sys2Proof.Machine.execPartitionDescriptorWrite vf w0 w1 w2 s
  | .shareUpdate vf => Sys2Proof.Machine.execShareUpdate vf s
  | .partitionSwitch out inn => Sys2Proof.Machine.execPartitionSwitch out inn s
  | .s2rootWrite vf addr => Sys2Proof.Machine.execS2rootWrite vf addr s
  | .inv2 vf value => Sys2Proof.Machine.execInv2 vf value s
  | .invalPage vf value => Sys2Proof.Machine.execInvalPage vf value s
  | .invalAll vf => Sys2Proof.Machine.execInvalAll vf s
  | .resume vf idx => Sys2Proof.Machine.execResume vf idx s
  | .fresStop vf idx => Sys2Proof.Machine.execFresStop vf idx s
  | .attctlGo => Sys2Proof.Machine.execAttctlGo s
  | .attestationReport => Sys2Proof.Machine.execAttestationReport s
  | .pfcauseClear mask => Sys2Proof.Machine.execPfcauseClear mask s
  | .pfvferrClear mask => Sys2Proof.Machine.execPfvferrClear mask s
  | .telemetrySnapshot => Sys2Proof.Machine.execTelemetrySnapshot s
  | .powcapWrite value => Sys2Proof.Machine.execPowcapWrite value s
  | .refmaxWrite value => Sys2Proof.Machine.execRefmaxWrite value s
  | .go => Sys2Proof.Machine.execGo s
  | .firmwareStageDone => Sys2Proof.Machine.execFirmwareStageDone s
  | .raise => Sys2Proof.Machine.execRaise s
  | .revoke key => Sys2Proof.Machine.execRevoke key s
  | .join number => Sys2Proof.Machine.execJoin number s
  | .domainLeave => Sys2Proof.Machine.execDomainLeave s
  | .domainEntry dup => Sys2Proof.Machine.execDomainEntry dup s
  | .etimeAligned => Sys2Proof.Machine.execEtimeAligned s
  | .remoteAccessTimeout col core idx => Sys2Proof.Machine.execRemoteAccessTimeout col core idx s
  | .viaGroupStateChange col tower group => Sys2Proof.Machine.execViaGroupStateChange col tower group s
  | .channelNarrow col channel => Sys2Proof.Machine.execChannelNarrow col channel s
  | .channelRetire col channel halfPins => Sys2Proof.Machine.execChannelRetire col channel halfPins s
  | .moduleFault => Sys2Proof.Machine.execModuleFault s
  | .moduleReset => Sys2Proof.Machine.execModuleReset s
  | .boot => Sys2Proof.Machine.execBoot s
  | .powerRemoval => Sys2Proof.Machine.execPowerRemoval s
  | .linkTraining rate width flit => Sys2Proof.Machine.execLinkTraining rate width flit s

end Sys2Proof.Machine
end

