-- ==== Sys2Proof/Machine/Chain.lean ====
section
/-! DEFINITION. Chain: how the words of a run issue: one word, a fused pattern, or a chain as a unit (03 R65 to R67, 04 R90, R91, 06 R143,
09 R208, R211); and the move of a gang (10 R223). -/

namespace Sys2Proof.Machine

/-- Go on with another step after a next state. -/
def follow (r : Host.Outcome State Fault Refusal) (f : State → Host.Outcome State Fault Refusal) : Host.Outcome State Fault Refusal :=
  match r with
  | .next s => f s
  | .fault e => .fault e
  | .refused e => .refused e

/-- Pipes of Table 04.1, with LS, TX, EN and MX as one, since they share the request port (R90); none for `nop` and `endrun`. -/
def pipeOf (w : Word) : Option Nat :=
  let o := majorOf w
  if o = 0 ∧ subOf w = 0 then none
  else if o = 0 then some 3
  else if o ≤ 0x16 then some 0
  else if o ≤ 0x1A then some 1
  else if o ≤ 0x1C then some 2
  else if o ≤ 0x1F then some 3
  else if o ≤ 0x28 ∨ o = 0x2D then some 4
  else if o ≤ 0x2B then some 5
  else if o = 0x2C then some 6
  else if o ≤ 0x3B then some 7
  else if o = 0x3D then some 8
  else none

/-- The timing class of a word (Tables 04.2, 04.4); 4 for a word that enters no window (R207). -/
def classOf (w : Word) : Nat :=
  let o := majorOf w
  match pipeOf w with
  | none => 4
  | some 4 => 1
  | some 5 => 3
  | some 6 => 2
  | some 7 => if o = 0x37 ∨ o = 0x39 ∨ o = 0x3A ∨ o = 0x3B ∨ (o = 0x38 ∧ 8 ≤ subOf w) then 0 else 1
  | some 8 => 2
  | some _ => 0

/-- A word of an issue group: its slot, how many slots it takes with its modifier, and what it decodes to. -/
structure ChainWord where
  slot : Nat
  n : Nat
  w : Word
  instr : Instr

/-- The instruction at a slot of a run, how many words it takes, and whether it chains to the word after it (R66, R80, R84). -/
def instrAt (run : List Word) (slot : Nat) : Instr × Nat × Bool :=
  let w := run.getD slot 0
  let next := if slot % 3 = 2 then none else (run[slot + 1]?).map BitVec.toNat
  match decodeAt w.toNat next with
  | .ok (i, n) => (i, n, if n = 2 then ((next.map fun x => bitOf x 31).getD false) else bitOf w.toNat 31)
  | .error _ => (.reservedEncoding w.toNat, 1, bitOf w.toNat 31 && w != 0xFFFFFFFF)

/-- The issue group from a slot on, and whether it chains to the trailer (R65, R90). -/
def issueGroup (run : List Word) : Nat → Nat → List ChainWord × Bool
  | 0, _ => ([], false)
  | k + 1, slot =>
    let (i, n, c) := instrAt run slot
    let u : ChainWord := { slot := slot, n := n, w := run.getD slot 0, instr := i }
    if c && (slot + n) % 3 != 0 then
      if isEnd (run.getD (slot + n) 0) then ([u], true)
      else
        let r := issueGroup run k (slot + n)
        (u :: r.1, r.2)
    else ([u], false)

/-- Two words of a chain go to one pipe (R65). -/
def pipesMeet : List ChainWord → Bool
  | [] => false
  | u :: us => ((pipeOf u.w).isSome && us.any fun x => pipeOf x.w == pipeOf u.w) || pipesMeet us

/-- A word that blocks or leaves registers empty: a word of the request port, and `sld`. -/
def ChainWord.late (u : ChainWord) : Nat := if pipeOf u.w = some 7 then 2 else if majorOf u.w = 0x1C ∧ bitsOf u.w.toNat 22 3 = 2 then 1 else 0

/-- A word after which its lane takes no other: `exit`, `trapret`. -/
def ChainWord.last (u : ChainWord) : Bool := majorOf u.w == 0 && (subOf u.w == 1 || subOf u.w == 3)

/-- The order in which the words of a chain take effect, all of them on the registers as the issue cycle shows them: words of the request port
after the others, which may read what a load makes empty; and `exit` and `trapret` in slot order with it. Words behind an `exit` or `trapret` that
acts in a lane are cut there, whatever their place in this order (`Gang.cut`, R69, R121). -/
def commitOrder (us : List ChainWord) : List ChainWord :=
  let plain := us.filter fun u => u.late == 0 && !u.last
  let sld := us.filter fun u => u.late == 1
  plain ++ sld ++ us.filter fun u => u.late == 2 || u.last

/-- Two register reads of one quad collide: different registers of one bank in one cycle (R211). -/
def readsClash (a b : Nat × Nat) : Bool := a.1 == b.1 && a.2 != b.2 && a.2 % 4 == b.2 % 4

/-- The reads of the words of a chain collide with each other (R211). -/
def wordsClash : List (List (Nat × Nat)) → Bool
  | [] => false
  | r :: rs => (rs.any fun x => x.any fun b => r.any fun a => readsClash a b) || wordsClash rs

/-- The slowest class among the words of a group; 4 where none enters the window (R91, R207). -/
def groupClass (us : List ChainWord) : Nat :=
  us.foldl (fun c u => if classOf u.w = 4 then c else if c = 4 then classOf u.w else max c (classOf u.w)) 4

/-- Change the current gang. -/
def State.onCur (s : State) (f : Gang → Gang) : State :=
  match s.m.cur with
  | some id => { s with m := s.m.onGang id f }
  | none => s

/-- The gang as it stands. -/
def State.curGang (s : State) : Option (Gang × Group) := s.m.curGang

/-- Check every word of a chain, and take no effect (R67). Each word is checked in every active lane, those too in which an earlier control word of the
chain will be taken (DEDUCED, log entry 10). The lanes in which `exit` or `trapret` acts are noted. -/
def probe (start : Nat) : List ChainWord → State → Host.Outcome State Fault Refusal
  | [], s => .next s
  | u :: us, s =>
    follow (exec u.instr (s.onCur fun k => { k with mode := .probe, slot := u.slot, first := start, cutAt := 24 })) fun s =>
      probe start us (if u.last then s.onCur fun k => { k with cut := k.von } else s)

/-- The traps of a chain, one for a lane: a decode trap of any word first, then the first word's in slot order. -/
def firstTraps (tr : List (Nat × Cause × Nat)) : List (Nat × Cause × Nat) :=
  let decode := tr.filter fun x => x.2.1 == .illchain || x.2.1 == .illegal
  let chain := decode.filter fun x => x.2.1 == .illchain
  (chain ++ decode ++ tr).foldl (fun l x => if l.any fun y => y.1 == x.1 then l else l ++ [x]) []

/-- The words of a chain take effect; one that has not completed parks the gang (R67, R92). `n` is the number of cycles in which the words issue: one
word a cycle, in slot order, where their reads collide, with every latency counted from the last; else 1 (R211, R212). -/
def commit (start n : Nat) (all : List ChainWord) : List ChainWord → State → Host.Outcome State Fault Refusal
  | [], s => .next s
  | u :: us, s =>
    let off := if n = 1 then 0 else all.findIdx fun x => x.slot == u.slot
    follow (exec u.instr (s.onCur fun k =>
      { k with mode := .commit, st := .issuing, slot := u.slot, first := start, off := off, lag := n - 1 - off })) fun s =>
      match s.curGang with
      | some (k, _) => if k.st = .parked then .next s else commit start n all us s
      | none => .next s

/-- The unit of a half issues a chain's words in `n` consecutive cycles (R211): each enters the window with the chain's class (log entry 6), and
the unit is taken until the last has issued. -/
def Core.useMore (c : Core) (half n cls : Nat) : Core :=
  let w := (List.range (n - 1)).foldl (fun w i => enterWindow w (c.clk + 1 + i) (some cls)) c.window
  if half = 0 then { c with window := w, free0 := c.clk + n } else { c with window := w, free1 := c.clk + n }

/-- A chain whose words have all taken effect issues as one group of its slowest class (R91, R208). One with a blocking word that waits has issued too
(R92). -/
def finishChain (start n : Nat) (us : List ChainWord) (s : State) : Host.Outcome State Fault Refusal :=
  match s.curGang with
  | none => .next s
  | some (k, g) =>
    let cls := groupClass us
    let more (m : Mach) : Mach := if k.out ∨ n ≤ 1 then m else m.onCore g.column g.core fun c => c.useMore k.half n cls
    if k.st = .parked then .next { s with m := more (s.m.holdWord k g cls) }
    else
      .next { s with m := more ((s.m.onGang k.id fun x => { x with slot := start }).advance { k with slot := start } (us.map (·.n)).sum cls) }

/-- The cycles in which the words of a checked chain issue (R211). -/
def chainCycles (k : Gang) (us : List ChainWord) : Nat := if wordsClash k.vreads then us.length else 1

/-- What follows the checks of a chain (R67): stops of speculating threads, operand traps, waits, execution traps, or the effect. TRAPSLOT names
the chain's first word, for `trap` and `bkpt` too, of which R120 says the slot of their own word (DEDUCED, log entry 10). -/
def judge (start : Nat) (us : List ChainWord) (s : State) : Host.Outcome State Fault Refusal :=
  match s.curGang with
  | none => .next s
  | some (k, g) =>
    let clean (k : Gang) : Gang :=
      { k with mode := .solo, slot := start, first := start, vop := [], vex := [], vstop := [], vwait := false, vempty := false, vreads := [], von := [], cut := [], cutAt := 0 }
    let m := s.m.onGang k.id clean
    let k' := clean k
    if !k.vstop.isEmpty then
      let m := k.vstop.eraseDups.foldl (fun m i => match (m.thread? k.gid i).bind (·.epi) with
        | some e => m.stopSpec k' i start e
        | none => m) m
      .next { s with m := m.reapGang k.id }
    else if !k.vop.isEmpty then .next { s with m := (m.useUnit g.column g.core k.half none).deliver s.cfg k' start (firstTraps k.vop) }
    else if k.vwait then .next { s with m := m.onGang k.id fun x => { x with st := .parked, empty := k.vempty } }
    else
      let tr := firstTraps k.vex
      if !tr.isEmpty && (k.cr || us.any fun u => isCollective u.w) then
        .next { s with m := (m.useUnit g.column g.core k.half none).deliver s.cfg k' start tr }
      else
        let m := if tr.isEmpty then m else m.deliver s.cfg k' start tr
        if (m.gang? k.id).isNone then .next { s with m := m.useUnit g.column g.core k.half none } else
        let m := m.onGang k.id fun x => { x with cut := k.cut, cutAt := ((us.find? ChainWord.last).map (·.slot)).getD 24 }
        let n := chainCycles k us
        follow (commit start n us (commitOrder us) { s with m := m }) (finishChain start n us)

/-- Issue the chain at the current gang's slot. A gang that a word of it parked goes on with that word (R92). -/
def issueChain (us : List ChainWord) (bad : Bool) (k : Gang) (s : State) : Host.Outcome State Fault Refusal :=
  if k.mode = .commit then
    let rest := (commitOrder us).dropWhile fun u => u.slot != k.slot
    follow (commit k.first 1 us rest s) (finishChain k.first 1 us)
  else if bad || pipesMeet us then word { c := true, q := some (Modifier.ofWord 0) } (s.onCur fun k => { k with first := k.slot })
  else follow (probe k.slot us s) (judge k.slot us)

/-- The current gang issues its next issue group. -/
def issueWord (s : State) : Host.Outcome State Fault Refusal :=
  match s.curGang with
  | none => .next s
  | some (k, _) =>
    if k.mode = .commit then
      let r := issueGroup k.run 3 k.first
      issueChain r.1 r.2 k s
    else if (fusedAt k.run k.slot).isSome then exec .fusedSoftmax s
    else match issueGroup k.run 3 k.slot with
      | ([u], false) => exec u.instr (s.onCur fun k => { k with first := k.slot })
      | (us, bad) => issueChain us bad k s

/-- The current gang moves: its run is checked, its next issue group issues, or its trailer retires. -/
def moveGang (s : State) : Host.Outcome State Fault Refusal :=
  match s.curGang with
  | none => .next s
  | some (k, g) =>
    if g.stage ≠ .resident ∨ g.frozen then .next s
    else match k.st with
      | .formed => exec .runStart s
      | .trailer => exec .trailerRetire s
      | _ => issueWord s

/-- No gang is current any more: the next move is chosen anew (log entry 2). -/
def clearCur (s : State) : Host.Outcome State Fault Refusal := .next { s with m := { s.m with cur := none } }

end Sys2Proof.Machine
end

