-- ==== Sys2Proof/Machine/Cycle.lean ====
section
/-! DEFINITION. Cycle: the cycles of a core: which issue groups its units may issue (09 R208, R209, R211), which gang a unit chooses (10 R225), and what
ends with a cycle: values of fixed time, the scratchpad port's work, the execute window, CLK and ETIME (09 R207, R213, 15 R306). -/

namespace Sys2Proof.Machine

/-! ### The next issue group of a gang -/

/-- A pipe as the units share it (Table 09.2): DP and the request port belong to both, the others to one half each. -/
def pipeKey (half p : Nat) : Nat := if p = 5 ∨ p = 7 then p else 16 * (half + 1) + p

/-- Cycles for which a word of a gang of `q` quads occupies its pipe (Table 09.2). -/
def pipeCycles (p q : Nat) (fused : Bool) : Nat :=
  match p with
  | 5 => ceilDiv q 8
  | 6 => ceilDiv q 4
  | 8 => if fused then 4 else 2
  | _ => 1

/-- What the next issue group of a gang is: its words, class and issue cycles (R211), the pipes it occupies, as pipe, first cycle after issue and number of
cycles, its register reads, by cycle after issue; and what its checks find: a wait, whether for a source, lanes that stop speculating. -/
structure NextGroup where
  words : List ChainWord
  cls : Nat
  cycles : Nat
  pipes : List (Nat × Nat × Nat)
  reads : List (Nat × Nat)
  waits : Bool
  empty : Bool
  stops : Bool

/-- The issue cycle of the `i`-th word of a group, after the first (R211). -/
def wordOff (cycles i : Nat) : Nat := if cycles = 1 then 0 else i

/-- The next issue group from the gang as its checks leave it. -/
def Gang.group (k : Gang) (us : List ChainWord) (fused : Bool) : NextGroup :=
  let n := chainCycles k us
  let us' := (List.range us.length).zip us
  { words := us, cycles := n, cls := if fused then 2 else groupClass us
    pipes := us'.filterMap fun x => (pipeOf x.2.w).map fun p => (pipeKey k.half p, wordOff n x.1, pipeCycles p k.quads.length fused)
    reads := ((List.range k.vreads.length).zip k.vreads).flatMap fun x => x.2.map fun r => (wordOff n x.1 + r.1, r.2)
    waits := k.vwait && k.vop.isEmpty && k.vstop.isEmpty, empty := k.vempty, stops := !k.vstop.isEmpty }

/-- The next issue group of a gang, checked on a copy of the machine (R67, R83). -/
def examine (s : State) (k : Gang) : Option NextGroup :=
  let s := { s with m := { s.m with cur := some k.id } }
  let asked := s.onCur fun x => { x with mode := .probe, first := x.slot }
  let seen (us : List ChainWord) (fused : Bool) (r : Host.Outcome State Fault Refusal) : Option NextGroup :=
    match r with
    | .next t => t.curGang.map fun x => x.1.group us fused
    | _ => none
  if (fusedAt k.run k.slot).isSome then
    seen [{ slot := k.slot, n := 4, w := k.run.getD k.slot 0, instr := .fusedSoftmax }] true (exec .fusedSoftmax asked)
  else match issueGroup k.run 3 k.slot with
    | ([u], false) => seen [u] false (exec u.instr asked)
    | (us, bad) => if bad || pipesMeet us then some (k.group us false) else seen us false (probe k.slot us s)

/-- No word of a group finds its pipe busy (R209). -/
def pipesFree (c : Core) (n : NextGroup) : Bool :=
  n.pipes.all fun p => c.pipes.all fun r => r.1 != p.1 || decide (r.2.2 < c.clk + p.2.1) || decide (c.clk + p.2.1 + p.2.2 ≤ r.2.1)

/-- No read of a group collides with a read that is scheduled, in any quad (R211). -/
def readsFree (c : Core) (k : Gang) (n : NextGroup) : Bool :=
  n.reads.all fun r => c.reads.all fun b =>
    b.gid != k.gid || !k.quads.contains b.quad || !readsClash (c.clk + r.1, r.2) (b.cycle, b.reg)

/-- The group is issued: its pipes are occupied and its reads scheduled (R209, R211). -/
def Core.reserve (c : Core) (clk : Nat) (k : Gang) (n : NextGroup) : Core :=
  { c with
    pipes := c.pipes ++ n.pipes.map fun p => (p.1, clk + p.2.1, clk + p.2.1 + p.2.2 - 1)
    reads := c.reads ++ n.reads.flatMap fun r => k.quads.map fun q => { cycle := clk + r.1, gid := k.gid, quad := q, reg := r.2 } }

/-! ### Issue selection -/

/-- The slowest class that occupies the execute window as it stands at the start of a cycle; an empty window counts as T0 (R225). -/
def windowClass (w : List (Nat × Nat)) (clk : Nat) : Nat :=
  ((w.filter fun e => decide (e.2 < clk) && inWindow clk e).map (·.1)).foldl max 0

/-- A gang holds a quad that has gone 64 issue rounds without issuing (R225). -/
def starvedGang (g : Group) (k : Gang) (rounds : Nat) : Bool :=
  k.quads.any fun q => decide (64 ≤ rounds - ((g.threads.filter fun t => t.tid / 4 == q).map (·.lastIssue)).foldl max 0)

/-- The first rule of R225 that offers a gang. -/
def issueRule (c : Core) (g : Group) (k : Gang) (n : NextGroup) : Nat :=
  if starvedGang g k (c.rounds k.half) then 1
  else if n.cls = 4 ∨ n.cls ≤ windowClass c.window c.clk then 2 else 3

/-- A gang that a unit may choose, with its next issue group and its rule. -/
structure Cand where
  gang : Gang
  next : NextGroup
  rule : Nat

/-- The order of choice (R225): by rule, then PC key, then window. -/
def Cand.before (a b : Cand) : Bool :=
  let key (x : Cand) : Nat × Nat × Nat := (if x.gang.hnd then 0 else 1, x.gang.pc, x.gang.win)
  decide (a.rule < b.rule) || (a.rule == b.rule && placeLt (key a) (key b))

/-- A lane of the gang speculated and its barrier is completing: it issues nothing before its buffered stores are performed (R165). -/
def Gang.closing (k : Gang) (g : Group) : Bool := g.closing && g.threads.any fun t => t.epi.isSome && k.lanes.contains t.tid

/-- Gangs of a half of a core that stand in a gang slot at a word, in groups that run. -/
def gangsAt (m : Mach) (col core half : Nat) : List (Gang × Group) :=
  m.gangs.filterMap fun k => match m.group? k.gid with
    | some g => if g.live col core && k.half == half && !k.closing g then some (k, g) else none
    | none => none

/-- The gangs that a unit may choose in this cycle (R225). -/
def candidates (s : State) (col core half : Nat) : List Cand :=
  let c := s.m.core col core
  (gangsAt s.m col core half).filterMap fun x =>
    if x.1.st = .issuing ∧ !x.1.out then
      match examine s x.1 with
      | some n => if !n.waits && !n.stops && pipesFree c n && readsFree c x.1 n then some { gang := x.1, next := n, rule := issueRule c x.2 x.1 n } else none
      | none => none
    else none

/-- The issue unit of a half is free in this cycle and holds its reservation (R208, R293). -/
def unitFree (m : Mach) (col core half : Nat) : Bool :=
  let c := m.core col core
  decide ((if half = 0 then c.free0 else c.free1) ≤ c.clk) && decide (8 ≤ (if half = 0 then c.unit0 else c.unit1))

/-- A gang moves. -/
def gangMove (id : Nat) (s : State) : Host.Outcome State Fault Refusal :=
  follow (moveGang { s with m := { s.m with cur := some id } }) clearCur

/-- The unit of a half issues the group of a gang that it may choose: the first in the order of R225, a free choice among equals; none where no gang may
issue. -/
def unitIssue (col core half : Nat) (s : State) : Option (Host.Outcome State Fault Refusal) :=
  if unitFree s.m col core half then
    let cs := candidates s col core half
    let heads := cs.filter fun a => cs.all fun b => !b.before a
    let (i, m) := if 2 ≤ heads.length then s.m.pick heads.length else (0, s.m)
    (heads[i]?).map fun x =>
      let clk := (m.core col core).clk
      follow (gangMove x.gang.id { s with m := m }) fun s =>
        let c := s.m.core col core
        if clk < (if half = 0 then c.free0 else c.free1) then .next { s with m := s.m.onCore col core fun c => c.reserve clk x.gang x.next } else .next s
  else none

/-! ### What precedes issue in a cycle -/

/-- A gang moves that no unit need choose: its trailer retires, its run is checked, a lane of it stops speculating; or the blocking word that it has issued is
tried again, once a cycle (R92). A gang that goes on from a wait waits for a gang slot. -/
def ownMove (s : State) (col core : Nat) (x : Gang × Group) : Option (Host.Outcome State Fault Refusal) :=
  let k := x.1
  let fresh := k.tried != (s.m.core col core).clk + 1
  let again : Option (Host.Outcome State Fault Refusal) :=
    some (follow (gangMove k.id { s with m := s.m.onGang k.id fun g => { g with tried := (s.m.core col core).clk + 1 } }) fun s =>
      .next { s with m := s.m.onGang k.id fun g => if g.st = .issuing then { g with st := .parked } else g })
  match k.st with
  | .trailer => if gangLanded s.m k x.2 then some (gangMove k.id s) else none
  | .formed => if fresh then some (gangMove k.id s) else none
  | .parked =>
    if k.out then (if fresh then again else none)
    else if decide (slotsUsed s.m col core k.half < 16) && !(k.lanes.any fun l => (s.m.busyQuads k.gid).contains (l / 4)) then
      match examine s k with
      | some n =>
        if n.waits then (if n.empty = k.empty then none else some (.next { s with m := s.m.onGang k.id fun g => { g with empty := n.empty } }))
        else some (.next { s with m := s.m.onGang k.id fun g => { g with st := .issuing, empty := false } })
      | none => none
    else none
  | .issuing =>
    match examine s k with
    | some n => if n.stops then some (gangMove k.id s)
                else if n.waits then some (.next { s with m := s.m.onGang k.id fun g => { g with st := .parked, empty := n.empty } }) else none
    | none => none

/-- The first of some moves. -/
def firstMove {α : Type} (f : α → Option (Host.Outcome State Fault Refusal)) : List α → Option (Host.Outcome State Fault Refusal)
  | [] => none
  | x :: xs => match f x with
    | some r => some r
    | none => firstMove f xs

/-- A collective run of a group that may be replayed (R142). -/
def replayMove (s : State) (g : Group) : Option (Host.Outcome State Fault Refusal) :=
  ((List.range g.holds.length).find? fun i => (g.holds[i]?).any fun h => replayDue s.m g h).map fun i => execCollectiveReplay g.gid i s

/-- A yield of a half has lasted 64 issue rounds (R71). -/
def yieldDue (m : Mach) (col core half : Nat) : Bool :=
  let rounds := (m.core col core).rounds half
  m.groups.any fun g => g.live col core && g.threads.any fun t =>
    g.halves.getD (t.tid / 64) 0 == half && (t.yieldAt).any fun r => decide (64 ≤ rounds - r)

/-- The regrouper's moves in a half: holds and yields end, and a gang is formed (R71, R224, R227). -/
def regroupMove (s : State) (col core half : Nat) : Option (Host.Outcome State Fault Refusal) :=
  if (nextJoin s.m col core half).isSome then some (execJoinHoldEnd col core half s)
  else if yieldDue s.m col core half then some (execYieldEnd col core half s)
  else if decide (slotsUsed s.m col core half < 16) && !(pcTable s.m col core half).isEmpty then some (execGangFormation col core half s)
  else none

/-! ### The end of a cycle -/

/-- Group halves in which a cycle without an issue counts as an issue round: a quad is held by a join or a yield (R223). -/
def Core.idleRounds (c : Core) (held0 held1 : Bool) : Core :=
  { c with
    round0 := if held0 && decide (c.free0 ≤ c.clk) then c.round0 + 1 else c.round0
    round1 := if held1 && decide (c.free1 ≤ c.clk) then c.round1 + 1 else c.round1 }

/-- The next cycle of a core begins: what is over is dropped (R24, R207). -/
def Core.nextCycle (c : Core) : Core :=
  let ps := c.ps + cyclePs c.window c.clk
  let n := c.clk + 1
  { c with
    clk := n, ps := ps
    window := c.window.filter fun e => decide (n ≤ windowLast e.1 e.2)
    pipes := c.pipes.filter fun r => decide (n ≤ r.2.2)
    reads := c.reads.filter fun b => decide (n ≤ b.cycle)
    accs := c.accs.map fun a => a.sampleAt n ps }

/-- A cycle of a core ends: the scratchpad port's passes, values of fixed time, CLK and ETIME, and the results that the next cycle reads. -/
def endCycle (col core : Nat) (m : Mach) : Mach :=
  let h0 := heldQuad m col core 0
  let h1 := heldQuad m col core 1
  let m := m.onCore col core fun c => c.idleRounds h0 h1
  let m := fillValues col core (servePort col core (m.core col core).accs.length m)
  let m := m.onCore col core Core.nextCycle
  landResults col core (m.passTo (m.core col core).ps)

/-- The time at which a core's cycle ends, as far as its window says now (R207). -/
def Core.cycleEnd (c : Core) : Nat := c.ps + cyclePs c.window c.clk

/-- The cores that are active, as column · 48 + core. -/
def activeCores (m : Mach) : List Nat :=
  ((m.cores.map fun (e : Nat × Core) => e.1) ++ m.groups.map fun (g : Group) => g.column * 48 + g.core).eraseDups.filter fun i => coreActive m (i / 48) (i % 48)

/-- No active core's cycle ends before a time. -/
def firstToEnd (m : Mach) (t : Nat) : Bool := (activeCores m).all fun i => decide (t ≤ (m.core (i / 48) (i % 48)).cycleEnd)

/-- A core moves: what precedes issue, then its units, in the order of CLK's parity (R209), then the end of its cycle, once no other core is behind (log
entry 2). -/
def coreMove (col core : Nat) (s : State) : Host.Outcome State Fault Refusal :=
  if coreActive s.m col core then
    let gangs := gangsAt s.m col core 0 ++ gangsAt s.m col core 1
    let first := (s.m.core col core).clk % 2
    ((firstMove (ownMove s col core) gangs).orElse fun _ =>
      (firstMove (replayMove s) (s.m.groups.filter fun g => g.live col core)).orElse fun _ =>
      (firstMove (regroupMove s col core) [first, 1 - first]).orElse fun _ =>
      (firstMove (fun h => unitIssue col core h s) [first, 1 - first])).getD
        (if firstToEnd s.m (s.m.core col core).cycleEnd then .next { s with m := endCycle col core s.m } else .next s)
  else .next s

end Sys2Proof.Machine
end

