-- ==== Sys2Proof/Machine/Choose.lean ====
section
/-! DEFINITION. Choose: the moves that are open to the machine in a state: the gangs that may issue, and what units, firmware and the control
processor do on their own. Which move is next is a free choice (log entry 2); a move offered here that its meaning finds not due leaves
the state as it is. -/

namespace Sys2Proof.Machine

/-- A move. -/
abbrev Move : Type := State → Host.Outcome State Fault Refusal

/-- Time passes (R25), where no core's cycles measure it (log entry 6). -/
def timeMove : Move := fun s =>
  if (activeCores s.m).isEmpty then
    let m := s.m.passTo (s.m.etime + Config.freeTime s.m.free)
    .next { s with m := { m with free := m.free + 1 } }
  else .next s

/-- The numbers below the length of a list. -/
def indices {α : Type} (l : List α) : List Nat := List.range l.length

/-- What the queues of a core may do. -/
def accMoves (col core : Nat) (c : Core) : List Move :=
  (indices c.accs).flatMap fun i =>
    [execLoadPerformed col core i, execTranslationWalk col core i, execPendingRewalk col core i, execPendingTimeout col core i
    , execRemoteAccessTimeout col core i]

/-- What the engines of a core may do. -/
def engineMoves (col core : Nat) (c : Core) : List Move :=
  (indices c.kicks).flatMap (fun i =>
      [execCopy col core i, execGather col core i, execFill col core i, execDecompress col core i, execQuantise col core i])
    ++ (indices c.cards).flatMap (fun i =>
      [execCardLock col core i, execClear col core i, execBcast col core i, execMulrows col core i, execReadout col core i, execCardEnd col core i])
    ++ (indices c.kicks).map (copyAhead col core)
    ++ (if c.mwords.isEmpty then [] else [execMatrixWordCompletion col core])
    ++ (indices c.l1).flatMap fun i => [execL1AgeWriteback col core i, execL1AgeInvalidate col core i]

/-- Tile fills under way on a core. -/
def tileMoves (m : Mach) (col core : Nat) : List Move :=
  ((List.range 64).filter fun t => (fillingTile m col core t).isSome).flatMap fun t => [execTileFillComplete col core t, tileAhead col core t]

/-- Messages of a group's queues go to the `qget`s that wait, once the banks of their entries are free (R178, R260). -/
def fillQueues (gid : Nat) : Move :=
  onMach fun _ m => match m.group? gid with
    | some g => g.queues.foldl (fun m x => m.fillQgets gid x.num g.qwaits.length) m
    | none => m

/-- What the issue units of a core may do: its cycles, and the return of a reservation. -/
def unitMoves (col core : Nat) : List Move :=
  coreMove col core :: execResultLanding col core :: [0, 1].map fun h => execIssueUnitIdleRelease col core h

/-- The cores that hold anything or have a group, as column · 48 + core. -/
def busyCores (m : Mach) : List Nat :=
  (m.cores.map (fun (e : Nat × Core) => e.1) ++ m.groups.map fun (g : Group) => g.column * 48 + g.core).eraseDups

/-- The clusters of a list of cores and those whose state is not as at reset. -/
def busyClusters (m : Mach) : List (Nat × Nat) :=
  ((busyCores m).map (fun i => (i / 48, i % 48 / 4)) ++ m.clusters.map fun (e : Nat × Cluster) => (e.1 / 12, e.1 % 12)).eraseDups

/-- The moves of the cores in use, and of their clusters. -/
def coreMoves (m : Mach) : List Move :=
  (busyCores m).flatMap (fun i =>
    let c := m.core (i / 48) (i % 48)
    accMoves (i / 48) (i % 48) c ++ engineMoves (i / 48) (i % 48) c ++ tileMoves m (i / 48) (i % 48) ++ unitMoves (i / 48) (i % 48))
    ++ (busyClusters m).map fun (x : Nat × Nat) => execCurrentStep x.1 x.2

/-- The moves of a group by its stage. -/
def groupMoves (g : Group) : List Move :=
  (match g.stage with
    | .halting => [execPreemptionHalt g.gid, execPreemptionTimeout g.gid]
    | .saving => [execImageSave g.gid]
    | .restoring => [execGroupRestore g.gid]
    | _ => [execHoldingsReturn g.gid, execWaitcRepoll g.gid])
    ++ (if g.rels.isEmpty then [] else [execRelCompletion g.gid])
    ++ (if g.qwaits.isEmpty then [] else [fillQueues g.gid])

/-- The moves of a bound node by its kind. -/
def nodeMoves (cfg : Cfg) (m : Mach) (vf : Nat) (b : Binding) (node : Nat) : List Move :=
  execGate vf b.leaf node :: match (readNode cfg vf b.table node m).kind with
    | 0 => [execGroupLaunch vf b.leaf node, execCoalesceTimeout vf b.leaf node]
    | 1 => [execRaster vf b.leaf node]
    | 2 => [execTraverse vf b.leaf node]
    | 3 => [execClassify vf b.leaf node]
    | 4 => [execNet vf b.leaf node]
    | 5 => [execCopyNode vf b.leaf node, nodeAhead vf b.leaf node]
    | _ => []

/-- The moves of the Rake on a surface. -/
def surfMoves (x : Surf) : List Move :=
  execSurfaceDiscard x.vf x.idx :: (x.spilled.map (fun e => execRakeRefill x.vf x.idx e.1)
    ++ (((List.range x.blocks).map x.squareNo).eraseDups.map fun q => execRakeSpill x.vf x.idx q))

/-- The moves of the device for a function. -/
def vfMoves (cfg : Cfg) (m : Mach) (v : Nat) (r : Vf) : List Move :=
  r.binds.flatMap (fun b => (List.range b.count).flatMap (nodeMoves cfg m v b))
    ++ (if r.hqHeld then [execHostqModerationExpiry v] else [])
    ++ (if r.tsplitst = 1 then [execTsplitFlushComplete v] else [])
    ++ (if r.hsstatus = 1 then [execHostAllocationDone v] else [])
    ++ (if r.flrDrain then [execFlrReady v] else [])
    ++ (if r.unbind.isSome then [execBctlUnbind v] else [])
    ++ (if r.posted.isEmpty then [] else [hostRetry v])
    ++ (if m.lost.isEmpty then [] else [scrubError v])

/-- The moves of the control processor for a partition. -/
def partMoves (cfg : Cfg) (m : Mach) (v : Nat) (p : Part) : List Move :=
  (if p.shareNext.isSome then [execShareUpdate v] else [])
    ++ ((List.range 64).filter fun w => switchable cfg v w m).map fun w => execPartitionSwitch v w

/-- The moves of the schedulers of the columns in use. -/
def columnMoves (m : Mach) : List Move :=
  if m.groups.isEmpty then [] else (List.range 12).flatMap fun c => [execGroupAdmission c, execPreemptionOnQuantum c]

/-- The moves of firmware. -/
def fleetMoves (f : Fleet) : List Move :=
  (if f.booted || f.bootError != 0 then [] else [execBoot])
    ++ (if f.attctl = 1 then [execAttestationReport] else [])
    ++ (if f.telbase ≠ 0 ∧ f.telper ≠ 0 then [execTelemetrySnapshot] else [])
    ++ (if f.staging then [execFirmwareStageDone] else [])
    ++ (if f.domIn && !f.domAligned then [execEtimeAligned] else [])

/-- The moves of storage that fails: an error of a channel that SPAREOUT has left in service (R357), and the module-level fault of a tower that cannot
rebuild, in its cache ways (R354). -/
def errorMoves (f : Fleet) (m : Mach) : List Move :=
  ((List.range 12).filter fun c => f.spareout.any fun e => e.1 / 24 == c && e.2 != 0).map g7Error
    ++ (if (List.range (12 * 48)).any fun i => m.towerBroken (i / 48) (i % 48) && !m.retired (i / 48) (i % 48) then [execModuleFault] else [])

/-- Raster updates that waited go on (R284). -/
def pixelMove : Move := onMach fun cfg m => drainPixels cfg m

/-- Every move open to the machine; time may always pass. -/
def moves (s : State) : List Move :=
  timeMove :: (coreMoves s.m ++ s.m.groups.flatMap groupMoves ++ s.m.surfs.flatMap surfMoves
    ++ s.m.vfs.flatMap (fun e => vfMoves s.cfg s.m e.1 e.2) ++ s.cfg.parts.flatMap (fun e => partMoves s.cfg s.m e.1 e.2)
    ++ s.m.draws.map (fun d => execDrawRetire d.twin d.draw) ++ (indices s.m.stops).map execFaultDomainStop ++ columnMoves s.m
    ++ (if s.m.pix.isEmpty then [] else [pixelMove]) ++ fleetMoves s.fleet ++ errorMoves s.fleet s.m)

/-- The move that comes next, by a free choice (log entry 2). -/
def chooseMove (s : State) : Host.Outcome State Fault Refusal :=
  let ms := moves s
  let (i, m) := s.m.pick ms.length
  (ms.getD i timeMove) { s with m := m }

/-- A step of the machine: an event from outside that is due (log entry 2, 15), else the gang that is current, else a move by choice. -/
def nextMove (s : State) : Host.Outcome State Fault Refusal :=
  match s.agenda with
  | i :: rest => exec i { s with agenda := rest }
  | [] =>
    if !s.fleet.powered then .fault .noPower
    else if s.fleet.halted then .fault .moduleHalted
    else match s.m.cur with
      | some _ => follow (moveGang s) clearCur
      | none => chooseMove s

/-! ### Placing an instruction -/

/-- The thread that runs a placed instruction. -/
def placedThread : Thread := { tid := 0 }

/-- The group that runs a placed instruction: one thread, on core 0 of column 0, with the most registers a group can hold, and a window. -/
def placedGroup (gid : Nat) : Group :=
  { gid := gid, stage := .resident, gsize := 1, halves := [0], threads := [placedThread]
    claim := { reg := 32, scr := 1, msl := 8, spc := 1 }, hold := { reg := 32, scr := 1, msl := 8, spc := 1 }
    env := { recsz := 64, seglen := 1 } }

/-- The words of the run of a placed word: the word, what follows it as its modifier would, and the trailer; a collective word stands in a collective
run (R68), and a trailer is the run. -/
def placedRun (w x : Word) : List Word :=
  if isEnd w then [w] else [w, x, if isCollective w then 0x7C400000 else 0x7C000000]

/-- A gang of the placed group, at the first word of its run. -/
def placedGang (id gid : Nat) (w x : Word) : Gang :=
  { id := id, gid := gid, lanes := [0], quads := [0], run := placedRun w x, cr := isCollective w, st := .issuing }

/-- Place an instruction of one or two words where the next step issues it (log entry 3). -/
def placeWords (s : State) (w x : Word) : State :=
  let gid := s.m.nextGid
  let id := s.m.nextGang
  let m := { s.m with
    groups := placedGroup gid :: s.m.groups, gangs := placedGang id gid w x :: s.m.gangs
    nextGid := gid + 1, nextGang := id + 1, cur := some id }
  { s with
    m := m.onCore 0 0 fun c => { c with unit0 := 8 }
    fleet := { s.fleet with powered := true, halted := false, booted := true }
    agenda := [] }

end Sys2Proof.Machine
end

