-- ==== Sys2Proof/Machine/Step.lean ====
section
/-! DEFINITION. Step: one step of the machine. -/

namespace Sys2Proof.Machine

/-- One step (log entry 2). -/
def step (s : State) : Host.Outcome State Fault Refusal := nextMove s

/-- The state with an instruction of `nbits` bits placed where the next step issues it (log entry 3). -/
def State.withFetchWord (s : State) (nbits w : Nat) : State :=
  placeWords s (BitVec.ofNat 32 (w % 2 ^ nbits)) (BitVec.ofNat 32 (w % 2 ^ nbits / 2 ^ 32))

end Sys2Proof.Machine
end

