-- ==== Sys2Proof/Safety.lean ====
section
/-! DEFINITION. Safety: the terms in which statements about the machine are made: when a word may issue (R83), what a word of fixed latency leaves
(R75 to R77), what stays as it was, and which configurations are legal (R314, R326, R348). -/

namespace Sys2Proof.Machine

/-! ### When a word issues -/

/-- The fields of a word that decide its checks and its operand phase (R75, R80 to R84): chain bit, modifier, what it accepts, hold bit, sources,
destination; `always` for a word the guard does not suppress. -/
structure Form where
  c : Bool
  q : Option Modifier := none
  acc : Accepts := {}
  h : Bool := false
  srcs : List Src := []
  dst : Option Dst := none
  always : Bool := false
  deriving DecidableEq, Repr

/-- The slots a word takes with its modifier (R80). -/
def Form.words (w : Form) : Nat := if w.q.isSome then 2 else 1

/-- The chain bits stand where R65 and R66 allow them at a slot. -/
def Form.chainOk (w : Form) (slot : Nat) : Bool :=
  match w.q with
  | none => !(w.c && (slot + 1) % 3 == 0)
  | some q => !w.c && !(q.c && (slot + 2) % 3 == 0)

/-- No field of the word traps ILLEGAL (R73, R78, R81). -/
def Form.legal (w : Form) : Bool :=
  !modBad w.acc w.q && !w.srcs.any Src.bad && !(w.dst.map Dst.bad).getD false && !(w.h && hbOf w.q)
    && !(w.h && holdBad w.srcs.head?) && !(hbOf w.q && holdBad w.srcs[1]?)

/-- The guard of a lane at the gang's next word is true (R82). -/
def Form.on (w : Form) (s : State) (k : Gang) (g : Group) (x : Thread) : Bool := w.always || guard w.q (x.c.view (issueCycle s.m k g))

/-- The word may issue to the current gang `k` of group `g`, alone, with source values `vs`: the checks of R83 pass in every active lane, no lane
speculates, every source reads (R75), and the destination lies below the acquired count and, where the guard is true, is full (R12, R92). -/
structure Form.Ready (w : Form) (s : State) (k : Gang) (g : Group) (vs : Thread → List Nat) : Prop where
  cur : s.m.curGang = some (k, g)
  solo : k.mode = .solo
  some : activeLanes k g ≠ []
  plain : ∀ y ∈ g.threads, y.tid ∈ (activeLanes k g).map (·.tid) → y.epi = none
  chain : w.chainOk k.slot = true
  legal : w.legal = true
  reads : ∀ x ∈ activeLanes k g, rdAll g.acquired k.slot k.first (issueCycle s.m k g) x.c w.srcs = .ok (vs x)
  below : ∀ d, w.dst = Option.some d → ∀ n ∈ d.regs, n < g.acquired
  full : ∀ x ∈ activeLanes k g, w.on s k g x = true → ∀ d, w.dst = Option.some d → ∀ n ∈ d.regs, x.c.notFull.getLsbD n = false

/-- Active lanes in which the guard is true. -/
def Form.lanes (w : Form) (s : State) (k : Gang) (g : Group) : List Thread := (activeLanes k g).filter (w.on s k g)

/-- A lane as a word sees it at issue. -/
def Form.laneIn (w : Form) (s : State) (k : Gang) (g : Group) (vs : Thread → List Nat) (x : Thread) : LaneIn :=
  let v := x.c.view (issueCycle s.m k g)
  { t := x, v := v, vs := vs x, g := guard w.q v, on := w.on s k g x }

/-- The guarded lanes as a word sees them. -/
def Form.lanesIn (w : Form) (s : State) (k : Gang) (g : Group) (vs : Thread → List Nat) : List LaneIn :=
  (w.lanes s k g).map (w.laneIn s k g vs)

/-! ### What a word leaves -/


/-- The latch after a word: a held source goes to the entry of the word's slot (R78). -/
def Form.latchAfter (w : Form) (k : Gang) (vs : List Nat) (l : Latch) : Latch :=
  match (if w.h then vs[0]? else if hbOf w.q then vs[1]? else none) with
  | some v => l.put (k.slot % 3) { slot := k.slot, val := BitVec.ofNat 32 v }
  | none => l

/-- The context of an active lane once a word's writes and flags have landed in it, where its guard is true. -/
def Form.after (w : Form) (s : State) (k : Gang) (g : Group) (vs : Thread → List Nat)
    (res : Thread → List (Tgt × Word × Word) × BitVec 5) (x : Thread) : Ctx :=
  let c := x.c.landAll
  let c := if w.on s k g x then { c.settle (res x).1 with fpstat := c.fpstat ||| (res x).2 } else c
  { c with latch := w.latchAfter k (vs x) c.latch }

/-- A core but for its issue units: execute window, the cycles from which they are free, issue rounds (R207, R208, R223). Time itself passes at the end of a
cycle, and no word moves it. -/
def Core.unclocked (c : Core) : Core := { c with window := [], free0 := 0, free1 := 0, round0 := 0, round1 := 0 }

/-- Nothing but groups, gangs and cores differs. -/
def Mach.SameRest (m n : Mach) : Prop := n = { m with cores := n.cores, groups := n.groups, gangs := n.gangs }

/-- Nothing but groups, gangs and the issue units of cores differs, and of the groups and gangs only the current ones. -/
structure Quiet (s t : State) (k : Gang) : Prop where
  cfg : t.cfg = s.cfg
  fleet : t.fleet = s.fleet
  agenda : t.agenda = s.agenda
  rest : s.m.SameRest t.m
  cores : ∀ col c, (t.m.core col c).unclocked = (s.m.core col c).unclocked
  groups : ∀ i, i ≠ k.gid → t.m.group? i = s.m.group? i
  gangs : ∀ i, i ≠ k.id → t.m.gang? i = s.m.gang? i

/-- A word of fixed latency has issued: it advances the gang; in its active lanes the context comes to be `after`, and nothing else changes. -/
structure LaneDone (s t : State) (k : Gang) (g : Group) (n : Nat) (after : Thread → Ctx) : Prop where
  quiet : Quiet s t k
  gang : t.m.gang? k.id = some (k.next n)
  group : ∃ ts, t.m.group? k.gid = some { g with threads := ts }
  lanes : ∀ i x, g.thread? i = some x → ∃ x', t.m.thread? k.gid i = some x' ∧ x' = { x with c := x'.c, lastIssue := x'.lastIssue }
    ∧ (x ∈ activeLanes k g → x'.c.landAll = after x) ∧ (x ∉ activeLanes k g → x'.c = x.c)

/-- The active lanes as a word sees them. -/
def Form.activeIn (w : Form) (s : State) (k : Gang) (g : Group) (vs : Thread → List Nat) : List LaneIn := (activeLanes k g).map (w.laneIn s k g vs)

/-- A word of fixed latency completes: where it is ready and raises no enabled flag (R27), it issues and leaves `res` in its guarded lanes; `res`
takes the guarded lanes and the lane. -/
def Collects (i : Instr) (w : Form) (res : State → Gang → Group → List LaneIn → LaneIn → List (Tgt × Word × Word) × BitVec 5) : Prop :=
  ∀ s k g vs, w.Ready s k g vs → (∀ l ∈ w.lanesIn s k g vs, (res s k g (w.lanesIn s k g vs) l).2 &&& g.fpxen = 0) →
    ∃ t, exec i s = .next t
      ∧ LaneDone s t k g w.words (w.after s k g vs fun x => res s k g (w.lanesIn s k g vs) (w.laneIn s k g vs x))

/-- A word of fixed latency whose result in a lane depends on that lane alone. -/
def Computes (i : Instr) (w : Form) (res : LaneIn → List (Tgt × Word × Word) × BitVec 5) : Prop := Collects i w fun _ _ _ _ l => res l

/-- What every word leaves in its active lanes beside its effect: a held source in the latch (R78), and in an episode the destinations it has
written (R234). -/
def Mach.keepHeld (m : Mach) (w : Form) (k : Gang) (ls : List LaneIn) : Mach :=
  m.mapLanes k.gid ls fun l t =>
    { t with c := { t.c with latch := w.latchAfter k l.vs t.c.latch }
             epi := t.epi.map fun e => if l.on then
               { e with written := ((w.dst.map Dst.regs).getD []).foldl (fun b n => b ||| BitVec.ofNat 256 (2 ^ n)) e.written } else e }

/-- A machine in which a word has taken its effect goes on to the next word; `cls` is the word's timing class. -/
def Mach.wentOn (m : Mach) (w : Form) (k : Gang) (ls : List LaneIn) (cls : Nat) : Mach := (m.keepHeld w k ls).advance k w.words cls

/-- A word completes with an effect on the machine: where it is ready and `ok` holds of its guarded lanes, it takes effect `eff` (which is given
the active lanes) and the gang goes on. -/
def Acts (i : Instr) (w : Form) (cls : Nat) (ok : State → Gang → Group → LaneIn → Prop) (eff : State → Gang → Group → List LaneIn → Mach) : Prop :=
  ∀ s k g vs, w.Ready s k g vs → (∀ l ∈ w.lanesIn s k g vs, ok s k g l) →
    exec i s = .next { s with m := (eff s k g (w.activeIn s k g vs)).wentOn w k (w.activeIn s k g vs) cls }

/-- A word that waits: its gang parks at it, its lanes but those of `w` served (R92). -/
def Mach.parkAt (m : Mach) (k : Gang) (ls : List LaneIn) (w : List Nat) : Mach :=
  m.onGang k.id fun x => { x with st := .parked, sat := x.sat ++ ((ls.map (·.t.tid)).filter fun l => !w.contains l) }

/-- A word completes with effect `eff` where it is ready and `ok` holds; `ok` and `eff` are given the active lanes. -/
def ActsWhen (i : Instr) (w : Form) (cls : Nat) (ok : State → Gang → Group → List LaneIn → Prop) (eff : State → Gang → Group → List LaneIn → Mach) : Prop :=
  ∀ s k g vs, w.Ready s k g vs → ok s k g (w.activeIn s k g vs) →
    exec i s = .next { s with m := (eff s k g (w.activeIn s k g vs)).wentOn w k (w.activeIn s k g vs) cls }

/-- A word of timing class `cls` parks its gang after effect `eff` where it is ready and `ok` holds; `left` are the lanes that wait. It has issued: its class
has entered the window (R92, R207). -/
def ParksWhen (i : Instr) (w : Form) (cls : Nat) (ok : State → Gang → Group → List LaneIn → Prop) (eff : State → Gang → Group → List LaneIn → Mach)
    (left : State → Gang → Group → List LaneIn → List Nat) : Prop :=
  ∀ s k g vs, w.Ready s k g vs → ok s k g (w.activeIn s k g vs) →
    exec i s = .next { s with m := (((eff s k g (w.activeIn s k g vs)).keepHeld w k (w.activeIn s k g vs)).parkAt k (w.activeIn s k g vs)
      (left s k g (w.activeIn s k g vs))).holdWord k g cls }

/-- The uniform registers of a group once every write in flight has landed (R99). -/
def Group.settledUni (g : Group) : SMap Word := (g.spend.foldl Group.applyUni g).s

/-! ### The operand fields of the formats (05, 06, 07) -/

/-- Formats R and RT without D as a source: sources A and B of `w` registers each, destination of `w`. -/
def formR (f : FR) (q : Option Modifier) (acc : Accepts) (w : Nat) : Form :=
  { c := f.c, q := q, acc := acc, h := f.h, srcs := [{ f := f.a, mm := f.m, w := w }, { f := f.b, mm := f.n, w := w, cyc := 1 }]
    dst := some { f := f.d, w := w } }

/-- Format RT: D is the third source (R102, R123). -/
def formRt (f : FRt) (q : Option Modifier) (acc : Accepts) (w : Nat) : Form :=
  { c := f.c, q := q, acc := acc, h := f.h
    srcs := [{ f := f.a, mm := f.m, w := w }, { f := f.b, mm := f.n, w := w, cyc := 1 }, { f := f.d, mm := f.e, w := w, cyc := 2 }]
    dst := some { f := f.d, w := w } }

/-- One source A with a hold bit. -/
def formUn (f : FUn) (q : Option Modifier) : Form :=
  { c := f.c, q := q, h := f.h, srcs := [{ f := f.a, mm := f.m }], dst := some { f := f.d } }

/-- One source of `wa` registers, a destination of `wd`, no hold bit. -/
def formCvt (c : Bool) (q : Option Modifier) (d a : Nat) (m : Bool) (wd wa : Nat) : Form :=
  { c := c, q := q, srcs := [{ f := a, mm := m, w := wa }], dst := some { f := d, w := wd } }

/-- Sources A and B into a predicate. -/
def formP (f : FP) (q : Option Modifier) (acc : Accepts) : Form :=
  { c := f.c, q := q, acc := acc, srcs := [{ f := f.a, mm := f.m }, { f := f.b, mm := f.n, cyc := 1 }] }

/-- A collective word. -/
def formColl (c : Bool) (q : Option Modifier) (srcs : List Src) (dst : Option Dst) : Form := { c := c, q := q, srcs := srcs, dst := dst }

/-! ### Legal configurations -/

/-- A TSPLIT value that R326 allows: at most 20 units. -/
def splitOk (scr tdir surf : Nat) : Prop := scr ≤ 1 ∧ scr + tdir + surf ≤ 20

/-- TSPLIT, in force and to come, is one that R326 allows. -/
def Part.splitLegal (p : Part) : Prop :=
  splitOk p.tsScr p.tsTdir p.tsSurf ∧ ∀ a b c, p.tsNext = some (a, b, c) → splitOk a b c

/-- Two enabled partitions share no twin, or share exactly their twins by time (R314). -/
def Part.apart (p q : Part) : Prop := p.twins &&& q.twins = 0 ∨ (p.slice ≠ 0 ∧ q.slice ≠ 0 ∧ p.twins = q.twins)

/-- What drivers have set is legal: every TSPLIT (R326); every enabled partition is one of VF 1 to 63, has 1, 2, 3 or 6 twins, and is apart from
the others (R314). -/
def Cfg.legal (c : Cfg) : Prop :=
  ∀ v, (c.part v).splitLegal ∧ ((c.part v).en = true → 1 ≤ v ∧ v ≤ 63 ∧ twinCount (c.part v).twins ∈ [1, 2, 3, 6]
    ∧ ∀ w, w ≠ v → (c.part w).en = true → (c.part w).apart (c.part v))

/-- What the fleet controller has set is legal: POWCAP 200 to 660 (in 10 W), REFMAX 32 to 64 (Table 19.1). -/
def Fleet.legal (f : Fleet) : Prop := 200 ≤ f.powcap ∧ f.powcap ≤ 660 ∧ 32 ≤ f.refmax ∧ f.refmax ≤ 64

/-- A state whose configuration is legal. -/
def State.Legal (s : State) : Prop := s.cfg.legal ∧ s.fleet.legal

end Sys2Proof.Machine
end

