-- ==== Sys2Proof/Certificates/Slice0/Obligations.lean ====
section
/-! DEFINITION. Obligations: the statements for the provers. -/

namespace Sys2Proof.Machine

/-! ### Tables of words of fixed latency -/

/-- A row of Table 05.1 with two sources: what modifiers it accepts, whether its result saturates unsigned, its exact result. -/
structure IntRow where
  op : FR → Option Modifier → Instr
  acc : Accepts := accPlain
  uns : Bool := false
  exact : Nat → Nat → Int

/-- Words of Table 05.1 with two sources. -/
def integerRows : List IntRow :=
  [ { op := .iadd, acc := accArith, exact := fun a b => sx a + sx b }
  , { op := .isub, acc := accArith, exact := fun a b => sx a - sx b }
  , { op := .imul, acc := accArith, exact := fun a b => sx a * sx b }
  , { op := .imulhU, acc := accScale, uns := true, exact := fun a b => ((a * b / 2 ^ 32 : Nat) : Int) }
  , { op := .imulhS, acc := accArith, exact := fun a b => (sx a * sx b).fdiv (2 ^ 32) }
  , { op := .iminS, acc := accArith, exact := fun a b => min (sx a) (sx b) }
  , { op := .imaxS, acc := accArith, exact := fun a b => max (sx a) (sx b) }
  , { op := .iminU, acc := accScale, uns := true, exact := fun a b => ((min a b : Nat) : Int) }
  , { op := .imaxU, acc := accScale, uns := true, exact := fun a b => ((max a b : Nat) : Int) }
  , { op := .and, exact := fun a b => ((a &&& b : Nat) : Int) }
  , { op := .or, exact := fun a b => ((a ||| b : Nat) : Int) }
  , { op := .xor, exact := fun a b => ((a ^^^ b : Nat) : Int) }
  , { op := .andn, exact := fun a b => ((a &&& (2 ^ 32 - 1 - b % 2 ^ 32) : Nat) : Int) }
  , { op := .shl, exact := fun a b => if b < 32 then ((a * 2 ^ b : Nat) : Int) else 0 }
  , { op := .shr, exact := fun a b => if b < 32 then ((a / 2 ^ b : Nat) : Int) else 0 }
  , { op := .sar, exact := fun a b => (sx a).fdiv (2 ^ min b 31 : Nat) }
  , { op := .rot, exact := fun a b => (((a * 2 ^ (b % 32) + a / 2 ^ (32 - b % 32)) % 2 ^ 32 : Nat) : Int) }
  , { op := .bfxU, exact := fun a b => ((bitsOf a (fieldOf b).1 (fieldOf b).2 : Nat) : Int) }
  , { op := .bfxS, exact := fun a b => if (fieldOf b).2 = 0 then 0 else sext (bitsOf a (fieldOf b).1 (fieldOf b).2) (fieldOf b).2 }
  , { op := .lea, exact := fun a b => ((a + 4 * b : Nat) : Int) } ]

/-- Words of Table 05.1 with one source. -/
def integerUnaryRows : List ((FUn → Option Modifier → Instr) × (Nat → Int)) :=
  [ (.iabs, fun a => ((sx a).natAbs : Int))
  , (.popc, fun a => ((((List.range 32).filter fun i => bitOf a i).length : Nat) : Int))
  , (.clz, fun a => ((((List.range 32).takeWhile fun i => !bitOf a (31 - i)).length : Nat) : Int))
  , (.brev, fun a => ((((List.range 32).map fun i => if bitOf a i then 2 ^ (31 - i) else 0).sum : Nat) : Int))
  , (.mov, fun a => (a : Int)) ]

/-- A row of Table 05.2. -/
structure ImmRow where
  op : FI → Option Modifier → Instr
  acc : Accepts := {}
  exact : Nat → Int → Int

/-- Words with a 9-bit immediate (R105). -/
def immediateRows : List ImmRow :=
  [ { op := .iaddi, acc := { negA := true, scl := true }, exact := fun a i => sx a + i }
  , { op := .muli, acc := { negA := true, scl := true }, exact := fun a i => sx a * i }
  , { op := .andi, exact := fun a i => ((a &&& bitsI i 32 : Nat) : Int) }
  , { op := .ori, exact := fun a i => ((a ||| bitsI i 32 : Nat) : Int) }
  , { op := .xori, exact := fun a i => ((a ^^^ bitsI i 32 : Nat) : Int) } ]

/-- Shifts by a constant (R105). -/
def shiftRows : List ((FSh → Option Modifier → Instr) × (Nat → Nat → Int)) :=
  [ (.shli, fun a n => if n < 32 then ((a * 2 ^ n : Nat) : Int) else 0)
  , (.shri, fun a n => if n < 32 then ((a / 2 ^ n : Nat) : Int) else 0)
  , (.sari, fun a n => (sx a).fdiv (2 ^ min n 31 : Nat)) ]

/-- Predicate logic (R111). -/
def predicateRows : List ((FPl → Option Modifier → Instr) × (Bool → Bool → Bool)) :=
  [ (.pand, fun p r => p && r), (.por, fun p r => p || r), (.pxor, fun p r => p != r), (.pandn, fun p r => p && !r) ]

/-- One write of predicate `n` (R17). -/
def predOut (n : Nat) (b : Bool) : List (Tgt × Word × Word) := [(Tgt.pred n, 1#32, if b then 1#32 else 0#32)]

/-- An unmodified two-source word as a function of two words (Table 05.1). -/
def bitVectorRows : List ((FR → Option Modifier → Instr) × Accepts × (Word → Word → Word)) :=
  [ (.iadd, accArith, fun a b => a + b), (.isub, accArith, fun a b => a - b), (.imul, accArith, fun a b => a * b)
  , (.imulhU, accScale, fun a b => ((a.setWidth 64 * b.setWidth 64) >>> 32).setWidth 32)
  , (.imulhS, accArith, fun a b => ((a.signExtend 64 * b.signExtend 64) >>> 32).setWidth 32)
  , (.iminS, accArith, fun a b => if a.slt b then a else b), (.imaxS, accArith, fun a b => if a.slt b then b else a)
  , (.iminU, accScale, fun a b => if a.ult b then a else b), (.imaxU, accScale, fun a b => if a.ult b then b else a)
  , (.and, accPlain, fun a b => a &&& b), (.or, accPlain, fun a b => a ||| b), (.xor, accPlain, fun a b => a ^^^ b)
  , (.andn, accPlain, fun a b => a &&& ~~~b), (.shl, accPlain, fun a b => a <<< b), (.shr, accPlain, fun a b => a >>> b)
  , (.sar, accPlain, fun a b => a.sshiftRight b.toNat), (.rot, accPlain, fun a b => a.rotateLeft (b.toNat % 32))
  , (.lea, accPlain, fun a b => a + 4#32 * b) ]

end Sys2Proof.Machine

open Sys2Proof Sys2Proof.Machine

/-- Two-source integer words complete: D := the row's exact result of the modified sources, through the result modifiers; nothing else changes (R98 to
R103, Table 05.1). Without a modifier they are the operations of 32-bit vectors. -/
def Obligations.IntegerWordsComplete : Prop :=
  (∀ r ∈ integerRows, ∀ f q, Computes (r.op f q) (formR f q r.acc 1) fun l =>
    (resWrites f.d 1 (intOut q r.uns 32 (r.exact (intA q (l.val 0)) (intB q (l.val 1)))), 0))
  ∧ (∀ r ∈ bitVectorRows, ∀ f s k g vs, (formR f none r.2.1 1).Ready s k g vs → ∃ t, exec (r.1 f none) s = .next t
    ∧ LaneDone s t k g 1 ((formR f none r.2.1 1).after s k g vs fun x =>
      (resWrites f.d 1 (r.2.2 (BitVec.ofNat 32 ((vs x).getD 0 0)) (BitVec.ofNat 32 ((vs x).getD 1 0))).toNat, 0)))

/-- One-source words, multiply-add, bit-field insert, 64-bit add and subtract, words with an immediate, constants (`lhi` writes bits [31:16] only), `sel`, `setx`, `win`
and the indexed moves complete (R16, R100, R102 to R109). -/
def Obligations.OtherIntegerWordsComplete : Prop :=
  (∀ r ∈ integerUnaryRows, ∀ f q, Computes (r.1 f q) (formUn f q) fun l => (resWrites f.d 1 (intOut q false 32 (r.2 (l.val 0))), 0))
  ∧ (∀ f q, Computes (.imad f q) (formRt f q accArith 1) fun l =>
      (resWrites f.d 1 (intOut q false 32 (sx (intA q (l.val 0)) * sx (intB q (l.val 1)) + sx (l.val 2))), 0))
  ∧ (∀ f q, Computes (.bfi f q) (formRt f q accPlain 1) fun l =>
      (resWrites f.d 1 (intOut q false 32 ((putBits (l.val 2) (fieldOf (intB q (l.val 1))).1 (fieldOf (intB q (l.val 1))).2 (intA q (l.val 0)) : Nat) : Int)), 0))
  ∧ (∀ f q, Computes (.iaddW f q) (formR f q accScale 2) fun l =>
      (resWrites f.d 2 (intOut q false 64 (sext (l.val 0) 64 + sext (l.val 1) 64)), 0))
  ∧ (∀ f q, Computes (.isubW f q) (formR f q accScale 2) fun l =>
      (resWrites f.d 2 (intOut q false 64 (sext (l.val 0) 64 - sext (l.val 1) 64)), 0))
  ∧ (∀ r ∈ immediateRows, ∀ f q, Computes (r.op f q) { c := f.c, q := q, acc := r.acc, srcs := [{ f := f.a, mm := f.m }], dst := some { f := f.d } }
    fun l => (resWrites f.d 1 (intOut q false 32 (r.exact (intA q (l.val 0)) (sext f.i 9))), 0))
  ∧ (∀ r ∈ shiftRows, ∀ f q, Computes (r.1 f q) { c := f.c, q := q, srcs := [{ f := f.a, mm := f.m }], dst := some { f := f.d } }
    fun l => (resWrites f.d 1 (intOut q false 32 (r.2 (l.val 0) f.i)), 0))
  ∧ (∀ f q, Computes (.li f q) { c := f.c, q := q, dst := some { f := f.d } } fun _ => (resWrites f.d 1 (bitsI (sext f.i 16) 32), 0))
  ∧ (∀ f q, Computes (.liu f q) { c := f.c, q := q, dst := some { f := f.d } } fun _ => (resWrites f.d 1 f.i, 0))
  ∧ (∀ f q, Computes (.lhi f q) { c := f.c, q := q, dst := some { f := f.d } } fun _ =>
      ((resWrites f.d 1 (f.i * 2 ^ 16)).map fun x => (x.1, 0xFFFF0000#32, x.2.2), 0))
  ∧ (∀ f q, Computes (.sel f (some q)) { formR f (some q) accPlain 1 with always := true } fun l =>
    (resWrites f.d 1 (if l.g then l.val 0 else l.val 1), 0))
  ∧ (∀ f q, Computes (.setx f q) { c := f.c, q := q, srcs := [{ f := f.a, mm := f.m }] } fun l =>
      ([(Tgt.idx f.x, fullMask, BitVec.ofInt 32 (sx (l.val 0) + sext f.i 10))], 0))
  ∧ (∀ f q, Computes (.win f q) { c := f.c, q := q } fun _ => ([(Tgt.xwin, fullMask, BitVec.ofNat 32 (f.l * 256 + f.b))], 0))
  ∧ (∀ f q s k g vs (u : Thread → Nat), ({ c := f.c, q := q, dst := some { f := f.d } } : Form).Ready s k g vs →
      (∀ x ∈ activeLanes k g, let v := x.c.view (issueCycle s.m k g)
        let n := sx (SMap.get 0 v.x f.x).toNat + sext f.i 10
        (v.winBase.toNat : Int) ≤ n ∧ n ≤ v.winLimit.toNat ∧ n < g.acquired ∧ rdRegs g.acquired x.c v f.m n.toNat 1 = .ok [u x]) →
      ∃ t, exec (.movxR f q) s = .next t ∧ LaneDone s t k g (({ c := f.c, q := q } : Form).words)
        (({ c := f.c, q := q, dst := some { f := f.d } } : Form).after s k g vs fun x => (resWrites f.d 1 (u x), 0)))
  ∧ (∀ f q s k g vs, ({ c := f.c, q := q, srcs := [{ f := f.s, mm := f.m }] } : Form).Ready s k g vs →
      (∀ x ∈ activeLanes k g, let v := x.c.view (issueCycle s.m k g)
        let n := sx (SMap.get 0 v.x f.x).toNat + sext f.i 10
        (v.winBase.toNat : Int) ≤ n ∧ n ≤ v.winLimit.toNat ∧ n < g.acquired ∧ x.c.notFull.getLsbD n.toNat = false) →
      ∃ t, exec (.movxW f q) s = .next t ∧ LaneDone s t k g (({ c := f.c, q := q } : Form).words)
        (({ c := f.c, q := q, srcs := [{ f := f.s, mm := f.m }] } : Form).after s k g vs fun x =>
          let n := sx (SMap.get 0 (x.c.view (issueCycle s.m k g)).x f.x).toNat + sext f.i 10
          ([(Tgt.lane n.toNat, fullMask, BitVec.ofNat 32 ((vs x).getD 0 0))], 0)))

/-- Predicate words complete (R17, R110 to R112, R114): compares, logic, packing, `kset` and `scmp`. -/
def Obligations.PredicateWordsComplete : Prop :=
  (∀ f q, f.p < 6 → Computes (.icmpS f q) (formP f q { negA := true, negB := true, hb := true }) fun l =>
    (predOut f.k (intCompare f.p (sx (intA q (l.val 0))) (sx (intB q (l.val 1)))), 0))
  ∧ (∀ f q, f.p < 6 → Computes (.icmpU f q) (formP f q accPlain) fun l => (predOut f.k (intCompare f.p (intA q (l.val 0)) (intB q (l.val 1))), 0))
  ∧ (∀ r ∈ predicateRows, ∀ f q, Computes (r.1 f q) { c := f.c, q := q } fun l => (predOut f.k (r.2 (l.v.pred f.j != f.x) (l.v.pred f.l != f.y)), 0))
  ∧ (∀ f q, f.k + f.n ≤ 63 → Computes (.kpack f q) { c := f.c, q := q, dst := some { f := f.d } } fun l =>
      (resWrites f.d 1 ((List.range (f.n + 1)).map fun i => if l.v.pred (f.k + i) then 2 ^ i else 0).sum, 0))
  ∧ (∀ f q, f.k + f.n ≤ 63 → Computes (.kunpack f q) { c := f.c, q := q, srcs := [{ f := f.a, mm := f.m }] } fun l =>
      ((List.range (f.n + 1)).map fun i => (Tgt.pred (f.k + i), 1#32, if bitOf (l.val 0) i then 1#32 else 0#32), 0))
  ∧ (∀ f q, Computes (.kset f q) { c := f.c, q := q } fun _ => (predOut f.k f.v, 0))
  ∧ (∀ f q, f.p < 6 → Collects (.scmp f q) { c := f.c, q := q } fun s k g _ _ =>
      let a := (g.uniView (issueCycle s.m k g) f.a).toNat
      let b := (g.uniView (issueCycle s.m k g) f.b).toNat
      (predOut f.k (if f.u then intCompare f.p a b else intCompare f.p (sx a) (sx b)), 0))

namespace Sys2Proof.Machine

/-! ### Floating-point tables -/

/-- A row of Tables 06.2, 06.4, 06.6 with two sources: format, registers, whether packed, exact result. -/
structure FloatRow where
  op : FR → Option Modifier → Instr
  fmt : Fmt := fmt32
  w : Nat := 1
  acc : Accepts := accArith
  halves : Bool := false
  exact : FV → FV → Exact

/-- The modifiers a binary64 word accepts (R130): no hold of B. -/
def accWide : Accepts := { negA := true, negB := true, scl := true }

/-- Floating-point words with two sources. -/
def floatRows : List FloatRow :=
  [ { op := .fadd, exact := exAdd }
  , { op := .fsub, exact := fun a b => exAdd a b.neg }
  , { op := .fmul, exact := exMul }
  , { op := .fmin, exact := exMin }
  , { op := .fmax, exact := exMax }
  , { op := .hadd2, fmt := fmt16, halves := true, exact := exAdd }
  , { op := .hmul2, fmt := fmt16, halves := true, exact := exMul }
  , { op := .dadd, fmt := fmt64, w := 2, acc := accWide, exact := exAdd }
  , { op := .dmul, fmt := fmt64, w := 2, acc := accWide, exact := exMul } ]

/-- Fused multiply-add words: format, registers, whether packed, what they accept. -/
def fmaRows : List ((FRt → Option Modifier → Instr) × Fmt × Nat × Bool × Accepts) :=
  [ (.ffma, fmt32, 1, false, accArith), (.hfma2, fmt16, 1, true, accArith), (.bfma2, fmtBf, 1, true, accArith), (.dfma, fmt64, 2, false, accWide) ]

/-- One rounding of `r i` for each half, or of `r 0` alone; `r` takes the element's number (R127). -/
def halvesOut (halves : Bool) (r : Nat → Rnd) : Rnd :=
  if halves then { bits := (r 0).bits + (r 1).bits * 2 ^ 16, fl := (r 0).fl ||| (r 1).fl } else r 0

/-- Element `i` of a source. -/
def elemOf (halves : Bool) (x i : Nat) : Nat := if halves then bitsOf x (16 * i) 16 else x

/-- Conversions of one register to one register (Table 06.5). -/
def convertRows : List ((FXv → Option Modifier → Instr) × (Nat → Rnd)) :=
  [ (.frndNe, frnd .ne), (.frndZ, frnd .z), (.frndP, frnd .p), (.frndM, frnd .m)
  , (.f2iS, toInt32 fmt32 false), (.f2iU, toInt32 fmt32 true)
  , (.i2fS, fun a => roundTo fmt32 .ne false (Q.ofInt (sx a))), (.i2fU, fun a => roundTo fmt32 .ne false (Q.ofInt a))
  , (.f2h, convert fmt32 fmt16), (.f2bf, convert fmt32 fmtBf), (.f2e4, convert fmt32 fmtE4), (.f2e5, convert fmt32 fmtE5) ]

/-- Special functions and their numbers (Table 06.7). -/
def specialRows : List ((FXv → Option Modifier → Instr) × Nat) :=
  [(.rcp, 0), (.rsq, 1), (.sqrt, 2), (.ex2, 3), (.lg2, 4), (.sin, 5), (.cos, 6), (.tanh, 7)]

/-- A result and its flags, written to a destination of `w` registers (R122). -/
def fpWrites (f w : Nat) (r : Rnd) : List (Tgt × Word × Word) × BitVec 5 := (resWrites f w r.bits, r.fl)

/-! ### Collectives -/

/-- The value position `src` sends, if a lane of the participating set stands there (R139). -/
def sentFrom (ps : List LaneIn) (src : Int) (d : Nat) : List (Tgt × Word × Word) :=
  match ps.find? fun l => (l.pos : Int) == src with
  | some l => resWrites d 1 (l.val 0)
  | none => []

end Sys2Proof.Machine

open Sys2Proof Sys2Proof.Machine

/-- Two-source floating-point words and fused multiply-add words complete: one rounding of the exact result, and the flags it raises; no enabled flag is raised (R27,
R82, R122 to R124, R127, R130). -/
def Obligations.FloatWordsComplete : Prop :=
  (∀ r ∈ floatRows, ∀ f q, Computes (r.op f q) (formR f q r.acc r.w) fun l => fpWrites f.d r.w (halvesOut r.halves fun i =>
    fpOut r.fmt q (r.exact (r.fmt.val (fpA r.fmt q (elemOf r.halves (l.val 0) i))) (r.fmt.val (fpB r.fmt q (elemOf r.halves (l.val 1) i))))))
  ∧ (∀ r ∈ fmaRows, ∀ f q, Computes (r.1 f q) (formRt f q r.2.2.2.2 r.2.2.1) fun l => fpWrites f.d r.2.2.1 (halvesOut r.2.2.2.1 fun i =>
    fpOut r.2.1 q (exFma (r.2.1.val (fpA r.2.1 q (elemOf r.2.2.2.1 (l.val 0) i))) (r.2.1.val (fpB r.2.1 q (elemOf r.2.2.2.1 (l.val 1) i)))
      (r.2.1.val (elemOf r.2.2.2.1 (l.val 2) i)))))

/-- Conversions, compares, classes, the binary64 pair words, special functions and the mixing hash complete (R125, R126, R128, R129, R131 to R135). -/
def Obligations.ConversionAndSpecialWordsComplete : Prop :=
  (∀ r ∈ convertRows, ∀ f q, Computes (r.1 f q) (formCvt f.c q f.d f.a f.m 1 1) fun l => fpWrites f.d 1 (r.2 (l.val 0)))
  ∧ (∀ f q, Computes (.h2f f q) (formCvt f.c q f.d f.a f.m 1 1) fun l =>
      fpWrites f.d 1 (convert fmt16 fmt32 (bitsOf (l.val 0) (if f.s then 16 else 0) 16)))
  ∧ (∀ f q, Computes (.bf2f f q) (formCvt f.c q f.d f.a f.m 1 1) fun l =>
      fpWrites f.d 1 (convert fmtBf fmt32 (bitsOf (l.val 0) (if f.s then 16 else 0) 16)))
  ∧ (∀ f q, Computes (.e42f f q) (formCvt f.c q f.d f.a f.m 1 1) fun l => fpWrites f.d 1 (convert fmtE4 fmt32 (bitsOf (l.val 0) (8 * f.s) 8)))
  ∧ (∀ f q, Computes (.e52f f q) (formCvt f.c q f.d f.a f.m 1 1) fun l => fpWrites f.d 1 (convert fmtE5 fmt32 (bitsOf (l.val 0) (8 * f.s) 8)))
  ∧ (∀ f q, Computes (.d2f f q) (formCvt f.c q f.d f.a f.m 1 2) fun l => fpWrites f.d 1 (convert fmt64 fmt32 (l.val 0)))
  ∧ (∀ f q, Computes (.f2d f q) (formCvt f.c q f.d f.a f.m 2 1) fun l => fpWrites f.d 2 (convert fmt32 fmt64 (l.val 0)))
  ∧ (∀ f q, Computes (.d2i f q) (formCvt f.c q f.d f.a f.m 1 2) fun l => fpWrites f.d 1 (toInt32 fmt64 f.u (l.val 0)))
  ∧ (∀ f q, Computes (.i2d f q) (formCvt f.c q f.d f.a f.m 2 1) fun l =>
      fpWrites f.d 2 (roundTo fmt64 .ne false (Q.ofInt (if f.u then ((l.val 0 : Nat) : Int) else sx (l.val 0)))))
  ∧ (∀ f q, Computes (.fcmp f q) (formP f q { negA := true, negB := true, hb := true }) fun l =>
    let r := fcompare f.p (fmt32.val (fpA fmt32 q (l.val 0))) (fmt32.val (fpB fmt32 q (l.val 1)))
    (predOut f.k r.1, r.2))
  ∧ (∀ f q, Computes (.fclass f q) (formUn f q) fun l => (resWrites f.d 1 (fclassMask (l.val 0)), 0))
  ∧ (∀ f q, Computes (.dsubf f q) { c := f.c, q := q, acc := accWide, dst := some { f := f.d }
                                    srcs := [{ f := pairField f.a, w := 2 }, { f := pairField f.b, w := 2, cyc := 1 }] } fun l =>
      fpWrites f.d 1 (fpOut fmt32 q (exAdd (fmt64.val (fpA fmt64 q (l.val 0))) (fmt64.val (fpB fmt64 q (l.val 1))).neg)))
  ∧ (∀ r ∈ [((.dmin : FDmin → Option Modifier → Instr), exMin), (.dmax, exMax)], ∀ f q,
      Computes (r.1 f q) { c := f.c, q := q, acc := accWide, dst := some { f := pairField f.d, w := 2 }
                           srcs := [{ f := pairField f.a, w := 2 }, { f := pairField f.b, w := 2, cyc := 1 }] } fun l =>
      fpWrites (pairField f.d) 2 (fpOut fmt64 q (r.2 (fmt64.val (fpA fmt64 q (l.val 0))) (fmt64.val (fpB fmt64 q (l.val 1))))))
  ∧ (∀ f q, Computes (.dcmp f q) { c := f.c, q := q, acc := { negA := true, negB := true }
                                   srcs := [{ f := pairField f.a, w := 2 }, { f := pairField f.b, w := 2, cyc := 1 }] } fun l =>
      let r := fcompare f.p (fmt64.val (fpA fmt64 q (l.val 0))) (fmt64.val (fpB fmt64 q (l.val 1)))
      (predOut f.k r.1, r.2))
  ∧ (∀ r ∈ specialRows, ∀ f q, Computes (r.1 f q) { formCvt f.c q f.d f.a f.m 1 1 with acc := { negA := true, scl := true } } fun l =>
      let u := specialFn r.2 (BitVec.ofNat 32 (fpA fmt32 q (l.val 0)))
      fpWrites f.d 1 (fpOut fmt32 q { v := fmt32.val u.bits, fl := u.fl }))
  ∧ (∀ f q, Computes (.hmix f q) (formR f q accPlain 1) fun l =>
      (resWrites f.d 1 (hmixHash (BitVec.ofNat 32 (l.val 0)) (BitVec.ofNat 32 (l.val 1))).toNat, 0))

/-- Collectives without floating point complete over the participating set, the guarded lanes (R136 to R140). -/
def Obligations.CollectiveWordsComplete : Prop :=
  (∀ f q, 112 ≤ f.d → Collects (.ballot f q) (formColl f.c q [] (some { f := f.d, w := 2 })) fun _ _ _ ps _ =>
    (resWrites f.d 2 ((ps.filter fun l => l.v.pred f.k).map fun l => 2 ^ l.pos).sum, 0))
  ∧ (∀ f q, Collects (.kgor f q) (formColl f.c q [] none) fun _ _ _ ps _ => (predOut f.k (ps.any fun l => l.v.pred f.j != f.n), 0))
  ∧ (∀ f q, Collects (.kgand f q) (formColl f.c q [] none) fun _ _ _ ps _ => (predOut f.k (ps.all fun l => l.v.pred f.j != f.n), 0))
  ∧ (∀ f q, Collects (.xferIdx f q) (formColl f.c q [{ f := f.a }, { f := 112 + f.t, cyc := 1 }] (some { f := f.d })) fun _ _ _ ps l =>
      (sentFrom ps (bitsOf (l.val 1) 0 6) f.d, 0))
  ∧ (∀ f q, Collects (.xferRot f q) (formColl f.c q [{ f := f.a }] (some { f := f.d })) fun _ _ _ ps l =>
      (sentFrom ps (((l.pos + f.i) % 64 : Nat) : Int) f.d, 0))
  ∧ (∀ f q, Collects (.xferSh f q) (formColl f.c q [{ f := f.a }] (some { f := f.d })) fun _ _ _ ps l =>
      (sentFrom ps ((l.pos : Int) - sext f.i 6) f.d, 0))
  ∧ (∀ f q, Collects (.xferFlip f q) (formColl f.c q [{ f := f.a }] (some { f := f.d })) fun _ _ _ ps l =>
      (sentFrom ps ((l.pos ^^^ f.i : Nat) : Int) f.d, 0))
  ∧ (∀ f q, Collects (.gredAdd f q) (formColl f.c q [{ f := f.a, mm := f.m }] (some { f := f.d })) fun _ _ _ ps _ =>
      (resWrites f.d 1 (ps.map fun l => l.val 0).sum, 0))
  ∧ (∀ f q, Collects (.gredMin f q) (formColl f.c q [{ f := f.a, mm := f.m }] (some { f := f.d })) fun _ _ _ ps _ =>
      (resWrites f.d 1 (bitsI (minInt (ps.map fun l => sx (l.val 0))) 32), 0))
  ∧ (∀ f q, Collects (.gredMax f q) (formColl f.c q [{ f := f.a, mm := f.m }] (some { f := f.d })) fun _ _ _ ps _ =>
      (resWrites f.d 1 (bitsI (maxInt (ps.map fun l => sx (l.val 0))) 32), 0))
  ∧ (∀ f q, Collects (.gscanAdd f q) (formColl f.c q [{ f := f.a, mm := f.m }] (some { f := f.d })) fun _ _ _ ps l =>
      (resWrites f.d 1 ((ps.filter fun x => if f.x then decide (x.pos < l.pos) else decide (x.pos ≤ l.pos)).map fun x => x.val 0).sum, 0))
  ∧ (∀ f q, 112 ≤ f.d → Collects (.gpos f q) (formColl f.c q [] (some { f := f.d })) fun _ _ _ ps l =>
      (resWrites f.d 1 (ps.filter fun x => decide (x.pos < l.pos)).length, 0))
  ∧ (∀ f q, 112 ≤ f.d → Collects (.gsize f q) (formColl f.c q [] (some { f := f.d })) fun _ _ _ ps _ => (resWrites f.d 1 ps.length, 0))
  ∧ (∀ f q, Collects (.gfirst f q) (formColl f.c q [] none) fun _ _ _ ps l => (predOut f.k (ps.all fun x => decide (l.pos ≤ x.pos)), 0))

namespace Sys2Proof.Machine

/-! ### Words with an effect on the machine -/

/-- No condition beside `Form.Ready`. -/
def always (_ : State) (_ : Gang) (_ : Group) (_ : LaneIn) : Prop := True

/-- The form of a word without operands. -/
def formBare (c : Bool) (q : Option Modifier) : Form := { c := c, q := q }

/-- The form of a word with source A of `w` registers. -/
def formA (c : Bool) (q : Option Modifier) (a : Nat) (m : Bool) (w : Nat) : Form := { c := c, q := q, srcs := [{ f := a, mm := m, w := w }] }

/-- A uniform write where a lane is guarded in: it lands `lat` cycles after issue (R98, R99), and the trailer waits for it (R208). -/
def uniWrite (s : State) (k : Gang) (g : Group) (ls : List LaneIn) (d lat : Nat) (v : Word) : Mach :=
  let due := lastCycle s.m k g + lat
  if (ons ls).isEmpty then s.m
  else (s.m.onGroup k.gid fun x => x.writeUni d v (codeLoc k) due).onGang k.id fun x => { x with uniDue := max x.uniDue due }

/-- A uniform result that a blocking word's completion writes (R92). -/
def uniResult (s : State) (k : Gang) (ls : List LaneIn) (d : Nat) (v : Word) : Mach :=
  if (ons ls).isEmpty then s.m else s.m.onGroup k.gid fun x => x.writeUniNow d v (codeLoc k)

/-- Uniform register `n` as the word reads it. -/
def uniRead (s : State) (k : Gang) (g : Group) (n : Nat) : Word := g.uniView (issueCycle s.m k g) n

/-- Uniform words with two sources (Table 05.4). -/
def uniformRows : List ((FSop → Option Modifier → Instr) × (Word → Word → Word)) :=
  [(.sadd, fun a b => a + b), (.ssub, fun a b => a - b), (.sand, fun a b => a &&& b), (.sor, fun a b => a ||| b)]

/-- A lane's next PC decided at a slot (R69). -/
def takenTo (k : Gang) (pc : Nat) (t : Thread) : Thread := { t with taken := some (pc % 2 ^ 32), takenAt := k.slot }

/-- The packet of the word a gang stands at (R116). -/
def packetAt (k : Gang) : Nat := (k.pc + k.slot / 3) % 2 ^ 32

/-- The target of a branch: its packet plus the signed displacement, modulo 2^32 (R116). -/
def targetAt (k : Gang) (d : Nat) : Nat := bitsI ((packetAt k : Int) + sext d 18) 32

/-- A load of a path: its constructor, path, source registers, what it accepts. -/
def loadRows : List ((FLd → Option Modifier → Instr) × Nat × Nat × Accepts) := [(.ld, 0, 2, accLd), (.lds, 1, 1, accLds), (.ldt, 2, 2, {})]

/-- A store of a path. -/
def storeRows : List ((FSt → Option Modifier → Instr) × Nat × Nat × Accepts) := [(.st, 0, 2, accSt), (.sts, 1, 1, accSts), (.stt, 2, 2, {})]

/-- The form of a load (R148, R149). -/
def formLd (f : FLd) (q : Option Modifier) (acc : Accepts) (wa : Nat) : Form :=
  { c := f.c, q := q, acc := acc, srcs := [{ f := f.a, mm := f.m, w := wa }], dst := some { f := f.d, w := (loadForm f.z).2.2, long := true } }

/-- The form of a store (R148, R149). -/
def formSt (f : FSt) (q : Option Modifier) (acc : Accepts) (wa : Nat) : Form :=
  { c := f.c, q := q, acc := acc
    srcs := [{ f := f.a, mm := f.m, w := wa }, { f := f.s, mm := f.m, w := storeRegs (loadForm f.z).1, cyc := 1 }] }

/-- The access of a load in a lane that does not speculate. -/
def loadOf (p : Nat) (g : Group) (l : LaneIn) (f : FLd) (q : Option Modifier) (issued : Nat) : Acc :=
  let pl := lanePlace p l f.o (loadForm f.z).1
  { gid := g.gid, tid := l.t.tid, op := .load (loadForm f.z).1 (loadForm f.z).2.1, path := pl.1, tow := pl.2.1, addr := pl.2.2
    size := (loadForm f.z).1, dsts := Dst.regs { f := f.d, w := (loadForm f.z).2.2 }, ord := ordOf q, scope := scopeOf 2 q, issued := issued }

/-- The access of a store in a lane. -/
def storeOf (p : Nat) (g : Group) (l : LaneIn) (f : FSt) (q : Option Modifier) (issued : Nat) : Acc :=
  let pl := lanePlace p l f.o (loadForm f.z).1
  { gid := g.gid, tid := l.t.tid, op := .store (loadForm f.z).1 (l.val 1), path := pl.1, tow := pl.2.1, addr := pl.2.2
    size := (loadForm f.z).1, ord := ordOf q, scope := scopeOf 2 q, issued := issued }

/-- Atomics of majors 0x34 and 0x35 and their numbers (Table 07.5). -/
def atomicRows : List ((FAtom → Option Modifier → Instr) × Nat) :=
  [ (.atomAdd, 0), (.atomMinS, 1), (.atomMinU, 2), (.atomMaxS, 3), (.atomMaxU, 4), (.atomAnd, 5), (.atomOr, 6), (.atomXor, 7), (.exch, 8), (.cas, 9)
  , (.atomRinc, 10), (.atomRdec, 11), (.atomFadd, 12) ]

/-- Long-latency accesses of guarded lanes issue, in lane order: destinations become empty, accesses are queued, those of the scratchpad for its port
(R12, R92, R306). -/
def issueAll (s : State) (k : Gang) (g : Group) (ls : List LaneIn) (a : LaneIn → Acc) : Mach := s.m.issueLongs g (lastCycle s.m k g) ((ons ls).map a)

/-- An effect of a word that acts once for its gang, if some lane is guarded in. -/
def onceFor (s : State) (ls : List LaneIn) (e : Mach) : Mach := if (ons ls).isEmpty then s.m else e

end Sys2Proof.Machine

open Sys2Proof Sys2Proof.Machine

/-- Uniform words complete: they write one uniform register, once, where a lane is guarded in (R113, R114, Table 05.4); `sld` reads the window. A write settles as the one
change to the uniform registers, and sets STATUS.UDIV exactly where another location of the epoch has written another value to the register (R19, R99). -/
def Obligations.UniformWordsComplete : Prop :=
  (∀ f q, Acts (.smov f q) (formBare f.c q) 0 always fun s k g ls => uniWrite s k g ls f.d 4 (uniRead s k g f.a))
  ∧ (∀ f q, Acts (.sli f q) (formBare f.c q) 0 always fun s k g ls => uniWrite s k g ls f.d 4 (BitVec.ofInt 32 (sext f.i 10)))
  ∧ (∀ r ∈ uniformRows, ∀ f q, Acts (r.1 f q) (formBare f.c q) 0 always fun s k g ls =>
      uniWrite s k g ls f.d 4 (r.2 (uniRead s k g f.a) (uniRead s k g f.b)))
  ∧ (∀ f q, Acts (.sshl f q) (formBare f.c q) 0 always fun s k g ls => uniWrite s k g ls f.d 4 (uniRead s k g f.a <<< f.i))
  ∧ (∀ f q, Acts (.sshr f q) (formBare f.c q) 0 always fun s k g ls => uniWrite s k g ls f.d 4 (uniRead s k g f.a >>> f.i))
  ∧ (∀ f q, Acts (.vmovs f q) (formA f.c q f.a f.m 1) 0 always fun s k g ls =>
      uniWrite s k g ls f.d 4 (BitVec.ofNat 32 (((lowestLane (ons ls)).map fun l => l.val 0).getD 0)))
  ∧ (∀ f q, Acts (.sld f q) (formBare f.c q) 0
      (fun s k g _ => let off := (uniRead s k g f.a).toNat + 4 * f.i
        scrCheck g off 4 4 off = none ∧ lossCheck s.m g .scr 0 off 4 = none ∧ s.m.lockedAt g.column g.core off 4 = false
          ∧ ∀ low, least ((activeLanes k g).map (·.tid)) = some low → acqPending s.m g low = false ∧ scrPending s.m g low off 4 = false)
      fun s k g ls => uniResult s k ls f.d (BitVec.ofNat 32 (s.m.winRead g.gid ((uniRead s k g f.a).toNat + 4 * f.i) 4)))
  ∧ (∀ (g : Sys2Proof.Machine.Group) n v loc due, (g.writeUni n v loc due).settledUni = SMap.set 0 g.settledUni n v
    ∧ ((g.writeUni n v loc due).udiv = true ↔ g.udiv = true ∨ ∃ u ∈ g.epoch, u.reg = n ∧ u.val ≠ v ∧ u.loc ≠ loc))
  ∧ (∀ (g : Sys2Proof.Machine.Group) n v loc now, (g.writeUniNow n v loc).uniView now n = v
    ∧ ((g.writeUniNow n v loc).udiv = true ↔ g.udiv = true ∨ ∃ u ∈ g.epoch, u.reg = n ∧ u.val ≠ v ∧ u.loc ≠ loc))

/-- Control words complete: `bra`, `jmpr`, `ret`, `yield` and `call` decide the next PC of the lanes that take them, `nop` does nothing (R69, R116 to R118); a lane that takes a
`call` has v110 := P + 1, other lanes keep both. -/
def Obligations.ControlWordsComplete : Prop :=
  (∀ f, Acts (.nop f) (formBare f.c none) 4 always fun s _ _ _ => s.m)
  ∧ (∀ f q, Acts (.bra f q) (formBare f.c q) 0 always fun s k _ ls =>
      s.m.mapLanes k.gid ((ons ls).filter fun l => l.v.pred f.k != f.g) fun _ t => takenTo k (targetAt k f.d) t)
  ∧ (∀ f q, Acts (.jmpr f q) (formA f.c q f.a f.m 1) 0 always fun s k _ ls => s.m.mapLanes k.gid (ons ls) fun l t => takenTo k (l.val 0) t)
  ∧ (∀ f q, Acts (.ret f q) (formA f.c q f.a f.m 1) 0 always fun s k _ ls => s.m.mapLanes k.gid (ons ls) fun l t => takenTo k (l.val 0) t)
  ∧ (∀ f q, Acts (.yield f q) (formBare f.c q) 0 always fun s k _ ls =>
      s.m.mapLanes k.gid (ons ls) fun _ t => { takenTo k (packetAt k + 1) t with yieldNext := true })
  ∧ (∀ f q s k g vs, (formBare f.c q).Ready s k g vs → 110 < g.acquired →
    (∀ x ∈ (formBare f.c q).lanes s k g, (x.c.view (issueCycle s.m k g)).pred f.k ≠ f.g → x.c.notFull.getLsbD 110 = false) →
    ∃ t, exec (.call f q) s = .next t ∧ Quiet s t k ∧ t.m.gang? k.id = some (k.next (formBare f.c q).words)
      ∧ ∀ i x, g.thread? i = some x → ∃ x', t.m.thread? k.gid i = some x'
        ∧ (x ∈ (formBare f.c q).lanes s k g ∧ (x.c.view (issueCycle s.m k g)).pred f.k ≠ f.g →
            x' = { x with c := x'.c, lastIssue := x'.lastIssue, taken := some (targetAt k f.d), takenAt := k.slot }
            ∧ x'.c.landAll = x.c.landAll.settle (resWrites 110 1 ((packetAt k + 1) % 2 ^ 32)))
        ∧ (¬ (x ∈ (formBare f.c q).lanes s k g ∧ (x.c.view (issueCycle s.m k g)).pred f.k ≠ f.g) → x' = { x with lastIssue := x'.lastIssue }))

/-- Loads issue in lanes that pass the checks of R145: the destination registers become empty and the access is queued (R12, R148, R149). -/
def Obligations.LoadWordsIssue : Prop :=
  ∀ r ∈ loadRows, ∀ f q, f.z < 7 → Acts (r.1 f q) (formLd f q r.2.2.2 r.2.2.1) 1
    (fun s _ g l => memCheck r.2.1 s.cfg s.m g l f.o (loadForm f.z).1 = none ∧ memBusy true s.m g l = false)
    fun s k g ls => issueAll s k g ls fun l => loadOf r.2.1 g l f q s.m.free

/-- Stores issue in lanes that pass the checks of R145: each is performed now, in lane order, or queued (R148 to R150). -/
def Obligations.StoreWordsIssue : Prop :=
  ∀ r ∈ storeRows, ∀ f q, f.z < 5 → Acts (r.1 f q) (formSt f q r.2.2.2 r.2.2.1) 1
    (fun s _ g l => memCheck r.2.1 s.cfg s.m g l f.o (loadForm f.z).1 = none ∧ memBusy false s.m g l = false)
    fun s k g ls => s.m.issueStores g (lastCycle s.m k g) ((ons ls).map fun l => storeOf r.2.1 g l f q s.m.free)

/-- Atomics issue: A names the word, B and, for `cas`, D give the operands, D becomes empty (R156, R157). SC operations issue once the thread's earlier accesses are
performed (R158, R159). -/
def Obligations.AtomicAndScWordsIssue : Prop :=
  (∀ r ∈ atomicRows, ∀ f q, Acts (r.1 f q)
    { c := f.c, q := q, acc := accAtom, dst := some { f := f.d, long := true }
      srcs := [{ f := f.a, mm := f.m, w := 2 }, { f := f.b, mm := f.m, cyc := 1 }] ++ (if r.2 = 9 then [{ f := f.d, mm := f.m, cyc := 2 }] else []) } 1
    (fun s _ g l => globCheck g (l.val 0) 4 = none ∧ lossCheck s.m g (placeOf (l.val 0)).1 0 (placeOf (l.val 0)).2 4 = none
      ∧ memBusy true s.m g l = false)
    fun s k g ls => issueAll s k g ls fun l =>
      { gid := g.gid, tid := l.t.tid, op := .atom r.2 (BitVec.ofNat 32 (l.val 1)) (BitVec.ofNat 32 (l.val 2)), path := (placeOf (l.val 0)).1
        addr := (placeOf (l.val 0)).2, size := 4, dsts := Dst.regs { f := f.d }, ord := ordOf q, scope := scopeOf 2 q, issued := s.m.free })
  ∧ (∀ f q, f.z < 2 → Acts (.ldsc f q)
    { c := f.c, q := q, srcs := [{ f := f.a, mm := f.m, w := 2 }], dst := some { f := f.d, w := f.z + 1, long := true } } 1
    (fun s _ g l => scCheck g (l.val 0) (4 * (f.z + 1)) = none ∧ scBusy s.m g l = false)
    fun s k g ls => issueAll s k g ls fun l =>
      scAcc g l (.scLoad (4 * (f.z + 1))) (4 * (f.z + 1)) (Dst.regs { f := f.d, w := f.z + 1 }) s.m.free)
  ∧ (∀ f q, f.z < 2 → Acts (.stsc f q)
      { c := f.c, q := q, acc := { hb := true }, srcs := [{ f := f.a, mm := f.m, w := 2 }, { f := f.b, mm := f.n, w := f.z + 1, cyc := 1 }] } 1
      (fun s _ g l => scCheck g (l.val 0) (4 * (f.z + 1)) = none ∧ scBusy s.m g l = false)
      fun s k g ls => s.m.issueStores g (lastCycle s.m k g) ((ons ls).map fun l => scAcc g l (.scStore (4 * (f.z + 1)) (l.val 1)) (4 * (f.z + 1)) [] s.m.free))
  ∧ (∀ r ∈ [((.atomscAdd : FAsc → Option Modifier → Instr), false), (.atomscCas, true)], ∀ f q, Acts (r.1 f q)
      { c := f.c, q := q, dst := some { f := f.d, long := true }
        srcs := [{ f := pairField f.a, w := 2 }, { f := f.b, cyc := 1 }] ++ (if r.2 then [{ f := f.d, cyc := 2 }] else []) } 1
      (fun s _ g l => scCheck g (l.val 0) 4 = none ∧ scBusy s.m g l = false)
      fun s k g ls => issueAll s k g ls fun l =>
        scAcc g l (.scAtom r.2 (BitVec.ofNat 32 (l.val 1)) (BitVec.ofNat 32 (l.val 2))) 4 (Dst.regs { f := f.d }) s.m.free)

/-- Fences complete once the accesses they wait for are performed: `fence` acts on the L1 as its order and scope say (R160, Table 07.4), `fence.t`
waits for tower-direct accesses (R161). Cache words issue a maintenance access on the line, none in the aperture (R171). -/
def Obligations.FenceAndCacheWordsComplete : Prop :=
  (∀ f q, Acts (.fence f (some q)) { c := f.c, q := some q, acc := { ords := [1, 2, 3], scopes := 7 } } 1
    (fun s _ g l => accPending s.m g l.t.tid = false)
    fun s _ g ls => onceFor s ls ((s.m.releaseAt g q.ord q.scope).acquireAt g q.ord q.scope))
  ∧ (∀ f q, Acts (.fenceT f q) (formBare f.c q) 1 (fun s _ g l => towPending s.m g l.t.tid = false ∧ acqPending s.m g l.t.tid = false)
      fun s _ _ _ => s.m)
  ∧ (∀ r ∈ [((.cflush : FA → Option Modifier → Instr), 0), (.cinv, 1)], ∀ f q, Acts (r.1 f q) (formA f.c q f.a f.m 2) 1
      (fun s _ g l => l.val 0 < 2 ^ 57 ∧ memBusy false s.m g l = false)
      fun s k g ls => s.m.issueStores g (lastCycle s.m k g) (((ons ls).filter fun l => !inAperture (l.val 0) && decide (l.val 0 < 2 ^ 57)).map fun l =>
        { gid := g.gid, tid := l.t.tid, op := .maint r.2, path := .glob, addr := l.val 0 / 128 * 128, size := 128, issued := s.m.free }))
  ∧ (∀ f q, f.l < 2 → Acts (.prefetch f q) (formA f.c q f.a f.m 2) 1 (fun s _ g l => memBusy false s.m g l = false)
      fun s k g ls => s.m.issueStores g (lastCycle s.m k g) (((ons ls).filter fun l => !inAperture (l.val 0) && decide (l.val 0 < 2 ^ 57)).map fun l =>
        { gid := g.gid, tid := l.t.tid, op := .maint (2 + f.l), path := .glob, addr := l.val 0 / 128 * 128, size := 128, issued := s.m.free }))

namespace Sys2Proof.Machine

/-- The form of `bar` and `bar.s`, which refuse every modifier. -/
def formBar (f : FC) (q : Option Modifier) : Form := { c := f.c, q := q, acc := { any := false } }

/-- Lanes arrive at the group barrier; the last arrival completes it (R162). -/
def arrived (s : State) (g : Group) (ls : List LaneIn) : Mach :=
  (s.m.mapLanes g.gid ls fun _ t => if t.bar.isSome then t else { t with bar := some g.round }).checkBarrier g.gid

/-- A barrier word need not wait: no earlier access of its lanes, and no acquire, is outstanding (Table 11.2). -/
def barFree (s : State) (g : Group) (ls : List LaneIn) : Prop :=
  ∀ l ∈ ls, accPending s.m g l.t.tid = false ∧ acqPending s.m g l.t.tid = false

/-- The form of a phase-barrier word with a count. -/
def formPb (f : FPb) (q : Option Modifier) : Form :=
  { c := f.c, q := q, acc := { hb := true }, srcs := [{ f := f.a, mm := f.m }, { f := f.b, mm := f.n, cyc := 1 }] }

/-- The objects that guarded lanes name. -/
def phaseOf (s : State) (g : Group) (l : LaneIn) : PhaseObj := s.m.phaseObj g.gid (l.val 0)

/-- The words that guarded lanes wait for are read at their homes after the core has written back and dropped its copies of their sectors (R246). -/
def dropWaited (s : State) (g : Group) (ls : List LaneIn) : Mach :=
  (ons ls).foldl (fun m l => match s.m.tlbHit g.env.vf (l.val 0) false false with
    | some pa => m.l1Drop g.column g.core (pa / 64)
    | none => m) s.m

/-- A `waitc` of a thread may read the word at an address: no acquire, no earlier access to it and no monitor of the thread is outstanding, and its home has no
uncorrectable error (R146, R150, R169). -/
def waitcFree (s : State) (g : Group) (tid addr : Nat) : Prop :=
  scCheck g addr 4 = none ∧ acqPending s.m g tid = false ∧ globPending s.m g tid addr 4 = false ∧ s.m.wordLost g addr = false
    ∧ s.m.monitor? g.gid tid = none

/-- The form of `waitc`. -/
def formWaitc (f : FWaitc) (q : Option Modifier) : Form :=
  { c := f.c, q := q, acc := { hb := true, ords := [0, 1], scopes := 7 }, srcs := [{ f := f.a, mm := f.m, w := 2 }, { f := f.b, mm := f.n, cyc := 1 }] }

end Sys2Proof.Machine

open Sys2Proof Sys2Proof.Machine

/-- `bar` completes in lanes whose round has ended, and parks its gang while threads are missing (R162). `bar.s` in a group with an SPC granule starts a speculative
episode in lanes that find others missing, and goes on; with nobody missing, it is `bar` (R163, R234). -/
def Obligations.BarrierWordsCompleteOrWait : Prop :=
  (∀ f q, ActsWhen (.bar f q) (formBar f q) 1
    (fun s _ g ls => barFree s g ls ∧ barWaiters (arrived s g ls) g.gid ls = [])
    fun s _ g ls => (arrived s g ls).mapLanes g.gid ls fun _ t => { t with bar := none })
  ∧ (∀ f q, ParksWhen (.bar f q) (formBar f q) 1
      (fun s _ g ls => barFree s g ls ∧ barWaiters (arrived s g ls) g.gid ls ≠ [])
      (fun s _ g ls => leaveBar (arrived s g ls) g ls (barWaiters (arrived s g ls) g.gid ls))
      fun s _ g ls => barWaiters (arrived s g ls) g.gid ls)
  ∧ (∀ f q, ActsWhen (.barS f q) (formBar f q) 1
    (fun s _ g ls => 0 < g.hold.spc ∧ barFree s g ls ∧ (∀ l ∈ ls, l.t.bar = none)
      ∧ barWaiters (arrived s g ls) g.gid ls = ls.map (·.t.tid))
    fun s k g ls => (arrived s g ls).mapLanes g.gid ls fun _ t =>
      { t with epi := some { round := g.round, ckpt := { t.c with pc := k.pc, slot := k.slot + 1, mid := true }, hnd := t.hnd } })
  ∧ (∀ f q, ActsWhen (.barS f q) (formBar f q) 1
      (fun s _ g ls => barFree s g ls ∧ barWaiters (arrived s g ls) g.gid ls = [])
      fun s _ g ls => (arrived s g ls).mapLanes g.gid ls fun _ t => { t with bar := none })

/-- Phase-barrier words complete (R166, R167): `pbinit` starts an object, `pbarrive` takes arrivals, `pbexpect` takes from BAL, `pbtest` reads the parity and `pbwait` passes
where it has changed. A phase ends exactly when PEND and BAL are both 0: the parity flips and PEND becomes EXPECT. -/
def Obligations.PhaseBarrierWordsComplete : Prop :=
  (∀ f q, Acts (.pbinit f q) (formPb f q) 1
    (fun s _ g l => pbCheck s.m g (l.val 0) = none ∧ l.val 1 ≠ 0 ∧ l.val 1 ≤ 2 ^ 20 ∧ pbBusy s.m g l = false)
    fun s _ g ls => (ons ls).foldl (fun m l => (m.putPhase g.gid (l.val 0) { pend := l.val 1, expect := l.val 1, bal := 0, ph := 0 }).onGroup g.gid fun x =>
      { x with globCount := x.globCount.filter fun y => y.1 != l.val 0 }) s.m)
  ∧ (∀ f q, ActsWhen (.pbarrive f q) (formPb f q) 1
      (fun s _ g ls => ∀ l ∈ ons ls, pbCheck s.m g (l.val 0) = none ∧ pbBusy s.m g l = false ∧ accPending s.m g l.t.tid = false
        ∧ l.val 1 ≠ 0 ∧ l.val 1 ≤ (objBefore s.m g ls l).pend)
      fun s _ g ls => (ons ls).foldl (fun m l => match (m.phaseObj g.gid (l.val 0)).arrive (l.val 1) with
        | some o => m.settlePhase g.gid (l.val 0) o
        | none => m) s.m)
  ∧ (∀ f q, Acts (.pbexpect f q) (formPb f q) 1 (fun s _ g l => pbCheck s.m g (l.val 0) = none ∧ pbBusy s.m g l = false)
      fun s _ g ls => (ons ls).foldl (fun m l =>
        if l.val 1 = 0 then m
        else m.settlePhase g.gid (l.val 0)
          { m.phaseObj g.gid (l.val 0) with bal := sext (bitsI ((m.phaseObj g.gid (l.val 0)).bal - l.val 1) 32) 32 }) s.m)
  ∧ (∀ f q, Acts (.pbwait f q) (formA f.c q f.a f.m 1) 1
      (fun s _ g l => pbCheck s.m g (l.val 0) = none ∧ pbBusy s.m g l = false ∧ (phaseOf s g l).ph ≠ if f.p then 1 else 0)
      fun s _ g ls => s.m.pbAcquire g ((ons ls).map fun l => l.val 0) (if f.p then 1 else 0))
  ∧ (∀ f q, ParksWhen (.pbwait f q) (formA f.c q f.a f.m 1) 1
      (fun s _ g ls => (∀ l ∈ ons ls, pbCheck s.m g (l.val 0) = none ∧ pbBusy s.m g l = false)
        ∧ ∃ l ∈ ons ls, (phaseOf s g l).ph = if f.p then 1 else 0)
      (fun s _ g ls => s.m.pbAcquire g (((ons ls).filter fun l => (phaseOf s g l).ph != if f.p then 1 else 0).map fun l => l.val 0) (if f.p then 1 else 0))
      fun s _ g ls => ((ons ls).filter fun l => (phaseOf s g l).ph == if f.p then 1 else 0).map (·.t.tid))
  ∧ (∀ f q, Acts (.pbtest f q) (formA f.c q f.a f.m 1) 1 (fun s _ g l => pbCheck s.m g (l.val 0) = none ∧ pbBusy s.m g l = false)
      fun s k g ls => ((laneNow (fun l => predOut f.k ((phaseOf s g l).ph != if f.p then 1 else 0)) s.m k ls).1).pbAcquire g
        (((ons ls).filter fun l => (phaseOf s g l).ph != if f.p then 1 else 0).map fun l => l.val 0) (if f.p then 1 else 0))
  ∧ (∀ (o : PhaseObj) b, 0 < b → b ≤ o.pend → o.arrive b = some { o with pend := o.pend - b })
  ∧ (∀ (o : PhaseObj) b, b = 0 ∨ o.pend < b → o.arrive b = none)
  ∧ (∀ o : PhaseObj, o.pend = 0 → o.bal = 0 → o.settle = { o with ph := 1 - o.ph, pend := o.expect })
  ∧ (∀ o : PhaseObj, ¬ (o.pend = 0 ∧ o.bal = 0) → o.settle = o)

/-- `waitc` completes where the word at its address, read at its home, meets the condition, as an acquire with ORD 1; a lane without a cached translation or whose
word does not meet it waits (R169, R170). That no older copy of the sector stays in the L1 is deduced from R246 (log entry 44). -/
def Obligations.ConditionWaitWordCompletesOrWaits : Prop :=
  (∀ f q, f.p ≠ 7 → Acts (.waitc f q) (formWaitc f q) 1
    (fun s _ g l => waitcFree s g l.t.tid (l.val 0) ∧ ∃ pa, s.m.tlbHit g.env.vf (l.val 0) false false = some pa
      ∧ waitcHolds f.p (BitVec.ofNat 32 ((s.m.l1Drop g.column g.core (pa / 64)).homeRead pa 4)) (BitVec.ofNat 32 (l.val 1)) = true)
    fun s _ g ls => onceFor s ls ((dropWaited s g ls).acquireAt g (ordOf q) (scopeOf 2 q)))
  ∧ (∀ f q s k g vs x pa, f.p ≠ 7 → (formWaitc f q).Ready s k g vs → activeLanes k g = [x] → (formWaitc f q).on s k g x = true →
      waitcFree s g x.tid ((vs x).getD 0 0) → s.m.tlbHit g.env.vf ((vs x).getD 0 0) false false = some pa →
      waitcHolds f.p (BitVec.ofNat 32 ((s.m.l1Drop g.column g.core (pa / 64)).homeRead pa 4)) (BitVec.ofNat 32 ((vs x).getD 1 0)) = false →
      ∃ t, exec (.waitc f q) s = .next t ∧ (∀ k', t.m.gang? k.id = some k' → k'.st = .parked ∧ k'.slot = k.slot)
        ∧ ∃ y, t.m.monitor? g.gid x.tid = some y ∧ y.pa = pa ∧ y.cond = f.p ∧ y.b = BitVec.ofNat 32 ((vs x).getD 1 0) ∧ y.met = false)

/-- Resource words act (R176, R177): `acq.b` is granted where the request is safe, `acq.t` is decided at once, `rel` queues its request and completes once it has been
served. Queue words act (R178, R179): `qput` sends in ascending position where every lane finds an entry, `qget` takes messages, `qfree` counts entries. -/
def Obligations.ResourceAndQueueWordsAct : Prop :=
  (∀ f q, f.n ≠ 0 → Acts (.acqB f q) (formBare f.c q) 0
    (fun s k g _ => k.ack = false ∧ k.asked = false ∧ claimCheck s.m g f.k f.n = none ∧ requestStatus s.cfg s.m g f.k f.n = 0)
    fun s _ g ls => onceFor s ls (s.m.onGroup g.gid fun x => { x with hold := x.hold.addKind f.k f.n }))
  ∧ (∀ f q, f.n ≠ 0 → ParksWhen (.acqB f q) (formBare f.c q) 0
      (fun s k g ls => ons ls ≠ [] ∧ k.ack = false ∧ k.asked = false ∧ claimCheck s.m g f.k f.n = none ∧ requestStatus s.cfg s.m g f.k f.n ≠ 0)
      (fun s k g _ => (s.m.onGang k.id fun x => { x with asked := true }).onCore g.column g.core fun c =>
        { c with waiters := c.waiters ++ [{ gid := g.gid, gang := k.id, kind := f.k, n := f.n }] })
      fun _ _ _ ls => ls.map (·.t.tid))
  ∧ (∀ f q, f.n ≠ 0 → Acts (.acqT f q) { c := f.c, q := q, dst := some { f := f.d } } 0 (fun s _ g _ => claimCheck s.m g f.t f.n = none)
      fun s k g ls =>
        let st := requestStatus s.cfg s.m g f.t f.n
        onceFor s ls ((if st = 0 then s.m.onGroup g.gid fun x => { x with hold := x.hold.addKind f.t f.n } else s.m).mapLanes k.gid ls fun _ t =>
          t.writeNow (resWrites f.d 1 st ++ predOut f.k (st == 0))))
  ∧ (∀ f q, f.n ≠ 0 → ParksWhen (.rel f q) (formBare f.c q) 0
      (fun _ k g ls => ons ls ≠ [] ∧ k.ack = false ∧ k.asked = false ∧ f.n ≤ g.hold.kind f.k)
      (fun s k g _ => (s.m.onGang k.id fun x => { x with asked := true }).onGroup g.gid fun x =>
        { x with rels := x.rels ++ [{ gang := k.id, kind := f.k, n := f.n, seq := x.seq }] })
      fun _ _ _ ls => ls.map (·.t.tid))
  ∧ (∀ f q, f.n ≠ 0 → Acts (.rel f q) (formBare f.c q) 0 (fun _ k _ _ => k.ack = true) fun s _ _ _ => s.m)
  ∧ (∀ f q, ActsWhen (.qput f q)
    { c := f.c, q := q, acc := { hb := true }, srcs := [{ f := f.a, mm := f.m, w := 2 }, { f := f.b, mm := f.n, cyc := 1 }] } 0
    (fun s _ g ls => firstFull s.m g f.q ls = none ∧ ∀ l ∈ ons ls, accPending s.m g l.t.tid = false ∧ acqPending s.m g l.t.tid = false
      ∧ inCluster g (l.val 1) = true ∧ (f.q = 7 → arrives s.m g ls l = true)
      ∧ ∀ x, sendBytes s.m g f.q (l.val 1) (l.val 0) = some x → s.m.winLocked x.1 x.2.1 x.2.2 = false ∧ s.m.winLost x.1 x.2.1 x.2.2 = false)
    fun s _ g ls => (sortLanes (ons ls)).foldl (fun m l => sendLane s.cfg m g f.q l) s.m)
  ∧ (∀ f q, Acts (.qget f q) { c := f.c, q := q, dst := some { f := f.d, w := 2, long := true } } 0
      (fun s _ g l => f.q ≠ 7 ∧ (g.queues.any fun x => x.num == f.q) = true ∧ memBusy true s.m g l = false)
      fun s k g ls => (((s.m.mapLanes k.gid (sortLanes (ons ls)) fun _ t => t.emptyDsts (Dst.regs { f := f.d, w := 2 })).onGroup g.gid fun x =>
        { x with qwaits := x.qwaits ++ (sortLanes (ons ls)).map fun l => { tid := l.t.tid, num := f.q, dst := f.d } }).fillQgets g.gid f.q
          (g.qwaits.length + (sortLanes (ons ls)).length)))
  ∧ (∀ f q, Acts (.qfree f q) (formCvt f.c q f.d f.a f.m 1 1) 0 (fun _ _ g l => inCluster g (l.val 0) = true)
      fun s k g ls => (laneNow (fun l => resWrites f.d 1 (s.m.qfreeEntries g.column (l.val 0) f.q)) s.m k ls).1)

namespace Sys2Proof.Machine

/-- The surface words' form: a coordinate pair, and a destination of `w` registers or none. -/
def formSurf (f : FXs) (q : Option Modifier) (dst : Option Dst) : Form := { c := f.c, q := q, srcs := [{ f := f.a, w := 2 }], dst := dst }

/-- The form of a texture word: `texl` reads a third register. -/
def formTex (f : FXs) (q : Option Modifier) (lod : Bool) : Form :=
  { c := f.c, q := q, srcs := { f := f.a, w := 2 } :: (if lod then [{ f := if f.a = 123 then 123 else f.a + 2, cyc := 1 }] else [])
    dst := some { f := f.d, w := 4, long := true } }

/-- The registers of a texel of the surface a handle names: below the acquired count, and aligned to their number (R192). -/
def texelFits (s : State) (k : Gang) (g : Group) (f : FXs) : Prop :=
  chkDst g.acquired { f := f.d, w := handleRegs s.m g (uniRead s k g f.s) } = none ∧ texelForm f.d (handleRegs s.m g (uniRead s k g f.s)) = none

/-- Surface accesses of guarded lanes issue, in lane order. -/
def issueEach (s : State) (g : Group) (ls : List LaneIn) (a : LaneIn → Acc) : Mach := (ons ls).foldl (fun m l => m.issueLong g (a l)) s.m

/-- Every guarded lane's record is appended, in ascending gang position; none where the queue is full for one, or a page of it is pending (R204, R333). -/
def emitAll (s : State) (g : Group) (ls : List LaneIn) (j : Nat) : Option Mach :=
  (sortLanes (ons ls)).foldlM (fun m l => match emitLane s.cfg m g l j with
    | (m', .yes) => some m'
    | _ => none) s.m

/-- `emit.t` in every guarded lane: the predicate says whether the record was appended; none where a page of the queue is pending for one. -/
def emitTold (s : State) (k : Gang) (g : Group) (ls : List LaneIn) (j p : Nat) : Option Mach :=
  (sortLanes (ons ls)).foldlM (fun m l => match emitLane s.cfg m g l j with
    | (m', .yes) => some (laneNow (fun _ => predOut p true) m' k [l]).1
    | (m', .full) => some (laneNow (fun _ => predOut p false) m' k [l]).1
    | (_, .wait) => none) s.m

/-- The matrix block a word names in the window. -/
def blockAt (s : State) (k : Gang) (g : Group) (a : Nat) : List Word := readBlk s.m g.gid (uniRead s k g a).toNat

/-- No wait of an engine word: no acquire and no earlier access is outstanding, and the engine has a place. -/
def engineFree (s : State) (g : Group) (l : LaneIn) : Prop :=
  acqPending s.m g l.t.tid = false ∧ accPending s.m g l.t.tid = false ∧ mwordsFull s.m g = false

/-- Lanes trap at the word a gang stands at. -/
def trapsOf (ls : List LaneIn) (c : Cause) (arg : Nat) : List (Nat × Cause × Nat) := ls.map fun l => (l.t.tid, c, arg)

/-- The chain bit of a word; the word of all ones traps ILLEGAL at every slot (Table 03.7). -/
def chainBit (w : Nat) : Bool := bitOf w 31 && w != 0xFFFFFFFF

/-- The guarded lanes of a word trap while the others go on. -/
def trapped (s : State) (w : Form) (k : Gang) (g : Group) (vs : Thread → List Nat) (c : Cause) (arg : Nat) : Mach :=
  (s.m.wentOn w k ((w.activeIn s k g vs).filter fun l => !l.on) 0).deliver s.cfg k k.slot (trapsOf (w.lanesIn s k g vs) c arg)

/-- Lanes trap at issue; the word takes no effect (R84). -/
def trappedAtIssue (s : State) (k : Gang) (g : Group) (ls : List LaneIn) (c : Cause) (arg : Nat) : Mach :=
  (s.m.useUnit g.column g.core k.half none).deliver s.cfg k k.slot (trapsOf ls c arg)

/-- The form of the fused softmax: that of its first word (R143). -/
def formFused (f : Fused) : Form := { c := false, srcs := [{ f := f.x.a, mm := f.x.m }], dst := some { f := f.x.d } }

end Sys2Proof.Machine

open Sys2Proof Sys2Proof.Machine

/-- Engine words act (R180 to R182, R189): `tdef` defines or releases a tile entry, `tstat` reads it, `kick` and `bankjob` queue a block and a card. -/
def Obligations.EngineWordsAct : Prop :=
  (∀ f q, f.a ≤ 59 → Acts (.tdef f q) (formBare f.c q) 0
    (fun s k g l => (tileDesc s.m k g f.a).2 = 0 ∧ (tileDesc s.m k g f.a).1.bad g = false
      ∧ ((s.m.core g.column g.core).tile f.t).foreign g.gid = false ∧ accPending s.m g l.t.tid = false ∧ acqPending s.m g l.t.tid = false
      ∧ (((s.m.core g.column g.core).tile f.t).gid = g.gid → ((s.m.core g.column g.core).tile f.t).moving = false))
    fun s k g ls => onceFor s ls (((s.m.l1BackAll g.column g.core).nextSeq g.gid).setTile g.column g.core f.t
      (if (tileDesc s.m k g f.a).1.rows = 0 then {} else { (tileDesc s.m k g f.a).1 with seq := g.seq })))
  ∧ (∀ f q, Acts (.tstat f q) (formBare f.c q) 0 (fun s _ g _ => ((s.m.core g.column g.core).tile f.t).foreign g.gid = false)
      fun s k g ls => onceFor s ls (s.m.mapLanes k.gid ls fun _ t =>
        t.writeNow (predOut f.k (((s.m.core g.column g.core).tile f.t).st == .ready))))
  ∧ (∀ f q, f.a % 2 = 0 → Acts (.kick f q) (formBare f.c q) 0
      (fun s k g l => badReqAt g (uniRead s k g f.a).toNat = false ∧ badObj g (uniRead s k g (f.a + 1)).toNat = false
        ∧ accPending s.m g l.t.tid = false ∧ acqPending s.m g l.t.tid = false ∧ (s.m.core g.column g.core).kicks.length < 16)
      fun s k g ls => onceFor s ls (kickBlock g (uniRead s k g f.a).toNat (objOf (uniRead s k g (f.a + 1)).toNat) (s.m.l1BackAll g.column g.core)))
  ∧ (∀ f q, f.a % 2 = 0 → Acts (.bankjob f q) (formBare f.c q) 0
      (fun s k g l => cardBad s.cfg s.m g (uniRead s k g f.a).toNat = false ∧ badObj g (uniRead s k g (f.a + 1)).toNat = false
        ∧ towPending s.m g l.t.tid = false ∧ accPending s.m g l.t.tid = false ∧ acqPending s.m g l.t.tid = false
        ∧ s.m.winLocked g.gid (uniRead s k g f.a).toNat (16 * (readCard s.m g 32 (uniRead s k g f.a).toNat).1.length + 16) = false)
      fun s k g ls => onceFor s ls ((s.m.nextSeq g.gid).onCore g.column g.core fun c => { c with cards := c.cards ++
        [{ gid := g.gid, cmds := (readCard s.m g 32 (uniRead s k g f.a).toNat).1, obj := objOf (uniRead s k g (f.a + 1)).toNat, seq := g.seq }] }))

/-- Surface words issue their accesses (R191 to R193), `salloc` writes the handle of what it was given, `sfree` frees a surface. Export words record a depth and
colours in pixel threads, and `occ` sums a draw's counters over the columns of the twin (R194, R195). -/
def Obligations.SurfaceAndExportWordsAct : Prop :=
  (∀ f q, ActsWhen (.suld f q) (formSurf f q (some { f := f.d, long := true })) 1
    (fun s k g ls => texelFits s k g f ∧ ∀ l ∈ ons ls, surfCheck s.m g (uniRead s k g f.s) = none ∧ memBusy true s.m g l = false
      ∧ ∀ n ∈ Dst.regs { f := f.d, w := handleRegs s.m g (uniRead s k g f.s) }, l.t.c.notFull.getLsbD n = false)
    fun s k g ls => issueEach s g ls fun l => surfAcc g l (.suld (uniRead s k g f.s) (bitsOf (l.val 0) 0 16) (bitsOf (l.val 0) 16 16) (bitsOf (l.val 0) 32 8))
      (Dst.regs { f := f.d, w := handleRegs s.m g (uniRead s k g f.s) }) s.m.free)
  ∧ (∀ f q (data : LaneIn → Nat), ActsWhen (.sust f q)
      { c := f.c, q := q, srcs := [{ f := f.a, w := 2 }, { f := f.d, cyc := 1 }] } 1
      (fun s k g ls => (∀ l ∈ ls, sustData s.m k g l f.d (handleRegs s.m g (uniRead s k g f.s)) = .ok [l.val 0, data l])
        ∧ ∀ l ∈ ons ls, surfCheck s.m g (uniRead s k g f.s) = none ∧ texelForm f.d (handleRegs s.m g (uniRead s k g f.s)) = none
          ∧ memBusy false s.m g l = false)
      fun s k g ls => s.m.queueAccs g ((ons ls).map fun l => surfAcc g l
        (.sust (uniRead s k g f.s) (bitsOf (l.val 0) 0 16) (bitsOf (l.val 0) 16 16) (bitsOf (l.val 0) 32 8) (data l)) [] s.m.free))
  ∧ (∀ r ∈ [((.tex : FXs → Option Modifier → Instr), 0), (.texl, 1), (.texg, 2)], ∀ f q, (r.2 = 1 → f.a ≠ 110 ∧ f.a ≠ 118) →
      Acts (r.1 f q) (formTex f q (r.2 == 1)) 1 (fun s k g l => surfCheck s.m g (uniRead s k g f.s) = none ∧ memBusy true s.m g l = false)
      fun s k g ls => issueEach s g ls fun l => surfAcc g l (.tex r.2 (uniRead s k g f.s) (BitVec.ofNat 32 (l.val 0))
        (BitVec.ofNat 32 (l.val 0 / 2 ^ 32)) (BitVec.ofNat 32 (l.val 1))) (Dst.regs { f := f.d, w := 4 }) s.m.free)
  ∧ (∀ f q twin m' h, f.a ≤ 61 → ActsWhen (.salloc f q) (formBare f.c q) 0
      (fun s k g ls => ons ls ≠ [] ∧ (uniDesc s.m k g f.a).bad = false ∧ descTwin s.cfg g.env.vf (some g.column) (uniDesc s.m k g f.a) = some twin
        ∧ (∀ l ∈ ons ls, memBusy false s.m g l = false) ∧ s.m.allocTurn twin k.id = true
        ∧ allocSurface s.cfg g.env.vf g.env.leaf (uniDesc s.m k g f.a).layers (uniDesc s.m k g f.a).fmt (uniDesc s.m k g f.a).height
            (uniDesc s.m k g f.a).width twin (uniDesc s.m k g f.a).seed s.m = .ok m' h ∧ m'.gang? k.id = s.m.gang? k.id)
      fun _ k _ _ => (m'.allocDone k.id).onGroup k.gid fun x => x.writeUniNow f.d h (codeLoc k))
  ∧ (∀ f q x, ActsWhen (.sfree f q) (formBare f.c q) 0
      (fun s k g ls => ons ls ≠ [] ∧ s.m.handle g.env.vf (uniRead s k g f.a) = .ok x ∧ (∀ l ∈ ons ls, (s.m.accsOf g l.t.tid).any (fun a => a.path == .surf) = false)
        ∧ (freeSurface s.cfg x s.m).gang? k.id = s.m.gang? k.id)
      fun s _ _ _ => freeSurface s.cfg x s.m)
  ∧ (∀ f q, Acts (.zexp f q) (formA f.c q f.a f.m 1) 1 (fun _ _ g l => g.env.role = 3 ∧ (l.t.pixel.map (·.early)).getD false = false)
    fun s k _ ls => s.m.mapLanes k.gid (ons ls) fun l t => { t with expZ := some (BitVec.ofNat 32 (l.val 0)) })
  ∧ (∀ f q, Acts (.cexp f q) (formA f.c q f.a f.m 4) 1 (fun _ _ g l => g.env.role = 3 ∧ f.t < (l.t.pixel.map (·.nt)).getD 8)
      fun s k _ ls => s.m.mapLanes k.gid (ons ls) fun l t => { t with expC := (t.expC.filter fun e => e.target != f.t) ++
        [{ target := f.t, r := BitVec.ofNat 32 (l.val 0), g := BitVec.ofNat 32 (l.val 0 / 2 ^ 32), b := BitVec.ofNat 32 (l.val 0 / 2 ^ 64)
           a := BitVec.ofNat 32 (l.val 0 / 2 ^ 96) }] })
  ∧ (∀ f q, Acts (.occ f q) (formCvt f.c q f.d f.a f.m 1 1) 1 (fun _ _ _ l => l.val 0 ≤ 65535)
      fun s k g ls => (laneNow (fun l => resWrites f.d 1 (SMap.get 0 s.m.occ (occKey (2 * (g.column / 2)) (l.val 0))
        + SMap.get 0 s.m.occ (occKey (2 * (g.column / 2) + 1) (l.val 0)))) s.m k ls).1)

/-- Matrix words go to the engine in order (R196 to R202); `mdrain` to registers empties them, and `mstat` says whether a slot is idle. -/
def Obligations.MatrixWordsAct : Prop :=
  (∀ r ∈ [((.mma : FXu1 → Option Modifier → Instr), 0), (.msca, 1)], ∀ f q, Acts (r.1 f q) (formBare f.c q) 0
    (fun s k g l => badBlkAt g (uniRead s k g f.a).toNat = false ∧ blkDst (blockAt s k g f.a) < g.hold.msl
      ∧ (r.2 = 1 → blkSrc (blockAt s k g f.a) < g.hold.msl) ∧ operCheck r.2 s.m g (blockAt s k g f.a) = none ∧ engineFree s g l
      ∧ ((operA (blockAt s k g f.a)).kind = 1 → tileMoving s.m g (operA (blockAt s k g f.a)).tile = false)
      ∧ ((operB (blockAt s k g f.a)).kind = 1 → tileMoving s.m g (operB (blockAt s k g f.a)).tile = false)
      ∧ ∀ h, ({ gid := g.gid, op := r.2, blk := issueBlk (s.m.core g.column g.core) (blockAt s k g f.a) } : MWord).unfolds = some h →
          s.m.handle g.env.vf h ≠ .outside)
    fun s k g ls => onceFor s ls (s.m.putMWord g { gid := g.gid, op := r.2, blk := issueBlk (s.m.core g.column g.core) (blockAt s k g f.a) }))
  ∧ (∀ f q, Acts (.mzero f q) (formBare f.c q) 0
      (fun s _ g l => f.s < g.hold.msl ∧ acqPending s.m g l.t.tid = false ∧ mwordsFull s.m g = false)
      fun s _ g ls => onceFor s ls (s.m.putMWord g { gid := g.gid, op := 2, slot := f.s }))
  ∧ (∀ r ∈ [((.mload : FXu1 → Option Modifier → Instr), 3), (.mdrainAdd, 5)], ∀ f q, Acts (r.1 f q) (formBare f.c q) 0
      (fun s k g l => badBlkAt g (uniRead s k g f.a).toNat = false
        ∧ (if r.2 = 3 then blkDst (blockAt s k g f.a) else blkSrc (blockAt s k g f.a)) < g.hold.msl
        ∧ transferCheck r.2 s.m g (blockAt s k g f.a) = none ∧ engineFree s g l)
      fun s k g ls => onceFor s ls (s.m.putMWord g { gid := g.gid, op := r.2, blk := blockAt s k g f.a }))
  ∧ (∀ f q, f.d = 123 → Acts (.mdrain f q) (formBare f.c q) 0
      (fun s k g l => badBlkAt g (uniRead s k g f.s).toNat = false ∧ blkSrc (blockAt s k g f.s) < g.hold.msl
        ∧ transferCheck 4 s.m g (blockAt s k g f.s) = none ∧ engineFree s g l ∧ trKind (blockAt s k g f.s) ≠ 2)
      fun s k g ls => onceFor s ls (s.m.putMWord g { gid := g.gid, op := 4, blk := blockAt s k g f.s }))
  ∧ (∀ f q, f.d = 123 → Acts (.mdrain f q) (formBare f.c q) 0
      (fun s k g l => badBlkAt g (uniRead s k g f.s).toNat = false ∧ blkSrc (blockAt s k g f.s) < g.hold.msl
        ∧ transferCheck 4 s.m g (blockAt s k g f.s) = none ∧ engineFree s g l ∧ trKind (blockAt s k g f.s) = 2
        ∧ tileMoving s.m g (trTile (blockAt s k g f.s)) = false)
      fun s k g ls => onceFor s ls ((s.m.setTile g.column g.core (trTile (blockAt s k g f.s))
        { (s.m.core g.column g.core).tile (trTile (blockAt s k g f.s)) with st := .draining, seq := g.seq }).putMWord g
        { gid := g.gid, op := 4, blk := blockAt s k g f.s }))
  ∧ (∀ f q, f.d ≤ 111 → ActsWhen (.mdrain f q) (formBare f.c q) 0
      (fun s k g ls => ons ls ≠ [] ∧ badBlkAt g (uniRead s k g f.s).toNat = false ∧ blkSrc (blockAt s k g f.s) < g.hold.msl
        ∧ bitsOf (bword (blockAt s k g f.s) 0) 6 2 ≠ 3 ∧ f.d + blkN (blockAt s k g f.s) ≤ 112 ∧ f.d + blkN (blockAt s k g f.s) ≤ g.acquired
        ∧ trReserved (blockAt s k g f.s) = false ∧ trEf (blockAt s k g f.s) ≠ 3 ∧ trKind (blockAt s k g f.s) ≠ 3 ∧ (∀ l ∈ ls, engineFree s g l)
        ∧ ∀ l ∈ ls, l.t.tid % 64 < blkM (blockAt s k g f.s) → ∀ n < blkN (blockAt s k g f.s), l.t.c.notFull.getLsbD (f.d + n) = false)
      fun s k g ls => (s.m.mapLanes k.gid (drainLanes (blockAt s k g f.s) ls) fun _ t => t.emptyDsts (drainRegs f (blockAt s k g f.s))).putMWord g
        { gid := g.gid, op := 4, blk := blockAt s k g f.s, dreg := some f.d
          lanes := (drainLanes (blockAt s k g f.s) ls).map fun l => (l.t.tid % 64, l.t.tid) })
  ∧ (∀ f q, Acts (.mstat f q) (formBare f.c q) 0 (fun _ _ g _ => f.s < g.hold.msl)
      fun s k g ls =>
        let idle := (s.m.core g.column g.core).mwords.all fun w => w.gid != g.gid || !w.slotsUsed.contains f.s
        onceFor s ls ((if idle && (g.mslot f.s).glob then s.m.l1Inv g.column g.core else s.m).mapLanes k.gid ls fun _ t =>
          t.writeNow (predOut f.k idle)))

/-- `sysrd` and `syswr` act (R22, R205): F4 registers, the long-latency CLK and ETIME, and writes to the writable registers. Emission completes where every record
fits (R204): each guarded lane, in ascending position, appends its record to the successor's queue. -/
def Obligations.SystemAndEmitWordsAct : Prop :=
  (∀ f q, f.n ≤ 0x17 → f.n ≠ 8 → f.n ≠ 9 → (f.n ≠ 0x14 → f.a = 123) →
    Collects (.sysrd f q) { c := f.c, q := q, srcs := [{ f := f.a }], dst := some { f := f.d, w := if f.n = 0x10 then 2 else 1 } } fun s _ g _ l =>
      (resWrites f.d (if f.n = 0x10 then 2 else 1) (sysValue s.cfg s.m g f.n l), 0))
  ∧ (∀ f q, f.n = 8 ∨ f.n = 9 → f.a = 123 → Acts (.sysrd f q) { c := f.c, q := q, srcs := [{ f := f.a }], dst := some { f := f.d, w := 2, long := true } } 0
      (fun s _ g l => longFull s.m g l = false)
      fun s k g ls =>
        let c := s.m.core g.column g.core
        let op := if f.n = 8 then AOp.value ((c.clk + k.off) % 2 ^ 64) else if k.off = 0 then .value (c.ps % 2 ^ 64) else .sample (c.clk + k.off)
        (s.m.mapLanes k.gid (ons ls) fun _ t => t.emptyDsts (Dst.regs { f := f.d, w := 2 })).queueAccs g ((ons ls).map fun l =>
          { gid := g.gid, tid := l.t.tid, op := op, path := .glob, dsts := Dst.regs { f := f.d, w := 2 }, issued := s.m.free
            due := lastCycle s.m k g + 4 }))
  ∧ (∀ f q, sysWritable f.n = true → Acts (.syswr f q) { c := f.c, q := q, srcs := [{ f := f.a, w := if f.n = 0x10 then 2 else 1 }] } 0 always
      fun s k _ ls => (s.m.mapLanes k.gid (sortLanes (ons ls)) fun l t => t.sysWrite f.n (l.val 0)).onGroup k.gid fun x =>
        x.sysWrite f.n ((sortLanes (ons ls)).map fun l => l.val 0))
  ∧ (∀ f q m', ActsWhen (.emit f q) (formA f.c q f.a f.m 1) 0
    (fun s k g ls => (∀ l ∈ ons ls, emitCheck s.cfg s.m g l f.j = none ∧ emitBusy s.m g l = false)
      ∧ emitAll s g ls f.j = some m' ∧ m'.gang? k.id = s.m.gang? k.id)
    fun _ _ _ _ => m')
  ∧ (∀ f q m', ActsWhen (.emitT f q) (formA f.c q f.a f.m 1) 0
      (fun s k g ls => (∀ l ∈ ons ls, emitCheck s.cfg s.m g l f.j = none ∧ emitBusy s.m g l = false)
        ∧ emitTold s k g ls f.j f.k = some m' ∧ m'.gang? k.id = s.m.gang? k.id)
      fun _ _ _ _ => m')

/-- Trap words trap their guarded lanes while the others go on: `trap` with SWTRAP and its immediate, `bkpt` with BKPT (R118); a reserved encoding traps
ILLEGAL in every active lane (R84, R97). -/
def Obligations.TrapWordsTrap : Prop :=
  (∀ f q s k g vs, (formBare f.c q).Ready s k g vs → (formBare f.c q).lanesIn s k g vs ≠ [] →
    exec (.trap f q) s = .next { s with m := trapped s (formBare f.c q) k g vs .swtrap f.i })
  ∧ (∀ f q s k g vs, (formBare f.c q).Ready s k g vs → (formBare f.c q).lanesIn s k g vs ≠ [] →
      exec (.bkpt f q) s = .next { s with m := trapped s (formBare f.c q) k g vs .bkpt 0 })
  ∧ (∀ w s k g vs, ¬ (chainBit w = true ∧ bitsOf w 25 6 = 0x3E) → (formBare false none).Ready s k g vs →
      let c := if chainBit w = true ∧ (k.slot + 1) % 3 = 0 then Cause.illchain else Cause.illegal
      exec (.reservedEncoding w) s = .next { s with m := trappedAtIssue s k g ((formBare false none).activeIn s k g vs) c 0 })
  ∧ (∀ w s k g vs, chainBit w = true ∧ bitsOf w 25 6 = 0x3E → (formBare false none).Ready s k g vs →
      exec (.reservedEncoding w) s = .next { s with m := trappedAtIssue s k g ((formBare false none).activeIn s k g vs) .illchain 0 })

/-- Floating-point reductions follow the tree of R60 over the 64 gang positions, `pick` draws by the prefix sums of R141, `smovv` broadcasts a uniform register
(R114), and the fused softmax leaves what its four words would (R143). -/
def Obligations.ReductionWordsComplete : Prop :=
  (∀ f q, Collects (.gredFadd f q) (formColl f.c q [{ f := f.a, mm := f.m }] (some { f := f.d })) fun _ _ _ ps _ =>
    let r := treeReduce f32Add ps fun l => BitVec.ofNat 32 (l.val 0)
    (resWrites f.d 1 r.1.toNat, r.2))
  ∧ (∀ f q, Collects (.gredFmax f q) (formColl f.c q [{ f := f.a, mm := f.m }] (some { f := f.d })) fun _ _ _ ps _ =>
      let r := treeReduce f32Max ps fun l => BitVec.ofNat 32 (l.val 0)
      (resWrites f.d 1 r.1.toNat, r.2))
  ∧ (∀ f q, Collects (.pick f q) (formColl f.c q [{ f := f.a }] (some { f := f.d })) fun s k g ps _ =>
      (resWrites f.d 1 (pickResult ps (g.uniView (issueCycle s.m k g) f.s)).toNat, 0))
  ∧ (∀ f q, Collects (.smovv f q) { c := f.c, q := q, dst := some { f := f.d } } fun s k g _ _ =>
      (resWrites f.d 1 (g.uniView (issueCycle s.m k g) f.a).toNat, 0))
  ∧ (∀ f s k g vs, fusedAt k.run k.slot = some f → (formFused f).Ready s k g vs →
    (∀ l ∈ (formFused f).activeIn s k g vs, fusedTrap f ((formFused f).activeIn s k g vs) k g (issueCycle s.m k g) l = none) →
    (∀ x ∈ activeLanes k g, ∀ d ∈ [f.sub.d, f.ex.d, f.sum.d], d ≤ 111 → x.c.notFull.getLsbD d = false) →
    ∃ t, exec .fusedSoftmax s = .next t ∧ LaneDone s t k g 4 ((formFused f).after s k g vs fun x =>
      let v := fusedVals f ((formFused f).activeIn s k g vs) ((formFused f).laneIn s k g vs x)
      (resWrites f.x.d 1 v.m.toNat ++ resWrites f.sub.d 1 v.y.bits ++ resWrites f.ex.d 1 v.z.bits ++ resWrites f.sum.d 1 v.s.toNat,
        v.f0 ||| v.y.fl ||| v.z.fl ||| v.f3)))

namespace Sys2Proof.Machine

/-! ### Runs -/

/-- Gang `k` of group `g` is current and may move. -/
structure HasTurn (s : State) (k : Gang) (g : Group) : Prop where
  cur : s.m.curGang = some (k, g)
  resident : g.stage = .resident
  live : g.frozen = false

/-- Code a gang's run is fetched from (R218, R242): base and packets. -/
def codeOf (k : Gang) (g : Group) : Nat × Nat := if k.hnd then (g.env.hbase, g.env.hseg) else (g.env.code, g.env.seglen)

/-- The words a gang's run fetches as. -/
def fetchOf (s : State) (k : Gang) (g : Group) : Mach × Fetch := fetchRun s.cfg g.env.vf (codeOf k g).1 (codeOf k g).2 8 k.pc [] s.m

/-- Row `a` stands before row `b` in the PC table: handler code, then PC, then slot, then window (R224). -/
def Row.before (a b : Row) : Bool := placeLt a.key b.key || (a.key == b.key && decide (a.win < b.win))

/-- A quad has gone 64 issue rounds without issuing (R224). -/
def Row.starved (s : State) (col core half : Nat) (r : Row) : Bool := decide (64 ≤ (s.m.core col core).rounds half - r.last)

end Sys2Proof.Machine

open Sys2Proof Sys2Proof.Machine

/-- RUN_START checks a run as a whole (R68): a well-formed one issues, with temporaries and latch empty in lanes at a run's start (R14, R15); a malformed one
traps RUNFORM in every lane at its first offending slot; a fetch beyond the code segment traps SPACE, one without a translation XLATE. -/
def Obligations.RunStartChecksTheRun : Prop :=
  (∀ s k g m' ws, HasTurn s k g → k.st = .formed → fetchOf s k g = (m', .run ws) → runBad ws = none →
    ∃ t, exec .runStart s = .next t ∧ t.m.gang? k.id = some { k with run := ws, cr := runCr ws, st := .issuing }
      ∧ t.m.smem = s.m.smem ∧ t.m.tmem = s.m.tmem
      ∧ ∀ i x, g.thread? i = some x → t.m.thread? k.gid i =
          some (if i ∈ k.lanes ∧ x.c.mid = false then { x with c := { x.c with t := [], latch := {} } } else x))
  ∧ (∀ s k g m' ws i, HasTurn s k g → k.st = .formed → fetchOf s k g = (m', .run ws) → runBad ws = some i →
      ∃ m'' : Mach, m''.gang? k.id = some { k with run := ws, cr := runCr ws } ∧ m''.smem = s.m.smem ∧ m''.tmem = s.m.tmem
        ∧ exec .runStart s = .next { s with m := trapAll s.cfg m'' { k with run := ws, cr := runCr ws } g i .runform 0 })
  ∧ (∀ s k g m' p, HasTurn s k g → k.st = .formed → fetchOf s k g = (m', .space p) →
      exec .runStart s = .next { s with m := trapAll s.cfg m' k g (3 * ((p + 2 ^ 32 - k.pc) % 2 ^ 32)) .space p })
  ∧ (∀ s k g m' va, HasTurn s k g → k.st = .formed → fetchOf s k g = (m', .xlate va) →
      exec .runStart s = .next { s with m := trapAll s.cfg m' k g 0 .xlate va })
  ∧ (∀ cfg (m : Mach) (k : Gang) g slot c arg, k.speculating g = [] →
      trapAll cfg m k g slot c arg = m.deliver cfg k slot (k.lanes.map fun l => (l, c, arg)))

/-- GANG_FORMATION, with a free slot of sixteen and a row in the PC table, forms one gang at a row that no other precedes, or at the quad that has waited
longest where one has waited 64 issue rounds (R224). What an earlier trailer's AWAIT named is done with in its lanes (R71). -/
def Obligations.GangsFormInTableOrder : Prop :=
  ∀ s col core half, slotsUsed s.m col core half < 16 → pcTable s.m col core half ≠ [] →
    ∃ t r lanes, exec (.gangFormation col core half) s = .next t ∧ r ∈ pcTable s.m col core half
      ∧ ((∀ x ∈ pcTable s.m col core half, x.starved s col core half = false) → ∀ x ∈ pcTable s.m col core half, x.before r = false)
      ∧ (∀ x ∈ pcTable s.m col core half, x.starved s col core half = true → r.starved s col core half = true ∧ r.last ≤ x.last)
      ∧ t.m.gangs = s.m.gangs ++ [{ id := s.m.nextGang, gid := r.gid, half := half, win := r.win, lanes := lanes
                                    quads := (lanes.map (· / 4)).eraseDups, hnd := r.key.1 == 0, pc := r.key.2.1, slot := r.key.2.2
                                    first := r.key.2.2 }]
      ∧ (∀ i, i ≠ r.gid → t.m.group? i = s.m.group? i)
      ∧ (∀ i x, s.m.thread? r.gid i = some x → t.m.thread? r.gid i = some (if i ∈ lanes then { x with await := 0 } else x))
      ∧ t.m.smem = s.m.smem ∧ t.m.tmem = s.m.tmem ∧ t.m.dmem = s.m.dmem ∧ t.m.hmem = s.m.hmem

/-- The trailer of a run: `endrun` issues in a cycle of its own (R208); it retires once every write of the run has landed: each lane stands at its next
PC (R69, R71), AWAIT takes effect, J and Y in the gang's quads, and the gang is gone. Join holds end where no runnable lane of the window has a lower key or after 64
issue rounds, the lowest first (R227; their order, log entry 9), yields after 64 issue rounds (R71); the lanes that wait for a collective run's trapping lanes replay it
from word 0 (R142). -/
def Obligations.TrailersRetireAndHoldsEnd : Prop :=
  (∀ f s k g, s.m.curGang = some (k, g) → ∃ t, exec (.endrun f) s = .next t ∧ t.m.gang? k.id = some { k with st := .trailer }
    ∧ t.m.groups = s.m.groups)
  ∧ (∀ s k g, HasTurn s k g → k.st = .trailer → gangLanded s.m k g = false → exec .trailerRetire s = .next s)
  ∧ (∀ s k g, HasTurn s k g → k.st = .trailer → gangLanded s.m k g = true → ∃ t, exec .trailerRetire s = .next t ∧ t.m.gang? k.id = none
      ∧ (∃ g', t.m.group? k.gid = some g' ∧ (∀ w ∈ g'.spend, (s.m.core g.column g.core).clk < w.due)
          ∧ ∀ n, g'.uniView (s.m.core g.column g.core).clk n = g.uniView (s.m.core g.column g.core).clk n)
      ∧ t.m.smem = s.m.smem ∧ t.m.tmem = s.m.tmem ∧ t.m.dmem = s.m.dmem ∧ t.m.hmem = s.m.hmem
      ∧ ∀ i x, i ∈ k.lanes → g.thread? i = some x → ∃ x', t.m.thread? k.gid i = some x'
        ∧ x'.c = (if x.keep then x.c.landAll else
            { x.c.landAll with pc := x.taken.getD ((k.pc + k.run.length / 3) % 2 ^ 32), slot := 0, mid := false })
        ∧ x'.taken = none ∧ x'.await = BitVec.ofNat 16 k.trailer.w ∧ x'.hnd = x.hnd ∧ x'.exited = x.exited)
  ∧ (∀ s k g t, HasTurn s k g → k.st = .trailer → gangLanded s.m k g = true → exec .trailerRetire s = .next t →
      ∀ i x, g.thread? i = some x → g.halves.getD (i / 64) 0 = k.half → (∃ j ∈ k.lanes, (g.thread? j).isSome = true ∧ j / 4 = i / 4) →
        ∃ x', t.m.thread? k.gid i = some x'
          ∧ x'.joinAt = (if k.trailer.j then some ((s.m.core g.column g.core).rounds k.half) else x.joinAt)
          ∧ (k.trailer.y = true ∨ (∃ j ∈ k.lanes, ∃ y, g.thread? j = some y ∧ y.yieldNext = true ∧ j / 4 = i / 4) →
              x'.yieldAt = some ((s.m.core g.column g.core).rounds k.half))
          ∧ (k.trailer.y = false → (∀ j ∈ k.lanes, ∀ y, g.thread? j = some y → j / 4 = i / 4 → y.yieldNext = false) → x'.yieldAt = none)
          ∧ (i ∉ k.lanes → x'.c = x.c))
  ∧ (∀ s col core half, (joinHeld s.m col core half).length ≤ 512 → ∃ t, exec (.joinHoldEnd col core half) s = .next t
      ∧ (∀ h ∈ joinHeld t.m col core half, joinDue t.m ((t.m.core col core).rounds half) h = false)
      ∧ ((∀ h ∈ joinHeld s.m col core half, joinDue s.m ((s.m.core col core).rounds half) h = false) → t = s)
      ∧ ∀ i n x, s.m.thread? i n = some x → ∃ x', t.m.thread? i n = some x' ∧ (x' = x ∨ ∃ h ∈ joinHeld s.m col core half, h.gid = i ∧ h.quad = n / 4
          ∧ x' = x.endJoin h.since ((s.m.core col core).rounds half)))
  ∧ (∀ s col core half i g, g.live col core = true → s.m.group? i = some g →
      ∃ t, exec (.yieldEnd col core half) s = .next t ∧ ∀ n x, g.thread? n = some x → g.halves.getD (n / 64) 0 = half →
        ∃ x', t.m.thread? i n = some x' ∧ x'.c = x.c
          ∧ (x'.yieldAt = none ↔ ∀ r, x.yieldAt = some r → 64 ≤ (s.m.core col core).rounds half - r))
  ∧ (∀ s gid idx g h, s.m.group? gid = some g → g.stage = .resident → g.frozen = false → g.holds[idx]? = some h → h.trapped = [] → h.waiting ≠ [] →
      slotsUsed s.m g.column g.core (g.halves.getD h.win 0) < 16 → (∀ l ∈ h.waiting, l / 4 ∉ s.m.busyQuads gid) →
      ∃ t, exec (.collectiveReplay gid idx) s = .next t
        ∧ t.m.gangs = s.m.gangs ++ [{ id := s.m.nextGang, gid := gid, half := g.halves.getD h.win 0, win := h.win, lanes := h.waiting
                                      quads := (h.waiting.map (· / 4)).eraseDups, hnd := h.hnd, pc := h.pc }]
        ∧ (∃ g', t.m.group? gid = some g' ∧ g'.holds = g.holds.eraseIdx idx)
        ∧ ∀ i x, g.thread? i = some x → t.m.thread? gid i =
            some (if i ∈ h.waiting then
              { x.holdCollective with wait := .run, await := 0, c := { x.c.landAll with pc := h.pc, slot := 0, mid := false } } else x))

namespace Sys2Proof.Machine

/-! ### Traps and checks -/

/-- The trap that the operand phase of a word ends in for a lane (R75, R83). -/
def Form.trapIn (w : Form) (s : State) (k : Gang) (g : Group) (x : Thread) : Option (Cause × Nat) :=
  match rdAll g.acquired k.slot k.first (issueCycle s.m k g) x.c w.srcs with
  | .trap c a => some (c, a)
  | .wait => none
  | .ok _ => (w.dst.bind (chkDst g.acquired)).map fun n => (.regrange, n)

/-- Gang `k` of group `g` is current, issues alone, and no active lane of it speculates. -/
structure Issues (s : State) (k : Gang) (g : Group) : Prop where
  cur : s.m.curGang = some (k, g)
  solo : k.mode = .solo
  some : activeLanes k g ≠ []
  plain : ∀ y ∈ g.threads, y.tid ∈ (activeLanes k g).map (·.tid) → y.epi = none

/-- Threads trap at the word a gang stands at, at issue, in the order of their lanes. -/
def trapThreads (s : State) (k : Gang) (g : Group) (tr : List (Nat × Cause × Nat)) : Mach :=
  (s.m.useUnit g.column g.core k.half none).deliver s.cfg k k.slot tr

/-- A word is refused as R83 says: ILLCHAIN, else ILLEGAL, in every active lane; else operand traps; else a wait. -/
def Refuses (i : Instr) (w : Form) : Prop :=
  ∀ s k g, Issues s k g →
    (w.chainOk k.slot = false → exec i s = .next { s with m := trapThreads s k g ((activeLanes k g).map fun x => (x.tid, .illchain, 0)) })
    ∧ (w.chainOk k.slot = true → w.legal = false →
        exec i s = .next { s with m := trapThreads s k g ((activeLanes k g).map fun x => (x.tid, .illegal, 0)) })
    ∧ (w.chainOk k.slot = true → w.legal = true → (∃ x ∈ activeLanes k g, (w.trapIn s k g x).isSome = true) →
        exec i s = .next { s with m := trapThreads s k g ((activeLanes k g).filterMap fun x => (w.trapIn s k g x).map fun c => (x.tid, c.1, c.2)) })
    ∧ (w.chainOk k.slot = true → w.legal = true → (∀ x ∈ activeLanes k g, w.trapIn s k g x = none) →
        (∃ x ∈ activeLanes k g, rdAll g.acquired k.slot k.first (issueCycle s.m k g) x.c w.srcs = .wait) →
        exec i s = .next { s with m := s.m.onGang k.id fun x => { x with st := .parked, empty := true } })

end Sys2Proof.Machine

open Sys2Proof Sys2Proof.Machine

/-- Operand reads (R10, R12, R15, R75): ZERO reads 0; the first register of an operand that is not below the acquired count traps REGRANGE with its number,
one that is not full traps EMPTYREAD or waits; a latch entry is readable one or two slots after its hold, outside its chain. -/
def Obligations.OperandsReadAsR75Says : Prop :=
  (∀ cnt slot first now c (x : Src), x.f = 123 → rdOpd cnt slot first now c x = .ok [0])
  ∧ (∀ cnt slot first now c (x : Src) n, x.f ≤ 111 → n < x.w →
      (∀ i < n, x.f + i < cnt ∧ c.notFull.getLsbD (x.f + i) = false) →
      (cnt ≤ x.f + n → rdOpd cnt slot first now c x = .trap .regrange (x.f + n))
      ∧ (x.f + n < cnt → c.notFull.getLsbD (x.f + n) = true → rdOpd cnt slot first now c x = if x.mm then .trap .emptyread 0 else .wait))
  ∧ (∀ cnt slot first now c (x : Src), x.f ≤ 111 → (∀ i < x.w, x.f + i < cnt ∧ c.notFull.getLsbD (x.f + i) = false) →
      rdOpd cnt slot first now c x =
        .ok [((List.range x.w).map fun i => (SMap.get 0 (c.view (now + x.cyc)).v (x.f + i)).toNat * 2 ^ (32 * i)).sum])
  ∧ (∀ cnt slot first now c (x : Src), 112 ≤ x.f → x.f ≤ 119 → rdOpd cnt slot first now c x =
      .ok [((List.range x.w).map fun i => (SMap.get 0 (c.view (now + x.cyc)).t (x.f - 112 + i)).toNat * 2 ^ (32 * i)).sum])
  ∧ (∀ cnt slot first now c (x : Src), 120 ≤ x.f → x.f ≤ 122 → rdOpd cnt slot first now c x =
      match c.latch.entry (x.f - 120) with
      | some e => if e.slot < first ∧ (slot = e.slot + 1 ∨ slot = e.slot + 2) then .ok [e.val.toNat] else .trap .latch 0
      | none => .trap .latch 0)

/-- Words with a malformed encoding or an operand that traps take no effect: they trap in the order of R83, and a word whose operand is empty waits. -/
def Obligations.MalformedWordsAndOperandTrapsTakeNoEffect : Prop :=
  (∀ r ∈ integerRows, ∀ f q, Refuses (r.op f q) (formR f q r.acc 1))
  ∧ (∀ r ∈ floatRows, ∀ f q, Refuses (r.op f q) (formR f q r.acc r.w))
  ∧ (∀ r ∈ loadRows, ∀ f q, f.z < 7 → Refuses (r.1 f q) (formLd f q r.2.2.2 r.2.2.1))
  ∧ (∀ r ∈ storeRows, ∀ f q, f.z < 5 → Refuses (r.1 f q) (formSt f q r.2.2.2 r.2.2.1))

/-- A handled trap redirects its lane to the handler: the core writes the trap registers as Table 01.7 gives (R28), keeps registers and flags in place, saves
the run state, and continues at HENTRY at a run start (R242). -/
def Obligations.HandledTrapsWriteTheTrapRegisters : Prop :=
  ∀ (m : Mach) (k : Gang) tid slot cause arg (g : Sys2Proof.Machine.Group) x, m.group? k.gid = some g → g.thread? tid = some x → slot < 24 →
    cause.fatal = false → g.env.hbase ≠ 0 → x.hnd = false → ∃ x', (m.trapLane k tid slot cause arg).thread? k.gid tid = some x'
      ∧ x'.tcause = BitVec.ofNat 8 cause.code ∧ x'.trappc = BitVec.ofNat 32 k.pc ∧ x'.tslot = slot ∧ x'.traparg = BitVec.ofNat 64 arg
      ∧ x'.hnd = true ∧ x'.cr = k.cr
      ∧ x'.frame = { t := x.c.landAll.t, latch := x.c.landAll.latch, slot := slot }
      ∧ x'.c = { x.c.landAll with pc := g.env.hentry, slot := 0, mid := false, t := [], latch := {} }
      ∧ (∀ i, i ≠ tid → (m.trapLane k tid slot cause arg).thread? k.gid i = g.thread? i)
      ∧ (∀ k', (m.trapLane k tid slot cause arg).gang? k.id = some k' → tid ∉ k'.lanes)

/-- `exit` ends the threads of its guarded lanes, and `trapret` returns them (R30, R117): to the trapped packet and slot, to a fresh run, or as the trap registers then
stand in one of the cases of R30. -/
def Obligations.ExitAndTrapReturnEndRuns : Prop :=
  (∀ f q m', ActsWhen (.exit f q) (formBare f.c q) 0
    (fun s k _ ls => drainPixels s.cfg ((((ons ls).foldl (fun m l => m.exitPixel l.t) s.m).mapLanes k.gid (ons ls) fun _ t =>
        { takenTo k 0 t with exited := true }).checkBarrier k.gid) = m' ∧ m'.gang? k.id = s.m.gang? k.id)
    fun _ _ _ _ => m')
  ∧ (∀ f q, Acts (.trapret f q) (formBare f.c q) 0 (fun _ _ _ l => l.t.hnd = true ∧ l.t.retCase ≠ .runform)
    fun s k g ls => s.m.mapLanes k.gid (ons ls) fun _ t => { (loadTrapFrame s.cfg g s.m t).leave with takenAt := k.slot })
  ∧ (∀ x : Thread, 23 < x.tslot → x.retCase = .runform)
  ∧ (∀ x : Thread, x.tslot ≤ 23 → x.trappc = x.entryPc → x.cr = true →
      x.retCase = .replay ∧ x.leave.wait = .hold ∧ x.leave.c = { x.c.landAll with pc := x.trappc.toNat, slot := 0, mid := false, t := [], latch := {} })
  ∧ (∀ x : Thread, x.tslot ≤ 23 → x.trappc = x.entryPc → x.cr = false → x.entrySlot ≤ x.tslot →
      x.retCase = .resume x.tslot
      ∧ x.leave.c = { x.c.landAll with pc := x.trappc.toNat, slot := x.tslot, mid := true, t := x.frame.t, latch := x.frame.latch })
  ∧ (∀ x : Thread, x.trappc ≠ x.entryPc → x.tslot = 0 →
      x.retCase = .fresh ∧ x.leave.c = { x.c.landAll with pc := x.trappc.toNat, slot := 0, mid := false, t := [], latch := {} })
  ∧ (∀ x : Thread, (x.trappc ≠ x.entryPc ∧ x.tslot ≠ 0) ∨ (x.trappc = x.entryPc ∧ x.cr = false ∧ x.tslot < x.entrySlot) → x.retCase = .runform)
  ∧ (∀ x : Thread, x.retCase ≠ .runform → x.leave.hnd = false)

/-- k0 reads as 1 and a write to it has no effect; k1 to k63 read as 0 in the context a thread is launched with (R17). -/
def Obligations.PredicateZeroIsHardWired : Prop :=
  (∀ c : Ctx, c.pred 0 = true)
  ∧ (∀ (c : Ctx) mask val due, c.apply { tgt := .pred 0, mask := mask, val := val, due := due } = c)
  ∧ (∀ tid i n, 0 < n → n < 64 → (newThread tid i false).c.pred n = false)

namespace Sys2Proof.Machine

/-! ### Accesses -/

/-- Access `idx` of a core may be performed: it is translated, its master is not frozen, no earlier access holds it back, its place is free and can be
served. -/
structure Due (m : Mach) (col core idx : Nat) (a : Acc) (g : Group) : Prop where
  acc : (m.core col core).accs[idx]? = some a
  group : m.group? a.gid = some g
  ready : a.st = .ready
  live : g.frozen = false
  first : ∀ e ∈ (m.core col core).accs.take idx, m.holds g e a = false ∧ m.portHolds e a = false
  free : m.placeFree g a = true
  whole : m.accLost g a = false

/-- The thread of an access takes a value into its destinations, which become full; no other thread changes. -/
def Delivered (s t : State) (a : Acc) (v : Nat) : Prop :=
  (∀ x, s.m.thread? a.gid a.tid = some x → t.m.thread? a.gid a.tid = some (x.fillDsts a.dsts v a.spec))
  ∧ (∀ i, i ≠ a.tid → t.m.thread? a.gid i = s.m.thread? a.gid i) ∧ (∀ j, j ≠ a.gid → t.m.group? j = s.m.group? j)

/-- The answer of an access: its destinations take the value; what the scratchpad port has served becomes a value that is written in its cycle (R306). -/
def Answered (s t : State) (g : Group) (a : Acc) (v : Nat) : Prop :=
  if a.port then { a with op := .value v, ord := 0, port := false } ∈ (t.m.core g.column g.core).accs else Delivered s t a v

/-- No byte of any memory differs. -/
def SameMemory (m n : Mach) : Prop := n.dmem = m.dmem ∧ n.hmem = m.hmem ∧ n.smem = m.smem ∧ n.tmem = m.tmem ∧ n.fmem = m.fmem

/-- `n` bytes at `a` hold a number, little-endian, and every other byte is as it was (R5). -/
def Stored (m m' : Mem) (a n v : Nat) : Prop :=
  readN m' a n = v % 256 ^ n ∧ ∀ b, b < a ∨ a + n ≤ b → byteAt m' b = byteAt m b

end Sys2Proof.Machine

open Sys2Proof Sys2Proof.Machine

/-- A queued load performs at its place (R149, R245, Table 11.1): window bytes, tower bytes, or global bytes through the L1 (at their home, after its sector's
write-back, for an acquire wider than the group), widened, go to its destinations, those of the scratchpad port in their cycle (R306); a relaxed load changes no
memory, but that making room in the L1 writes home what is dirty (R152). -/
def Obligations.LoadsPerform : Prop :=
  (∀ s col core idx a g n sgn, Due s.m col core idx a g → a.op = .load n sgn → a.spec = false → a.commit = false → a.path = .scr →
    ∃ t, exec (.loadPerformed col core idx) s = .next t ∧ Answered s t g a (widen n sgn (readN s.m.smem (scrKey a.gid a.addr) a.size))
      ∧ t.m.smem = s.m.smem ∧ t.m.tmem = s.m.tmem ∧ (a.ord = 0 → SameMemory s.m t.m))
  ∧ (∀ (m : Mach) col core a v x, a.op = .value v → a.due ≤ (m.core col core).clk → m.thread? a.gid a.tid = some x →
      (fillValue col core m a).thread? a.gid a.tid = some (x.fillDsts a.dsts v a.spec))
  ∧ (∀ s col core idx a g n sgn, Due s.m col core idx a g → a.op = .load n sgn → a.spec = false → a.commit = false → a.path = .tow →
      ∃ t, exec (.loadPerformed col core idx) s = .next t ∧ Answered s t g a (widen n sgn (readN s.m.tmem (towKey g.column a.tow a.addr) a.size))
        ∧ t.m.smem = s.m.smem ∧ t.m.tmem = s.m.tmem ∧ (a.ord = 0 → SameMemory s.m t.m))
  ∧ (∀ s col core idx a g n sgn pa, Due s.m col core idx a g → a.op = .load n sgn → a.spec = false → a.commit = false → a.path = .glob →
      s.m.tlbHit g.env.vf a.addr false false = some pa → let m := s.m.dropAcc col core idx
      let v := if atHome a then (m.l1Back g.column g.core (pa / 64)).homeRead pa a.size
        else ((m.l1Room g.column g.core pa).l1Read g.column g.core pa a.size).2
      ∃ t, exec (.loadPerformed col core idx) s = .next t ∧ Answered s t g a (widen n sgn v)
        ∧ t.m.smem = s.m.smem ∧ t.m.tmem = s.m.tmem ∧ (a.ord = 0 → SameMemory (m.l1Room g.column g.core pa) t.m))
  ∧ (∀ s col core idx a g n sgn, Due s.m col core idx a g → a.op = .load n sgn → a.path = .glob →
      s.m.tlbHit g.env.vf a.addr false false = none →
      ∃ t, exec (.loadPerformed col core idx) s = .next t ∧ t = { s with m := s.m.setAcc col core idx { a with st := .missing } })

/-- A queued store performs at its place and changes no other byte there (R149, R152, Table 11.1): window bytes, tower bytes; relaxed global bytes become dirty in
the core's L1 and no home changes but by making room in it; a release wider than the group writes its bytes at their home. -/
def Obligations.StoresPerform : Prop :=
  (∀ s col core idx a g n v, Due s.m col core idx a g → a.op = .store n v → a.path = .scr → Memory.wf s.m.smem →
    ∃ t, exec (.loadPerformed col core idx) s = .next t ∧ Stored s.m.smem t.m.smem (scrKey a.gid a.addr) a.size v
      ∧ t.m.tmem = s.m.tmem ∧ (a.ord = 0 → t.m.dmem = s.m.dmem ∧ t.m.hmem = s.m.hmem))
  ∧ (∀ s col core idx a g n v, Due s.m col core idx a g → a.op = .store n v → a.path = .tow → Memory.wf s.m.tmem →
      ∃ t, exec (.loadPerformed col core idx) s = .next t ∧ Stored s.m.tmem t.m.tmem (towKey g.column a.tow a.addr) a.size v
        ∧ t.m.smem = s.m.smem ∧ t.m.dmem = s.m.dmem ∧ t.m.hmem = s.m.hmem)
  ∧ (∀ s col core idx a g n v pa, Due s.m col core idx a g → a.op = .store n v → a.path = .glob → a.ord = 0 →
      s.m.tlbHit g.env.vf a.addr true false = some pa →
      ∃ t, exec (.loadPerformed col core idx) s = .next t ∧ SameMemory ((s.m.dropAcc col core idx).l1Room g.column g.core pa) t.m
        ∧ ∃ x ∈ (t.m.core g.column g.core).l1, x.sec = pa / 64
          ∧ ∀ i < a.size, i < 64 - pa % 64 → x.dirty.getLsbD (pa % 64 + i) = true)
  ∧ (∀ s col core idx a g n v pa, Due s.m col core idx a g → a.op = .store n v → a.path = .glob → atHome a = true →
      s.m.tlbHit g.env.vf a.addr true false = some pa → Memory.wf s.m.dmem → Memory.wf s.m.hmem →
      ∃ t, exec (.loadPerformed col core idx) s = .next t ∧ t.m.homeRead pa a.size = v % 256 ^ a.size
        ∧ t.m.smem = s.m.smem ∧ t.m.tmem = s.m.tmem)

/-- Atomics perform indivisibly (R157, Table 07.5): the old word goes to the destination and the new one to its place; SC operations perform at their home,
with the stamp one above the larger clock (R159). -/
def Obligations.AtomicsPerform : Prop :=
  (∀ s col core idx a g op b c, Due s.m col core idx a g → a.op = .atom op b c → a.path = .scr → a.spec = false → a.commit = false → Memory.wf s.m.smem →
    g.filter = 0 →
    ∃ t, exec (.loadPerformed col core idx) s = .next t ∧ Answered s t g a (readN s.m.smem (scrKey a.gid a.addr) 4)
      ∧ Stored s.m.smem t.m.smem (scrKey a.gid a.addr) 4 (atomNew op (BitVec.ofNat 32 (readN s.m.smem (scrKey a.gid a.addr) 4)) b c).toNat)
  ∧ (∀ s col core idx a g op b c pa, Due s.m col core idx a g → a.op = .atom op b c → a.path = .glob → a.spec = false → a.commit = false → a.scope ≠ 0 →
      s.m.tlbHit g.env.vf a.addr true false = some pa → Memory.wf s.m.dmem → Memory.wf s.m.hmem → g.filter = 0 →
      let m := ((s.m.dropAcc col core idx).releaseAt g a.ord a.scope).l1Drop g.column g.core (pa / 64)
      ∃ t, exec (.loadPerformed col core idx) s = .next t ∧ Answered s t g a (m.homeRead pa 4)
        ∧ (a.ord ≠ 1 ∧ a.ord ≠ 3 → t.m.homeRead pa 4 = (atomNew op (BitVec.ofNat 32 (m.homeRead pa 4)) b c).toNat))
  ∧ (∀ s col core idx a g n pa, Due s.m col core idx a g → a.op = .scLoad n → a.spec = false → a.commit = false →
      s.m.tlbHit g.env.vf a.addr false false = some pa → let m := (s.m.dropAcc col core idx).l1BackAll g.column g.core
      ∃ t, exec (.loadPerformed col core idx) s = .next t ∧ Answered s t g a (m.homeRead pa a.size)
        ∧ t.m.slices = (m.stampAt g pa).slices)

/-- The L1 reads what it wrote: bytes stored in a sector read back through the L1, and every other read of a line is as it was (R152). -/
def Obligations.CachedBytesReadBack : Prop :=
  ∀ (m : Mach) col c pa n v, (∀ x ∈ (m.core col c).l1, Memory.wf x.data) → 0 < n → pa % 64 + n ≤ 64 →
    ((m.l1Write col c pa n v).l1Read col c pa n).2 = v % 256 ^ n
    ∧ ∀ b k, 0 < k → b % 64 + k ≤ 64 → b + k ≤ pa ∨ pa + n ≤ b → ((m.l1Write col c pa n v).l1Read col c b k).2 = (m.l1Read col c b k).2

namespace Sys2Proof.Machine

/-- Group `g` lies in the subtree of a region of a VF, with state on a core (R243). -/
def Group.inTree (g : Group) (vf root : Nat) : Bool := g.env.vf == vf && g.haltable && g.env.path.contains root

end Sys2Proof.Machine

open Sys2Proof Sys2Proof.Machine

/-- Walks of stalled accesses (R331 to R334): a translation found is cached and frees the access; a pending entry is walked again after 2 µs; an entry that does not
resolve, or 1 ms of pending at an entry of stage 1, is a fatal XLATE; a stage-2 failure, or 1 ms of pending at an entry of stage 2, freezes the group; an
uncorrectable error in a table stops the partition (R338). -/
def Obligations.WalksEndAsTheEntrySays : Prop :=
  (∀ s col core idx g a m' e, s.m.accAt col core idx = some (g, a) → a.st = .missing →
    translateWalk s.cfg s.m g.env.vf a.addr a.writes false = (m', .ok e) →
    ∃ t, exec (.translationWalk col core idx) s = .next t ∧ t = { s with m := m'.setAcc col core idx { a with st := .ready } } ∧ e ∈ t.m.tlb)
  ∧ (∀ s col core idx g a m', s.m.accAt col core idx = some (g, a) → a.st = .missing →
      (∀ s2, translateWalk s.cfg s.m g.env.vf a.addr a.writes false = (m', .pending s2) →
        exec (.translationWalk col core idx) s = .next { s with m := m'.setAcc col core idx { a with st := .pending s.m.etime m'.etime s2 } })
      ∧ (translateWalk s.cfg s.m g.env.vf a.addr a.writes false = (m', .lost) → exec (.translationWalk col core idx) s = .next { s with m := m' }
          ∧ ∃ e ∈ m'.stops, e.1 = g.env.vf ∧ e.2 / 256 = wholePartition))
  ∧ (∀ s col core idx g a m', s.m.accAt col core idx = some (g, a) → a.st = .missing → a.spec = false → (∀ k, a.op ≠ .maint k) →
      translateWalk s.cfg s.m g.env.vf a.addr a.writes false = (m', .fail1) →
      exec (.translationWalk col core idx) s = .next { s with m := (m'.dropAcc col core idx).fatalAcc a .xlate })
  ∧ (∀ s col core idx g a m', s.m.accAt col core idx = some (g, a) → a.st = .missing → (∀ k, a.op ≠ .maint k) →
      translateWalk s.cfg s.m g.env.vf a.addr a.writes false = (m', .fail2) →
      ∃ t, exec (.translationWalk col core idx) s = .next t ∧ (∃ g', t.m.group? a.gid = some g' ∧ g'.frozen = true ∧ g'.offence = some a))
  ∧ (∀ s col core idx g a first last s2 m' e, s.m.accAt col core idx = some (g, a) → a.st = .pending first last s2 → last + 2000000 ≤ s.m.etime →
      translateWalk s.cfg s.m g.env.vf a.addr a.writes false = (m', .ok e) →
      exec (.pendingRewalk col core idx) s = .next { s with m := m'.setAcc col core idx { a with st := .ready } })
  ∧ (∀ s col core idx g a first last s2, s.m.accAt col core idx = some (g, a) → a.st = .pending first last s2 → last + 2000000 > s.m.etime →
      exec (.pendingRewalk col core idx) s = .next s)
  ∧ (∀ s col core idx g a first last, s.m.accAt col core idx = some (g, a) → a.st = .pending first last false → first + 1000000000 ≤ s.m.etime →
      a.spec = false → (∀ k, a.op ≠ .maint k) →
      exec (.pendingTimeout col core idx) s = .next { s with m := (s.m.dropAcc col core idx).fatalAcc a .xlate })
  ∧ (∀ s col core idx g a first last, s.m.accAt col core idx = some (g, a) → a.st = .pending first last true → first + 1000000000 ≤ s.m.etime →
      (∀ k, a.op ≠ .maint k) → ∃ t, exec (.pendingTimeout col core idx) s = .next t
        ∧ ∃ g', t.m.group? a.gid = some g' ∧ g'.frozen = true ∧ g'.offence = some a)
  ∧ (∀ s col core idx g a pa, s.m.accAt col core idx = some (g, a) → a.path = .glob → s.m.tlbHit g.env.vf a.addr a.writes false = some pa →
      pa < hostBase → pa / 2 ^ 42 % 2 ^ 14 ≠ s.m.module → a.since + 100000000 ≤ s.m.etime →
      exec (.remoteAccessTimeout col core idx) s = .next { s with m := (s.m.dropAcc col core idx).fatalAcc a .dataloss })

/-- The L1 writes a sector's dirty bytes home when it ages out or is invalidated (R152), fixed-latency results land by their cycle (R77), and the banker's slice
re-reads the word of an unarmed monitor every 4 µs (R170). -/
def Obligations.SectorsAgeAndResultsLand : Prop :=
  (∀ s col core idx x, (s.m.core col core).l1[idx]? = some x → (s.m.core col core).sector? (x.sec * 64) = some x → Memory.wf s.m.dmem → Memory.wf s.m.hmem →
    ∃ t, exec (.l1AgeWriteback col core idx) s = .next t
      ∧ (∀ i < 64, x.dirty.getLsbD i = true → t.m.homeRead (x.sec * 64 + i) 1 = (byteAt x.data i).toNat)
      ∧ (x.filled = true → ∀ y ∈ (t.m.core col core).l1, y.sec = x.sec → y.dirty = 0) ∧ t.m.smem = s.m.smem ∧ t.m.tmem = s.m.tmem)
  ∧ (∀ s col core idx x, (s.m.core col core).l1[idx]? = some x → (s.m.core col core).sector? (x.sec * 64) = some x → Memory.wf s.m.dmem → Memory.wf s.m.hmem →
      0 < (s.m.core col core).clk → ∃ t, exec (.l1AgeInvalidate col core idx) s = .next t
        ∧ (∀ i < 64, x.dirty.getLsbD i = true → t.m.homeRead (x.sec * 64 + i) 1 = (byteAt x.data i).toNat)
        ∧ (∀ y ∈ (t.m.core col core).l1, y.sec ≠ x.sec) ∧ t.m.smem = s.m.smem ∧ t.m.tmem = s.m.tmem)
  ∧ (∀ s col core i g, s.m.group? i = some g → g.column = col → g.core = core → g.stage = .resident →
      ∃ t, exec (.resultLanding col core) s = .next t
        ∧ (∀ n x, g.thread? n = some x → t.m.thread? i n = some { x with c := x.c.landBy (s.m.core col core).clk })
        ∧ (∃ g', t.m.group? i = some g' ∧ ∀ w ∈ g'.spend, (s.m.core col core).clk < w.due))
  ∧ (∀ s gid, ∃ t, exec (.waitcRepoll gid) s = .next t ∧ t.m.monitors = s.m.monitors.map fun x =>
      if x.gid = gid ∧ x.armed = false ∧ x.lastPoll + 4000000 ≤ s.m.etime then
        { x with lastPoll := s.m.etime, met := x.met || waitcHolds x.cond (BitVec.ofNat 32 (s.m.homeRead x.pa 4)) x.b } else x)

/-- A trap is fatal where its cause is, where the region has no handler, and inside the handler: the fault domain is marked for its stop, and the lane's trap
registers name the trap (R29; log entry 47). The stop halts every group of the domain without a save, and no other; launches of the domain that wait for admission are
launches no more; the domain is stopped (R243). A partition-level fault stops every group of the partition (R338). -/
def Obligations.FaultDomainsStop : Prop :=
  (∀ (m : Mach) (k : Gang) tid slot cause arg (g : Sys2Proof.Machine.Group) x, m.group? k.gid = some g → g.thread? tid = some x →
    cause.fatal = true ∨ g.env.hbase = 0 ∨ x.hnd = true →
    (∃ e ∈ (m.trapLane k tid slot cause arg).stops, e.1 = g.env.vf ∧ e.2 / 256 = g.env.fdroot)
    ∧ ∃ x', (m.trapLane k tid slot cause arg).thread? k.gid tid = some x' ∧ x'.tcause = BitVec.ofNat 8 cause.code ∧ x'.trappc = BitVec.ofNat 32 k.pc
      ∧ x'.tslot = slot ∧ x'.traparg = BitVec.ofNat 64 arg ∧ x'.hnd = x.hnd ∧ x'.wait = .hold)
  ∧ (∀ s idx vf w, s.m.stops[idx]? = some (vf, w) → w / 256 ≠ wholePartition → w / 256 ∉ (s.m.vf vf).stopped →
    ∃ t, exec (.faultDomainStop idx) s = .next t ∧ (∀ x ∈ s.m.stops.eraseIdx idx, x ∈ t.m.stops) ∧ w / 256 ∈ (t.m.vf vf).stopped
      ∧ (∀ i g, s.m.group? i = some g → g.inTree vf (w / 256) = true →
          (∃ g', t.m.group? i = some g' ∧ g'.stage = .stopped ∧ g'.frozen = false) ∧ ∀ k ∈ t.m.gangs, k.gid ≠ i)
      ∧ (∀ g ∈ t.m.groups, g.env.vf = vf → w / 256 ∈ g.env.path → g.stage ≠ .queued)
      ∧ (∀ i g, s.m.group? i = some g → (∀ x ∈ s.m.groups, x.gid = i → x.inTree vf (w / 256) = false
            ∧ ¬ (x.env.vf = vf ∧ w / 256 ∈ x.env.path ∧ x.stage = .queued)) →
          ∃ g', t.m.group? i = some g' ∧ g'.stage = g.stage ∧ g'.threads = g.threads ∧ g'.hold = g.hold))
  ∧ (∀ s idx vf w, s.m.stops[idx]? = some (vf, w) → w / 256 = wholePartition →
      ∃ t, exec (.faultDomainStop idx) s = .next t ∧ (s.m.vf vf).root ∈ (t.m.vf vf).stopped
        ∧ ∀ i g, s.m.group? i = some g → g.env.vf = vf → g.haltable = true → ∃ g', t.m.group? i = some g' ∧ g'.stage = .stopped)

/-- A release whose units are idle completes: HOLD falls and its gang goes on (R177); the holdings of a group that is over and idle return, with its window
(R233). -/
def Obligations.HoldingsReturn : Prop :=
  (∀ s gid g r, s.m.group? gid = some g → g.stage = .resident → g.rels.find? (relIdle s.m g) = some r →
    ∃ t g', exec (.relCompletion gid) s = .next t ∧ t.m.group? gid = some g' ∧ g'.rels = g.rels.erase r
      ∧ ((s.m.core g.column g.core).waiters = [] → g'.hold = g.hold.subKind r.kind r.n)
      ∧ (∀ k, t.m.gang? r.gang = some k → k.ack = true)
      ∧ ∀ b, b < scrKey gid 0 ∨ scrKey gid (2 ^ 32) ≤ b → byteAt t.m.smem b = byteAt s.m.smem b)
  ∧ (∀ s gid g, s.m.group? gid = some g → g.over = true →
      groupIdle { s.m with cores := s.m.cores.map fun (e : Nat × Core) => (e.1, e.2.dropFaulted gid) } g = true →
      ∃ t, exec (.holdingsReturn gid) s = .next t ∧ t.m.group? gid = none ∧ (∀ k ∈ t.m.gangs, k.gid ≠ gid)
        ∧ (∀ off < 2 ^ 32, byteAt t.m.smem (scrKey gid off) = 0)
        ∧ ∀ b, b < scrKey gid 0 ∨ scrKey gid (2 ^ 32) ≤ b → byteAt t.m.smem b = byteAt s.m.smem b)

namespace Sys2Proof.Machine

/-! ### Engines -/

/-- The copy operations and their numbers (Table 08.3). -/
def CopyEvent (i : Instr) (op col core idx : Nat) : Prop :=
  i = .copy col core idx ∧ op = 0 ∨ i = .gather col core idx ∧ op = 1 ∨ i = .fill col core idx ∧ op = 2
    ∨ i = .decompress col core idx ∧ op = 3 ∨ i = .quantise col core idx ∧ op = 4

/-- Block `k` of a core may work on its current request `q`, of operation `op` (R182, R293). -/
structure KickDue (s : State) (col core idx op : Nat) (k : Kick) (g : Group) (q : Req) : Prop where
  kick : (s.m.core col core).kicks[idx]? = some k
  group : s.m.group? k.gid = some g
  free : (s.m.core col core).kickFree idx k s.m.etime = true
  place : badReqAt g k.req = false
  req : q = readReq s.m k.gid k.req
  op : k.op s.m g = op
  fresh : ¬ (k.k < 64 ∧ k.prog = none ∧ q.state = 1)
  lock : s.m.winLocked g.gid k.req 64 = false
  whole : s.m.winLost g.gid k.req 64 = false

/-- The work a step does on a request: what it reads first, then a free number of pieces, at least one. -/
def workOn (s : State) (k : Kick) (g : Group) (q : Req) : Mach × EngBuf × Nat × Option EStop := engWork s.cfg g q k.eb (k.start q) s.m

/-- Block `k` as the engine has begun it, with what it has read ahead. -/
def Kick.begun (k : Kick) (eb : EngBuf) : Kick := { k with granted := true, eb := eb }

/-- The machine after the last piece of a request (R183, R187). -/
def endedReq (col core idx : Nat) (k : Kick) (g : Group) (q : Req) (m : Mach) : Mach :=
  nextReq col core idx k q.link ((m.setReq g.gid k.req 1 q.total).countBytes g.gid k.obj q.total (!q.dsp))

/-- The commands of a card, their numbers and their effects (Table 08.4). -/
def CardEvent (i : Instr) (cmd col core idx : Nat) (f : Nat → Group → CardCmd → Mach → Mach) : Prop :=
  i = .clear col core idx ∧ cmd = 1 ∧ f = cardClear ∨ i = .bcast col core idx ∧ cmd = 2 ∧ f = cardBcast
    ∨ i = .mulrows col core idx ∧ cmd = 3 ∧ f = cardMulrows ∨ i = .readout col core idx ∧ cmd = 4 ∧ f = cardReadout

/-- A card after a command of it. -/
def Card.after (x : Card) (y : CardCmd) : Card := { x with pc := x.pc + 1, bytes := x.bytes + (if y.cmd = 4 then y.window else 0) }

/-- Word `w` of group `g` stands at the head of a core's matrix engine, started, with its work done (R299, R308). -/
structure MatrixDue (s : State) (col core : Nat) (w : MWord) (g : Group) : Prop where
  head : (s.m.core col core).mwords.head? = some w
  group : s.m.group? w.gid = some g
  live : g.frozen = false
  started : w.op = 2 ∨ w.started = true
  work : w.need ≤ w.prog
  held : pendHeld w.pend s.m.etime = false
  obj : MWord.objLocked s.m w = false

/-- A slot of a group with elements of its first M rows and N columns replaced. -/
def slotWritten (m : Mach) (g : Group) (w : MWord) (f : Nat → Nat → Word) : Mach :=
  m.setSlot g.gid (blkDst w.blk) ((g.mslot (blkDst w.blk)).write (blkM w.blk) (blkN w.blk) f)

/-- The registers that a drain of a lane fills. -/
def drainedInto (g : Group) (w : MWord) (d pos : Nat) (t : Thread) : Thread :=
  t.fillDsts ((List.range (blkN w.blk)).map fun n => d + n)
    (joinWords ((List.range (blkN w.blk)).map fun n => ((g.mslot (blkSrc w.blk)).at_ pos n).toNat)) false

/-- The lanes of a drain, filled. -/
def drainedLanes (m : Mach) (g : Group) (w : MWord) (d : Nat) : Mach :=
  w.lanes.foldl (fun m l => m.onThread g.gid l.2 (drainedInto g w d l.1)) m

/-- The elements an `mma` and an `msca` write (R198). -/
def mmaOf (m : Mach) (g : Group) (w : MWord) (i n : Nat) : Word := mmaElem m g w ((g.mslot (blkDst w.blk)).at_ i n) i n
def mscaOf (m : Mach) (g : Group) (w : MWord) (i n : Nat) : Word :=
  mscaElem m g w ((g.mslot (blkDst w.blk)).at_ i n) ((g.mslot (blkSrc w.blk)).at_ i n) i n

/-- A slot whose stored sums are those of its elements (R203). -/
def Slot.consistent (x : Slot) : Prop := badSums x.row (rowSums x.e) = [] ∧ badSums x.col (colSums x.e) = []

/-- A group after the check of slot `i` left it at `x`. -/
def Group.checkedSlot (g : Group) (i : Nat) (x : Slot) : Group := { g with slots := SMap.set {} g.slots i x }

end Sys2Proof.Machine

open Sys2Proof Sys2Proof.Machine

/-- The copy engine works on the current request of a block (R183 to R187): a request that ends has STATE 1 and its total in PROGRESS, its bytes are counted, and
the block goes on at LINK or ends; one with bytes left has STATE 0 and the bytes done in PROGRESS; one that stops unresolved or is malformed has STATE 2 or 3, and its block waits for the driver with a fault record. In the
window a fill writes its pattern, a copy of one row its source bytes, and neither changes another byte. What changes in the window of a group that is away changes in
its image too (R188): `mirrored`. -/
def Obligations.CopyEngineServesRequests : Prop :=
  (∀ i op s col core idx k g q m' eb p, CopyEvent i op col core idx → KickDue s col core idx op k g q → q.bad k.k = false → p ≤ q.total →
    workOn s k g q = (m', eb, p, none) → m'.objLocked g.gid k.obj = false →
    exec i s = .next { s with m := mirrored s.cfg g s.m (if p = q.total then endedReq col core idx (k.begun eb) g q m'
      else (m'.setReq g.gid k.req 0 p).setKick col core idx { k.begun eb with prog := some p, pend := none }) })
  ∧ (∀ i op s col core idx k g q m' eb p va wr, CopyEvent i op col core idx → KickDue s col core idx op k g q → q.bad k.k = false →
      workOn s k g q = (m', eb, p, some (.fail1 va wr)) →
      exec i s = .next { s with m := mirrored s.cfg g s.m (faultReq s.cfg col core idx (k.begun eb) g 2 p va wr m') })
  ∧ (∀ i op s col core idx k g q, CopyEvent i op col core idx → KickDue s col core idx op k g q → q.bad k.k = true →
      exec i s = .next { s with m := mirrored s.cfg g s.m (faultReq s.cfg col core idx (k.begun k.eb) g 3 (k.start q) 0 false s.m) })
  ∧ (∀ cfg col core idx k (g : Sys2Proof.Machine.Group) st p va wr (m m' : Mach), touchRing cfg g.env.vf m = (m', .ready) →
      faultReq cfg col core idx k g st p va wr m = ((m'.setKick col core idx { k with prog := some p, eb := {}, faulted := true, pend := none }).faultRecord
        cfg g col core 1 k.k va p (if wr then 1 else 0) k.off).setReq g.gid k.req st p)
  ∧ (∀ (g : Sys2Proof.Machine.Group) cfg (m m' : Mach), g.away = false → mirrored cfg g m m' = m')
  ∧ (∀ cfg (g : Sys2Proof.Machine.Group) (m : Mach) (q : Req), Memory.wf m.smem → (∀ off, off < granules g.hold.scr → winStop m g off = none) →
      q.op = 2 → q.dsp = true → q.dst + q.len ≤ granules g.hold.scr →
      ∃ m', engRun cfg g q {} q.len 0 m = (m', q.len, none)
        ∧ (∀ i < q.len, byteAt m'.smem (scrKey g.gid (q.dst + i)) = BitVec.ofNat 8 (q.val / 256 ^ (i % min (2 ^ q.fmt) 4)))
        ∧ ∀ b, b < scrKey g.gid q.dst ∨ scrKey g.gid (q.dst + q.len) ≤ b → byteAt m'.smem b = byteAt m.smem b)
  ∧ (∀ cfg (g : Sys2Proof.Machine.Group) (m : Mach) (q : Req), Memory.wf m.smem → (∀ off, off < granules g.hold.scr → winStop m g off = none) →
      q.op = 0 → q.aux = 1 → q.dsp = true → q.ssp = true → q.dst + q.len ≤ granules g.hold.scr → q.src + q.len ≤ granules g.hold.scr →
      q.src + q.len ≤ q.dst ∨ q.dst + q.len ≤ q.src →
      ∃ m', engRun cfg g q {} q.len 0 m = (m', q.len, none)
        ∧ (∀ i < q.len, byteAt m'.smem (scrKey g.gid (q.dst + i)) = byteAt m.smem (scrKey g.gid (q.src + i)))
        ∧ ∀ b, b < scrKey g.gid q.dst ∨ scrKey g.gid (q.dst + q.len) ≤ b → byteAt m'.smem b = byteAt m.smem b)

/-- Tile fills complete: their bytes are copied and the entry is ready; one whose translation cannot be resolved stays filling with a fault record (R180, R337).
A job card locks all its banks at once, its commands run in order, and its end unlocks them and counts its READOUT bytes (R190, R260); one that names a tower outside
its column freezes its queue at its turn (R324). -/
def Obligations.TileFillsAndCardsComplete : Prop :=
  (∀ s col core tile g x away m' p, fillingTile s.m col core tile = some (g, x, away) → x.faulted = false → (s.m.core col core).copyFrozen = false →
    pendHeld x.pend s.m.etime = false → engRun s.cfg g x.req x.eb x.req.total x.prog s.m = (m', p, none) →
    exec (.tileFillComplete col core tile) s = .next { s with m := (mirrored s.cfg g s.m
      (putFilling s.cfg g col core tile away { x with st := .ready, prog := 0, eb := {}, pend := none } m')) })
  ∧ (∀ s col core tile g x away m' p va wr m'', fillingTile s.m col core tile = some (g, x, away) → x.faulted = false →
      (s.m.core col core).copyFrozen = false → pendHeld x.pend s.m.etime = false →
      engRun s.cfg g x.req x.eb x.req.total x.prog s.m = (m', p, some (.fail1 va wr)) → touchRing s.cfg g.env.vf m' = (m'', .ready) →
      exec (.tileFillComplete col core tile) s = .next { s with m := (mirrored s.cfg g s.m
        ((putFilling s.cfg g col core tile away { x with prog := 0, eb := {}, faulted := true, pend := none } m'').faultRecord
          s.cfg g col core 2 0 va 0 0 tile)) })
  ∧ (∀ cfg g col core tile x m, putFilling cfg g col core tile false x m = m.setTile col core tile x)
  ∧ (∀ s col core idx x g, s.m.card? col core idx = some (x, g) → x.locked = false → (s.m.core col core).bankFrozen = false →
      (∀ y ∈ x.cmds, y.outside = false) → cardHeld s.m col core idx x = false →
      (∀ y ∈ (s.m.core col core).cards.take idx, y.shares x = false ∧ ∀ z ∈ y.cmds, z.outside = false) →
      (∀ y ∈ x.cmds, 4 ≤ (s.m.core col y.tower).bankCu) →
      exec (.cardLock col core idx) s = .next { s with m := s.m.setCard col core idx { x with locked := true } })
  ∧ (∀ s col core x g y, s.m.card? col core 0 = some (x, g) → (s.m.core col core).bankFrozen = false → x.cmds.find? CardCmd.outside = some y →
      (∀ z ∈ (s.m.core col core).cards, z.locked = false) →
      exec (.cardLock col core 0) s = .next { s with m := s.m.freezeBank g col core 2 (y.tower * 2 ^ 32 + y.loff) })
  ∧ (∀ i cmd f s col core idx x g y, CardEvent i cmd col core idx f → s.m.card? col core idx = some (x, g) → x.locked = true →
      x.cmds[x.pc]? = some y → y.cmd = cmd → cardWindow s.m col core idx g y = none → y.lost s.m col = false →
      exec i s = .next { s with m := (f col g y s.m).setCard col core idx (x.after y) })
  ∧ (∀ s col core idx x g, s.m.card? col core idx = some (x, g) → x.locked = true → x.cmds.length ≤ x.pc →
      objHeld s.m col core idx g x = false → exec (.cardEnd col core idx) s = .next { s with m := (dropCard col core idx s.m).countBytes g.gid x.obj x.bytes false })

/-- Matrix words complete in order (R198 to R201): `mma` and `msca` write the named part of their slot, `mzero` clears one, `mload` loads one, `mdrain` fills lanes' registers
or writes memory. A write changes its first M rows and N columns and no other element and keeps the sums of the slot consistent; a checked slot is corrected where a
single element is corrupt, and one that cannot be corrected loses the word with DATALOSS (R203). -/
def Obligations.MatrixWordsComplete : Prop :=
  (∀ s col core w g, MatrixDue s col core w g → w.checked = none → w.op = 0 → w.surfBlocks s.m g = none → operStop s.m g w = none →
    exec (.matrixWordCompletion col core) s = .next { s with m := endMWord col core (slotWritten s.m g w (mmaOf s.m g w)) })
  ∧ (∀ s col core w g, MatrixDue s col core w g → w.checked = none → w.op = 1 → operStop s.m g w = none →
      exec (.matrixWordCompletion col core) s = .next { s with m := endMWord col core (slotWritten s.m g w (mscaOf s.m g w)) })
  ∧ (∀ s col core w g i x, MatrixDue s col core w g → w.checked = some i → (g.mslot i).check = some x →
      exec (.matrixWordCompletion col core) s
        = .next { s with m := performMWord s.cfg col core (g.checkedSlot i x) w (s.m.setSlot g.gid i x) })
  ∧ (∀ s col core w g i, MatrixDue s col core w g → w.checked = some i → (g.mslot i).check = none →
      exec (.matrixWordCompletion col core) s
        = .next { s with m := ((endMWord col core s.m).countLoss col .dataloss).queueStop g.env.vf g.env.fdroot Cause.dataloss.code })
  ∧ (∀ s col core w g, MatrixDue s col core w g → w.op = 2 →
      ∃ t, exec (.matrixWordCompletion col core) s = .next t ∧ t.m = endMWord col core (s.m.setSlot g.gid w.slot
        { g.mslot w.slot with e := [], row := [], col := [] }))
  ∧ (∀ s col core w g m' bs, MatrixDue s col core w g → w.op = 3 → engBytes s.cfg g (trPlaces s.m col core w.blk) s.m = (m', .ok bs) →
      ∃ t, exec (.matrixWordCompletion col core) s = .next t ∧ t.m = endMWord col core (m'.setSlot g.gid (blkDst w.blk)
        ((g.mslot (blkDst w.blk)).load (blkM w.blk) (blkN w.blk) (trElem w.blk bs))))
  ∧ (∀ s col core w g d, MatrixDue s col core w g → w.checked = none → w.op = 4 → w.dreg = some d →
      exec (.matrixWordCompletion col core) s = .next { s with m := endMWord col core (drainedLanes s.m g w d) })
  ∧ (∀ s col core w g m' n, MatrixDue s col core w g → w.checked = none → w.op = 4 → w.dreg = none →
      drainTo s.cfg col core g w (blkM w.blk * blkN w.blk * efBytes (trEf w.blk)) s.m = (m', n, none) →
      exec (.matrixWordCompletion col core) s = .next { s with m := endDrain col core g w m' })
  ∧ (∀ (x : Slot) rows cols f i n, i < 64 → n < 64 → (x.write rows cols f).at_ i n = if i < rows ∧ n < cols then f i n else x.at_ i n)
  ∧ (∀ (x : Slot) rows cols f, x.consistent → (x.write rows cols f).consistent)
  ∧ (∀ (x : Slot) rows cols f, (x.load rows cols f).consistent)
  ∧ (∀ x : Slot, x.consistent → x.check = some x)
  ∧ (∀ (x : Slot) i n (d : Word), i < 64 → n < 64 → d ≠ 0 → SMap.wf 0 x.e = true → (∀ e ∈ x.e, e.1 < 4096) → x.consistent →
      ∃ y, ({ x with e := SMap.modify 0 x.e (64 * i + n) (· + d) } : Slot).check = some y ∧ ∀ a < 64, ∀ b < 64, y.at_ a b = x.at_ a b)

namespace Sys2Proof.Machine

/-! ### The scheduler, nodes and surfaces -/

/-- A group has nothing but its threads' registers as Table 01.1 gives them at launch. -/
def Thread.launched (x : Thread) (entry : Nat) : Prop :=
  x.c.pc = entry ∧ x.c.slot = 0 ∧ x.c.t = [] ∧ x.c.x = [] ∧ x.c.v = [] ∧ x.c.notFull = 0 ∧ x.c.latch = {} ∧ x.hnd = false ∧ x.epi = none

/-- A machine with COLS and COUNT of a BCTL write in place (R318). -/
def bctlStart (s : State) (vf cols count : Nat) : Mach := s.m.onVf vf fun r => { r with bcols := cols, bcount := count }

/-- A block that the Rake may refill: it is spilled, and an access or a matrix word waits for it (R277). -/
def RefillDue (s : State) (vf idx block : Nat) (x : Surf) : Prop :=
  s.m.surfAt vf idx = some x ∧ x.blockState block = 1 ∧ blockWanted s.m vf idx block = true

/-- A register or TAIL write of a function takes effect: READY is 1 and its partition is loaded (R314, R328). -/
def Open (s : State) (vf : Nat) : Prop := (s.m.vf vf).ready = true ∧ (s.m.vf vf).away = false

/-- A node's structures can be used, and it serves the record at HEAD of its queue (R218, R288, R333). -/
def NodeDue (s : State) (vf leaf node kind : Nat) (b : Binding) (n : Node) (h : QHdr) : Prop :=
  touchNode s.cfg vf leaf node s.m = (s.m, .ready) ∧ headRecord s.cfg vf leaf node kind s.m = some (b, n, h)

/-- The core whose engine serves a partition's COPY nodes, and the machine in which it has taken a record up (R293). -/
def nodeCore (s : State) (vf : Nat) : Nat := copyCore s.m (firstColumn s.cfg vf)
def nodeTaken (s : State) (vf leaf node : Nat) : Mach := s.m.onCore (firstColumn s.cfg vf) (nodeCore s vf) fun c => c.noteNode (vf, leaf, node)

/-- The work a step does on a COPY node's request. -/
def nodeWork (s : State) (vf leaf node : Nat) (b : Binding) (h : QHdr) : Mach × EngBuf × Nat × Option EStop :=
  let m := nodeTaken s vf leaf node
  engWork s.cfg (nodeIssuer s.cfg vf leaf m) (nodeReq s.cfg vf h m) (b.buf node) (b.done node) m

/-- A COPY node's request may be worked on (R288, R293): the engine is not frozen and holds its reservation, and the successor's queue has room. -/
structure CopyNodeDue (s : State) (vf leaf node : Nat) (b : Binding) (n : Node) (h : QHdr) : Prop where
  due : NodeDue s vf leaf node 5 b n h
  free : copyNodeFree s.cfg vf (s.m.core (firstColumn s.cfg vf) (nodeCore s vf)) b n s.m = true
  cu : 4 ≤ ((nodeTaken s vf leaf node).core (firstColumn s.cfg vf) (nodeCore s vf)).copyCu
  fresh : b.done node < dropMark
  good : (nodeReq s.cfg vf h (nodeTaken s vf leaf node)).bad 0 = false ∧ (nodeReq s.cfg vf h (nodeTaken s vf leaf node)).ssp = false
    ∧ (nodeReq s.cfg vf h (nodeTaken s vf leaf node)).dsp = false

/-- A node has records to launch, once the scheduler has looked at its queue (R219, R220). -/
def LaunchDue (s : State) (vf leaf node : Nat) (b : Binding) (n : Node) (a : Nat) (m' : Mach) : Prop :=
  touchLaunch s.cfg vf leaf node s.m = (s.m, .ready) ∧ launchable s.cfg vf leaf node (lookTail s.cfg vf leaf node s.m) = (m', some (b, n, a))

/-- The launch or restore that a column serves next, whose structures can be used (R217, R333). -/
def PendingDue (s : State) (col : Nat) (g : Group) : Prop :=
  nextPending s.cfg s.m col = some g ∧ touchAdmission s.cfg g s.m = (s.m, .ready)

/-- What a RASTER node draws with (R281). -/
def rasterCtx (s : State) (vf leaf : Nat) (b : Binding) (n : Node) (twin : Nat) : RasterCtx :=
  { vf := vf, leaf := leaf, table := b.table, succIdx := n.emit.headD 0, succ := readNode s.cfg vf b.table (n.emit.headD 0) s.m
    st := readRaster s.cfg vf n.const s.m, stAddr := n.const, twin := twin }

/-- The blocks that the tile of a CLASSIFY record covers, and its output records (R290). -/
def classifyBlocks (x : Surf) (ws : List Nat) : List Nat :=
  ((List.range 256).filterMap fun i =>
    let px := 16 * bitsOf (ws.getD 1 0) 0 16 + i % 16
    let py := 16 * bitsOf (ws.getD 1 0) 16 16 + i / 16
    if x.inside px py (ws.getD 2 0 % 256) then some (x.block px py (ws.getD 2 0 % 256)) else none).eraseDups
def classifyOut (x : Surf) (ws : List Nat) (f : Mem) : List (List Byte) :=
  classifyRecords ws (tilePixels x f (bitsOf (ws.getD 1 0) 0 16) (bitsOf (ws.getD 1 0) 16 16) (ws.getD 2 0 % 256))

/-- The activations of a layer of a surface that a NET record reads (R292). -/
def netImage (x : Surf) (layer : Nat) (f : Mem) : Array Nat :=
  ((List.range (x.height * x.width * 4)).map fun i => readN f (x.key (i / 4 % x.width) (i / 4 / x.width) layer + 2 * (i % 4)) 2).toArray

/-- The descriptor of a host allocation (R327). -/
def hostDesc (s : State) (vf : Nat) : SurfDesc :=
  surfDesc (s.m.vf vf).hsdesc0.toNat (s.m.vf vf).hsdesc1.toNat (s.m.vf vf).hsdesc2.toNat

/-- The twin and the draw that a gate names for record `no` (R286). -/
def gateAt (s : State) (vf : Nat) (n : Node) (h : QHdr) (no : Nat) : Nat × Nat := gateDraw s.cfg vf h.gate (h.recAddr n.recsz no) s.m

/-- The gate of a node may judge record `i` of its queue, whose draw has sum `occ` (R286). -/
structure GateDue (s : State) (vf leaf node : Nat) (b : Binding) (n : Node) (h : QHdr) (i no sum : Nat) : Prop where
  bind : s.m.binding? vf leaf = some b
  touch : touchNode s.cfg vf leaf node s.m = (s.m, .ready)
  desc : n = readNode s.cfg vf b.table node s.m
  queue : h = readQHdr s.cfg vf n.queue s.m
  runs : vfRuns s.cfg s.m vf = true ∧ b.stopped = false ∧ node < b.count ∧ n.kind ≠ 6 ∧ h.gated = true
  next : i = b.seen node ∧ i < h.count ∧ no = (h.head + i) % 2 ^ 32
  record : touchStruct s.cfg vf (h.recAddr n.recsz no) n.recsz false s.m = (s.m, .ready)
  retired : ∃ d, s.m.draw? (gateAt s vf n h no).1 (gateAt s vf n h no).2 = some d ∧ d.retired = true
  sum : sum = SMap.get 0 s.m.occ (occKey (2 * (gateAt s vf n h no).1) (gateAt s vf n h no).2)
    + SMap.get 0 s.m.occ (occKey (2 * (gateAt s vf n h no).1 + 1) (gateAt s vf n h no).2)

end Sys2Proof.Machine

open Sys2Proof Sys2Proof.Machine

/-- The scheduler (R216 to R222, R230, R239): a node with COALESCE records pending, or records as old as its TIMEOUT, launches a group of `r = min(a, COALESCE, fit)`
records; a column admits the launch it serves next to the first core with room, or swaps one group out for it. The new group has GROUP threads at ENTRY with
registers of 0, and uniform registers 0 to 5 as Table 01.2 gives them. -/
def Obligations.GroupsLaunchAndAreAdmitted : Prop :=
  (∀ s vf leaf node b n a m', LaunchDue s vf leaf node b n a m' → n.coalesce ≤ a →
    exec (.groupLaunch vf leaf node) s = .next { s with m := launchGroup s.cfg vf leaf node b n a m' })
  ∧ (∀ s vf leaf node b n a m', LaunchDue s vf leaf node b n a m' → timedOut s.cfg vf leaf node b n m' = true →
      exec (.coalesceTimeout vf leaf node) s = .next { s with m := launchGroup s.cfg vf leaf node b n a m' })
  ∧ (∀ s vf leaf node b n a m', LaunchDue s vf leaf node b n a m' → a < n.coalesce →
      exec (.groupLaunch vf leaf node) s = .next { s with m := m' })
  ∧ (∀ cfg vf leaf node b (n : Node) a (m : Mach), let g : Sys2Proof.Machine.Group :=
        (newGroup cfg vf leaf b.table node (b.columns cfg vf) (SMap.get 0 b.launches node) n (n.take a) m);
      g.stage = .queued ∧ (∃ f, launchGroup cfg vf leaf node b n a m = { m.onBinding vf leaf f with groups := m.groups ++ [g], nextGid := m.nextGid + 1 })
        ∧ g.gsize = n.group ∧ g.threads.length = n.group ∧ g.hold = Res.ofWord n.initial ∧ g.claim = Res.ofWord n.claim
        ∧ (∀ i, ∀ x : Thread, g.threads[i]? = some x → x.tid = i ∧ x.launched n.entry)
        ∧ SMap.get 0 g.s 0 = BitVec.ofNat 32 n.recOff ∧ SMap.get 0 g.s 1 = BitVec.ofNat 32 (n.take a) ∧ g.recs = n.take a
        ∧ SMap.get 0 g.s 2 = BitVec.ofNat 32 n.const ∧ SMap.get 0 g.s 3 = BitVec.ofNat 32 (n.const / 2 ^ 32)
        ∧ SMap.get 0 g.s 4 = g.gidx ∧ SMap.get 0 g.s 5 = g.env.rid ∧ ∀ i, 6 ≤ i → SMap.get 0 g.s i = 0)
  ∧ (∀ s col g core, PendingDue s col g → admitCore s.cfg s.m g col = some core →
      exec (.groupAdmission col) s = .next { s with m := admitGroup s.cfg s.m g col core })
  ∧ (∀ s col g v, PendingDue s col g → admitCore s.cfg s.m g col = none → swapping s.m col = false →
      victimFor s.m col g.env.prio = some v → exec (.groupAdmission col) s = .next { s with m := s.m.preempt v.gid g.env.prio })
  ∧ (∀ s col g v, PendingDue s col g → admitCore s.cfg s.m g col = none → swapping s.m col = false → waitingVictim s.m col g.env.prio = none →
      firstBy (fun a b => decide (a.since < b.since))
        ((swappable s.m col).filter fun x => decide (x.env.prio ≤ g.env.prio) && decide (x.since + x.env.quantum * 1000000 ≤ s.m.etime)) = some v →
      exec (.preemptionOnQuantum col) s = .next { s with m := s.m.preempt v.gid g.env.prio })
  ∧ (∀ m : Mach, ∀ col p v, victimFor m col p = some v →
      v ∈ m.groups ∧ v.stage = .resident ∧ v.frozen = false ∧ v.column = col ∧ v.env.prio ≤ p ∧ (v.env.prio = p → groupWaits m v = true))

/-- Pre-emption (R217, R325, R341, R342): a halting group whose stores are performed leaves its core's accesses and becomes saving; its image is written with
STATUS.RESTORED set and its dirty bytes go home; a restored group is resident again as its image has it (R36), with its loads replayed, and the core's L1 is empty before
they issue; a pre-emption not met within 2 µs, or an image that cannot be written, stops the partition. -/
def Obligations.GroupsAreSwappedOutAndBack : Prop :=
  (∀ s gid g, s.m.group? gid = some g → g.stage = .halting → g.frozen = false → haltReady s.m g = true →
    exec (.preemptionHalt gid) s = .next { s with m := haltForSwap s.m g })
  ∧ (∀ m : Mach, ∀ g,
      (∀ g', (haltForSwap m g).group? g.gid = some g' → g'.stage = .saving ∧ g'.rels = [] ∧ ∀ x ∈ g'.threads, x.c.landAll = x.c)
      ∧ (∀ a ∈ ((haltForSwap m g).core g.column g.core).accs, a.gid ≠ g.gid)
      ∧ ∀ x ∈ (haltForSwap m g).monitors, x.gid ≠ g.gid)
  ∧ (∀ s gid g, s.m.group? gid = some g → g.stage = .saving → touchImage s.cfg g true s.m = (s.m, .ready) →
      ∃ t g', exec (.imageSave gid) s = .next t ∧ t.m = saveGroup s.cfg s.m g ∧ t.m.group? gid = some g' ∧ g'.stage = .saved
        ∧ g'.restored = true ∧ g'.threads = g.threads
        ∧ ((∀ w ∈ (s.m.core g.column g.core).mwords, w.gid = gid → w.started = false) → g'.slots = g.slots))
  ∧ (∀ s gid g, s.m.group? gid = some g → g.stage = .saving → touchImage s.cfg g true s.m = (s.m, .bad) →
      exec (.imageSave gid) s = .next { s with m := partitionStop s.cfg g.env.vf 0 s.m })
  ∧ (∀ s gid g, s.m.group? gid = some g → g.stage = .halting → g.frozen = false → g.since + 2000000 ≤ s.m.etime →
      exec (.preemptionTimeout gid) s = .next { s with m := partitionStop s.cfg g.env.vf 0 s.m })
  ∧ (∀ s gid g, s.m.group? gid = some g → g.stage = .restoring → touchImage s.cfg g false s.m = (s.m, .ready) →
      ∃ t g' x, exec (.groupRestore gid) s = .next t ∧ t.m = loadGroup s.cfg (s.m.l1Inv g.column g.core) g
        ∧ x = readVaMem s.cfg g.env.vf g.image (sectionOff g 8) (s.m.l1Inv g.column g.core)
        ∧ t.m.group? gid = some g' ∧ g'.stage = .resident
        ∧ g'.threads = (g.ofImage (s.m.l1Inv g.column g.core) x).threads.map (fun x => { x with replay := [] })
        ∧ (t.m.core g.column g.core).l1 = []
        ∧ (t.m.core g.column g.core).accs = (s.m.core g.column g.core).accs
            ++ (g.threads.flatMap (·.replay)).map fun a => { a with st := .ready, since := s.m.etime })

/-- The fixed-function nodes and gates (R281, R282, R285 to R292, R320): each takes the record at HEAD of its queue and emits its outputs to successor 0, a full queue
permitting; a malformed record is consumed and counted; a gate passes or consumes a record once its draw is retired; a draw retires once it has ended and no
pixel of it is outstanding; a HOSTQ that HQMOD held back is raised. -/
def Obligations.FixedFunctionNodesServeRecords : Prop :=
  (∀ s vf leaf node b n h i no sum, GateDue s vf leaf node b n h i no sum → ((sum != 0) != bitOf h.gate 62) = true →
    exec (.gate vf leaf node) s = .next { s with m := s.m.setSeen vf leaf node (i + 1) })
  ∧ (∀ s vf leaf node b n h no sum, GateDue s vf leaf node b n h 0 no sum → ((sum != 0) != bitOf h.gate 62) = false →
      exec (.gate vf leaf node) s = .next { s with m := consumeRecord s.cfg vf leaf node n (s.m.setSeen vf leaf node 1) })
  ∧ (∀ s vf leaf node b n h twin m', NodeDue s vf leaf node 1 b n h → touchStruct s.cfg vf n.const 128 false s.m = (s.m, .ready) →
      rasterTwin s.m vf (readRaster s.cfg vf n.const s.m) = some twin → touchAppend s.cfg vf b.table (n.emit.headD 0) s.m = (s.m, .ready) →
      rasterPrim s.cfg (rasterCtx s vf leaf b n twin) (recWords s.cfg vf (h.recAddr 64 h.head) 64 s.m) (b.done node) s.m = (m', 0, true, false) →
      exec (.raster vf leaf node) s = .next { s with m := consumeRecord s.cfg vf leaf node n (m'.setDone vf leaf node 0) })
  ∧ (∀ s vf leaf node b n h, NodeDue s vf leaf node 1 b n h → touchStruct s.cfg vf n.const 128 false s.m = (s.m, .ready) →
      rasterTwin s.m vf (readRaster s.cfg vf n.const s.m) = none →
      exec (.raster vf leaf node) s = .next { s with m := failRecord s.cfg vf leaf node n s.m })
  ∧ (∀ s vf leaf node b n h ws m' m'', NodeDue s vf leaf node 2 b n h →
      traverseRecord vf (recWords s.cfg vf (h.recAddr 64 h.head) 64 s.m) s.m = .ok (ws, m') →
      appendTo s.cfg vf b.table (n.emit.headD 0) (wordBytes ws) m' = .done m'' →
      exec (.traverse vf leaf node) s = .next { s with m := consumeRecord s.cfg vf leaf node n m'' })
  ∧ (∀ s vf leaf node b n h, NodeDue s vf leaf node 2 b n h → traverseRecord vf (recWords s.cfg vf (h.recAddr 64 h.head) 64 s.m) s.m = .bad →
      exec (.traverse vf leaf node) s = .next { s with m := failRecord s.cfg vf leaf node n s.m })
  ∧ (∀ s vf leaf node b n h, NodeDue s vf leaf node 3 b n h →
      s.m.surf? vf (BitVec.ofNat 32 ((recWords s.cfg vf (h.recAddr 16 h.head) 16 s.m).getD 0 0)) = none →
      exec (.classify vf leaf node) s = .next { s with m := failRecord s.cfg vf leaf node n (s.m.setBuf vf leaf node {}) })
  ∧ (∀ s vf leaf node b n h ws x m' eb r, NodeDue s vf leaf node 3 b n h → ws = recWords s.cfg vf (h.recAddr 16 h.head) 16 s.m →
      s.m.surf? vf (BitVec.ofNat 32 (ws.getD 0 0)) = some x → x.fmt = 7 → ws.getD 2 0 % 256 ≤ x.layers →
      readBlocks s.cfg vf x.idx (classifyBlocks x ws) (b.buf node) s.m = (.done m', eb) →
      emitFrom (fun bytes m => appendTo s.cfg vf b.table (n.emit.headD 0) bytes m) (b.done node)
        ((classifyOut x ws eb.texels).drop (b.done node)) (m'.setBuf vf leaf node eb) = r →
      (classifyOut x ws eb.texels).length ≤ r.2.1 →
      exec (.classify vf leaf node) s = .next { s with m := (consumeRecord s.cfg vf leaf node n ((r.1.setDone vf leaf node 0).setBuf vf leaf node {})) })
  ∧ (∀ s vf leaf node b n h, NodeDue s vf leaf node 4 b n h → touchNet s.cfg vf n.const s.m = (s.m, .ready) →
      netSurfs s.m vf (recWords s.cfg vf (h.recAddr 16 h.head) 16 s.m) = none ∨ (readNet s.cfg vf n.const s.m).2.2 = false →
      exec (.net vf leaf node) s = .next { s with m := failRecord s.cfg vf leaf node n (s.m.setBuf vf leaf node {}) })
  ∧ (∀ s vf leaf node b n h ws x y pad ls m' m'' eb eb' out, NodeDue s vf leaf node 4 b n h → touchNet s.cfg vf n.const s.m = (s.m, .ready) →
      ws = recWords s.cfg vf (h.recAddr 16 h.head) 16 s.m → readNet s.cfg vf n.const s.m = (pad, ls, true) → netSurfs s.m vf ws = some (x, y) →
      readBlocks s.cfg vf x.idx (layerBlocks x (ws.getD 2 0)) (b.buf node) s.m = (.done m', eb) →
      netRun vf pad x.width x.height (m'.setBuf vf leaf node eb) ls (netImage x (ws.getD 2 0) eb.texels) = .ok out →
      writeImage s.cfg vf y.idx (ws.getD 2 0) x.width out (layerBlocks y (ws.getD 2 0)) eb (m'.setBuf vf leaf node eb) = (.done m'', eb') →
      exec (.net vf leaf node) s = .next { s with m := consumeRecord s.cfg vf leaf node n (m''.setBuf vf leaf node {}) })
  ∧ (∀ s vf leaf node b n h m' eb p, CopyNodeDue s vf leaf node b n h → nodeWork s vf leaf node b h = (m', eb, p, none) →
      (nodeReq s.cfg vf h (nodeTaken s vf leaf node)).total ≤ p →
      ∃ t, exec (.copyNode vf leaf node) s = .next t ∧ t.m = endCopyNode s.cfg vf leaf node (firstColumn s.cfg vf)
        (nodeCore s vf) b n (recWords s.cfg vf (h.recAddr 64 h.head) 64 (nodeTaken s vf leaf node)) 1 p m')
  ∧ (∀ s twin draw, (∀ p ∈ (drainPixels s.cfg s.m).pix, p.twin = twin → p.draw = draw → ((drainPixels s.cfg s.m).vf p.vf).away = true) →
      ∃ t, exec (.drawRetire twin draw) s = .next t ∧ ∀ d ∈ t.m.draws, d.twin = twin → d.draw = draw → d.ended = true → d.retired = true)
  ∧ (∀ s vf, (s.m.vf vf).hqHeld = true → (s.m.vf vf).hqLast - 1 + (s.m.vf vf).hqmod * 1000000 ≤ s.m.etime →
      ∃ t, exec (.hostqModerationExpiry vf) s = .next t ∧ (t.m.vf vf).hqHeld = false ∧ (t.m.vf vf).hqLast = s.m.etime + 1
        ∧ ((s.m.vf vf).away = false → (t.m.vf vf).cause.getLsbD 5 = true))

/-- Surfaces (R274, R277, R278, R326, R327): the Rake begins and ends the spill of its victim square and the refill of a block that is waited for; a block whose backing is
corrupt is DATALOSS for what waits for it; a freed surface that nothing names goes, with
its handle; the surface table's registers change only while no surface is live; a host allocation ends with a handle, or with status 3 and the null handle. -/
def Obligations.SurfacesSpillRefillAndGo : Prop :=
  (∀ s vf idx sq x, s.m.surfAt vf idx = some x → x.squareBlocks sq 2 = [] → rakeSpillWanted s.cfg s.m vf idx sq = true →
    touchBlocks s.cfg x (x.squareBlocks sq 0) true s.m = (s.m, .ready) →
    exec (.rakeSpill vf idx sq) s = .next { s with m := beginSpill s.cfg x sq s.m })
  ∧ (∀ s vf idx sq x, s.m.surfAt vf idx = some x → x.squareBlocks sq 2 ≠ [] → s.m.rakeRuns vf = true →
      touchBlocks s.cfg x (x.squareBlocks sq 2) true s.m = (s.m, .ready) →
      exec (.rakeSpill vf idx sq) s = .next { s with m := finishSpill s.cfg x sq s.m })
  ∧ (∀ s vf idx block x m', RefillDue s vf idx block x → beginRefill s.cfg s.m x block = .wait m' →
      exec (.rakeRefill vf idx block) s = .next { s with m := m' })
  ∧ (∀ s vf idx block x, s.m.surfAt vf idx = some x → x.blockState block = 3 → s.m.rakeRuns vf = true →
      touchBlocks s.cfg x [block] false s.m = (s.m, .ready) →
      exec (.rakeRefill vf idx block) s = .next { s with m := drainPixels s.cfg (finishRefill s.cfg s.m x block) })
  ∧ (∀ s vf idx block x, RefillDue s vf idx block x → beginRefill s.cfg s.m x block = .corrupt →
      exec (.rakeRefill vf idx block) s = .next { s with m := corruptBlock vf idx block s.m })
  ∧ (∀ s vf idx x, s.m.surfAt vf idx = some x → x.st = 2 → s.m.surfBusy x = false → touchEntry s.cfg vf idx s.m = (s.m, .ready) →
      ∃ t, exec (.surfaceDiscard vf idx) s = .next t ∧ t.m = discardSurface s.cfg x s.m ∧ t.m.surfAt vf idx = none)
  ∧ (∀ s vf addr, Open s vf → s.m.liveSurf vf = false →
      ∃ t, exec (.surftabWrite vf addr) s = .next t ∧ (t.m.vf vf).surftab = addr / 4096 * 4096 ∧ ∀ e ∈ t.m.tags, e.1 / 65536 ≠ vf)
  ∧ (∀ s vf value, Open s vf → s.m.liveSurf vf = false → 4 ≤ bitsOf value 0 5 → bitsOf value 0 5 ≤ 16 →
      ∃ t, exec (.surfcntWrite vf value) s = .next t ∧ (t.m.vf vf).surfcnt = 2 ^ bitsOf value 0 5 ∧ ∀ e ∈ t.m.tags, e.1 / 65536 ≠ vf)
  ∧ (∀ s vf value, Open s vf → bitsOf value 0 5 < 4 ∨ 16 < bitsOf value 0 5 → exec (.surfcntWrite vf value) s = .next s)
  ∧ (∀ s vf size, Open s vf → ((s.m.vf vf).resused.map (·.2)).sum ≤ size / 2 ^ 21 * 2 ^ 21 →
      exec (.ressizeWrite vf size) s = .next { s with m := s.m.onVf vf fun r => { r with ressize := size / 2 ^ 21 * 2 ^ 21 } })
  ∧ (∀ s vf size, Open s vf → size / 2 ^ 21 * 2 ^ 21 < ((s.m.vf vf).resused.map (·.2)).sum →
      exec (.ressizeWrite vf size) s = .next { s with m := s.m.raise vf 0 })
  ∧ (∀ s vf, Open s vf → (s.m.vf vf).hsstatus ≠ 1 →
      exec (.hsctlGo vf) s = .next { s with m := s.m.onVf vf fun r => { r with hsstatus := 1 } })
  ∧ (∀ s vf twin m' h, (s.m.vf vf).hsstatus = 1 → (s.m.vf vf).away = false → (hostDesc s vf).bad = false →
      (regionPath s.cfg vf s.m treeDepth (s.m.vf vf).hsrcb).contains (s.m.vf vf).root = true → descTwin s.cfg vf none (hostDesc s vf) = some twin →
      s.m.allocTurn twin (hostReq vf) = true →
      allocSurface s.cfg vf (s.m.vf vf).hsrcb (hostDesc s vf).layers (hostDesc s vf).fmt (hostDesc s vf).height (hostDesc s vf).width twin
        (hostDesc s vf).seed s.m = .ok m' h →
      exec (.hostAllocationDone vf) s = .next { s with m :=
        ((m'.allocDone (hostReq vf)).onVf vf fun r => { r with hshandle := h, hsstatus := 2 }).raise vf 8 })
  ∧ (∀ s vf, (s.m.vf vf).hsstatus = 1 → (s.m.vf vf).away = false → (hostDesc s vf).bad = true →
      exec (.hostAllocationDone vf) s = .next { s with m :=
        ((s.m.allocDone (hostReq vf)).onVf vf fun r => { r with hshandle := 0, hsstatus := 3 }).raise vf 8 })

namespace Sys2Proof.Machine

/-! ### Power, drivers and the fleet -/

/-- The register writes of a function that READY 0 drops and that wait for a partition that is not loaded (R314, R328). -/
def VfWrite (i : Instr) (vf : Nat) : Prop :=
  (∃ a, i = .rootWrite vf a) ∨ (∃ a b, i = .bctlGo vf a b) ∨ i = .bctlUnbind vf ∨ (∃ a, i = .tsplitw vf a) ∨ (∃ a, i = .surftabWrite vf a)
    ∨ (∃ a, i = .surfcntWrite vf a) ∨ (∃ a, i = .ressizeWrite vf a) ∨ i = .hsctlGo vf ∨ (∃ a, i = .causeClear vf a) ∨ (∃ a, i = .discard vf a)
    ∨ (∃ a, i = .stop vf a) ∨ (vf ≠ 0 ∧ ∃ a b, a < 65536 ∧ i = .registerWrite vf a b) ∨ ∃ a b c, i = .hostTailWrite vf false a b c

/-- A binding of a BCTL write (R318). -/
def boundAs (s : State) (vf cols count : Nat) : Binding := { leaf := (s.m.vf vf).bleaf, table := (s.m.vf vf).bgraph, count := count, cols := cols }

/-- A leaf that an UNBIND waits for no longer: no group of it is resident, and no record pending unless its domain is stopped (R318). -/
def LeafEmpty (s : State) (vf leaf : Nat) (b : Binding) : Prop :=
  (∀ g ∈ s.m.groups, g.env.vf = vf → g.env.leaf = leaf → g.onCore = true → b.stopped = true ∧ g.haltable = false)
    ∧ (b.stopped = false → pendingRecords s.cfg vf b s.m = false)

/-- The partition with its shares as written (R315). -/
def Part.shared (p : Part) (cap : Bool) (cir g7 l2 : Nat) : Part := { p with capped := cap, cirsh := cir, g7sh := g7, l2sh := l2, shareNext := none }

/-- The partition that a descriptor write opens (Table 17.2). -/
def Part.opened (p : Part) (w0 w1 w2 : Nat) : Part :=
  { p.shared (bitOf w1 24) (bitsOf w1 16 6) (bitsOf w1 8 6) (bitsOf w1 0 6) with en := true, slice := bitsOf w0 8 8, twins := bitsOf w0 0 6, quant := w2 }

/-- An outgoing partition whose accesses have stopped, with its loaded time; put away; and the machine once the incoming one is back (R314, R343). -/
def switchStart (s : State) (out : Nat) : Mach := (switchOut s.cfg out s.m).onVf out fun r => { r with served := loadedTime (switchOut s.cfg out s.m) out }
def switchPut (s : State) (out : Nat) : Mach :=
  let m := (partColumns s.cfg out).foldl (fun m c => (List.range 48).foldl (fun m k => m.l1BackAll c k) m) (spillAll s.cfg out (switchStart s out))
  Mach.putAway s.cfg out (writeSwimg s.cfg out m)
def switched (s : State) (out inn : Nat) : Mach := (Mach.bringBack inn (loadSwimg s.cfg inn (switchPut s out))).wakeMonitors

/-- A host access to BAR2 of a function may be performed: it lies in BAR2, none waits before it, and its pages are translated (R313, R316, R319). -/
def Bar2Due (s : State) (vf addr n : Nat) : Prop :=
  addr + n ≤ 2 ^ (s.m.vf vf).bar2Bits ∧ (s.m.vf vf).posted = [] ∧ touchPages s.cfg vf true (pageVas (bar2Va s.m vf addr) n) s.m = (s.m, .ready)

end Sys2Proof.Machine

open Sys2Proof Sys2Proof.Machine

/-- Power (R293, R295, R299, R300, R348, R349, R358, R359): a current step is a matrix cycle, the first of every four with the step boundary before it, at which REFILL
takes effect and reservations move; after it a cluster draws no more than its CAP, or than before; a heat bucket stays within its 8,192 tokens; an idle issue unit asks to return its reservation; CAP, REFILL, POWCAP and REFMAX take only the values they may; a telemetry snapshot advances SEQ by 2
and writes nothing outside its 3,456 bytes. -/
def Obligations.PowerStaysWithinItsLimits : Prop :=
  (∀ s col cluster, ∃ t, exec (.currentStep col cluster) s = .next t
    ∧ (t.m.cluster col cluster).phase = ((s.m.cluster col cluster).phase + 1) % 4
    ∧ (t.m.cluster col cluster).refill = (if (s.m.cluster col cluster).phase = 0 then min s.fleet.refmax (s.m.cluster col cluster).refillNext
      else (s.m.cluster col cluster).refill)
    ∧ (t.m.cluster col cluster).cap = (s.m.cluster col cluster).cap
    ∧ ((s.m.cluster col cluster).phase ≠ 0 → clusterTotal t.m col cluster = clusterTotal s.m col cluster)
    ∧ clusterTotal t.m col cluster ≤ max (s.m.cluster col cluster).cap (clusterTotal s.m col cluster))
  ∧ (∀ spent width refill, (∀ i < 64, SMap.get 0 spent i ≤ 8192) → width = 0 ∨ coolEnough spent width = true → ∀ i < 64,
      SMap.get 0 (heatCycle spent width refill) i ≤ 8192
      ∧ SMap.get 0 (heatCycle spent width refill) i = SMap.get 0 spent i + (if i < width then 64 else 0) - refill)
  ∧ (∀ s col core, gangsIn s.m col core 0 = false → 64 ≤ (s.m.core col core).idle0 → (s.m.core col core).unit0 ≠ 0 →
      exec (.issueUnitIdleRelease col core 0) s = .next { s with m := s.m.onCore col core fun c => { c with lower0 := true } })
  ∧ (∀ s col core, gangsIn s.m col core 1 = false → 64 ≤ (s.m.core col core).idle1 → (s.m.core col core).unit1 ≠ 0 →
      exec (.issueUnitIdleRelease col core 1) s = .next { s with m := s.m.onCore col core fun c => { c with lower1 := true } })
  ∧ (∀ s col cluster cap refill, cap % 32 = 0 → 160 ≤ cap → cap ≤ 352 → 32 ≤ refill → refill ≤ 64 →
      exec (.capChange col cluster cap refill) s = .next { s with m := s.m.onCluster col cluster fun k => { k with cap := cap, refillNext := refill } })
  ∧ (∀ s col cluster cap refill, ¬ (cap % 32 = 0 ∧ 160 ≤ cap ∧ cap ≤ 352 ∧ 32 ≤ refill ∧ refill ≤ 64) →
      exec (.capChange col cluster cap refill) s = .next s)
  ∧ (∀ s value, exec (.powcapWrite value) s = .next (if 200 ≤ bitsOf value 0 16 ∧ bitsOf value 0 16 ≤ 660
      then { s with fleet := { s.fleet with powcap := bitsOf value 0 16 } } else { s with m := s.m.raisePf 0 }))
  ∧ (∀ s value, exec (.refmaxWrite value) s = .next (if 32 ≤ bitsOf value 0 7 ∧ bitsOf value 0 7 ≤ 64
      then { s with fleet := { s.fleet with refmax := bitsOf value 0 7 } } else { s with m := s.m.raisePf 0 }))
  ∧ (∀ s, s.fleet.telbase ≠ 0 → s.fleet.telper ≠ 0 → s.fleet.booted = true → s.fleet.halted = false → Memory.wf s.m.hmem →
      s.fleet.telLast + s.fleet.telper * 1000000000 ≤ s.m.etime →
      ∃ t, exec .telemetrySnapshot s = .next t ∧ t.fleet = { s.fleet with telseq := (s.fleet.telseq + 2) % 2 ^ 32, telLast := s.m.etime }
        ∧ readN t.m.hmem s.fleet.telbase 4 = (s.fleet.telseq + 2) % 2 ^ 32
        ∧ ∀ a, a < s.fleet.telbase ∨ s.fleet.telbase + 3456 ≤ a → byteAt t.m.hmem a = byteAt s.m.hmem a)

/-- The control registers of a function (R314, R317, R318, R326, R328): a write is dropped while READY is 0 and kept while the partition is not loaded. Otherwise ROOT
changes while nothing of the partition is resident or bound, and else raises ERR; a BCTL write with GO ends with STATUS 1 and the binding, or with the STATUS of the check
it fails, is ignored at STATUS 8 and raises ERR for a leaf that is bound; UNBIND ends the binding once nothing resident or pending is left of its leaf, with STATUS 8 until then;
TSPLITW begins a flush, is refused with TSPLITST 2 or 3, or is ignored while one is under way. -/
def Obligations.DriverWritesTakeEffect : Prop :=
  (∀ i vf s, VfWrite i vf → (s.m.vf vf).ready = false → exec i s = .next s)
  ∧ (∀ i vf s, VfWrite i vf → (s.m.vf vf).ready = true → (s.m.vf vf).away = true →
      exec i s = .next { s with m := s.m.onVf vf fun r => { r with held := r.held ++ [i] } })
  ∧ (∀ s vf addr, Open s vf → s.m.noneResident vf = true → (s.m.vf vf).binds = [] →
      exec (.rootWrite vf addr) s = .next { s with m := s.m.onVf vf fun r => { r with root := addr } })
  ∧ (∀ s vf addr, Open s vf → s.m.noneResident vf = false ∨ (s.m.vf vf).binds ≠ [] →
      exec (.rootWrite vf addr) s = .next { s with m := s.m.raise vf 0 })
  ∧ (∀ s vf cols count, Open s vf → (s.m.vf vf).bstatus ≠ 8 → (∀ b, s.m.binding? vf (s.m.vf vf).bleaf = some b → b.stopped = true) →
      bindStatus s.cfg vf (s.m.vf vf).bgraph cols count (bctlStart s vf cols count) = 1 →
      ∃ t, exec (.bctlGo vf cols count) s = .next t ∧ (t.m.vf vf).bstatus = 1
        ∧ t.m.binding? vf (s.m.vf vf).bleaf = some (boundAs s vf cols count)
        ∧ ∀ leaf, leaf ≠ (s.m.vf vf).bleaf → t.m.binding? vf leaf = s.m.binding? vf leaf)
  ∧ (∀ s vf cols count st, Open s vf → (s.m.vf vf).bstatus ≠ 8 → (∀ b, s.m.binding? vf (s.m.vf vf).bleaf = some b → b.stopped = true) →
      bindStatus s.cfg vf (s.m.vf vf).bgraph cols count (bctlStart s vf cols count) = st → st ≠ 1 →
      ∃ t, exec (.bctlGo vf cols count) s = .next t ∧ (t.m.vf vf).bstatus = st ∧ ∀ leaf, t.m.binding? vf leaf = s.m.binding? vf leaf)
  ∧ (∀ s vf b, Open s vf → s.m.binding? vf ((s.m.vf vf).unbind.getD (s.m.vf vf).bleaf) = some b →
      LeafEmpty s vf ((s.m.vf vf).unbind.getD (s.m.vf vf).bleaf) b →
      ∃ t, exec (.bctlUnbind vf) s = .next t ∧ (t.m.vf vf).bstatus = 0 ∧ t.m.binding? vf ((s.m.vf vf).unbind.getD (s.m.vf vf).bleaf) = none)
  ∧ (∀ s vf value, Open s vf → (s.m.vf vf).tsplitst ≠ 1 → bitsOf value 0 1 + bitsOf value 8 5 + bitsOf value 16 5 ≤ 20 →
      bitsOf value 0 1 = (s.cfg.part vf).tsScr ∨ s.m.noneResident vf = true →
      exec (.tsplitw vf value) s = .next { s with
        m := s.m.onVf vf fun r => { r with tsplitst := 1 }
        cfg := s.cfg.onPart vf fun p => { p with tsNext := some (bitsOf value 0 1, bitsOf value 8 5, bitsOf value 16 5) } })
  ∧ (∀ s vf value, Open s vf → (s.m.vf vf).tsplitst ≠ 1 → 20 < bitsOf value 0 1 + bitsOf value 8 5 + bitsOf value 16 5 →
      exec (.tsplitw vf value) s = .next { s with m := ((s.m.onVf vf fun r => { r with tsplitst := 2 }).raise vf 0).raise vf 7 })
  ∧ (∀ s vf cols count, Open s vf → (s.m.vf vf).bstatus = 8 → exec (.bctlGo vf cols count) s = .next s)
  ∧ (∀ s vf cols count b, Open s vf → (s.m.vf vf).bstatus ≠ 8 → s.m.binding? vf (s.m.vf vf).bleaf = some b → b.stopped = false →
      exec (.bctlGo vf cols count) s = .next { s with m := s.m.raise vf 0 })
  ∧ (∀ s vf leaf b g, Open s vf → leaf = (s.m.vf vf).unbind.getD (s.m.vf vf).bleaf → s.m.binding? vf leaf = some b → b.stopped = false → g ∈ s.m.groups →
      g.env.vf = vf → g.env.leaf = leaf → g.onCore = true →
      exec (.bctlUnbind vf) s = .next { s with m := s.m.onVf vf fun r => { r with unbind := some leaf, bstatus := 8 } })
  ∧ (∀ s vf value, Open s vf → (s.m.vf vf).tsplitst ≠ 1 → bitsOf value 0 1 + bitsOf value 8 5 + bitsOf value 16 5 ≤ 20 →
      bitsOf value 0 1 ≠ (s.cfg.part vf).tsScr → s.m.noneResident vf = false →
      exec (.tsplitw vf value) s = .next { s with m := ((s.m.onVf vf fun r => { r with tsplitst := 3 }).raise vf 0).raise vf 7 })
  ∧ (∀ s vf value, Open s vf → (s.m.vf vf).tsplitst = 1 → exec (.tsplitw vf value) s = .next s)

/-- The host's accesses and plain register writes (R313, R316, R319, R321, R322, R328): a TAIL write stores to the host's memory, or, as a write through BAR2, to the
address WINBASE plus its offset; an access waits behind those that wait; CAUSE, PFCAUSE and PFVFERR lose the bits written 1; a plain register of a function takes its value
and no other field of the function changes; MSI-X and the size of BAR2 follow the configuration space. -/
def Obligations.HostAccessesAndRegisterWritesTakeEffect : Prop :=
  (∀ s vf addr tail relaxed, addr % 4 = 0 →
      exec (.hostTailWrite vf true addr tail relaxed) s = .next { s with m := s.m.store (hostBase + addr) 4 tail })
  ∧ (∀ s vf addr tail relaxed, Open s vf → addr % 4 = 0 → Bar2Due s vf addr 4 →
      exec (.hostTailWrite vf false addr tail relaxed) s = .next { s with m := bar2Write s.cfg vf (bar2Va s.m vf addr) 4 tail s.m })
  ∧ (∀ s vf addr n v, (s.m.vf vf).ready = true → Bar2Due s vf addr n →
      exec (.bar2Access vf false addr n true v) s = .next { s with m := bar2Write s.cfg vf (bar2Va s.m vf addr) n v s.m })
  ∧ (∀ s vf addr n w v, (s.m.vf vf).ready = true → addr + n ≤ 2 ^ (s.m.vf vf).bar2Bits → (s.m.vf vf).posted ≠ [] →
      exec (.bar2Access vf false addr n w v) s = .next { s with m := s.m.onVf vf fun r =>
        { r with posted := r.posted ++ [{ va := bar2Va s.m vf addr, n := n, write := w, v := v }] } })
  ∧ (∀ s vf mask, Open s vf → exec (.causeClear vf mask) s
      = .next { s with m := s.m.onVf vf fun r => { r with cause := r.cause &&& ~~~BitVec.ofNat 10 mask } })
  ∧ (∀ s mask, exec (.pfcauseClear mask) s = .next { s with m := { s.m with pf := { s.m.pf with cause := s.m.pf.cause &&& ~~~BitVec.ofNat 7 mask } } })
  ∧ (∀ s mask, exec (.pfvferrClear mask) s = .next { s with m := { s.m with pf := { s.m.pf with vferr := s.m.pf.vferr &&& ~~~BitVec.ofNat 64 mask } } })
  ∧ (∀ s vf off value, vf ≠ 0 → off < 65536 → Open s vf →
      exec (.registerWrite vf off value) s = .next { s with m := s.m.onVf vf fun r => r.write off value })
  ∧ (∀ s vf off value, vf ≠ 0 → 65536 ≤ off → exec (.registerWrite vf off value) s = .next { s with m := s.m.onVf vf fun r => r.configure off value })
  ∧ (∀ s off value, exec (.registerWrite 0 off value) s = .next (pfWrite off value s))
  ∧ (∀ (r : Vf) v, r.write 0x10 v = { r with bgraph := v / 128 * 128 } ∧ r.write 0x18 v = { r with bleaf := v }
      ∧ r.write 0x40 v = { r with resbase := v / 2 ^ 21 * 2 ^ 21 } ∧ r.write 0x50 v = { r with hsdesc0 := BitVec.ofNat 32 v }
      ∧ r.write 0x54 v = { r with hsdesc1 := BitVec.ofNat 32 v } ∧ r.write 0x58 v = { r with hsdesc2 := BitVec.ofNat 32 v }
      ∧ r.write 0x60 v = { r with hsrcb := v } ∧ r.write 0x84 v = { r with cmask := BitVec.ofNat 10 v }
      ∧ r.write 0x88 v = { r with hqmod := bitsOf v 0 16 } ∧ r.write 0x208 v = { r with winbase := bitsOf v 0 57 / 2 ^ 30 * 2 ^ 30 }
      ∧ (bitsOf v 14 2 = 0 → r.bstatus ≠ 8 → r.write 0x20 v = { r with bcols := bitsOf v 16 12, bcount := bitsOf v 0 12 }))

/-- What a driver does about translations and faults (R325, R335, R337): an invalidation drops the cached translations it names and no other, and its sequence number
advances; RESUME restarts a faulted block with STATE 0; RESUME and STOP of a fault are kept while the partition is not loaded; STOP of a fault and of a freeze stops the fault domain; DISCARD ends the freeze of its entry. -/
def Obligations.DriverEndsFaultsAndFreezes : Prop :=
  (∀ s vf value, ∃ t, exec (.invalPage vf value) s = .next t ∧ (t.m.vf vf).invseq = ((s.m.vf vf).invseq + 1) % 2 ^ 32
    ∧ (∀ e ∈ t.m.tlb, e.vf = vf → e.covers (bitsOf value 16 41) = false)
    ∧ ∀ e ∈ s.m.tlb, e.vf ≠ vf ∨ e.covers (bitsOf value 16 41) = false → e ∈ t.m.tlb)
  ∧ (∀ s vf, ∃ t, exec (.invalAll vf) s = .next t ∧ (t.m.vf vf).invseq = ((s.m.vf vf).invseq + 1) % 2 ^ 32
      ∧ (∀ e ∈ t.m.tlb, e.vf ≠ vf) ∧ ∀ e ∈ s.m.tlb, e.vf ≠ vf → e ∈ t.m.tlb)
  ∧ (∀ s vf value, bitsOf value 0 4 = 1 ∨ bitsOf value 0 4 = 2 →
      ∃ t, exec (.inv2 vf value) s = .next t ∧ (t.m.vf vf).inv2seq = ((s.m.vf vf).inv2seq + 1) % 2 ^ 32
        ∧ (∀ e ∈ t.m.tlb, e.vf ≠ vf) ∧ ∀ e ∈ s.m.tlb, e.vf ≠ vf → e ∈ t.m.tlb)
  ∧ (∀ s vf idx z k, (s.m.vf vf).away = false → s.m.engFault? vf idx = some z → z.kind = 1 →
      (s.m.core z.column z.core).kicks.find? (fun k => k.gid == z.gid && k.off == z.off && k.faulted) = some k →
      ∃ t, exec (.resume vf idx) s = .next t ∧ t.m.vf vf = (s.m.dropFault vf idx).vf vf ∧ (t.m.vf vf).faults.length + 1 = (s.m.vf vf).faults.length
        ∧ (t.m.core z.column z.core).kicks = (s.m.core z.column z.core).kicks.map (fun x => if x == k then { x with faulted := false } else x)
        ∧ t.m.smem = (s.m.setReqState k.gid k.req 0).smem)
  ∧ (∀ s vf idx, (s.m.vf vf).away = true →
      exec (.resume vf idx) s = .next { s with m := s.m.onVf vf fun r => { r with held := r.held ++ [.resume vf idx] } }
      ∧ exec (.fresStop vf idx) s = .next { s with m := s.m.onVf vf fun r => { r with held := r.held ++ [.fresStop vf idx] } })
  ∧ (∀ s vf idx z g, (s.m.vf vf).away = false → s.m.engFault? vf idx = some z → s.m.group? z.gid = some g →
      exec (.fresStop vf idx) s = .next { s with m := (s.m.dropFault vf idx).queueStop vf g.env.fdroot Cause.xlate.code })
  ∧ (∀ s vf entry i z g, Open s vf → (s.m.vf vf).frzlog.find? (fun e => e.1 == entry) = some (i, z) → frzMaster s.cfg vf z s.m = some g →
      exec (.stop vf entry) s = .next { s with m := s.m.queueStop vf g.env.fdroot Cause.space.code })
  ∧ (∀ s vf entry i z g, Open s vf → (s.m.vf vf).frzlog.find? (fun e => e.1 == entry) = some (i, z) → (s.m.vf vf).frzwait = [] → z.kind = 0 →
      s.m.group? z.gid = some g → (∀ a, g.offence = some a → a.commit = false) →
      (∀ e ∈ (s.m.vf vf).frzlog, e.1 ≠ i → z.sameMaster e.2 = false) →
      ∃ t g', exec (.discard vf entry) s = .next t ∧ t.m.group? z.gid = some g' ∧ g'.frozen = false ∧ g'.offence = none
        ∧ (t.m.vf vf).frzlog = (s.m.vf vf).frzlog.filter fun e => e.1 != i)
  ∧ (∀ s vf entry, Open s vf → (s.m.vf vf).frzlog.find? (fun e => e.1 == entry) = none →
      exec (.discard vf entry) s = .next s ∧ exec (.stop vf entry) s = .next s)

/-- Partitions (R314, R315, R326, R328, R330, R343, R344): an enable that R314 allows opens a partition, any other raises ERR; shares change at the 1 µs boundary after
they are written, the stage-2 root while the partition is not enabled; a TSPLIT flush ends with its value in force; a function-level reset drains and then leaves the partition empty; a partition switch saves the outgoing
partition's image and brings the incoming one back; a partition that is due again has another turn (the order of turns is the model's choice, log entry 54). -/
def Obligations.PartitionsOpenSwitchAndReset : Prop :=
  (∀ s vf w0 w1 w2, 1 ≤ vf → vf ≤ 63 → (s.cfg.part vf).en = false → bitOf w0 31 = true → enableOk s.cfg vf (bitsOf w0 8 8) (bitsOf w0 0 6) = true →
    ∃ t, exec (.partitionDescriptorWrite vf w0 w1 w2) s = .next t ∧ t.cfg = s.cfg.onPart vf (·.opened w0 w1 w2) ∧ (t.m.vf vf).turnStart = s.m.etime
      ∧ (t.m.vf vf).ready = (s.fleet.booted && !s.fleet.halted && !(s.m.vf vf).flrDrain)
      ∧ (t.m.vf vf).away = setLoaded s.cfg s.m vf (bitsOf w0 8 8) (bitsOf w0 0 6))
  ∧ (∀ s vf w0 w1 w2, 1 ≤ vf → vf ≤ 63 → (s.cfg.part vf).en = false → bitOf w0 31 = true → enableOk s.cfg vf (bitsOf w0 8 8) (bitsOf w0 0 6) = false →
      ∃ t, exec (.partitionDescriptorWrite vf w0 w1 w2) s = .next t ∧ t.m = s.m.raisePf 0 ∧ (t.cfg.part vf).en = false)
  ∧ (∀ s vf w0 w1 w2, 1 ≤ vf → vf ≤ 63 → (s.cfg.part vf).en = true → bitOf w0 31 = false →
      ∃ t, exec (.partitionDescriptorWrite vf w0 w1 w2) s = .next t ∧ (t.cfg.part vf).en = false ∧ (t.m.vf vf).ready = false
        ∧ (t.cfg.part vf).twins = (s.cfg.part vf).twins ∧ (t.cfg.part vf).slice = (s.cfg.part vf).slice)
  ∧ (∀ s vf, s.m.etime < (s.cfg.part vf).shareAt → exec (.shareUpdate vf) s = .next s)
  ∧ (∀ s vf cap cir g7 l2, (s.cfg.part vf).shareNext = some (cap, cir, g7, l2) → (s.cfg.part vf).shareAt ≤ s.m.etime →
      exec (.shareUpdate vf) s = .next { s with cfg := s.cfg.onPart vf (·.shared cap cir g7 l2) })
  ∧ (∀ s vf addr, (s.cfg.part vf).en = true → exec (.s2rootWrite vf addr) s = .next s)
  ∧ (∀ s vf addr, (s.cfg.part vf).en = false → 1 ≤ vf → vf ≤ 63 → exec (.s2rootWrite vf addr) s
      = .next { s with cfg := s.cfg.onPart vf fun p => { p with s2root := bitsOf addr 0 57 / 2 ^ 21 * 2 ^ 21 } })
  ∧ (∀ s vf scr tdir surf, (s.cfg.part vf).tsNext = some (scr, tdir, surf) → (s.m.vf vf).tsplitst = 1 → touchSpill s.cfg vf s.m = (s.m, .ready) →
      ∃ t, exec (.tsplitFlushComplete vf) s = .next t ∧ (t.m.vf vf).tsplitst = 0
        ∧ t.cfg = s.cfg.onPart vf fun p => { p with tsScr := scr, tsTdir := tdir, tsSurf := surf, tsNext := none })
  ∧ (∀ s vf, vf ≠ 0 → (s.m.vf vf).ready = true → ∃ t, exec (.flr vf) s = .next t ∧ (t.m.vf vf).ready = false ∧ (t.m.vf vf).flrDrain = true
      ∧ (t.m.vf vf).held = [] ∧ (t.m.vf vf).posted = [] ∧ (∀ x ∈ t.m.stops, x.1 ≠ vf) ∧ ∀ g ∈ t.m.groups, g.env.vf = vf → g.haltable = false)
  ∧ (∀ s vf, vf ≠ 0 → (s.m.vf vf).ready = false → exec (.flr vf) s = .next s)
  ∧ (∀ s vf, (s.m.vf vf).flrDrain = true → (∀ g ∈ s.m.groups, g.env.vf ≠ vf) →
      ∃ t, exec (.flrReady vf) s = .next t ∧ (t.m.vf vf).ready = true ∧ (t.m.vf vf).root = 0 ∧ (t.m.vf vf).binds = [] ∧ (t.m.vf vf).cause = 0
        ∧ (t.cfg.part vf).tsScr = 1 ∧ (t.cfg.part vf).tsTdir = 0 ∧ (t.cfg.part vf).tsSurf = 0 ∧ (t.cfg.part vf).en = (s.cfg.part vf).en
        ∧ ∀ x ∈ t.m.surfs, x.vf ≠ vf)
  ∧ (∀ s out, switchable s.cfg out out s.m = true →
      exec (.partitionSwitch out out) s
        = .next { s with m := s.m.onVf out fun r => { r with served := loadedTime s.m out, turnStart := s.m.etime } })
  ∧ (∀ s out inn, inn ≠ out → switchable s.cfg out inn s.m = true → switchBusy out (switchOut s.cfg out s.m) = true →
      exec (.partitionSwitch out inn) s = .next { s with m := switchOut s.cfg out s.m })
  ∧ (∀ s out inn, inn ≠ out → switchable s.cfg out inn s.m = true → switchBusy out (switchOut s.cfg out s.m) = false →
      (swimgRange s.cfg out).2 % 2 ^ 42 ≤ deviceBytes → touchSpill s.cfg out (switchOut s.cfg out s.m) = (switchOut s.cfg out s.m, .ready) →
      swimgLost s.cfg out (switchStart s out) = false → imageLost s.cfg inn (switchPut s out) = false →
      exec (.partitionSwitch out inn) s = .next { s with m := switched s out inn, agenda := s.agenda ++ (s.m.vf inn).held })

/-- Firmware and fuses (R345, R346, R360, R361): an image that passes its checks is staged, one that fails is refused with its STATUS; the rollback counter only rises,
and a revoked key stays revoked; an attestation report is written to ATTBUF, or refused where ATTBUF is 0; a boot measures and runs stages that pass. -/
def Obligations.FirmwareIsChecked : Prop :=
  (∀ s, s.fleet.fwstatus ≠ 1 → exec .go s = .next { s with fleet := { s.fleet with fwstatus := 1, staging := true } })
  ∧ (∀ s, s.fleet.staging = true → exec .firmwareStageDone s = .next { s with
      m := s.m.raisePf 3
      fleet := match checkStage s.fleet.fuses (readList s.m.hmem s.fleet.fwsrc s.fleet.fwlen) with
        | .ok _ => { s.fleet with staging := false, fwstatus := 2, staged := some (readList s.m.hmem s.fleet.fwsrc s.fleet.fwlen) }
        | .error e => { s.fleet with staging := false, fwstatus := e } })
  ∧ (∀ f img, match checkStage f img with
      | .ok key => key < 4 ∧ f.revoked.getLsbD key = false ∧ f.rollback ≤ Config.imageVersion img
      | .error e => e = 3 ∨ e = 4)
  ∧ (∀ s, ∃ t, exec .raise s = .next t ∧ t.fleet.fuses.rollback = max s.fleet.fuses.rollback s.fleet.version
      ∧ t.fleet.fuses.revoked = s.fleet.fuses.revoked ∧ t.m = s.m.raisePf 3)
  ∧ (∀ s key, key < 4 → revokeRefused s.fleet key = false →
      ∃ t, exec (.revoke key) s = .next t ∧ t.m = s.m.raisePf 3 ∧ t.fleet.fuses.rollback = s.fleet.fuses.rollback
        ∧ ∀ i < 4, t.fleet.fuses.revoked.getLsbD i = (s.fleet.fuses.revoked.getLsbD i || i == key))
  ∧ (∀ s key, revokeRefused s.fleet key = true → ∃ t, exec (.revoke key) s = .next t ∧ t.fleet.fuses = s.fleet.fuses ∧ t.fleet.fwstatus = 5)
  ∧ (∀ s, s.fleet.attctl ≠ 1 → exec .attctlGo s = .next { s with fleet := { s.fleet with attctl := 1 } })
  ∧ (∀ s, s.fleet.attctl = 1 → s.fleet.attbuf ≠ 0 → Memory.wf s.m.hmem →
      ∃ t, exec .attestationReport s = .next t ∧ t.fleet = { s.fleet with attctl := 2 }
        ∧ ∀ i v, (reportBytes s.fleet s.m.module)[i]? = some v → byteAt t.m.hmem (s.fleet.attbuf + i) = v)
  ∧ (∀ s, s.fleet.attctl = 1 → s.fleet.attbuf = 0 →
      exec .attestationReport s = .next { s with m := s.m.raisePf 4, fleet := { s.fleet with attctl := 3 } })
  ∧ (∀ s, s.fleet.booted = false → s.fleet.bootError = 0 → exec .boot s = .next (bootState s))
  ∧ (∀ code f, (bootFrom code [] f).booted = true)
  ∧ (∀ code f img rest, match checkStage f.fuses img with
      | .error _ => (bootFrom code (img :: rest) f).booted = false ∧ (bootFrom code (img :: rest) f).bootError = code
      | .ok key => bootFrom code (img :: rest) f = bootFrom code rest { f with
          measure := Config.shake256 (natBytes f.measure 0 64 ++ natBytes (Config.shake256 img 64) 0 64) 64, version := Config.imageVersion img, signer := key })

/-- The module in its fleet (R313, R329, R338, R351, R352, R356, R357, R362, R363): domain membership changes only while no partition is enabled; via groups and
channels move down their tables and are counted; a module fault makes every function's READY 0 until a module reset, which keeps device memory and clears the rest;
power removal loses device memory too; a link trains in flit mode only. -/
def Obligations.ModuleEventsKeepTheFleetRules : Prop :=
  (∀ s number, s.cfg.anyEnabled = true ∨ 9215 < number → exec (.join number) s = .next { s with m := s.m.raisePf 0 })
  ∧ (∀ s number, s.cfg.anyEnabled = false → number ≤ 9215 → ∃ t, exec (.join number) s = .next t ∧ t.m.module = number
      ∧ t.fleet = { s.fleet with domJoin := true, domNum := number, domIn := false, domDup := false, domAligned := false })
  ∧ (∀ s, s.cfg.anyEnabled = false → ∃ t, exec .domainLeave s = .next t
      ∧ t.fleet = { s.fleet with domJoin := false, domIn := false, domDup := false, domAligned := false })
  ∧ (∀ s dup, s.fleet.domJoin = true → s.fleet.domIn = false → s.fleet.domDup = false →
      ∃ t, exec (.domainEntry dup) s = .next t ∧ t.fleet = { s.fleet with domIn := !dup, domDup := dup } ∧ t.m = s.m.raisePf 5)
  ∧ (∀ s, s.fleet.domIn = true → ∃ t, exec .etimeAligned s = .next t ∧ t.fleet = { s.fleet with domAligned := true } ∧ s.m.etime ≤ t.m.etime)
  ∧ (∀ s col tower group, s.m.via col tower group < 2 → group < 9 →
      ∃ t, exec (.viaGroupStateChange col tower group) s = .next t ∧ t.m.via col tower group = s.m.via col tower group + 1
        ∧ t.m.slow col tower = s.m.slow col tower ||| BitVec.ofNat 10 (2 ^ group)
        ∧ t.m.tele = (s.m.count col (3 + s.m.via col tower group)).tele)
  ∧ (∀ s col c, SMap.get 0 s.fleet.chans (chanKey col c) = 0 →
      ∃ t, exec (.channelNarrow col c) s = .next t ∧ SMap.get 0 t.fleet.chans (chanKey col c) = 1 ∧ t.m = s.m.count col 9)
  ∧ (∀ s col c half, SMap.get 0 s.fleet.chans (chanKey col c) ≠ 2 → SMap.get 0 s.fleet.spares col = 0 →
      ∃ t, exec (.channelRetire col c half) s = .next t ∧ SMap.get 0 t.fleet.chans (chanKey col c) = 2 ∧ SMap.get 0 t.fleet.spares col = 1
        ∧ t.m = s.m.count col 10)
  ∧ (∀ s col c, SMap.get 0 s.fleet.chans (chanKey col c) ≠ 2 → SMap.get 0 s.fleet.spares col ≠ 0 →
      ∃ t, exec (.channelRetire col c false) s = .next t ∧ t.fleet.chans = s.fleet.chans ∧ SMap.get 0 t.fleet.spareout (chanKey col c) = 1)
  ∧ (∀ s, s.fleet.halted = false → ∃ t, exec .moduleFault s = .next t ∧ t.fleet.halted = true ∧ t.m.dmem = s.m.dmem
      ∧ (∀ vf, (t.m.vf vf).ready = false) ∧ t.m.pf.cause.getLsbD 1 = true)
  ∧ (∀ s, s.fleet.powered = true → ∃ t, exec .moduleReset s = .next t ∧ t.fleet.halted = false ∧ t.m.dmem = s.m.dmem ∧ t.m.hmem = s.m.hmem
      ∧ t.m.groups = [] ∧ t.m.gangs = [] ∧ t.m.tele = [] ∧ t.cfg = {} ∧ t.fleet.fuses = s.fleet.fuses)
  ∧ (∀ s, ∃ t, exec .powerRemoval s = .next t ∧ t.fleet.powered = false ∧ t.m.dmem = [] ∧ t.m.groups = [] ∧ t.m.hmem = s.m.hmem ∧ t.cfg = {}
      ∧ t.fleet.fuses = s.fleet.fuses)
  ∧ (∀ s rate width, rate ∈ linkRates → width ∈ [1, 4, 8, 16] →
      exec (.linkTraining rate width true) s = .next { s with fleet := { s.fleet with linkUp := true, linkRate := rate, linkWidth := width } })
  ∧ (∀ s rate width, exec (.linkTraining rate width false) s = .next { s with fleet := { s.fleet with linkUp := false } })

namespace Sys2Proof.Machine

/-! ### Steps, encodings, whole-machine rules -/

/-- No event is due, the module runs, and gang `k` of group `g` is the one that moves: its group is on its core and not frozen. -/
structure MovesNext (s : State) (k : Gang) (g : Group) : Prop where
  agenda : s.agenda = []
  powered : s.fleet.powered = true
  running : s.fleet.halted = false
  cur : s.m.curGang = some (k, g)
  stage : g.stage = .resident
  live : g.frozen = false

/-- A gang between two words of its run. -/
structure AtWord (k : Gang) : Prop where
  formed : k.st ≠ .formed
  trailer : k.st ≠ .trailer
  mode : k.mode ≠ .commit

/-- The word at a gang's slot, and the one after it in its packet. -/
def Gang.wordAt (k : Gang) : Nat := (k.run.getD k.slot 0).toNat
def Gang.wordAfter (k : Gang) : Option Nat := if k.slot % 3 = 2 then none else (k.run[k.slot + 1]?).map BitVec.toNat

/-- A gang whose first slot of an issue group is the one it stands at. -/
def State.atFirst (s : State) : State := s.onCur fun k => { k with first := k.slot }

end Sys2Proof.Machine

open Sys2Proof Sys2Proof.Machine

/-- A step runs the decoded instruction (R64 to R67, R84, R143): the first due event, if there is one; else what the current gang's word decodes to, a reserved encoding
by its name, the four words of a fused softmax as one, a chain as a unit or with ILLCHAIN; a gang just formed has its run checked, one at its trailer retires it. -/
def Obligations.StepRunsTheDecodedInstruction : Prop :=
  (∀ s i rest, s.agenda = i :: rest → step s = exec i { s with agenda := rest })
  ∧ (∀ s k g i n, MovesNext s k g → AtWord k → fusedAt k.run k.slot = none → decodeAt k.wordAt k.wordAfter = .ok (i, n) →
      (instrAt k.run k.slot).2.2 = false ∨ (k.slot + n) % 3 = 0 → step s = follow (exec i s.atFirst) clearCur)
  ∧ (∀ s k g e, MovesNext s k g → AtWord k → fusedAt k.run k.slot = none → decodeAt k.wordAt k.wordAfter = .error e →
      chainBit k.wordAt = false ∨ (k.slot + 1) % 3 = 0 → step s = follow (exec (.reservedEncoding k.wordAt) s.atFirst) clearCur)
  ∧ (∀ s k g f, MovesNext s k g → AtWord k → fusedAt k.run k.slot = some f → step s = follow (exec .fusedSoftmax s) clearCur)
  ∧ (∀ s k g us, MovesNext s k g → AtWord k → fusedAt k.run k.slot = none → issueGroup k.run 3 k.slot = (us, false) → 2 ≤ us.length → pipesMeet us = false →
      step s = follow (follow (probe k.slot us s) (judge k.slot us)) clearCur)
  ∧ (∀ s k g us bad, MovesNext s k g → AtWord k → fusedAt k.run k.slot = none → issueGroup k.run 3 k.slot = (us, bad) → pipesMeet us = true ∨ bad = true →
      step s = follow (word { c := true, q := some (Modifier.ofWord 0) } s.atFirst) clearCur)
  ∧ (∀ s k g, MovesNext s k g → k.st = .formed → step s = follow (exec .runStart s) clearCur)
  ∧ (∀ s k g, MovesNext s k g → k.st = .trailer → step s = follow (exec .trailerRetire s) clearCur)
  ∧ (∀ s, s.agenda = [] → s.fleet.powered = true → s.fleet.halted = false → s.m.cur = none →
      ∃ move ∈ moves s, step s = move { s with m := { s.m with free := s.m.free + 1 } })

/-- Words written out from the encoding tables decode to the instructions they stand for, and reserved words are refused (Tables 03.1 to 03.5, 04.2, 04.4). -/
def Obligations.WordsOfTheEncodingTablesDecode : Prop :=
  decodeAt 0b00000000000000000000000000000000 none = .ok (.nop { c := false }, 1)
  ∧ decodeAt 0b00000010000001010000110000011100 none = .ok (.iadd { c := false, h := false, d := 5, a := 6, b := 7, m := false, n := false } none, 1)
  ∧ decodeAt 0b00110010000001100010000010110000 none = .ok (.pand { c := false, k := 3, j := 4, l := 5, x := true, y := false } none, 1)
  ∧ decodeAt 0b00110110100010100000110000000010 none = .ok (.sadd { c := false, d := 10, a := 3, b := 2 } none, 1)
  ∧ decodeAt 0b00111010000011111111111111111111 none = .ok (.bra { c := false, k := 1, g := true, d := 0x3FFFF } none, 1)
  ∧ decodeAt 0b11000100111100010000010111101010 none = .ok (.ffma { c := true, h := false, e := true, d := 113, a := 2, b := 122, m := true, n := false } none, 1)
  ∧ decodeAt 0b01011100100000110000001010000001 none = .ok (.ld { c := false, z := 2, d := 6, a := 2, m := true, o := 1 } none, 1)
  ∧ decodeAt 0b01101100001100000000000000000000 none = .ok (.barS { c := false } none, 1)
  ∧ decodeAt 0b01110010000000000001010000000000 none = .ok (.mma { c := false, a := 20 } none, 1)
  ∧ decodeAt 0b01110100000000000110000000100101 none = .ok (.emit { c := false, a := 3, m := true, j := 5 } none, 1)
  ∧ decodeAt 0b01110110000000001001111011010000 none = .ok (.sysrd { c := false, d := 4, a := 123, n := 16 } none, 1)
  ∧ decodeAt 0b01111101010000001000000000000001 none = .ok (.endrun { j := true, y := false, r := true, w := 0x8001 }, 1)
  ∧ decodeAt 0x5670CA2E none = .ok (.dcmp { c := false, k := 3, a := 10, b := 11, p := 2 } none, 1)
  ∧ decodeAt 0x2C10E40C none = .ok (.movxR { c := false, d := 7, m := false, x := 1, i := 12 } none, 1)
  ∧ decodeAt 0b01000000000000010000010000001100 (some 0b01111111010011111100011110000000) = .ok (.fadd { c := false, h := false, d := 1, a := 2, b := 3, m := false, n := false }
      (some { c := false, sat := true, clp := false, na := true, nb := false, aa := false, ab := true, scale := 31, kg := 7, gn := true, hb := false, ord := 0
              scope := 0, rsv := false }), 2)
  ∧ decodeAt 0b01111000000000000000000000000000 none = .error .reserved
  ∧ decodeAt 0b01111111010011111100011110000000 none = .error .loneModifier

/-- Decode and encode agree, on bytes: the bytes of every well-formed word and of its modifier decode to it, with nothing left over (R5, R64, R72, R80). -/
def Obligations.DecodingUndoesEncoding : Prop :=
  ∀ i : Instr, i.isWord = true → i.wf = true → decodeBytes ((encode i).flatMap bytesOfWord) = .ok (i, [])

/-- The decoder drops no bit and adds none: what it reads from a word, and the word after it in its packet, is well-formed and encodes to those words (R72, R80, R84). -/
def Obligations.EncodingUndoesDecoding : Prop :=
  ∀ w next i n, w < 2 ^ 32 → (∀ x, next = some x → x < 2 ^ 32) → decodeAt w next = .ok (i, n) →
    i.isWord = true ∧ i.wf = true ∧ ((n = 1 ∧ encode i = [w]) ∨ (n = 2 ∧ ∃ x, next = some x ∧ encode i = [w, x]))

/-- What drivers and the fleet controller have set stays legal under every step, whatever the event: every TSPLIT within 20 units, every enabled partition of 1, 2, 3 or 6
twins apart from the others, POWCAP and REFMAX in their ranges (R314, R326, R348). -/
def Obligations.StepsKeepTheConfigurationLegal : Prop := ∀ s t, s.Legal → step s = .next t → t.Legal

/-- The state after reset is legal and holds what the manual states for reset: no partition enabled, TSPLIT with SCR 1 and no other portion, POWCAP 660, REFMAX 64, every heat
bucket full (R299, Table 01.10, Table 19.1); its memories are in canonical form with nothing listed; XWIN at launch has LIMIT 255 and BASE 0 (R32). -/
def Obligations.ResetHoldsItsStatedValues : Prop :=
  State.reset.Legal
  ∧ (∀ v, (State.reset.cfg.part v).en = false ∧ (State.reset.cfg.part v).tsScr = 1 ∧ (State.reset.cfg.part v).tsTdir = 0 ∧ (State.reset.cfg.part v).tsSurf = 0)
  ∧ State.reset.fleet.powcap = 660 ∧ State.reset.fleet.refmax = 64
  ∧ (∀ col c i, SMap.get 0 (State.reset.m.core col c).eng.spent i = 0 ∧ (State.reset.m.core col c).cu i = 0)
  ∧ Memory.wf State.reset.m.dmem ∧ Memory.wf State.reset.m.hmem ∧ Memory.wf State.reset.m.smem ∧ Memory.wf State.reset.m.tmem ∧ Memory.wf State.reset.m.fmem
  ∧ (∀ a, byteAt State.reset.m.dmem a = unwritten)
  ∧ (∀ tid pc e, (newThread tid pc e).c.winLimit = 255 ∧ (newThread tid pc e).c.winBase = 0)

/-- No instruction stops the machine: every word and every event answers a next state; a step stops only for want of power or in a module fault, with no event due (R329,
R338). -/
def Obligations.NoInstructionStopsTheMachine : Prop :=
  (∀ i s, ∃ t, exec i s = .next t)
  ∧ (∀ s, (∃ t, step s = .next t) ∨ (s.agenda = [] ∧ s.fleet.powered = false ∧ step s = .fault .noPower)
      ∨ (s.agenda = [] ∧ s.fleet.powered = true ∧ s.fleet.halted = true ∧ step s = .fault .moduleHalted))

/-- No word of a program changes what drivers and the fleet controller set: partitions, fleet registers, firmware and fuses, and the events to come. -/
def Obligations.ProgramWordsLeaveDriverState : Prop :=
  ∀ i s t, i.isWord = true → exec i s = .next t → t.cfg = s.cfg ∧ t.fleet = s.fleet ∧ t.agenda = s.agenda
end

