-- ==== Sys2Proof/Laws/State.lean ====
section
/-! SUPPORT. What the updates of the machine leave: one lemma for each field an update does not touch. -/

namespace Sys2Proof.Machine

/-! ### `Mach.onGroup` -/

@[simp] theorem Mach.onGroup_free (m : Mach) (i : Nat) (f : Group → Group) : (m.onGroup i f).free = m.free := rfl
@[simp] theorem Mach.onGroup_etime (m : Mach) (i : Nat) (f : Group → Group) : (m.onGroup i f).etime = m.etime := rfl
@[simp] theorem Mach.onGroup_dmem (m : Mach) (i : Nat) (f : Group → Group) : (m.onGroup i f).dmem = m.dmem := rfl
@[simp] theorem Mach.onGroup_hmem (m : Mach) (i : Nat) (f : Group → Group) : (m.onGroup i f).hmem = m.hmem := rfl
@[simp] theorem Mach.onGroup_smem (m : Mach) (i : Nat) (f : Group → Group) : (m.onGroup i f).smem = m.smem := rfl
@[simp] theorem Mach.onGroup_tmem (m : Mach) (i : Nat) (f : Group → Group) : (m.onGroup i f).tmem = m.tmem := rfl
@[simp] theorem Mach.onGroup_fmem (m : Mach) (i : Nat) (f : Group → Group) : (m.onGroup i f).fmem = m.fmem := rfl
@[simp] theorem Mach.onGroup_cores (m : Mach) (i : Nat) (f : Group → Group) : (m.onGroup i f).cores = m.cores := rfl
@[simp] theorem Mach.onGroup_banks (m : Mach) (i : Nat) (f : Group → Group) : (m.onGroup i f).banks = m.banks := rfl
@[simp] theorem Mach.onGroup_towers (m : Mach) (i : Nat) (f : Group → Group) : (m.onGroup i f).towers = m.towers := rfl
@[simp] theorem Mach.onGroup_clusters (m : Mach) (i : Nat) (f : Group → Group) : (m.onGroup i f).clusters = m.clusters := rfl
@[simp] theorem Mach.onGroup_slices (m : Mach) (i : Nat) (f : Group → Group) : (m.onGroup i f).slices = m.slices := rfl
@[simp] theorem Mach.onGroup_occ (m : Mach) (i : Nat) (f : Group → Group) : (m.onGroup i f).occ = m.occ := rfl
@[simp] theorem Mach.onGroup_draws (m : Mach) (i : Nat) (f : Group → Group) : (m.onGroup i f).draws = m.draws := rfl
@[simp] theorem Mach.onGroup_pix (m : Mach) (i : Nat) (f : Group → Group) : (m.onGroup i f).pix = m.pix := rfl
@[simp] theorem Mach.onGroup_nextPix (m : Mach) (i : Nat) (f : Group → Group) : (m.onGroup i f).nextPix = m.nextPix := rfl
@[simp] theorem Mach.onGroup_monitors (m : Mach) (i : Nat) (f : Group → Group) : (m.onGroup i f).monitors = m.monitors := rfl
@[simp] theorem Mach.onGroup_tlb (m : Mach) (i : Nat) (f : Group → Group) : (m.onGroup i f).tlb = m.tlb := rfl
@[simp] theorem Mach.onGroup_nextGid (m : Mach) (i : Nat) (f : Group → Group) : (m.onGroup i f).nextGid = m.nextGid := rfl
@[simp] theorem Mach.onGroup_gangs (m : Mach) (i : Nat) (f : Group → Group) : (m.onGroup i f).gangs = m.gangs := rfl
@[simp] theorem Mach.onGroup_nextGang (m : Mach) (i : Nat) (f : Group → Group) : (m.onGroup i f).nextGang = m.nextGang := rfl
@[simp] theorem Mach.onGroup_cur (m : Mach) (i : Nat) (f : Group → Group) : (m.onGroup i f).cur = m.cur := rfl
@[simp] theorem Mach.onGroup_turn (m : Mach) (i : Nat) (f : Group → Group) : (m.onGroup i f).turn = m.turn := rfl
@[simp] theorem Mach.onGroup_surfs (m : Mach) (i : Nat) (f : Group → Group) : (m.onGroup i f).surfs = m.surfs := rfl
@[simp] theorem Mach.onGroup_tags (m : Mach) (i : Nat) (f : Group → Group) : (m.onGroup i f).tags = m.tags := rfl
@[simp] theorem Mach.onGroup_allocq (m : Mach) (i : Nat) (f : Group → Group) : (m.onGroup i f).allocq = m.allocq := rfl
@[simp] theorem Mach.onGroup_vfs (m : Mach) (i : Nat) (f : Group → Group) : (m.onGroup i f).vfs = m.vfs := rfl
@[simp] theorem Mach.onGroup_pf (m : Mach) (i : Nat) (f : Group → Group) : (m.onGroup i f).pf = m.pf := rfl
@[simp] theorem Mach.onGroup_tele (m : Mach) (i : Nat) (f : Group → Group) : (m.onGroup i f).tele = m.tele := rfl
@[simp] theorem Mach.onGroup_vias (m : Mach) (i : Nat) (f : Group → Group) : (m.onGroup i f).vias = m.vias := rfl
@[simp] theorem Mach.onGroup_stops (m : Mach) (i : Nat) (f : Group → Group) : (m.onGroup i f).stops = m.stops := rfl
@[simp] theorem Mach.onGroup_pends (m : Mach) (i : Nat) (f : Group → Group) : (m.onGroup i f).pends = m.pends := rfl
@[simp] theorem Mach.onGroup_lost (m : Mach) (i : Nat) (f : Group → Group) : (m.onGroup i f).lost = m.lost := rfl
@[simp] theorem Mach.onGroup_module (m : Mach) (i : Nat) (f : Group → Group) : (m.onGroup i f).module = m.module := rfl

/-! ### `Mach.onThread` -/

@[simp] theorem Mach.onThread_free (m : Mach) (i t : Nat) (f : Thread → Thread) : (m.onThread i t f).free = m.free := rfl
@[simp] theorem Mach.onThread_etime (m : Mach) (i t : Nat) (f : Thread → Thread) : (m.onThread i t f).etime = m.etime := rfl
@[simp] theorem Mach.onThread_dmem (m : Mach) (i t : Nat) (f : Thread → Thread) : (m.onThread i t f).dmem = m.dmem := rfl
@[simp] theorem Mach.onThread_hmem (m : Mach) (i t : Nat) (f : Thread → Thread) : (m.onThread i t f).hmem = m.hmem := rfl
@[simp] theorem Mach.onThread_smem (m : Mach) (i t : Nat) (f : Thread → Thread) : (m.onThread i t f).smem = m.smem := rfl
@[simp] theorem Mach.onThread_tmem (m : Mach) (i t : Nat) (f : Thread → Thread) : (m.onThread i t f).tmem = m.tmem := rfl
@[simp] theorem Mach.onThread_fmem (m : Mach) (i t : Nat) (f : Thread → Thread) : (m.onThread i t f).fmem = m.fmem := rfl
@[simp] theorem Mach.onThread_cores (m : Mach) (i t : Nat) (f : Thread → Thread) : (m.onThread i t f).cores = m.cores := rfl
@[simp] theorem Mach.onThread_banks (m : Mach) (i t : Nat) (f : Thread → Thread) : (m.onThread i t f).banks = m.banks := rfl
@[simp] theorem Mach.onThread_towers (m : Mach) (i t : Nat) (f : Thread → Thread) : (m.onThread i t f).towers = m.towers := rfl
@[simp] theorem Mach.onThread_clusters (m : Mach) (i t : Nat) (f : Thread → Thread) : (m.onThread i t f).clusters = m.clusters := rfl
@[simp] theorem Mach.onThread_slices (m : Mach) (i t : Nat) (f : Thread → Thread) : (m.onThread i t f).slices = m.slices := rfl
@[simp] theorem Mach.onThread_occ (m : Mach) (i t : Nat) (f : Thread → Thread) : (m.onThread i t f).occ = m.occ := rfl
@[simp] theorem Mach.onThread_draws (m : Mach) (i t : Nat) (f : Thread → Thread) : (m.onThread i t f).draws = m.draws := rfl
@[simp] theorem Mach.onThread_pix (m : Mach) (i t : Nat) (f : Thread → Thread) : (m.onThread i t f).pix = m.pix := rfl
@[simp] theorem Mach.onThread_nextPix (m : Mach) (i t : Nat) (f : Thread → Thread) : (m.onThread i t f).nextPix = m.nextPix := rfl
@[simp] theorem Mach.onThread_monitors (m : Mach) (i t : Nat) (f : Thread → Thread) : (m.onThread i t f).monitors = m.monitors := rfl
@[simp] theorem Mach.onThread_tlb (m : Mach) (i t : Nat) (f : Thread → Thread) : (m.onThread i t f).tlb = m.tlb := rfl
@[simp] theorem Mach.onThread_nextGid (m : Mach) (i t : Nat) (f : Thread → Thread) : (m.onThread i t f).nextGid = m.nextGid := rfl
@[simp] theorem Mach.onThread_gangs (m : Mach) (i t : Nat) (f : Thread → Thread) : (m.onThread i t f).gangs = m.gangs := rfl
@[simp] theorem Mach.onThread_nextGang (m : Mach) (i t : Nat) (f : Thread → Thread) : (m.onThread i t f).nextGang = m.nextGang := rfl
@[simp] theorem Mach.onThread_cur (m : Mach) (i t : Nat) (f : Thread → Thread) : (m.onThread i t f).cur = m.cur := rfl
@[simp] theorem Mach.onThread_turn (m : Mach) (i t : Nat) (f : Thread → Thread) : (m.onThread i t f).turn = m.turn := rfl
@[simp] theorem Mach.onThread_surfs (m : Mach) (i t : Nat) (f : Thread → Thread) : (m.onThread i t f).surfs = m.surfs := rfl
@[simp] theorem Mach.onThread_tags (m : Mach) (i t : Nat) (f : Thread → Thread) : (m.onThread i t f).tags = m.tags := rfl
@[simp] theorem Mach.onThread_allocq (m : Mach) (i t : Nat) (f : Thread → Thread) : (m.onThread i t f).allocq = m.allocq := rfl
@[simp] theorem Mach.onThread_vfs (m : Mach) (i t : Nat) (f : Thread → Thread) : (m.onThread i t f).vfs = m.vfs := rfl
@[simp] theorem Mach.onThread_pf (m : Mach) (i t : Nat) (f : Thread → Thread) : (m.onThread i t f).pf = m.pf := rfl
@[simp] theorem Mach.onThread_tele (m : Mach) (i t : Nat) (f : Thread → Thread) : (m.onThread i t f).tele = m.tele := rfl
@[simp] theorem Mach.onThread_vias (m : Mach) (i t : Nat) (f : Thread → Thread) : (m.onThread i t f).vias = m.vias := rfl
@[simp] theorem Mach.onThread_stops (m : Mach) (i t : Nat) (f : Thread → Thread) : (m.onThread i t f).stops = m.stops := rfl
@[simp] theorem Mach.onThread_pends (m : Mach) (i t : Nat) (f : Thread → Thread) : (m.onThread i t f).pends = m.pends := rfl
@[simp] theorem Mach.onThread_lost (m : Mach) (i t : Nat) (f : Thread → Thread) : (m.onThread i t f).lost = m.lost := rfl
@[simp] theorem Mach.onThread_module (m : Mach) (i t : Nat) (f : Thread → Thread) : (m.onThread i t f).module = m.module := rfl

/-! ### `Mach.mapLanes` -/

@[simp] theorem Mach.mapLanes_free (m : Mach) (i : Nat) (ls : List LaneIn) (f : LaneIn → Thread → Thread) : (m.mapLanes i ls f).free = m.free := rfl
@[simp] theorem Mach.mapLanes_etime (m : Mach) (i : Nat) (ls : List LaneIn) (f : LaneIn → Thread → Thread) : (m.mapLanes i ls f).etime = m.etime := rfl
@[simp] theorem Mach.mapLanes_dmem (m : Mach) (i : Nat) (ls : List LaneIn) (f : LaneIn → Thread → Thread) : (m.mapLanes i ls f).dmem = m.dmem := rfl
@[simp] theorem Mach.mapLanes_hmem (m : Mach) (i : Nat) (ls : List LaneIn) (f : LaneIn → Thread → Thread) : (m.mapLanes i ls f).hmem = m.hmem := rfl
@[simp] theorem Mach.mapLanes_smem (m : Mach) (i : Nat) (ls : List LaneIn) (f : LaneIn → Thread → Thread) : (m.mapLanes i ls f).smem = m.smem := rfl
@[simp] theorem Mach.mapLanes_tmem (m : Mach) (i : Nat) (ls : List LaneIn) (f : LaneIn → Thread → Thread) : (m.mapLanes i ls f).tmem = m.tmem := rfl
@[simp] theorem Mach.mapLanes_fmem (m : Mach) (i : Nat) (ls : List LaneIn) (f : LaneIn → Thread → Thread) : (m.mapLanes i ls f).fmem = m.fmem := rfl
@[simp] theorem Mach.mapLanes_cores (m : Mach) (i : Nat) (ls : List LaneIn) (f : LaneIn → Thread → Thread) : (m.mapLanes i ls f).cores = m.cores := rfl
@[simp] theorem Mach.mapLanes_banks (m : Mach) (i : Nat) (ls : List LaneIn) (f : LaneIn → Thread → Thread) : (m.mapLanes i ls f).banks = m.banks := rfl
@[simp] theorem Mach.mapLanes_towers (m : Mach) (i : Nat) (ls : List LaneIn) (f : LaneIn → Thread → Thread) : (m.mapLanes i ls f).towers = m.towers := rfl
@[simp] theorem Mach.mapLanes_clusters (m : Mach) (i : Nat) (ls : List LaneIn) (f : LaneIn → Thread → Thread) : (m.mapLanes i ls f).clusters = m.clusters := rfl
@[simp] theorem Mach.mapLanes_slices (m : Mach) (i : Nat) (ls : List LaneIn) (f : LaneIn → Thread → Thread) : (m.mapLanes i ls f).slices = m.slices := rfl
@[simp] theorem Mach.mapLanes_occ (m : Mach) (i : Nat) (ls : List LaneIn) (f : LaneIn → Thread → Thread) : (m.mapLanes i ls f).occ = m.occ := rfl
@[simp] theorem Mach.mapLanes_draws (m : Mach) (i : Nat) (ls : List LaneIn) (f : LaneIn → Thread → Thread) : (m.mapLanes i ls f).draws = m.draws := rfl
@[simp] theorem Mach.mapLanes_pix (m : Mach) (i : Nat) (ls : List LaneIn) (f : LaneIn → Thread → Thread) : (m.mapLanes i ls f).pix = m.pix := rfl
@[simp] theorem Mach.mapLanes_nextPix (m : Mach) (i : Nat) (ls : List LaneIn) (f : LaneIn → Thread → Thread) : (m.mapLanes i ls f).nextPix = m.nextPix := rfl
@[simp] theorem Mach.mapLanes_monitors (m : Mach) (i : Nat) (ls : List LaneIn) (f : LaneIn → Thread → Thread) : (m.mapLanes i ls f).monitors = m.monitors := rfl
@[simp] theorem Mach.mapLanes_tlb (m : Mach) (i : Nat) (ls : List LaneIn) (f : LaneIn → Thread → Thread) : (m.mapLanes i ls f).tlb = m.tlb := rfl
@[simp] theorem Mach.mapLanes_nextGid (m : Mach) (i : Nat) (ls : List LaneIn) (f : LaneIn → Thread → Thread) : (m.mapLanes i ls f).nextGid = m.nextGid := rfl
@[simp] theorem Mach.mapLanes_gangs (m : Mach) (i : Nat) (ls : List LaneIn) (f : LaneIn → Thread → Thread) : (m.mapLanes i ls f).gangs = m.gangs := rfl
@[simp] theorem Mach.mapLanes_nextGang (m : Mach) (i : Nat) (ls : List LaneIn) (f : LaneIn → Thread → Thread) : (m.mapLanes i ls f).nextGang = m.nextGang := rfl
@[simp] theorem Mach.mapLanes_cur (m : Mach) (i : Nat) (ls : List LaneIn) (f : LaneIn → Thread → Thread) : (m.mapLanes i ls f).cur = m.cur := rfl
@[simp] theorem Mach.mapLanes_turn (m : Mach) (i : Nat) (ls : List LaneIn) (f : LaneIn → Thread → Thread) : (m.mapLanes i ls f).turn = m.turn := rfl
@[simp] theorem Mach.mapLanes_surfs (m : Mach) (i : Nat) (ls : List LaneIn) (f : LaneIn → Thread → Thread) : (m.mapLanes i ls f).surfs = m.surfs := rfl
@[simp] theorem Mach.mapLanes_tags (m : Mach) (i : Nat) (ls : List LaneIn) (f : LaneIn → Thread → Thread) : (m.mapLanes i ls f).tags = m.tags := rfl
@[simp] theorem Mach.mapLanes_allocq (m : Mach) (i : Nat) (ls : List LaneIn) (f : LaneIn → Thread → Thread) : (m.mapLanes i ls f).allocq = m.allocq := rfl
@[simp] theorem Mach.mapLanes_vfs (m : Mach) (i : Nat) (ls : List LaneIn) (f : LaneIn → Thread → Thread) : (m.mapLanes i ls f).vfs = m.vfs := rfl
@[simp] theorem Mach.mapLanes_pf (m : Mach) (i : Nat) (ls : List LaneIn) (f : LaneIn → Thread → Thread) : (m.mapLanes i ls f).pf = m.pf := rfl
@[simp] theorem Mach.mapLanes_tele (m : Mach) (i : Nat) (ls : List LaneIn) (f : LaneIn → Thread → Thread) : (m.mapLanes i ls f).tele = m.tele := rfl
@[simp] theorem Mach.mapLanes_vias (m : Mach) (i : Nat) (ls : List LaneIn) (f : LaneIn → Thread → Thread) : (m.mapLanes i ls f).vias = m.vias := rfl
@[simp] theorem Mach.mapLanes_stops (m : Mach) (i : Nat) (ls : List LaneIn) (f : LaneIn → Thread → Thread) : (m.mapLanes i ls f).stops = m.stops := rfl
@[simp] theorem Mach.mapLanes_pends (m : Mach) (i : Nat) (ls : List LaneIn) (f : LaneIn → Thread → Thread) : (m.mapLanes i ls f).pends = m.pends := rfl
@[simp] theorem Mach.mapLanes_lost (m : Mach) (i : Nat) (ls : List LaneIn) (f : LaneIn → Thread → Thread) : (m.mapLanes i ls f).lost = m.lost := rfl
@[simp] theorem Mach.mapLanes_module (m : Mach) (i : Nat) (ls : List LaneIn) (f : LaneIn → Thread → Thread) : (m.mapLanes i ls f).module = m.module := rfl

/-! ### `Mach.onGang` -/

@[simp] theorem Mach.onGang_free (m : Mach) (i : Nat) (f : Gang → Gang) : (m.onGang i f).free = m.free := rfl
@[simp] theorem Mach.onGang_etime (m : Mach) (i : Nat) (f : Gang → Gang) : (m.onGang i f).etime = m.etime := rfl
@[simp] theorem Mach.onGang_dmem (m : Mach) (i : Nat) (f : Gang → Gang) : (m.onGang i f).dmem = m.dmem := rfl
@[simp] theorem Mach.onGang_hmem (m : Mach) (i : Nat) (f : Gang → Gang) : (m.onGang i f).hmem = m.hmem := rfl
@[simp] theorem Mach.onGang_smem (m : Mach) (i : Nat) (f : Gang → Gang) : (m.onGang i f).smem = m.smem := rfl
@[simp] theorem Mach.onGang_tmem (m : Mach) (i : Nat) (f : Gang → Gang) : (m.onGang i f).tmem = m.tmem := rfl
@[simp] theorem Mach.onGang_fmem (m : Mach) (i : Nat) (f : Gang → Gang) : (m.onGang i f).fmem = m.fmem := rfl
@[simp] theorem Mach.onGang_cores (m : Mach) (i : Nat) (f : Gang → Gang) : (m.onGang i f).cores = m.cores := rfl
@[simp] theorem Mach.onGang_banks (m : Mach) (i : Nat) (f : Gang → Gang) : (m.onGang i f).banks = m.banks := rfl
@[simp] theorem Mach.onGang_towers (m : Mach) (i : Nat) (f : Gang → Gang) : (m.onGang i f).towers = m.towers := rfl
@[simp] theorem Mach.onGang_clusters (m : Mach) (i : Nat) (f : Gang → Gang) : (m.onGang i f).clusters = m.clusters := rfl
@[simp] theorem Mach.onGang_slices (m : Mach) (i : Nat) (f : Gang → Gang) : (m.onGang i f).slices = m.slices := rfl
@[simp] theorem Mach.onGang_occ (m : Mach) (i : Nat) (f : Gang → Gang) : (m.onGang i f).occ = m.occ := rfl
@[simp] theorem Mach.onGang_draws (m : Mach) (i : Nat) (f : Gang → Gang) : (m.onGang i f).draws = m.draws := rfl
@[simp] theorem Mach.onGang_pix (m : Mach) (i : Nat) (f : Gang → Gang) : (m.onGang i f).pix = m.pix := rfl
@[simp] theorem Mach.onGang_nextPix (m : Mach) (i : Nat) (f : Gang → Gang) : (m.onGang i f).nextPix = m.nextPix := rfl
@[simp] theorem Mach.onGang_monitors (m : Mach) (i : Nat) (f : Gang → Gang) : (m.onGang i f).monitors = m.monitors := rfl
@[simp] theorem Mach.onGang_tlb (m : Mach) (i : Nat) (f : Gang → Gang) : (m.onGang i f).tlb = m.tlb := rfl
@[simp] theorem Mach.onGang_groups (m : Mach) (i : Nat) (f : Gang → Gang) : (m.onGang i f).groups = m.groups := rfl
@[simp] theorem Mach.onGang_nextGid (m : Mach) (i : Nat) (f : Gang → Gang) : (m.onGang i f).nextGid = m.nextGid := rfl
@[simp] theorem Mach.onGang_nextGang (m : Mach) (i : Nat) (f : Gang → Gang) : (m.onGang i f).nextGang = m.nextGang := rfl
@[simp] theorem Mach.onGang_cur (m : Mach) (i : Nat) (f : Gang → Gang) : (m.onGang i f).cur = m.cur := rfl
@[simp] theorem Mach.onGang_turn (m : Mach) (i : Nat) (f : Gang → Gang) : (m.onGang i f).turn = m.turn := rfl
@[simp] theorem Mach.onGang_surfs (m : Mach) (i : Nat) (f : Gang → Gang) : (m.onGang i f).surfs = m.surfs := rfl
@[simp] theorem Mach.onGang_tags (m : Mach) (i : Nat) (f : Gang → Gang) : (m.onGang i f).tags = m.tags := rfl
@[simp] theorem Mach.onGang_allocq (m : Mach) (i : Nat) (f : Gang → Gang) : (m.onGang i f).allocq = m.allocq := rfl
@[simp] theorem Mach.onGang_vfs (m : Mach) (i : Nat) (f : Gang → Gang) : (m.onGang i f).vfs = m.vfs := rfl
@[simp] theorem Mach.onGang_pf (m : Mach) (i : Nat) (f : Gang → Gang) : (m.onGang i f).pf = m.pf := rfl
@[simp] theorem Mach.onGang_tele (m : Mach) (i : Nat) (f : Gang → Gang) : (m.onGang i f).tele = m.tele := rfl
@[simp] theorem Mach.onGang_vias (m : Mach) (i : Nat) (f : Gang → Gang) : (m.onGang i f).vias = m.vias := rfl
@[simp] theorem Mach.onGang_stops (m : Mach) (i : Nat) (f : Gang → Gang) : (m.onGang i f).stops = m.stops := rfl
@[simp] theorem Mach.onGang_pends (m : Mach) (i : Nat) (f : Gang → Gang) : (m.onGang i f).pends = m.pends := rfl
@[simp] theorem Mach.onGang_lost (m : Mach) (i : Nat) (f : Gang → Gang) : (m.onGang i f).lost = m.lost := rfl
@[simp] theorem Mach.onGang_module (m : Mach) (i : Nat) (f : Gang → Gang) : (m.onGang i f).module = m.module := rfl

/-! ### `Mach.dropGang` -/

@[simp] theorem Mach.dropGang_free (m : Mach) (i : Nat) : (m.dropGang i).free = m.free := rfl
@[simp] theorem Mach.dropGang_etime (m : Mach) (i : Nat) : (m.dropGang i).etime = m.etime := rfl
@[simp] theorem Mach.dropGang_dmem (m : Mach) (i : Nat) : (m.dropGang i).dmem = m.dmem := rfl
@[simp] theorem Mach.dropGang_hmem (m : Mach) (i : Nat) : (m.dropGang i).hmem = m.hmem := rfl
@[simp] theorem Mach.dropGang_smem (m : Mach) (i : Nat) : (m.dropGang i).smem = m.smem := rfl
@[simp] theorem Mach.dropGang_tmem (m : Mach) (i : Nat) : (m.dropGang i).tmem = m.tmem := rfl
@[simp] theorem Mach.dropGang_fmem (m : Mach) (i : Nat) : (m.dropGang i).fmem = m.fmem := rfl
@[simp] theorem Mach.dropGang_cores (m : Mach) (i : Nat) : (m.dropGang i).cores = m.cores := rfl
@[simp] theorem Mach.dropGang_banks (m : Mach) (i : Nat) : (m.dropGang i).banks = m.banks := rfl
@[simp] theorem Mach.dropGang_towers (m : Mach) (i : Nat) : (m.dropGang i).towers = m.towers := rfl
@[simp] theorem Mach.dropGang_clusters (m : Mach) (i : Nat) : (m.dropGang i).clusters = m.clusters := rfl
@[simp] theorem Mach.dropGang_slices (m : Mach) (i : Nat) : (m.dropGang i).slices = m.slices := rfl
@[simp] theorem Mach.dropGang_occ (m : Mach) (i : Nat) : (m.dropGang i).occ = m.occ := rfl
@[simp] theorem Mach.dropGang_draws (m : Mach) (i : Nat) : (m.dropGang i).draws = m.draws := rfl
@[simp] theorem Mach.dropGang_pix (m : Mach) (i : Nat) : (m.dropGang i).pix = m.pix := rfl
@[simp] theorem Mach.dropGang_nextPix (m : Mach) (i : Nat) : (m.dropGang i).nextPix = m.nextPix := rfl
@[simp] theorem Mach.dropGang_monitors (m : Mach) (i : Nat) : (m.dropGang i).monitors = m.monitors := rfl
@[simp] theorem Mach.dropGang_tlb (m : Mach) (i : Nat) : (m.dropGang i).tlb = m.tlb := rfl
@[simp] theorem Mach.dropGang_groups (m : Mach) (i : Nat) : (m.dropGang i).groups = m.groups := rfl
@[simp] theorem Mach.dropGang_nextGid (m : Mach) (i : Nat) : (m.dropGang i).nextGid = m.nextGid := rfl
@[simp] theorem Mach.dropGang_nextGang (m : Mach) (i : Nat) : (m.dropGang i).nextGang = m.nextGang := rfl
@[simp] theorem Mach.dropGang_cur (m : Mach) (i : Nat) : (m.dropGang i).cur = m.cur := rfl
@[simp] theorem Mach.dropGang_turn (m : Mach) (i : Nat) : (m.dropGang i).turn = m.turn := rfl
@[simp] theorem Mach.dropGang_surfs (m : Mach) (i : Nat) : (m.dropGang i).surfs = m.surfs := rfl
@[simp] theorem Mach.dropGang_tags (m : Mach) (i : Nat) : (m.dropGang i).tags = m.tags := rfl
@[simp] theorem Mach.dropGang_allocq (m : Mach) (i : Nat) : (m.dropGang i).allocq = m.allocq := rfl
@[simp] theorem Mach.dropGang_vfs (m : Mach) (i : Nat) : (m.dropGang i).vfs = m.vfs := rfl
@[simp] theorem Mach.dropGang_pf (m : Mach) (i : Nat) : (m.dropGang i).pf = m.pf := rfl
@[simp] theorem Mach.dropGang_tele (m : Mach) (i : Nat) : (m.dropGang i).tele = m.tele := rfl
@[simp] theorem Mach.dropGang_vias (m : Mach) (i : Nat) : (m.dropGang i).vias = m.vias := rfl
@[simp] theorem Mach.dropGang_stops (m : Mach) (i : Nat) : (m.dropGang i).stops = m.stops := rfl
@[simp] theorem Mach.dropGang_pends (m : Mach) (i : Nat) : (m.dropGang i).pends = m.pends := rfl
@[simp] theorem Mach.dropGang_lost (m : Mach) (i : Nat) : (m.dropGang i).lost = m.lost := rfl
@[simp] theorem Mach.dropGang_module (m : Mach) (i : Nat) : (m.dropGang i).module = m.module := rfl

/-! ### `Mach.setCore` -/

@[simp] theorem Mach.setCore_free (m : Mach) (a b : Nat) (c : Core) : (m.setCore a b c).free = m.free := rfl
@[simp] theorem Mach.setCore_etime (m : Mach) (a b : Nat) (c : Core) : (m.setCore a b c).etime = m.etime := rfl
@[simp] theorem Mach.setCore_dmem (m : Mach) (a b : Nat) (c : Core) : (m.setCore a b c).dmem = m.dmem := rfl
@[simp] theorem Mach.setCore_hmem (m : Mach) (a b : Nat) (c : Core) : (m.setCore a b c).hmem = m.hmem := rfl
@[simp] theorem Mach.setCore_smem (m : Mach) (a b : Nat) (c : Core) : (m.setCore a b c).smem = m.smem := rfl
@[simp] theorem Mach.setCore_tmem (m : Mach) (a b : Nat) (c : Core) : (m.setCore a b c).tmem = m.tmem := rfl
@[simp] theorem Mach.setCore_fmem (m : Mach) (a b : Nat) (c : Core) : (m.setCore a b c).fmem = m.fmem := rfl
@[simp] theorem Mach.setCore_banks (m : Mach) (a b : Nat) (c : Core) : (m.setCore a b c).banks = m.banks := rfl
@[simp] theorem Mach.setCore_towers (m : Mach) (a b : Nat) (c : Core) : (m.setCore a b c).towers = m.towers := rfl
@[simp] theorem Mach.setCore_clusters (m : Mach) (a b : Nat) (c : Core) : (m.setCore a b c).clusters = m.clusters := rfl
@[simp] theorem Mach.setCore_slices (m : Mach) (a b : Nat) (c : Core) : (m.setCore a b c).slices = m.slices := rfl
@[simp] theorem Mach.setCore_occ (m : Mach) (a b : Nat) (c : Core) : (m.setCore a b c).occ = m.occ := rfl
@[simp] theorem Mach.setCore_draws (m : Mach) (a b : Nat) (c : Core) : (m.setCore a b c).draws = m.draws := rfl
@[simp] theorem Mach.setCore_pix (m : Mach) (a b : Nat) (c : Core) : (m.setCore a b c).pix = m.pix := rfl
@[simp] theorem Mach.setCore_nextPix (m : Mach) (a b : Nat) (c : Core) : (m.setCore a b c).nextPix = m.nextPix := rfl
@[simp] theorem Mach.setCore_monitors (m : Mach) (a b : Nat) (c : Core) : (m.setCore a b c).monitors = m.monitors := rfl
@[simp] theorem Mach.setCore_tlb (m : Mach) (a b : Nat) (c : Core) : (m.setCore a b c).tlb = m.tlb := rfl
@[simp] theorem Mach.setCore_groups (m : Mach) (a b : Nat) (c : Core) : (m.setCore a b c).groups = m.groups := rfl
@[simp] theorem Mach.setCore_nextGid (m : Mach) (a b : Nat) (c : Core) : (m.setCore a b c).nextGid = m.nextGid := rfl
@[simp] theorem Mach.setCore_gangs (m : Mach) (a b : Nat) (c : Core) : (m.setCore a b c).gangs = m.gangs := rfl
@[simp] theorem Mach.setCore_nextGang (m : Mach) (a b : Nat) (c : Core) : (m.setCore a b c).nextGang = m.nextGang := rfl
@[simp] theorem Mach.setCore_cur (m : Mach) (a b : Nat) (c : Core) : (m.setCore a b c).cur = m.cur := rfl
@[simp] theorem Mach.setCore_turn (m : Mach) (a b : Nat) (c : Core) : (m.setCore a b c).turn = m.turn := rfl
@[simp] theorem Mach.setCore_surfs (m : Mach) (a b : Nat) (c : Core) : (m.setCore a b c).surfs = m.surfs := rfl
@[simp] theorem Mach.setCore_tags (m : Mach) (a b : Nat) (c : Core) : (m.setCore a b c).tags = m.tags := rfl
@[simp] theorem Mach.setCore_allocq (m : Mach) (a b : Nat) (c : Core) : (m.setCore a b c).allocq = m.allocq := rfl
@[simp] theorem Mach.setCore_vfs (m : Mach) (a b : Nat) (c : Core) : (m.setCore a b c).vfs = m.vfs := rfl
@[simp] theorem Mach.setCore_pf (m : Mach) (a b : Nat) (c : Core) : (m.setCore a b c).pf = m.pf := rfl
@[simp] theorem Mach.setCore_tele (m : Mach) (a b : Nat) (c : Core) : (m.setCore a b c).tele = m.tele := rfl
@[simp] theorem Mach.setCore_vias (m : Mach) (a b : Nat) (c : Core) : (m.setCore a b c).vias = m.vias := rfl
@[simp] theorem Mach.setCore_stops (m : Mach) (a b : Nat) (c : Core) : (m.setCore a b c).stops = m.stops := rfl
@[simp] theorem Mach.setCore_pends (m : Mach) (a b : Nat) (c : Core) : (m.setCore a b c).pends = m.pends := rfl
@[simp] theorem Mach.setCore_lost (m : Mach) (a b : Nat) (c : Core) : (m.setCore a b c).lost = m.lost := rfl
@[simp] theorem Mach.setCore_module (m : Mach) (a b : Nat) (c : Core) : (m.setCore a b c).module = m.module := rfl

/-! ### `Mach.onCore` -/

@[simp] theorem Mach.onCore_free (m : Mach) (a b : Nat) (f : Core → Core) : (m.onCore a b f).free = m.free := rfl
@[simp] theorem Mach.onCore_etime (m : Mach) (a b : Nat) (f : Core → Core) : (m.onCore a b f).etime = m.etime := rfl
@[simp] theorem Mach.onCore_dmem (m : Mach) (a b : Nat) (f : Core → Core) : (m.onCore a b f).dmem = m.dmem := rfl
@[simp] theorem Mach.onCore_hmem (m : Mach) (a b : Nat) (f : Core → Core) : (m.onCore a b f).hmem = m.hmem := rfl
@[simp] theorem Mach.onCore_smem (m : Mach) (a b : Nat) (f : Core → Core) : (m.onCore a b f).smem = m.smem := rfl
@[simp] theorem Mach.onCore_tmem (m : Mach) (a b : Nat) (f : Core → Core) : (m.onCore a b f).tmem = m.tmem := rfl
@[simp] theorem Mach.onCore_fmem (m : Mach) (a b : Nat) (f : Core → Core) : (m.onCore a b f).fmem = m.fmem := rfl
@[simp] theorem Mach.onCore_banks (m : Mach) (a b : Nat) (f : Core → Core) : (m.onCore a b f).banks = m.banks := rfl
@[simp] theorem Mach.onCore_towers (m : Mach) (a b : Nat) (f : Core → Core) : (m.onCore a b f).towers = m.towers := rfl
@[simp] theorem Mach.onCore_clusters (m : Mach) (a b : Nat) (f : Core → Core) : (m.onCore a b f).clusters = m.clusters := rfl
@[simp] theorem Mach.onCore_slices (m : Mach) (a b : Nat) (f : Core → Core) : (m.onCore a b f).slices = m.slices := rfl
@[simp] theorem Mach.onCore_occ (m : Mach) (a b : Nat) (f : Core → Core) : (m.onCore a b f).occ = m.occ := rfl
@[simp] theorem Mach.onCore_draws (m : Mach) (a b : Nat) (f : Core → Core) : (m.onCore a b f).draws = m.draws := rfl
@[simp] theorem Mach.onCore_pix (m : Mach) (a b : Nat) (f : Core → Core) : (m.onCore a b f).pix = m.pix := rfl
@[simp] theorem Mach.onCore_nextPix (m : Mach) (a b : Nat) (f : Core → Core) : (m.onCore a b f).nextPix = m.nextPix := rfl
@[simp] theorem Mach.onCore_monitors (m : Mach) (a b : Nat) (f : Core → Core) : (m.onCore a b f).monitors = m.monitors := rfl
@[simp] theorem Mach.onCore_tlb (m : Mach) (a b : Nat) (f : Core → Core) : (m.onCore a b f).tlb = m.tlb := rfl
@[simp] theorem Mach.onCore_groups (m : Mach) (a b : Nat) (f : Core → Core) : (m.onCore a b f).groups = m.groups := rfl
@[simp] theorem Mach.onCore_nextGid (m : Mach) (a b : Nat) (f : Core → Core) : (m.onCore a b f).nextGid = m.nextGid := rfl
@[simp] theorem Mach.onCore_gangs (m : Mach) (a b : Nat) (f : Core → Core) : (m.onCore a b f).gangs = m.gangs := rfl
@[simp] theorem Mach.onCore_nextGang (m : Mach) (a b : Nat) (f : Core → Core) : (m.onCore a b f).nextGang = m.nextGang := rfl
@[simp] theorem Mach.onCore_cur (m : Mach) (a b : Nat) (f : Core → Core) : (m.onCore a b f).cur = m.cur := rfl
@[simp] theorem Mach.onCore_turn (m : Mach) (a b : Nat) (f : Core → Core) : (m.onCore a b f).turn = m.turn := rfl
@[simp] theorem Mach.onCore_surfs (m : Mach) (a b : Nat) (f : Core → Core) : (m.onCore a b f).surfs = m.surfs := rfl
@[simp] theorem Mach.onCore_tags (m : Mach) (a b : Nat) (f : Core → Core) : (m.onCore a b f).tags = m.tags := rfl
@[simp] theorem Mach.onCore_allocq (m : Mach) (a b : Nat) (f : Core → Core) : (m.onCore a b f).allocq = m.allocq := rfl
@[simp] theorem Mach.onCore_vfs (m : Mach) (a b : Nat) (f : Core → Core) : (m.onCore a b f).vfs = m.vfs := rfl
@[simp] theorem Mach.onCore_pf (m : Mach) (a b : Nat) (f : Core → Core) : (m.onCore a b f).pf = m.pf := rfl
@[simp] theorem Mach.onCore_tele (m : Mach) (a b : Nat) (f : Core → Core) : (m.onCore a b f).tele = m.tele := rfl
@[simp] theorem Mach.onCore_vias (m : Mach) (a b : Nat) (f : Core → Core) : (m.onCore a b f).vias = m.vias := rfl
@[simp] theorem Mach.onCore_stops (m : Mach) (a b : Nat) (f : Core → Core) : (m.onCore a b f).stops = m.stops := rfl
@[simp] theorem Mach.onCore_pends (m : Mach) (a b : Nat) (f : Core → Core) : (m.onCore a b f).pends = m.pends := rfl
@[simp] theorem Mach.onCore_lost (m : Mach) (a b : Nat) (f : Core → Core) : (m.onCore a b f).lost = m.lost := rfl
@[simp] theorem Mach.onCore_module (m : Mach) (a b : Nat) (f : Core → Core) : (m.onCore a b f).module = m.module := rfl

/-! ### `Mach.onVf` -/

@[simp] theorem Mach.onVf_free (m : Mach) (v : Nat) (f : Vf → Vf) : (m.onVf v f).free = m.free := rfl
@[simp] theorem Mach.onVf_etime (m : Mach) (v : Nat) (f : Vf → Vf) : (m.onVf v f).etime = m.etime := rfl
@[simp] theorem Mach.onVf_dmem (m : Mach) (v : Nat) (f : Vf → Vf) : (m.onVf v f).dmem = m.dmem := rfl
@[simp] theorem Mach.onVf_hmem (m : Mach) (v : Nat) (f : Vf → Vf) : (m.onVf v f).hmem = m.hmem := rfl
@[simp] theorem Mach.onVf_smem (m : Mach) (v : Nat) (f : Vf → Vf) : (m.onVf v f).smem = m.smem := rfl
@[simp] theorem Mach.onVf_tmem (m : Mach) (v : Nat) (f : Vf → Vf) : (m.onVf v f).tmem = m.tmem := rfl
@[simp] theorem Mach.onVf_fmem (m : Mach) (v : Nat) (f : Vf → Vf) : (m.onVf v f).fmem = m.fmem := rfl
@[simp] theorem Mach.onVf_cores (m : Mach) (v : Nat) (f : Vf → Vf) : (m.onVf v f).cores = m.cores := rfl
@[simp] theorem Mach.onVf_banks (m : Mach) (v : Nat) (f : Vf → Vf) : (m.onVf v f).banks = m.banks := rfl
@[simp] theorem Mach.onVf_towers (m : Mach) (v : Nat) (f : Vf → Vf) : (m.onVf v f).towers = m.towers := rfl
@[simp] theorem Mach.onVf_clusters (m : Mach) (v : Nat) (f : Vf → Vf) : (m.onVf v f).clusters = m.clusters := rfl
@[simp] theorem Mach.onVf_slices (m : Mach) (v : Nat) (f : Vf → Vf) : (m.onVf v f).slices = m.slices := rfl
@[simp] theorem Mach.onVf_occ (m : Mach) (v : Nat) (f : Vf → Vf) : (m.onVf v f).occ = m.occ := rfl
@[simp] theorem Mach.onVf_draws (m : Mach) (v : Nat) (f : Vf → Vf) : (m.onVf v f).draws = m.draws := rfl
@[simp] theorem Mach.onVf_pix (m : Mach) (v : Nat) (f : Vf → Vf) : (m.onVf v f).pix = m.pix := rfl
@[simp] theorem Mach.onVf_nextPix (m : Mach) (v : Nat) (f : Vf → Vf) : (m.onVf v f).nextPix = m.nextPix := rfl
@[simp] theorem Mach.onVf_monitors (m : Mach) (v : Nat) (f : Vf → Vf) : (m.onVf v f).monitors = m.monitors := rfl
@[simp] theorem Mach.onVf_tlb (m : Mach) (v : Nat) (f : Vf → Vf) : (m.onVf v f).tlb = m.tlb := rfl
@[simp] theorem Mach.onVf_groups (m : Mach) (v : Nat) (f : Vf → Vf) : (m.onVf v f).groups = m.groups := rfl
@[simp] theorem Mach.onVf_nextGid (m : Mach) (v : Nat) (f : Vf → Vf) : (m.onVf v f).nextGid = m.nextGid := rfl
@[simp] theorem Mach.onVf_gangs (m : Mach) (v : Nat) (f : Vf → Vf) : (m.onVf v f).gangs = m.gangs := rfl
@[simp] theorem Mach.onVf_nextGang (m : Mach) (v : Nat) (f : Vf → Vf) : (m.onVf v f).nextGang = m.nextGang := rfl
@[simp] theorem Mach.onVf_cur (m : Mach) (v : Nat) (f : Vf → Vf) : (m.onVf v f).cur = m.cur := rfl
@[simp] theorem Mach.onVf_turn (m : Mach) (v : Nat) (f : Vf → Vf) : (m.onVf v f).turn = m.turn := rfl
@[simp] theorem Mach.onVf_surfs (m : Mach) (v : Nat) (f : Vf → Vf) : (m.onVf v f).surfs = m.surfs := rfl
@[simp] theorem Mach.onVf_tags (m : Mach) (v : Nat) (f : Vf → Vf) : (m.onVf v f).tags = m.tags := rfl
@[simp] theorem Mach.onVf_allocq (m : Mach) (v : Nat) (f : Vf → Vf) : (m.onVf v f).allocq = m.allocq := rfl
@[simp] theorem Mach.onVf_pf (m : Mach) (v : Nat) (f : Vf → Vf) : (m.onVf v f).pf = m.pf := rfl
@[simp] theorem Mach.onVf_tele (m : Mach) (v : Nat) (f : Vf → Vf) : (m.onVf v f).tele = m.tele := rfl
@[simp] theorem Mach.onVf_vias (m : Mach) (v : Nat) (f : Vf → Vf) : (m.onVf v f).vias = m.vias := rfl
@[simp] theorem Mach.onVf_stops (m : Mach) (v : Nat) (f : Vf → Vf) : (m.onVf v f).stops = m.stops := rfl
@[simp] theorem Mach.onVf_pends (m : Mach) (v : Nat) (f : Vf → Vf) : (m.onVf v f).pends = m.pends := rfl
@[simp] theorem Mach.onVf_lost (m : Mach) (v : Nat) (f : Vf → Vf) : (m.onVf v f).lost = m.lost := rfl
@[simp] theorem Mach.onVf_module (m : Mach) (v : Nat) (f : Vf → Vf) : (m.onVf v f).module = m.module := rfl

/-! ### `Mach.onCluster` -/

@[simp] theorem Mach.onCluster_free (m : Mach) (a b : Nat) (f : Cluster → Cluster) : (m.onCluster a b f).free = m.free := rfl
@[simp] theorem Mach.onCluster_etime (m : Mach) (a b : Nat) (f : Cluster → Cluster) : (m.onCluster a b f).etime = m.etime := rfl
@[simp] theorem Mach.onCluster_dmem (m : Mach) (a b : Nat) (f : Cluster → Cluster) : (m.onCluster a b f).dmem = m.dmem := rfl
@[simp] theorem Mach.onCluster_hmem (m : Mach) (a b : Nat) (f : Cluster → Cluster) : (m.onCluster a b f).hmem = m.hmem := rfl
@[simp] theorem Mach.onCluster_smem (m : Mach) (a b : Nat) (f : Cluster → Cluster) : (m.onCluster a b f).smem = m.smem := rfl
@[simp] theorem Mach.onCluster_tmem (m : Mach) (a b : Nat) (f : Cluster → Cluster) : (m.onCluster a b f).tmem = m.tmem := rfl
@[simp] theorem Mach.onCluster_fmem (m : Mach) (a b : Nat) (f : Cluster → Cluster) : (m.onCluster a b f).fmem = m.fmem := rfl
@[simp] theorem Mach.onCluster_cores (m : Mach) (a b : Nat) (f : Cluster → Cluster) : (m.onCluster a b f).cores = m.cores := rfl
@[simp] theorem Mach.onCluster_banks (m : Mach) (a b : Nat) (f : Cluster → Cluster) : (m.onCluster a b f).banks = m.banks := rfl
@[simp] theorem Mach.onCluster_towers (m : Mach) (a b : Nat) (f : Cluster → Cluster) : (m.onCluster a b f).towers = m.towers := rfl
@[simp] theorem Mach.onCluster_slices (m : Mach) (a b : Nat) (f : Cluster → Cluster) : (m.onCluster a b f).slices = m.slices := rfl
@[simp] theorem Mach.onCluster_occ (m : Mach) (a b : Nat) (f : Cluster → Cluster) : (m.onCluster a b f).occ = m.occ := rfl
@[simp] theorem Mach.onCluster_draws (m : Mach) (a b : Nat) (f : Cluster → Cluster) : (m.onCluster a b f).draws = m.draws := rfl
@[simp] theorem Mach.onCluster_pix (m : Mach) (a b : Nat) (f : Cluster → Cluster) : (m.onCluster a b f).pix = m.pix := rfl
@[simp] theorem Mach.onCluster_nextPix (m : Mach) (a b : Nat) (f : Cluster → Cluster) : (m.onCluster a b f).nextPix = m.nextPix := rfl
@[simp] theorem Mach.onCluster_monitors (m : Mach) (a b : Nat) (f : Cluster → Cluster) : (m.onCluster a b f).monitors = m.monitors := rfl
@[simp] theorem Mach.onCluster_tlb (m : Mach) (a b : Nat) (f : Cluster → Cluster) : (m.onCluster a b f).tlb = m.tlb := rfl
@[simp] theorem Mach.onCluster_groups (m : Mach) (a b : Nat) (f : Cluster → Cluster) : (m.onCluster a b f).groups = m.groups := rfl
@[simp] theorem Mach.onCluster_nextGid (m : Mach) (a b : Nat) (f : Cluster → Cluster) : (m.onCluster a b f).nextGid = m.nextGid := rfl
@[simp] theorem Mach.onCluster_gangs (m : Mach) (a b : Nat) (f : Cluster → Cluster) : (m.onCluster a b f).gangs = m.gangs := rfl
@[simp] theorem Mach.onCluster_nextGang (m : Mach) (a b : Nat) (f : Cluster → Cluster) : (m.onCluster a b f).nextGang = m.nextGang := rfl
@[simp] theorem Mach.onCluster_cur (m : Mach) (a b : Nat) (f : Cluster → Cluster) : (m.onCluster a b f).cur = m.cur := rfl
@[simp] theorem Mach.onCluster_turn (m : Mach) (a b : Nat) (f : Cluster → Cluster) : (m.onCluster a b f).turn = m.turn := rfl
@[simp] theorem Mach.onCluster_surfs (m : Mach) (a b : Nat) (f : Cluster → Cluster) : (m.onCluster a b f).surfs = m.surfs := rfl
@[simp] theorem Mach.onCluster_tags (m : Mach) (a b : Nat) (f : Cluster → Cluster) : (m.onCluster a b f).tags = m.tags := rfl
@[simp] theorem Mach.onCluster_allocq (m : Mach) (a b : Nat) (f : Cluster → Cluster) : (m.onCluster a b f).allocq = m.allocq := rfl
@[simp] theorem Mach.onCluster_vfs (m : Mach) (a b : Nat) (f : Cluster → Cluster) : (m.onCluster a b f).vfs = m.vfs := rfl
@[simp] theorem Mach.onCluster_pf (m : Mach) (a b : Nat) (f : Cluster → Cluster) : (m.onCluster a b f).pf = m.pf := rfl
@[simp] theorem Mach.onCluster_tele (m : Mach) (a b : Nat) (f : Cluster → Cluster) : (m.onCluster a b f).tele = m.tele := rfl
@[simp] theorem Mach.onCluster_vias (m : Mach) (a b : Nat) (f : Cluster → Cluster) : (m.onCluster a b f).vias = m.vias := rfl
@[simp] theorem Mach.onCluster_stops (m : Mach) (a b : Nat) (f : Cluster → Cluster) : (m.onCluster a b f).stops = m.stops := rfl
@[simp] theorem Mach.onCluster_pends (m : Mach) (a b : Nat) (f : Cluster → Cluster) : (m.onCluster a b f).pends = m.pends := rfl
@[simp] theorem Mach.onCluster_lost (m : Mach) (a b : Nat) (f : Cluster → Cluster) : (m.onCluster a b f).lost = m.lost := rfl
@[simp] theorem Mach.onCluster_module (m : Mach) (a b : Nat) (f : Cluster → Cluster) : (m.onCluster a b f).module = m.module := rfl

/-! ### `Mach.winWrite` -/

@[simp] theorem Mach.winWrite_free (m : Mach) (i o n v : Nat) : (m.winWrite i o n v).free = m.free := rfl
@[simp] theorem Mach.winWrite_etime (m : Mach) (i o n v : Nat) : (m.winWrite i o n v).etime = m.etime := rfl
@[simp] theorem Mach.winWrite_dmem (m : Mach) (i o n v : Nat) : (m.winWrite i o n v).dmem = m.dmem := rfl
@[simp] theorem Mach.winWrite_hmem (m : Mach) (i o n v : Nat) : (m.winWrite i o n v).hmem = m.hmem := rfl
@[simp] theorem Mach.winWrite_tmem (m : Mach) (i o n v : Nat) : (m.winWrite i o n v).tmem = m.tmem := rfl
@[simp] theorem Mach.winWrite_fmem (m : Mach) (i o n v : Nat) : (m.winWrite i o n v).fmem = m.fmem := rfl
@[simp] theorem Mach.winWrite_cores (m : Mach) (i o n v : Nat) : (m.winWrite i o n v).cores = m.cores := rfl
@[simp] theorem Mach.winWrite_banks (m : Mach) (i o n v : Nat) : (m.winWrite i o n v).banks = m.banks := rfl
@[simp] theorem Mach.winWrite_towers (m : Mach) (i o n v : Nat) : (m.winWrite i o n v).towers = m.towers := rfl
@[simp] theorem Mach.winWrite_clusters (m : Mach) (i o n v : Nat) : (m.winWrite i o n v).clusters = m.clusters := rfl
@[simp] theorem Mach.winWrite_slices (m : Mach) (i o n v : Nat) : (m.winWrite i o n v).slices = m.slices := rfl
@[simp] theorem Mach.winWrite_occ (m : Mach) (i o n v : Nat) : (m.winWrite i o n v).occ = m.occ := rfl
@[simp] theorem Mach.winWrite_draws (m : Mach) (i o n v : Nat) : (m.winWrite i o n v).draws = m.draws := rfl
@[simp] theorem Mach.winWrite_pix (m : Mach) (i o n v : Nat) : (m.winWrite i o n v).pix = m.pix := rfl
@[simp] theorem Mach.winWrite_nextPix (m : Mach) (i o n v : Nat) : (m.winWrite i o n v).nextPix = m.nextPix := rfl
@[simp] theorem Mach.winWrite_monitors (m : Mach) (i o n v : Nat) : (m.winWrite i o n v).monitors = m.monitors := rfl
@[simp] theorem Mach.winWrite_tlb (m : Mach) (i o n v : Nat) : (m.winWrite i o n v).tlb = m.tlb := rfl
@[simp] theorem Mach.winWrite_groups (m : Mach) (i o n v : Nat) : (m.winWrite i o n v).groups = m.groups := rfl
@[simp] theorem Mach.winWrite_nextGid (m : Mach) (i o n v : Nat) : (m.winWrite i o n v).nextGid = m.nextGid := rfl
@[simp] theorem Mach.winWrite_gangs (m : Mach) (i o n v : Nat) : (m.winWrite i o n v).gangs = m.gangs := rfl
@[simp] theorem Mach.winWrite_nextGang (m : Mach) (i o n v : Nat) : (m.winWrite i o n v).nextGang = m.nextGang := rfl
@[simp] theorem Mach.winWrite_cur (m : Mach) (i o n v : Nat) : (m.winWrite i o n v).cur = m.cur := rfl
@[simp] theorem Mach.winWrite_turn (m : Mach) (i o n v : Nat) : (m.winWrite i o n v).turn = m.turn := rfl
@[simp] theorem Mach.winWrite_surfs (m : Mach) (i o n v : Nat) : (m.winWrite i o n v).surfs = m.surfs := rfl
@[simp] theorem Mach.winWrite_tags (m : Mach) (i o n v : Nat) : (m.winWrite i o n v).tags = m.tags := rfl
@[simp] theorem Mach.winWrite_allocq (m : Mach) (i o n v : Nat) : (m.winWrite i o n v).allocq = m.allocq := rfl
@[simp] theorem Mach.winWrite_vfs (m : Mach) (i o n v : Nat) : (m.winWrite i o n v).vfs = m.vfs := rfl
@[simp] theorem Mach.winWrite_pf (m : Mach) (i o n v : Nat) : (m.winWrite i o n v).pf = m.pf := rfl
@[simp] theorem Mach.winWrite_tele (m : Mach) (i o n v : Nat) : (m.winWrite i o n v).tele = m.tele := rfl
@[simp] theorem Mach.winWrite_vias (m : Mach) (i o n v : Nat) : (m.winWrite i o n v).vias = m.vias := rfl
@[simp] theorem Mach.winWrite_stops (m : Mach) (i o n v : Nat) : (m.winWrite i o n v).stops = m.stops := rfl
@[simp] theorem Mach.winWrite_pends (m : Mach) (i o n v : Nat) : (m.winWrite i o n v).pends = m.pends := rfl
@[simp] theorem Mach.winWrite_lost (m : Mach) (i o n v : Nat) : (m.winWrite i o n v).lost = m.lost := rfl
@[simp] theorem Mach.winWrite_module (m : Mach) (i o n v : Nat) : (m.winWrite i o n v).module = m.module := rfl

/-! ### `Mach.setWin32` -/

@[simp] theorem Mach.setWin32_free (m : Mach) (i o v : Nat) : (m.setWin32 i o v).free = m.free := rfl
@[simp] theorem Mach.setWin32_etime (m : Mach) (i o v : Nat) : (m.setWin32 i o v).etime = m.etime := rfl
@[simp] theorem Mach.setWin32_dmem (m : Mach) (i o v : Nat) : (m.setWin32 i o v).dmem = m.dmem := rfl
@[simp] theorem Mach.setWin32_hmem (m : Mach) (i o v : Nat) : (m.setWin32 i o v).hmem = m.hmem := rfl
@[simp] theorem Mach.setWin32_tmem (m : Mach) (i o v : Nat) : (m.setWin32 i o v).tmem = m.tmem := rfl
@[simp] theorem Mach.setWin32_fmem (m : Mach) (i o v : Nat) : (m.setWin32 i o v).fmem = m.fmem := rfl
@[simp] theorem Mach.setWin32_cores (m : Mach) (i o v : Nat) : (m.setWin32 i o v).cores = m.cores := rfl
@[simp] theorem Mach.setWin32_banks (m : Mach) (i o v : Nat) : (m.setWin32 i o v).banks = m.banks := rfl
@[simp] theorem Mach.setWin32_towers (m : Mach) (i o v : Nat) : (m.setWin32 i o v).towers = m.towers := rfl
@[simp] theorem Mach.setWin32_clusters (m : Mach) (i o v : Nat) : (m.setWin32 i o v).clusters = m.clusters := rfl
@[simp] theorem Mach.setWin32_slices (m : Mach) (i o v : Nat) : (m.setWin32 i o v).slices = m.slices := rfl
@[simp] theorem Mach.setWin32_occ (m : Mach) (i o v : Nat) : (m.setWin32 i o v).occ = m.occ := rfl
@[simp] theorem Mach.setWin32_draws (m : Mach) (i o v : Nat) : (m.setWin32 i o v).draws = m.draws := rfl
@[simp] theorem Mach.setWin32_pix (m : Mach) (i o v : Nat) : (m.setWin32 i o v).pix = m.pix := rfl
@[simp] theorem Mach.setWin32_nextPix (m : Mach) (i o v : Nat) : (m.setWin32 i o v).nextPix = m.nextPix := rfl
@[simp] theorem Mach.setWin32_monitors (m : Mach) (i o v : Nat) : (m.setWin32 i o v).monitors = m.monitors := rfl
@[simp] theorem Mach.setWin32_tlb (m : Mach) (i o v : Nat) : (m.setWin32 i o v).tlb = m.tlb := rfl
@[simp] theorem Mach.setWin32_groups (m : Mach) (i o v : Nat) : (m.setWin32 i o v).groups = m.groups := rfl
@[simp] theorem Mach.setWin32_nextGid (m : Mach) (i o v : Nat) : (m.setWin32 i o v).nextGid = m.nextGid := rfl
@[simp] theorem Mach.setWin32_gangs (m : Mach) (i o v : Nat) : (m.setWin32 i o v).gangs = m.gangs := rfl
@[simp] theorem Mach.setWin32_nextGang (m : Mach) (i o v : Nat) : (m.setWin32 i o v).nextGang = m.nextGang := rfl
@[simp] theorem Mach.setWin32_cur (m : Mach) (i o v : Nat) : (m.setWin32 i o v).cur = m.cur := rfl
@[simp] theorem Mach.setWin32_turn (m : Mach) (i o v : Nat) : (m.setWin32 i o v).turn = m.turn := rfl
@[simp] theorem Mach.setWin32_surfs (m : Mach) (i o v : Nat) : (m.setWin32 i o v).surfs = m.surfs := rfl
@[simp] theorem Mach.setWin32_tags (m : Mach) (i o v : Nat) : (m.setWin32 i o v).tags = m.tags := rfl
@[simp] theorem Mach.setWin32_allocq (m : Mach) (i o v : Nat) : (m.setWin32 i o v).allocq = m.allocq := rfl
@[simp] theorem Mach.setWin32_vfs (m : Mach) (i o v : Nat) : (m.setWin32 i o v).vfs = m.vfs := rfl
@[simp] theorem Mach.setWin32_pf (m : Mach) (i o v : Nat) : (m.setWin32 i o v).pf = m.pf := rfl
@[simp] theorem Mach.setWin32_tele (m : Mach) (i o v : Nat) : (m.setWin32 i o v).tele = m.tele := rfl
@[simp] theorem Mach.setWin32_vias (m : Mach) (i o v : Nat) : (m.setWin32 i o v).vias = m.vias := rfl
@[simp] theorem Mach.setWin32_stops (m : Mach) (i o v : Nat) : (m.setWin32 i o v).stops = m.stops := rfl
@[simp] theorem Mach.setWin32_pends (m : Mach) (i o v : Nat) : (m.setWin32 i o v).pends = m.pends := rfl
@[simp] theorem Mach.setWin32_lost (m : Mach) (i o v : Nat) : (m.setWin32 i o v).lost = m.lost := rfl
@[simp] theorem Mach.setWin32_module (m : Mach) (i o v : Nat) : (m.setWin32 i o v).module = m.module := rfl

/-! ### `Mach.towWrite` -/

@[simp] theorem Mach.towWrite_free (m : Mach) (a b o n v : Nat) : (m.towWrite a b o n v).free = m.free := rfl
@[simp] theorem Mach.towWrite_etime (m : Mach) (a b o n v : Nat) : (m.towWrite a b o n v).etime = m.etime := rfl
@[simp] theorem Mach.towWrite_dmem (m : Mach) (a b o n v : Nat) : (m.towWrite a b o n v).dmem = m.dmem := rfl
@[simp] theorem Mach.towWrite_hmem (m : Mach) (a b o n v : Nat) : (m.towWrite a b o n v).hmem = m.hmem := rfl
@[simp] theorem Mach.towWrite_smem (m : Mach) (a b o n v : Nat) : (m.towWrite a b o n v).smem = m.smem := rfl
@[simp] theorem Mach.towWrite_fmem (m : Mach) (a b o n v : Nat) : (m.towWrite a b o n v).fmem = m.fmem := rfl
@[simp] theorem Mach.towWrite_cores (m : Mach) (a b o n v : Nat) : (m.towWrite a b o n v).cores = m.cores := rfl
@[simp] theorem Mach.towWrite_banks (m : Mach) (a b o n v : Nat) : (m.towWrite a b o n v).banks = m.banks := rfl
@[simp] theorem Mach.towWrite_towers (m : Mach) (a b o n v : Nat) : (m.towWrite a b o n v).towers = m.towers := rfl
@[simp] theorem Mach.towWrite_clusters (m : Mach) (a b o n v : Nat) : (m.towWrite a b o n v).clusters = m.clusters := rfl
@[simp] theorem Mach.towWrite_slices (m : Mach) (a b o n v : Nat) : (m.towWrite a b o n v).slices = m.slices := rfl
@[simp] theorem Mach.towWrite_occ (m : Mach) (a b o n v : Nat) : (m.towWrite a b o n v).occ = m.occ := rfl
@[simp] theorem Mach.towWrite_draws (m : Mach) (a b o n v : Nat) : (m.towWrite a b o n v).draws = m.draws := rfl
@[simp] theorem Mach.towWrite_pix (m : Mach) (a b o n v : Nat) : (m.towWrite a b o n v).pix = m.pix := rfl
@[simp] theorem Mach.towWrite_nextPix (m : Mach) (a b o n v : Nat) : (m.towWrite a b o n v).nextPix = m.nextPix := rfl
@[simp] theorem Mach.towWrite_monitors (m : Mach) (a b o n v : Nat) : (m.towWrite a b o n v).monitors = m.monitors := rfl
@[simp] theorem Mach.towWrite_tlb (m : Mach) (a b o n v : Nat) : (m.towWrite a b o n v).tlb = m.tlb := rfl
@[simp] theorem Mach.towWrite_groups (m : Mach) (a b o n v : Nat) : (m.towWrite a b o n v).groups = m.groups := rfl
@[simp] theorem Mach.towWrite_nextGid (m : Mach) (a b o n v : Nat) : (m.towWrite a b o n v).nextGid = m.nextGid := rfl
@[simp] theorem Mach.towWrite_gangs (m : Mach) (a b o n v : Nat) : (m.towWrite a b o n v).gangs = m.gangs := rfl
@[simp] theorem Mach.towWrite_nextGang (m : Mach) (a b o n v : Nat) : (m.towWrite a b o n v).nextGang = m.nextGang := rfl
@[simp] theorem Mach.towWrite_cur (m : Mach) (a b o n v : Nat) : (m.towWrite a b o n v).cur = m.cur := rfl
@[simp] theorem Mach.towWrite_turn (m : Mach) (a b o n v : Nat) : (m.towWrite a b o n v).turn = m.turn := rfl
@[simp] theorem Mach.towWrite_surfs (m : Mach) (a b o n v : Nat) : (m.towWrite a b o n v).surfs = m.surfs := rfl
@[simp] theorem Mach.towWrite_tags (m : Mach) (a b o n v : Nat) : (m.towWrite a b o n v).tags = m.tags := rfl
@[simp] theorem Mach.towWrite_allocq (m : Mach) (a b o n v : Nat) : (m.towWrite a b o n v).allocq = m.allocq := rfl
@[simp] theorem Mach.towWrite_vfs (m : Mach) (a b o n v : Nat) : (m.towWrite a b o n v).vfs = m.vfs := rfl
@[simp] theorem Mach.towWrite_pf (m : Mach) (a b o n v : Nat) : (m.towWrite a b o n v).pf = m.pf := rfl
@[simp] theorem Mach.towWrite_tele (m : Mach) (a b o n v : Nat) : (m.towWrite a b o n v).tele = m.tele := rfl
@[simp] theorem Mach.towWrite_vias (m : Mach) (a b o n v : Nat) : (m.towWrite a b o n v).vias = m.vias := rfl
@[simp] theorem Mach.towWrite_stops (m : Mach) (a b o n v : Nat) : (m.towWrite a b o n v).stops = m.stops := rfl
@[simp] theorem Mach.towWrite_pends (m : Mach) (a b o n v : Nat) : (m.towWrite a b o n v).pends = m.pends := rfl
@[simp] theorem Mach.towWrite_lost (m : Mach) (a b o n v : Nat) : (m.towWrite a b o n v).lost = m.lost := rfl
@[simp] theorem Mach.towWrite_module (m : Mach) (a b o n v : Nat) : (m.towWrite a b o n v).module = m.module := rfl

/-! ### `Mach.useUnit` -/

@[simp] theorem Mach.useUnit_free (m : Mach) (a b h : Nat) (c : Option Nat) : (m.useUnit a b h c).free = m.free := rfl
@[simp] theorem Mach.useUnit_etime (m : Mach) (a b h : Nat) (c : Option Nat) : (m.useUnit a b h c).etime = m.etime := rfl
@[simp] theorem Mach.useUnit_dmem (m : Mach) (a b h : Nat) (c : Option Nat) : (m.useUnit a b h c).dmem = m.dmem := rfl
@[simp] theorem Mach.useUnit_hmem (m : Mach) (a b h : Nat) (c : Option Nat) : (m.useUnit a b h c).hmem = m.hmem := rfl
@[simp] theorem Mach.useUnit_smem (m : Mach) (a b h : Nat) (c : Option Nat) : (m.useUnit a b h c).smem = m.smem := rfl
@[simp] theorem Mach.useUnit_tmem (m : Mach) (a b h : Nat) (c : Option Nat) : (m.useUnit a b h c).tmem = m.tmem := rfl
@[simp] theorem Mach.useUnit_fmem (m : Mach) (a b h : Nat) (c : Option Nat) : (m.useUnit a b h c).fmem = m.fmem := rfl
@[simp] theorem Mach.useUnit_banks (m : Mach) (a b h : Nat) (c : Option Nat) : (m.useUnit a b h c).banks = m.banks := rfl
@[simp] theorem Mach.useUnit_towers (m : Mach) (a b h : Nat) (c : Option Nat) : (m.useUnit a b h c).towers = m.towers := rfl
@[simp] theorem Mach.useUnit_clusters (m : Mach) (a b h : Nat) (c : Option Nat) : (m.useUnit a b h c).clusters = m.clusters := rfl
@[simp] theorem Mach.useUnit_slices (m : Mach) (a b h : Nat) (c : Option Nat) : (m.useUnit a b h c).slices = m.slices := rfl
@[simp] theorem Mach.useUnit_occ (m : Mach) (a b h : Nat) (c : Option Nat) : (m.useUnit a b h c).occ = m.occ := rfl
@[simp] theorem Mach.useUnit_draws (m : Mach) (a b h : Nat) (c : Option Nat) : (m.useUnit a b h c).draws = m.draws := rfl
@[simp] theorem Mach.useUnit_pix (m : Mach) (a b h : Nat) (c : Option Nat) : (m.useUnit a b h c).pix = m.pix := rfl
@[simp] theorem Mach.useUnit_nextPix (m : Mach) (a b h : Nat) (c : Option Nat) : (m.useUnit a b h c).nextPix = m.nextPix := rfl
@[simp] theorem Mach.useUnit_monitors (m : Mach) (a b h : Nat) (c : Option Nat) : (m.useUnit a b h c).monitors = m.monitors := rfl
@[simp] theorem Mach.useUnit_tlb (m : Mach) (a b h : Nat) (c : Option Nat) : (m.useUnit a b h c).tlb = m.tlb := rfl
@[simp] theorem Mach.useUnit_groups (m : Mach) (a b h : Nat) (c : Option Nat) : (m.useUnit a b h c).groups = m.groups := rfl
@[simp] theorem Mach.useUnit_nextGid (m : Mach) (a b h : Nat) (c : Option Nat) : (m.useUnit a b h c).nextGid = m.nextGid := rfl
@[simp] theorem Mach.useUnit_gangs (m : Mach) (a b h : Nat) (c : Option Nat) : (m.useUnit a b h c).gangs = m.gangs := rfl
@[simp] theorem Mach.useUnit_nextGang (m : Mach) (a b h : Nat) (c : Option Nat) : (m.useUnit a b h c).nextGang = m.nextGang := rfl
@[simp] theorem Mach.useUnit_cur (m : Mach) (a b h : Nat) (c : Option Nat) : (m.useUnit a b h c).cur = m.cur := rfl
@[simp] theorem Mach.useUnit_turn (m : Mach) (a b h : Nat) (c : Option Nat) : (m.useUnit a b h c).turn = m.turn := rfl
@[simp] theorem Mach.useUnit_surfs (m : Mach) (a b h : Nat) (c : Option Nat) : (m.useUnit a b h c).surfs = m.surfs := rfl
@[simp] theorem Mach.useUnit_tags (m : Mach) (a b h : Nat) (c : Option Nat) : (m.useUnit a b h c).tags = m.tags := rfl
@[simp] theorem Mach.useUnit_allocq (m : Mach) (a b h : Nat) (c : Option Nat) : (m.useUnit a b h c).allocq = m.allocq := rfl
@[simp] theorem Mach.useUnit_vfs (m : Mach) (a b h : Nat) (c : Option Nat) : (m.useUnit a b h c).vfs = m.vfs := rfl
@[simp] theorem Mach.useUnit_pf (m : Mach) (a b h : Nat) (c : Option Nat) : (m.useUnit a b h c).pf = m.pf := rfl
@[simp] theorem Mach.useUnit_tele (m : Mach) (a b h : Nat) (c : Option Nat) : (m.useUnit a b h c).tele = m.tele := rfl
@[simp] theorem Mach.useUnit_vias (m : Mach) (a b h : Nat) (c : Option Nat) : (m.useUnit a b h c).vias = m.vias := rfl
@[simp] theorem Mach.useUnit_stops (m : Mach) (a b h : Nat) (c : Option Nat) : (m.useUnit a b h c).stops = m.stops := rfl
@[simp] theorem Mach.useUnit_pends (m : Mach) (a b h : Nat) (c : Option Nat) : (m.useUnit a b h c).pends = m.pends := rfl
@[simp] theorem Mach.useUnit_lost (m : Mach) (a b h : Nat) (c : Option Nat) : (m.useUnit a b h c).lost = m.lost := rfl
@[simp] theorem Mach.useUnit_module (m : Mach) (a b h : Nat) (c : Option Nat) : (m.useUnit a b h c).module = m.module := rfl

/-! ### `Mach.queueAccs` -/

@[simp] theorem Mach.queueAccs_free (m : Mach) (g : Group) (as : List Acc) : (m.queueAccs g as).free = m.free := rfl
@[simp] theorem Mach.queueAccs_etime (m : Mach) (g : Group) (as : List Acc) : (m.queueAccs g as).etime = m.etime := rfl
@[simp] theorem Mach.queueAccs_dmem (m : Mach) (g : Group) (as : List Acc) : (m.queueAccs g as).dmem = m.dmem := rfl
@[simp] theorem Mach.queueAccs_hmem (m : Mach) (g : Group) (as : List Acc) : (m.queueAccs g as).hmem = m.hmem := rfl
@[simp] theorem Mach.queueAccs_smem (m : Mach) (g : Group) (as : List Acc) : (m.queueAccs g as).smem = m.smem := rfl
@[simp] theorem Mach.queueAccs_tmem (m : Mach) (g : Group) (as : List Acc) : (m.queueAccs g as).tmem = m.tmem := rfl
@[simp] theorem Mach.queueAccs_fmem (m : Mach) (g : Group) (as : List Acc) : (m.queueAccs g as).fmem = m.fmem := rfl
@[simp] theorem Mach.queueAccs_banks (m : Mach) (g : Group) (as : List Acc) : (m.queueAccs g as).banks = m.banks := rfl
@[simp] theorem Mach.queueAccs_towers (m : Mach) (g : Group) (as : List Acc) : (m.queueAccs g as).towers = m.towers := rfl
@[simp] theorem Mach.queueAccs_clusters (m : Mach) (g : Group) (as : List Acc) : (m.queueAccs g as).clusters = m.clusters := rfl
@[simp] theorem Mach.queueAccs_slices (m : Mach) (g : Group) (as : List Acc) : (m.queueAccs g as).slices = m.slices := rfl
@[simp] theorem Mach.queueAccs_occ (m : Mach) (g : Group) (as : List Acc) : (m.queueAccs g as).occ = m.occ := rfl
@[simp] theorem Mach.queueAccs_draws (m : Mach) (g : Group) (as : List Acc) : (m.queueAccs g as).draws = m.draws := rfl
@[simp] theorem Mach.queueAccs_pix (m : Mach) (g : Group) (as : List Acc) : (m.queueAccs g as).pix = m.pix := rfl
@[simp] theorem Mach.queueAccs_nextPix (m : Mach) (g : Group) (as : List Acc) : (m.queueAccs g as).nextPix = m.nextPix := rfl
@[simp] theorem Mach.queueAccs_monitors (m : Mach) (g : Group) (as : List Acc) : (m.queueAccs g as).monitors = m.monitors := rfl
@[simp] theorem Mach.queueAccs_tlb (m : Mach) (g : Group) (as : List Acc) : (m.queueAccs g as).tlb = m.tlb := rfl
@[simp] theorem Mach.queueAccs_groups (m : Mach) (g : Group) (as : List Acc) : (m.queueAccs g as).groups = m.groups := rfl
@[simp] theorem Mach.queueAccs_nextGid (m : Mach) (g : Group) (as : List Acc) : (m.queueAccs g as).nextGid = m.nextGid := rfl
@[simp] theorem Mach.queueAccs_gangs (m : Mach) (g : Group) (as : List Acc) : (m.queueAccs g as).gangs = m.gangs := rfl
@[simp] theorem Mach.queueAccs_nextGang (m : Mach) (g : Group) (as : List Acc) : (m.queueAccs g as).nextGang = m.nextGang := rfl
@[simp] theorem Mach.queueAccs_cur (m : Mach) (g : Group) (as : List Acc) : (m.queueAccs g as).cur = m.cur := rfl
@[simp] theorem Mach.queueAccs_turn (m : Mach) (g : Group) (as : List Acc) : (m.queueAccs g as).turn = m.turn := rfl
@[simp] theorem Mach.queueAccs_surfs (m : Mach) (g : Group) (as : List Acc) : (m.queueAccs g as).surfs = m.surfs := rfl
@[simp] theorem Mach.queueAccs_tags (m : Mach) (g : Group) (as : List Acc) : (m.queueAccs g as).tags = m.tags := rfl
@[simp] theorem Mach.queueAccs_allocq (m : Mach) (g : Group) (as : List Acc) : (m.queueAccs g as).allocq = m.allocq := rfl
@[simp] theorem Mach.queueAccs_vfs (m : Mach) (g : Group) (as : List Acc) : (m.queueAccs g as).vfs = m.vfs := rfl
@[simp] theorem Mach.queueAccs_pf (m : Mach) (g : Group) (as : List Acc) : (m.queueAccs g as).pf = m.pf := rfl
@[simp] theorem Mach.queueAccs_tele (m : Mach) (g : Group) (as : List Acc) : (m.queueAccs g as).tele = m.tele := rfl
@[simp] theorem Mach.queueAccs_vias (m : Mach) (g : Group) (as : List Acc) : (m.queueAccs g as).vias = m.vias := rfl
@[simp] theorem Mach.queueAccs_stops (m : Mach) (g : Group) (as : List Acc) : (m.queueAccs g as).stops = m.stops := rfl
@[simp] theorem Mach.queueAccs_pends (m : Mach) (g : Group) (as : List Acc) : (m.queueAccs g as).pends = m.pends := rfl
@[simp] theorem Mach.queueAccs_lost (m : Mach) (g : Group) (as : List Acc) : (m.queueAccs g as).lost = m.lost := rfl
@[simp] theorem Mach.queueAccs_module (m : Mach) (g : Group) (as : List Acc) : (m.queueAccs g as).module = m.module := rfl

end Sys2Proof.Machine
end

