-- ==== Sys2Proof/Laws/Word.lean ====
section
/-! SUPPORT. What the shared operations of a word do: lookups after updates, the passing of a cycle, the advance of a gang, the checks of a word
that pass, and the effect of a word of fixed latency. -/

namespace Sys2Proof.Machine

/-! ### Sparse maps -/

theorem SMap.get_insert {α : Type} (d : α) (m : SMap α) (k j : Nat) (v : α) :
    SMap.get d (SMap.insert m k v) j = if k = j then v else SMap.get d m j := by
  induction m with
  | nil => simp [SMap.insert, SMap.get]
  | cons x xs ih =>
    obtain ⟨k', v'⟩ := x
    simp only [SMap.insert]
    split
    · next h => subst h; simp only [SMap.get]; split <;> rfl
    · split
      · simp only [SMap.get]
      · next h _ =>
        simp only [SMap.get, ih]
        split
        · next h' => subst h'; rw [if_neg h]
        · rfl

theorem SMap.get_erase_ne {α : Type} (d : α) (m : SMap α) {k j : Nat} (h : k ≠ j) : SMap.get d (SMap.erase m k) j = SMap.get d m j := by
  induction m with
  | nil => rfl
  | cons x xs ih =>
    obtain ⟨k', v'⟩ := x
    simp only [SMap.erase]
    split
    · next h' => subst h'; simp [SMap.get, h, ih]
    · simp only [SMap.get, ih]

/-- A write to another key leaves a value as it was. -/
theorem SMap.get_set_ne {α : Type} [DecidableEq α] (d : α) (m : SMap α) {k j : Nat} (v : α) (h : k ≠ j) :
    SMap.get d (SMap.set d m k v) j = SMap.get d m j := by
  simp only [SMap.set]
  split
  · exact SMap.get_erase_ne d m h
  · rw [SMap.get_insert, if_neg h]

/-! ### Lookups after updates -/

theorem find_map {α : Type} (l : List α) (p : α → Bool) (f : α → α) (h : ∀ x, p (f x) = p x) :
    (l.map f).find? p = (l.find? p).map f := by
  induction l with
  | nil => rfl
  | cons x xs ih =>
    simp only [List.map_cons, List.find?_cons, h, ih]
    cases p x <;> rfl

theorem find_congr {α : Type} (l : List α) (p : α → Bool) (f : α → α) (h : ∀ x, p (f x) = p x) (h' : ∀ x, p x = true → f x = x) :
    (l.map f).find? p = l.find? p := by
  rw [find_map l p f h]
  cases e : l.find? p with
  | none => rfl
  | some x => simp [h' x (List.find?_some e)]

/-- The current group changes as told and the others not at all. -/
theorem Mach.group?_onGroup (m : Mach) (i j : Nat) (f : Group → Group) (h : ∀ g, (f g).gid = g.gid) :
    (m.onGroup i f).group? j = if j = i then (m.group? j).map f else m.group? j := by
  simp only [Mach.group?, Mach.onGroup]
  split
  · next e =>
    subst e
    rw [find_map]
    · cases hx : m.groups.find? fun g => g.gid == j with
      | none => rfl
      | some x =>
        have := List.find?_some hx
        simp_all
    · intro x; split <;> simp [h]
  · next e =>
    refine find_congr _ _ _ ?_ ?_
    · intro x; split <;> simp [h]
    · intro x hx
      have : x.gid = j := by simpa using hx
      simp [this, e]

theorem Mach.gang?_onGang (m : Mach) (i j : Nat) (f : Gang → Gang) (h : ∀ g, (f g).id = g.id) :
    (m.onGang i f).gang? j = if j = i then (m.gang? j).map f else m.gang? j := by
  simp only [Mach.gang?, Mach.onGang]
  split
  · next e =>
    subst e
    rw [find_map]
    · cases hx : m.gangs.find? fun g => g.id == j with
      | none => rfl
      | some x =>
        have := List.find?_some hx
        simp_all
    · intro x; split <;> simp [h]
  · next e =>
    refine find_congr _ _ _ ?_ ?_
    · intro x; split <;> simp [h]
    · intro x hx
      have : x.id = j := by simpa using hx
      simp [this, e]

theorem Mach.group?_gid {m : Mach} {i : Nat} {g : Group} (h : m.group? i = some g) : g.gid = i := by
  simpa using List.find?_some h

theorem Mach.gang?_id {m : Mach} {i : Nat} {k : Gang} (h : m.gang? i = some k) : k.id = i := by
  simpa using List.find?_some h

theorem Group.thread?_tid {g : Group} {i : Nat} {x : Thread} (h : g.thread? i = some x) : x.tid = i := by
  simpa using List.find?_some h

/-! ### What stays outside groups, gangs and cores -/

theorem Mach.SameRest.refl (m : Mach) : m.SameRest m := rfl

theorem Mach.SameRest.trans {a b c : Mach} (h : a.SameRest b) (h' : b.SameRest c) : a.SameRest c := by
  unfold Mach.SameRest at *
  rw [h', h]

theorem Mach.SameRest.onGroup (m : Mach) (i : Nat) (f : Group → Group) : m.SameRest (m.onGroup i f) := rfl
theorem Mach.SameRest.onGang (m : Mach) (i : Nat) (f : Gang → Gang) : m.SameRest (m.onGang i f) := rfl
theorem Mach.SameRest.setCore (m : Mach) (a b : Nat) (c : Core) : m.SameRest (m.setCore a b c) := rfl
theorem Mach.SameRest.mapLanes (m : Mach) (i : Nat) (ls : List LaneIn) (f : LaneIn → Thread → Thread) : m.SameRest (m.mapLanes i ls f) := rfl
theorem Mach.SameRest.useUnit (m : Mach) (a b h : Nat) (c : Option Nat) : m.SameRest (m.useUnit a b h c) := rfl

/-! ### The current gang -/

theorem curGang_spec {m : Mach} {k : Gang} {g : Group} (h : m.curGang = some (k, g)) :
    m.cur = some k.id ∧ m.gang? k.id = some k ∧ m.group? k.gid = some g ∧ g.gid = k.gid := by
  unfold Mach.curGang at h
  cases hc : m.cur with
  | none => simp [hc] at h
  | some id =>
    simp only [hc, Option.bind_some] at h
    cases hg : m.gang? id with
    | none => simp [hg] at h
    | some k' =>
      simp only [hg, Option.map_eq_some_iff, Prod.mk.injEq] at h
      obtain ⟨g', h1, h2, h3⟩ := h
      subst h2; subst h3
      have hi := Mach.gang?_id hg
      subst hi
      exact ⟨rfl, hg, h1, Mach.group?_gid h1⟩

/-- A lane of a gang that is active is a thread of its group. -/
theorem activeLanes_mem {k : Gang} {g : Group} {x : Thread} (h : x ∈ activeLanes k g) : x.tid ∈ k.lanes ∧ g.thread? x.tid = some x := by
  simp only [activeLanes, List.mem_filterMap] at h
  obtain ⟨l, hl, h⟩ := h
  cases e : g.thread? l with
  | none => simp [e] at h
  | some t =>
    simp only [e] at h
    split at h
    · simp at h
    · simp only [Option.some.injEq] at h
      subst h
      have := Group.thread?_tid e
      subst this
      exact ⟨hl, e⟩

/-! ### The passing of cycles -/

theorem activeLanes_thread {k : Gang} {g : Group} {x : Thread} (h : x ∈ activeLanes k g) : x ∈ g.threads :=
  List.mem_of_find?_eq_some (activeLanes_mem h).2

theorem SMap.get_set_of_ne {α : Type} [DecidableEq α] (d : α) (m : SMap α) (k j : Nat) (v : α) (h : v ≠ d) :
    SMap.get d (SMap.set d m k v) j = if k = j then v else SMap.get d m j := by
  rw [SMap.set, if_neg h, SMap.get_insert]

/-- A core that is put into the map is found there, unless it is as at reset. -/
theorem Mach.core_setCore (m : Mach) (a b : Nat) (x : Core) (h : x ≠ {}) (a' b' : Nat) :
    (m.setCore a b x).core a' b' = if a * 48 + b = a' * 48 + b' then x else m.core a' b' := SMap.get_set_of_ne _ _ _ _ _ h

/-- An issue moves the record of the issue units only. -/
theorem Mach.useUnit_core (m : Mach) (col c h : Nat) (cls : Option Nat) (col' c' : Nat) :
    ((m.useUnit col c h cls).core col' c').unclocked = (m.core col' c').unclocked := by
  rw [Mach.useUnit, Mach.onCore, Mach.core_setCore]
  · split
    · next e => simp only [Mach.core, ← e, Core.useUnit]; split <;> rfl
    · rfl
  · intro e
    unfold Core.useUnit at e
    split at e
    · have := congrArg Core.free0 e
      simp at this
    · have := congrArg Core.free1 e
      simp at this

theorem Mach.useUnit_group? (m : Mach) (col c h : Nat) (cls : Option Nat) (i : Nat) : (m.useUnit col c h cls).group? i = m.group? i := rfl
theorem Mach.useUnit_gang? (m : Mach) (col c h : Nat) (cls : Option Nat) (i : Nat) : (m.useUnit col c h cls).gang? i = m.gang? i := rfl

/-- Every thread of a group stays as it was but for its issue round. -/
def Group.reissue (f : Thread → Thread) (g : Group) : Group := { g with threads := g.threads.map f }

/-- An update that changes no group changes nothing. -/
theorem Mach.onGroup_same (m : Mach) (i : Nat) (f : Group → Group) (h : ∀ g, f g = g) : m.onGroup i f = m := by
  have e : (m.groups.map fun g => if g.gid == i then f g else g) = m.groups := by simp [h]
  show ({ m with groups := m.groups.map fun g => if g.gid == i then f g else g } : Mach) = m
  rw [e]

/-- A step that only issue units notice. -/
structure UnitStep (U : Mach → Mach) : Prop where
  group : ∀ m i, (U m).group? i = m.group? i
  gang : ∀ m i, (U m).gang? i = m.gang? i
  rest : ∀ m : Mach, m.SameRest (U m)
  core : ∀ (m : Mach) a b, ((U m).core a b).unclocked = (m.core a b).unclocked

theorem unitStep_id : UnitStep id := ⟨fun _ _ => rfl, fun _ _ => rfl, fun _ => rfl, fun _ _ _ => rfl⟩

theorem unitStep_use (a b h : Nat) (c : Option Nat) : UnitStep fun m => m.useUnit a b h c :=
  ⟨fun _ _ => rfl, fun _ _ => rfl, fun _ => rfl, fun _ _ _ => Mach.useUnit_core _ _ _ _ _ _ _⟩

/-- The advance of a gang: the gang at its next word, the issue round of its lanes, the issue unit; but for a word that issued before (R92), whose issue
was counted then. -/
theorem Mach.advance_eq (m : Mach) (k : Gang) (n cls : Nat) {g : Group} (h : m.group? k.gid = some g) :
    ∃ f U, (∀ x, f x = { x with lastIssue := (f x : Thread).lastIssue }) ∧ UnitStep U
      ∧ m.advance k n cls = U ((m.onGang k.id fun x => ({ x with slot := k.slot } : Gang).next n).onGroup k.gid (Group.reissue f)) := by
  simp only [Mach.advance, h]
  cases ho : k.out with
  | true =>
    refine ⟨id, id, fun _ => rfl, unitStep_id, ?_⟩
    rw [Mach.onGroup_same _ _ (Group.reissue id) fun g => by simp [Group.reissue]]
    rfl
  | false =>
    refine ⟨fun t => if k.lanes.contains t.tid then { t with lastIssue := _ } else t, _, fun x => ?_, unitStep_use _ _ _ _, rfl⟩
    dsimp only
    split <;> rfl

/-! ### Writes of fixed latency -/

theorem Ctx.apply_due (c : Ctx) (w : PWrite) (d : Nat) : c.apply { w with due := d } = c.apply w := by
  cases w; simp [Ctx.apply]

/-- Landing does not read the list of writes. -/
theorem Ctx.apply_pend (c : Ctx) (w : PWrite) (p : List PWrite) : ({ c with pend := p } : Ctx).apply w = { c.apply w with pend := p } := by
  unfold Ctx.apply
  split <;> try rfl
  split <;> rfl

theorem Ctx.apply_fpstat (c : Ctx) (w : PWrite) (b : BitVec 5) : ({ c with fpstat := b } : Ctx).apply w = { c.apply w with fpstat := b } := by
  unfold Ctx.apply
  split <;> try rfl
  split <;> rfl

theorem Ctx.apply_latch (c : Ctx) (w : PWrite) (b : Latch) : ({ c with latch := b } : Ctx).apply w = { c.apply w with latch := b } := by
  unfold Ctx.apply
  split <;> try rfl
  split <;> rfl

theorem Ctx.apply_keeps_fpstat (c : Ctx) (w : PWrite) : (c.apply w).fpstat = c.fpstat := by
  unfold Ctx.apply
  split <;> try rfl
  split <;> rfl

theorem Ctx.apply_keeps_latch (c : Ctx) (w : PWrite) : (c.apply w).latch = c.latch := by
  unfold Ctx.apply
  split <;> try rfl
  split <;> rfl

theorem foldl_apply_fpstat (ws : List PWrite) (c : Ctx) (b : BitVec 5) :
    ws.foldl Ctx.apply { c with fpstat := b } = { ws.foldl Ctx.apply c with fpstat := b } := by
  induction ws generalizing c with
  | nil => rfl
  | cons w ws ih => rw [List.foldl_cons, List.foldl_cons, Ctx.apply_fpstat, ih]

theorem foldl_apply_latch (ws : List PWrite) (c : Ctx) (b : Latch) :
    ws.foldl Ctx.apply { c with latch := b } = { ws.foldl Ctx.apply c with latch := b } := by
  induction ws generalizing c with
  | nil => rfl
  | cons w ws ih => rw [List.foldl_cons, List.foldl_cons, Ctx.apply_latch, ih]

theorem foldl_apply_pend (ws : List PWrite) (c : Ctx) (p : List PWrite) :
    ws.foldl Ctx.apply { c with pend := p } = { ws.foldl Ctx.apply c with pend := p } := by
  induction ws generalizing c with
  | nil => rfl
  | cons w ws ih => rw [List.foldl_cons, List.foldl_cons, Ctx.apply_pend, ih]

theorem Ctx.landAll_pend (c : Ctx) : c.landAll.pend = [] := by
  unfold Ctx.landAll
  rw [foldl_apply_pend]

theorem Ctx.landAll_fpstat (c : Ctx) (b : BitVec 5) : ({ c with fpstat := b } : Ctx).landAll = { c.landAll with fpstat := b } := by
  simp only [Ctx.landAll]
  exact foldl_apply_fpstat c.pend { c with pend := [] } b

theorem Ctx.landAll_latch (c : Ctx) (b : Latch) : ({ c with latch := b } : Ctx).landAll = { c.landAll with latch := b } := by
  simp only [Ctx.landAll]
  exact foldl_apply_latch c.pend { c with pend := [] } b

theorem foldl_apply_keeps_fpstat (ws : List PWrite) (c : Ctx) : (ws.foldl Ctx.apply c).fpstat = c.fpstat := by
  induction ws generalizing c with
  | nil => rfl
  | cons w ws ih => rw [List.foldl_cons, ih, Ctx.apply_keeps_fpstat]

theorem foldl_apply_keeps_latch (ws : List PWrite) (c : Ctx) : (ws.foldl Ctx.apply c).latch = c.latch := by
  induction ws generalizing c with
  | nil => rfl
  | cons w ws ih => rw [List.foldl_cons, ih, Ctx.apply_keeps_latch]

theorem Ctx.landAll_keeps_fpstat (c : Ctx) : c.landAll.fpstat = c.fpstat := foldl_apply_keeps_fpstat c.pend { c with pend := [] }
theorem Ctx.landAll_keeps_latch (c : Ctx) : c.landAll.latch = c.latch := foldl_apply_keeps_latch c.pend { c with pend := [] }

/-- Writes appended to those in flight land after them, whatever the cycle in which they are due (R76). -/
theorem landAll_push (ws : List (Tgt × Word × Word)) (due : Nat) (c : Ctx) :
    ({ c with pend := ws.foldl (fun p w => pushWrite p { tgt := w.1, mask := w.2.1, val := w.2.2, due := due }) c.pend } : Ctx).landAll
      = c.landAll.settle ws := by
  induction ws generalizing c with
  | nil => rfl
  | cons w ws ih =>
    have := ih ({ c with pend := pushWrite c.pend { tgt := w.1, mask := w.2.1, val := w.2.2, due := due } } : Ctx)
    simp only [List.foldl_cons]
    refine Eq.trans this ?_
    simp only [Ctx.settle, List.foldl_cons]
    congr 1
    simp only [Ctx.landAll, pushWrite, List.foldl_append, List.foldl_cons, List.foldl_nil]
    rfl

theorem Ctx.settle_fpstat (ws : List (Tgt × Word × Word)) (c : Ctx) : (c.settle ws).fpstat = c.fpstat := by
  unfold Ctx.settle
  induction ws generalizing c with
  | nil => rfl
  | cons w ws ih => rw [List.foldl_cons, ih, Ctx.apply_keeps_fpstat]

theorem Ctx.settle_latch (ws : List (Tgt × Word × Word)) (c : Ctx) : (c.settle ws).latch = c.latch := by
  unfold Ctx.settle
  induction ws generalizing c with
  | nil => rfl
  | cons w ws ih => rw [List.foldl_cons, ih, Ctx.apply_keeps_latch]

/-! ### The checks of a word -/

/-- The form of a word. -/
def Desc.form (d : Desc) : Form := { c := d.c, q := d.q, acc := d.acc, h := d.h, srcs := d.srcs, dst := d.dst, always := d.always }

theorem Desc.illegal_form {d : Desc} (hi : d.ill = false) (h : d.form.legal = true) : d.illegal = false := by
  simp only [Form.legal, Desc.form, Bool.and_eq_true, Bool.not_eq_true'] at h
  obtain ⟨⟨⟨⟨⟨h1, h2⟩, h3⟩, h4⟩, h5⟩, h6⟩ := h
  simp only [Desc.illegal, hi, h1, h2, h3, h4, h5, h6, Bool.or_self]

theorem Desc.illchain_form {d : Desc} {slot : Nat} (hm : d.more = 0) (h : d.form.chainOk slot = true) : d.illchain slot = false := by
  simp only [Form.chainOk, Desc.form] at h
  simp only [Desc.illchain, Desc.chained, Desc.words, hm]
  cases hq : d.q with
  | none =>
    simp only [hq, Bool.not_and, Bool.or_eq_true, Bool.not_eq_true'] at h
    rcases h with h | h <;> simp [h]
  | some q =>
    simp only [hq, Bool.not_and, Bool.and_eq_true, Bool.or_eq_true, Bool.not_eq_true'] at h
    obtain ⟨h1, h | h⟩ := h <;> simp [h1, h]

/-- The operand phase of a word with no check of its own. -/
theorem Desc.opr_ready {d : Desc} {s : State} {k : Gang} {g : Group} {vs : Thread → List Nat} (hr : d.form.Ready s k g vs)
    {x : Thread} (hx : x ∈ activeLanes k g) {us : List Nat} (hc : d.chk s.m k g (d.laneIn (issueCycle s.m k g) x (vs x)) = .ok us) :
    d.opr s.m k g (issueCycle s.m k g) x = .ok us := by
  have h1 := hr.reads x hx
  simp only [Desc.form] at h1
  simp only [Desc.opr, h1, hc]
  cases hd : d.dst with
  | none => rfl
  | some e =>
    have h2 := hr.below e (by simp [Desc.form, hd])
    have : chkDst g.acquired e = none := by
      simp only [chkDst, List.find?_eq_none, decide_eq_true_eq, Nat.not_le]
      exact h2
    simp [this]

/-- The checks of R83 pass: every active lane takes the word, and none traps. -/
theorem Desc.verdict_go {d : Desc} {s : State} {k : Gang} {g : Group} {vs us : Thread → List Nat} (hr : d.form.Ready s k g vs)
    (hi : d.ill = false) (hm : d.more = 0)
    (hc : ∀ x ∈ activeLanes k g, d.chk s.m k g (d.laneIn (issueCycle s.m k g) x (vs x)) = .ok (us x))
    (hy : ∀ x ∈ activeLanes k g, d.form.on s k g x = true → ∀ n ∈ d.dyn g (d.laneIn (issueCycle s.m k g) x (us x)), x.c.notFull.getLsbD n = false)
    (hb : ∀ x ∈ activeLanes k g, d.form.on s k g x = true → d.busy s.cfg s.m k g (d.laneIn (issueCycle s.m k g) x (us x)) = false)
    (ho : d.opx s.cfg s.m k g = none)
    (he : ∀ x ∈ activeLanes k g, d.form.on s k g x = true → d.exe s.cfg s.m k g (d.laneIn (issueCycle s.m k g) x (us x)) = none) :
    d.verdict s.cfg s.m k g = .go ((activeLanes k g).map fun x => d.laneIn (issueCycle s.m k g) x (us x)) [] := by
  have hopr : ∀ x ∈ activeLanes k g, d.opr s.m k g (issueCycle s.m k g) x = .ok (us x) := fun x hx => Desc.opr_ready hr hx (hc x hx)
  have hon : ∀ x, (d.laneIn (issueCycle s.m k g) x (us x)).on = d.form.on s k g x := fun x => rfl
  have hstop : (activeLanes k g).filter (d.stopsIn s.cfg s.m k g (issueCycle s.m k g) false) = [] := by
    simp only [List.filter_eq_nil_iff]
    intro x hx
    simp [Desc.stopsIn, hr.plain x (activeLanes_thread hx) (List.mem_map_of_mem hx)]
  have htr : (activeLanes k g).filterMap (fun t => (d.opr s.m k g (issueCycle s.m k g) t).trap?.map fun (x : Cause × Nat) => (t.tid, x.1, x.2)) = [] := by
    simp only [List.filterMap_eq_nil_iff]
    intro x hx
    simp [hopr x hx, Opr.trap?]
  have hls : (activeLanes k g).filterMap (fun t => (d.opr s.m k g (issueCycle s.m k g) t).vals?.map (d.laneIn (issueCycle s.m k g) t))
      = (activeLanes k g).map fun x => d.laneIn (issueCycle s.m k g) x (us x) := by
    rw [← List.filterMap_eq_map]
    refine List.filterMap_congr fun x hx => ?_
    simp [hopr x hx, Opr.vals?]
  have hempty : ((activeLanes k g).map fun x => d.laneIn (issueCycle s.m k g) x (us x)).any (fun l => l.on &&
      (d.writes g l).any fun n => l.t.c.notFull.getLsbD n) = false := by
    simp only [List.any_map, List.any_eq_false, Function.comp, Bool.and_eq_true, List.any_eq_true, not_and, not_exists, Bool.not_eq_true]
    intro x hx h1 n hn
    have hw : n ∈ ((d.dst.map Dst.regs).getD []) ∨ n ∈ d.dyn g (d.laneIn (issueCycle s.m k g) x (us x)) := by
      simpa [Desc.writes] using hn
    rcases hw with hw | hw
    · cases hd : d.dst with
      | none => simp [hd] at hw
      | some e => exact hr.full x hx h1 e (by simp [Desc.form, hd]) n (by simpa [hd] using hw)
    · exact hy x hx h1 n hw
  have hbusy : ((activeLanes k g).map fun x => d.laneIn (issueCycle s.m k g) x (us x)).any (fun l => l.on && d.busy s.cfg s.m k g l) = false := by
    simp only [List.any_map, List.any_eq_false, Function.comp, Bool.and_eq_true, not_and, Bool.not_eq_true]
    exact fun x hx h1 => hb x hx h1
  have hexe : ((activeLanes k g).map fun x => d.laneIn (issueCycle s.m k g) x (us x)).filterMap (fun l => if l.on then
      (d.exe s.cfg s.m k g l).map fun x => (l.t.tid, x.1, x.2) else none) = [] := by
    simp only [List.filterMap_map, List.filterMap_eq_nil_iff, Function.comp]
    intro x hx
    split
    · next h => rw [he x hx h]; rfl
    · rfl
  have hne : (activeLanes k g).isEmpty = false := by
    cases h : activeLanes k g with
    | nil => exact absurd h hr.some
    | cons => rfl
  have hil := Desc.illegal_form hi hr.legal
  have hch := Desc.illchain_form hm hr.chain
  simp only [Desc.verdict, hne, hstop, hch, hil, htr, hls, hempty, hbusy, ho, hexe, List.isEmpty_nil, Bool.not_true, Bool.or_self,
    List.length_map, ne_eq, not_true_eq_false, decide_false, Bool.false_eq_true, if_false]

/-- A word whose checks pass takes its effect, and the gang goes on (R83). -/
theorem runWord_go {d : Desc} {cfg : Cfg} {m : Mach} {k : Gang} {g : Group} {ls : List LaneIn} (hc : m.curGang = some (k, g)) (hs : k.mode = .solo)
    (hv : d.verdict cfg m k g = .go ls []) :
    runWord d cfg m = if (d.perform cfg m k g ls).2 then (d.perform cfg m k g ls).1.advance k d.words d.cls
      else (d.perform cfg m k g ls).1.holdWord k g d.cls := by
  simp [runWord, hc, hs, hv]

/-! ### The effect of a word of fixed latency -/

/-- The lane of a thread among those that take a word. -/
theorem find_lane (ys : List Thread) (F : Thread → LaneIn) (P : LaneIn → Bool) (x : Thread) (hF : ∀ y, (F y).t = y)
    (hu : ∀ y ∈ ys, y.tid = x.tid → y = x) :
    ((ys.map F).filter P).find? (fun (l : LaneIn) => l.t.tid == x.tid) = if x ∈ ys ∧ P (F x) = true then some (F x) else none := by
  induction ys with
  | nil => simp
  | cons y ys ih =>
    have ih := ih fun z hz => hu z (List.mem_cons_of_mem _ hz)
    by_cases hy : y = x
    · subst hy
      cases hp : P (F y) with
      | true => simp [hp, hF]
      | false =>
        simp only [List.map_cons, List.filter_cons, hp, Bool.false_eq_true, if_false, ih, and_false]
    · have ht : y.tid ≠ x.tid := fun h => hy (hu y List.mem_cons_self h)
      have hx : (x ∈ y :: ys) ↔ x ∈ ys := by simp [Ne.symm hy]
      simp only [List.map_cons, List.filter_cons, hx]
      split
      · simp only [List.find?_cons, hF, beq_eq_false_iff_ne.2 ht]
        exact ih
      · exact ih

/-- Threads of active lanes are told apart by their numbers. -/
theorem activeLanes_unique {k : Gang} {g : Group} {x : Thread} (h : g.thread? x.tid = some x) : ∀ y ∈ activeLanes k g, y.tid = x.tid → y = x := by
  intro y hy e
  have := (activeLanes_mem hy).2
  rw [e, h] at this
  exact (Option.some.inj this).symm

/-- A function over the lanes that keeps thread numbers. -/
theorem mapLanes_group? (m : Mach) (i : Nat) (ls : List LaneIn) (f : LaneIn → Thread → Thread) {g : Group} (h : m.group? i = some g) :
    (m.mapLanes i ls f).group? i = some { g with threads := g.threads.map fun t => match ls.find? (fun (l : LaneIn) => l.t.tid == t.tid) with
      | some l => f l t
      | none => t } := by
  rw [Mach.mapLanes, Mach.group?_onGroup m i i (fun g => g.mapLanes ls f) fun _ => rfl, if_pos rfl, h]
  rfl

theorem mapLanes_group?_ne (m : Mach) (i j : Nat) (ls : List LaneIn) (f : LaneIn → Thread → Thread) (h : j ≠ i) :
    (m.mapLanes i ls f).group? j = m.group? j := by
  rw [Mach.mapLanes, Mach.group?_onGroup m i j (fun g => g.mapLanes ls f) fun _ => rfl, if_neg h]

/-- The thread of a group whose threads change by a function of themselves. -/
theorem thread?_of (g g' : Group) (f : Thread → Thread) (i : Nat) (h : ∀ x, (f x).tid = x.tid) (e : g'.threads = g.threads.map f) :
    g'.thread? i = (g.thread? i).map f := by
  unfold Group.thread?
  rw [e]
  exact find_map _ _ _ fun x => by simp [h]

/-- A lane takes writes and flags. -/
def Thread.takeRes (due : Nat) (r : List (Tgt × Word × Word) × BitVec 5) (t : Thread) : Thread :=
  let t := t.push due r.1
  { t with c := { t.c with fpstat := t.c.fpstat ||| r.2 } }

/-- Landing after writes and flags have been taken. -/
theorem takeRes_landAll (due : Nat) (r : List (Tgt × Word × Word) × BitVec 5) (t : Thread) :
    (t.takeRes due r).c.landAll = { t.c.landAll.settle r.1 with fpstat := t.c.landAll.fpstat ||| r.2 } := by
  have h := Ctx.landAll_fpstat (t.push due r.1).c (t.c.fpstat ||| r.2)
  rw [show (t.push due r.1).c.landAll = t.c.landAll.settle r.1 from landAll_push r.1 due t.c] at h
  rw [Ctx.landAll_keeps_fpstat]
  exact h

/-- What a word holds in the latch. -/
def Desc.held (d : Desc) (vs : List Nat) : Option Nat := if d.h then vs[0]? else if hbOf d.q then vs[1]? else none

theorem latchAfter_form (d : Desc) (k : Gang) (vs : List Nat) (l : Latch) : d.form.latchAfter k vs l =
    ((d.held vs).map fun v => l.put (k.slot % 3) { slot := k.slot, val := BitVec.ofNat 32 v }).getD l := by
  show (match d.held vs with | some v => _ | none => _) = _
  cases d.held vs <;> rfl

theorem mark_plain (d : Desc) (k : Gang) (g : Group) (l : LaneIn) (t : Thread) (h : t.epi = none) :
    d.mark k g l t = { t with c := { t.c with latch := d.form.latchAfter k l.vs t.c.latch } } := by
  rw [latchAfter_form]
  simp only [Desc.mark, Desc.held]
  cases (if d.h = true then l.vs[0]? else if hbOf d.q = true then l.vs[1]? else none) with
  | none =>
    dsimp only
    split
    · next e he => simp [h] at he
    · rfl
  | some v => simp [h]

/-- A word of fixed latency, whose checks pass, leaves what `LaneDone` says (R75 to R78). -/
theorem lane_done {d : Desc} {s : State} {k : Gang} {g : Group} {vs us : Thread → List Nat} {lat : Nat}
    {F : LaneIn → List (Tgt × Word × Word) × BitVec 5} (hr : d.form.Ready s k g vs)
    (hv : d.verdict s.cfg s.m k g = .go ((activeLanes k g).map fun x => d.laneIn (issueCycle s.m k g) x (us x)) [])
    (ha : d.act s.cfg s.m k g ((activeLanes k g).map fun x => d.laneIn (issueCycle s.m k g) x (us x))
      = laneAct lat F s.m k g ((activeLanes k g).map fun x => d.laneIn (issueCycle s.m k g) x (us x))) :
    ∃ t, word d s = .next t ∧ LaneDone s t k g d.words
      (d.form.after s k g us fun x => F (d.laneIn (issueCycle s.m k g) x (us x))) := by
  obtain ⟨hcur, hgang, hgroup, hgid⟩ := curGang_spec hr.cur
  set now := issueCycle s.m k g with hnow
  set ls := (activeLanes k g).map fun x => d.laneIn now x (us x) with hls
  refine ⟨_, rfl, ?_⟩
  simp only [runWord_go hr.cur hr.solo hv]
  have hact : d.act s.cfg s.m k g ls = (s.m.mapLanes k.gid (ons ls) fun l t => t.takeRes (lastCycle s.m k g + lat) (F l), []) := by
    rw [ha]; rfl
  have hsame : (s.m.mapLanes k.gid (ons ls) fun l t => t.takeRes (lastCycle s.m k g + lat) (F l)).gang? k.id = some k := hgang
  have hleft : (ls.filter fun l => k.lanes.contains l.t.tid) = ls := by
    refine List.filter_eq_self.2 fun l hl => ?_
    obtain ⟨x, hx, rfl⟩ := List.mem_map.1 hl
    simpa [Desc.laneIn] using (activeLanes_mem hx).1
  have hperf : d.perform s.cfg s.m k g ls =
      ((s.m.mapLanes k.gid (ons ls) fun l t => t.takeRes (lastCycle s.m k g + lat) (F l)).mapLanes k.gid ls (d.mark k g), true) := by
    simp only [Desc.perform, hact, List.isEmpty_nil, if_true, hsame, hleft]
  simp only [hperf, if_true]
  set m1 := (s.m.mapLanes k.gid (ons ls) fun l t => t.takeRes (lastCycle s.m k g + lat) (F l)).mapLanes k.gid ls (d.mark k g) with hm1
  have hg1 := mapLanes_group? s.m k.gid (ons ls) (fun l t => t.takeRes (lastCycle s.m k g + lat) (F l)) hgroup
  have hg2 := mapLanes_group? _ k.gid ls (d.mark k g) hg1
  obtain ⟨f3, U, hf3x, hU, hadv⟩ := Mach.advance_eq m1 k d.words d.cls hg2
  rw [hadv]
  set X : Gang → Gang := fun x => ({ x with slot := k.slot } : Gang).next d.words with hX
  set Y : Group → Group := Group.reissue f3 with hY
  have hgrp : ∀ i, ((m1.onGang k.id X).onGroup k.gid Y).group? i = if i = k.gid then (m1.group? i).map Y else s.m.group? i := by
    intro i
    rw [Mach.group?_onGroup _ _ i Y fun _ => rfl]
    split
    · rfl
    · next e =>
      have : (m1.onGang k.id X).group? i = m1.group? i := rfl
      rw [this, hm1, mapLanes_group?_ne _ _ _ _ _ e, mapLanes_group?_ne _ _ _ _ _ e]
  have hgng : ∀ i, ((m1.onGang k.id X).onGroup k.gid Y).gang? i = if i = k.id then (s.m.gang? i).map X else s.m.gang? i := by
    intro i
    have : ((m1.onGang k.id X).onGroup k.gid Y).gang? i = (m1.onGang k.id X).gang? i := rfl
    rw [this, Mach.gang?_onGang _ _ i X fun _ => rfl]
    rfl
  have htid1 : ∀ x : Thread, (match (ons ls).find? (fun (l : LaneIn) => l.t.tid == x.tid) with
      | some l => x.takeRes (lastCycle s.m k g + lat) (F l)
      | none => x).tid = x.tid := by
    intro x; split <;> rfl
  have hmark : ∀ l x, (d.mark k g l x).tid = x.tid := by
    intro l x
    simp only [Desc.mark]
    cases (if d.h = true then l.vs[0]? else if hbOf d.q = true then l.vs[1]? else none) <;> dsimp only <;> split <;> try split
    all_goals rfl
  refine ⟨⟨rfl, rfl, rfl, ?_, ?_, ?_, ?_⟩, ?_, ?_, ?_⟩
  · exact ((((Mach.SameRest.mapLanes _ _ _ _).trans (Mach.SameRest.mapLanes _ _ _ _)).trans (Mach.SameRest.onGang _ _ X)).trans
      (Mach.SameRest.onGroup _ _ Y)).trans (hU.rest _)
  · intro col c
    rw [hU.core]
    rfl
  · intro i hi
    rw [hU.group, hgrp, if_neg hi]
  · intro i hi
    rw [hU.gang, hgng, if_neg hi]
  · rw [hU.gang, hgng, if_pos rfl, hgang, hX]
    simp [Gang.next]
  · constructor
    · rw [hU.group, hgrp, if_pos rfl, hg2]
      rfl
  · intro i x hx
    have hi : x.tid = i := Group.thread?_tid hx
    subst hi
    have hu := activeLanes_unique (k := k) hx
    have e1 := find_lane (activeLanes k g) (fun x => d.laneIn now x (us x)) (fun l => l.on) x (fun _ => rfl) hu
    have e2 := find_lane (activeLanes k g) (fun x => d.laneIn now x (us x)) (fun _ => true) x (fun _ => rfl) hu
    rw [List.filter_true] at e2
    set f1 : Thread → Thread := fun t => match (ons ls).find? (fun (l : LaneIn) => l.t.tid == t.tid) with
      | some l => t.takeRes (lastCycle s.m k g + lat) (F l)
      | none => t with hf1
    set f2 : Thread → Thread := fun t => match ls.find? (fun (l : LaneIn) => l.t.tid == t.tid) with
      | some l => d.mark k g l t
      | none => t with hf2
    have h2 : ∀ y, (f2 y).tid = y.tid := by
      intro y
      simp only [hf2]
      split
      · exact hmark _ _
      · rfl
    have h3 : ∀ y, (f3 y).tid = y.tid := fun y => by rw [hf3x]
    have hth : Mach.thread? (U ((m1.onGang k.id X).onGroup k.gid Y)) k.gid x.tid = some (f3 (f2 (f1 x))) := by
      rw [Mach.thread?, hU.group, hgrp, if_pos rfl, hg2]
      simp only [Option.map_some, Option.bind_some]
      have a1 := thread?_of g ({ g with threads := g.threads.map f1 } : Group) f1 x.tid htid1 rfl
      have a2 := thread?_of ({ g with threads := g.threads.map f1 } : Group) ({ g with threads := (g.threads.map f1).map f2 } : Group) f2 x.tid h2 rfl
      refine (thread?_of ({ g with threads := (g.threads.map f1).map f2 } : Group) _ f3 x.tid h3 rfl).trans ?_
      rw [a2, a1, hx]
      rfl
    refine ⟨_, hth, ?_⟩
    have ht1 : (f1 x).tid = x.tid := htid1 x
    have hf1x : f1 x = if x ∈ activeLanes k g ∧ (d.laneIn now x (us x)).on = true then x.takeRes (lastCycle s.m k g + lat) (F (d.laneIn now x (us x))) else x := by
      have : (ons ls).find? (fun (l : LaneIn) => l.t.tid == x.tid) = if x ∈ activeLanes k g ∧ (d.laneIn now x (us x)).on = true then
          some (d.laneIn now x (us x)) else none := e1
      simp only [hf1, this]
      by_cases hc : x ∈ activeLanes k g ∧ (d.laneIn now x (us x)).on = true
      · simp [hc]
      · simp only [hc, if_false]
    have hf2x : f2 (f1 x) = if x ∈ activeLanes k g then d.mark k g (d.laneIn now x (us x)) (f1 x) else f1 x := by
      have : ls.find? (fun (l : LaneIn) => l.t.tid == (f1 x).tid) = if x ∈ activeLanes k g then some (d.laneIn now x (us x)) else none := by
        rw [ht1, hls, e2]
        simp
      simp only [hf2, this]
      by_cases hc : x ∈ activeLanes k g
      · simp [hc]
      · simp only [hc, if_false]
    by_cases hx' : x ∈ activeLanes k g
    · have hepi : x.epi = none := hr.plain x (activeLanes_thread hx') (List.mem_map_of_mem hx')
      have hf1e : (f1 x).epi = none := by
        rw [hf1x]; split <;> exact hepi
      have hmk : d.mark k g (d.laneIn now x (us x)) (f1 x) = { f1 x with c := { (f1 x).c with latch := d.form.latchAfter k (us x) (f1 x).c.latch } } :=
         mark_plain d k g _ _ hf1e
      have hf1s : f1 x = { x with c := (f1 x).c } := by
        rw [hf1x]; split <;> rfl
      rw [hf2x, if_pos hx', hmk]
      refine ⟨?_, fun _ => ?_, fun h => absurd hx' h⟩
      · rw [hf3x, hf1s]
      · rw [hf3x]
        show Ctx.landAll { (f1 x).c with latch := d.form.latchAfter k (us x) (f1 x).c.latch } = _
        rw [Ctx.landAll_latch]
        simp only [Form.after]
        rw [hf1x]
        by_cases ho : (d.laneIn now x (us x)).on = true
        · have ho' : d.form.on s k g x = true := ho
          simp only [hx', ho, and_self, if_true, ho', takeRes_landAll, Ctx.landAll_keeps_latch, Ctx.settle_latch]
          rfl
        · have ho' : ¬ d.form.on s k g x = true := ho
          rw [if_neg fun hh => ho hh.2, if_neg ho', Ctx.landAll_keeps_latch]
    · rw [hf2x, if_neg hx', hf1x, if_neg fun h => hx' h.1]
      exact ⟨by rw [hf3x], fun h => absurd h hx', fun _ => by rw [hf3x]⟩

theorem Desc.words_form (d : Desc) (hm : d.more = 0) : d.form.words = d.words := by
  unfold Desc.words
  rw [hm]
  rfl

/-- What a word marks is what `keepHeld` says, where its destinations are its only register writes. -/
theorem mark_keepHeld (d : Desc) (m : Mach) (k : Gang) (g : Group) (ls : List LaneIn) (hd : ∀ l, d.dyn g l = []) :
    m.mapLanes k.gid ls (d.mark k g) = m.keepHeld d.form k ls := by
  have : d.mark k g = fun l t =>
      { t with c := { t.c with latch := d.form.latchAfter k l.vs t.c.latch }
               epi := t.epi.map fun e => if l.on then
                 { e with written := ((d.form.dst.map Dst.regs).getD []).foldl (fun b n => b ||| BitVec.ofNat 256 (2 ^ n)) e.written } else e } := by
    funext l t
    rw [latchAfter_form]
    simp only [Desc.mark, Desc.held, Desc.writes, hd, List.append_nil]
    cases (if d.h = true then l.vs[0]? else if hbOf d.q = true then l.vs[1]? else none) <;> cases he : t.epi <;> cases l.on <;>
      simp [Desc.form] <;> rw [← he]
  rw [this]
  rfl

/-- A word whose checks pass and that completes takes its effect, and the gang goes on. -/
theorem word_acts {d : Desc} {s : State} {k : Gang} {g : Group} {ls : List LaneIn} {e : Mach} (hc : s.m.curGang = some (k, g)) (hs : k.mode = .solo)
    (hm : d.more = 0) (hd : ∀ l, d.dyn g l = []) (hv : d.verdict s.cfg s.m k g = .go ls [])
    (ha : d.act s.cfg s.m k g ls = (e, [])) (hk : ∃ k', e.gang? k.id = some k' ∧ ∀ l ∈ ls, l.t.tid ∈ k'.lanes) :
    word d s = .next { s with m := e.wentOn d.form k ls d.cls } := by
  have hp : d.perform s.cfg s.m k g ls = (e.keepHeld d.form k ls, true) := by
    obtain ⟨k', h1, h2⟩ := hk
    have hf : ls.filter (fun l => k'.lanes.contains l.t.tid) = ls :=
      List.filter_eq_self.2 fun l h => by simpa using h2 l h
    simp only [Desc.perform, ha, h1, hf, List.isEmpty_nil, if_true, mark_keepHeld d e k g ls hd]
  show Host.Outcome.next _ = _
  rw [runWord_go hc hs hv, hp, Mach.wentOn, d.words_form hm]
  rfl

/-- A word whose checks pass and that has yet to complete in some lanes parks its gang (R92). -/
theorem word_parks {d : Desc} {s : State} {k : Gang} {g : Group} {ls : List LaneIn} {e : Mach} {w : List Nat} (hc : s.m.curGang = some (k, g))
    (hs : k.mode = .solo) (hd : ∀ l, d.dyn g l = []) (hv : d.verdict s.cfg s.m k g = .go ls [])
    (ha : d.act s.cfg s.m k g ls = (e, w)) (hw : w ≠ []) (hk : ∃ k', e.gang? k.id = some k' ∧ ∀ l ∈ ls, l.t.tid ∈ k'.lanes) :
    word d s = .next { s with m := ((e.keepHeld d.form k ls).parkAt k ls w).holdWord k g d.cls } := by
  have hp : d.perform s.cfg s.m k g ls = ((e.keepHeld d.form k ls).parkAt k ls w, false) := by
    obtain ⟨k', h1, h2⟩ := hk
    have hf : ls.filter (fun l => k'.lanes.contains l.t.tid) = ls :=
      List.filter_eq_self.2 fun l h => by simpa using h2 l h
    have hw' : w.isEmpty = false := by cases w with | nil => exact absurd rfl hw | cons => rfl
    simp only [Desc.perform, ha, h1, hf, hw', mark_keepHeld d e k g ls hd, Mach.parkAt]
    rfl
  show Host.Outcome.next _ = _
  rw [runWord_go hc hs hv, hp]
  rfl

/-- An effect that leaves the gang as it was leaves its active lanes in it. -/
theorem gang_kept {d : Desc} {s : State} {k : Gang} {g : Group} {vs : Thread → List Nat} {e : Mach} (hr : d.form.Ready s k g vs)
    (h : e.gang? k.id = s.m.gang? k.id) : ∃ k', e.gang? k.id = some k' ∧ ∀ l ∈ d.form.activeIn s k g vs, l.t.tid ∈ k'.lanes := by
  obtain ⟨_, h1, _, _⟩ := curGang_spec hr.cur
  refine ⟨k, h.trans h1, fun l hl => ?_⟩
  obtain ⟨x, hx, rfl⟩ := List.mem_map.1 hl
  exact (activeLanes_mem hx).1

/-- The lanes a word takes stand in its gang. -/
theorem laneIn_mem {d : Desc} {k : Gang} {g : Group} {now : Nat} {us : Thread → List Nat} :
    ∀ l ∈ (activeLanes k g).map (fun x => d.laneIn now x (us x)), l.t.tid ∈ k.lanes := by
  intro l hl
  obtain ⟨x, hx, rfl⟩ := List.mem_map.1 hl
  exact (activeLanes_mem hx).1

theorem ons_activeIn (w : Form) (s : State) (k : Gang) (g : Group) (vs : Thread → List Nat) : ons (w.activeIn s k g vs) = w.lanesIn s k g vs := by
  simp only [ons, Form.activeIn, Form.lanesIn, Form.lanes, List.filter_map]
  rfl

/-- Words of fixed latency complete (R75 to R77). -/
theorem collects_of {i : Instr} {d : Desc} {lat : Nat}
    {F : State → Gang → Group → List LaneIn → LaneIn → List (Tgt × Word × Word) × BitVec 5} (hx : ∀ s, exec i s = word d s)
    (hi : d.ill = false) (hm : d.more = 0) (hc : d.chk = fun _ _ _ l => .ok l.vs) (hd : d.dyn = fun _ _ => []) (hb : ∀ cfg m k g l, d.busy cfg m k g l = false)
    (ho : d.opx = fun _ _ _ _ => none)
    (he : ∀ s k g vs, d.form.Ready s k g vs → ∀ l ∈ d.form.lanesIn s k g vs, (F s k g (d.form.lanesIn s k g vs) l).2 &&& g.fpxen = 0 →
      d.exe s.cfg s.m k g l = none)
    (ha : ∀ s k g vs, d.act s.cfg s.m k g (d.form.activeIn s k g vs)
      = laneAct lat (F s k g (d.form.lanesIn s k g vs)) s.m k g (d.form.activeIn s k g vs)) :
    Collects i d.form F := by
  intro s k g vs hr hf
  have hv := Desc.verdict_go (us := vs) hr hi hm (fun x _ => by rw [hc]; rfl) (fun x _ _ n hn => by rw [hd] at hn; cases hn)
    (fun x _ _ => hb _ _ _ _ _) (by rw [ho]) (fun x hx' hon => by
      have hl : d.laneIn (issueCycle s.m k g) x (vs x) ∈ d.form.lanesIn s k g vs := List.mem_map.2 ⟨x, List.mem_filter.2 ⟨hx', hon⟩, rfl⟩
      exact he s k g vs hr _ hl (hf _ hl))
  rw [hx, d.words_form hm]
  exact lane_done (F := F s k g (d.form.lanesIn s k g vs)) hr hv (ha s k g vs)

/-- Words with an effect on the machine complete. -/
theorem acts_of {i : Instr} {d : Desc} {ok : State → Gang → Group → LaneIn → Prop} {eff : State → Gang → Group → List LaneIn → Mach}
    (hx : ∀ s, exec i s = word d s) (hi : d.ill = false) (hm : d.more = 0) (hc : d.chk = fun _ _ _ l => .ok l.vs) (hd : d.dyn = fun _ _ => [])
    (hb : ∀ s k g l, ok s k g l → d.busy s.cfg s.m k g l = false)
    (ho : ∀ s k g vs, d.form.Ready s k g vs → (∀ l ∈ d.form.lanesIn s k g vs, ok s k g l) → d.opx s.cfg s.m k g = none)
    (he : ∀ s k g vs, d.form.Ready s k g vs → (∀ l ∈ d.form.lanesIn s k g vs, ok s k g l) → ∀ l ∈ d.form.lanesIn s k g vs,
      d.exe s.cfg s.m k g l = none)
    (ha : ∀ s k g vs, d.form.Ready s k g vs → (∀ l ∈ d.form.lanesIn s k g vs, ok s k g l) →
      d.act s.cfg s.m k g (d.form.activeIn s k g vs) = (eff s k g (d.form.activeIn s k g vs), []))
    (hk : ∀ s k g vs, d.form.Ready s k g vs → (∀ l ∈ d.form.lanesIn s k g vs, ok s k g l) →
      ∃ k', (eff s k g (d.form.activeIn s k g vs)).gang? k.id = some k' ∧ ∀ l ∈ d.form.activeIn s k g vs, l.t.tid ∈ k'.lanes) :
    Acts i d.form d.cls ok eff := by
  intro s k g vs hr hf
  have hmem : ∀ x ∈ activeLanes k g, d.form.on s k g x = true → d.laneIn (issueCycle s.m k g) x (vs x) ∈ d.form.lanesIn s k g vs :=
    fun x hx' hon => List.mem_map.2 ⟨x, List.mem_filter.2 ⟨hx', hon⟩, rfl⟩
  have hv := Desc.verdict_go (us := vs) hr hi hm (fun x _ => by rw [hc]; rfl) (fun x _ _ n hn => by rw [hd] at hn; cases hn)
    (fun x hx' hon => hb _ _ _ _ (hf _ (hmem x hx' hon)))
    (ho s k g vs hr hf) (fun x hx' hon => he s k g vs hr hf _ (hmem x hx' hon))
  rw [hx]
  exact word_acts hr.cur hr.solo hm (fun l => by rw [hd]) hv (ha s k g vs hr hf) (hk s k g vs hr hf)

/-! ### Accesses that issue -/

@[simp] theorem issueLong_free (m : Mach) (g : Group) (a : Acc) : (m.issueLong g a).free = m.free := rfl
@[simp] theorem issueLong_gang (m : Mach) (g : Group) (a : Acc) (j : Nat) : (m.issueLong g a).gang? j = m.gang? j := rfl

/-- A fold over lanes whose steps agree. -/
theorem foldl_lanes {xs : List LaneIn} {m : Mach} {f f' : Mach → LaneIn → Mach} (P : Mach → Prop) (h0 : P m) (hp : ∀ m l, P m → P (f' m l))
    (h : ∀ l ∈ xs, ∀ m, P m → f m l = f' m l) : xs.foldl f m = xs.foldl f' m := by
  induction xs generalizing m with
  | nil => rfl
  | cons x xs ih =>
    rw [List.foldl_cons, List.foldl_cons, h x List.mem_cons_self m h0]
    exact ih (hp _ _ h0) fun l hl => h l (List.mem_cons_of_mem _ hl)

/-- What holds of every step of a fold holds of its end. -/
theorem foldl_keeps {α : Type} {xs : List α} {m : Mach} {f : Mach → α → Mach} (P : Mach → Prop) (h0 : P m) (hp : ∀ m l, P m → P (f m l)) : P (xs.foldl f m) := by
  induction xs generalizing m with
  | nil => exact h0
  | cons x xs ih => exact ih (hp _ _ h0)

/-- Guarded lanes do not speculate. -/
theorem lanesIn_plain {w : Form} {s : State} {k : Gang} {g : Group} {vs : Thread → List Nat} (hr : w.Ready s k g vs) :
    ∀ l ∈ w.activeIn s k g vs, l.t.epi = none := by
  intro l hl
  obtain ⟨x, hx, rfl⟩ := List.mem_map.1 hl
  exact hr.plain x (activeLanes_thread hx) (List.mem_map_of_mem hx)

/-- The lanes of a ready word are its active lanes as the word sees them. -/
theorem gangLanes_ready {d : Desc} {s : State} {k : Gang} {g : Group} {vs : Thread → List Nat} (hr : d.form.Ready s k g vs)
    (hc : d.chk = fun _ _ _ l => .ok l.vs) : gangLanes d s.m k g = d.form.activeIn s k g vs := by
  simp only [gangLanes, Form.activeIn]
  rw [← List.filterMap_eq_map]
  refine List.filterMap_congr fun x hx => ?_
  rw [Desc.opr_ready hr hx (us := vs x) (by rw [hc]; rfl)]
  rfl

end Sys2Proof.Machine
end

