-- ==== Sys2Proof/Laws/Memory.lean ====
section
/-! SUPPORT. Memory: reads after writes, what a write leaves alone, and that every operation on a memory keeps its canonical form. -/

namespace Sys2Proof

/-! ### Sparse maps -/

theorem SMap.wfFrom_mono {α : Type} [DecidableEq α] {d : α} {m : SMap α} {i j : Nat} (h : SMap.wfFrom d j m = true) (hij : i ≤ j) :
    SMap.wfFrom d i m = true := by
  cases m with
  | nil => rfl
  | cons e m =>
    simp only [SMap.wfFrom, Bool.and_eq_true, decide_eq_true_eq] at *
    exact ⟨⟨by omega, h.1.2⟩, h.2⟩

/-- A canonical map lists nothing below its least key. -/
theorem SMap.get_low {α : Type} [DecidableEq α] {d : α} {m : SMap α} {i k : Nat} (h : SMap.wfFrom d i m = true) (hk : k < i) : SMap.get d m k = d := by
  induction m generalizing i with
  | nil => rfl
  | cons e m ih =>
    simp only [SMap.wfFrom, Bool.and_eq_true, decide_eq_true_eq] at h
    simp only [SMap.get, if_neg (show ¬ e.1 = k by omega)]
    exact ih h.2 (by omega)

theorem SMap.wfFrom_insert {α : Type} [DecidableEq α] {d v : α} (hv : v ≠ d) {m : SMap α} {i k : Nat} (h : SMap.wfFrom d i m = true) (hk : i ≤ k) :
    SMap.wfFrom d i (SMap.insert m k v) = true := by
  induction m generalizing i with
  | nil => simp [SMap.insert, SMap.wfFrom, hk, hv]
  | cons e m ih =>
    simp only [SMap.wfFrom, Bool.and_eq_true, decide_eq_true_eq] at h
    simp only [SMap.insert]
    split
    · next he => subst he; simp [SMap.wfFrom, hk, hv, h.2]
    · split
      · next hlt => simp [SMap.wfFrom, hk, hv, h.2, hlt, h.1.2]
      · simp only [SMap.wfFrom, Bool.and_eq_true, decide_eq_true_eq]
        exact ⟨h.1, ih h.2 (by omega)⟩

theorem SMap.wfFrom_erase {α : Type} [DecidableEq α] {d : α} {m : SMap α} {i k : Nat} (h : SMap.wfFrom d i m = true) :
    SMap.wfFrom d i (SMap.erase m k) = true := by
  induction m generalizing i with
  | nil => rfl
  | cons e m ih =>
    simp only [SMap.wfFrom, Bool.and_eq_true, decide_eq_true_eq] at h
    simp only [SMap.erase]
    split
    · exact SMap.wfFrom_mono (ih h.2) (by omega)
    · simp only [SMap.wfFrom, Bool.and_eq_true, decide_eq_true_eq]
      exact ⟨h.1, ih h.2⟩

theorem SMap.wf_set {α : Type} [DecidableEq α] {d : α} {m : SMap α} (h : SMap.wf d m = true) (k : Nat) (v : α) : SMap.wf d (SMap.set d m k v) = true := by
  unfold SMap.set
  split
  · exact SMap.wfFrom_erase h
  · next hv => exact SMap.wfFrom_insert hv h (Nat.zero_le _)

theorem SMap.get_erase_self {α : Type} (d : α) (m : SMap α) (k : Nat) : SMap.get d (SMap.erase m k) k = d := by
  induction m with
  | nil => rfl
  | cons e m ih =>
    simp only [SMap.erase]
    split
    · exact ih
    · next he => simp only [SMap.get, if_neg he]; exact ih

/-- A map reads back what was set. -/
@[simp] theorem SMap.get_set_self {α : Type} [DecidableEq α] (d : α) (m : SMap α) (k : Nat) (v : α) : SMap.get d (SMap.set d m k v) k = v := by
  unfold SMap.set
  split
  · next hv => rw [hv]; exact SMap.get_erase_self d m k
  · rw [Machine.SMap.get_insert, if_pos rfl]

@[simp] theorem SMap.get_modify_self {α : Type} [DecidableEq α] (d : α) (m : SMap α) (k : Nat) (f : α → α) :
    SMap.get d (SMap.modify d m k f) k = f (SMap.get d m k) := SMap.get_set_self _ _ _ _

theorem SMap.wfFrom_filter {α : Type} [DecidableEq α] {d : α} {m : SMap α} {i : Nat} (p : Nat × α → Bool) (h : SMap.wfFrom d i m = true) :
    SMap.wfFrom d i (m.filter p) = true := by
  induction m generalizing i with
  | nil => rfl
  | cons e m ih =>
    simp only [SMap.wfFrom, Bool.and_eq_true, decide_eq_true_eq] at h
    simp only [List.filter_cons]
    split
    · simp only [SMap.wfFrom, Bool.and_eq_true, decide_eq_true_eq]
      exact ⟨h.1, ih h.2⟩
    · exact SMap.wfFrom_mono (ih h.2) (by omega)

namespace Machine

/-! ### One byte -/

theorem setByte_wf {m : Mem} (h : Memory.wf m) (a : Nat) (v : Byte) : Memory.wf (setByte m a v) := SMap.wf_set h a v

@[simp] theorem byteAt_setByte_same (m : Mem) (a : Nat) (v : Byte) : byteAt (setByte m a v) a = v := SMap.get_set_self _ m a v

theorem byteAt_setByte_ne (m : Mem) {a b : Nat} (h : a ≠ b) (v : Byte) : byteAt (setByte m a v) b = byteAt m b := SMap.get_set_ne _ m v h

/-! ### Several bytes -/

theorem writeN_wf {m : Mem} (h : Memory.wf m) (a n v : Nat) : Memory.wf (writeN m a n v) := by
  induction n generalizing m a v with
  | zero => exact h
  | succ n ih => exact ih (setByte_wf h _ _) _ _

theorem writeList_wf {m : Mem} (h : Memory.wf m) (a : Nat) (bs : List Byte) : Memory.wf (writeList m a bs) := by
  induction bs generalizing m a with
  | nil => exact h
  | cons b bs ih => exact ih (setByte_wf h _ _) _

theorem fillBytes_wf {m : Mem} (h : Memory.wf m) (a : Nat) (v : Byte) (n : Nat) : Memory.wf (fillBytes m a v n) := by
  induction n generalizing m a with
  | zero => exact h
  | succ n ih => exact ih (setByte_wf h _ _) _

theorem clearRange_wf {m : Mem} (h : Memory.wf m) (lo hi : Nat) : Memory.wf (clearRange m lo hi) := SMap.wfFrom_filter _ h

/-- A write of `n` bytes at `a` leaves every byte outside [a, a + n) as it was. -/
theorem byteAt_writeN_out (m : Mem) (a n v : Nat) {b : Nat} (h : b < a ∨ a + n ≤ b) : byteAt (writeN m a n v) b = byteAt m b := by
  induction n generalizing m a v with
  | zero => rfl
  | succ n ih => rw [writeN, ih _ _ _ (by omega), byteAt_setByte_ne _ (by omega)]

/-- Byte i of what `writeN` wrote (R5). -/
theorem byteAt_writeN_in (m : Mem) (a n v i : Nat) (hi : i < n) : byteAt (writeN m a n v) (a + i) = BitVec.ofNat 8 (v / 256 ^ i) := by
  induction n generalizing m a v i with
  | zero => omega
  | succ n ih =>
    cases i with
    | zero => exact (byteAt_writeN_out _ (a + 1) n _ (Or.inl (Nat.lt_succ_self a))).trans ((byteAt_setByte_same m a _).trans (by simp))
    | succ i =>
      have := ih (setByte m a (BitVec.ofNat 8 v)) (a + 1) (v / 256) i (by omega)
      rw [writeN, show a + (i + 1) = a + 1 + i by omega, this, Nat.div_div_eq_div_mul, ← Nat.pow_succ']

/-- What was written reads back (R5). -/
theorem readN_writeN (m : Mem) (a n v : Nat) : readN (writeN m a n v) a n = v % 256 ^ n := by
  have key : ∀ (k a' : Nat) (m' : Mem) (v' : Nat), (∀ i < k, byteAt m' (a' + i) = BitVec.ofNat 8 (v' / 256 ^ i)) → readN m' a' k = v' % 256 ^ k := by
    intro k
    induction k with
    | zero => intro a' m' v' _; simp [readN, Nat.mod_one]
    | succ k ih =>
      intro a' m' v' hb
      have h0 := hb 0 (by omega)
      have hr := ih (a' + 1) m' (v' / 256) fun i hi => by
        have := hb (i + 1) (by omega)
        rw [show a' + 1 + i = a' + (i + 1) by omega, this, Nat.div_div_eq_div_mul, ← Nat.pow_succ']
      rw [readN, hr]
      simp only [Nat.add_zero, Nat.pow_zero, Nat.div_one] at h0
      rw [h0, BitVec.toNat_ofNat, show (256 : Nat) ^ (k + 1) = 256 * 256 ^ k from Nat.pow_succ', Nat.mod_mul (a := 256)]
  exact key n a _ v fun i hi => byteAt_writeN_in m a n v i hi

/-- A read of bytes that a write does not meet gives what it gave. -/
theorem readN_writeN_out (m : Mem) (a n v : Nat) {b k : Nat} (h : b + k ≤ a ∨ a + n ≤ b) : readN (writeN m a n v) b k = readN m b k := by
  induction k generalizing b with
  | zero => rfl
  | succ k ih => rw [readN, readN, ih (by omega), byteAt_writeN_out _ _ _ _ (by omega)]

/-! ### The machine's memories -/

/-- Every memory of the machine is canonical. -/
structure Mach.MemWf (m : Mach) : Prop where
  device : Memory.wf m.dmem
  host : Memory.wf m.hmem
  windows : Memory.wf m.smem
  towers : Memory.wf m.tmem
  frames : Memory.wf m.fmem

theorem reset_memWf : State.reset.m.MemWf := by constructor <;> rfl

theorem winWrite_memWf {m : Mach} (h : m.MemWf) (gid off n v : Nat) : (m.winWrite gid off n v).MemWf :=
  ⟨h.device, h.host, writeN_wf h.windows _ _ _, h.towers, h.frames⟩

theorem setWin32_memWf {m : Mach} (h : m.MemWf) (gid off v : Nat) : (m.setWin32 gid off v).MemWf :=
  ⟨h.device, h.host, writeN_wf h.windows _ _ _, h.towers, h.frames⟩

theorem towWrite_memWf {m : Mach} (h : m.MemWf) (col tower off n v : Nat) : (m.towWrite col tower off n v).MemWf :=
  ⟨h.device, h.host, h.windows, writeN_wf h.towers _ _ _, h.frames⟩

theorem homeWrite_memWf {m : Mach} (h : m.MemWf) (pa n v : Nat) : (m.homeWrite pa n v).MemWf := by
  unfold Mach.homeWrite
  split
  · exact ⟨writeN_wf h.device _ _ _, h.host, h.windows, h.towers, h.frames⟩
  · exact ⟨h.device, writeN_wf h.host _ _ _, h.windows, h.towers, h.frames⟩

theorem setTexel_memWf {m : Mach} (h : m.MemWf) (s : Surf) (x y l v : Nat) : (m.setTexel s x y l v).MemWf :=
  ⟨h.device, h.host, h.windows, h.towers, writeN_wf h.frames _ _ _⟩

/-- Decoded planes written to a frame. -/
theorem putPlanes_wf {f : Mem} (h : Memory.wf f) (s : Surf) (b : Nat) (planes : List Nat) : Memory.wf (putPlanes s b planes f) := by
  unfold putPlanes
  generalize (List.range planes.length).zip planes = l
  induction l generalizing f with
  | nil => exact h
  | cons x l ih =>
    refine ih ?_
    show Memory.wf (List.foldl _ f _)
    generalize (List.range 16).zip (rakeDecode x.2) = r
    induction r generalizing f with
    | nil => exact h
    | cons y r ihr => exact ihr (writeN_wf h _ _ _)

theorem hostBytes_mem_wf {m : Mach} (h : m.MemWf) (addr : Nat) (bs : List Byte) : Memory.wf (writeList m.hmem addr bs) := writeList_wf h.host addr bs

theorem wakeMonitors_memWf {m : Mach} (h : m.MemWf) : m.wakeMonitors.MemWf := ⟨h.device, h.host, h.windows, h.towers, h.frames⟩

theorem onCore_memWf {m : Mach} (h : m.MemWf) (col c : Nat) (f : Core → Core) : (m.onCore col c f).MemWf :=
  ⟨h.device, h.host, h.windows, h.towers, h.frames⟩

theorem store_memWf {m : Mach} (h : m.MemWf) (pa n v : Nat) : (m.store pa n v).MemWf := wakeMonitors_memWf (homeWrite_memWf h _ _ _)

theorem storeMasked_memWf {m : Mach} (h : m.MemWf) (pa : Nat) (src : Mem) (mask : BitVec 64) : (m.storeMasked pa src mask).MemWf := by
  refine wakeMonitors_memWf ?_
  generalize List.range 64 = l
  induction l generalizing m with
  | nil => exact h
  | cons i l ih =>
    refine ih ?_
    dsimp only
    split
    · exact homeWrite_memWf h _ _ _
    · exact h

theorem l1Back_memWf {m : Mach} (h : m.MemWf) (col c sec : Nat) : (m.l1Back col c sec).MemWf := by
  unfold Mach.l1Back
  split
  · exact h
  · dsimp only
    split <;> exact onCore_memWf (storeMasked_memWf h _ _ _) _ _ _

theorem l1BackAll_memWf {m : Mach} (h : m.MemWf) (col c : Nat) : (m.l1BackAll col c).MemWf := by
  unfold Mach.l1BackAll
  generalize (m.core col c).l1 = l
  induction l generalizing m with
  | nil => exact h
  | cons s l ih => exact ih (l1Back_memWf h _ _ _)

theorem l1Drop_memWf {m : Mach} (h : m.MemWf) (col c sec : Nat) : (m.l1Drop col c sec).MemWf := onCore_memWf (l1Back_memWf h _ _ _) _ _ _

theorem l1Inv_memWf {m : Mach} (h : m.MemWf) (col c : Nat) : (m.l1Inv col c).MemWf := onCore_memWf (l1BackAll_memWf h _ _) _ _ _

theorem l1Fill_memWf {m : Mach} (h : m.MemWf) (col c pa : Nat) : (m.l1Fill col c pa).MemWf := by
  unfold Mach.l1Fill
  dsimp only
  split
  · split
    · exact h
    · exact onCore_memWf h _ _ _
  · exact onCore_memWf h _ _ _

theorem l1Read_memWf {m : Mach} (h : m.MemWf) (col c pa n : Nat) : (m.l1Read col c pa n).1.MemWf := by
  have key : ∀ b : Bool, (if b then m else m.l1Fill col c pa).MemWf := by
    intro b; cases b
    · exact l1Fill_memWf h _ _ _
    · exact h
  unfold Mach.l1Read
  dsimp only
  split <;> exact key _

theorem l1Write_memWf {m : Mach} (h : m.MemWf) (col c pa n v : Nat) : (m.l1Write col c pa n v).MemWf :=
  ⟨h.device, h.host, h.windows, h.towers, h.frames⟩

theorem l1Room_memWf {m : Mach} (h : m.MemWf) (col c pa : Nat) : (m.l1Room col c pa).MemWf := by
  unfold Mach.l1Room
  dsimp only
  split
  · exact h
  · split
    · exact l1Drop_memWf (l1Drop_memWf h _ _ _) _ _ _
    · exact h

theorem doGlob_memWf {m : Mach} (h : m.MemWf) (col c pa size val : Nat) (home : Bool) : (m.doGlob col c pa size val home).MemWf := by
  unfold Mach.doGlob
  split
  · exact store_memWf (l1Drop_memWf h _ _ _) _ _ _
  · exact l1Write_memWf (l1Room_memWf h _ _ _) _ _ _ _ _

/-- A device or host byte outside a write at home reads as before (R245, R332). -/
theorem homeRead_homeWrite_out (m : Mach) (pa n v : Nat) {b k : Nat} (h : b + k ≤ pa ∨ pa + n ≤ b) (hn : n ≤ 2 ^ 56) (hk : k ≤ 2 ^ 56)
    (hb : b + k ≤ hostBase ∨ hostBase ≤ b) : (m.homeWrite pa n v).homeRead b k = m.homeRead b k := by
  unfold Mach.homeWrite Mach.homeRead
  split
  · split
    · refine readN_writeN_out _ _ _ _ ?_
      show m.devKey b + k ≤ m.devKey pa ∨ _
      unfold Mach.devKey
      split <;> split <;> omega
    · rfl
  · split
    · rfl
    · exact readN_writeN_out _ _ _ _ (by omega)

end Machine

end Sys2Proof
end

