-- ==== Sys2Proof/Laws/Ops.lean ====
section
/-! SUPPORT. Ops: lookups after updates of the maps of the machine, and for each shared operation the parts of the machine it may change: everything
else is as it was. -/

namespace Sys2Proof.Machine

/-! ### Lookups after updates -/

@[simp] theorem vf_onVf (m : Mach) (v : Nat) (f : Vf → Vf) : (m.onVf v f).vf v = f (m.vf v) := SMap.get_modify_self _ _ _ _

theorem vf_onVf_ne (m : Mach) {v w : Nat} (f : Vf → Vf) (h : v ≠ w) : (m.onVf v f).vf w = m.vf w := SMap.get_set_ne _ _ _ h

@[simp] theorem part_onPart (c : Cfg) (v : Nat) (f : Part → Part) : (c.onPart v f).part v = f (c.part v) := SMap.get_modify_self _ _ _ _

theorem part_onPart_ne (c : Cfg) {v w : Nat} (f : Part → Part) (h : v ≠ w) : (c.onPart v f).part w = c.part w := SMap.get_set_ne _ _ _ h

@[simp] theorem core_onCore (m : Mach) (col c : Nat) (f : Core → Core) : (m.onCore col c f).core col c = f (m.core col c) := SMap.get_set_self _ _ _ _

theorem core_onCore_ne (m : Mach) {col c col' c' : Nat} (f : Core → Core) (h : col * 48 + c ≠ col' * 48 + c') :
    (m.onCore col c f).core col' c' = m.core col' c' := SMap.get_set_ne _ _ _ h

@[simp] theorem cluster_onCluster (m : Mach) (col c : Nat) (f : Cluster → Cluster) : (m.onCluster col c f).cluster col c = f (m.cluster col c) :=
  SMap.get_modify_self _ _ _ _

/-! ### What an operation may change -/

theorem raisePf_keeps (m : Mach) (b : Nat) : m.raisePf b = { m with pf := (m.raisePf b).pf } := by
  unfold Mach.raisePf
  split
  · rfl
  · rfl

@[simp] theorem raisePf_vfs (m : Mach) (b : Nat) : (m.raisePf b).vfs = m.vfs := by
  unfold Mach.raisePf
  split <;> rfl

theorem raise_keeps (m : Mach) (v b : Nat) : m.raise v b = { m with vfs := (m.raise v b).vfs, pf := (m.raise v b).pf } := by
  unfold Mach.raise
  dsimp only
  split
  · rfl
  · split
    · rfl
    · split
      · rfl
      · split
        · rfl
        · split
          · conv_lhs => rw [raisePf_keeps]
            rw [raisePf_vfs]; rfl
          · rfl

theorem count_keeps (m : Mach) (col i : Nat) : m.count col i = { m with tele := (m.count col i).tele } := rfl

theorem countLoss_keeps (m : Mach) (col : Nat) (c : Cause) : m.countLoss col c = { m with tele := (m.countLoss col c).tele } := by
  unfold Mach.countLoss
  split <;> rfl

theorem queueStop_keeps (m : Mach) (vf root c : Nat) : m.queueStop vf root c = { m with stops := (m.queueStop vf root c).stops } := by
  unfold Mach.queueStop
  split <;> rfl

/-- A domain is marked for its stop once, whatever marks it again (R243). -/
theorem queueStop_marks (m : Mach) (vf root c : Nat) (hc : c < 256) : ∃ e ∈ (m.queueStop vf root c).stops, e.1 = vf ∧ e.2 / 256 = root := by
  unfold Mach.queueStop
  split
  · next h =>
    obtain ⟨e, he, h⟩ := List.any_eq_true.1 h
    exact ⟨e, he, by simpa using h⟩
  · exact ⟨(vf, root * 256 + c), by simp, rfl, by simp only []; omega⟩

theorem reapGang_keeps (m : Mach) (id : Nat) : m.reapGang id = { m with gangs := (m.reapGang id).gangs } := by
  unfold Mach.reapGang
  split
  · split <;> rfl
  · rfl

theorem leaveGang_keeps (m : Mach) (k : Gang) (tid slot : Nat) (w : Wait) :
    m.leaveGang k tid slot w = { m with groups := (m.leaveGang k tid slot w).groups, gangs := (m.leaveGang k tid slot w).gangs } := rfl

/-- A trap of a lane changes groups and gangs, counts a loss, and may mark its fault domain: no memory, no unit, no partition (R242, R243). -/
theorem trapLane_keeps (m : Mach) (k : Gang) (tid slot : Nat) (c : Cause) (arg : Nat) :
    m.trapLane k tid slot c arg = { m with
      groups := (m.trapLane k tid slot c arg).groups, gangs := (m.trapLane k tid slot c arg).gangs
      tele := (m.trapLane k tid slot c arg).tele, stops := (m.trapLane k tid slot c arg).stops } := by
  unfold Mach.trapLane
  split
  · rfl
  · split
    · rfl
    · dsimp only
      split
      · rw [queueStop_keeps, countLoss_keeps]; rfl
      · rfl

theorem fatalAcc_keeps (m : Mach) (a : Acc) (c : Cause) :
    m.fatalAcc a c = { m with groups := (m.fatalAcc a c).groups, tele := (m.fatalAcc a c).tele, stops := (m.fatalAcc a c).stops } := by
  unfold Mach.fatalAcc
  split
  · rfl
  · rw [queueStop_keeps, countLoss_keeps]; rfl

/-- A rollback changes groups, gangs and the queue of its core (R236). -/
theorem rollbackIf_keeps (m : Mach) (gid : Nat) (p : Episode → Bool) :
    m.rollbackIf gid p = { m with
      groups := (m.rollbackIf gid p).groups, gangs := (m.rollbackIf gid p).gangs, cores := (m.rollbackIf gid p).cores } := by
  unfold Mach.rollbackIf
  split
  · rfl
  · dsimp only
    split <;> rfl

theorem testFilter_keeps (m : Mach) (gid : Nat) (p : Path) (tow addr size : Nat) :
    m.testFilter gid p tow addr size = { m with
      groups := (m.testFilter gid p tow addr size).groups, gangs := (m.testFilter gid p tow addr size).gangs
      cores := (m.testFilter gid p tow addr size).cores } := by
  unfold Mach.testFilter
  split
  · rfl
  · split
    · rfl
    · exact rollbackIf_keeps _ _ _

theorem deliverValue_keeps (m : Mach) (a : Acc) (v : Nat) : m.deliverValue a v = { m with groups := (m.deliverValue a v).groups } := rfl

theorem queueAccs_keeps (m : Mach) (g : Group) (as : List Acc) : m.queueAccs g as = { m with cores := (m.queueAccs g as).cores } := rfl

theorem issueLong_keeps (m : Mach) (g : Group) (a : Acc) :
    m.issueLong g a = { m with groups := (m.issueLong g a).groups, cores := (m.issueLong g a).cores } := rfl

theorem putPhase_keeps (m : Mach) (gid off : Nat) (o : PhaseObj) : m.putPhase gid off o = { m with smem := (m.putPhase gid off o).smem } := rfl

theorem settlePhase_keeps (m : Mach) (gid off : Nat) (o : PhaseObj) :
    m.settlePhase gid off o = { m with smem := (m.settlePhase gid off o).smem, groups := (m.settlePhase gid off o).groups } := by
  unfold Mach.settlePhase
  dsimp only
  split
  · rw [putPhase_keeps]
  · rw [putPhase_keeps]; rfl

theorem stampAt_keeps (m : Mach) (g : Group) (pa : Nat) :
    m.stampAt g pa = { m with cores := (m.stampAt g pa).cores, slices := (m.stampAt g pa).slices } := rfl

theorem homeWrite_keeps (m : Mach) (pa n v : Nat) : m.homeWrite pa n v = { m with dmem := (m.homeWrite pa n v).dmem, hmem := (m.homeWrite pa n v).hmem } := by
  unfold Mach.homeWrite
  split <;> rfl

/-- A write at a home changes the memory of that home, and monitors may be met (R170). -/
theorem store_keeps (m : Mach) (pa n v : Nat) :
    m.store pa n v = { m with dmem := (m.store pa n v).dmem, hmem := (m.store pa n v).hmem, monitors := (m.store pa n v).monitors } := by
  unfold Mach.store Mach.wakeMonitors
  rw [homeWrite_keeps]

/-- Bytes written at a home read back. -/
theorem homeRead_store (m : Mach) (pa n v : Nat) : (m.store pa n v).homeRead pa n = v % 256 ^ n := by
  simp only [Mach.store, Mach.wakeMonitors, Mach.homeRead, Mach.homeWrite]
  split
  · exact readN_writeN _ _ _ _
  · exact readN_writeN _ _ _ _

/-- A read through the L1 changes the L1 at most (R152). -/
theorem l1Fill_keeps (m : Mach) (col c pa : Nat) : m.l1Fill col c pa = { m with cores := (m.l1Fill col c pa).cores } := by
  unfold Mach.l1Fill
  dsimp only
  split
  · split <;> rfl
  · rfl

theorem l1Read_keeps (m : Mach) (col c pa n : Nat) : (m.l1Read col c pa n).1 = { m with cores := (m.l1Read col c pa n).1.cores } := by
  have h : (m.l1Read col c pa n).1 = m ∨ (m.l1Read col c pa n).1 = m.l1Fill col c pa := by
    unfold Mach.l1Read
    dsimp only
    split <;> (dsimp only; split_ifs <;> simp)
  rcases h with h | h <;> rw [h]
  exact l1Fill_keeps _ _ _ _

theorem l1Write_keeps (m : Mach) (col c pa n v : Nat) : m.l1Write col c pa n v = { m with cores := (m.l1Write col c pa n v).cores } := rfl

theorem advance_keeps (m : Mach) (k : Gang) (n cls : Nat) :
    m.advance k n cls = { m with
      cores := (m.advance k n cls).cores, groups := (m.advance k n cls).groups, gangs := (m.advance k n cls).gangs } := by
  unfold Mach.advance
  dsimp only
  split
  · rfl
  · split <;> rfl

/-- The steps of a program's words touch the machine only. -/
theorem word_next (d : Desc) (s : State) : word d s = .next { s with m := runWord d s.cfg s.m } := rfl

/-! ### Words that complete or wait -/

theorem activeIn_mem {w : Form} {s : State} {k : Gang} {g : Group} {vs : Thread → List Nat} {x : Thread} (hx : x ∈ activeLanes k g) :
    w.laneIn s k g vs x ∈ w.activeIn s k g vs := List.mem_map.2 ⟨x, hx, rfl⟩

theorem ons_mem {w : Form} {s : State} {k : Gang} {g : Group} {vs : Thread → List Nat} {x : Thread} (hx : x ∈ activeLanes k g)
    (h : w.on s k g x = true) : w.laneIn s k g vs x ∈ ons (w.activeIn s k g vs) := List.mem_filter.2 ⟨activeIn_mem hx, h⟩

/-- Without a guard every active lane is guarded in. -/
theorem ons_unguarded {w : Form} {s : State} {k : Gang} {g : Group} {vs : Thread → List Nat} (h : w.q = none) :
    ons (w.activeIn s k g vs) = w.activeIn s k g vs := by
  refine List.filter_eq_self.2 fun l hl => ?_
  obtain ⟨x, hx, rfl⟩ := List.mem_map.1 hl
  simp [Form.laneIn, Form.on, Machine.guard, h]

/-- A word whose description has its form, whose waits and traps the condition rules out and whose effect is `eff`, completes. -/
theorem actsWhen_of {i : Instr} {d : Desc} {ok : State → Gang → Group → List LaneIn → Prop} {eff : State → Gang → Group → List LaneIn → Mach}
    (hx : ∀ s, exec i s = word d s) (hi : d.ill = false) (hm : d.more = 0) (hc : d.chk = fun _ _ _ l => .ok l.vs) (hd : d.dyn = fun _ _ => [])
    (hb : ∀ s k g vs, d.form.Ready s k g vs → ok s k g (d.form.activeIn s k g vs) → ∀ l ∈ ons (d.form.activeIn s k g vs),
      d.busy s.cfg s.m k g l = false)
    (ho : ∀ s k g vs, d.form.Ready s k g vs → ok s k g (d.form.activeIn s k g vs) → d.opx s.cfg s.m k g = none)
    (he : ∀ s k g vs, d.form.Ready s k g vs → ok s k g (d.form.activeIn s k g vs) → ∀ l ∈ ons (d.form.activeIn s k g vs),
      d.exe s.cfg s.m k g l = none)
    (ha : ∀ s k g vs, d.form.Ready s k g vs → ok s k g (d.form.activeIn s k g vs) →
      d.act s.cfg s.m k g (d.form.activeIn s k g vs) = (eff s k g (d.form.activeIn s k g vs), []))
    (hk : ∀ s k g vs, d.form.Ready s k g vs → ok s k g (d.form.activeIn s k g vs) →
      (eff s k g (d.form.activeIn s k g vs)).gang? k.id = s.m.gang? k.id) :
    ActsWhen i d.form d.cls ok eff := by
  intro s k g vs hr hok
  have hv := Desc.verdict_go (us := vs) hr hi hm (fun x _ => by rw [hc]; rfl) (fun x _ _ n hn => by rw [hd] at hn; cases hn)
    (fun x hx' hon => hb s k g vs hr hok _ (ons_mem hx' hon)) (ho s k g vs hr hok)
    (fun x hx' hon => he s k g vs hr hok _ (ons_mem hx' hon))
  rw [hx s]
  exact word_acts hr.cur hr.solo hm (fun l => by rw [hd]) hv (ha s k g vs hr hok) (gang_kept hr (hk s k g vs hr hok))

/-- The same for a word that parks its gang. -/
theorem parksWhen_of {i : Instr} {d : Desc} {ok : State → Gang → Group → List LaneIn → Prop} {eff : State → Gang → Group → List LaneIn → Mach}
    {left : State → Gang → Group → List LaneIn → List Nat}
    (hx : ∀ s, exec i s = word d s) (hi : d.ill = false) (hm : d.more = 0) (hc : d.chk = fun _ _ _ l => .ok l.vs) (hd : d.dyn = fun _ _ => [])
    (hb : ∀ s k g vs, d.form.Ready s k g vs → ok s k g (d.form.activeIn s k g vs) → ∀ l ∈ ons (d.form.activeIn s k g vs),
      d.busy s.cfg s.m k g l = false)
    (ho : ∀ s k g vs, d.form.Ready s k g vs → ok s k g (d.form.activeIn s k g vs) → d.opx s.cfg s.m k g = none)
    (he : ∀ s k g vs, d.form.Ready s k g vs → ok s k g (d.form.activeIn s k g vs) → ∀ l ∈ ons (d.form.activeIn s k g vs),
      d.exe s.cfg s.m k g l = none)
    (ha : ∀ s k g vs, d.form.Ready s k g vs → ok s k g (d.form.activeIn s k g vs) →
      d.act s.cfg s.m k g (d.form.activeIn s k g vs) = (eff s k g (d.form.activeIn s k g vs), left s k g (d.form.activeIn s k g vs)))
    (hl : ∀ s k g vs, d.form.Ready s k g vs → ok s k g (d.form.activeIn s k g vs) → left s k g (d.form.activeIn s k g vs) ≠ [])
    (hk : ∀ s k g vs, d.form.Ready s k g vs → ok s k g (d.form.activeIn s k g vs) →
      ∃ k', (eff s k g (d.form.activeIn s k g vs)).gang? k.id = some k' ∧ ∀ l ∈ d.form.activeIn s k g vs, l.t.tid ∈ k'.lanes) :
    ParksWhen i d.form d.cls ok eff left := by
  intro s k g vs hr hok
  have hv := Desc.verdict_go (us := vs) hr hi hm (fun x _ => by rw [hc]; rfl) (fun x _ _ n hn => by rw [hd] at hn; cases hn)
    (fun x hx' hon => hb s k g vs hr hok _ (ons_mem hx' hon)) (ho s k g vs hr hok)
    (fun x hx' hon => he s k g vs hr hok _ (ons_mem hx' hon))
  rw [hx s]
  exact word_parks hr.cur hr.solo (fun l => by rw [hd]) hv (ha s k g vs hr hok) (hl s k g vs hr hok) (hk s k g vs hr hok)

end Sys2Proof.Machine
end

