-- ==== Sys2Proof/Tests/Base.lean ====
section
/-! SUPPORT. Base of the tests: a small state with one group and one gang, and the checks of `Form.Ready` as one decidable test, so that a witness of a
statement about a word is one evaluation. -/

namespace Sys2Proof.Machine

set_option Elab.async false

/-- The checks of `Form.Ready`, decided. -/
def readyCheck (s : State) (k : Gang) (g : Group) (w : Form) : Bool :=
  s.m.curGang == some (k, g) && k.mode == .solo && !(activeLanes k g).isEmpty
    && g.threads.all (fun y => !((activeLanes k g).map (·.tid)).contains y.tid || y.epi.isNone)
    && w.chainOk k.slot && w.legal
    && (activeLanes k g).all (fun x => (rdAll g.acquired k.slot k.first (issueCycle s.m k g) x.c w.srcs).vals?.isSome
      && (!w.on s k g x || ((w.dst.map Dst.regs).getD []).all fun n => !x.c.notFull.getLsbD n))
    && ((w.dst.map Dst.regs).getD []).all fun n => decide (n < g.acquired)

/-- The source values a word reads. -/
def readVals (s : State) (k : Gang) (g : Group) (w : Form) (x : Thread) : List Nat :=
  (rdAll g.acquired k.slot k.first (issueCycle s.m k g) x.c w.srcs).vals?.getD []

theorem ready_of {s : State} {k : Gang} {g : Group} {w : Form} (h : readyCheck s k g w = true) : w.Ready s k g (readVals s k g w) := by
  simp only [readyCheck, Bool.and_eq_true, beq_iff_eq, Bool.not_eq_true', List.isEmpty_eq_false_iff, List.all_eq_true, Bool.or_eq_true,
    decide_eq_true_eq] at h
  obtain ⟨⟨⟨⟨⟨⟨⟨hc, hs⟩, hn⟩, hp⟩, hch⟩, hl⟩, hr⟩, hb⟩ := h
  refine ⟨hc, hs, hn, fun y hy hm => ?_, hch, hl, fun x hx => ?_, fun d hd n hn => hb n (by simpa [hd] using hn), fun x hx hon d hd n hn => ?_⟩
  · rcases hp y hy with h | h
    · rw [List.contains_iff_mem.2 hm] at h; cases h
    · simpa using h
  · have := (hr x hx).1
    unfold readVals
    cases he : rdAll g.acquired k.slot k.first (issueCycle s.m k g) x.c w.srcs <;> simp_all [Opr.vals?]
  · rcases (hr x hx).2 with h | h
    · simp [hon] at h
    · exact h n (by simpa [hd] using hn)

/-- A state in which gang `k` of group `g` is current; `f` sets the rest of the machine. -/
def tOn (k : Gang) (g : Group) (f : Mach → Mach := id) : State :=
  { State.reset with m := f { State.reset.m with groups := [g], gangs := [k], nextGid := 1, nextGang := 1, cur := some k.id } }

/-- The placed group and gang: one thread with 256 registers, at slot 0. -/
def tGroup : Group := placedGroup 0
def tGang : Gang := placedGang 0 0 0 0
def tState : State := tOn tGang tGroup

/-- A word is ready in a state where no floating-point trap is enabled: the hypotheses of `Computes` and `Collects`. -/
def Readies (w : Form) : Prop := ∃ s k g vs, w.Ready s k g vs ∧ w.lanesIn s k g vs ≠ [] ∧ ∀ b : BitVec 5, b &&& g.fpxen = 0

/-- The gang has a lane in which the guard is true. -/
def someOn (s : State) (k : Gang) (g : Group) (w : Form) : Bool := (activeLanes k g).any (w.on s k g)

theorem someOn_lanes {s : State} {k : Gang} {g : Group} {w : Form} {vs : Thread → List Nat} (h : someOn s k g w = true) : w.lanesIn s k g vs ≠ [] := by
  obtain ⟨x, hx, ho⟩ := List.any_eq_true.1 h
  exact List.ne_nil_of_mem (List.mem_map.2 ⟨x, List.mem_filter.2 ⟨hx, ho⟩, rfl⟩)

theorem readies {w : Form} (h : (readyCheck tState tGang tGroup w && someOn tState tGang tGroup w) = true) : Readies w :=
  have h := Bool.and_eq_true_iff.1 h
  ⟨_, _, _, _, ready_of h.1, someOn_lanes h.2, fun _ => BitVec.and_zero⟩

theorem readies_all {ws : List Form} (h : (ws.all fun w => readyCheck tState tGang tGroup w && someOn tState tGang tGroup w) = true) :
    ∀ w ∈ ws, Readies w := fun w hw => readies (List.all_eq_true.1 h w hw)

/-- A modifier whose guard is k7 inverted, true at launch. -/
def qGuard : Modifier :=
  { c := true, sat := false, clp := false, na := false, nb := false, aa := false, ab := false, scale := 0, kg := 7, gn := true, hb := false, ord := 0
    scope := 0, rsv := false }

/-- The guard with every modifier that a set of fields accepts, SCALE -1 among them. -/
def qFor (a : Accepts) : Modifier :=
  { qGuard with na := a.negA, nb := a.negB, aa := a.negA, ab := a.negB, scale := if a.scl then 31 else 0, sat := a.scl, hb := a.hb }

/-- Boundary operand fields of formats R and RT: the last lane register, the last temporary, ZERO, with the chain bit and a hold. -/
def fBound : List FR :=
  [ { c := false, h := false, d := 111, a := 111, b := 119, m := true, n := true }
  , { c := true, h := true, d := 119, a := 123, b := 0, m := false, n := false }
  , { c := false, h := false, d := 123, a := 0, b := 111, m := false, n := true } ]

/-- The same for register pairs. -/
def fPair : List FR :=
  [ { c := false, h := false, d := 110, a := 110, b := 118, m := true, n := true }, { c := true, h := false, d := 118, a := 123, b := 0, m := false, n := false } ]

/-- A boundary word for a modifier. -/
def fMod : FR := { c := false, h := false, d := 110, a := 118, b := 110, m := false, n := true }

/-- The RT fields of R fields. -/
def rtOf (f : FR) : FRt := { c := f.c, h := f.h, e := f.m, d := f.d, a := f.a, b := f.b, m := f.m, n := f.n }

/-- The forms of a row of format R: each boundary word, and one with the modifiers it accepts. -/
def formsR (acc : Accepts) (w : Nat) : List Form :=
  (if w = 1 then fBound else fPair).map (fun f => formR f none acc w) ++ [formR fMod (some (qFor { acc with hb := acc.hb && w == 1 })) acc w]

/-- The forms of a row of format RT. -/
def formsRt (acc : Accepts) (w : Nat) : List Form :=
  (if w = 1 then fBound else fPair).map (fun f => formRt (rtOf f) none acc w) ++ [formRt (rtOf fMod) (some (qFor { acc with hb := acc.hb && w == 1 })) acc w]

/-- The forms of two sources into a predicate. -/
def formsP (acc : Accepts) : List Form :=
  [ formP { c := true, p := 5, k := 63, a := 111, b := 119, m := true, n := false } none acc
  , formP { c := false, p := 0, k := 0, a := 123, b := 111, m := false, n := true } (some (qFor acc)) acc ]

/-- The hypotheses of `Acts` are met somewhere, with a guarded lane. -/
def ActsMet (w : Form) (ok : State → Gang → Group → LaneIn → Prop) : Prop :=
  ∃ s k g vs, w.Ready s k g vs ∧ w.lanesIn s k g vs ≠ [] ∧ ∀ l ∈ w.lanesIn s k g vs, ok s k g l

theorem acts_met {w : Form} {ok : State → Gang → Group → LaneIn → Prop} (s : State) (k : Gang) (g : Group)
    (h : (readyCheck s k g w && someOn s k g w) = true) (ho : ∀ l ∈ w.lanesIn s k g (readVals s k g w), ok s k g l) : ActsMet w ok :=
  have h := Bool.and_eq_true_iff.1 h
  ⟨s, k, g, _, ready_of h.1, someOn_lanes h.2, ho⟩

/-- The hypotheses of `ActsWhen` and of `ParksWhen` are met somewhere, with a guarded lane. -/
def WhenMet (w : Form) (ok : State → Gang → Group → List LaneIn → Prop) : Prop :=
  ∃ s k g vs, w.Ready s k g vs ∧ w.lanesIn s k g vs ≠ [] ∧ ok s k g (w.activeIn s k g vs)

theorem when_met {w : Form} {ok : State → Gang → Group → List LaneIn → Prop} (s : State) (k : Gang) (g : Group)
    (h : (readyCheck s k g w && someOn s k g w) = true) (ho : ok s k g (w.activeIn s k g (readVals s k g w))) : WhenMet w ok :=
  have h := Bool.and_eq_true_iff.1 h
  ⟨s, k, g, _, ready_of h.1, someOn_lanes h.2, ho⟩

/-- The same with the test gang current in a state made from the group. -/
theorem acts_on {w : Form} {ok : State → Gang → Group → LaneIn → Prop} (g : Group) (f : Mach → Mach := id)
    (h : (readyCheck (tOn tGang g f) tGang g w && someOn (tOn tGang g f) tGang g w) = true)
    (ho : ∀ l ∈ w.lanesIn (tOn tGang g f) tGang g (readVals (tOn tGang g f) tGang g w), ok (tOn tGang g f) tGang g l) : ActsMet w ok := acts_met _ _ _ h ho

theorem when_on {w : Form} {ok : State → Gang → Group → List LaneIn → Prop} (k : Gang) (g : Group) (f : Mach → Mach := id)
    (h : (readyCheck (tOn k g f) k g w && someOn (tOn k g f) k g w) = true)
    (ho : ok (tOn k g f) k g (w.activeIn (tOn k g f) k g (readVals (tOn k g f) k g w))) : WhenMet w ok := when_met _ _ _ h ho

/-- The test group with lane registers set. -/
def tGrp (v : SMap Word) : Group := { tGroup with threads := [{ placedThread with c := { v := v } }] }

/-- The test group with uniform registers set. -/
def tUni (s : SMap Word) : Group := { tGroup with s := s }

/-- Two threads in one gang, and the gang. -/
def tPair : Group := { tGroup with gsize := 2, threads := [{ tid := 0 }, { tid := 1 }] }
def tPairGang : Gang := { tGang with lanes := [0, 1] }

/-- A result known but for its machine. -/
theorem pair_of {α β : Type} {x : α × β} {b : β} (h : x.2 = b) : ∃ a, x = (a, b) := ⟨x.1, by rw [← h]⟩

end Sys2Proof.Machine
end

