-- ==== Sys2Proof/Tests/Runs.lean ====
section
/-! SUPPORT. Runs: witnesses for the statements about system words, emission, traps, runs, gangs, operands and the trap registers. -/

namespace Sys2Proof.Machine

set_option Elab.async false

/-- Numbers of some bytes put into device memory. -/
def tPut (ws : List (Nat × Nat × Nat)) (m : Mach) : Mach := { m with dmem := ws.foldl (fun d w => writeN d w.1 w.2.1 w.2.2) m.dmem }

/-- A cached translation of page 0 of VF 0 to itself. -/
def tPage (m : Mach) : Mach := { m with tlb := [{ vf := 0, vpn := 0, ppn := 0, host := false, w := true, x := true, d := true }] }

/-- A graph with its node table at 0x1000: node 1 takes records of 64 bytes into a queue of four places at 0x2000, of which `n` are taken. -/
def tGraph (n : Nat) (m : Mach) : Mach :=
  tPage (tPut [(0x1080 + 24, 4, 64), (0x1080 + 48, 8, 0x2000), (0x2000, 8, 0x3000), (0x2008, 4, 4), (0x2010, 4, n)]
    { m with vfs := [(0, { binds := [{ leaf := 0, table := 0x1000, count := 2, cols := 0 }] })] })
def tEmitter : Group :=
  { tGrp [(111, 65472#32)] with env := { recsz := 64, seglen := 1, table := 0x1000, emit := List.replicate 16 1 } }

/-- The form of `sysrd` of a register that is not long-latency. -/
def formSysrd (d a n : Nat) : Form := { c := true, srcs := [{ f := a }], dst := some { f := d, w := if n = 0x10 then 2 else 1 } }

/-- The records of the emitting gang into a queue with `n` places taken, or none. -/
def tEmitOut (n : Nat) : Option Mach :=
  emitAll (tOn tGang tEmitter (tGraph n)) tEmitter ((formA true none 111 true 1).activeIn (tOn tGang tEmitter (tGraph n)) tGang tEmitter
    (readVals (tOn tGang tEmitter (tGraph n)) tGang tEmitter (formA true none 111 true 1))) 15
def tEmitToldOut (n : Nat) : Option Mach :=
  emitTold (tOn tGang tEmitter (tGraph n)) tGang tEmitter ((formA true none 111 true 1).activeIn (tOn tGang tEmitter (tGraph n)) tGang tEmitter
    (readVals (tOn tGang tEmitter (tGraph n)) tGang tEmitter (formA true none 111 true 1))) 15 63

/-- System registers at both ends of their numbers; emission to successor 15 from the last bytes of the window, into the last place of a queue and into a full one. -/
theorem witness_SystemAndEmitWordsAct :
    (∀ w ∈ [formSysrd 111 123 0x17, formSysrd 110 123 0x10, formSysrd 119 111 0x14, formSysrd 118 123 0], Readies w)
    ∧ ActsMet { c := true, srcs := [{ f := 123 }], dst := some { f := 110, w := 2, long := true } } (fun s _ g l => longFull s.m g l = false)
    ∧ (∀ n ∈ [0x0A, 0x10, 0x16], sysWritable n = true ∧ ActsMet { c := true, srcs := [{ f := 110, w := if n = 0x10 then 2 else 1 }] } always)
    ∧ (∃ m', WhenMet (formA true none 111 true 1)
      (fun s k g ls => (∀ l ∈ ons ls, emitCheck s.cfg s.m g l 15 = none ∧ emitBusy s.m g l = false)
        ∧ emitAll s g ls 15 = some m' ∧ m'.gang? k.id = s.m.gang? k.id))
    ∧ ∀ n ∈ [3, 4], ∃ m', WhenMet (formA true none 111 true 1)
      (fun s k g ls => (∀ l ∈ ons ls, emitCheck s.cfg s.m g l 15 = none ∧ emitBusy s.m g l = false)
        ∧ emitTold s k g ls 15 63 = some m' ∧ m'.gang? k.id = s.m.gang? k.id) := by
  refine ⟨readies_all (by decide +kernel), acts_on tGroup id (by decide +kernel) (by decide +kernel),
    fun n hn => ⟨by revert n; decide, acts_on tGroup id (by revert n; decide +kernel) (fun _ _ => trivial)⟩, ?_, fun n hn => ?_⟩
  · have e : (tEmitOut 3).map (fun m => m.gang? 0) = some ((tOn tGang tEmitter (tGraph 3)).m.gang? 0) := by decide +kernel
    obtain ⟨m', h, h'⟩ := Option.map_eq_some_iff.1 e
    exact ⟨m', when_on tGang tEmitter (tGraph 3) (by decide +kernel) ⟨by decide +kernel, h, h'⟩⟩
  · have hw : (readyCheck (tOn tGang tEmitter (tGraph n)) tGang tEmitter (formA true none 111 true 1) && someOn (tOn tGang tEmitter (tGraph n)) tGang tEmitter (formA true none 111 true 1)) = true
        ∧ ∀ l ∈ ons ((formA true none 111 true 1).activeIn (tOn tGang tEmitter (tGraph n)) tGang tEmitter (readVals (tOn tGang tEmitter (tGraph n)) tGang tEmitter (formA true none 111 true 1))),
          emitCheck (tOn tGang tEmitter (tGraph n)).cfg (tOn tGang tEmitter (tGraph n)).m tEmitter l 15 = none ∧ emitBusy (tOn tGang tEmitter (tGraph n)).m tEmitter l = false := by
      revert n; decide +kernel
    have e : (tEmitToldOut n).map (fun m => m.gang? 0) = some ((tOn tGang tEmitter (tGraph n)).m.gang? 0) := by revert n; decide +kernel
    obtain ⟨m', h, h'⟩ := Option.map_eq_some_iff.1 e
    exact ⟨m', when_on tGang tEmitter (tGraph n) hw.1 ⟨hw.2, h, h'⟩⟩

/-- Trap words, and reserved encodings with and without the chain bit, `endrun` with it among them. -/
theorem witness_TrapWordsTrap :
    (∃ s k g vs, (formBare false (some qGuard)).Ready s k g vs ∧ (formBare false (some qGuard)).lanesIn s k g vs ≠ [])
    ∧ (∃ s k g vs, (formBare false none).Ready s k g vs)
    ∧ (∀ w ∈ [0x78000000, 0xFFFFFFFF, 0xF8000000], ¬ (chainBit w = true ∧ bitsOf w 25 6 = 0x3E)) ∧ chainBit 0xFC000000 = true ∧ bitsOf 0xFC000000 25 6 = 0x3E :=
  ⟨⟨_, _, _, _, ready_of (s := tState) (k := tGang) (g := tGroup) (by decide +kernel), someOn_lanes (by decide +kernel)⟩,
   ⟨_, _, _, _, ready_of (s := tState) (k := tGang) (g := tGroup) (by decide +kernel)⟩, by decide +kernel, by decide +kernel, by decide +kernel⟩

/-- A gang just formed in a group whose code segment is `n` packets of zeros but for a trailer at byte `t`. -/
def tFormed : Gang := { tGang with st := .formed, run := [] }
def tCoded (n : Nat) : Group := { tGroup with env := { seglen := n } }
def tCode (n t : Nat) : State := tOn tFormed (tCoded n) fun m => tPage (tPut [(t, 4, 0x7C000000)] m)

/-- A group whose code segment lies beyond the 2^57 bytes of an address space. -/
def tBeyond : Group := { tGroup with env := { code := 2 ^ 57, seglen := 1 } }

/-- Runs of one and of eight packets, a trailer in slot 1, eight packets without a trailer, seven with the code segment's end behind them, and a code segment
beyond the 2^57 bytes of an address space. -/
theorem witness_RunStartChecksTheRun :
    (∀ r ∈ [(1, 8), (8, 92)], ∃ m' ws, HasTurn (tCode r.1 r.2) tFormed (tCoded r.1) ∧ tFormed.st = .formed
      ∧ fetchOf (tCode r.1 r.2) tFormed (tCoded r.1) = (m', .run ws) ∧ runBad ws = none)
    ∧ (∀ r ∈ [(1, 4, 1), (8, 1000, 23)], ∃ m' ws, HasTurn (tCode r.1 r.2.1) tFormed (tCoded r.1) ∧ tFormed.st = .formed
      ∧ fetchOf (tCode r.1 r.2.1) tFormed (tCoded r.1) = (m', .run ws) ∧ runBad ws = some r.2.2)
    ∧ (∃ m', HasTurn (tCode 7 1000) tFormed (tCoded 7) ∧ tFormed.st = .formed ∧ fetchOf (tCode 7 1000) tFormed (tCoded 7) = (m', .space 7))
    ∧ (∃ m', HasTurn (tOn tFormed tBeyond) tFormed tBeyond ∧ tFormed.st = .formed ∧ fetchOf (tOn tFormed tBeyond) tFormed tBeyond = (m', .xlate (2 ^ 57)))
    ∧ tFormed.speculating tBeyond = [] := by
  have run (s : State) (g : Group) (h : (match (fetchOf s tFormed g).2 with | .run _ => true | _ => false) = true) :
      ∃ m' ws, fetchOf s tFormed g = (m', .run ws) ∧ fetchOf s tFormed g = (m', .run ws) := by
    cases hf : fetchOf s tFormed g with
    | mk m' r => cases r <;> simp_all
  refine ⟨fun r hr => ?_, fun r hr => ?_, ⟨_, ⟨by decide +kernel, rfl, rfl⟩, rfl, Prod.ext rfl (by decide +kernel)⟩,
    ⟨_, ⟨by decide +kernel, rfl, rfl⟩, rfl, Prod.ext rfl (by decide +kernel)⟩, by decide⟩
  · have h : (fetchOf (tCode r.1 r.2) tFormed (tCoded r.1)).2 = .run (List.replicate (3 * r.1 - 1) 0#32 ++ [0x7C000000#32])
        ∧ runBad (List.replicate (3 * r.1 - 1) 0#32 ++ [0x7C000000#32]) = none ∧ (tCode r.1 r.2).m.curGang = some (tFormed, tCoded r.1) := by
      revert r; decide +kernel
    exact ⟨_, _, ⟨h.2.2, rfl, rfl⟩, rfl, Prod.ext rfl h.1, h.2.1⟩
  · have h : (match (fetchOf (tCode r.1 r.2.1) tFormed (tCoded r.1)).2 with | .run ws => runBad ws == some r.2.2 | _ => false) = true
        ∧ (tCode r.1 r.2.1).m.curGang = some (tFormed, tCoded r.1) := by revert r; decide +kernel
    obtain ⟨m', ws, hf, -⟩ := run (tCode r.1 r.2.1) (tCoded r.1) (by revert r; decide +kernel)
    rw [hf] at h
    exact ⟨m', ws, ⟨h.2, rfl, rfl⟩, rfl, hf, by simpa using h.1⟩

/-- A group of two threads in no gang. -/
def tIdle (g : Group) : State := { State.reset with m := { State.reset.m with groups := [g], nextGid := 1 } }

/-- One row, and fifteen gang slots taken; rows that have starved. -/
theorem witness_GangsFormInTableOrder :
    (slotsUsed (tIdle tPair).m 0 0 0 < 16 ∧ pcTable (tIdle tPair).m 0 0 0 ≠ [] ∧ ∀ x ∈ pcTable (tIdle tPair).m 0 0 0, x.starved (tIdle tPair) 0 0 0 = false)
    ∧ ∃ s : State, slotsUsed s.m 0 0 0 = 15 ∧ pcTable s.m 0 0 0 ≠ [] ∧ ∃ x ∈ pcTable s.m 0 0 0, x.starved s 0 0 0 = true :=
  ⟨by decide +kernel, { tIdle tPair with m := { (tIdle tPair).m with
      cores := [(0, { round0 := 64 })], gangs := (List.range 15).map fun i => { tGang with id := i, lanes := [1], quads := [1] } } }, by decide +kernel⟩

/-- A gang at a trailer with J, whose lane took a `yield`. -/
def tEnding : Gang := { tGang with st := .trailer, run := [0x7D000000#32] }
def tYielder : Group := { tGroup with threads := [{ placedThread with yieldNext := true }] }

/-- A lane under a join hold and a yield since round `r`, in half 0 at round 64. -/
def tHeld (r : Nat) : Group := { tGroup with threads := [{ placedThread with joinAt := some r, yieldAt := some r }] }
def tRound (g : Group) : State := tOn tGang g fun m => { m with gangs := [], cores := [(0, { round0 := 64 })] }

/-- A trailer with J and a lane that took a yield, whose last write has landed and has not; a join hold and a yield of 64 and of 63 rounds; a hold whose lanes may replay. -/
theorem witness_TrailersRetireAndHoldsEnd :
    (∃ (s : State) (k : Gang) (g : Group), s.m.curGang = some (k, g))
    ∧ (∀ due ∈ [0, 1], ∃ (s : State) (k : Gang) (g : Group) (x : Thread), HasTurn s k g ∧ k.st = .trailer ∧ gangLanded s.m k g = (due == 0)
      ∧ (∀ t, exec .trailerRetire s = .next t → 0 ∈ k.lanes ∧ g.thread? 0 = some x ∧ g.halves.getD (0 / 64) 0 = k.half ∧ k.trailer.j = true ∧ x.yieldNext = true))
    ∧ (∀ r ∈ [0, 1], (joinHeld (tRound (tHeld r)).m 0 0 0).map (fun h => (h.gid, h.quad, h.since)) = [(0, 0, r)] ∧ (tHeld r).live 0 0 = true
      ∧ (tRound (tHeld r)).m.group? 0 = some (tHeld r) ∧ (tHeld r).halves.getD (0 / 64) 0 = 0 ∧ (64 ≤ ((tRound (tHeld r)).m.core 0 0).rounds 0 - r ↔ r = 0))
    ∧ ∃ (s : State) (g : Group) (h : Hold), s.m.group? 0 = some g ∧ g.stage = .resident ∧ g.frozen = false ∧ g.holds[0]? = some h ∧ h.trapped = [] ∧ h.waiting ≠ []
      ∧ slotsUsed s.m g.column g.core (g.halves.getD h.win 0) < 16 ∧ ∀ l ∈ h.waiting, l / 4 ∉ s.m.busyQuads 0 :=
  ⟨⟨tState, tGang, tGroup, by decide +kernel⟩,
   fun due hd => ⟨tOn { tEnding with uniDue := due } tYielder, { tEnding with uniDue := due }, tYielder, { placedThread with yieldNext := true },
     ⟨by revert due; decide +kernel, rfl, rfl⟩, rfl, by revert due; decide +kernel, fun _ _ => ⟨List.mem_cons_self .., rfl, rfl, (by decide : tEnding.trailer.j = true), rfl⟩⟩,
   fun r hr => by revert r; decide +kernel,
   ⟨tIdle { tPair with holds := [{ pc := 0xFFFFFFFF, hnd := false, half := 0, win := 0, trapped := [], waiting := [0, 1] }] }, _, _, rfl, rfl, rfl, rfl, rfl, by decide, by decide +kernel,
     by decide +kernel⟩⟩

/-- Operands at the ends of the register fields: a pair whose second register is beyond the acquired count, or empty; a held value one and two slots on. -/
theorem witness_OperandsReadAsR75Says :
    (∃ (cnt : Nat) (c : Ctx) (x : Src) (n : Nat), x.f ≤ 111 ∧ n < x.w ∧ (∀ i < n, x.f + i < cnt ∧ c.notFull.getLsbD (x.f + i) = false) ∧ cnt ≤ x.f + n)
    ∧ (∃ (cnt : Nat) (c : Ctx) (x : Src) (n : Nat), x.f ≤ 111 ∧ n < x.w ∧ (∀ i < n, x.f + i < cnt ∧ c.notFull.getLsbD (x.f + i) = false) ∧ x.f + n < cnt
      ∧ c.notFull.getLsbD (x.f + n) = true)
    ∧ (∃ (cnt : Nat) (c : Ctx) (x : Src), x.f ≤ 111 ∧ ∀ i < x.w, x.f + i < cnt ∧ c.notFull.getLsbD (x.f + i) = false)
    ∧ ∀ f ∈ [112, 119, 120, 122, 123], f = 123 ∨ (112 ≤ f ∧ f ≤ 119) ∨ (120 ≤ f ∧ f ≤ 122) :=
  ⟨⟨111, {}, { f := 110, w := 2 }, 1, by decide +kernel⟩, ⟨112, { notFull := BitVec.ofNat 256 (2 ^ 111) }, { f := 110, w := 2 }, 1, by decide +kernel⟩,
   ⟨112, {}, { f := 110, w := 2 }, by decide +kernel⟩, by decide⟩

theorem issues_tState (k : Gang) (g : Group) (h : (readyCheck (tOn k g) k g { c := false } && k.mode == .solo) = true) : Issues (tOn k g) k g := by
  have h := ready_of (Bool.and_eq_true_iff.1 h).1
  exact ⟨h.cur, h.solo, h.some, h.plain⟩

/-- A chain bit in slot 2; field 127; a register above the acquired count of 248; an empty v111. -/
theorem witness_MalformedWordsAndOperandTrapsTakeNoEffect :
    (∃ s k g, Issues s k g ∧ (formR { fMod with c := true } none accArith 1).chainOk k.slot = false)
    ∧ (∃ s k g, Issues s k g ∧ (formR { fMod with a := 127 } none accArith 1).chainOk k.slot = true ∧ (formR { fMod with a := 127 } none accArith 1).legal = false)
    ∧ (∃ s k g, Issues s k g ∧ (formR { fMod with a := 111 } none accArith 1).chainOk k.slot = true ∧ (formR { fMod with a := 111 } none accArith 1).legal = true
      ∧ ∃ x ∈ activeLanes k g, ((formR { fMod with a := 111 } none accArith 1).trapIn s k g x).isSome = true)
    ∧ ∃ s k g, Issues s k g ∧ (formR { fMod with a := 111 } none accArith 1).chainOk k.slot = true ∧ (formR { fMod with a := 111 } none accArith 1).legal = true
      ∧ (∀ x ∈ activeLanes k g, (formR { fMod with a := 111 } none accArith 1).trapIn s k g x = none)
      ∧ ∃ x ∈ activeLanes k g, rdAll g.acquired k.slot k.first (issueCycle s.m k g) x.c (formR { fMod with a := 111 } none accArith 1).srcs = .wait :=
  ⟨⟨_, _, _, issues_tState { tGang with slot := 2, first := 2 } tGroup (by decide +kernel), by decide +kernel⟩,
   ⟨_, _, _, issues_tState tGang tGroup (by decide +kernel), by decide +kernel, by decide +kernel⟩,
   ⟨_, _, _, issues_tState tGang { tGroup with hold := { reg := 13 } } (by decide +kernel), by decide +kernel, by decide +kernel, by decide +kernel⟩,
   ⟨_, _, _, issues_tState tGang { tGroup with threads := [{ placedThread with c := { notFull := BitVec.ofNat 256 (2 ^ 111) } }] } (by decide +kernel), by decide +kernel, by decide +kernel,
     by decide +kernel, by decide +kernel⟩⟩

/-- A lane of a region with a handler. -/
def tHandled : Group := { tGroup with env := { hbase := 12, hentry := 1, hseg := 2, seglen := 8 } }

theorem witness_HandledTrapsWriteTheTrapRegisters : ∃ (m : Mach) (k : Gang) (g : Group) (x : Thread), m.group? k.gid = some g ∧ g.thread? 0 = some x ∧ 23 < 24
    ∧ Cause.fatal .swtrap = false ∧ g.env.hbase ≠ 0 ∧ x.hnd = false :=
  ⟨(tOn tGang tHandled).m, tGang, tHandled, placedThread, rfl, rfl, by decide, rfl, by decide, rfl⟩

/-- A lane in the handler for the trap of slot 23. -/
def tTrapped : Thread := { placedThread with hnd := true, tslot := 23, entrySlot := 23, trappc := 5, entryPc := 5 }

theorem witness_ExitAndTrapReturnEndRuns :
    (∃ m', WhenMet (formBare false (some qGuard)) fun s k _ ls =>
      drainPixels s.cfg ((((ons ls).foldl (fun m l => m.exitPixel l.t) s.m).mapLanes k.gid (ons ls) fun _ t =>
        { takenTo k 0 t with exited := true }).checkBarrier k.gid) = m' ∧ m'.gang? k.id = s.m.gang? k.id)
    ∧ ActsMet (formBare true none) (fun _ _ _ l => l.t.hnd = true ∧ l.t.retCase ≠ .runform)
    ∧ (∃ x : Thread, 23 < x.tslot) ∧ (∃ x : Thread, x.tslot ≤ 23 ∧ x.trappc = x.entryPc ∧ x.cr = true)
    ∧ (∃ x : Thread, x.tslot ≤ 23 ∧ x.trappc = x.entryPc ∧ x.cr = false ∧ x.entrySlot ≤ x.tslot) ∧ (∃ x : Thread, x.trappc ≠ x.entryPc ∧ x.tslot = 0)
    ∧ ∃ x : Thread, (x.trappc ≠ x.entryPc ∧ x.tslot ≠ 0) ∨ (x.trappc = x.entryPc ∧ x.cr = false ∧ x.tslot < x.entrySlot) :=
  ⟨⟨_, when_on tGang tPair id (by decide +kernel) ⟨rfl, by decide +kernel⟩⟩, acts_on { tGroup with threads := [tTrapped] } id (by decide +kernel) (by decide +kernel),
   ⟨{ tTrapped with tslot := 24 }, by decide⟩, ⟨{ tTrapped with cr := true }, by decide⟩, ⟨tTrapped, by decide⟩, ⟨{ tTrapped with trappc := 6, tslot := 0 }, by decide⟩,
   ⟨{ tTrapped with tslot := 22 }, by decide⟩⟩

theorem witness_PredicateZeroIsHardWired : (0 < 1 ∧ 1 < 64) ∧ 0 < 63 ∧ 63 < 64 := by decide

end Sys2Proof.Machine
end

