-- ==== Sys2Proof/Tests/Accesses.lean ====
section
/-! SUPPORT. Accesses: witnesses for the statements about queued accesses, walks, sectors, fault domains and holdings. -/

namespace Sys2Proof.Machine

set_option Elab.async false

theorem due_of {m : Mach} {col core idx : Nat} {a : Acc} {g : Group}
    (h : (m.core col core).accs[idx]? = some a ∧ m.group? a.gid = some g ∧ a.st = .ready ∧ g.frozen = false
      ∧ (∀ e ∈ (m.core col core).accs.take idx, m.holds g e a = false ∧ m.portHolds e a = false) ∧ m.placeFree g a = true ∧ m.accLost g a = false) :
    Due m col core idx a g :=
  ⟨h.1, h.2.1, h.2.2.1, h.2.2.2.1, h.2.2.2.2.1, h.2.2.2.2.2.1, h.2.2.2.2.2.2⟩

/-- A state whose one queued access is `a`, with page 0 cached. -/
def tAcc (a : Acc) : State := tOn tGang tGroup fun m => tPage { m with cores := [(0, { accs := [a] })] }

/-- An access of the test thread. -/
def tAccess (op : AOp) (path : Path) (addr size : Nat) : Acc := { gid := 0, tid := 0, op := op, path := path, addr := addr, size := size, dsts := [111], scope := 2 }

/-- Loads at the ends of the window, of tower 47 and of a page, plain, as an acquire, and without a cached translation; a value whose cycle has come. -/
theorem witness_LoadsPerform :
    (∀ a ∈ [tAccess (.load 4 false) .scr 65532 4, { tAccess (.load 1 true) .scr 65535 1 with ord := 1, scope := 0 }, { tAccess (.load 16 false) .tow 8388592 16 with tow := 47 },
        tAccess (.load 16 false) .glob 65520 16, { tAccess (.load 8 false) .glob 65528 8 with ord := 1 }, tAccess (.load 4 false) .glob 65536 4],
      Due (tAcc a).m 0 0 0 a tGroup ∧ a.spec = false ∧ a.commit = false)
    ∧ (∃ (m : Mach) (a : Acc), a.op = .value 7 ∧ a.due ≤ (m.core 0 0).clk ∧ m.thread? a.gid a.tid = some placedThread)
    ∧ (tAcc (tAccess (.load 16 false) .glob 65520 16)).m.tlbHit tGroup.env.vf 65520 false false = some 65520
    ∧ (tAcc (tAccess (.load 4 false) .glob 65536 4)).m.tlbHit tGroup.env.vf 65536 false false = none :=
  ⟨fun a ha => ⟨due_of (by revert a; decide +kernel), by revert a; decide⟩, ⟨(tOn tGang tGroup).m, tAccess (.value 7) .glob 0 4, rfl, by decide, rfl⟩,
   by decide +kernel, by decide +kernel⟩

/-- Stores at the same ends; a release at its home. -/
theorem witness_StoresPerform :
    (∀ a ∈ [tAccess (.store 4 7) .scr 65532 4, { tAccess (.store 16 7) .tow 8388592 16 with tow := 47 }, tAccess (.store 16 7) .glob 65520 16,
        { tAccess (.store 8 7) .glob 65528 8 with ord := 2 }], Due (tAcc a).m 0 0 0 a tGroup
      ∧ Memory.wf (tAcc a).m.smem ∧ Memory.wf (tAcc a).m.tmem ∧ Memory.wf (tAcc a).m.dmem ∧ Memory.wf (tAcc a).m.hmem)
    ∧ (tAcc (tAccess (.store 16 7) .glob 65520 16)).m.tlbHit tGroup.env.vf 65520 true false = some 65520
    ∧ atHome { tAccess (.store 8 7) .glob 65528 8 with ord := 2 } = true :=
  ⟨fun a ha => ⟨due_of (by revert a; decide +kernel), by revert a; decide +kernel⟩, by decide +kernel, by decide⟩

theorem witness_AtomicsPerform :
    (∀ a ∈ [tAccess (.atom 9 1 0) .scr 65532 4, tAccess (.atom 12 1 0) .glob 65532 4, { tAccess (.scLoad 8) .glob 65528 8 with ord := 3, scope := 4 }],
      Due (tAcc a).m 0 0 0 a tGroup ∧ Memory.wf (tAcc a).m.smem ∧ Memory.wf (tAcc a).m.dmem ∧ Memory.wf (tAcc a).m.hmem ∧ a.scope ≠ 0 ∧ a.spec = false
        ∧ a.commit = false)
    ∧ tGroup.filter = 0 ∧ tGroup.thread? 0 = some placedThread
    ∧ (tAcc (tAccess (.atom 12 1 0) .glob 65532 4)).m.tlbHit tGroup.env.vf 65532 true false = some 65532 :=
  ⟨fun a ha => ⟨due_of (by revert a; decide +kernel), by revert a; decide +kernel⟩, rfl, rfl, by decide +kernel⟩

theorem witness_CachedBytesReadBack : ∃ (m : Mach) (pa n b k : Nat), (∀ x ∈ (m.core 0 0).l1, Memory.wf x.data) ∧ 0 < n ∧ pa % 64 + n ≤ 64
    ∧ 0 < k ∧ b % 64 + k ≤ 64 ∧ (b + k ≤ pa ∨ pa + n ≤ b) :=
  ⟨{ cores := [(0, { l1 := [{ sec := 1, filled := true, data := [], dirty := 1, fillAt := 0, dirtyAt := 0 }] })] }, 112, 16, 96, 16, by decide +kernel⟩

/-- Page tables at both stages: the first GiB maps to itself, the second is absent, the third pending, the fourth lies outside stage 2, the fifth is pending there,
and the entry of the ninth cannot be read. -/
def tTables (m : Mach) : Mach :=
  tPut [(0x200000, 8, 0x400001), (0x400000, 8, 0xF), (0, 8, 0x1001), (0x1000, 8, 0xF), (0x1010, 8, 6), (0x1018, 8, 0xC000000F), (0x1020, 8, 0x10000000F), (0x400020, 8, 6)]
    { m with lost := [0x41] }
def tWalk (a : Acc) (t : Nat) : State :=
  { tOn tGang tGroup fun m => tTables { m with cores := [(0, { accs := [a] })], etime := t } with cfg := { parts := [(0, { s2root := 0x200000 })] } }
def tMiss (va : Nat) : Acc := { tAccess (.load 4 false) .glob va 4 with st := .missing }

/-- The walk of one missing load ends as `r` says. -/
def walkEnds (va : Nat) (r : TransRes) : Bool :=
  (tWalk (tMiss va) 0).m.accAt 0 0 0 == some (tGroup, tMiss va)
    && (translateWalk (tWalk (tMiss va) 0).cfg (tWalk (tMiss va) 0).m 0 va false false).2 == r
def tEnt : TlbEnt := { vf := 0, vpn := 16383, bits := 30, ppn := 16383, host := false, w := true, x := true, d := false }
def tWait (va : Nat) : Acc := { tMiss va with st := .pending 0 0 (va == 0x100000000) }

/-- Walks that end in each of the six ways. -/
theorem witness_WalksEndAsTheEntrySays_walks :
    walkEnds 0x3FFFFFFC (.ok tEnt) = true ∧ walkEnds 0x80000000 (.pending false) = true ∧ walkEnds 0x100000000 (.pending true) = true
      ∧ walkEnds 0x200000000 .lost = true ∧ walkEnds 0x40000000 .fail1 = true
      ∧ walkEnds 0xC0000000 .fail2 = true := by decide +kernel

/-- Pending entries 2 µs on, a moment before, and 1 ms on. -/
theorem witness_WalksEndAsTheEntrySays_pending :
    ((tWalk (tWait 0x3FFFFFFC) 2000000).m.accAt 0 0 0 = some (tGroup, tWait 0x3FFFFFFC) ∧ 0 + 2000000 ≤ (tWalk (tWait 0x3FFFFFFC) 2000000).m.etime
      ∧ (translateWalk (tWalk (tWait 0x3FFFFFFC) 2000000).cfg (tWalk (tWait 0x3FFFFFFC) 2000000).m 0 0x3FFFFFFC false false).2 = .ok tEnt)
    ∧ ((tWalk (tWait 0x80000000) 1999999).m.accAt 0 0 0 = some (tGroup, tWait 0x80000000)
      ∧ 0 + 2000000 > (tWalk (tWait 0x80000000) 1999999).m.etime)
    ∧ ((tWalk (tWait 0x80000000) 1000000000).m.accAt 0 0 0 = some (tGroup, tWait 0x80000000)
      ∧ 0 + 1000000000 ≤ (tWalk (tWait 0x80000000) 1000000000).m.etime ∧ (tWait 0x80000000).spec = false
      ∧ (tWait 0x80000000).op = .load 4 false ∧ (tWait 0x80000000).st = .pending 0 0 false)
    ∧ (tWalk (tWait 0x100000000) 1000000000).m.accAt 0 0 0 = some (tGroup, tWait 0x100000000) ∧ (tWait 0x100000000).st = .pending 0 0 true := by decide +kernel

/-- An access to another module, 100 µs on. -/
def tFar : State :=
  tOn tGang tGroup fun m => { m with cores := [(0, { accs := [tMiss 65532] })], etime := 100000000
                                     tlb := [{ vf := 0, vpn := 0, ppn := 0x4000000, host := false, w := true, x := true, d := true }] }
theorem witness_WalksEndAsTheEntrySays_fabric :
    tFar.m.accAt 0 0 0 = some (tGroup, tMiss 65532) ∧ (tMiss 65532).path = .glob
      ∧ tFar.m.tlbHit tGroup.env.vf 65532 false false = some 0x4000000FFFC
      ∧ 0x4000000FFFC < hostBase ∧ 0x4000000FFFC / 2 ^ 42 % 2 ^ 14 ≠ tFar.m.module ∧ (tMiss 65532).since + 100000000 ≤ tFar.m.etime := by decide +kernel

/-- A filled sector whose last byte is dirty. -/
def tSector : Sector := { sec := 1023, filled := true, data := setByte [] 63 255, dirty := BitVec.ofNat 64 (2 ^ 63), fillAt := 0, dirtyAt := 0 }
def tCore : State := tOn tGang tGroup fun m => { m with cores := [(0, { l1 := [tSector], clk := 1 })] }

theorem witness_SectorsAgeAndResultsLand :
    ((tCore.m.core 0 0).l1[0]? = some tSector ∧ (tCore.m.core 0 0).sector? (tSector.sec * 64) = some tSector ∧ Memory.wf tCore.m.dmem ∧ Memory.wf tCore.m.hmem
      ∧ 0 < (tCore.m.core 0 0).clk ∧ tSector.dirty.getLsbD 63 = true ∧ tSector.filled = true)
    ∧ tCore.m.group? 0 = some tGroup ∧ tGroup.column = 0 ∧ tGroup.core = 0 ∧ tGroup.stage = .resident := by decide +kernel

/-- Two groups of VF 0 in regions 1 and 2, with a stop queued for region 1, and one for the partition. -/
def tRegion (i r : Nat) : Group := { placedGroup i with env := { fdroot := r, path := [r], seglen := 1 } }
def tStops : State := { State.reset with m := { State.reset.m with groups := [tRegion 0 1, tRegion 1 2], gangs := [tGang], stops := [(0, 256 + 8), (0, 256 * wholePartition)] } }

/-- The test group with a handler of `hbase` and its thread in or out of one. -/
def tDomain (hbase : Nat) (hnd : Bool) : Group :=
  { tGroup with env := { tGroup.env with hbase := hbase, seglen := 1 }, threads := [{ placedThread with hnd := hnd }] }

theorem witness_FaultDomainsStop :
    (∀ r ∈ [(Cause.space, 12, false), (.swtrap, 0, false), (.swtrap, 12, true)],
      (tOn tGang (tDomain r.2.1 r.2.2)).m.group? tGang.gid = some (tDomain r.2.1 r.2.2)
      ∧ (tDomain r.2.1 r.2.2).thread? 0 = some { placedThread with hnd := r.2.2 }
      ∧ (r.1.fatal = true ∨ (tDomain r.2.1 r.2.2).env.hbase = 0 ∨ r.2.2 = true))
    ∧ tStops.m.stops[0]? = some (0, 264) ∧ 264 / 256 ≠ wholePartition ∧ 264 / 256 ∉ (tStops.m.vf 0).stopped
    ∧ (tStops.m.group? 0 = some (tRegion 0 1) ∧ (tRegion 0 1).inTree 0 (264 / 256) = true)
    ∧ tStops.m.group? 1 = some (tRegion 1 2) ∧ (∀ x ∈ tStops.m.groups, x.gid = 1 → x.inTree 0 (264 / 256) = false ∧ ¬ (x.env.vf = 0 ∧ 264 / 256 ∈ x.env.path ∧ x.stage = .queued))
    ∧ tStops.m.stops[1]? = some (0, 256 * wholePartition) ∧ (tRegion 1 2).env.vf = 0 ∧ (tRegion 1 2).haltable = true := by decide +kernel

/-- A release of all 32 register units, which no queued load holds; a group that is over. -/
def tReleasing : Group := { tGroup with rels := [{ gang := 0, kind := 0, n := 32 }] }
def tOver : Group := { tGroup with threads := [{ placedThread with exited := true }] }

theorem witness_HoldingsReturn :
    ((tOn tGang tReleasing).m.group? 0 = some tReleasing ∧ tReleasing.stage = .resident
      ∧ tReleasing.rels.find? (relIdle (tOn tGang tReleasing).m tReleasing) = some { gang := 0, kind := 0, n := 32 }
      ∧ ((tOn tGang tReleasing).m.core tReleasing.column tReleasing.core).waiters = [])
    ∧ (tIdle tOver).m.group? 0 = some tOver ∧ tOver.over = true
    ∧ groupIdle { (tIdle tOver).m with cores := (tIdle tOver).m.cores.map fun (e : Nat × Core) => (e.1, e.2.dropFaulted 0) } tOver = true := by decide +kernel

end Sys2Proof.Machine
end

