-- ==== Sys2Proof/Tests/Units.lean ====
section
/-! SUPPORT. Units: witnesses for the statements about words that act on units: the banker, queues, engines, surfaces, the matrix engine, system registers, successors'
queues, and traps. -/

namespace Sys2Proof.Machine

set_option Elab.async false

/-- A group that claims all 128 SCR granules and holds one, and another that holds the rest. -/
def tClaim : Group := { tGroup with claim := { reg := 32, scr := 128, msl := 8, spc := 1 } }
def tRival (m : Mach) : Mach :=
  { m with groups := m.groups ++ [{ placedGroup 1 with claim := { scr := 127 }, hold := { scr := 127 } }] }

/-- A group that binds queues 0 and 6 of its core, queue 6 with one entry left, at the last bytes of the window. -/
def tQueues (v : SMap Word) : Group :=
  { tGrp v with queues := [{ num := 0, base := 0, qn := 8 }, { num := 6, base := 65472, qn := 8, head := 0, tail := 7 }] }

theorem witness_ResourceAndQueueWordsAct :
    WhenMet (formBare true none) (fun s k g _ => k.ack = false ∧ k.asked = false ∧ claimCheck s.m g 1 127 = none ∧ requestStatus s.cfg s.m g 1 127 = 0)
    ∧ WhenMet (formBare false (some qGuard))
      (fun s k g ls => ons ls ≠ [] ∧ k.ack = false ∧ k.asked = false ∧ claimCheck s.m g 1 1 = none ∧ requestStatus s.cfg s.m g 1 1 ≠ 0)
    ∧ ActsMet { c := false, dst := some { f := 111 } } (fun s _ g _ => claimCheck s.m g 1 1 = none)
    ∧ WhenMet (formBare true none) (fun _ k g ls => ons ls ≠ [] ∧ k.ack = false ∧ k.asked = false ∧ 32 ≤ g.hold.kind 0)
    ∧ ActsMet (formBare true none) (fun _ k _ _ => k.ack = true)
    ∧ WhenMet { c := false, acc := { hb := true }, srcs := [{ f := 110, mm := true, w := 2 }, { f := 119, mm := false, cyc := 1 }] }
      (fun s _ g ls => firstFull s.m g 6 ls = none ∧ ∀ l ∈ ons ls, accPending s.m g l.t.tid = false ∧ acqPending s.m g l.t.tid = false
        ∧ inCluster g (l.val 1) = true
        ∧ ∀ x, sendBytes s.m g 6 (l.val 1) (l.val 0) = some x → s.m.winLocked x.1 x.2.1 x.2.2 = false ∧ s.m.winLost x.1 x.2.1 x.2.2 = false)
    ∧ WhenMet { c := false, acc := { hb := true }, srcs := [{ f := 110, mm := true, w := 2 }, { f := 119, mm := false, cyc := 1 }] }
      (fun s _ g ls => firstFull s.m g 7 ls = none ∧ ∀ l ∈ ons ls, accPending s.m g l.t.tid = false ∧ acqPending s.m g l.t.tid = false
        ∧ inCluster g (l.val 1) = true ∧ arrives s.m g ls l = true
        ∧ ∀ x, sendBytes s.m g 7 (l.val 1) (l.val 0) = some x → s.m.winLocked x.1 x.2.1 x.2.2 = false ∧ s.m.winLost x.1 x.2.1 x.2.2 = false)
    ∧ ActsMet { c := true, dst := some { f := 110, w := 2, long := true } }
      (fun s _ g l => 6 ≠ 7 ∧ (g.queues.any fun x => x.num == 6) = true ∧ memBusy true s.m g l = false)
    ∧ ActsMet (formCvt false (some qGuard) 123 111 true 1 1) (fun _ _ g l => inCluster g (l.val 0) = true) :=
  ⟨when_on tGang tClaim id (by decide +kernel) (by decide +kernel), when_on tGang tClaim tRival (by decide +kernel) (by decide +kernel),
   acts_on tClaim tRival (by decide +kernel) (by decide +kernel), when_on tGang tGroup id (by decide +kernel) (by decide +kernel),
   acts_met (tOn { tGang with ack := true } tGroup) { tGang with ack := true } tGroup (by decide +kernel) (by decide +kernel),
   when_on tGang (tQueues []) id (by decide +kernel) (by decide +kernel),
   when_on tGang (tQueues [(110, 65520#32), (111, 0x000FFFFF#32)]) (fun m => m.putPhase 0 65520 { pend := 1048575, expect := 1, bal := 0, ph := 0 })
     (by decide +kernel) (by decide +kernel),
   acts_on (tQueues []) id (by decide +kernel) (by decide +kernel), acts_on (tGrp [(111, 3#32)]) id (by decide +kernel) (by decide +kernel)⟩

/-- Uniform registers of engine words: the last request of the window with the last object, a release of a tile and a fill of 64 rows of 256 bytes. -/
def tEngine : SMap Word := [(0, 65472#32), (1, 65520#32), (2, 0xFFFFFFFF#32), (3, 65504#32), (55, 0xFFFFFFF0#32), (56, 0x1FFFFFF#32), (57, 0x1040#32), (58, 0#32), (59, 49152#32)]

/-- `tdef` of a full tile at the end of the window and of an empty one; `kick` and `bankjob` at the end of the window, with and without an object. -/
theorem witness_EngineWordsAct :
    (∀ a ∈ [55, 59], ActsMet (formBare false (some qGuard))
      fun s k g l => (tileDesc s.m k g a).2 = 0 ∧ (tileDesc s.m k g a).1.bad g = false
        ∧ ((s.m.core g.column g.core).tile 63).foreign g.gid = false ∧ accPending s.m g l.t.tid = false ∧ acqPending s.m g l.t.tid = false
        ∧ (((s.m.core g.column g.core).tile 63).gid = g.gid → ((s.m.core g.column g.core).tile 63).moving = false))
    ∧ ActsMet (formBare true none) (fun s _ g _ => ((s.m.core g.column g.core).tile 63).foreign g.gid = false)
    ∧ ActsMet (formBare true none)
      (fun s k g l => badReqAt g (uniRead s k g 0).toNat = false ∧ badObj g (uniRead s k g (0 + 1)).toNat = false
        ∧ accPending s.m g l.t.tid = false ∧ acqPending s.m g l.t.tid = false ∧ (s.m.core g.column g.core).kicks.length < 16)
    ∧ ActsMet (formBare true none)
      (fun s k g l => cardBad s.cfg s.m g (uniRead s k g 0).toNat = false ∧ badObj g (uniRead s k g (0 + 1)).toNat = false
        ∧ towPending s.m g l.t.tid = false ∧ accPending s.m g l.t.tid = false ∧ acqPending s.m g l.t.tid = false
        ∧ s.m.winLocked g.gid (uniRead s k g 0).toNat (16 * (readCard s.m g 32 (uniRead s k g 0).toNat).1.length + 16) = false) :=
  ⟨fun a ha => acts_on (tUni tEngine) id (by decide +kernel) (by revert a; decide +kernel), acts_on tGroup id (by decide +kernel) (by decide +kernel),
   acts_on (tUni tEngine) id (by decide +kernel) (by decide +kernel), acts_on (tUni tEngine) id (by decide +kernel) (by decide +kernel)⟩

/-- A machine with a live surface of format 2, whose handle stands in uniform register 63. -/
def tSurf : Surf :=
  { vf := 0, idx := 15, tag := 0xFFFF, st := 1, seed := 47, twin := 0, layers := 0, fmt := 2, height := 16, width := 16, rcb := 0, smap := 0, back := 0 }
def tSurfs (m : Mach) : Mach := { m with surfs := [tSurf], vfs := [(0, { surfcnt := 16 })] }
def tHandle : Group := { tUni [(63, 0xFFFF000F#32)] with env := { recsz := 64, seglen := 1, role := 3 } }

/-- Pixel threads, whose draw has eight targets. -/
def tPixels : Group := { tHandle with threads := [{ placedThread with pixel := some { cov := true, ent := none, nt := 8, early := false } }] }

/-- Surface words on a handle at the end of its table; a texel of four registers at v108 and from the last temporaries; exports to target 7; a draw of 16 bits. -/
theorem witness_SurfaceAndExportWordsAct :
    WhenMet (formSurf { c := false, d := 108, a := 118, s := 63 } none (some { f := 108, long := true }))
      (fun s k g ls => texelFits s k g { c := false, d := 108, a := 118, s := 63 } ∧ ∀ l ∈ ons ls, surfCheck s.m g (uniRead s k g 63) = none
        ∧ memBusy true s.m g l = false
        ∧ ∀ n ∈ Dst.regs { f := 108, w := handleRegs s.m g (uniRead s k g 63) }, l.t.c.notFull.getLsbD n = false)
    ∧ (∃ data : LaneIn → Nat, WhenMet { c := false, srcs := [{ f := 110, w := 2 }, { f := 116, cyc := 1 }] }
      (fun s k g ls => (∀ l ∈ ls, sustData s.m k g l 116 (handleRegs s.m g (uniRead s k g 63)) = .ok [l.val 0, data l])
        ∧ ∀ l ∈ ons ls, surfCheck s.m g (uniRead s k g 63) = none ∧ texelForm 116 (handleRegs s.m g (uniRead s k g 63)) = none
          ∧ memBusy false s.m g l = false))
    ∧ (∀ lod ∈ [false, true], ActsMet (formTex { c := true, d := 108, a := 108, s := 63 } none lod)
      (fun s k g l => surfCheck s.m g (uniRead s k g 63) = none ∧ memBusy true s.m g l = false))
    ∧ ActsMet (formA false (some qGuard) 111 true 1) (fun _ _ g l => g.env.role = 3 ∧ (l.t.pixel.map (·.early)).getD false = false)
    ∧ ActsMet (formA true none 108 true 4) (fun _ _ g l => g.env.role = 3 ∧ 7 < (l.t.pixel.map (·.nt)).getD 8)
    ∧ ActsMet (formCvt false (some qGuard) 119 111 true 1 1) (fun _ _ _ l => l.val 0 ≤ 65535)
    ∧ WhenMet (formBare true none)
      (fun s k g ls => ons ls ≠ [] ∧ s.m.handle g.env.vf (uniRead s k g 63) = .ok tSurf ∧ (∀ l ∈ ons ls, (s.m.accsOf g l.t.tid).any (fun a => a.path == .surf) = false)
        ∧ (freeSurface s.cfg tSurf s.m).gang? k.id = s.m.gang? k.id) :=
  ⟨when_on tGang tHandle tSurfs (by decide +kernel) (by simp only [texelFits]; decide +kernel), ⟨fun _ => 0, when_on tGang tHandle tSurfs (by decide +kernel) (by decide +kernel)⟩,
   fun lod h => acts_on tHandle tSurfs (by revert lod; decide +kernel) (by revert lod; decide +kernel), acts_on tPixels id (by decide +kernel) (by decide +kernel),
   acts_on tPixels id (by decide +kernel) (by decide +kernel), acts_on (tGrp [(111, 65535#32)]) id (by decide +kernel) (by decide +kernel),
   when_on tGang tHandle tSurfs (by decide +kernel) (by decide +kernel)⟩

theorem takePlace_one {vf n a : Nat} {m : Mach} (h : freePlaces (m.vf vf) n = [a]) :
    takePlace vf n m = some (a, ({ m with free := m.free + 1 } : Mach).onVf vf fun r => { r with resused := (a, n) :: r.resused }) := by
  simp [takePlace, h, Mach.pick, Nat.mod_one]

/-- A partition of twin 0 with all 20 units of TSPLIT for surfaces, whose reserve has two holes that the two parts of a surface of 8 by 8 blocks just fill; the RCB
of its root is at 0x8000, and a host allocation of the same surface waits. -/
def tAllocCfg : Cfg := { parts := [(0, { tsScr := 0, tsSurf := 20, twins := 1 })] }
def tAllocGroup : Group := { tUni [(62, 0x00200020#32), (63, 0#32)] with env := { leaf := 0x8000, seglen := 1 } }
def tAllocMach (m : Mach) : Mach :=
  { m with tlb := [{ vf := 0, vpn := 0, ppn := 0, host := false, w := true, x := true, d := true }]
           dmem := writeN (writeN m.dmem 0x8010 4 8) 0x8020 4 0xFFFF
           vfs := [(0, { surfcnt := 16, surftab := 16384, resbase := 0, ressize := 16384, resused := [(8192, 4096)], root := 0x8000, hsstatus := 1, hsrcb := 0x8000
                         hsdesc1 := 0x00200020 })] }
def tAllocState : State := { tOn tGang tAllocGroup tAllocMach with cfg := tAllocCfg }
def tAllocM : Mach := tAllocState.m
def tTaken (m : Mach) (a n : Nat) : Mach := ({ m with free := m.free + 1 } : Mach).onVf 0 fun r => { r with resused := (a, n) :: r.resused }

theorem tAlloc_ok : ∃ m' h, allocSurface tAllocCfg 0 0x8000 0 0 32 32 0 0 tAllocM = .ok m' h ∧ m'.gang? 0 = tAllocM.gang? 0 := by
  have hf : ((List.range (tAllocM.vf 0).surfcnt).find? fun i => !tAllocM.surfs.any fun s => s.vf == 0 && s.idx == i) = some 0 := by decide +kernel
  have h1 : takePlace 0 8192 tAllocM = some (0, tTaken tAllocM 0 8192) := takePlace_one (by decide +kernel)
  have h2 : takePlace 0 4096 (tTaken tAllocM 0 8192) = some (12288, tTaken (tTaken tAllocM 0 8192) 12288 4096) := takePlace_one (by decide +kernel)
  have hp : freePlaces2 0 8192 4096 tAllocM = some (0, 12288, tTaken (tTaken tAllocM 0 8192) 12288 4096) := by
    simp only [freePlaces2, h1, Option.bind_some, h2, Option.map_some]
  have he : touchEntry tAllocCfg 0 0 tAllocM = (tAllocM, .ready) := by decide +kernel
  unfold allocSurface
  rw [hf]
  simp only [show ((0 : Nat) = 255) = False by decide, if_false, he]
  split
  · next h => exact absurd h (by decide +kernel)
  · split
    · next h => exact absurd (h.symm.trans (congrArg Option.isNone hp)) (by decide)
    · split
      · next h => cases (show _ = true by decide +kernel).symm.trans (congrArg Prod.snd h)
      · next m1 h =>
        have e : m1 = tAllocM := (congrArg Prod.fst h).symm.trans (by decide +kernel)
        subst e
        split
        · next h => cases h.symm.trans hp
        · next h =>
          cases h.symm.trans hp
          split
          · next h => cases (show _ = Pages.ready by decide +kernel).symm.trans (congrArg Prod.snd h)
          · next m2 h =>
            have e : m2 = tTaken (tTaken tAllocM 0 8192) 12288 4096 := (congrArg Prod.fst h).symm.trans (by decide +kernel)
            subst e
            exact ⟨_, _, rfl, by decide +kernel⟩

/-- `salloc` of a surface of 32 by 32 texels from the descriptor in s61 to s63. -/
theorem witness_SurfaceAllocation : ∃ twin m' h, WhenMet (formBare false (some qGuard)) fun s k g ls =>
    ons ls ≠ [] ∧ (uniDesc s.m k g 61).bad = false ∧ descTwin s.cfg g.env.vf (some g.column) (uniDesc s.m k g 61) = some twin
      ∧ (∀ l ∈ ons ls, memBusy false s.m g l = false) ∧ s.m.allocTurn twin k.id = true
      ∧ allocSurface s.cfg g.env.vf g.env.leaf (uniDesc s.m k g 61).layers (uniDesc s.m k g 61).fmt (uniDesc s.m k g 61).height
          (uniDesc s.m k g 61).width twin (uniDesc s.m k g 61).seed s.m = .ok m' h ∧ m'.gang? k.id = s.m.gang? k.id := by
  obtain ⟨m', h, h1, h2⟩ := tAlloc_ok
  have e : (uniDesc tAllocState.m tGang tAllocGroup 61).layers = 0 ∧ (uniDesc tAllocState.m tGang tAllocGroup 61).fmt = 0
    ∧ (uniDesc tAllocState.m tGang tAllocGroup 61).height = 32 ∧ (uniDesc tAllocState.m tGang tAllocGroup 61).width = 32
    ∧ (uniDesc tAllocState.m tGang tAllocGroup 61).seed = 0 := by decide +kernel
  refine ⟨0, m', h, when_met tAllocState tGang tAllocGroup (by decide +kernel)
    ⟨by decide +kernel, by decide +kernel, by decide +kernel, by decide +kernel, by decide +kernel, ?_, h2⟩⟩
  rw [e.1, e.2.1, e.2.2.1, e.2.2.2.1, e.2.2.2.2]
  exact h1

/-- A machine whose window holds words of a block in its last 64 bytes, and tile 63 with 16 rows of 64 bytes. -/
def tBlock (ws : List (Nat × Nat)) (m : Mach) : Mach :=
  ws.foldl (fun m w => m.setWin32 0 (65472 + 4 * w.1) w.2) (m.setTile 0 0 63 { st := .ready, gid := 0, rb := 4, rows := 16, buf := 0 })
def tBlk : Group := tUni [(63, 65472#32)]

/-- No surface is unfolded, so none is outside its table. -/
theorem no_unfold {o : Option Word} {p : Word → Prop} {c : Prop} (h : c ∧ o = none) : c ∧ ∀ x, o = some x → p x :=
  ⟨h.1, fun _ hx => nomatch h.2.symm.trans hx⟩

/-- Matrix words with their block at the end of the window, on slot 7; drains to memory, to tile 63, and to v96 to v111. -/
theorem witness_MatrixWordsAct :
    (∀ r ∈ [(0, [(0, 0x70000), (1, 1)]), (1, [(0, 0x770806), (1, 1)])], ActsMet (formBare true none) fun s k g l =>
      badBlkAt g (uniRead s k g 63).toNat = false ∧ blkDst (blockAt s k g 63) < g.hold.msl
      ∧ (r.1 = 1 → blkSrc (blockAt s k g 63) < g.hold.msl) ∧ operCheck r.1 s.m g (blockAt s k g 63) = none ∧ engineFree s g l
      ∧ ((operA (blockAt s k g 63)).kind = 1 → tileMoving s.m g (operA (blockAt s k g 63)).tile = false)
      ∧ ((operB (blockAt s k g 63)).kind = 1 → tileMoving s.m g (operB (blockAt s k g 63)).tile = false)
      ∧ ∀ h, ({ gid := g.gid, op := r.1, blk := issueBlk (s.m.core g.column g.core) (blockAt s k g 63) } : MWord).unfolds = some h →
          s.m.handle g.env.vf h ≠ .outside)
    ∧ ActsMet (formBare true none) (fun s _ g l => 7 < g.hold.msl ∧ acqPending s.m g l.t.tid = false ∧ mwordsFull s.m g = false)
    ∧ (∀ r ∈ [(3, 0x70000), (5, 0x700000)], ActsMet (formBare true none) fun s k g l =>
      badBlkAt g (uniRead s k g 63).toNat = false ∧ (if r.1 = 3 then blkDst (blockAt s k g 63) else blkSrc (blockAt s k g 63)) < g.hold.msl
        ∧ transferCheck r.1 s.m g (blockAt s k g 63) = none ∧ engineFree s g l)
    ∧ ActsMet (formBare true none)
      (fun s k g l => badBlkAt g (uniRead s k g 63).toNat = false ∧ blkSrc (blockAt s k g 63) < g.hold.msl
        ∧ transferCheck 4 s.m g (blockAt s k g 63) = none ∧ engineFree s g l ∧ trKind (blockAt s k g 63) ≠ 2)
    ∧ ActsMet (formBare true none)
      (fun s k g l => badBlkAt g (uniRead s k g 63).toNat = false ∧ blkSrc (blockAt s k g 63) < g.hold.msl
        ∧ transferCheck 4 s.m g (blockAt s k g 63) = none ∧ engineFree s g l ∧ trKind (blockAt s k g 63) = 2
        ∧ tileMoving s.m g (trTile (blockAt s k g 63)) = false)
    ∧ WhenMet (formBare true none)
      (fun s k g ls => ons ls ≠ [] ∧ badBlkAt g (uniRead s k g 63).toNat = false ∧ blkSrc (blockAt s k g 63) < g.hold.msl
        ∧ bitsOf (bword (blockAt s k g 63) 0) 6 2 ≠ 3 ∧ 96 + blkN (blockAt s k g 63) ≤ 112 ∧ 96 + blkN (blockAt s k g 63) ≤ g.acquired
        ∧ trReserved (blockAt s k g 63) = false ∧ trEf (blockAt s k g 63) ≠ 3 ∧ trKind (blockAt s k g 63) ≠ 3 ∧ (∀ l ∈ ls, engineFree s g l)
        ∧ ∀ l ∈ ls, l.t.tid % 64 < blkM (blockAt s k g 63) → ∀ n < blkN (blockAt s k g 63), l.t.c.notFull.getLsbD (96 + n) = false)
    ∧ ActsMet (formBare false (some qGuard)) (fun _ _ g _ => 7 < g.hold.msl) :=
  ⟨fun r hr => acts_on tBlk (tBlock r.2) (by revert r; decide +kernel) fun l hl => by
     simp only [← and_assoc]
     exact no_unfold (by revert r l; simp only [engineFree]; decide +kernel),
   acts_on tBlk id (by decide +kernel) (by decide +kernel),
   fun r hr => acts_on tBlk (tBlock [(0, r.2)]) (by revert r; decide +kernel) (by revert r; simp only [engineFree]; decide +kernel),
   acts_on tBlk (tBlock [(0, 0x700000)]) (by decide +kernel) (by simp only [engineFree]; decide +kernel),
   acts_on tBlk (tBlock [(0, 0x700000), (2, 0x3F02)]) (by decide +kernel) (by simp only [engineFree]; decide +kernel),
   when_on tGang tBlk (tBlock [(0, 0x700000)]) (by decide +kernel) (by simp only [engineFree]; decide +kernel), acts_on tBlk id (by decide +kernel) (by decide +kernel)⟩

end Sys2Proof.Machine
end

