-- ==== Sys2Proof/Tests/Scheduler.lean ====
section
/-! SUPPORT. Scheduler: witnesses for the statements about launches, admission, swap-outs, fixed-function nodes and surfaces. -/

namespace Sys2Proof.Machine

set_option Elab.async false

/-- A bound leaf of VF 1 at 0x4000, its node table at 0x1000. -/
def tBind : Binding := { leaf := 0x4000, table := 0x1000, count := 3, cols := 0 }

/-- VF 1 with twin 0 and the leaf bound. Node 1 is of kind `kind` with one record, the last before HEAD wraps, at 0x3000 + 3 · 64; its successor is node 2, whose queue at
0x2100 has one place left. Everything lies in page 0. -/
def tNode (kind : Nat) (extra : List (Nat × Nat × Nat)) (b : Binding := tBind) (f : Mach → Mach := id) : State :=
  { State.reset with
    cfg := { parts := [(1, { en := true, twins := 1, tsScr := 0, tsSurf := 20 })] }
    m := f (tPut ([(0x1080, 4, kind * 2 ^ 28 + 2 ^ 23), (0x1080 + 20, 4, 0x10002), (0x1080 + 24, 2, 64), (0x1080 + 26, 2, 1), (0x1080 + 32, 4, 0x100), (0x1080 + 40, 8, 0x6000),
        (0x1080 + 48, 8, 0x2000), (0x1080 + 84, 2, 2), (0x1100 + 24, 2, 64), (0x1100 + 48, 8, 0x2100), (0x2000, 8, 0x3000), (0x2008, 4, 4), (0x200C, 4, 0xFFFFFFFF),
        (0x2100, 8, 0x3800), (0x2108, 4, 4), (0x2110, 4, 3), (0x4010, 4, 0x7FF)] ++ extra)
      { State.reset.m with
        tlb := [{ vf := 1, vpn := 0, ppn := 0, host := false, w := true, x := true, d := true }]
        etime := 5000000
        vfs := [(1, { ready := true, root := 0x4000, binds := [b], surfcnt := 16 })] }) }

/-- What `launchable` answers for `tNode` with `n` records in the queue. -/
def tLaunch (n : Nat) (b : Binding := tBind) : State := tNode 0 [(0x2010, 4, n - 1)] b
def tNode1 : Node := readNode (tLaunch 1).cfg 1 0x1000 1 (tLaunch 1).m

/-- The premises of a launch with `a` records from node 1, and where `old` holds of a timed-out one. -/
def launchCheck (s : State) (b : Binding) (a : Nat) (old : Bool) : Bool :=
  let r := launchable s.cfg 1 0x4000 1 (lookTail s.cfg 1 0x4000 1 s.m)
  touchLaunch s.cfg 1 0x4000 1 s.m == (s.m, .ready) && r.2 == some (b, tNode1, a) && timedOut s.cfg 1 0x4000 1 b tNode1 r.1 == old

theorem launch_of {s : State} {b : Binding} {a : Nat} {old : Bool} (h : launchCheck s b a old = true) :
    ∃ m', LaunchDue s 1 0x4000 1 b tNode1 a m' ∧ timedOut s.cfg 1 0x4000 1 b tNode1 m' = old := by
  simp only [launchCheck, Bool.and_eq_true, beq_iff_eq] at h
  exact ⟨_, ⟨h.1.1, Prod.ext rfl h.1.2⟩, h.2⟩

/-- The binding as the scheduler leaves it once it has seen `n` records at a time. -/
def tSeen (n t : Nat) : Binding := { tBind with tailAt := [(1, n - 1, t)] }

/-- Two records with COALESCE 2, and one that was seen 1 µs ago and is seen now. -/
theorem witness_GroupsLaunch :
    (∃ b m', LaunchDue (tLaunch 2) 1 0x4000 1 b tNode1 2 m' ∧ tNode1.coalesce ≤ 2)
    ∧ (∃ b m', LaunchDue (tLaunch 1 (tSeen 1 4000000)) 1 0x4000 1 b tNode1 1 m' ∧ timedOut (tLaunch 1).cfg 1 0x4000 1 b tNode1 m' = true)
    ∧ ∃ b m', LaunchDue (tLaunch 1) 1 0x4000 1 b tNode1 1 m' ∧ 1 < tNode1.coalesce := by
  have h1 := launch_of (s := tLaunch 2) (b := tSeen 2 5000000) (a := 2) (old := false) (by decide +kernel)
  have h2 := launch_of (s := tLaunch 1 (tSeen 1 4000000)) (b := tSeen 1 4000000) (a := 1) (old := true) (by decide +kernel)
  have h3 := launch_of (s := tLaunch 1) (b := tSeen 1 5000000) (a := 1) (old := false) (by decide +kernel)
  exact ⟨⟨_, h1.imp fun _ h => ⟨h.1, by decide +kernel⟩⟩, ⟨_, h2.imp fun _ h => ⟨h.1, h.2⟩⟩, _, h3.imp fun _ h => ⟨h.1, by decide +kernel⟩⟩

/-- A queued group of VF 1 that may run in column 0, claiming `msl` matrix slots; residents of column 0 to swap out for it. -/
def tQueued (msl : Nat) : Group :=
  { placedGroup 3 with stage := .queued, cols := 1, imageLen := 65536, env := { vf := 1, leaf := 0x4000, prio := 1 }, claim := { msl := msl }, hold := {} }
def tAdmit (msl : Nat) (gs : List Group) : State := tNode 0 [] tBind fun m => { m with groups := gs ++ [tQueued msl], nextGid := 4 }
def tResident : Group := { placedGroup 0 with env := { vf := 1, leaf := 0x4000, prio := 0, quantum := 5 } }

theorem witness_GroupsAreAdmitted :
    (PendingDue (tAdmit 8 []) 0 (tQueued 8) ∧ admitCore (tAdmit 8 []).cfg (tAdmit 8 []).m (tQueued 8) 0 = some 0)
    ∧ PendingDue (tAdmit 9 [tResident]) 0 (tQueued 9)
      ∧ admitCore (tAdmit 9 [tResident]).cfg (tAdmit 9 [tResident]).m (tQueued 9) 0 = none ∧ swapping (tAdmit 9 [tResident]).m 0 = false
      ∧ victimFor (tAdmit 9 [tResident]).m 0 (tQueued 9).env.prio = some tResident ∧ waitingVictim (tAdmit 9 [tResident]).m 0 (tQueued 9).env.prio = none
      ∧ firstBy (fun a b => decide (a.since < b.since)) ((swappable (tAdmit 9 [tResident]).m 0).filter fun x =>
          decide (x.env.prio ≤ (tQueued 9).env.prio) && decide (x.since + x.env.quantum * 1000000 ≤ (tAdmit 9 [tResident]).m.etime)) = some tResident :=
  ⟨⟨⟨by decide +kernel, by decide +kernel⟩, by decide +kernel⟩, ⟨by decide +kernel, by decide +kernel⟩, by decide +kernel⟩

/-- A group at a stage of a swap-out, with its image at page 0 or where nothing is mapped. -/
def tStaged (st : Stage) (image : Nat) : Group := { tResident with stage := st, image := image, imageLen := 65536 }
def tSwap (g : Group) : State := tNode 0 [] tBind fun m => { m with groups := [g], nextGid := 1 }

theorem witness_GroupsAreSwappedOutAndBack :
    ((tSwap (tStaged .halting 0)).m.group? 0 = some (tStaged .halting 0) ∧ (tStaged .halting 0).frozen = false
      ∧ haltReady (tSwap (tStaged .halting 0)).m (tStaged .halting 0) = true ∧ (tStaged .halting 0).since + 2000000 ≤ (tSwap (tStaged .halting 0)).m.etime)
    ∧ (∀ st ∈ [Stage.saving, .restoring], (tSwap (tStaged st 0)).m.group? 0 = some (tStaged st 0) ∧ (tStaged st 0).stage = st
      ∧ touchImage (tSwap (tStaged st 0)).cfg (tStaged st 0) (st == .saving) (tSwap (tStaged st 0)).m = ((tSwap (tStaged st 0)).m, .ready))
    ∧ (tSwap (tStaged .saving 65536)).m.group? 0 = some (tStaged .saving 65536) ∧ (tStaged .saving 65536).stage = .saving
      ∧ touchImage (tSwap (tStaged .saving 65536)).cfg (tStaged .saving 65536) true (tSwap (tStaged .saving 65536)).m = ((tSwap (tStaged .saving 65536)).m, .bad) := by
  decide +kernel

/-- A surface of one block of 4 by 4 texels at index `i` of VF 1. -/
def tSquare (i fmt : Nat) : Surf :=
  { vf := 1, idx := i, tag := 1, st := 1, seed := 0, twin := 0, layers := 0, fmt := fmt, height := 4, width := 4, rcb := 0, smap := 0x8000, back := 0x9000 }

/-- A gated queue with one record, whose draw 7 of twin 0 is retired with sum `n`. -/
def tGated (i n : Nat) : State :=
  tNode 0 [(0x2018, 8, 2 ^ 63 + 7), (0x2010, 4, i)] { tBind with gateSeen := [(1, i)] } fun m =>
    { m with draws := [{ twin := 0, draw := 7, ended := true, retired := true }], occ := [(occKey 1 7, n)] }
def tGateNode : Node := readNode (tGated 0 1).cfg 1 0x1000 1 (tGated 0 1).m
def tGateHdr (i : Nat) : QHdr := readQHdr (tGated i 1).cfg 1 0x2000 (tGated i 1).m

/-- The premises of a gate's judgement, decided. -/
def gateCheck (s : State) (vf leaf node : Nat) (b : Binding) (n : Node) (h : QHdr) (i no sum : Nat) : Bool :=
  s.m.binding? vf leaf == some b && touchNode s.cfg vf leaf node s.m == (s.m, .ready) && n == readNode s.cfg vf b.table node s.m && h == readQHdr s.cfg vf n.queue s.m
    && (vfRuns s.cfg s.m vf && !b.stopped && decide (node < b.count) && n.kind != 6 && h.gated)
    && (i == b.seen node && decide (i < h.count) && no == (h.head + i) % 2 ^ 32)
    && touchStruct s.cfg vf (h.recAddr n.recsz no) n.recsz false s.m == (s.m, .ready)
    && ((s.m.draw? (gateAt s vf n h no).1 (gateAt s vf n h no).2).map (·.retired)).getD false
    && sum == SMap.get 0 s.m.occ (occKey (2 * (gateAt s vf n h no).1) (gateAt s vf n h no).2)
        + SMap.get 0 s.m.occ (occKey (2 * (gateAt s vf n h no).1 + 1) (gateAt s vf n h no).2)

theorem gateDue_of {s : State} {vf leaf node : Nat} {b : Binding} {n : Node} {h : QHdr} {i no sum : Nat}
    (e : gateCheck s vf leaf node b n h i no sum = true) : GateDue s vf leaf node b n h i no sum := by
  simp only [gateCheck, Bool.and_eq_true, beq_iff_eq, bne_iff_ne, Bool.not_eq_true', decide_eq_true_eq] at e
  obtain ⟨⟨⟨⟨⟨⟨⟨⟨h1, ht⟩, h2⟩, h3⟩, ⟨⟨⟨h4, h5⟩, h6⟩, hk⟩, h7⟩, ⟨h8, h9⟩, h10⟩, hr⟩, h11⟩, h12⟩ := e
  refine ⟨h1, ht, h2, h3, ⟨h4, h5, h6, hk, h7⟩, ⟨h8, h9, h10⟩, hr, ?_, h12⟩
  cases hd : s.m.draw? (gateAt s vf n h no).1 (gateAt s vf n h no).2 with
  | none => simp [hd] at h11
  | some d => exact ⟨d, rfl, by simpa [hd] using h11⟩

/-- The second record of a queue passes with a sum of 1; the first with a sum of 0 is consumed. -/
theorem witness_FixedFunctionNodesServeRecords_gates :
    (∃ s b n h, GateDue s 1 0x4000 1 b n h 1 0 1 ∧ ((1 != 0) != bitOf h.gate 62) = true)
    ∧ ∃ s b n h, GateDue s 1 0x4000 1 b n h 0 0xFFFFFFFF 0 ∧ ((0 != 0) != bitOf h.gate 62) = false :=
  ⟨⟨tGated 1 1, { tBind with gateSeen := [(1, 1)] }, tGateNode, tGateHdr 1, gateDue_of (by decide +kernel), by decide +kernel⟩,
   ⟨tGated 0 0, { tBind with gateSeen := [(1, 0)] }, tGateNode, tGateHdr 0, gateDue_of (by decide +kernel), by decide +kernel⟩⟩

/-- A fixed-function node with its record, in a machine with the surfaces that records name. -/
def tFixed (kind : Nat) (extra : List (Nat × Nat × Nat)) : State :=
  tNode kind extra tBind fun m => { m with surfs := [tSquare 0 0, tSquare 1 4, tSquare 2 4, tSquare 15 7] }
/-- A raster record of a degenerate triangle that starts and ends draw 7, on a colour target; without one. -/
def tDraws : List (Nat × Nat × Nat) := [(0x6008, 4, 0x10000), (0x30C0 + 36, 4, 0x30007)]
theorem witness_FixedFunctionNodesServeRecords_raster :
    (∃ b n h twin m', NodeDue (tFixed 1 tDraws) 1 0x4000 1 1 b n h ∧ touchStruct (tFixed 1 tDraws).cfg 1 n.const 128 false (tFixed 1 tDraws).m = ((tFixed 1 tDraws).m, .ready)
      ∧ rasterTwin (tFixed 1 tDraws).m 1 (readRaster (tFixed 1 tDraws).cfg 1 n.const (tFixed 1 tDraws).m) = some twin
      ∧ touchAppend (tFixed 1 tDraws).cfg 1 b.table (n.emit.headD 0) (tFixed 1 tDraws).m = ((tFixed 1 tDraws).m, .ready)
      ∧ rasterPrim (tFixed 1 tDraws).cfg (rasterCtx (tFixed 1 tDraws) 1 0x4000 b n twin)
          (recWords (tFixed 1 tDraws).cfg 1 (h.recAddr 64 h.head) 64 (tFixed 1 tDraws).m) (b.done 1) (tFixed 1 tDraws).m = (m', 0, true, false))
    ∧ ∃ b n h, NodeDue (tFixed 1 []) 1 0x4000 1 1 b n h ∧ touchStruct (tFixed 1 []).cfg 1 n.const 128 false (tFixed 1 []).m = ((tFixed 1 []).m, .ready)
      ∧ rasterTwin (tFixed 1 []).m 1 (readRaster (tFixed 1 []).cfg 1 n.const (tFixed 1 []).m) = none := by
  let b := tBind
  let n := readNode (tFixed 1 []).cfg 1 0x1000 1 (tFixed 1 []).m
  let h := readQHdr (tFixed 1 []).cfg 1 0x2000 (tFixed 1 []).m
  obtain ⟨m', e⟩ := pair_of (x := rasterPrim (tFixed 1 tDraws).cfg (rasterCtx (tFixed 1 tDraws) 1 0x4000 b n 0)
    (recWords (tFixed 1 tDraws).cfg 1 (h.recAddr 64 h.head) 64 (tFixed 1 tDraws).m) (b.done 1) (tFixed 1 tDraws).m) (b := (0, true, false)) (by decide +kernel)
  exact ⟨⟨b, n, h, 0, m', ⟨by decide +kernel, by decide +kernel⟩, by decide +kernel, by decide +kernel, by decide +kernel, e⟩, b, n, h,
    ⟨by decide +kernel, by decide +kernel⟩, by decide +kernel, by decide +kernel⟩

/-- A ray record whose structure is empty, with room at its successor; one whose structure address is not aligned. -/
def tRays (root : Nat) : List (Nat × Nat × Nat) :=
  [(0x30C0 + 28, 4, 0x7F800000), (0x30C0 + 16, 4, 0x3F800000), (0x30C0 + 32, 4, root), (0x30C0 + 40, 4, 0x7000), (0x5000 + 48, 4, 0xFFFFFFFF), (0x5000 + 52, 4, 0xFFFFFFFF),
   (0x30C0 + 60, 4, 77)]
theorem witness_FixedFunctionNodesServeRecords_traverse :
    (∃ b n h ws m' m'', NodeDue (tFixed 2 (tRays 0x5000)) 1 0x4000 1 2 b n h
      ∧ traverseRecord 1 (recWords (tFixed 2 (tRays 0x5000)).cfg 1 (h.recAddr 64 h.head) 64 (tFixed 2 (tRays 0x5000)).m) (tFixed 2 (tRays 0x5000)).m = .ok (ws, m')
      ∧ appendTo (tFixed 2 (tRays 0x5000)).cfg 1 b.table (n.emit.headD 0) (wordBytes ws) m' = .done m'')
    ∧ ∃ b n h, NodeDue (tFixed 2 (tRays 0x5008)) 1 0x4000 1 2 b n h
      ∧ traverseRecord 1 (recWords (tFixed 2 (tRays 0x5008)).cfg 1 (h.recAddr 64 h.head) 64 (tFixed 2 (tRays 0x5008)).m) (tFixed 2 (tRays 0x5008)).m = .bad := by
  let b := tBind
  let n := readNode (tFixed 2 []).cfg 1 0x1000 1 (tFixed 2 []).m
  let h := readQHdr (tFixed 2 []).cfg 1 0x2000 (tFixed 2 []).m
  have ha : (match appendTo (tFixed 2 (tRays 0x5000)).cfg 1 b.table (n.emit.headD 0) (wordBytes (hitWords none [0, 0, 77])) (tFixed 2 (tRays 0x5000)).m with
      | .done _ => true | _ => false) = true := by decide +kernel
  obtain ⟨m'', hm⟩ : ∃ m'', appendTo (tFixed 2 (tRays 0x5000)).cfg 1 b.table (n.emit.headD 0) (wordBytes (hitWords none [0, 0, 77])) (tFixed 2 (tRays 0x5000)).m = .done m'' := by
    split at ha
    · exact ⟨_, by assumption⟩
    · cases ha
  exact ⟨⟨b, n, h, hitWords none [0, 0, 77], (tFixed 2 (tRays 0x5000)).m, m'', ⟨by decide +kernel, by decide +kernel⟩, by decide +kernel, hm⟩, b, n, h,
    ⟨by decide +kernel, by decide +kernel⟩, by decide +kernel⟩

/-- A CLASSIFY record of the stencil surface with one material; of a stale handle. -/
def tBins (handle : Nat) : List (Nat × Nat × Nat) := [(0x1080 + 24, 2, 16), (0x1100 + 24, 2, 80), (0x3030, 4, handle)]
def tTile : List (Nat × Nat) := (List.range 16).map fun i => (i / 4 * 16 + i % 4, 0)
def tBinned : List (List Byte) :=
  [wordBytes [0x1000F, 16 * 65536, 0, 0] ++ (List.range 64).map fun i => BitVec.ofNat 8 ((tTile[i]?.map (·.1)).getD 0)]

theorem tile_zero (v : Nat) : (tTile.any fun p => p.2 == v) = (v == 0) := by
  have h : ∀ p ∈ tTile, p.2 = 0 := by decide
  have hn : tTile ≠ [] := by decide
  cases ht : tTile with
  | nil => exact absurd ht hn
  | cons x xs =>
    rw [Bool.eq_iff_iff, List.any_eq_true, beq_iff_eq]
    rw [ht] at h
    exact ⟨fun ⟨p, hp, e⟩ => (beq_iff_eq.1 e).symm.trans (h p hp), fun e => ⟨x, List.mem_cons_self, by simp [e, h x List.mem_cons_self]⟩⟩

theorem one_material : ((List.range 65536).filter fun v => tTile.any fun p => p.2 == v) = [0] := by
  rw [funext tile_zero, List.range_succ_eq_map, List.filter_cons]
  simp [List.filter_map]

theorem tile_binned {f : Mem} (e : tilePixels (tSquare 15 7) f 0 0 0 = tTile) : classifyOut (tSquare 15 7) [0x1000F, 0, 0, 0] f = tBinned := by
  show classifyRecords [0x1000F, 0, 0, 0] (tilePixels (tSquare 15 7) f 0 0 0) = tBinned
  rw [e, classifyRecords, one_material]
  decide +kernel

/-- The block of the stencil surface, read, and the records it gives. -/
def tBinRead : Refill × EngBuf :=
  readBlocks (tFixed 3 (tBins 0x1000F)).cfg 1 15 (classifyBlocks (tSquare 15 7) [0x1000F, 0, 0, 0]) (tBind.buf 1) (tFixed 3 (tBins 0x1000F)).m
def tBinOut (n : Node) (m : Mach) (out : List (List Byte)) : Mach × Nat × Bool :=
  emitFrom (fun bytes m => appendTo (tFixed 3 (tBins 0x1000F)).cfg 1 tBind.table (n.emit.headD 0) bytes m) (tBind.done 1) (out.drop (tBind.done 1))
    (m.setBuf 1 0x4000 1 tBinRead.2)

theorem witness_FixedFunctionNodesServeRecords_classify :
    (∃ b n h, NodeDue (tFixed 3 (tBins 0xF)) 1 0x4000 1 3 b n h
      ∧ (tFixed 3 (tBins 0xF)).m.surf? 1 (BitVec.ofNat 32 ((recWords (tFixed 3 (tBins 0xF)).cfg 1 (h.recAddr 16 h.head) 16 (tFixed 3 (tBins 0xF)).m).getD 0 0)) = none)
    ∧ ∃ b n h ws x m' eb r, NodeDue (tFixed 3 (tBins 0x1000F)) 1 0x4000 1 3 b n h
      ∧ ws = recWords (tFixed 3 (tBins 0x1000F)).cfg 1 (h.recAddr 16 h.head) 16 (tFixed 3 (tBins 0x1000F)).m
      ∧ (tFixed 3 (tBins 0x1000F)).m.surf? 1 (BitVec.ofNat 32 (ws.getD 0 0)) = some x ∧ x.fmt = 7 ∧ ws.getD 2 0 % 256 ≤ x.layers
      ∧ readBlocks (tFixed 3 (tBins 0x1000F)).cfg 1 x.idx (classifyBlocks x ws) (b.buf 1) (tFixed 3 (tBins 0x1000F)).m = (.done m', eb)
      ∧ emitFrom (fun bytes m => appendTo (tFixed 3 (tBins 0x1000F)).cfg 1 b.table (n.emit.headD 0) bytes m) (b.done 1)
          ((classifyOut x ws eb.texels).drop (b.done 1)) (m'.setBuf 1 0x4000 1 eb) = r
      ∧ (classifyOut x ws eb.texels).length ≤ r.2.1 := by
  let b := tBind
  let n := readNode (tFixed 3 (tBins 0)).cfg 1 0x1000 1 (tFixed 3 (tBins 0)).m
  let h := readQHdr (tFixed 3 (tBins 0)).cfg 1 0x2000 (tFixed 3 (tBins 0)).m
  have hf : tilePixels (tSquare 15 7) tBinRead.2.texels 0 0 0 = tTile := by decide +kernel
  have hm : (match tBinRead.1 with
      | .done m => (tBinOut n m tBinned).2.1 == 1
      | _ => false) = true := by decide +kernel
  refine ⟨⟨b, n, h, ⟨by decide +kernel, by decide +kernel⟩, by decide +kernel⟩, b, n, h, [0x1000F, 0, 0, 0], tSquare 15 7, ?_⟩
  split at hm
  · next m' e =>
    refine ⟨m', tBinRead.2, _, ⟨by decide +kernel, by decide +kernel⟩, by decide +kernel, by decide +kernel, rfl, by decide +kernel, Prod.ext e rfl, rfl, ?_⟩
    rw [tile_binned hf]; exact Nat.le_of_eq (beq_iff_eq.1 hm).symm
  · cases hm

/-- A NET record of two surfaces and a network of one layer; the same with a network of no layer. -/
def tNet (nl : Nat) : List (Nat × Nat × Nat) := [(0x1080 + 24, 2, 16), (0x3030, 4, 0x10001), (0x3034, 4, 0x10002), (0x6000, 4, nl)]
/-- What a NET record reads, its network's output, and how the writes end. -/
def tNetState : State := tFixed 4 (tNet 1)
def tNetLayers : List NetLayer := (readNet tNetState.cfg 1 0x6000 tNetState.m).2.1
def tNetRead : Refill × EngBuf := readBlocks tNetState.cfg 1 1 (layerBlocks (tSquare 1 4) 0) (tBind.buf 1) tNetState.m
def tNetOut (m : Mach) : Struct (Array Nat) := netRun 1 false 4 4 (m.setBuf 1 0x4000 1 tNetRead.2) tNetLayers (netImage (tSquare 1 4) 0 tNetRead.2.texels)
def tNetWrite (m : Mach) (out : Array Nat) : Refill × EngBuf :=
  writeImage tNetState.cfg 1 2 0 4 out (layerBlocks (tSquare 2 4) 0) tNetRead.2 (m.setBuf 1 0x4000 1 tNetRead.2)

theorem witness_FixedFunctionNodesServeRecords_net :
    (∃ b n h, NodeDue (tFixed 4 (tNet 0)) 1 0x4000 1 4 b n h ∧ touchNet (tFixed 4 (tNet 0)).cfg 1 n.const (tFixed 4 (tNet 0)).m = ((tFixed 4 (tNet 0)).m, .ready)
      ∧ (readNet (tFixed 4 (tNet 0)).cfg 1 n.const (tFixed 4 (tNet 0)).m).2.2 = false)
    ∧ ∃ b n h ws x y pad ls m' m'' eb eb' out, NodeDue tNetState 1 0x4000 1 4 b n h ∧ touchNet tNetState.cfg 1 n.const tNetState.m = (tNetState.m, .ready)
      ∧ ws = recWords tNetState.cfg 1 (h.recAddr 16 h.head) 16 tNetState.m
      ∧ readNet tNetState.cfg 1 n.const tNetState.m = (pad, ls, true) ∧ netSurfs tNetState.m 1 ws = some (x, y)
      ∧ readBlocks tNetState.cfg 1 x.idx (layerBlocks x (ws.getD 2 0)) (b.buf 1) tNetState.m = (.done m', eb)
      ∧ netRun 1 pad x.width x.height (m'.setBuf 1 0x4000 1 eb) ls (netImage x (ws.getD 2 0) eb.texels) = .ok out
      ∧ writeImage tNetState.cfg 1 y.idx (ws.getD 2 0) x.width out (layerBlocks y (ws.getD 2 0)) eb (m'.setBuf 1 0x4000 1 eb) = (.done m'', eb') := by
  let b := tBind
  let n := readNode (tFixed 4 (tNet 0)).cfg 1 0x1000 1 (tFixed 4 (tNet 0)).m
  let h := readQHdr (tFixed 4 (tNet 0)).cfg 1 0x2000 (tFixed 4 (tNet 0)).m
  refine ⟨⟨b, n, h, ⟨by decide +kernel, by decide +kernel⟩, by decide +kernel, by decide +kernel⟩, b, n, h, [0x10001, 0x10002, 0, 0], tSquare 1 4, tSquare 2 4, false,
    tNetLayers, ?_⟩
  have hr : (match tNetRead.1 with
      | .done m => (match tNetOut m with
        | .ok out => (match (tNetWrite m out).1 with | .done _ => true | _ => false)
        | _ => false)
      | _ => false) = true := by decide +kernel
  split at hr
  · next m' e =>
    split at hr
    · next out e1 =>
      split at hr
      · next m'' e2 =>
        exact ⟨m', m'', tNetRead.2, (tNetWrite m' out).2, out, ⟨by decide +kernel, by decide +kernel⟩, by decide +kernel, by decide +kernel, by decide +kernel,
          by decide +kernel, Prod.ext e rfl, e1, Prod.ext e2 rfl⟩
      · cases hr
    · cases hr
  · cases hr

/-- A COPY node whose request fills one byte at the end of the page. -/
def tCopyNode : State :=
  tNode 5 [(0x30C0, 4, 2), (0x30C0 + 16, 4, 65535), (0x30C0 + 24, 4, 1)] tBind fun m => { m with cores := [(0, { copyCu := 4 })] }
def tCopyTaken : Mach := nodeTaken tCopyNode 1 0x4000 1

theorem witness_FixedFunctionNodesServeRecords_copy :
    ∃ b n h m' eb p, CopyNodeDue tCopyNode 1 0x4000 1 b n h ∧ nodeWork tCopyNode 1 0x4000 1 b h = (m', eb, p, none)
      ∧ (nodeReq tCopyNode.cfg 1 h (nodeTaken tCopyNode 1 0x4000 1)).total ≤ p := by
  let n := readNode tCopyNode.cfg 1 0x1000 1 tCopyNode.m
  let h := readQHdr tCopyNode.cfg 1 0x2000 tCopyNode.m
  have ht : (nodeReq tCopyNode.cfg 1 h tCopyTaken).total - tBind.done 1 = 1 := by decide +kernel
  have hp : (nodeReq tCopyNode.cfg 1 h tCopyTaken).prepare tCopyNode.cfg (nodeIssuer tCopyNode.cfg 1 0x4000 tCopyTaken) (tBind.buf 1) tCopyTaken = (tCopyTaken, {}, none) := by
    decide +kernel
  have hr : (engRun tCopyNode.cfg (nodeIssuer tCopyNode.cfg 1 0x4000 tCopyTaken) (nodeReq tCopyNode.cfg 1 h tCopyTaken) {} 1 (tBind.done 1)
      { tCopyTaken with free := tCopyTaken.free + 1 }).2 = (1, none) := by decide +kernel
  have hw : ∃ m', nodeWork tCopyNode 1 0x4000 1 tBind h = (m', {}, 1, none) := by
    show ∃ m', engWork tCopyNode.cfg (nodeIssuer tCopyNode.cfg 1 0x4000 tCopyTaken) (nodeReq tCopyNode.cfg 1 h tCopyTaken) (tBind.buf 1) (tBind.done 1) tCopyTaken
      = (m', {}, 1, none)
    simp only [engWork]
    rw [hp]
    simp only [Mach.pick, ht, Nat.mod_one, Nat.zero_add]
    exact ⟨_, Prod.ext rfl (congrArg (Prod.mk ({} : EngBuf)) hr)⟩
  obtain ⟨m', e⟩ := hw
  exact ⟨tBind, n, h, m', {}, 1, ⟨⟨by decide +kernel, by decide +kernel⟩, by decide +kernel, by decide +kernel, by decide +kernel, by decide +kernel⟩, e, by decide +kernel⟩

/-- A draw with no pixel outstanding; a HOSTQ held back until now. -/
def tModerated : State := { State.reset with m := { State.reset.m with etime := 4000000, vfs := [(1, { hqHeld := true, hqmod := 4, hqLast := 1 })] } }
theorem witness_FixedFunctionNodesServeRecords_ends :
    (∀ p ∈ (drainPixels tModerated.cfg tModerated.m).pix, p.twin = 5 → p.draw = 65535 → ((drainPixels tModerated.cfg tModerated.m).vf p.vf).away = true)
    ∧ (tModerated.m.vf 1).hqHeld = true ∧ (tModerated.m.vf 1).hqLast - 1 + (tModerated.m.vf 1).hqmod * 1000000 ≤ tModerated.m.etime ∧ (tModerated.m.vf 1).away = false := by
  decide +kernel

/-! ### Surfaces -/

/-- Two surfaces of one block in one tower, of which a waiting access wants the first, whose block is in state `st`, with header word `hdr` in its slot; the block of the
other is in state `st2`; `split` units of TSPLIT are for surfaces. -/
def tWants : Acc := { gid := 0, tid := 0, op := .suld 0x10000 3 3 0, path := .surf }
def tBlocked (i st : Nat) : Surf := { tSquare i 0 with spilled := if st = 0 then [] else [(0, st)], spillb := if st = 1 then 72 else 0 }
def tRake (split hdr st st2 : Nat) : State :=
  { tNode 0 [(0x9000, 4, hdr)] tBind fun m =>
      { m with groups := [tResident], cores := [(0, { accs := [tWants] })], surfs := [tBlocked 0 st, tBlocked 1 st2] } with
    cfg := { parts := [(1, { en := true, twins := 1, tsScr := 0, tsSurf := split })] } }

/-- A spill that begins and one that ends; a refill that begins, one that ends, and one whose backing is corrupt. -/
theorem witness_SurfacesSpillAndRefill :
    ((tRake 0 0 1 0).m.surfAt 1 1 = some (tBlocked 1 0) ∧ (tBlocked 1 0).squareBlocks 0 2 = [] ∧ rakeSpillWanted (tRake 0 0 1 0).cfg (tRake 0 0 1 0).m 1 1 0 = true
      ∧ touchBlocks (tRake 0 0 1 0).cfg (tBlocked 1 0) ((tBlocked 1 0).squareBlocks 0 0) true (tRake 0 0 1 0).m = ((tRake 0 0 1 0).m, .ready))
    ∧ ((tRake 0 0 1 2).m.surfAt 1 1 = some (tBlocked 1 2) ∧ (tBlocked 1 2).squareBlocks 0 2 ≠ [] ∧ (tRake 0 0 1 2).m.rakeRuns 1 = true
      ∧ touchBlocks (tRake 0 0 1 2).cfg (tBlocked 1 2) ((tBlocked 1 2).squareBlocks 0 2) true (tRake 0 0 1 2).m = ((tRake 0 0 1 2).m, .ready))
    ∧ (∃ m', RefillDue (tRake 20 0 1 0) 1 0 0 (tBlocked 0 1) ∧ beginRefill (tRake 20 0 1 0).cfg (tRake 20 0 1 0).m (tBlocked 0 1) 0 = .wait m')
    ∧ ((tRake 20 0 3 0).m.surfAt 1 0 = some (tBlocked 0 3) ∧ (tBlocked 0 3).blockState 0 = 3 ∧ (tRake 20 0 3 0).m.rakeRuns 1 = true
      ∧ touchBlocks (tRake 20 0 3 0).cfg (tBlocked 0 3) [0] false (tRake 20 0 3 0).m = ((tRake 20 0 3 0).m, .ready))
    ∧ RefillDue (tRake 20 1 1 0) 1 0 0 (tBlocked 0 1) ∧ beginRefill (tRake 20 1 1 0).cfg (tRake 20 1 1 0).m (tBlocked 0 1) 0 = .corrupt := by
  refine ⟨by decide +kernel, by decide +kernel, ?_, by decide +kernel, ⟨by decide +kernel, by decide +kernel, by decide +kernel⟩, by decide +kernel⟩
  have h : (match beginRefill (tRake 20 0 1 0).cfg (tRake 20 0 1 0).m (tBlocked 0 1) 0 with | .wait _ => true | _ => false) = true := by decide +kernel
  split at h
  · next m' e => exact ⟨m', ⟨by decide +kernel, by decide +kernel, by decide +kernel⟩, e⟩
  · cases h

/-- A freed surface that nothing names. -/
def tFreed : State := tNode 0 [] tBind fun m => { m with surfs := [{ tSquare 15 0 with st := 2 }] }
/-- A function with a reserve of 2 MiB in use, or none. -/
def tReserve (used : List (Nat × Nat)) : State := tNode 0 [] tBind fun m => m.onVf 1 fun r => { r with resused := used }

theorem witness_SurfacesGo :
    (tFreed.m.surfAt 1 15 = some { tSquare 15 0 with st := 2 } ∧ tFreed.m.surfBusy { tSquare 15 0 with st := 2 } = false
      ∧ touchEntry tFreed.cfg 1 15 tFreed.m = (tFreed.m, .ready))
    ∧ Open (tReserve []) 1 ∧ (tReserve []).m.liveSurf 1 = false
      ∧ (∀ v ∈ [4, 16, 0xFFFFFFE4], 4 ≤ bitsOf v 0 5 ∧ bitsOf v 0 5 ≤ 16) ∧ (∀ v ∈ [3, 17], bitsOf v 0 5 < 4 ∨ 16 < bitsOf v 0 5)
      ∧ Open (tReserve [(0, 4096)]) 1 ∧ (((tReserve [(0, 4096)]).m.vf 1).resused.map (·.2)).sum ≤ 0x3FFFFF / 2 ^ 21 * 2 ^ 21
      ∧ 0x1FFFFF / 2 ^ 21 * 2 ^ 21 < (((tReserve [(0, 4096)]).m.vf 1).resused.map (·.2)).sum ∧ ((tReserve []).m.vf 1).hsstatus ≠ 1 :=
  ⟨by decide +kernel, ⟨by decide +kernel, by decide +kernel⟩, by decide +kernel, by decide +kernel, by decide +kernel, ⟨by decide +kernel, by decide +kernel⟩,
   by decide +kernel, by decide +kernel, by decide +kernel⟩

/-- A host allocation of 32 by 32 texels of the RCB of the root, and one with a reserved bit set. -/
def tHost : State := { tAllocState with m := tAllocState.m.onVf 0 fun r => { r with hsdesc0 := 0x10000 } }

theorem witness_HostAllocationDone :
    (∃ twin m' h, (tAllocState.m.vf 0).hsstatus = 1 ∧ (tAllocState.m.vf 0).away = false ∧ (hostDesc tAllocState 0).bad = false
      ∧ (regionPath tAllocState.cfg 0 tAllocState.m treeDepth (tAllocState.m.vf 0).hsrcb).contains (tAllocState.m.vf 0).root = true
      ∧ descTwin tAllocState.cfg 0 none (hostDesc tAllocState 0) = some twin ∧ tAllocState.m.allocTurn twin (hostReq 0) = true
      ∧ allocSurface tAllocState.cfg 0 (tAllocState.m.vf 0).hsrcb (hostDesc tAllocState 0).layers (hostDesc tAllocState 0).fmt (hostDesc tAllocState 0).height
          (hostDesc tAllocState 0).width twin (hostDesc tAllocState 0).seed tAllocState.m = .ok m' h)
    ∧ (tHost.m.vf 0).hsstatus = 1 ∧ (tHost.m.vf 0).away = false ∧ (hostDesc tHost 0).bad = true := by
  obtain ⟨m', h, e, -⟩ := tAlloc_ok
  have hd : hostDesc tAllocState 0 = { layers := 0, fmt := 0, height := 32, width := 32, seed := 0, here := false, twin := 0, bad := false } := by decide +kernel
  refine ⟨⟨0, m', h, by decide +kernel, by decide +kernel, by decide +kernel, by decide +kernel, by decide +kernel, by decide +kernel, ?_⟩, by decide +kernel⟩
  rw [hd, show (tAllocState.m.vf 0).hsrcb = 0x8000 by decide +kernel]
  exact e

end Sys2Proof.Machine
end

