-- ==== Sys2Proof/Tests/Words.lean ====
section
/-! SUPPORT. Words: witnesses for the statements about words of fixed latency: for each clause a state and operands at the ends of their ranges that meet its
hypotheses. -/

namespace Sys2Proof.Machine

set_option Elab.async false

theorem witness_IntegerWordsComplete :
    (∀ w ∈ integerRows.flatMap fun r => formsR r.acc 1, Readies w) ∧ ∀ w ∈ bitVectorRows.flatMap fun r => fBound.map fun f => formR f none r.2.1 1, Readies w :=
  ⟨readies_all (by decide +kernel), readies_all (by decide +kernel)⟩

/-- The forms of OtherIntegerWordsComplete, in the order of its clauses. -/
def otherIntegerForms : List Form :=
  [ formUn { c := true, h := true, d := 111, a := 119, m := true } none, formUn { c := false, h := false, d := 123, a := 111, m := false } (some qGuard) ]
    ++ formsRt accArith 1 ++ formsRt accPlain 1 ++ formsR accScale 2
    ++ (immediateRows.map fun r => { c := false, q := some (qFor { r.acc with negB := false, hb := false }), acc := r.acc, srcs := [{ f := 111, mm := true }], dst := some { f := 119 } })
    ++ [ { c := true, srcs := [{ f := 111, mm := true }], dst := some { f := 119 } }, { c := false, q := some qGuard, dst := some { f := 111 } }
       , { formR fMod (some (qFor accPlain)) accPlain 1 with always := true }, { c := false, q := some qGuard, srcs := [{ f := 111, mm := false }] }
       , { c := false, q := some qGuard } ]

theorem witness_OtherIntegerWordsComplete : ∀ w ∈ otherIntegerForms, Readies w := readies_all (by decide +kernel)

/-- A lane whose x15 is 246 with window 246 to 255; displacement -1 to 9 then names a register at either end of it. -/
def tIndexed : State := tOn tGang { tGroup with threads := [{ placedThread with c := { x := [(15, 246#32)], winBase := 246, winLimit := 255 } }] }

/-- `movx` reads the last register of the window (10-bit displacement 9) and writes the first (displacement 0). -/
theorem witness_IndexedMoves :
    (∃ k g vs, ({ c := false, dst := some { f := 111 } } : Form).Ready tIndexed k g vs ∧ (∀ x ∈ activeLanes k g,
      let v := x.c.view (issueCycle tIndexed.m k g)
      let n := sx (SMap.get 0 v.x 15).toNat + sext 9 10
      (v.winBase.toNat : Int) ≤ n ∧ n ≤ v.winLimit.toNat ∧ n < g.acquired ∧ rdRegs g.acquired x.c v true n.toNat 1 = .ok [0]))
    ∧ ∃ k g vs, ({ c := false, srcs := [{ f := 119, mm := false }] } : Form).Ready tIndexed k g vs ∧ (∀ x ∈ activeLanes k g,
      let v := x.c.view (issueCycle tIndexed.m k g)
      let n := sx (SMap.get 0 v.x 15).toNat + sext 0 10
      (v.winBase.toNat : Int) ≤ n ∧ n ≤ v.winLimit.toNat ∧ n < g.acquired ∧ x.c.notFull.getLsbD n.toNat = false) :=
  ⟨⟨tGang, tIndexed.m.groups.headD tGroup, _, ready_of (by decide +kernel), by decide +kernel⟩,
   ⟨tGang, tIndexed.m.groups.headD tGroup, _, ready_of (by decide +kernel), by decide +kernel⟩⟩

theorem witness_PredicateWordsComplete :
    ∀ w ∈ formsP { negA := true, negB := true, hb := true } ++ formsP accPlain ++ [{ c := true, dst := some { f := 119 } }, { c := false, q := some qGuard },
      { c := false, q := some qGuard, srcs := [{ f := 111, mm := true }] }], Readies w := readies_all (by decide +kernel)

theorem witness_FloatWordsComplete :
    ∀ w ∈ floatRows.flatMap (fun r => formsR r.acc r.w) ++ fmaRows.flatMap fun r => formsRt r.2.2.2.2 r.2.2.1, Readies w := readies_all (by decide +kernel)

/-- The forms of ConversionAndSpecialWordsComplete. -/
def conversionForms : List Form :=
  [ formCvt true none 111 119 true 1 1, formCvt false (some qGuard) 123 111 false 1 1, formCvt false none 111 110 true 1 2, formCvt false (some qGuard) 118 111 false 2 1
  , formUn { c := true, h := true, d := 119, a := 111, m := true } none, { formCvt false (some (qFor { negA := true, scl := true })) 111 119 false 1 1 with acc := { negA := true, scl := true } }
  , { c := false, q := some (qFor accWide), acc := accWide, dst := some { f := 111 }, srcs := [{ f := pairField 59, w := 2 }, { f := pairField 63, w := 2, cyc := 1 }] }
  , { c := false, q := some (qFor accWide), acc := accWide, dst := some { f := pairField 55, w := 2 }
      srcs := [{ f := pairField 55, w := 2 }, { f := pairField 56, w := 2, cyc := 1 }] }
  , { c := true, acc := { negA := true, negB := true }, srcs := [{ f := pairField 63, w := 2 }, { f := pairField 55, w := 2, cyc := 1 }] } ]
    ++ formsP { negA := true, negB := true, hb := true } ++ formsR accPlain 1

theorem witness_ConversionAndSpecialWordsComplete : ∀ w ∈ conversionForms, Readies w := readies_all (by decide +kernel)

/-- The forms of the collectives. -/
def collectiveForms : List Form :=
  [ formColl true none [] (some { f := 118, w := 2 }), formColl false (some qGuard) [] none
  , formColl false (some qGuard) [{ f := 111 }, { f := 119, cyc := 1 }] (some { f := 119 }), formColl false none [{ f := 123 }] (some { f := 111 })
  , formColl true none [{ f := 111, mm := true }] (some { f := 119 }), formColl false (some qGuard) [] (some { f := 112 })
  , { c := false, q := some qGuard, dst := some { f := 111 } } ]

theorem witness_CollectiveWordsComplete : ∀ w ∈ collectiveForms, Readies w := readies_all (by decide +kernel)

/-- The fused softmax on v111, through v110, v0 and v1, and a gang that stands at it. -/
def tFused : Fused :=
  { x := { c := false, d := 119, a := 111, m := true }, sub := { c := false, h := false, d := 110, a := 111, b := 119, m := true, n := false }
    ex := { c := false, d := 0, a := 110, m := false }, sum := { c := false, d := 1, a := 0, m := false } }
def tFusedGang : Gang :=
  { tGang with run := ([Instr.gredFmax tFused.x none, .fsub tFused.sub none, .ex2 tFused.ex none, .gredFadd tFused.sum none].flatMap encode).map (BitVec.ofNat 32)
               cr := true }
def tFusedState : State := tOn tFusedGang tGroup

theorem fusedTrap_none : ∀ l ∈ (formFused tFused).activeIn tFusedState tFusedGang tGroup (readVals tFusedState tFusedGang tGroup (formFused tFused)),
    fusedTrap tFused ((formFused tFused).activeIn tFusedState tFusedGang tGroup (readVals tFusedState tFusedGang tGroup (formFused tFused))) tFusedGang tGroup
      (issueCycle tFusedState.m tFusedGang tGroup) l = none := by
  have h : ∀ b, fpxOf tGroup b = none := fun b => if_pos BitVec.and_zero
  intro l hl
  obtain ⟨x, hx, rfl⟩ := List.mem_map.1 hl
  have hr : rdOpd tGroup.acquired (tFusedGang.slot + 1) (tFusedGang.slot + 1) (issueCycle tFusedState.m tFusedGang tGroup) x.c
      { f := tFused.x.a, mm := tFused.sub.m } = .ok [0] := by revert x; decide +kernel
  simp only [fusedTrap, h, Form.laneIn]
  simp only [hr]
  have e1 : Dst.bad { f := tFused.sub.d } = false ∧ chkDst tGroup.acquired { f := tFused.sub.d } = none := by decide +kernel
  have e2 : Dst.bad { f := tFused.ex.d } = false ∧ chkDst tGroup.acquired { f := tFused.ex.d } = none := by decide +kernel
  have e3 : Dst.bad { f := tFused.sum.d } = false ∧ chkDst tGroup.acquired { f := tFused.sum.d } = none := by decide +kernel
  simp [e1, e2, e3]

theorem witness_ReductionWordsComplete :
    (∀ w ∈ collectiveForms, Readies w) ∧ ∃ vs, fusedAt tFusedGang.run tFusedGang.slot = some tFused ∧ (formFused tFused).Ready tFusedState tFusedGang tGroup vs
      ∧ (∀ l ∈ (formFused tFused).activeIn tFusedState tFusedGang tGroup vs, fusedTrap tFused ((formFused tFused).activeIn tFusedState tFusedGang tGroup vs)
          tFusedGang tGroup (issueCycle tFusedState.m tFusedGang tGroup) l = none)
      ∧ ∀ x ∈ activeLanes tFusedGang tGroup, ∀ d ∈ [tFused.sub.d, tFused.ex.d, tFused.sum.d], d ≤ 111 → x.c.notFull.getLsbD d = false :=
  ⟨witness_CollectiveWordsComplete, _, by decide +kernel, ready_of (by decide +kernel), fusedTrap_none, by decide +kernel⟩

end Sys2Proof.Machine
end

