-- ==== Sys2Proof/Tests/Drivers.lean ====
section
/-! SUPPORT. Drivers: witnesses for the statements about power, drivers, partitions, firmware, the fleet, steps and encodings. -/

namespace Sys2Proof.Machine

set_option Elab.async false

/-! ### Power -/

/-- A core whose issue units have been idle for 64 cycles. -/
def tIdleUnits : State := { State.reset with m := { State.reset.m with cores := [(0, { unit0 := 8, unit1 := 8, idle0 := 64, idle1 := 64 })] } }
/-- A booted module whose next snapshot is due. -/
def tTelemetry : State :=
  { State.reset with m := { State.reset.m with etime := 1000000000 }, fleet := { State.reset.fleet with booted := true, telbase := 4096, telper := 1, telseq := 0xFFFFFFFE } }

theorem witness_PowerStaysWithinItsLimits :
    ((∀ i < 64, SMap.get 0 [(63, 8128)] i ≤ 8192) ∧ coolEnough [(63, 8128)] 64 = true ∧ (∀ i < 64, SMap.get 0 [(0, 8192)] i ≤ 8192) ∧ coolEnough [(0, 8192)] 1 = false)
    ∧ (gangsIn tIdleUnits.m 0 0 0 = false ∧ gangsIn tIdleUnits.m 0 0 1 = false ∧ 64 ≤ (tIdleUnits.m.core 0 0).idle0 ∧ 64 ≤ (tIdleUnits.m.core 0 0).idle1
      ∧ (tIdleUnits.m.core 0 0).unit0 ≠ 0 ∧ (tIdleUnits.m.core 0 0).unit1 ≠ 0)
    ∧ (∀ c ∈ [160, 352], c % 32 = 0 ∧ 160 ≤ c ∧ c ≤ 352) ∧ ¬ (161 % 32 = 0 ∧ 160 ≤ 161 ∧ 161 ≤ 352 ∧ 32 ≤ 32 ∧ 32 ≤ 64) ∧ (∀ r ∈ [32, 64], 32 ≤ r ∧ r ≤ 64)
    ∧ tTelemetry.fleet.telbase ≠ 0 ∧ tTelemetry.fleet.telper ≠ 0 ∧ tTelemetry.fleet.booted = true ∧ tTelemetry.fleet.halted = false ∧ Memory.wf tTelemetry.m.hmem
      ∧ tTelemetry.fleet.telLast + tTelemetry.fleet.telper * 1000000000 ≤ tTelemetry.m.etime := by decide +kernel

/-! ### Drivers -/

/-- VF 1 with the given registers, and groups. -/
def tVf (r : Vf) (gs : List Group := []) : State :=
  { State.reset with cfg := { parts := [(1, { en := true, twins := 1 })] }, m := { State.reset.m with vfs := [(1, r)], groups := gs } }
def tReady : Vf := { ready := true }

theorem witness_DriverWritesTakeEffect_registers :
    (VfWrite (.causeClear 1 1023) 1 ∧ (State.reset.m.vf 1).ready = false ∧ ((tVf { ready := true, away := true }).m.vf 1).ready = true
      ∧ ((tVf { ready := true, away := true }).m.vf 1).away = true)
    ∧ ((tVf tReady).m.noneResident 1 = true ∧ ((tVf tReady).m.vf 1).binds = [])
    ∧ (Open (tVf { tReady with binds := [tBind] }) 1 ∧ ((tVf { tReady with binds := [tBind] }).m.vf 1).binds ≠ [])
    ∧ (Open (tVf tReady [tResident]) 1 ∧ (tVf tReady [tResident]).m.noneResident 1 = false)
    ∧ (((tVf tReady).m.vf 1).tsplitst ≠ 1 ∧ bitsOf 0x140000 0 1 + bitsOf 0x140000 8 5 + bitsOf 0x140000 16 5 ≤ 20 ∧ (tVf tReady).m.noneResident 1 = true)
    ∧ (bitsOf 0x130001 0 1 + bitsOf 0x130001 8 5 + bitsOf 0x130001 16 5 ≤ 20 ∧ bitsOf 0x130001 0 1 = ((tVf tReady).cfg.part 1).tsScr)
    ∧ 20 < bitsOf 0x140001 0 1 + bitsOf 0x140001 8 5 + bitsOf 0x140001 16 5
    ∧ (bitsOf 0x140000 0 1 ≠ ((tVf tReady [tResident]).cfg.part 1).tsScr ∧ ((tVf tReady [tResident]).m.vf 1).tsplitst ≠ 1)
    ∧ Open (tVf { tReady with tsplitst := 1 }) 1 ∧ ((tVf { tReady with tsplitst := 1 }).m.vf 1).tsplitst = 1 :=
  ⟨⟨Or.inr (Or.inr (Or.inr (Or.inr (Or.inr (Or.inr (Or.inr (Or.inr (Or.inl ⟨1023, rfl⟩)))))))), by decide +kernel⟩, by decide +kernel, ⟨⟨by decide +kernel, by decide +kernel⟩, by decide +kernel⟩,
    ⟨⟨by decide +kernel, by decide +kernel⟩, by decide +kernel⟩, by decide +kernel, by decide +kernel, by decide +kernel, by decide +kernel,
    ⟨by decide +kernel, by decide +kernel⟩, by decide +kernel⟩

/-- A graph of two program nodes, the first of which emits to node `j`; its binding asks for columns 0 and 1. -/
def tBinds (j : Nat) (st : Bool) : State :=
  tNode 0 [(0x1000, 4, 2 ^ 23), (0x1000 + 24, 2, 16), (0x1000 + 32, 4, 0x100), (0x1000 + 84, 2, j), (0x1080, 4, 0)] { tBind with stopped := st }
    fun m => m.onVf 1 fun r => { r with bgraph := 0x1000, bleaf := 0x4000 }

theorem witness_DriverWritesTakeEffect_bindings :
    (Open (tBinds 1 true) 1 ∧ ((tBinds 1 true).m.vf 1).bstatus ≠ 8 ∧ (∀ b, (tBinds 1 true).m.binding? 1 ((tBinds 1 true).m.vf 1).bleaf = some b → b.stopped = true)
      ∧ bindStatus (tBinds 1 true).cfg 1 ((tBinds 1 true).m.vf 1).bgraph 3 2 (bctlStart (tBinds 1 true) 1 3 2) = 1)
    ∧ (∀ r ∈ [(0, 3, 2, 2), (2, 3, 2, 3), (1, 4, 2, 7), (1, 3, 0, 3)], Open (tBinds r.1 true) 1 ∧ ((tBinds r.1 true).m.vf 1).bstatus ≠ 8
      ∧ bindStatus (tBinds r.1 true).cfg 1 ((tBinds r.1 true).m.vf 1).bgraph r.2.1 r.2.2.1 (bctlStart (tBinds r.1 true) 1 r.2.1 r.2.2.1) = r.2.2.2)
    ∧ ∀ st ∈ [false, true], Open (tBinds 1 st) 1
      ∧ (tBinds 1 st).m.binding? 1 (((tBinds 1 st).m.vf 1).unbind.getD ((tBinds 1 st).m.vf 1).bleaf) = some { tBind with stopped := st, count := 3 }
      ∧ ∀ g ∈ (tBinds 1 st).m.groups, g.env.vf = 1 → g.env.leaf = 0x4000 → g.haltable = false := by
  have hb : (tBinds 1 true).m.binding? 1 ((tBinds 1 true).m.vf 1).bleaf = some { tBind with stopped := true } := by decide +kernel
  refine ⟨⟨⟨by decide +kernel, by decide +kernel⟩, by decide +kernel, fun b h => ?_, by decide +kernel⟩, fun r hr => ⟨⟨?_, ?_⟩, ?_, ?_⟩, fun st hs => ⟨⟨?_, ?_⟩, ?_, ?_⟩⟩
  · cases hb.symm.trans h; rfl
  all_goals first | (revert r; decide +kernel) | (revert st; decide +kernel)

/-- A leaf with no group and no record pending, of a domain that runs; a group of it on its core; an UNBIND under way. -/
def tLeft : State := tNode 0 [(0x200C, 4, 0), (0x2110, 4, 0)] tBind fun m => m.onVf 1 fun r => { r with bleaf := 0x4000 }
def tBusyLeaf : State := { tLeft with m := { tLeft.m with groups := [tResident] } }

theorem witness_DriverWritesTakeEffect_unbind :
    (Open tLeft 1 ∧ tLeft.m.binding? 1 ((tLeft.m.vf 1).unbind.getD (tLeft.m.vf 1).bleaf) = some tBind ∧ LeafEmpty tLeft 1 0x4000 tBind)
    ∧ (Open tBusyLeaf 1 ∧ 0x4000 = (tBusyLeaf.m.vf 1).unbind.getD (tBusyLeaf.m.vf 1).bleaf ∧ tBusyLeaf.m.binding? 1 0x4000 = some tBind ∧ tBind.stopped = false
      ∧ tResident ∈ tBusyLeaf.m.groups ∧ tResident.env.vf = 1 ∧ tResident.env.leaf = 0x4000 ∧ tResident.onCore = true)
    ∧ (Open tLeft 1 ∧ (tLeft.m.vf 1).bstatus ≠ 8 ∧ tLeft.m.binding? 1 (tLeft.m.vf 1).bleaf = some tBind)
    ∧ Open (tVf { tReady with bstatus := 8 }) 1 ∧ ((tVf { tReady with bstatus := 8 }).m.vf 1).bstatus = 8 :=
  have e : tLeft.m.groups = [] := by decide +kernel
  ⟨⟨⟨by decide +kernel, by decide +kernel⟩, by decide +kernel, fun g hg => absurd (e ▸ hg) List.not_mem_nil, fun _ => by decide +kernel⟩,
   ⟨⟨by decide +kernel, by decide +kernel⟩, by decide +kernel⟩, ⟨⟨by decide +kernel, by decide +kernel⟩, by decide +kernel⟩, ⟨by decide +kernel, by decide +kernel⟩,
   by decide +kernel⟩

/-- A window at page 0, which is mapped; an access that waits for its page. -/
def tWindow : State := tNode 0 []
def tPosted : State := tVf { tReady with posted := [{ va := 0, n := 4, write := false, v := 0 }] }

theorem witness_HostAccessesAndRegisterWritesTakeEffect :
    (2 ^ 38 - 4) % 4 = 0 ∧ Open tWindow 1 ∧ 65532 % 4 = 0 ∧ Bar2Due tWindow 1 65532 4 ∧ Bar2Due tWindow 1 65504 32
    ∧ ((tPosted.m.vf 1).ready = true ∧ 2 ^ 38 - 8 + 8 ≤ 2 ^ (tPosted.m.vf 1).bar2Bits ∧ (tPosted.m.vf 1).posted ≠ [])
    ∧ Open (tVf tReady) 1 ∧ 0x88 < 65536 ∧ 65536 ≤ 65536 + 8 ∧ bitsOf 0x0FFF0FFF 14 2 = 0 ∧ tReady.bstatus ≠ 8 :=
  ⟨by decide, ⟨by decide +kernel, by decide +kernel⟩, by decide, ⟨by decide +kernel, by decide +kernel, by decide +kernel⟩,
   ⟨by decide +kernel, by decide +kernel, by decide +kernel⟩, by decide +kernel, ⟨by decide +kernel, by decide +kernel⟩, by decide +kernel⟩

/-- A faulted block, and a frozen group with its log entry 15. -/
def tFaulted : Kick := { gid := 0, off := 64, obj := none, req := 64, faulted := true }
def tEngines : State :=
  tVf { tReady with faults := [{ ring := 63, kind := 1, column := 0, core := 0, gid := 0, off := 64 }]
                    frzlog := [(15, { kind := 0, column := 0, core := 0, why := 1, rid := 0, what := 0, gid := 0 })] } [{ tResident with frozen := true }]
def tFaults : State := { tEngines with m := { tEngines.m with cores := [(0, { kicks := [tFaulted] })] } }

theorem witness_DriverEndsFaultsAndFreezes :
    (∀ v ∈ [1, 2], bitsOf v 0 4 = 1 ∨ bitsOf v 0 4 = 2)
    ∧ ((tFaults.m.vf 1).away = false ∧ tFaults.m.engFault? 1 63 = some { ring := 63, kind := 1, column := 0, core := 0, gid := 0, off := 64 }
      ∧ (tFaults.m.core 0 0).kicks.find? (fun k => k.gid == 0 && k.off == 64 && k.faulted) = some tFaulted
      ∧ tFaults.m.group? 0 = some { tResident with frozen := true })
    ∧ ((tFaults.m.vf 1).ready = true ∧ (tFaults.m.vf 1).away = false ∧ (tFaults.m.vf 1).frzwait = []
      ∧ (tFaults.m.vf 1).frzlog.find? (fun e => e.1 == 15) = some (15, { kind := 0, column := 0, core := 0, why := 1, rid := 0, what := 0, gid := 0 })
      ∧ frzMaster tFaults.cfg 1 { kind := 0, column := 0, core := 0, why := 1, rid := 0, what := 0, gid := 0 } tFaults.m = some { tResident with frozen := true }
      ∧ tFaults.m.group? 0 = some { tResident with frozen := true } ∧ ({ tResident with frozen := true } : Group).offence = none
      ∧ (∀ e ∈ (tFaults.m.vf 1).frzlog, e.1 ≠ 15 → ({ kind := 0, column := 0, core := 0, why := 1, rid := 0, what := 0, gid := 0 } : Frz).sameMaster e.2 = false)
      ∧ (tFaults.m.vf 1).frzlog.find? (fun e => e.1 == 0) = none)
    ∧ ((tVf { tReady with away := true }).m.vf 1).away = true := by decide +kernel

/-! ### Partitions -/

/-- Partition 1 with descriptor `p`, and VF 2 sharing its twins by time. -/
def tParts (p : Part) (r : Vf) : State :=
  { State.reset with
    cfg := { parts := [(1, p), (2, { en := true, slice := 1, twins := 63 })] }
    m := { State.reset.m with vfs := [(1, r), (2, { away := true })] } }
def tShared : Part := { en := true, slice := 1, twins := 63, quant := 0 }

theorem witness_PartitionsOpenSwitchAndReset_descriptors :
    (∀ r ∈ [(0, 1, true), (0, 3, true), (0, 7, true), (0, 63, true), (0, 15, false), (0, 0, false), (1, 63, true)],
      enableOk State.reset.cfg 63 r.1 r.2.1 = r.2.2)
    ∧ bitOf (2 ^ 31 + 63) 31 = true ∧ bitOf 63 31 = false ∧ 1 ≤ 63 ∧ 63 ≤ 63 ∧ (State.reset.cfg.part 63).en = false ∧ ((tVf tReady).cfg.part 1).en = true
    ∧ enableOk (tParts tShared {}).cfg 63 1 63 = true ∧ enableOk (tParts tShared {}).cfg 63 0 63 = false
    ∧ (((tParts { shareNext := some (true, 63, 63, 63) } {}).cfg.part 1).shareNext = some (true, 63, 63, 63)
      ∧ ((tParts { shareNext := some (true, 63, 63, 63) } {}).cfg.part 1).shareAt ≤ (tParts { shareNext := some (true, 63, 63, 63) } {}).m.etime)
    ∧ (tParts { shareAt := 1000000 } {}).m.etime < ((tParts { shareAt := 1000000 } {}).cfg.part 1).shareAt
    ∧ ((tParts { tsNext := some (1, 0, 19) } { tsplitst := 1 }).cfg.part 1).tsNext = some (1, 0, 19) ∧ ((tParts { tsNext := some (1, 0, 19) } { tsplitst := 1 }).m.vf 1).tsplitst = 1
    ∧ touchSpill (tParts { tsNext := some (1, 0, 19) } { tsplitst := 1 }).cfg 1 (tParts { tsNext := some (1, 0, 19) } { tsplitst := 1 }).m
      = ((tParts { tsNext := some (1, 0, 19) } { tsplitst := 1 }).m, .ready) := by
  decide +kernel

theorem witness_PartitionsOpenSwitchAndReset_resets :
    ((tVf tReady).m.vf 1).ready = true ∧ (State.reset.m.vf 1).ready = false ∧ ((tVf { flrDrain := true }).m.vf 1).flrDrain = true
      ∧ ∀ g ∈ (tVf { flrDrain := true }).m.groups, g.env.vf ≠ 1 := by decide +kernel

/-- A switch with a resident group, and one with none; another turn of the loaded partition, while its only rival is disabled. -/
def tTurn : Part := { en := true, slice := 1, twins := 1, quant := 0 }
def tSwitch (gs : List Group) : State :=
  { tParts tTurn tReady with cfg := { parts := [(1, tTurn), (2, tTurn)] }, m := { (tParts tTurn tReady).m with groups := gs } }
def tAgain : State := { tSwitch [] with cfg := { parts := [(1, tTurn)] } }
theorem witness_PartitionsOpenSwitchAndReset_switches :
    (switchable (tSwitch [tResident]).cfg 1 2 (tSwitch [tResident]).m = true ∧ switchBusy 1 (switchOut (tSwitch [tResident]).cfg 1 (tSwitch [tResident]).m) = true)
    ∧ switchable (tSwitch []).cfg 1 2 (tSwitch []).m = true ∧ switchBusy 1 (switchOut (tSwitch []).cfg 1 (tSwitch []).m) = false
      ∧ (swimgRange (tSwitch []).cfg 1).2 % 2 ^ 42 ≤ deviceBytes
      ∧ touchSpill (tSwitch []).cfg 1 (switchOut (tSwitch []).cfg 1 (tSwitch []).m) = (switchOut (tSwitch []).cfg 1 (tSwitch []).m, .ready)
      ∧ swimgLost (tSwitch []).cfg 1 (switchStart (tSwitch []) 1) = false ∧ imageLost (tSwitch []).cfg 2 (switchPut (tSwitch []) 1) = false
    ∧ switchable tAgain.cfg 1 1 tAgain.m = true := by decide +kernel

/-! ### Fleet -/

/-- A module whose fleet registers are as given. -/
def tFleet (f : Fleet) : State := { State.reset with fleet := f }

theorem witness_FirmwareIsChecked :
    State.reset.fleet.fwstatus ≠ 1 ∧ (tFleet { staging := true }).fleet.staging = true
    ∧ revokeRefused { booted := true, signer := 3 } 0 = false ∧ revokeRefused { booted := true, signer := 3 } 3 = true
    ∧ revokeRefused { fuses := { revoked := 7 } } 3 = true ∧ State.reset.fleet.attctl ≠ 1
    ∧ ((tFleet { attctl := 1, attbuf := 4096 }).fleet.attctl = 1 ∧ (tFleet { attctl := 1, attbuf := 4096 }).fleet.attbuf ≠ 0
      ∧ Memory.wf (tFleet { attctl := 1, attbuf := 4096 }).m.hmem)
    ∧ (tFleet { attctl := 1 }).fleet.attbuf = 0 ∧ State.reset.fleet.booted = false ∧ State.reset.fleet.bootError = 0 := by decide +kernel

theorem witness_ModuleEventsKeepTheFleetRules :
    (tVf tReady).cfg.anyEnabled = true ∧ State.reset.cfg.anyEnabled = false
    ∧ ((tFleet { domJoin := true }).fleet.domJoin = true ∧ (tFleet { domJoin := true }).fleet.domIn = false ∧ (tFleet { domJoin := true }).fleet.domDup = false)
    ∧ (tFleet { domIn := true }).fleet.domIn = true
    ∧ State.reset.m.via 11 47 8 < 2 ∧ SMap.get 0 State.reset.fleet.chans (chanKey 11 23) = 0 ∧ SMap.get 0 State.reset.fleet.spares 11 = 0
    ∧ SMap.get 0 (tFleet { spares := [(11, 1)] }).fleet.spares 11 ≠ 0
    ∧ State.reset.fleet.halted = false ∧ State.reset.fleet.powered = true ∧ 1280 ∈ linkRates ∧ 16 ∈ [1, 4, 8, 16] := by decide +kernel

/-! ### Steps, encodings, whole-machine rules -/

/-- The test gang with a run of words, at slot `n`, and the state in which it moves next. -/
def tRunOf (ws : List Word) (n : Nat) : Gang := { tGang with st := .issuing, run := ws, slot := n, first := n }
def tAt (k : Gang) : State := { tOn k tGroup with fleet := { booted := true } }
theorem movesNext_of {k : Gang} (h : (tAt k).m.curGang = some (k, tGroup)) : MovesNext (tAt k) k tGroup := ⟨rfl, rfl, rfl, h, rfl, rfl⟩

/-- A gang at a word that no fused pattern begins. -/
def WordDue (k : Gang) : Prop := MovesNext (tAt k) k tGroup ∧ AtWord k ∧ fusedAt k.run k.slot = none
theorem wordDue_of {ws : List Word} {n : Nat} (h : (tAt (tRunOf ws n)).m.curGang = some (tRunOf ws n, tGroup) ∧ fusedAt ws n = none) : WordDue (tRunOf ws n) :=
  ⟨movesNext_of h.1, ⟨GangSt.noConfusion, GangSt.noConfusion, IssueMode.noConfusion⟩, h.2⟩

/-- The word at a gang's slot decodes, and stands alone. -/
def loneWord (k : Gang) : Bool :=
  match decodeAt k.wordAt k.wordAfter with
  | .ok (_, n) => !(instrAt k.run k.slot).2.2 || (k.slot + n) % 3 == 0
  | .error _ => false
theorem loneWord_of {k : Gang} (h : loneWord k = true) :
    ∃ i n, decodeAt k.wordAt k.wordAfter = .ok (i, n) ∧ ((instrAt k.run k.slot).2.2 = false ∨ (k.slot + n) % 3 = 0) := by
  unfold loneWord at h
  cases e : decodeAt k.wordAt k.wordAfter with
  | error x => rw [e] at h; cases h
  | ok r => rw [e] at h; exact ⟨r.1, r.2, rfl, by simpa using h⟩

/-- Words of three pipes with chain bits: `iadd`, `pand` and `ffma`. -/
def tChain : List Word := [0x82050C1C, 0xB20620B0, 0x44F105EA, 0, 0, 0x7C000000]

/-- A first word alone, a last word of a packet with its chain bit set, a word with its modifier; reserved words; a chain of three; two words of one pipe; a chain to
the trailer; a gang just formed, and one at its trailer; a fused softmax; no gang chosen. -/
theorem witness_StepRunsTheDecodedInstruction :
    (∀ r ∈ [([0x00000000, 0, 0x7C000000], 0), ([0, 0, 0x82050C1C, 0, 0, 0x7C000000], 2), ([0x40010403, 0x7F007C00, 0, 0, 0, 0x7C000000], 0)],
      WordDue (tRunOf r.1 r.2) ∧ ∃ i n, decodeAt (tRunOf r.1 r.2).wordAt (tRunOf r.1 r.2).wordAfter = .ok (i, n)
        ∧ ((instrAt (tRunOf r.1 r.2).run (tRunOf r.1 r.2).slot).2.2 = false ∨ ((tRunOf r.1 r.2).slot + n) % 3 = 0))
    ∧ (∀ r ∈ [([0x78000000, 0, 0x7C000000], 0), ([0, 0, 0xF8000000, 0, 0, 0x7C000000], 2)], WordDue (tRunOf r.1 r.2)
      ∧ (decodeAt (tRunOf r.1 r.2).wordAt (tRunOf r.1 r.2).wordAfter).toOption.isNone = true
      ∧ (chainBit (tRunOf r.1 r.2).wordAt = false ∨ ((tRunOf r.1 r.2).slot + 1) % 3 = 0))
    ∧ (WordDue (tRunOf tChain 0) ∧ (issueGroup tChain 3 0).2 = false ∧ (issueGroup tChain 3 0).1.length = 3 ∧ pipesMeet (issueGroup tChain 3 0).1 = false)
    ∧ (WordDue (tRunOf [0x82050C1C, 0x02050C1C, 0, 0, 0, 0x7C000000] 0) ∧ pipesMeet (issueGroup [0x82050C1C, 0x02050C1C, 0, 0, 0, 0x7C000000] 3 0).1 = true)
    ∧ (WordDue (tRunOf [0, 0x82050C1C, 0x7C000000] 1) ∧ (issueGroup [0, 0x82050C1C, 0x7C000000] 3 1).2 = true)
    ∧ (∀ st ∈ [GangSt.formed, .trailer], MovesNext (tAt { tGang with st := st }) { tGang with st := st } tGroup)
    ∧ (MovesNext (tAt tFusedGang) tFusedGang tGroup ∧ AtWord tFusedGang ∧ (fusedAt tFusedGang.run tFusedGang.slot).isSome = true)
    ∧ State.reset.agenda = [] ∧ State.reset.fleet.powered = true ∧ State.reset.fleet.halted = false ∧ State.reset.m.cur = none :=
  ⟨fun r hr => ⟨wordDue_of (by revert r; decide +kernel), loneWord_of (by revert r; decide +kernel)⟩,
   fun r hr => ⟨wordDue_of (by revert r; decide +kernel), by revert r; decide +kernel, by revert r; decide +kernel⟩,
   ⟨wordDue_of (by decide +kernel), by decide +kernel⟩, ⟨wordDue_of (by decide +kernel), by decide +kernel⟩, ⟨wordDue_of (by decide +kernel), by decide +kernel⟩,
   fun st hs => movesNext_of (by revert st; decide +kernel), ⟨movesNext_of (by decide +kernel), ⟨by decide, by decide, by decide⟩, by decide +kernel⟩, by decide⟩

/-- The state after reset is legal, and steps. -/
theorem witness_StepsKeepTheConfigurationLegal : State.reset.Legal ∧ ∃ t, step (State.reset.withFetchWord 32 0) = .next t := by
  have part (v : Nat) : State.reset.cfg.part v = {} := rfl
  refine ⟨⟨fun v => ?_, ?_⟩, _, rfl⟩
  · rw [part]
    exact ⟨⟨⟨by decide, by decide⟩, fun a b c h => by cases h⟩, fun h => by cases h⟩
  · unfold Fleet.legal; decide

/-- Every kind of format at boundary fields is a well-formed word, and what it encodes to decodes. -/
theorem witness_Encodings :
    (∀ f ∈ fBound, (Instr.iadd f none).isWord = true ∧ (Instr.iadd f none).wf = true)
    ∧ (Instr.fadd fMod (some (qFor { negA := true, negB := true, scl := true }))).isWord = true
      ∧ (Instr.fadd fMod (some (qFor { negA := true, negB := true, scl := true }))).wf = true
    ∧ (Instr.bra { c := true, k := 63, g := true, d := 0x3FFFF } none).wf = true ∧ (Instr.endrun { j := true, y := true, r := true, w := 0xFFFF }).wf = true := by
  decide +kernel

/-- A word that runs. -/
theorem witness_ProgramWordsLeaveDriverState : ∃ t, (Instr.nop { c := false }).isWord = true ∧ exec (.nop { c := false }) tState = .next t := ⟨_, by decide, rfl⟩

end Sys2Proof.Machine
end

