-- ==== Sys2Proof/Tests/Effects.lean ====
section
/-! SUPPORT. Effects: witnesses for the statements about words with an effect on the machine. -/

namespace Sys2Proof.Machine

set_option Elab.async false

/-- Uniform words: without a modifier and under a guard; `sld` of the last word of the window. -/
theorem witness_UniformWordsComplete :
    ActsMet (formBare true none) always ∧ ActsMet (formBare false (some qGuard)) always ∧ ActsMet (formA true none 111 true 1) always
    ∧ ActsMet (formBare true none) (fun s k g l => let off := (uniRead s k g 63).toNat + 4 * 63
        scrCheck g off 4 4 off = none ∧ lossCheck s.m g .scr 0 off 4 = none ∧ acqPending s.m g l.t.tid = false
          ∧ s.m.lockedAt g.column g.core off 4 = false ∧ (s.m.accsOf g l.t.tid).any (fun a => a.path == .scr && a.isStore) = false) :=
  ⟨acts_met tState tGang tGroup (by decide +kernel) (fun _ _ => trivial), acts_met tState tGang tGroup (by decide +kernel) (fun _ _ => trivial),
   acts_met tState tGang tGroup (by decide +kernel) (fun _ _ => trivial),
   acts_met (tOn tGang (tUni [(63, 65280#32)])) tGang (tUni [(63, 65280#32)]) (by decide +kernel) (by dsimp only; decide +kernel)⟩

/-- Control words, and `call` with k63 inverted, in a lane whose v110 is full and below the acquired count. -/
theorem witness_ControlWordsComplete :
    ActsMet (formBare false (some qGuard)) always ∧ ActsMet (formA true none 111 true 1) always
    ∧ ∃ s k g vs, (formBare false (some qGuard)).Ready s k g vs ∧ 110 < g.acquired
      ∧ (∃ x ∈ (formBare false (some qGuard)).lanes s k g, (x.c.view (issueCycle s.m k g)).pred 63 ≠ true)
      ∧ ∀ x ∈ (formBare false (some qGuard)).lanes s k g, (x.c.view (issueCycle s.m k g)).pred 63 ≠ true → x.c.notFull.getLsbD 110 = false :=
  ⟨acts_met tState tGang tGroup (by decide +kernel) (fun _ _ => trivial), acts_met tState tGang tGroup (by decide +kernel) (fun _ _ => trivial),
   tState, tGang, tGroup, _, ready_of (by decide +kernel), by decide +kernel, by decide +kernel, by decide +kernel⟩

/-- A partition with all 20 units of TSPLIT tower-direct: 160 MiB in each tower. -/
def tTdir (k : Gang) (g : Group) : State := { tOn k g with cfg := { parts := [(0, { tsTdir := 20 })] } }

/-- Loads of 16 bytes whose last byte is the last of the window, of the aperture's part of it, of the addresses below the aperture, and of tower 47's portion; a modifier
with ORD 1 and the widest scope. -/
theorem witness_LoadWordsIssue :
    (∃ f q, f.z < 7 ∧ ActsMet (formLd f q accLd 2) fun s _ g l => memCheck 0 s.cfg s.m g l f.o (loadForm f.z).1 = none ∧ memBusy true s.m g l = false)
    ∧ (∃ f q, f.z < 7 ∧ inAperture (0x1FFFFFFFF80FFF0 : Nat) = true
        ∧ ActsMet (formLd f q accLd 2) fun s _ g l => memCheck 0 s.cfg s.m g l f.o (loadForm f.z).1 = none ∧ memBusy true s.m g l = false)
    ∧ (∃ f q, f.z < 7 ∧ ActsMet (formLd f q accLds 1) fun s _ g l => memCheck 1 s.cfg s.m g l f.o (loadForm f.z).1 = none ∧ memBusy true s.m g l = false)
    ∧ ∃ f q, f.z < 7 ∧ ActsMet (formLd f q {} 2) fun s _ g l => memCheck 2 s.cfg s.m g l f.o (loadForm f.z).1 = none ∧ memBusy true s.m g l = false :=
  ⟨⟨⟨false, 4, 108, 110, true, 127⟩, some { qGuard with ord := 1, scope := 6 }, by decide,
     acts_met (tOn tGang (tGrp [(110, 0xFF800000#32), (111, 0x1FFFFFF#32)])) tGang (tGrp [(110, 0xFF800000#32), (111, 0x1FFFFFF#32)]) (by decide +kernel) (by dsimp only; decide +kernel)⟩,
   ⟨⟨true, 4, 0, 110, true, 0⟩, none, by decide, by decide +kernel,
     acts_met (tOn tGang (tGrp [(110, 0xFF80FFF0#32), (111, 0x1FFFFFF#32)])) tGang (tGrp [(110, 0xFF80FFF0#32), (111, 0x1FFFFFF#32)]) (by decide +kernel) (by dsimp only; decide +kernel)⟩,
   ⟨⟨false, 4, 0, 111, true, 127⟩, some { qGuard with ord := 1 }, by decide,
     acts_met (tOn tGang (tGrp [(111, 65536#32)])) tGang (tGrp [(111, 65536#32)]) (by decide +kernel) (by dsimp only; decide +kernel)⟩,
   ⟨⟨false, 4, 108, 110, true, 127⟩, some qGuard, by decide,
     acts_met (tTdir tGang (tGrp [(110, 167772160#32), (111, 47#32)])) tGang (tGrp [(110, 167772160#32), (111, 47#32)]) (by decide +kernel) (by dsimp only; decide +kernel)⟩⟩

/-- Stores at the same places, from the last register and from temporaries. -/
theorem witness_StoreWordsIssue :
    (∃ f q, f.z < 5 ∧ ActsMet (formSt f q accSt 2) fun s _ g l => memCheck 0 s.cfg s.m g l f.o (loadForm f.z).1 = none ∧ memBusy false s.m g l = false)
    ∧ (∃ f q, f.z < 5 ∧ ActsMet (formSt f q accSts 1) fun s _ g l => memCheck 1 s.cfg s.m g l f.o (loadForm f.z).1 = none ∧ memBusy false s.m g l = false)
    ∧ ∃ f q, f.z < 5 ∧ ActsMet (formSt f q {} 2) fun s _ g l => memCheck 2 s.cfg s.m g l f.o (loadForm f.z).1 = none ∧ memBusy false s.m g l = false :=
  ⟨⟨⟨false, 4, 108, 110, true, 127⟩, some { qGuard with ord := 2, scope := 6 }, by decide,
     acts_met (tOn tGang (tGrp [(110, 0xFF800000#32), (111, 0x1FFFFFF#32)])) tGang (tGrp [(110, 0xFF800000#32), (111, 0x1FFFFFF#32)]) (by decide +kernel) (by dsimp only; decide +kernel)⟩,
   ⟨⟨false, 0, 119, 111, true, 127⟩, some { qGuard with ord := 2 }, by decide,
     acts_met (tOn tGang (tGrp [(111, 65536#32)])) tGang (tGrp [(111, 65536#32)]) (by decide +kernel) (by dsimp only; decide +kernel)⟩,
   ⟨⟨true, 3, 118, 110, true, 0⟩, none, by decide,
     acts_met (tTdir tGang (tGrp [(110, 167772152#32), (111, 47#32)])) tGang (tGrp [(110, 167772152#32), (111, 47#32)]) (by decide +kernel) (by dsimp only; decide +kernel)⟩⟩

/-- An address below the aperture by `n`. -/
def tHigh (n : Nat) : SMap Word := [(110, BitVec.ofNat 32 (apertureBase - n)), (111, BitVec.ofNat 32 ((apertureBase - n) / 2 ^ 32))]

/-- Atomics on the last word below the aperture and on the last of the window, with ORD 3 and the widest scope; `cas` reads its destination, too. -/
theorem witness_AtomicAndScWordsIssue :
    (∃ f : FAtom, ∃ q, ActsMet { c := f.c, q := q, acc := accAtom, dst := some { f := f.d, long := true }
                                 srcs := [{ f := f.a, mm := f.m, w := 2 }, { f := f.b, mm := f.m, cyc := 1 }] }
      fun s _ g l => globCheck g (l.val 0) 4 = none ∧ lossCheck s.m g (placeOf (l.val 0)).1 0 (placeOf (l.val 0)).2 4 = none ∧ memBusy true s.m g l = false)
    ∧ (∃ f : FAtom, ∃ q, ActsMet { c := f.c, q := q, acc := accAtom, dst := some { f := f.d, long := true }
                                   srcs := [{ f := f.a, mm := f.m, w := 2 }, { f := f.b, mm := f.m, cyc := 1 }, { f := f.d, mm := f.m, cyc := 2 }] }
      fun s _ g l => globCheck g (l.val 0) 4 = none ∧ lossCheck s.m g (placeOf (l.val 0)).1 0 (placeOf (l.val 0)).2 4 = none ∧ memBusy true s.m g l = false)
    ∧ (∃ f : FLdsc, ∃ q, f.z < 2 ∧ ActsMet { c := f.c, q := q, srcs := [{ f := f.a, mm := f.m, w := 2 }], dst := some { f := f.d, w := f.z + 1, long := true } }
      fun s _ g l => scCheck g (l.val 0) (4 * (f.z + 1)) = none ∧ scBusy s.m g l = false)
    ∧ (∃ f : FStsc, ∃ q, f.z < 2 ∧ ActsMet
        { c := f.c, q := q, acc := { hb := true }, srcs := [{ f := f.a, mm := f.m, w := 2 }, { f := f.b, mm := f.n, w := f.z + 1, cyc := 1 }] }
      fun s _ g l => scCheck g (l.val 0) (4 * (f.z + 1)) = none ∧ scBusy s.m g l = false)
    ∧ ∃ f : FAsc, ∃ q, ActsMet { c := f.c, q := q, dst := some { f := f.d, long := true }
                                 srcs := [{ f := pairField f.a, w := 2 }, { f := f.b, cyc := 1 }, { f := f.d, cyc := 2 }] }
      fun s _ g l => scCheck g (l.val 0) 4 = none ∧ scBusy s.m g l = false :=
  ⟨⟨⟨false, 109, 110, 119, true⟩, some { qGuard with ord := 3, scope := 6, hb := true }, acts_on (tGrp (tHigh 4)) id (by decide +kernel) (by dsimp only; decide +kernel)⟩,
   ⟨⟨true, 0, 110, 123, true⟩, none, acts_on (tGrp [(110, 0xFF80FFFC#32), (111, 0x1FFFFFF#32)]) id (by decide +kernel) (by dsimp only; decide +kernel)⟩,
   ⟨⟨false, 108, 110, true, 1⟩, some qGuard, by decide, acts_on (tGrp (tHigh 8)) id (by decide +kernel) (by dsimp only; decide +kernel)⟩,
   ⟨⟨true, 110, 118, true, true, 1⟩, none, by decide, acts_on (tGrp (tHigh 8)) id (by decide +kernel) (by dsimp only; decide +kernel)⟩,
   ⟨⟨false, 109, 55, 119⟩, some qGuard, acts_on (tGrp (tHigh 4)) id (by decide +kernel) (by dsimp only; decide +kernel)⟩⟩

/-- Fences of each order; cache words on the last line of 57 bits, which lies in the aperture, and below it. -/
theorem witness_FenceAndCacheWordsComplete :
    (∀ o ∈ [1, 2, 3], ∃ q : Modifier, q.ord = o ∧ ActsMet { c := false, q := some q, acc := { ords := [1, 2, 3], scopes := 7 } }
      fun s _ g l => accPending s.m g l.t.tid = false)
    ∧ ActsMet (formBare true none) (fun s _ g l => towPending s.m g l.t.tid = false ∧ acqPending s.m g l.t.tid = false)
    ∧ ActsMet (formA false (some qGuard) 110 true 2) (fun s _ g l => inAperture (l.val 0) = false ∧ l.val 0 < 2 ^ 57 ∧ memBusy false s.m g l = false)
    ∧ ActsMet (formA true none 110 true 2) (fun s _ g l => l.val 0 < 2 ^ 57 ∧ memBusy false s.m g l = false)
    ∧ ∃ f : FPref, f.l < 2 ∧ ActsMet (formA f.c none f.a f.m 2) fun s _ g l => memBusy false s.m g l = false :=
  ⟨fun o ho => ⟨{ qGuard with ord := o, scope := 6 }, rfl, acts_on tGroup id (by revert o; decide +kernel) (by revert o; dsimp only; decide +kernel)⟩,
   acts_on tGroup id (by decide +kernel) (by decide +kernel),
   acts_on (tGrp (tHigh 1)) id (by decide +kernel) (by decide +kernel),
   acts_on (tGrp [(110, 0xFFFFFFFF#32), (111, 0x1FFFFFF#32)]) id (by decide +kernel) (by decide +kernel),
   ⟨true, 110, true, 1⟩, by decide, acts_on (tGrp [(110, 0xFFFFFFFF#32), (111, 0xFFFFFFFF#32)]) id (by decide +kernel) (by dsimp only; decide +kernel)⟩

/-- A group of two threads, of which one gang holds the first. -/
def tTwo : Group := tPair

/-- `bar`: the only thread completes it; one of two threads parks; the second of two completes it. `bar.s`: one of two threads speculates; the only one does not. -/
theorem witness_BarrierWordsCompleteOrWait :
    WhenMet (formBar { c := true } none)
      (fun s _ g ls => (∀ l ∈ ls, accPending s.m g l.t.tid = false) ∧ barWaiters (arrived s g ls) g.gid ls = [])
    ∧ WhenMet (formBar { c := false } none)
      (fun s _ g ls => (∀ l ∈ ls, accPending s.m g l.t.tid = false) ∧ barWaiters (arrived s g ls) g.gid ls ≠ [])
    ∧ WhenMet (formBar { c := false } none)
      (fun s _ g ls => 0 < g.hold.spc ∧ (∀ l ∈ ls, l.t.bar = none ∧ accPending s.m g l.t.tid = false)
        ∧ barWaiters (arrived s g ls) g.gid ls = ls.map (·.t.tid)) :=
  ⟨when_on tGang tGroup id (by decide +kernel) (by decide +kernel), when_on tGang tTwo id (by decide +kernel) (by decide +kernel),
   when_on tGang tTwo id (by decide +kernel) (by decide +kernel)⟩

/-- A phase object in the last 16 bytes of the window. -/
def tPhase (o : PhaseObj) (m : Mach) : Mach := m.putPhase 0 65520 o

/-- Phase-barrier words on the last object of the window: b = 2^20, an arrival of the whole of PEND, parity 1 and 0, a wait. -/
theorem witness_PhaseBarrierWordsComplete :
    ActsMet (formPb { c := false, a := 111, b := 110, m := true, n := true } (some qGuard))
      (fun s _ g l => pbCheck s.m g (l.val 0) = none ∧ l.val 1 ≠ 0 ∧ l.val 1 ≤ 2 ^ 20 ∧ pbBusy s.m g l = false)
    ∧ WhenMet (formPb { c := true, a := 111, b := 110, m := true, n := true } none)
      (fun s _ g ls => ∀ l ∈ ons ls, pbCheck s.m g (l.val 0) = none ∧ pbBusy s.m g l = false ∧ accPending s.m g l.t.tid = false
        ∧ l.val 1 ≠ 0 ∧ l.val 1 ≤ (objBefore s.m g ls l).pend)
    ∧ ActsMet (formPb { c := false, a := 111, b := 123, m := true, n := true } none) (fun s _ g l => pbCheck s.m g (l.val 0) = none ∧ pbBusy s.m g l = false)
    ∧ ActsMet (formA false none 111 true 1)
      (fun s _ g l => pbCheck s.m g (l.val 0) = none ∧ pbBusy s.m g l = false ∧ (phaseOf s g l).ph ≠ if true then 1 else 0)
    ∧ WhenMet (formA false none 111 true 1)
      (fun s _ g ls => (∀ l ∈ ons ls, pbCheck s.m g (l.val 0) = none ∧ pbBusy s.m g l = false) ∧ ∃ l ∈ ons ls, (phaseOf s g l).ph = if false then 1 else 0)
    ∧ (∃ (o : PhaseObj) (b : Nat), 0 < b ∧ b ≤ o.pend) ∧ (∃ o : PhaseObj, o.pend < 1) ∧ (∃ o : PhaseObj, o.pend = 0 ∧ o.bal = 0)
    ∧ ∃ o : PhaseObj, ¬ (o.pend = 0 ∧ o.bal = 0) :=
  ⟨acts_on (tGrp [(111, 65520#32), (110, 1048576#32)]) id (by decide +kernel) (by decide +kernel),
   when_on tGang (tGrp [(111, 65520#32), (110, 1048576#32)]) (tPhase { pend := 1048576, expect := 1048576, bal := 0, ph := 0 }) (by decide +kernel) (by decide +kernel),
   acts_on (tGrp [(111, 65520#32)]) id (by decide +kernel) (by decide +kernel),
   acts_on (tGrp [(111, 65520#32)]) id (by decide +kernel) (by decide +kernel),
   when_on tGang (tGrp [(111, 65520#32)]) id (by decide +kernel) (by decide +kernel),
   ⟨⟨1, 1, 0, 0⟩, 1, by decide, by decide⟩, ⟨⟨0, 1, 0, 0⟩, by decide⟩, ⟨⟨0, 1, 0, 0⟩, rfl, rfl⟩, ⟨⟨0, 1, 1, 0⟩, by decide⟩⟩

/-- A machine with a cached translation of the page below the aperture. -/
def tCached (m : Mach) : Mach := { m with tlb := [{ vf := 0, vpn := (apertureBase - 4) / 65536, ppn := 0, host := false, w := true, x := true, d := true }] }

/-- `waitc` on the last word below the aperture: the word, 0, equals ZERO; it is not above it. -/
theorem witness_ConditionWaitWordCompletesOrWaits :
    (∃ f : FWaitc, ∃ q, f.p ≠ 7 ∧ ActsMet (formWaitc f q) fun s _ g l =>
      scCheck g (l.val 0) 4 = none ∧ acqPending s.m g l.t.tid = false ∧ s.m.monitor? g.gid l.t.tid = none
      ∧ ∃ pa, s.m.tlbHit g.env.vf (l.val 0) false false = some pa
        ∧ waitcHolds f.p (BitVec.ofNat 32 (s.m.homeRead pa 4)) (BitVec.ofNat 32 (l.val 1)) = true)
    ∧ ∃ f : FWaitc, ∃ q s k g vs x pa, f.p ≠ 7 ∧ (formWaitc f q).Ready s k g vs ∧ activeLanes k g = [x] ∧ (formWaitc f q).on s k g x = true
      ∧ scCheck g ((vs x).getD 0 0) 4 = none ∧ acqPending s.m g x.tid = false ∧ s.m.monitor? g.gid x.tid = none
      ∧ s.m.tlbHit g.env.vf ((vs x).getD 0 0) false false = some pa
      ∧ waitcHolds f.p (BitVec.ofNat 32 (s.m.homeRead pa 4)) (BitVec.ofNat 32 ((vs x).getD 1 0)) = false :=
  ⟨⟨⟨false, 110, 123, true, true, 0⟩, some { qGuard with ord := 1, scope := 6 }, by decide, acts_on (tGrp (tHigh 4)) tCached (by decide +kernel) (by
      have h : ∀ l ∈ (formWaitc ⟨false, 110, 123, true, true, 0⟩ (some { qGuard with ord := 1, scope := 6 })).lanesIn (tOn tGang (tGrp (tHigh 4)) tCached) tGang
          (tGrp (tHigh 4)) (readVals (tOn tGang (tGrp (tHigh 4)) tCached) tGang (tGrp (tHigh 4))
            (formWaitc ⟨false, 110, 123, true, true, 0⟩ (some { qGuard with ord := 1, scope := 6 }))), l.val 0 = apertureBase - 4 ∧ l.val 1 = 0 ∧ l.t.tid = 0 := by
        decide +kernel
      intro l hl
      obtain ⟨h0, h1, h2⟩ := h l hl
      rw [h0, h1, h2]
      exact ⟨by decide +kernel, by decide +kernel, by decide +kernel, 65532, by decide +kernel, by decide +kernel⟩)⟩,
   ⟨false, 110, 123, true, true, 6⟩, none, tOn tGang (tGrp (tHigh 4)) tCached, tGang, tGrp (tHigh 4), _, (tGrp (tHigh 4)).threads.headD placedThread, 65532, by decide,
     ready_of (by decide +kernel), by decide +kernel, by decide +kernel, by decide +kernel, by decide +kernel, by decide +kernel, by decide +kernel, by decide +kernel⟩

end Sys2Proof.Machine
end

