-- ==== Sys2Proof/Tests/Engines.lean ====
section
/-! SUPPORT. Engines: witnesses for the statements about the copy engine, tile fills, job cards and the matrix engine. -/

namespace Sys2Proof.Machine

set_option Elab.async false

/-- The words of a request at the start of the window. -/
def tWords (ws : List (Nat × Nat)) (m : Mach) : Mach := ws.foldl (fun m w => m.setWin32 0 (4 * w.1) w.2) m

/-- One kicked block whose request has the given words. -/
def tKick : Kick := { gid := 0, off := 0, obj := none, req := 0 }
def tKicked (ws : List (Nat × Nat)) : State :=
  tOn tGang tGroup fun m => tWords ws { m with cores := [(0, { kicks := [tKick], copyCu := 4 })] }

/-- Requests of the five operations with one byte left, at the ends of the window; the last byte of a quantise request of 16 equal rows of
BF16, whose STATE is 2. -/
def tLast : Nat → List (Nat × Nat)
  | 0 => [(0, 0x30), (1, 0xFFFFFFFF), (2, 65532), (4, 65535), (6, 1), (7, 1)]
  | 1 => [(0, 0x31), (1, 0), (2, 0), (4, 65535), (6, 1), (7, 65532)]
  | 2 => [(0, 0x22), (1, 0xFFFFFFFF), (4, 0), (6, 1), (10, 255)]
  | 3 => [(0, 0x33), (1, 64), (2, 2048), (4, 65535), (6, 1), (7, 4096), (10, 1024), (256, 1)]
  | _ => [(0, 0x1634), (1, 0xFFFFFFFF), (2, 1024), (4, 16384), (6, 16), (7, 16), (8, 0), (10, 512), (11, 1024), (12, 2048), (14, 0x80000000 + 575)]

/-- Operation `op` is due on the block and not malformed. -/
def dueCheck (op : Nat) (s : State) : Bool :=
  let q := readReq s.m 0 0
  (s.m.core 0 0).kicks[0]? == some tKick && s.m.group? 0 == some tGroup && (s.m.core 0 0).kickFree 0 tKick s.m.etime && !badReqAt tGroup 0
    && tKick.op s.m tGroup == op && q.state != 1 && !s.m.winLocked 0 0 64 && !s.m.winLost 0 0 64

theorem kickDue_of {op : Nat} {s : State} (h : dueCheck op s = true) : KickDue s 0 0 0 op tKick tGroup (readReq s.m 0 0) := by
  simp only [dueCheck, Bool.and_eq_true, beq_iff_eq, Bool.not_eq_true', bne_iff_ne] at h
  obtain ⟨⟨⟨⟨⟨⟨⟨h1, h2⟩, h3⟩, h4⟩, h5⟩, h6⟩, h7⟩, h8⟩ := h
  exact ⟨h1, h2, h3, h4, rfl, h5, fun h => h6 h.2.2, h7, h8⟩

/-- The request of a state is well formed, and what it reads first ends with `r`, or it has one byte left and its engine run ends with `r`. -/
def lastCheck (s : State) (r : Nat × Option EStop) : Bool :=
  let q := readReq s.m 0 0
  let x := q.prepare s.cfg tGroup tKick.eb s.m
  !q.bad 0 && match x.2.2 with
    | some e => (tKick.start q, some e) == r
    | none => q.total - tKick.start q == 1 && (engRun s.cfg tGroup q x.2.1 1 (tKick.start q) { x.1 with free := x.1.free + 1 }).2 == r

theorem last_of {s : State} {r : Nat × Option EStop} (h : lastCheck s r = true) :
    (readReq s.m 0 0).bad tKick.k = false ∧ ∃ m' eb, workOn s tKick tGroup (readReq s.m 0 0) = (m', eb, r.1, r.2) := by
  simp only [lastCheck, Bool.and_eq_true, Bool.not_eq_true'] at h
  refine ⟨h.1, ?_⟩
  have h := h.2
  simp only [workOn, engWork]
  cases hp : (readReq s.m 0 0).prepare s.cfg tGroup tKick.eb s.m with
  | mk m1 x => cases x with
    | mk eb e => cases e with
      | some e =>
        simp only [hp, beq_iff_eq] at h
        exact ⟨m1, eb, by rw [← h]⟩
      | none =>
        simp only [hp, Bool.and_eq_true, beq_iff_eq] at h
        simp only [Mach.pick, h.1, Nat.mod_one, Nat.zero_add]
        exact ⟨_, eb, Prod.ext rfl (congrArg (Prod.mk eb) h.2)⟩

theorem win_free (off : Nat) (h : off < granules tGroup.hold.scr) : winStop tState.m tGroup off = none := by
  have lock (b : Nat) : tState.m.bankLocked 0 0 b = false := rfl
  have lost (b : Nat) : tState.m.bankLost 0 0 b = false := rfl
  have hl : tState.m.lockedAt tGroup.column tGroup.core off 1 = false := List.any_eq_false.2 fun b _ => by simp [show tGroup.column = 0 from rfl, show tGroup.core = 0 from rfl, lock b]
  have hd : tState.m.lostAt tGroup.column tGroup.core off 1 = false := List.any_eq_false.2 fun b _ => by simp [show tGroup.column = 0 from rfl, show tGroup.core = 0 from rfl, lost b]
  simp [winStop, Nat.not_le.2 h, hl, hd]

/-- The last byte of a request of operation `op` is done: `p` bytes in all. -/
def EndsAt (op p : Nat) : Prop :=
  ∃ m' eb, KickDue (tKicked (tLast op)) 0 0 0 op tKick tGroup (readReq (tKicked (tLast op)).m 0 0) ∧ (readReq (tKicked (tLast op)).m 0 0).bad tKick.k = false
    ∧ workOn (tKicked (tLast op)) tKick tGroup (readReq (tKicked (tLast op)).m 0 0) = (m', eb, p, none) ∧ (readReq (tKicked (tLast op)).m 0 0).total = p
    ∧ m'.objLocked tGroup.gid tKick.obj = false

theorem endsAt_of {op p : Nat} (hd : dueCheck op (tKicked (tLast op)) = true) (ht : (readReq (tKicked (tLast op)).m 0 0).total = p)
    (hl : lastCheck (tKicked (tLast op)) (p, none) = true) : EndsAt op p :=
  have h := last_of hl
  h.2.elim fun m' h' => h'.elim fun eb e => ⟨m', eb, kickDue_of hd, h.1, e, ht, rfl⟩

theorem witness_CopyEngineServesRequests_ends : (∀ op ∈ [0, 1, 2, 3], EndsAt op 1) ∧ EndsAt 4 576 := by
  refine ⟨fun op ho => ?_, endsAt_of (by decide +kernel) (by decide +kernel) (by decide +kernel)⟩
  have h : dueCheck op (tKicked (tLast op)) = true ∧ (readReq (tKicked (tLast op)).m 0 0).total = 1 ∧ lastCheck (tKicked (tLast op)) (1, none) = true := by
    revert op; decide +kernel
  exact endsAt_of h.1 h.2.1 h.2.2

/-- Requests whose source, or for a fill whose destination, lies above the 57 bits of an address; the same with a reserved word set. -/
def tAbove : Nat → List (Nat × Nat)
  | 0 => [(0, 0x20), (3, 0x2000000), (6, 1), (7, 1)]
  | 1 => [(0, 0x21), (3, 0x2000000), (6, 1), (7, 4096)]
  | 2 => [(0, 0x02), (5, 0x2000000), (6, 1)]
  | 3 => [(0, 0x23), (3, 0x2000000), (6, 1), (7, 4096), (10, 1024), (256, 1)]
  | _ => [(0, 0x624), (3, 0x2000000), (6, 16), (7, 16), (14, 0x80000000 + 575)]

/-- A request of operation `op` stops at byte `p` on an address without a translation. -/
def StopsAt (op p va : Nat) : Prop :=
  ∃ m' eb, KickDue (tKicked (tAbove op)) 0 0 0 op tKick tGroup (readReq (tKicked (tAbove op)).m 0 0) ∧ (readReq (tKicked (tAbove op)).m 0 0).bad tKick.k = false
    ∧ workOn (tKicked (tAbove op)) tKick tGroup (readReq (tKicked (tAbove op)).m 0 0) = (m', eb, p, some (.fail1 va (op == 2)))

theorem stopsAt_of {op p va : Nat} (hd : dueCheck op (tKicked (tAbove op)) = true) (hl : lastCheck (tKicked (tAbove op)) (p, some (.fail1 va (op == 2))) = true) :
    StopsAt op p va :=
  have h := last_of hl
  h.2.elim fun m' h' => h'.elim fun eb e => ⟨m', eb, kickDue_of hd, h.1, e⟩

theorem witness_CopyEngineServesRequests_faults :
    (∀ op ∈ [0, 1, 2, 3], StopsAt op 0 (2 ^ 57)) ∧ StopsAt 4 575 (2 ^ 57)
    ∧ (∀ op ∈ [0, 1, 2, 3, 4], KickDue (tKicked ((13, 1) :: tAbove op)) 0 0 0 op tKick tGroup (readReq (tKicked ((13, 1) :: tAbove op)).m 0 0)
      ∧ (readReq (tKicked ((13, 1) :: tAbove op)).m 0 0).bad tKick.k = true)
    ∧ (∃ m', touchRing {} 0 tState.m = (m', .ready)) ∧ tGroup.away = false := by
  refine ⟨fun op ho => ?_, stopsAt_of (by decide +kernel) (by decide +kernel), fun op ho => ⟨kickDue_of (by revert op; decide +kernel), by revert op; decide +kernel⟩,
    pair_of (by decide +kernel), by decide⟩
  have h : dueCheck op (tKicked (tAbove op)) = true ∧ lastCheck (tKicked (tAbove op)) (0, some (.fail1 (2 ^ 57) (op == 2))) = true := by revert op; decide +kernel
  exact stopsAt_of h.1 h.2

/-- A fill of the whole window, and a copy of one half of it to the other. -/
theorem witness_CopyEngineServesRequests_window :
    Memory.wf tState.m.smem ∧ (∀ off, off < granules tGroup.hold.scr → winStop tState.m tGroup off = none)
    ∧ (∃ q : Req, q.op = 2 ∧ q.dsp = true ∧ q.dst + q.len = granules tGroup.hold.scr ∧ q.len = 65536)
    ∧ ∃ q : Req, q.op = 0 ∧ q.aux = 1 ∧ q.dsp = true ∧ q.ssp = true ∧ q.dst + q.len ≤ granules tGroup.hold.scr ∧ q.src + q.len ≤ granules tGroup.hold.scr
        ∧ q.src + q.len ≤ q.dst ∧ q.len = 32768 :=
  ⟨by decide +kernel, win_free,
   ⟨reqOf fun i => [0x22, 0, 0, 0, 0, 0, 65536].getD i 0, by decide +kernel⟩,
   ⟨reqOf fun i => [0x30, 0, 0, 0, 32768, 0, 32768, 1].getD i 0, by decide +kernel⟩⟩

/-- A fill of one row at the end of the window, at page 0, at an absent page, on the core and of a group that has left it. -/
def tFill (src : Nat) : Tile := { st := .filling, src := src, rb := 1, rows := 1, buf := 65520 }
def tFiller (src : Nat) (away : Bool) : Group := if away then { tGroup with tiles := [(63, tFill src)] } else tGroup
def tFilling (src : Nat) (away : Bool) : State :=
  { tOn tGang (tFiller src away) fun m => tPage (tTables { m with cores := [(0, { tiles := if away then [] else [(63, tFill src)] })] }) with
    cfg := { parts := [(0, { s2root := 0x200000 })] } }

theorem witness_TileFillsAndCardsComplete_fills :
    (∀ away ∈ [false, true], ∃ m' p g, fillingTile (tFilling 65520 away).m 0 0 63 = some (g, tFill 65520, away)
      ∧ ((tFilling 65520 away).m.core 0 0).copyFrozen = false ∧ engRun (tFilling 65520 away).cfg g (tFill 65520).req {} (tFill 65520).req.total 0 (tFilling 65520 away).m = (m', p, none))
    ∧ (∃ m' p m'', fillingTile (tFilling 0x40000000 false).m 0 0 63 = some (tGroup, tFill 0x40000000, false)
      ∧ engRun (tFilling 0x40000000 false).cfg tGroup (tFill 0x40000000).req {} (tFill 0x40000000).req.total 0 (tFilling 0x40000000 false).m
        = (m', p, some (.fail1 0x40000000 false)) ∧ touchRing (tFilling 0x40000000 false).cfg tGroup.env.vf m' = (m'', .ready))
    ∧ (tFill 65520).faulted = false ∧ pendHeld (tFill 65520).pend 0 = false := by
  refine ⟨fun away ha => ?_, ?_, by decide⟩
  · have h : fillingTile (tFilling 65520 away).m 0 0 63 = some (tFiller 65520 away, tFill 65520, away) ∧ ((tFilling 65520 away).m.core 0 0).copyFrozen = false
        ∧ (engRun (tFilling 65520 away).cfg (tFiller 65520 away) (tFill 65520).req {} (tFill 65520).req.total 0 (tFilling 65520 away).m).2 = (16, none) := by
      revert away; decide +kernel
    obtain ⟨m', h'⟩ := pair_of h.2.2
    exact ⟨m', 16, _, h.1, h.2.1, h'⟩
  · have h : (engRun (tFilling 0x40000000 false).cfg tGroup (tFill 0x40000000).req {} (tFill 0x40000000).req.total 0 (tFilling 0x40000000 false).m).2
        = (0, some (.fail1 0x40000000 false)) ∧ (touchRing (tFilling 0x40000000 false).cfg tGroup.env.vf
        (engRun (tFilling 0x40000000 false).cfg tGroup (tFill 0x40000000).req {} (tFill 0x40000000).req.total 0 (tFilling 0x40000000 false).m).1).2 = .ready := by
      decide +kernel
    obtain ⟨m', h1⟩ := pair_of h.1
    rw [h1] at h
    obtain ⟨m'', h2⟩ := pair_of h.2
    exact ⟨m', 0, m'', by decide +kernel, h1, h2⟩

/-- A card of one command of each kind, at the last banks of tower 47 and the end of the window. -/
def tCard (n : Nat) (locked : Bool) : Card :=
  { gid := 0, obj := none, pc := n, locked := locked
    cmds := [ { cmd := 1, cnt := 15, bank := 7, tower := 47, mc := true, loff := 0, woff := 0 }, { cmd := 2, cnt := 0, bank := 31, tower := 47, mc := false, loff := 0, woff := 65024 }
            , { cmd := 3, cnt := 15, bank := 31, tower := 47, mc := false, loff := 0, woff := 0 }, { cmd := 4, cnt := 15, bank := 31, tower := 0, mc := false, loff := 0, woff := 65472 } ] }
def tCards (n : Nat) (locked : Bool) : State :=
  tOn tGang tGroup fun m => { m with cores := [(0, { cards := [tCard n locked], bankCu := 4 }), (47, { bankCu := 4 })] }
/-- A card whose one command names tower 48. -/
def tOutside : Card := { gid := 0, obj := none, cmds := [{ cmd := 1, cnt := 0, bank := 0, tower := 48, mc := false, loff := 0, woff := 0 }] }
def tOutsider : State := tOn tGang tGroup fun m => { m with cores := [(0, { cards := [tOutside], bankCu := 4 })] }

theorem witness_TileFillsAndCardsComplete_cards :
    ((tCards 0 false).m.card? 0 0 0 = some (tCard 0 false, tGroup) ∧ ((tCards 0 false).m.core 0 0).bankFrozen = false
      ∧ cardHeld (tCards 0 false).m 0 0 0 (tCard 0 false) = false ∧ (∀ y ∈ ((tCards 0 false).m.core 0 0).cards.take 0, y.shares (tCard 0 false) = false ∧ ∀ z ∈ y.cmds, z.outside = false)
      ∧ (∀ y ∈ (tCard 0 false).cmds, y.outside = false)
      ∧ ∀ y ∈ (tCard 0 false).cmds, 4 ≤ ((tCards 0 false).m.core 0 y.tower).bankCu)
    ∧ (∀ n ∈ [0, 1, 2, 3], ((tCards n true).m.card? 0 0 0 = some (tCard n true, tGroup)) ∧ ∃ y, (tCard n true).cmds[n]? = some y ∧ y.cmd = n + 1
      ∧ cardWindow (tCards n true).m 0 0 0 tGroup y = none ∧ y.lost (tCards n true).m 0 = false)
    ∧ ((tCards 4 true).m.card? 0 0 0 = some (tCard 4 true, tGroup) ∧ (tCard 4 true).cmds.length ≤ (tCard 4 true).pc
      ∧ objHeld (tCards 4 true).m 0 0 0 tGroup (tCard 4 true) = false)
    ∧ tOutsider.m.card? 0 0 0 = some (tOutside, tGroup) ∧ (tOutsider.m.core 0 0).bankFrozen = false
      ∧ tOutside.cmds.find? CardCmd.outside = some { cmd := 1, cnt := 0, bank := 0, tower := 48, mc := false, loff := 0, woff := 0 }
      ∧ ∀ z ∈ (tOutsider.m.core 0 0).cards, z.locked = false := by
  refine ⟨by decide +kernel, fun n hn => ⟨by revert n; decide +kernel, ((tCard n true).cmds[n]?).getD ((tCard 0 true).cmds.headD { cmd := 0, cnt := 0, bank := 0, tower := 0, mc := false, loff := 0, woff := 0 }),
    by revert n; decide +kernel⟩, by decide +kernel, by decide +kernel⟩

/-- A matrix word at the head of the engine; the tables and the window of the page. -/
def tMWord (op w0 : Nat) (rest : List Word) : MWord :=
  { gid := 0, op := op, slot := 7, blk := BitVec.ofNat 32 w0 :: rest, started := true, prog := 65536 }
def tMatrix (w : MWord) (g : Group) : State := tOn tGang g fun m => tPage { m with cores := [(0, { mwords := [w] })] }
def dueM (s : State) (w : MWord) (g : Group) : Bool :=
  (s.m.core 0 0).mwords.head? == some w && s.m.group? w.gid == some g && !g.frozen && (w.op == 2 || w.started) && decide (w.need ≤ w.prog)
    && !pendHeld w.pend s.m.etime && !MWord.objLocked s.m w

theorem matrixDue_of {s : State} {w : MWord} {g : Group} (h : dueM s w g = true) : MatrixDue s 0 0 w g := by
  simp only [dueM, Bool.and_eq_true, beq_iff_eq, Bool.not_eq_true', Bool.or_eq_true, decide_eq_true_eq] at h
  exact ⟨h.1.1.1.1.1.1, h.1.1.1.1.1.2, h.1.1.1.1.2, h.1.1.1.2, h.1.1.2, h.1.2, h.2⟩

/-- A slot with one element whose sums are right, and one with two corrupt elements. -/
def tSlot : Slot := { e := [(4095, 1#32)], row := [(63, 1#32)], col := [(63, 1#32)] }
def tTorn : Slot := { tSlot with e := [(0, 1#32), (4095, 2#32)] }
def tSlots (x : Slot) : Group := { tGroup with slots := [(7, x)] }

theorem witness_MatrixWordsComplete_words :
    (∀ r ∈ [(0, 0x700A2), (1, 0x700A4), (2, 0), (3, 0x700A0)], ∃ w g, w.op = r.1 ∧ MatrixDue (tMatrix w g) 0 0 w g ∧ w.checked = none
      ∧ w.surfBlocks (tMatrix w g).m g = none ∧ operStop (tMatrix w g).m g w = none)
    ∧ (∃ w g, w.op = 4 ∧ w.dreg = some 48 ∧ MatrixDue (tMatrix w g) 0 0 w g ∧ w.checked = none)
    ∧ (∃ w g x, MatrixDue (tMatrix w g) 0 0 w g ∧ w.checked = some 7 ∧ (g.mslot 7).check = some x)
    ∧ ∃ w g, MatrixDue (tMatrix w g) 0 0 w g ∧ w.checked = some 7 ∧ (g.mslot 7).check = none :=
  ⟨fun r hr => ⟨tMWord r.1 r.2 [], tGroup, rfl, matrixDue_of (by revert r; decide +kernel), by revert r; decide +kernel, by revert r; decide +kernel⟩,
   ⟨{ tMWord 4 0x7000A0 [] with dreg := some 48, lanes := [(0, 0)] }, tGroup, rfl, rfl, matrixDue_of (by decide +kernel), by decide +kernel⟩,
   ⟨tMWord 0 0x71100 [], tSlots tSlot, tSlot, matrixDue_of (by decide +kernel), by decide +kernel, by decide +kernel⟩,
   ⟨tMWord 4 0x701000 [], tSlots tTorn, matrixDue_of (by decide +kernel), by decide +kernel, by decide +kernel⟩⟩

/-- A load from and a drain to the last 1,024 bytes of the window: 16 rows of 16 FP32 elements. -/
def tLoad : MWord := tMWord 3 0 [0, 0, 64512, 0, 64]
def tDrain : MWord := tMWord 4 0 [0, 0, 64512, 0, 64]

theorem witness_MatrixWordsComplete_load : ∃ m' bs, MatrixDue (tMatrix tLoad tGroup) 0 0 tLoad tGroup
    ∧ engBytes {} tGroup (trPlaces (tMatrix tLoad tGroup).m 0 0 tLoad.blk) (tMatrix tLoad tGroup).m = (m', .ok bs) := by
  have h : (engBytes {} tGroup (trPlaces (tMatrix tLoad tGroup).m 0 0 tLoad.blk) (tMatrix tLoad tGroup).m).2.toOption.isSome = true := by decide +kernel
  cases e : engBytes {} tGroup (trPlaces (tMatrix tLoad tGroup).m 0 0 tLoad.blk) (tMatrix tLoad tGroup).m with
  | mk m' r => cases r with
    | ok bs => exact ⟨m', bs, matrixDue_of (by decide +kernel), rfl⟩
    | error x => rw [e] at h; cases h

theorem witness_MatrixWordsComplete_drain :
    MatrixDue (tMatrix tDrain tGroup) 0 0 tDrain tGroup ∧ tDrain.checked = none ∧ tDrain.dreg = none
    ∧ ∃ m' n, drainTo {} 0 0 tGroup tDrain (blkM tDrain.blk * blkN tDrain.blk * efBytes (trEf tDrain.blk)) (tMatrix tDrain tGroup).m = (m', n, none) := by
  obtain ⟨m', h⟩ := pair_of (x := drainTo {} 0 0 tGroup tDrain (blkM tDrain.blk * blkN tDrain.blk * efBytes (trEf tDrain.blk)) (tMatrix tDrain tGroup).m)
    (b := (1024, none)) (by decide +kernel)
  exact ⟨matrixDue_of (by decide +kernel), by decide +kernel, rfl, m', 1024, h⟩

/-- Slots with consistent sums, a written, a loaded and an empty one; the last element corrupted. -/
theorem witness_MatrixWordsComplete_slots :
    badSums tSlot.row (rowSums tSlot.e) = [] ∧ badSums tSlot.col (colSums tSlot.e) = [] ∧ SMap.wf 0 tSlot.e = true ∧ (∀ e ∈ tSlot.e, e.1 < 4096)
      ∧ (1#32 : Word) ≠ 0 := by decide +kernel

end Sys2Proof.Machine
end

