-- ==== Sys2Proof/Tests/Slice0.lean ====
section
/-! SUPPORT. Slice0: the smoke test of well-formedness and the words of the encoding tables. The words are written from the fixed bits and the fields of
spec/opcode_table.json and of Tables 03.1 to 03.5, 04.2 and 04.4. -/

namespace Sys2Proof

set_option Elab.async false

/-! ### What is ill-formed is refused: each field one past its bits -/

theorem test_illFormed_formats1 : ([({ c := false, i := 1048576 } : FTrap).wf
    , ({ c := false, h := false, d := 128, a := 0, b := 0, m := false, n := false } : FR).wf
    , ({ c := false, h := false, d := 0, a := 128, b := 0, m := false, n := false } : FR).wf
    , ({ c := false, h := false, d := 0, a := 0, b := 128, m := false, n := false } : FR).wf
    , ({ c := false, h := false, d := 128, a := 0, m := false } : FUn).wf
    , ({ c := false, h := false, d := 0, a := 128, m := false } : FUn).wf
    , ({ c := false, h := false, e := false, d := 128, a := 0, b := 0, m := false, n := false } : FRt).wf
    , ({ c := false, h := false, e := false, d := 0, a := 128, b := 0, m := false, n := false } : FRt).wf
    , ({ c := false, h := false, e := false, d := 0, a := 0, b := 128, m := false, n := false } : FRt).wf
    , ({ c := false, m := false, d := 128, a := 0, i := 0 } : FI).wf
    , ({ c := false, m := false, d := 0, a := 128, i := 0 } : FI).wf
    , ({ c := false, m := false, d := 0, a := 0, i := 512 } : FI).wf
    , ({ c := false, m := false, d := 128, a := 0, i := 0 } : FSh).wf
    , ({ c := false, m := false, d := 0, a := 128, i := 0 } : FSh).wf
    , ({ c := false, m := false, d := 0, a := 0, i := 32 } : FSh).wf
    , ({ c := false, d := 128, i := 0 } : FL).wf
    , ({ c := false, d := 0, i := 65536 } : FL).wf
    , ({ c := false, a := 128, m := false, x := 0, i := 0 } : FSetx).wf
    , ({ c := false, a := 0, m := false, x := 4, i := 0 } : FSetx).wf
    , ({ c := false, a := 0, m := false, x := 0, i := 1024 } : FSetx).wf
    , ({ c := false, d := 128, m := false, x := 0, i := 0 } : FMovr).wf
    , ({ c := false, d := 0, m := false, x := 4, i := 0 } : FMovr).wf
    , ({ c := false, d := 0, m := false, x := 0, i := 1024 } : FMovr).wf
    , ({ c := false, s := 128, m := false, x := 0, i := 0 } : FMovw).wf
    , ({ c := false, s := 0, m := false, x := 4, i := 0 } : FMovw).wf
    , ({ c := false, s := 0, m := false, x := 0, i := 1024 } : FMovw).wf
    , ({ c := false, l := 256, b := 0 } : FWin).wf
    , ({ c := false, l := 0, b := 256 } : FWin).wf
    , ({ c := false, p := 8, k := 0, a := 0, b := 0, m := false, n := false } : FP).wf
    , ({ c := false, p := 0, k := 64, a := 0, b := 0, m := false, n := false } : FP).wf
    , ({ c := false, p := 0, k := 0, a := 128, b := 0, m := false, n := false } : FP).wf
    , ({ c := false, p := 0, k := 0, a := 0, b := 128, m := false, n := false } : FP).wf
    , ({ c := false, k := 64, j := 0, l := 0, x := false, y := false } : FPl).wf
    , ({ c := false, k := 0, j := 64, l := 0, x := false, y := false } : FPl).wf
    , ({ c := false, k := 0, j := 0, l := 64, x := false, y := false } : FPl).wf
    , ({ c := false, k := 64, d := 0, n := 0 } : FKpack).wf
    , ({ c := false, k := 0, d := 128, n := 0 } : FKpack).wf
    , ({ c := false, k := 0, d := 0, n := 64 } : FKpack).wf
    , ({ c := false, k := 64, a := 0, m := false, n := 0 } : FKunp).wf
    , ({ c := false, k := 0, a := 128, m := false, n := 0 } : FKunp).wf].all fun b => !b) = true := by decide +kernel

theorem test_illFormed_formats2 : ([({ c := false, k := 0, a := 0, m := false, n := 64 } : FKunp).wf
    , ({ c := false, k := 64, v := false } : FKset).wf
    , ({ c := false, d := 64, a := 0 } : FSmov).wf
    , ({ c := false, d := 0, a := 64 } : FSmov).wf
    , ({ c := false, d := 64, i := 0 } : FSli).wf
    , ({ c := false, d := 0, i := 1024 } : FSli).wf
    , ({ c := false, d := 64, a := 0, b := 0 } : FSop).wf
    , ({ c := false, d := 0, a := 64, b := 0 } : FSop).wf
    , ({ c := false, d := 0, a := 0, b := 64 } : FSop).wf
    , ({ c := false, d := 64, a := 0, i := 0 } : FSsh).wf
    , ({ c := false, d := 0, a := 64, i := 0 } : FSsh).wf
    , ({ c := false, d := 0, a := 0, i := 32 } : FSsh).wf
    , ({ c := false, a := 64, d := 0 } : FSmovv).wf
    , ({ c := false, a := 0, d := 128 } : FSmovv).wf
    , ({ c := false, d := 64, m := false, a := 0 } : FVmovs).wf
    , ({ c := false, d := 0, m := false, a := 128 } : FVmovs).wf
    , ({ c := false, d := 64, a := 0, i := 0 } : FSld).wf
    , ({ c := false, d := 0, a := 64, i := 0 } : FSld).wf
    , ({ c := false, d := 0, a := 0, i := 1024 } : FSld).wf
    , ({ c := false, k := 64, a := 0, u := false, p := 0, b := 0 } : FScmp).wf
    , ({ c := false, k := 0, a := 64, u := false, p := 0, b := 0 } : FScmp).wf
    , ({ c := false, k := 0, a := 0, u := false, p := 8, b := 0 } : FScmp).wf
    , ({ c := false, k := 0, a := 0, u := false, p := 0, b := 64 } : FScmp).wf
    , ({ c := false, k := 64, g := false, d := 0 } : FB).wf
    , ({ c := false, k := 0, g := false, d := 262144 } : FB).wf
    , ({ c := false, a := 128, m := false } : FA).wf
    , ({ c := false, d := 128, a := 0, m := false } : FXv).wf
    , ({ c := false, d := 0, a := 128, m := false } : FXv).wf
    , ({ c := false, d := 128, a := 0, m := false, s := false } : FXh).wf
    , ({ c := false, d := 0, a := 128, m := false, s := false } : FXh).wf
    , ({ c := false, d := 128, a := 0, m := false, s := 0 } : FXe).wf
    , ({ c := false, d := 0, a := 128, m := false, s := 0 } : FXe).wf
    , ({ c := false, d := 0, a := 0, m := false, s := 4 } : FXe).wf
    , ({ c := false, d := 128, a := 0, m := false, u := false } : FXu).wf
    , ({ c := false, d := 0, a := 128, m := false, u := false } : FXu).wf
    , ({ c := false, d := 128, a := 0, b := 0 } : FDsubf).wf
    , ({ c := false, d := 0, a := 64, b := 0 } : FDsubf).wf
    , ({ c := false, d := 0, a := 0, b := 64 } : FDsubf).wf
    , ({ c := false, d := 64, a := 0, b := 0 } : FDmin).wf
    , ({ c := false, d := 0, a := 64, b := 0 } : FDmin).wf].all fun b => !b) = true := by decide +kernel

theorem test_illFormed_formats3 : ([({ c := false, d := 0, a := 0, b := 64 } : FDmin).wf
    , ({ c := false, k := 64, a := 0, b := 0, p := 0 } : FDcmp).wf
    , ({ c := false, k := 0, a := 64, b := 0, p := 0 } : FDcmp).wf
    , ({ c := false, k := 0, a := 0, b := 64, p := 0 } : FDcmp).wf
    , ({ c := false, k := 0, a := 0, b := 0, p := 4 } : FDcmp).wf
    , ({ c := false, z := 8, d := 0, a := 0, m := false, o := 0 } : FLd).wf
    , ({ c := false, z := 0, d := 128, a := 0, m := false, o := 0 } : FLd).wf
    , ({ c := false, z := 0, d := 0, a := 128, m := false, o := 0 } : FLd).wf
    , ({ c := false, z := 0, d := 0, a := 0, m := false, o := 128 } : FLd).wf
    , ({ c := false, z := 8, s := 0, a := 0, m := false, o := 0 } : FSt).wf
    , ({ c := false, z := 0, s := 128, a := 0, m := false, o := 0 } : FSt).wf
    , ({ c := false, z := 0, s := 0, a := 128, m := false, o := 0 } : FSt).wf
    , ({ c := false, z := 0, s := 0, a := 0, m := false, o := 128 } : FSt).wf
    , ({ c := false, d := 128, a := 0, b := 0, m := false } : FAtom).wf
    , ({ c := false, d := 0, a := 128, b := 0, m := false } : FAtom).wf
    , ({ c := false, d := 0, a := 0, b := 128, m := false } : FAtom).wf
    , ({ c := false, a := 128, b := 0, m := false, n := false } : FPb).wf
    , ({ c := false, a := 0, b := 128, m := false, n := false } : FPb).wf
    , ({ c := false, a := 128, m := false, p := false } : FPbw).wf
    , ({ c := false, k := 64, a := 0, m := false, p := false } : FPbt).wf
    , ({ c := false, k := 0, a := 128, m := false, p := false } : FPbt).wf
    , ({ c := false, a := 128, b := 0, m := false, n := false, p := 0 } : FWaitc).wf
    , ({ c := false, a := 0, b := 128, m := false, n := false, p := 0 } : FWaitc).wf
    , ({ c := false, a := 0, b := 0, m := false, n := false, p := 8 } : FWaitc).wf
    , ({ c := false, d := 128, a := 0, m := false, z := 0 } : FLdsc).wf
    , ({ c := false, d := 0, a := 128, m := false, z := 0 } : FLdsc).wf
    , ({ c := false, d := 0, a := 0, m := false, z := 4 } : FLdsc).wf
    , ({ c := false, a := 128, b := 0, m := false, n := false, z := 0 } : FStsc).wf
    , ({ c := false, a := 0, b := 128, m := false, n := false, z := 0 } : FStsc).wf
    , ({ c := false, a := 0, b := 0, m := false, n := false, z := 4 } : FStsc).wf
    , ({ c := false, d := 128, a := 0, b := 0 } : FAsc).wf
    , ({ c := false, d := 0, a := 64, b := 0 } : FAsc).wf
    , ({ c := false, d := 0, a := 0, b := 128 } : FAsc).wf
    , ({ c := false, a := 128, m := false, l := 0 } : FPref).wf
    , ({ c := false, a := 0, m := false, l := 4 } : FPref).wf
    , ({ c := false, k := 4, n := 0 } : FAcq).wf
    , ({ c := false, k := 0, n := 256 } : FAcq).wf
    , ({ c := false, d := 128, k := 0, t := 0, n := 0 } : FAcqt).wf
    , ({ c := false, d := 0, k := 64, t := 0, n := 0 } : FAcqt).wf
    , ({ c := false, d := 0, k := 0, t := 4, n := 0 } : FAcqt).wf].all fun b => !b) = true := by decide +kernel

theorem test_illFormed_formats4 : ([({ c := false, d := 0, k := 0, t := 0, n := 32 } : FAcqt).wf
    , ({ c := false, a := 128, b := 0, m := false, n := false, t := false, q := 0 } : FQput).wf
    , ({ c := false, a := 0, b := 128, m := false, n := false, t := false, q := 0 } : FQput).wf
    , ({ c := false, a := 0, b := 0, m := false, n := false, t := false, q := 8 } : FQput).wf
    , ({ c := false, d := 128, q := 0 } : FQget).wf
    , ({ c := false, d := 0, q := 8 } : FQget).wf
    , ({ c := false, d := 128, a := 0, m := false, q := 0 } : FQfree).wf
    , ({ c := false, d := 0, a := 128, m := false, q := 0 } : FQfree).wf
    , ({ c := false, d := 0, a := 0, m := false, q := 8 } : FQfree).wf
    , ({ c := false, a := 64, t := 0 } : FTdef).wf
    , ({ c := false, a := 0, t := 64 } : FTdef).wf
    , ({ c := false, k := 64, t := 0 } : FTstat).wf
    , ({ c := false, k := 0, t := 64 } : FTstat).wf
    , ({ c := false, a := 64 } : FXu1).wf
    , ({ c := false, d := 128, a := 0, s := 0 } : FXs).wf
    , ({ c := false, d := 0, a := 128, s := 0 } : FXs).wf
    , ({ c := false, d := 0, a := 0, s := 64 } : FXs).wf
    , ({ c := false, a := 128, m := false, t := 0 } : FCexp).wf
    , ({ c := false, a := 0, m := false, t := 8 } : FCexp).wf
    , ({ c := false, d := 64, a := 0 } : FSalloc).wf
    , ({ c := false, d := 0, a := 64 } : FSalloc).wf
    , ({ c := false, s := 8 } : FMzero).wf
    , ({ c := false, d := 128, s := 0 } : FMdrain).wf
    , ({ c := false, d := 0, s := 64 } : FMdrain).wf
    , ({ c := false, k := 64, s := 0 } : FMstat).wf
    , ({ c := false, k := 0, s := 8 } : FMstat).wf
    , ({ c := false, a := 128, m := false, j := 0 } : FEmit).wf
    , ({ c := false, a := 0, m := false, j := 16 } : FEmit).wf
    , ({ c := false, k := 64, a := 0, m := false, j := 0 } : FEmitt).wf
    , ({ c := false, k := 0, a := 128, m := false, j := 0 } : FEmitt).wf
    , ({ c := false, k := 0, a := 0, m := false, j := 16 } : FEmitt).wf
    , ({ c := false, d := 128, a := 0, n := 0 } : FSysrd).wf
    , ({ c := false, d := 0, a := 128, n := 0 } : FSysrd).wf
    , ({ c := false, d := 0, a := 0, n := 64 } : FSysrd).wf
    , ({ c := false, a := 128, n := 0 } : FSyswr).wf
    , ({ c := false, a := 0, n := 64 } : FSyswr).wf
    , ({ c := false, d := 128, k := 0 } : FBallot).wf
    , ({ c := false, d := 0, k := 64 } : FBallot).wf
    , ({ c := false, k := 64, j := 0, n := false } : FKg).wf
    , ({ c := false, k := 0, j := 64, n := false } : FKg).wf].all fun b => !b) = true := by decide +kernel

theorem test_illFormed_formats5 : ([({ c := false, d := 128, a := 0, t := 0 } : FXidx).wf
    , ({ c := false, d := 0, a := 128, t := 0 } : FXidx).wf
    , ({ c := false, d := 0, a := 0, t := 8 } : FXidx).wf
    , ({ c := false, d := 128, a := 0, i := 0 } : FXfer).wf
    , ({ c := false, d := 0, a := 128, i := 0 } : FXfer).wf
    , ({ c := false, d := 0, a := 0, i := 64 } : FXfer).wf
    , ({ c := false, d := 128, a := 0, m := false, x := false } : FScan).wf
    , ({ c := false, d := 0, a := 128, m := false, x := false } : FScan).wf
    , ({ c := false, d := 128 } : FGpos).wf
    , ({ c := false, k := 64 } : FGfirst).wf
    , ({ j := false, y := false, r := false, w := 65536 } : FEnd).wf].all fun b => !b) = true := by decide +kernel

/-- A modifier with a field one past its bits, and the word of all ones, which is no modifier (R84). -/
theorem test_illFormed_modifiers : ([({ c := false, sat := false, clp := false, na := false, nb := false, aa := false, ab := false, scale := 32, kg := 7, gn := false, hb := false, ord := 0, scope := 0, rsv := false } : Modifier).wf
    , ({ c := false, sat := false, clp := false, na := false, nb := false, aa := false, ab := false, scale := 0, kg := 64, gn := false, hb := false, ord := 0, scope := 0, rsv := false } : Modifier).wf
    , ({ c := false, sat := false, clp := false, na := false, nb := false, aa := false, ab := false, scale := 0, kg := 7, gn := false, hb := false, ord := 4, scope := 0, rsv := false } : Modifier).wf
    , ({ c := false, sat := false, clp := false, na := false, nb := false, aa := false, ab := false, scale := 0, kg := 7, gn := false, hb := false, ord := 0, scope := 8, rsv := false } : Modifier).wf
    , ({ c := true, sat := true, clp := true, na := true, nb := true, aa := true, ab := true, scale := 31, kg := 63, gn := true, hb := true, ord := 3, scope := 7, rsv := true } : Modifier).wf].all fun b => !b) = true := by decide +kernel

theorem test_illFormed_events1 : ([(Instr.resultLanding 12 0).wf
    , (Instr.resultLanding 0 48).wf
    , (Instr.loadPerformed 12 0 0).wf
    , (Instr.loadPerformed 0 48 0).wf
    , (Instr.gangFormation 12 0 0).wf
    , (Instr.gangFormation 0 48 0).wf
    , (Instr.gangFormation 0 0 2).wf
    , (Instr.joinHoldEnd 12 0 0).wf
    , (Instr.joinHoldEnd 0 48 0).wf
    , (Instr.joinHoldEnd 0 0 2).wf
    , (Instr.yieldEnd 12 0 0).wf
    , (Instr.yieldEnd 0 48 0).wf
    , (Instr.yieldEnd 0 0 2).wf
    , (Instr.l1AgeWriteback 12 0 0).wf
    , (Instr.l1AgeWriteback 0 48 0).wf
    , (Instr.l1AgeInvalidate 12 0 0).wf
    , (Instr.l1AgeInvalidate 0 48 0).wf
    , (Instr.translationWalk 12 0 0).wf
    , (Instr.translationWalk 0 48 0).wf
    , (Instr.pendingRewalk 12 0 0).wf
    , (Instr.pendingRewalk 0 48 0).wf
    , (Instr.pendingTimeout 12 0 0).wf
    , (Instr.pendingTimeout 0 48 0).wf
    , (Instr.copy 12 0 0).wf
    , (Instr.copy 0 48 0).wf
    , (Instr.gather 12 0 0).wf
    , (Instr.gather 0 48 0).wf
    , (Instr.fill 12 0 0).wf
    , (Instr.fill 0 48 0).wf
    , (Instr.decompress 12 0 0).wf
    , (Instr.decompress 0 48 0).wf
    , (Instr.quantise 12 0 0).wf
    , (Instr.quantise 0 48 0).wf
    , (Instr.tileFillComplete 12 0 0).wf
    , (Instr.tileFillComplete 0 48 0).wf
    , (Instr.tileFillComplete 0 0 64).wf
    , (Instr.cardLock 12 0 0).wf
    , (Instr.cardLock 0 48 0).wf
    , (Instr.clear 12 0 0).wf
    , (Instr.clear 0 48 0).wf
    , (Instr.bcast 12 0 0).wf
    , (Instr.bcast 0 48 0).wf
    , (Instr.mulrows 12 0 0).wf
    , (Instr.mulrows 0 48 0).wf
    , (Instr.readout 12 0 0).wf
    , (Instr.readout 0 48 0).wf
    , (Instr.cardEnd 12 0 0).wf
    , (Instr.cardEnd 0 48 0).wf
    , (Instr.matrixWordCompletion 12 0).wf
    , (Instr.matrixWordCompletion 0 48).wf
    , (Instr.currentStep 12 0).wf
    , (Instr.currentStep 0 12).wf
    , (Instr.issueUnitIdleRelease 12 0 0).wf
    , (Instr.issueUnitIdleRelease 0 48 0).wf
    , (Instr.issueUnitIdleRelease 0 0 2).wf
    , (Instr.capChange 12 0 0 0).wf
    , (Instr.capChange 0 12 0 0).wf
    , (Instr.capChange 0 0 353 0).wf
    , (Instr.capChange 0 0 0 65).wf
    , (Instr.rakeSpill 64 0 0).wf].all fun b => !b) = true := by decide +kernel

theorem test_illFormed_events2 : ([(Instr.rakeRefill 64 0 0).wf
    , (Instr.surfaceDiscard 64 0).wf
    , (Instr.raster 64 0 0).wf
    , (Instr.raster 0 0 4096).wf
    , (Instr.drawRetire 6 0).wf
    , (Instr.drawRetire 0 65536).wf
    , (Instr.gate 64 0 0).wf
    , (Instr.gate 0 0 4096).wf
    , (Instr.traverse 64 0 0).wf
    , (Instr.traverse 0 0 4096).wf
    , (Instr.classify 64 0 0).wf
    , (Instr.classify 0 0 4096).wf
    , (Instr.net 64 0 0).wf
    , (Instr.net 0 0 4096).wf
    , (Instr.copyNode 64 0 0).wf
    , (Instr.copyNode 0 0 4096).wf
    , (Instr.hostqModerationExpiry 64).wf
    , (Instr.groupLaunch 64 0 0).wf
    , (Instr.groupLaunch 0 0 4096).wf
    , (Instr.coalesceTimeout 64 0 0).wf
    , (Instr.coalesceTimeout 0 0 4096).wf
    , (Instr.groupAdmission 12).wf
    , (Instr.preemptionOnQuantum 12).wf
    , (Instr.hostTailWrite 64 false 0 0 false).wf
    , (Instr.hostTailWrite 0 false 18446744073709551616 0 false).wf
    , (Instr.hostTailWrite 0 false 0 4294967296 false).wf
    , (Instr.bar2Access 64 false 0 0 false 0).wf
    , (Instr.bar2Access 0 false 18446744073709551616 0 false 0).wf
    , (Instr.bar2Access 0 false 0 9 false 0).wf
    , (Instr.bar2Access 0 false 0 0 false 18446744073709551616).wf
    , (Instr.rootWrite 64 0).wf
    , (Instr.rootWrite 0 18446744073709551616).wf
    , (Instr.bctlGo 64 0 0).wf
    , (Instr.bctlGo 0 4096 0).wf
    , (Instr.bctlGo 0 0 4096).wf
    , (Instr.bctlUnbind 64).wf
    , (Instr.tsplitw 64 0).wf
    , (Instr.tsplitw 0 4294967296).wf
    , (Instr.tsplitFlushComplete 64).wf
    , (Instr.surftabWrite 64 0).wf
    , (Instr.surftabWrite 0 18446744073709551616).wf
    , (Instr.surfcntWrite 64 0).wf
    , (Instr.surfcntWrite 0 4294967296).wf
    , (Instr.ressizeWrite 64 0).wf
    , (Instr.ressizeWrite 0 18446744073709551616).wf
    , (Instr.hsctlGo 64).wf
    , (Instr.hostAllocationDone 64).wf
    , (Instr.causeClear 64 0).wf
    , (Instr.causeClear 0 4294967296).wf
    , (Instr.discard 64 0).wf
    , (Instr.discard 0 16).wf
    , (Instr.stop 64 0).wf
    , (Instr.stop 0 16).wf
    , (Instr.flr 64).wf
    , (Instr.flrReady 64).wf
    , (Instr.partitionDescriptorWrite 64 0 0 0).wf
    , (Instr.partitionDescriptorWrite 0 4294967296 0 0).wf
    , (Instr.partitionDescriptorWrite 0 0 4294967296 0).wf
    , (Instr.partitionDescriptorWrite 0 0 0 4294967296).wf
    , (Instr.shareUpdate 64).wf].all fun b => !b) = true := by decide +kernel

theorem test_illFormed_events3 : ([(Instr.partitionSwitch 64 0).wf
    , (Instr.partitionSwitch 0 64).wf
    , (Instr.s2rootWrite 64 0).wf
    , (Instr.s2rootWrite 0 18446744073709551616).wf
    , (Instr.inv2 64 0).wf
    , (Instr.inv2 0 18446744073709551616).wf
    , (Instr.invalPage 64 0).wf
    , (Instr.invalPage 0 18446744073709551616).wf
    , (Instr.invalAll 64).wf
    , (Instr.resume 64 0).wf
    , (Instr.resume 0 64).wf
    , (Instr.fresStop 64 0).wf
    , (Instr.fresStop 0 64).wf
    , (Instr.pfcauseClear 4294967296).wf
    , (Instr.pfvferrClear 18446744073709551616).wf
    , (Instr.registerWrite 64 0 0).wf
    , (Instr.registerWrite 0 65560 0).wf
    , (Instr.registerWrite 0 0 18446744073709551616).wf
    , (Instr.powcapWrite 4294967296).wf
    , (Instr.refmaxWrite 4294967296).wf
    , (Instr.revoke 4).wf
    , (Instr.join 16384).wf
    , (Instr.remoteAccessTimeout 12 0 0).wf
    , (Instr.remoteAccessTimeout 0 48 0).wf
    , (Instr.viaGroupStateChange 12 0 0).wf
    , (Instr.viaGroupStateChange 0 48 0).wf
    , (Instr.viaGroupStateChange 0 0 9).wf
    , (Instr.channelNarrow 12 0).wf
    , (Instr.channelNarrow 0 24).wf
    , (Instr.channelRetire 12 0 false).wf
    , (Instr.channelRetire 0 24 false).wf
    , (Instr.reservedEncoding 4294967296).wf].all fun b => !b) = true := by decide +kernel

/-- A word whose format or modifier is ill-formed is ill-formed; the same word with fields that fit is not. -/
theorem test_illFormed_words :
    (Instr.trap { c := false, i := 2 ^ 20 } none).wf = false ∧ (Instr.iadd { c := false, h := false, d := 128, a := 0, b := 0, m := false, n := false } none).wf = false
    ∧ (Instr.exit { c := false } (some { c := true, sat := true, clp := true, na := true, nb := true, aa := true, ab := true, scale := 31, kg := 63, gn := true, hb := true, ord := 3, scope := 7, rsv := true })).wf = false ∧ (Instr.trap { c := false, i := 2 ^ 20 - 1 } none).wf = true := by decide +kernel

/-! ### Every encoded row decodes -/

theorem test_decode_rows1 :
    decodeWord 0x00000000 none = some (.nop { c := false })
    ∧ decodeWord 0x80100000 none = some (.exit { c := true } none)
    ∧ decodeWord 0x00202B6B none = some (.trap { c := false, i := 11115 } none)
    ∧ decodeWord 0x80300000 none = some (.trapret { c := true } none)
    ∧ decodeWord 0x00400000 none = some (.bkpt { c := false } none)
    ∧ decodeWord 0x80500000 none = some (.yield { c := true } none)
    ∧ decodeWord 0x02917FB6 none = some (.iadd { c := false, h := true, d := 17, a := 63, b := 109, m := true, n := false } none)
    ∧ decodeWord 0x8365784D none = some (.isub { c := true, h := false, d := 101, a := 60, b := 19, m := false, n := true } none)
    ∧ decodeWord 0x04D0769A none = some (.imul { c := false, h := true, d := 80, a := 59, b := 38, m := true, n := false } none)
    ∧ decodeWord 0x8549FCCD none = some (.imulhU { c := true, h := false, d := 73, a := 126, b := 51, m := false, n := true } none)
    ∧ decodeWord 0x0698EB4A none = some (.imulhS { c := false, h := true, d := 24, a := 117, b := 82, m := true, n := false } none)
    ∧ decodeWord 0x8734C402 none = some (.iabs { c := true, h := false, d := 52, a := 98, m := true } none)
    ∧ decodeWord 0x095F6C35 none = some (.imad { c := false, h := true, e := false, d := 95, a := 54, b := 13, m := false, n := true } none)
    ∧ decodeWord 0x8A73BD25 none = some (.iminS { c := true, h := false, d := 115, a := 94, b := 73, m := false, n := true } none)
    ∧ decodeWord 0x0BEC435A none = some (.imaxS { c := false, h := true, d := 108, a := 33, b := 86, m := true, n := false } none)
    ∧ decodeWord 0x8C3B31D5 none = some (.iminU { c := true, h := false, d := 59, a := 24, b := 117, m := false, n := true } none)
    ∧ decodeWord 0x0DD70ACE none = some (.imaxU { c := false, h := true, d := 87, a := 5, b := 51, m := true, n := false } none)
    ∧ decodeWord 0x8E2B0565 none = some (.and { c := true, h := false, d := 43, a := 2, b := 89, m := false, n := true } none)
    ∧ decodeWord 0x0F9603B2 none = some (.or { c := false, h := true, d := 22, a := 1, b := 108, m := true, n := false } none)
    ∧ decodeWord 0x900F89E5 none = some (.xor { c := true, h := false, d := 15, a := 68, b := 121, m := false, n := true } none)
    ∧ decodeWord 0x11DE7662 none = some (.andn { c := false, h := true, d := 94, a := 59, b := 24, m := true, n := false } none) :=
  ⟨rfl, rfl, rfl, rfl, rfl, rfl, rfl, rfl, rfl, rfl, rfl, rfl, rfl, rfl, rfl, rfl, rfl, rfl, rfl, rfl, rfl⟩

theorem test_decode_rows2 :
    decodeWord 0x927A5159 none = some (.shl { c := true, h := false, d := 122, a := 40, b := 86, m := false, n := true } none)
    ∧ decodeWord 0x13CE4BF2 none = some (.shr { c := false, h := true, d := 78, a := 37, b := 124, m := true, n := false } none)
    ∧ decodeWord 0x9439483D none = some (.sar { c := true, h := false, d := 57, a := 36, b := 15, m := false, n := true } none)
    ∧ decodeWord 0x15B2CE72 none = some (.rot { c := false, h := true, d := 50, a := 103, b := 28, m := true, n := false } none)
    ∧ decodeWord 0x9601BC02 none = some (.popc { c := true, h := false, d := 1, a := 94, m := true } none)
    ∧ decodeWord 0x179D9600 none = some (.clz { c := false, h := true, d := 29, a := 75, m := false } none)
    ∧ decodeWord 0x9871907D none = some (.bfxU { c := true, h := false, d := 113, a := 72, b := 31, m := false, n := true } none)
    ∧ decodeWord 0x19DC8ECA none = some (.bfxS { c := false, h := true, d := 92, a := 71, b := 50, m := true, n := false } none)
    ∧ decodeWord 0x9A8A7FD2 none = some (.bfi { c := true, h := false, e := true, d := 10, a := 63, b := 116, m := true, n := false } none)
    ∧ decodeWord 0x1CA4037A none = some (.iaddW { c := false, h := true, d := 36, a := 1, b := 94, m := true, n := false } none)
    ∧ decodeWord 0x9D40DC71 none = some (.isubW { c := true, h := false, d := 64, a := 110, b := 28, m := false, n := true } none)
    ∧ decodeWord 0x1E94D6C2 none = some (.iaddi { c := false, m := true, d := 20, a := 107, i := 194 } none)
    ∧ decodeWord 0x9F7FD4D5 none = some (.andi { c := true, m := false, d := 127, a := 106, i := 213 } none)
    ∧ decodeWord 0x20F85BE2 none = some (.ori { c := false, m := true, d := 120, a := 45, i := 482 } none)
    ∧ decodeWord 0xA1474881 none = some (.xori { c := true, m := false, d := 71, a := 36, i := 129 } none)
    ∧ decodeWord 0x22E3221F none = some (.shli { c := false, m := true, d := 99, a := 17, i := 31 } none)
    ∧ decodeWord 0xA3371C05 none = some (.shri { c := true, m := false, d := 55, a := 14, i := 5 } none)
    ∧ decodeWord 0x24A21A18 none = some (.sari { c := false, m := true, d := 34, a := 13, i := 24 } none)
    ∧ decodeWord 0xA51BA005 none = some (.muli { c := true, m := false, d := 27, a := 80, i := 5 } none)
    ∧ decodeWord 0x26EA8E00 none = some (.brev { c := false, h := true, d := 106, a := 71, m := false } none)
    ∧ decodeWord 0xA7066989 none = some (.lea { c := true, h := false, d := 6, a := 52, b := 98, m := false, n := true } none) :=
  ⟨rfl, rfl, rfl, rfl, rfl, rfl, rfl, rfl, rfl, rfl, rfl, rfl, rfl, rfl, rfl, rfl, rfl, rfl, rfl, rfl, rfl⟩

theorem test_decode_rows3 :
    decodeWord 0x2803375A none = some (.li { c := false, d := 3, i := 14170 } none)
    ∧ decodeWord 0xA8DA1C45 none = some (.liu { c := true, d := 90, i := 7237 } none)
    ∧ decodeWord 0x29090EBE none = some (.lhi { c := false, d := 9, i := 3774 } none)
    ∧ decodeWord 0xAA0DD402 none = some (.mov { c := true, h := false, d := 13, a := 106, m := true } none)
    ∧ decodeWord 0x2BA9AE16 none = some (.sel { c := false, h := true, d := 41, a := 87, b := 5, m := true, n := false } none)
    ∧ decodeWord 0xAC04D12B none = some (.setx { c := true, a := 38, m := true, x := 0, i := 299 } none)
    ∧ decodeWord 0x2C1FAF3E none = some (.movxR { c := false, d := 125, m := false, x := 3, i := 830 } none)
    ∧ decodeWord 0xAC25984B none = some (.movxW { c := true, s := 44, m := true, x := 2, i := 75 } none)
    ∧ decodeWord 0x2C30D330 none = some (.win { c := false, l := 211, b := 48 } none)
    ∧ decodeWord 0xAF8CF4A1 none = some (.icmpS { c := true, p := 6, k := 12, a := 122, b := 40, m := false, n := true } none)
    ∧ decodeWord 0x3060EF3A none = some (.icmpU { c := false, p := 1, k := 32, a := 119, b := 78, m := true, n := false } none)
    ∧ decodeWord 0xB2405ED0 none = some (.pand { c := true, k := 32, j := 11, l := 54, x := true, y := false } none)
    ∧ decodeWord 0x329E2728 none = some (.por { c := false, k := 15, j := 4, l := 57, x := false, y := true } none)
    ∧ decodeWord 0xB36C9E10 none = some (.pxor { c := true, k := 54, j := 19, l := 48, x := true, y := false } none)
    ∧ decodeWord 0x33837BA8 none = some (.pandn { c := false, k := 1, j := 47, l := 29, x := false, y := true } none)
    ∧ decodeWord 0xB40B219A none = some (.kpack { c := true, k := 44, d := 67, n := 26 } none)
    ∧ decodeWord 0x3410D744 none = some (.kunpack { c := false, k := 3, a := 46, m := true, n := 4 } none)
    ∧ decodeWord 0xB42C8001 none = some (.kset { c := true, k := 50, v := true } none)
    ∧ decodeWord 0x3619D800 none = some (.smov { c := false, d := 25, a := 54 } none)
    ∧ decodeWord 0xB6640212 none = some (.sli { c := true, d := 36, i := 530 } none)
    ∧ decodeWord 0x368F983D none = some (.sadd { c := false, d := 15, a := 38, b := 61 } none) :=
  ⟨rfl, rfl, rfl, rfl, rfl, rfl, rfl, rfl, rfl, rfl, rfl, rfl, rfl, rfl, rfl, rfl, rfl, rfl, rfl, rfl, rfl⟩

theorem test_decode_rows4 :
    decodeWord 0xB6E6443C none = some (.ssub { c := true, d := 38, a := 17, b := 60 } none)
    ∧ decodeWord 0x3715283F none = some (.sand { c := false, d := 21, a := 10, b := 63 } none)
    ∧ decodeWord 0xB77C6436 none = some (.sor { c := true, d := 60, a := 25, b := 54 } none)
    ∧ decodeWord 0x3787D403 none = some (.sshl { c := false, d := 7, a := 53, i := 3 } none)
    ∧ decodeWord 0xB7F22400 none = some (.sshr { c := true, d := 50, a := 9, i := 0 } none)
    ∧ decodeWord 0x38002474 none = some (.smovv { c := false, a := 9, d := 116 } none)
    ∧ decodeWord 0xB87800A2 none = some (.vmovs { c := true, d := 56, m := true, a := 34 } none)
    ∧ decodeWord 0x389FF219 none = some (.sld { c := false, d := 31, a := 60, i := 537 } none)
    ∧ decodeWord 0xB8EA6122 none = some (.scmp { c := true, k := 42, a := 24, u := false, p := 4, b := 34 } none)
    ∧ decodeWord 0x3AA84303 none = some (.bra { c := false, k := 21, g := false, d := 17155 } none)
    ∧ decodeWord 0xBD642282 none = some (.call { c := true, k := 44, g := true, d := 8834 } none)
    ∧ decodeWord 0x3E0B6000 none = some (.jmpr { c := false, a := 91, m := false } none)
    ∧ decodeWord 0xBE104020 none = some (.ret { c := true, a := 2, m := true } none)
    ∧ decodeWord 0x40FB535E none = some (.fadd { c := false, h := true, d := 123, a := 41, b := 87, m := true, n := false } none)
    ∧ decodeWord 0xC14F4DF5 none = some (.fsub { c := true, h := false, d := 79, a := 38, b := 125, m := false, n := true } none)
    ∧ decodeWord 0x42BA4A42 none = some (.fmul { c := false, h := true, d := 58, a := 37, b := 16, m := true, n := false } none)
    ∧ decodeWord 0xC333D075 none = some (.fmin { c := true, h := false, d := 51, a := 104, b := 29, m := false, n := true } none)
    ∧ decodeWord 0x455F7865 none = some (.ffma { c := false, h := true, e := false, d := 95, a := 60, b := 25, m := false, n := true } none)
    ∧ decodeWord 0xC61E99E9 none = some (.fmax { c := true, h := false, d := 30, a := 76, b := 122, m := false, n := true } none)
    ∧ decodeWord 0x47F29200 none = some (.fclass { c := false, h := true, d := 114, a := 73, m := false } none)
    ∧ decodeWord 0xC80E5740 none = some (.frndNe { c := true, d := 114, a := 93, m := false } none) :=
  ⟨rfl, rfl, rfl, rfl, rfl, rfl, rfl, rfl, rfl, rfl, rfl, rfl, rfl, rfl, rfl, rfl, rfl, rfl, rfl, rfl, rfl⟩

theorem test_decode_rows5 :
    decodeWord 0x481435A0 none = some (.frndZ { c := false, d := 33, a := 86, m := true } none)
    ∧ decodeWord 0xC8290940 none = some (.frndP { c := true, d := 72, a := 37, m := false } none)
    ∧ decodeWord 0x48327060 none = some (.frndM { c := false, d := 19, a := 65, m := true } none)
    ∧ decodeWord 0xC847C540 none = some (.f2iS { c := true, d := 62, a := 21, m := false } none)
    ∧ decodeWord 0x4852A020 none = some (.f2iU { c := false, d := 21, a := 0, m := true } none)
    ∧ decodeWord 0xC8689E40 none = some (.i2fS { c := true, d := 68, a := 121, m := false } none)
    ∧ decodeWord 0x487D7220 none = some (.i2fU { c := false, d := 107, a := 72, m := true } none)
    ∧ decodeWord 0xC886D900 none = some (.f2h { c := true, d := 54, a := 100, m := false } none)
    ∧ decodeWord 0x489C2E20 none = some (.h2f { c := false, d := 97, a := 56, m := true, s := false } none)
    ∧ decodeWord 0xC8A708C0 none = some (.f2bf { c := true, d := 56, a := 35, m := false } none)
    ∧ decodeWord 0x48BCE720 none = some (.bf2f { c := false, d := 103, a := 28, m := true, s := false } none)
    ∧ decodeWord 0xC8C1DAC0 none = some (.f2e4 { c := true, d := 14, a := 107, m := false } none)
    ∧ decodeWord 0x48DB21E3 none = some (.e42f { c := false, d := 89, a := 7, m := true, s := 3 } none)
    ∧ decodeWord 0xC8E096C0 none = some (.f2e5 { c := true, d := 4, a := 91, m := false } none)
    ∧ decodeWord 0x48FB71A0 none = some (.e52f { c := false, d := 91, a := 70, m := true, s := 0 } none)
    ∧ decodeWord 0xCABFE8A5 none = some (.fcmp { c := true, p := 2, k := 63, a := 116, b := 41, m := false, n := true } none)
    ∧ decodeWord 0x4C8ED722 none = some (.hadd2 { c := false, h := true, d := 14, a := 107, b := 72, m := true, n := false } none)
    ∧ decodeWord 0xCD2AB019 none = some (.hmul2 { c := true, h := false, d := 42, a := 88, b := 6, m := false, n := true } none)
    ∧ decodeWord 0x4F55580D none = some (.hfma2 { c := false, h := true, e := false, d := 85, a := 44, b := 3, m := false, n := true } none)
    ∧ decodeWord 0xD0D47EAA none = some (.bfma2 { c := true, h := false, e := true, d := 84, a := 63, b := 42, m := true, n := false } none)
    ∧ decodeWord 0x52E22F32 none = some (.dadd { c := false, h := true, d := 98, a := 23, b := 76, m := true, n := false } none) :=
  ⟨rfl, rfl, rfl, rfl, rfl, rfl, rfl, rfl, rfl, rfl, rfl, rfl, rfl, rfl, rfl, rfl, rfl, rfl, rfl, rfl, rfl⟩

theorem test_decode_rows6 :
    decodeWord 0xD3311DAD none = some (.dmul { c := true, h := false, d := 49, a := 14, b := 107, m := false, n := true } none)
    ∧ decodeWord 0x557B535D none = some (.dfma { c := false, h := true, e := false, d := 123, a := 41, b := 87, m := false, n := true } none)
    ∧ decodeWord 0xD6094840 none = some (.d2f { c := true, d := 74, a := 33, m := false } none)
    ∧ decodeWord 0x56142320 none = some (.f2d { c := false, d := 33, a := 12, m := true } none)
    ∧ decodeWord 0xD62A0141 none = some (.d2i { c := true, d := 80, a := 5, m := false, u := true } none)
    ∧ decodeWord 0x563EF520 none = some (.i2d { c := false, d := 119, a := 84, m := true, u := false } none)
    ∧ decodeWord 0xD648583C none = some (.dsubf { c := true, d := 66, a := 48, b := 30 } none)
    ∧ decodeWord 0x565B446C none = some (.dmin { c := false, d := 45, a := 4, b := 27 } none)
    ∧ decodeWord 0xD6612F68 none = some (.dmax { c := true, d := 4, a := 47, b := 26 } none)
    ∧ decodeWord 0x567CE876 none = some (.dcmp { c := false, k := 51, a := 40, b := 29, p := 2 } none)
    ∧ decodeWord 0xD8035DC0 none = some (.rcp { c := true, d := 26, a := 119, m := false } none)
    ∧ decodeWord 0x581CA4E0 none = some (.rsq { c := false, d := 101, a := 19, m := true } none)
    ∧ decodeWord 0xD82219C0 none = some (.sqrt { c := true, d := 16, a := 103, m := false } none)
    ∧ decodeWord 0x583CF4A0 none = some (.ex2 { c := false, d := 103, a := 82, m := true } none)
    ∧ decodeWord 0xD842D2C0 none = some (.lg2 { c := true, d := 22, a := 75, m := false } none)
    ∧ decodeWord 0x5857A6A0 none = some (.sin { c := false, d := 61, a := 26, m := true } none)
    ∧ decodeWord 0xD8610D80 none = some (.cos { c := true, d := 8, a := 54, m := false } none)
    ∧ decodeWord 0x587662A0 none = some (.tanh { c := false, d := 51, a := 10, m := true } none)
    ∧ decodeWord 0xDA75C12D none = some (.hmix { c := true, h := false, d := 117, a := 96, b := 75, m := false, n := true } none)
    ∧ decodeWord 0x5C77230D none = some (.ld { c := false, z := 1, d := 110, a := 35, m := false, o := 13 } none)
    ∧ decodeWord 0xDE1E9AD4 none = some (.st { c := true, z := 0, s := 61, a := 26, m := true, o := 84 } none) :=
  ⟨rfl, rfl, rfl, rfl, rfl, rfl, rfl, rfl, rfl, rfl, rfl, rfl, rfl, rfl, rfl, rfl, rfl, rfl, rfl, rfl, rfl⟩

theorem test_decode_rows7 :
    decodeWord 0x60EC8763 none = some (.lds { c := false, z := 3, d := 89, a := 7, m := false, o := 99 } none)
    ∧ decodeWord 0xE39684B2 none = some (.sts { c := true, z := 6, s := 45, a := 4, m := true, o := 50 } none)
    ∧ decodeWord 0x654C0359 none = some (.ldt { c := false, z := 5, d := 24, a := 3, m := false, o := 89 } none)
    ∧ decodeWord 0xE708C6B0 none = some (.stt { c := true, z := 4, s := 17, a := 70, m := true, o := 48 } none)
    ∧ decodeWord 0x6801E07A none = some (.atomAdd { c := false, d := 3, a := 96, b := 61, m := false } none)
    ∧ decodeWord 0xE8677C55 none = some (.atomMinS { c := true, d := 78, a := 124, b := 42, m := true } none)
    ∧ decodeWord 0x68BCD04E none = some (.atomMinU { c := false, d := 121, a := 80, b := 39, m := false } none)
    ∧ decodeWord 0xE8E83B4D none = some (.atomMaxS { c := true, d := 80, a := 59, b := 38, m := true } none)
    ∧ decodeWord 0x693FB4D2 none = some (.atomMaxU { c := false, d := 127, a := 52, b := 105, m := false } none)
    ∧ decodeWord 0xE95303C1 none = some (.atomAnd { c := true, d := 38, a := 3, b := 96, m := true } none)
    ∧ decodeWord 0x69B89F9A none = some (.atomOr { c := false, d := 113, a := 31, b := 77, m := false } none)
    ∧ decodeWord 0xE9CE7395 none = some (.atomXor { c := true, d := 28, a := 115, b := 74, m := true } none)
    ∧ decodeWord 0x6A39DE92 none = some (.exch { c := false, d := 115, a := 94, b := 73, m := false } none)
    ∧ decodeWord 0xEA515719 none = some (.cas { c := true, d := 34, a := 87, b := 12, m := true } none)
    ∧ decodeWord 0x6AA4A606 none = some (.atomRinc { c := false, d := 73, a := 38, b := 3, m := false } none)
    ∧ decodeWord 0xEACA42E1 none = some (.atomRdec { c := true, d := 20, a := 66, b := 112, m := true } none)
    ∧ decodeWord 0x6B1F96DA none = some (.atomFadd { c := false, d := 63, a := 22, b := 109, m := false } none)
    ∧ decodeWord 0xEC000000 none = some (.fence { c := true } none)
    ∧ decodeWord 0x6C100000 none = some (.fenceT { c := false } none)
    ∧ decodeWord 0xEC200000 none = some (.bar { c := true } none)
    ∧ decodeWord 0x6C300000 none = some (.barS { c := false } none) :=
  ⟨rfl, rfl, rfl, rfl, rfl, rfl, rfl, rfl, rfl, rfl, rfl, rfl, rfl, rfl, rfl, rfl, rfl, rfl, rfl, rfl, rfl⟩

theorem test_decode_rows8 :
    decodeWord 0xEC4C4E50 none = some (.pbinit { c := true, a := 98, b := 57, m := false, n := true } none)
    ∧ decodeWord 0x6C572920 none = some (.pbarrive { c := false, a := 57, b := 36, m := true, n := false } none)
    ∧ decodeWord 0xEC6D0750 none = some (.pbexpect { c := true, a := 104, b := 29, m := false, n := true } none)
    ∧ decodeWord 0x6C71E001 none = some (.pbwait { c := false, a := 15, m := false, p := true } none)
    ∧ decodeWord 0xEC868401 none = some (.pbtest { c := true, k := 26, a := 8, m := false, p := true } none)
    ∧ decodeWord 0x6C90B721 none = some (.waitc { c := false, a := 5, b := 92, m := true, n := false, p := 1 } none)
    ∧ decodeWord 0xECAB91C1 none = some (.ldsc { c := true, d := 92, a := 71, m := false, z := 1 } none)
    ∧ decodeWord 0x6CB17023 none = some (.stsc { c := false, a := 11, b := 64, m := true, n := false, z := 3 } none)
    ∧ decodeWord 0xECC647EC none = some (.atomscAdd { c := true, d := 50, a := 15, b := 108 } none)
    ∧ decodeWord 0x6CDFB5D9 none = some (.atomscCas { c := false, d := 125, a := 43, b := 89 } none)
    ∧ decodeWord 0xECE50020 none = some (.cflush { c := true, a := 40, m := true } none)
    ∧ decodeWord 0x6CFFE000 none = some (.cinv { c := false, a := 127, m := false } none)
    ∧ decodeWord 0xED05C020 none = some (.prefetch { c := true, a := 46, m := true, l := 0 } none)
    ∧ decodeWord 0x6E040032 none = some (.acqB { c := false, k := 1, n := 50 } none)
    ∧ decodeWord 0xEE14070A none = some (.acqT { c := true, d := 32, k := 14, t := 0, n := 10 } none)
    ∧ decodeWord 0x6E2C00A2 none = some (.rel { c := false, k := 3, n := 162 } none)
    ∧ decodeWord 0xEE344351 none = some (.qput { c := true, a := 34, b := 13, m := false, n := true, t := false, q := 1 } none)
    ∧ decodeWord 0x6E4A2006 none = some (.qget { c := false, d := 81, q := 6 } none)
    ∧ decodeWord 0xEE5F1547 none = some (.qfree { c := true, d := 120, a := 85, m := false, q := 7 } none)
    ∧ decodeWord 0x6E600331 none = some (.tdef { c := false, a := 3, t := 49 } none)
    ∧ decodeWord 0xEE7B8005 none = some (.tstat { c := true, k := 46, t := 5 } none) :=
  ⟨rfl, rfl, rfl, rfl, rfl, rfl, rfl, rfl, rfl, rfl, rfl, rfl, rfl, rfl, rfl, rfl, rfl, rfl, rfl, rfl, rfl⟩

theorem test_decode_rows9 :
    decodeWord 0x6E800500 none = some (.kick { c := false, a := 5 } none)
    ∧ decodeWord 0xEE903400 none = some (.bankjob { c := true, a := 52 } none)
    ∧ decodeWord 0x70037E15 none = some (.suld { c := false, d := 27, a := 120, s := 21 } none)
    ∧ decodeWord 0xF01CC502 none = some (.sust { c := true, d := 102, a := 20, s := 2 } none)
    ∧ decodeWord 0x70223A3F none = some (.tex { c := false, d := 17, a := 104, s := 63 } none)
    ∧ decodeWord 0xF03D14FE none = some (.texl { c := true, d := 104, a := 83, s := 62 } none)
    ∧ decodeWord 0x7042F301 none = some (.texg { c := false, d := 23, a := 76, s := 1 } none)
    ∧ decodeWord 0xF057C020 none = some (.zexp { c := true, a := 62, m := true } none)
    ∧ decodeWord 0x70612005 none = some (.cexp { c := false, a := 9, m := false, t := 5 } none)
    ∧ decodeWord 0xF07682C0 none = some (.occ { c := true, d := 52, a := 11, m := false } none)
    ∧ decodeWord 0x7082F600 none = some (.salloc { c := false, d := 11, a := 54 } none)
    ∧ decodeWord 0xF0903A00 none = some (.sfree { c := true, a := 58 } none)
    ∧ decodeWord 0x72002100 none = some (.mma { c := false, a := 33 } none)
    ∧ decodeWord 0xF2102C00 none = some (.msca { c := true, a := 44 } none)
    ∧ decodeWord 0x72200007 none = some (.mzero { c := false, s := 7 } none)
    ∧ decodeWord 0xF2302E00 none = some (.mload { c := true, a := 46 } none)
    ∧ decodeWord 0x724BA012 none = some (.mdrain { c := false, d := 93, s := 18 } none)
    ∧ decodeWord 0xF2500400 none = some (.mdrainAdd { c := true, a := 4 } none)
    ∧ decodeWord 0x7263C005 none = some (.mstat { c := false, k := 15, s := 5 } none)
    ∧ decodeWord 0xF40F4028 none = some (.emit { c := true, a := 122, m := true, j := 8 } none)
    ∧ decodeWord 0x74145E42 none = some (.emitT { c := false, k := 17, a := 60, m := true, j := 2 } none) :=
  ⟨rfl, rfl, rfl, rfl, rfl, rfl, rfl, rfl, rfl, rfl, rfl, rfl, rfl, rfl, rfl, rfl, rfl, rfl, rfl, rfl, rfl⟩

theorem test_decode_rows10 :
    decodeWord 0xF6000D6A none = some (.sysrd { c := true, d := 0, a := 53, n := 42 } none)
    ∧ decodeWord 0x761009C4 none = some (.syswr { c := false, a := 39, n := 4 } none)
    ∧ decodeWord 0xFA0E5000 none = some (.ballot { c := true, d := 114, k := 32 } none)
    ∧ decodeWord 0x7A177480 none = some (.kgor { c := false, k := 29, j := 52, n := true } none)
    ∧ decodeWord 0xFA2D1F00 none = some (.kgand { c := true, k := 52, j := 31, n := false } none)
    ∧ decodeWord 0x7A347628 none = some (.xferIdx { c := false, d := 35, a := 88, t := 5 } none)
    ∧ decodeWord 0xFA4949C4 none = some (.xferRot { c := true, d := 74, a := 39, i := 4 } none)
    ∧ decodeWord 0x7A52B0F1 none = some (.xferSh { c := false, d := 21, a := 67, i := 49 } none)
    ∧ decodeWord 0xFA6805EE none = some (.xferFlip { c := true, d := 64, a := 23, i := 46 } none)
    ∧ decodeWord 0x7A72E0A0 none = some (.gredAdd { c := false, d := 23, a := 2, m := true } none)
    ∧ decodeWord 0xFA88DEC0 none = some (.gredMin { c := true, d := 70, a := 123, m := false } none)
    ∧ decodeWord 0x7A9DB2A0 none = some (.gredMax { c := false, d := 109, a := 74, m := true } none)
    ∧ decodeWord 0xFAA71980 none = some (.gredFadd { c := true, d := 56, a := 102, m := false } none)
    ∧ decodeWord 0x7ABC6EA0 none = some (.gredFmax { c := false, d := 99, a := 58, m := true } none)
    ∧ decodeWord 0xFAC74941 none = some (.gscanAdd { c := true, d := 58, a := 37, m := false, x := true } none)
    ∧ decodeWord 0x7ADD2000 none = some (.gpos { c := false, d := 105 } none)
    ∧ decodeWord 0xFAE20000 none = some (.gsize { c := true, d := 16 } none)
    ∧ decodeWord 0x7AF6C000 none = some (.gfirst { c := false, k := 27 } none)
    ∧ decodeWord 0xFB00D774 none = some (.pick { c := true, d := 6, a := 93, s := 52 } none)
    ∧ decodeWord 0x7C802633 none = some (.endrun { j := false, y := true, r := false, w := 9779 }) :=
  ⟨rfl, rfl, rfl, rfl, rfl, rfl, rfl, rfl, rfl, rfl, rfl, rfl, rfl, rfl, rfl, rfl, rfl, rfl, rfl, rfl⟩

/-! ### Words of each family written out bit by bit -/

theorem test_word_nop : decodeAt 0b00000000000000000000000000000000 none = .ok (.nop { c := false }, 1) := rfl
theorem test_word_iadd : decodeAt 0b00000010000001010000110000011100 none = .ok (.iadd { c := false, h := false, d := 5, a := 6, b := 7, m := false, n := false } none, 1) := rfl
theorem test_word_shr : decodeAt 0b00010011111100001101111111101101 none = .ok (.shr { c := false, h := true, d := 112, a := 111, b := 123, m := false, n := true } none, 1) := rfl
theorem test_word_iaddi : decodeAt 0b00011110100010010001000111111111 none = .ok (.iaddi { c := false, m := true, d := 9, a := 8, i := 511 } none, 1) := rfl
theorem test_word_lhi : decodeAt 0b00101001000000111011111011101111 none = .ok (.lhi { c := false, d := 3, i := 0xBEEF } none, 1) := rfl
theorem test_word_pand : decodeAt 0b00110010000001100010000010110000 none = .ok (.pand { c := false, k := 3, j := 4, l := 5, x := true, y := false } none, 1) := rfl
theorem test_word_sadd : decodeAt 0b00110110100010100000110000000010 none = .ok (.sadd { c := false, d := 10, a := 3, b := 2 } none, 1) := rfl
theorem test_word_bra : decodeAt 0b00111010000011111111111111111111 none = .ok (.bra { c := false, k := 1, g := true, d := 0x3FFFF } none, 1) := rfl
theorem test_word_trap : decodeAt 0b00000000001010101011110011011110 none = .ok (.trap { c := false, i := 0xABCDE } none, 1) := rfl
theorem test_word_ffma : decodeAt 0b11000100111100010000010111101010 none = .ok (.ffma { c := true, h := false, e := true, d := 113, a := 2, b := 122, m := true, n := false } none, 1) := rfl
theorem test_word_i2f_s : decodeAt 0b01001000011000000010000010100000 none = .ok (.i2fS { c := false, d := 1, a := 2, m := true } none, 1) := rfl
theorem test_word_dadd : decodeAt 0b01010010000000100000100000011000 none = .ok (.dadd { c := false, h := false, d := 2, a := 4, b := 6, m := false, n := false } none, 1) := rfl
theorem test_word_ex2 : decodeAt 0b01011000001100001110001000000000 none = .ok (.ex2 { c := false, d := 7, a := 8, m := false } none, 1) := rfl
theorem test_word_ballot : decodeAt 0b01111010000011100100010010000000 none = .ok (.ballot { c := false, d := 114, k := 9 } none, 1) := rfl
theorem test_word_ld : decodeAt 0b01011100100000110000001010000001 none = .ok (.ld { c := false, z := 2, d := 6, a := 2, m := true, o := 1 } none, 1) := rfl
theorem test_word_atom_add : decodeAt 0b01101000000000101000010000001101 none = .ok (.atomAdd { c := false, d := 5, a := 4, b := 6, m := true } none, 1) := rfl
theorem test_word_bar_s : decodeAt 0b01101100001100000000000000000000 none = .ok (.barS { c := false } none, 1) := rfl
theorem test_word_acq_b : decodeAt 0b01101110000010000000000000010001 none = .ok (.acqB { c := false, k := 2, n := 17 } none, 1) := rfl
theorem test_word_suld : decodeAt 0b01110000000000011000001010100001 none = .ok (.suld { c := false, d := 12, a := 10, s := 33 } none, 1) := rfl
theorem test_word_mma : decodeAt 0b01110010000000000001010000000000 none = .ok (.mma { c := false, a := 20 } none, 1) := rfl
theorem test_word_emit : decodeAt 0b01110100000000000110000000100101 none = .ok (.emit { c := false, a := 3, m := true, j := 5 } none, 1) := rfl
theorem test_word_sysrd : decodeAt 0b01110110000000001001111011010000 none = .ok (.sysrd { c := false, d := 4, a := 123, n := 16 } none, 1) := rfl
theorem test_word_endrun : decodeAt 0b01111101010000001000000000000001 none = .ok (.endrun { j := true, y := false, r := true, w := 0x8001 }, 1) := rfl
theorem test_word_dcmp_example : decodeAt 0x5670CA2E none = .ok (.dcmp { c := false, k := 3, a := 10, b := 11, p := 2 } none, 1) := rfl
theorem test_word_movx_r_example : decodeAt 0x2C10E40C none = .ok (.movxR { c := false, d := 7, m := false, x := 1, i := 12 } none, 1) := rfl
theorem test_word_modified : decodeAt 0b01000000000000010000010000001100 (some 0b01111111010011111100011110000000) = .ok (.fadd { c := false, h := false, d := 1, a := 2, b := 3, m := false, n := false }
      (some { c := false, sat := true, clp := false, na := true, nb := false, aa := false, ab := true, scale := 31, kg := 7, gn := true, hb := false, ord := 0
              scope := 0, rsv := false }), 2) := rfl
theorem test_word_reserved : decodeAt 0b01111000000000000000000000000000 none = .error .reserved := rfl
theorem test_word_loneModifier : decodeAt 0b01111111010011111100011110000000 none = .error .loneModifier := rfl

/-- The four bytes of a word, the least significant first (R5). -/
theorem test_bytes_order : wordOfBytes [0x1C, 0x0C, 0x05, 0x02] = some (0x02050C1C, []) := by decide

end Sys2Proof
end

section
/-! PROOFS. The machine state (01): predicates at launch (R17), the entry of a trap into its handler (R28, R242), and the words that read and write
system registers or append records (R22, R204, R205). -/

namespace Sys2Proof.Machine

/-! ### Predicates -/

/-- k0 reads 1 in every context (R17). -/
@[simp] theorem Ctx.pred_zero (c : Ctx) : c.pred 0 = true := rfl

/-- A write to k0 lands nowhere (R17). -/
theorem Ctx.apply_pred_zero (c : Ctx) (mask val : Word) (due : Nat) : c.apply { tgt := .pred 0, mask := mask, val := val, due := due } = c := rfl

/-- A thread is launched with no predicate set but k0 (Table 01.1). -/
theorem newThread_pred (tid entry : Nat) (exited : Bool) (n : Nat) : (newThread tid entry exited).c.pred n = (n == 0) := by
  show (n == 0 || (0 : BitVec 64).getLsbD n) = (n == 0)
  simp

/-- Settles O30: k0 is set by definition, and a launch context has no other predicate bit. -/
theorem predicateZeroIsHardWired : Obligations.PredicateZeroIsHardWired := by
  refine ⟨Ctx.pred_zero, Ctx.apply_pred_zero, fun tid i n hn _ => ?_⟩
  rw [newThread_pred]
  simpa using Nat.ne_of_gt hn

/-! ### A handled trap -/

/-- One thread of a group changes as told and the others not at all. -/
theorem Group.thread?_onThread (g : Group) (tid i : Nat) (f : Thread → Thread) (h : ∀ x, (f x).tid = x.tid) :
    (g.onThread tid f).thread? i = if i = tid then (g.thread? i).map f else g.thread? i := by
  have hmap : (g.onThread tid f).thread? i = (g.thread? i).map fun x => if x.tid == tid then f x else x :=
    thread?_of g _ _ i (fun x => by split <;> simp [h]) rfl
  rw [hmap]
  cases hx : g.thread? i with
  | none => simp
  | some x =>
    have hi : x.tid = i := Group.thread?_tid hx
    simp only [Option.map_some, hi, beq_iff_eq]
    split <;> rfl

/-- The same in the machine, for the threads of the group. -/
theorem Mach.thread?_onThread (m : Mach) (gid tid i : Nat) (f : Thread → Thread) (h : ∀ x, (f x).tid = x.tid) {g : Group}
    (hg : m.group? gid = some g) : (m.onThread gid tid f).thread? gid i = if i = tid then (g.thread? i).map f else g.thread? i := by
  rw [Mach.thread?, Mach.onThread, Mach.group?_onGroup m gid gid (fun g => g.onThread tid f) fun _ => rfl, if_pos rfl, hg]
  exact g.thread?_onThread tid i f h

/-- A lane leaves its gang. -/
def Gang.without (k : Gang) (tid : Nat) : Gang := { k with lanes := k.lanes.filter fun l => l != tid }

theorem Gang.not_mem_without (k : Gang) (tid : Nat) : tid ∉ (k.without tid).lanes := by
  simp [Gang.without]

/-- A trap that is not fatal, in a region with a handler and outside it, takes the lane out of its gang and enters the handler (R242). -/
theorem trapLane_handled {m : Mach} {k : Gang} {tid slot arg : Nat} {cause : Cause} {g : Group} {x : Thread} (hg : m.group? k.gid = some g)
    (hx : g.thread? tid = some x) (hc : cause.fatal = false) (hb : g.env.hbase ≠ 0) (hh : x.hnd = false) :
    m.trapLane k tid slot cause arg
      = (m.onGang k.id fun y => y.without tid).onThread k.gid tid fun t => t.enter g.env cause arg k.pc slot k.cr := by
  simp only [Mach.trapLane, hg, hx, hc, hh, beq_eq_false_iff_ne.2 hb, Bool.or_self, Bool.false_eq_true, if_false]
  rfl

/-- Settles O28: the trapping lane enters the handler, and no other thread of its group is touched. -/
theorem handledTrapsWriteTheTrapRegisters : Obligations.HandledTrapsWriteTheTrapRegisters := by
  intro m k tid slot cause arg g x hg hx _ hc hb hh
  rw [trapLane_handled hg hx hc hb hh]
  have hthread (i : Nat) := (m.onGang k.id fun y => y.without tid).thread?_onThread k.gid tid i
    (fun t => t.enter g.env cause arg k.pc slot k.cr) (fun _ => rfl) hg
  refine ⟨x.enter g.env cause arg k.pc slot k.cr, ?_, rfl, rfl, rfl, rfl, rfl, rfl, rfl, rfl, fun i hi => ?_, fun k' hk => ?_⟩
  · rw [hthread, if_pos rfl, hx]
    rfl
  · rw [hthread, if_neg hi]
  · have hgang : (m.onGang k.id fun y => y.without tid).gang? k.id = some k' := hk
    rw [Mach.gang?_onGang m k.id k.id (fun y => y.without tid) fun _ => rfl, if_pos rfl] at hgang
    obtain ⟨k₀, _, rfl⟩ := Option.map_eq_some_iff.1 hgang
    exact k₀.not_mem_without tid

/-! ### System registers -/

/-- `sysrd` of a register that is not long-latency (R205). -/
def sysrdShort (f : FSysrd) (q : Option Modifier) : Desc :=
  { c := f.c, q := q, ill := decide (0x17 < f.n) || (f.n != 0x14 && f.a != 123), srcs := [{ f := f.a }]
    dst := some { f := f.d, w := if f.n = 0x10 then 2 else 1 }
    act := fun cfg m k g => laneAct lat4 (fun l => (resWrites f.d (if f.n = 0x10 then 2 else 1) (sysValue cfg m g f.n l), 0)) m k g }

/-- What a read of CLK or ETIME delivers (R205, R213). -/
def sysSample (f : FSysrd) (m : Mach) (k : Gang) (g : Group) : AOp :=
  let c := m.core g.column g.core
  if f.n = 8 then .value ((c.clk + k.off) % 2 ^ 64) else if k.off = 0 then .value (c.ps % 2 ^ 64) else .sample (c.clk + k.off)

/-- The access that a lane's read of CLK or ETIME queues (R205). -/
def sysAcc (f : FSysrd) (m : Mach) (k : Gang) (g : Group) (l : LaneIn) : Acc :=
  { gid := g.gid, tid := l.t.tid, op := sysSample f m k g, path := .glob, dsts := Dst.regs { f := f.d, w := 2 }, issued := m.free
    due := lastCycle m k g + lat4 }

/-- `sysrd` of CLK or ETIME (R205). -/
def sysrdLong (f : FSysrd) (q : Option Modifier) : Desc :=
  { c := f.c, q := q, ill := f.a != 123, srcs := [{ f := f.a }], dst := some { f := f.d, w := 2, long := true }
    busy := fun _ m _ g l => longFull m g l
    act := fun _ m k g ls =>
      ((m.mapLanes k.gid (ons ls) fun _ t => t.emptyDsts (Dst.regs { f := f.d, w := 2 })).queueAccs g
        ((ons ls).map fun l => { sysAcc f m k g l with spec := l.t.epi.isSome }), []) }

theorem exec_sysrd_short {f : FSysrd} (q : Option Modifier) (s : State) (h8 : f.n ≠ 8) (h9 : f.n ≠ 9) :
    exec (.sysrd f q) s = word (sysrdShort f q) s := by
  show execSysrd f q s = _
  have hl : sysLong f.n = false := by simp [sysLong, h8, h9]
  simp only [execSysrd, sysrdShort, hl, Bool.false_or, Bool.false_and, beq_iff_eq, Bool.false_eq_true, if_false]

theorem exec_sysrd_long {f : FSysrd} (q : Option Modifier) (s : State) (h : f.n = 8 ∨ f.n = 9) :
    exec (.sysrd f q) s = word (sysrdLong f q) s := by
  show execSysrd f q s = _
  have hl : sysLong f.n = true := by simpa [sysLong] using h
  have hi : (decide (0x17 < f.n) || (f.n != 0x14 && f.a != 123)) = (f.a != 123) := by
    rcases h with h | h <;> simp [h]
  simp only [execSysrd, sysrdLong, hl, hi, Bool.true_or, Bool.true_and, if_true]
  rfl

/-- A read of a register that is not long-latency writes its value as a word of fixed latency (R22, R205). -/
theorem sysrd_collects (f : FSysrd) (q : Option Modifier) (hn : f.n ≤ 0x17) (h8 : f.n ≠ 8) (h9 : f.n ≠ 9) (ha : f.n ≠ 0x14 → f.a = 123) :
    Collects (.sysrd f q) (sysrdShort f q).form fun s _ g _ l =>
      (resWrites f.d (if f.n = 0x10 then 2 else 1) (sysValue s.cfg s.m g f.n l), 0) := by
  have hill : (sysrdShort f q).ill = false := by
    by_cases h : f.n = 0x14
    · simp [sysrdShort, h]
    · simp [sysrdShort, ha h, hn]
  exact collects_of (lat := lat4) (fun s => exec_sysrd_short q s h8 h9) hill rfl rfl rfl (fun _ _ _ _ _ => rfl) rfl (fun _ _ _ _ _ _ _ _ => rfl)
    fun _ _ _ _ => rfl

/-- A read of CLK or ETIME empties its destination and queues the sample, which is due 4 cycles after issue (R205, R213). -/
theorem sysrd_long_acts (f : FSysrd) (q : Option Modifier) (hn : f.n = 8 ∨ f.n = 9) (ha : f.a = 123) :
    Acts (.sysrd f q) (sysrdLong f q).form 0 (fun s _ g l => longFull s.m g l = false) fun s k g ls =>
      (s.m.mapLanes k.gid (ons ls) fun _ t => t.emptyDsts (Dst.regs { f := f.d, w := 2 })).queueAccs g ((ons ls).map (sysAcc f s.m k g)) := by
  refine acts_of (fun s => exec_sysrd_long q s hn) (by simp [sysrdLong, ha]) rfl rfl rfl (fun _ _ _ _ h => h) (fun _ _ _ _ _ _ => rfl)
    (fun _ _ _ _ _ _ _ _ => rfl) (fun s k g vs hr _ => ?_) (fun s k g vs hr _ => gang_kept hr rfl)
  have hplain : ∀ l ∈ ons ((sysrdLong f q).form.activeIn s k g vs), { sysAcc f s.m k g l with spec := l.t.epi.isSome } = sysAcc f s.m k g l :=
    fun l hl => by rw [lanesIn_plain hr l (List.mem_of_mem_filter hl)]; rfl
  show (Mach.queueAccs _ g (List.map _ _), _) = _
  rw [List.map_congr_left hplain]

/-- A write to a writable register takes effect at once in the guarded lanes' threads and in their group (R205). -/
theorem syswr_acts (f : FSyswr) (q : Option Modifier) (hw : sysWritable f.n = true) :
    Acts (.syswr f q) { c := f.c, q := q, srcs := [{ f := f.a, w := if f.n = 0x10 then 2 else 1 }] } 0 always fun s k _ ls =>
      (s.m.mapLanes k.gid (sortLanes (ons ls)) fun l t => t.sysWrite f.n (l.val 0)).onGroup k.gid fun x =>
        x.sysWrite f.n ((sortLanes (ons ls)).map fun l => l.val 0) := by
  have hx s : exec (.syswr f q) s = word _ s := rfl
  have hill : (!sysWritable f.n) = false := by rw [hw]; rfl
  exact acts_of hx hill rfl rfl rfl (fun _ _ _ _ _ => rfl) (fun _ _ _ _ _ _ => rfl) (fun _ _ _ _ _ _ _ _ => rfl)
    (fun _ _ _ _ _ _ => rfl) fun _ _ _ _ hr _ => gang_kept hr rfl

/-! ### Emission -/

/-- A fold that gives up at its first failure, and the fold that also lists who is left behind: where the first ends, the second lists nobody. -/
theorem foldl_of_foldlM {α β γ : Type} {F : α → β → Option α} {G : α × List γ → β → α × List γ}
    (h : ∀ a b a', F a b = some a' → G (a, []) b = (a', [])) (xs : List β) {a a' : α} (hf : xs.foldlM F a = some a') :
    xs.foldl G (a, []) = (a', []) := by
  induction xs generalizing a with
  | nil => cases hf; rfl
  | cons x xs ih =>
    rw [List.foldlM_cons] at hf
    obtain ⟨b, hb, hrest⟩ := Option.bind_eq_some_iff.1 hf
    rw [List.foldl_cons, h a x b hb]
    exact ih hrest

/-- `emit` with room for every record appends them in order and leaves no lane waiting (R204). -/
theorem emit_actsWhen (f : FEmit) (q : Option Modifier) (m' : Mach) : ActsWhen (.emit f q) (formA f.c q f.a f.m 1) 0
    (fun s k g ls => (∀ l ∈ ons ls, emitCheck s.cfg s.m g l f.j = none ∧ emitBusy s.m g l = false)
      ∧ emitAll s g ls f.j = some m' ∧ m'.gang? k.id = s.m.gang? k.id)
    fun _ _ _ _ => m' := by
  have hx s : exec (.emit f q) s = word _ s := rfl
  refine actsWhen_of hx rfl rfl rfl rfl (fun s k g vs _ hok l hl => (hok.1 l hl).2) (fun _ _ _ _ _ _ => rfl)
    (fun s k g vs _ hok l hl => (hok.1 l hl).1) (fun s k g vs _ hok => ?_) fun s k g vs _ hok => hok.2.2
  obtain ⟨-, hall, -⟩ := hok
  refine foldl_of_foldlM (fun m l m₁ hm => ?_) _ hall
  dsimp only at hm ⊢
  rcases he : emitLane s.cfg m g l f.j with ⟨m₂, _ | _ | _⟩ <;> rw [he] at hm
  · cases hm
    rfl
  · cases hm
  · cases hm

/-- `emit.t` where no page of the queue is pending tells each guarded lane whether its record was appended, and leaves no lane waiting (R204). -/
theorem emitT_actsWhen (f : FEmitt) (q : Option Modifier) (m' : Mach) : ActsWhen (.emitT f q) (formA f.c q f.a f.m 1) 0
    (fun s k g ls => (∀ l ∈ ons ls, emitCheck s.cfg s.m g l f.j = none ∧ emitBusy s.m g l = false)
      ∧ emitTold s k g ls f.j f.k = some m' ∧ m'.gang? k.id = s.m.gang? k.id)
    fun _ _ _ _ => m' := by
  have hx s : exec (.emitT f q) s = word _ s := rfl
  refine actsWhen_of hx rfl rfl rfl rfl (fun s k g vs _ hok l hl => (hok.1 l hl).2) (fun _ _ _ _ _ _ => rfl)
    (fun s k g vs _ hok l hl => (hok.1 l hl).1) (fun s k g vs _ hok => ?_) fun s k g vs _ hok => hok.2.2
  obtain ⟨-, hall, -⟩ := hok
  refine foldl_of_foldlM (fun m l m₁ hm => ?_) _ hall
  dsimp only at hm ⊢
  rcases he : emitLane s.cfg m g l f.j with ⟨m₂, _ | _ | _⟩ <;> rw [he] at hm
  · cases hm
    rfl
  · cases hm
    rfl
  · cases hm

/-- Settles O20, one word at a time. -/
theorem systemAndEmitWordsAct : Obligations.SystemAndEmitWordsAct :=
  ⟨sysrd_collects, sysrd_long_acts, syswr_acts, emit_actsWhen, emitT_actsWhen⟩

end Sys2Proof.Machine
end

section
/-! PROOFS. Number formats (02): floating-point reductions over the tree of R60, `pick` (R141), `smovv` (R114) and the fused softmax (R143), which
is checked and performed as one word. -/

namespace Sys2Proof.Machine

/-- A lane whose flags are not enabled does not trap FPX (R27). -/
theorem fpxOf_none {g : Group} {fl : BitVec 5} (h : fl &&& g.fpxen = 0) : fpxOf g fl = none := if_pos h

/-! ### Reductions, `pick` and `smovv` -/

/-- A floating-point reduction delivers the root of the tree of R60, and the flags of all its steps, to every guarded lane (R60, R140). -/
theorem fredWord_collects {i : Instr} {f : FXv} {q : Option Modifier} {op : Word → Word → Word × BitVec 5}
    (hx : ∀ s, exec i s = word (fredWord f q op) s) :
    Collects i (formColl f.c q [{ f := f.a, mm := f.m }] (some { f := f.d })) fun _ _ _ ps _ =>
      let r := treeReduce op ps fun l => BitVec.ofNat 32 (l.val 0)
      (resWrites f.d 1 r.1.toNat, r.2) := by
  refine collects_of (lat := lat10) hx rfl rfl rfl rfl (fun _ _ _ _ _ => rfl) rfl (fun s k g vs hr l _ hfl => ?_) fun s k g vs => ?_
  · have hlanes := gangLanes_ready (d := collWord f.c q [{ f := f.a, mm := f.m }] (some { f := f.d }) false fun _ _ => []) (vs := vs) hr rfl
    simp only [fredWord, hlanes, ons_activeIn]
    exact fpxOf_none hfl
  · rw [← ons_activeIn]
    rfl

/-- `pick` delivers the thread it draws to every guarded lane, and no flag (R141). -/
theorem pick_collects (f : FXs) (q : Option Modifier) :
    Collects (.pick f q) (formColl f.c q [{ f := f.a }] (some { f := f.d })) fun s k g ps _ =>
      (resWrites f.d 1 (pickResult ps (g.uniView (issueCycle s.m k g) f.s)).toNat, 0) := by
  have hx s : exec (.pick f q) s = word _ s := rfl
  refine collects_of (lat := lat10) hx rfl rfl rfl rfl (fun _ _ _ _ _ => rfl) rfl (fun _ _ _ _ _ _ _ _ => rfl) fun s k g vs => ?_
  rw [← ons_activeIn]

/-- `smovv` delivers the uniform register to every guarded lane (R114). -/
theorem smovv_collects (f : FSmovv) (q : Option Modifier) :
    Collects (.smovv f q) { c := f.c, q := q, dst := some { f := f.d } } fun s k g _ _ =>
      (resWrites f.d 1 (g.uniView (issueCycle s.m k g) f.a).toNat, 0) := by
  have hx s : exec (.smovv f q) s = word _ s := rfl
  exact collects_of (lat := lat4) hx rfl rfl rfl rfl (fun _ _ _ _ _ => rfl) rfl (fun _ _ _ _ _ _ _ _ => rfl) fun _ _ _ _ => rfl

/-! ### The fused softmax -/

/-- A word that is not chained is checked the same, however many words it takes: only a chain bit asks where they end (R65). -/
theorem Desc.verdict_more {d : Desc} (hc : d.c = false) (hq : d.q = none) (n : Nat) (cfg : Cfg) (m : Mach) (k : Gang) (g : Group) :
    ({ d with more := n } : Desc).verdict cfg m k g = d.verdict cfg m k g := by
  have hchain (e : Desc) (hc : e.c = false) (hq : e.q = none) : e.illchain k.slot = false := by
    simp [Desc.illchain, Desc.chained, hc, hq]
  simp only [Desc.verdict, hchain d hc hq, hchain { d with more := n } hc hq]
  rfl

/-- A lane in which none of the four words traps does not stop the fused word (R143). -/
theorem fused_exe_none {f : Fused} {cfg : Cfg} {m : Mach} {k : Gang} {g : Group} {l : LaneIn}
    (h : fusedTrap f (gangLanes (fusedBase f) m k g) k g (issueCycle m k g) l = none) : (fusedDesc f).exe cfg m k g l = none := by
  simp [fusedDesc, h]

/-- The checks of the fused word pass where none of its four words traps in any lane and its three further destinations are full (R83, R143). -/
theorem fused_verdict {f : Fused} {s : State} {k : Gang} {g : Group} {vs : Thread → List Nat} (hr : (formFused f).Ready s k g vs)
    (ht : ∀ l ∈ (formFused f).activeIn s k g vs, fusedTrap f ((formFused f).activeIn s k g vs) k g (issueCycle s.m k g) l = none)
    (hfull : ∀ x ∈ activeLanes k g, ∀ d ∈ [f.sub.d, f.ex.d, f.sum.d], d ≤ 111 → x.c.notFull.getLsbD d = false) :
    (fusedDesc f).verdict s.cfg s.m k g = .go ((formFused f).activeIn s k g vs) [] := by
  rw [← Desc.verdict_more (d := fusedDesc f) rfl rfl 0]
  refine Desc.verdict_go (d := { fusedDesc f with more := 0 }) (us := vs) hr rfl rfl (fun _ _ => rfl) (fun x hx _ n hn => ?_) (fun _ _ _ => rfl) rfl
    fun x hx _ => ?_
  · obtain ⟨hmem, hle⟩ := List.mem_filter.1 hn
    exact hfull x hx n hmem (of_decide_eq_true hle)
  · have hlanes := gangLanes_ready (d := fusedBase f) (vs := vs) hr rfl
    exact fused_exe_none (cfg := s.cfg) (hlanes.symm ▸ ht _ (activeIn_mem hx))

/-- Where its checks pass, FUSED_SOFTMAX issues the fused word as any word issues. -/
theorem exec_fusedSoftmax {f : Fused} {s : State} {k : Gang} {g : Group} {ls : List LaneIn} (hc : s.m.curGang = some (k, g))
    (hf : fusedAt k.run k.slot = some f) (hv : (fusedDesc f).verdict s.cfg s.m k g = .go ls []) :
    exec .fusedSoftmax s = word (fusedDesc f) s := by
  show execFusedSoftmax s = _
  simp [execFusedSoftmax, word, onMach, hc, hf, hv]

/-- The fused softmax leaves the values and the flags of its four words in every active lane (R143). -/
theorem fusedSoftmax_done (f : Fused) (s : State) (k : Gang) (g : Group) (vs : Thread → List Nat) (hf : fusedAt k.run k.slot = some f)
    (hr : (formFused f).Ready s k g vs)
    (ht : ∀ l ∈ (formFused f).activeIn s k g vs, fusedTrap f ((formFused f).activeIn s k g vs) k g (issueCycle s.m k g) l = none)
    (hfull : ∀ x ∈ activeLanes k g, ∀ d ∈ [f.sub.d, f.ex.d, f.sum.d], d ≤ 111 → x.c.notFull.getLsbD d = false) :
    ∃ t, exec .fusedSoftmax s = .next t ∧ LaneDone s t k g 4 ((formFused f).after s k g vs fun x =>
      let v := fusedVals f ((formFused f).activeIn s k g vs) ((formFused f).laneIn s k g vs x)
      (resWrites f.x.d 1 v.m.toNat ++ resWrites f.sub.d 1 v.y.bits ++ resWrites f.ex.d 1 v.z.bits ++ resWrites f.sum.d 1 v.s.toNat,
        v.f0 ||| v.y.fl ||| v.z.fl ||| v.f3)) := by
  have hv := fused_verdict hr ht hfull
  rw [exec_fusedSoftmax hr.cur hf hv]
  exact lane_done (d := fusedDesc f) (us := vs) (lat := 38) hr hv rfl

/-- Settles O22, one word at a time; the two reductions differ in the operation at the nodes of the tree only. -/
theorem reductionWordsComplete : Obligations.ReductionWordsComplete :=
  ⟨fun _ _ => fredWord_collects fun _ => rfl, fun _ _ => fredWord_collects fun _ => rfl, pick_collects, smovv_collects, fusedSoftmax_done⟩

end Sys2Proof.Machine
end

section
/-! PROOFS. Integer words (05): the words of Table 05.1, with and without modifiers, and the immediates, constants, selects and moves of R102 to
R109. -/

namespace Sys2Proof.Machine

/-! ### Words of fixed latency -/

/-- A word that has no check, wait or trap of its own and gives a result of latency 4 in each guarded lane (R98). -/
def laneWord (w : Form) (F : LaneIn → List (Tgt × Word × Word) × BitVec 5) : Desc :=
  { c := w.c, q := w.q, acc := w.acc, h := w.h, srcs := w.srcs, dst := w.dst, always := w.always, act := fun _ => laneAct lat4 F }

/-- Such a word completes with its result (R75 to R77, R98). -/
theorem laneWord_computes {i : Instr} {w : Form} {F : LaneIn → List (Tgt × Word × Word) × BitVec 5}
    (hx : ∀ s, exec i s = word (laneWord w F) s) : Computes i w F :=
  collects_of (F := fun _ _ _ _ => F) hx rfl rfl rfl rfl (fun _ _ _ _ _ => rfl) rfl (fun _ _ _ _ _ _ _ _ => rfl) fun _ _ _ _ => rfl

/-! ### The words of Table 05.1 with two sources -/

theorem shiftL_cast (a n : Nat) : (shiftL a n : Int) = if n < 32 then ((a * 2 ^ n : Nat) : Int) else 0 := by
  simp only [shiftL, Nat.cast_ite, Nat.cast_zero]

theorem shiftR_cast (a n : Nat) : (shiftR a n : Int) = if n < 32 then ((a / 2 ^ n : Nat) : Int) else 0 := by
  simp only [shiftR, Nat.cast_ite, Nat.cast_zero]

theorem exec_shl (f : FR) (q : Option Modifier) (s : State) :
    exec (.shl f q) s = word (intR f q accPlain false fun a b => if b < 32 then ((a * 2 ^ b : Nat) : Int) else 0) s := by
  simp only [← shiftL_cast]
  rfl

theorem exec_shr (f : FR) (q : Option Modifier) (s : State) :
    exec (.shr f q) s = word (intR f q accPlain false fun a b => if b < 32 then ((a / 2 ^ b : Nat) : Int) else 0) s := by
  simp only [← shiftR_cast]
  rfl

/-- Each row of Table 05.1 is the R-format integer word with the row's exact result (R101). -/
theorem exec_integerRow : ∀ r ∈ integerRows, ∀ f q s, exec (r.op f q) s = word (intR f q r.acc r.uns r.exact) s := by
  simp only [integerRows, List.forall_mem_cons]
  refine ⟨?_, ?_, ?_, ?_, ?_, ?_, ?_, ?_, ?_, ?_, ?_, ?_, ?_, exec_shl, exec_shr, ?_, ?_, ?_, ?_, ?_, List.forall_mem_nil _⟩
  all_goals exact fun _ _ _ => rfl

theorem integerRow_computes : ∀ r ∈ integerRows, ∀ f q, Computes (r.op f q) (formR f q r.acc 1) fun l =>
    (resWrites f.d 1 (intOut q r.uns 32 (r.exact (intA q (l.val 0)) (intB q (l.val 1)))), 0) := by
  intro r hr f q
  exact laneWord_computes (exec_integerRow r hr f q)

/-! ### What sources of one register read -/

theorem rdRegs_one {cnt f : Nat} {c v : Ctx} {mm : Bool} {vs : List Nat} (h : rdRegs cnt c v mm f 1 = .ok vs) :
    ∃ a : Word, vs = [a.toNat] := by
  simp only [rdRegs] at h
  split_ifs at h
  cases h
  exact ⟨_, rfl⟩

/-- A source of one register reads as one word (R75). -/
theorem rdOpd_word {cnt slot first now : Nat} {c : Ctx} {x : Src} {vs : List Nat} (hw : x.w = 1)
    (h : rdOpd cnt slot first now c x = .ok vs) : ∃ a : Word, vs = [a.toNat] := by
  simp only [rdOpd, hw, List.range_one, List.map_cons, List.map_nil] at h
  split_ifs at h
  · split at h
    · next us hu =>
      obtain ⟨a, rfl⟩ := rdRegs_one hu
      cases h
      exact ⟨a, rfl⟩
    · next hu => exact absurd h (hu _)
  · cases h
    exact ⟨_, rfl⟩
  · split at h
    · split_ifs at h
      cases h
      exact ⟨_, rfl⟩
    · cases h
  · cases h
    exact ⟨0, rfl⟩

/-- Sources read in order, and all of them read where a word may issue (R75). -/
theorem rdAll_cons {cnt slot first now : Nat} {c : Ctx} {x : Src} {xs : List Src} {vs : List Nat}
    (h : rdAll cnt slot first now c (x :: xs) = .ok vs) :
    ∃ us ws, rdOpd cnt slot first now c x = .ok us ∧ rdAll cnt slot first now c xs = .ok ws ∧ vs = us ++ ws := by
  simp only [rdAll] at h
  split at h
  · next us hu =>
    split at h
    · next ws hw =>
      cases h
      exact ⟨us, ws, hu, hw, rfl⟩
    · next hn => exact absurd h (hn _)
  · next hn => exact absurd h (hn _)

theorem rdAll_one {cnt slot first now : Nat} {c : Ctx} {x : Src} {vs : List Nat} (hw : x.w = 1)
    (h : rdAll cnt slot first now c [x] = .ok vs) : ∃ a : Word, vs = [a.toNat] := by
  obtain ⟨us, ws, hread, hnil, rfl⟩ := rdAll_cons h
  obtain ⟨a, rfl⟩ := rdOpd_word hw hread
  cases hnil
  exact ⟨a, rfl⟩

/-- The sources of a two-source word are two words in every active lane (R75). -/
theorem formR_reads {f : FR} {q : Option Modifier} {acc : Accepts} {s : State} {k : Gang} {g : Group} {vs : Thread → List Nat}
    (hr : (formR f q acc 1).Ready s k g vs) {x : Thread} (hx : x ∈ activeLanes k g) : ∃ a b : Word, vs x = [a.toNat, b.toNat] := by
  obtain ⟨us, ws, ha, hrest, hvs⟩ := rdAll_cons (hr.reads x hx)
  obtain ⟨a, rfl⟩ := rdOpd_word rfl ha
  obtain ⟨b, rfl⟩ := rdAll_one rfl hrest
  exact ⟨a, b, hvs⟩

/-! ### Contexts that a word leaves -/

/-- Only the active lanes' contexts count in what a word leaves. -/
theorem LaneDone.congr {s t : State} {k : Gang} {g : Group} {n : Nat} {after after' : Thread → Ctx} (h : LaneDone s t k g n after)
    (e : ∀ x ∈ activeLanes k g, after x = after' x) : LaneDone s t k g n after' where
  quiet := h.quiet
  gang := h.gang
  group := h.group
  lanes i x hx := by
    obtain ⟨x', hx', hrest, hin, hout⟩ := h.lanes i x hx
    exact ⟨x', hx', hrest, fun hm => (hin hm).trans (e x hm), hout⟩

theorem Form.after_congr (w : Form) (s : State) (k : Gang) (g : Group) (vs : Thread → List Nat)
    {res res' : Thread → List (Tgt × Word × Word) × BitVec 5} {x : Thread} (h : res x = res' x) :
    w.after s k g vs res x = w.after s k g vs res' x := by
  simp only [Form.after, h]

/-! ### Two-source integer words as operations of 32-bit vectors -/

/-- The signed value of a word (R101). -/
theorem sx_toNat (a : Word) : sx a.toNat = a.toInt := by
  have ha := a.isLt
  simp only [sx, sext, BitVec.toInt_eq_toNat_cond, Nat.mod_eq_of_lt ha]
  split <;> split <;> omega

/-- Without a modifier a result is the low bits of the exact result (R82). -/
theorem intOut_none (uns : Bool) (e : Int) : intOut none uns 32 e = (BitVec.ofInt 32 e).toNat := by
  simp [intOut, scaleOf, satOf, clpOf, bitsI]

theorem ofInt_natCast_eq {a : Word} {n : Nat} (h : a.toNat = n % 2 ^ 32) : BitVec.ofInt 32 (n : Int) = a := by
  rw [BitVec.ofInt_natCast]
  exact BitVec.eq_of_toNat_eq (by rw [BitVec.toNat_ofNat, h])

theorem ofInt_toNat (a : Word) : BitVec.ofInt 32 (a.toNat : Int) = a := ofInt_natCast_eq (Nat.mod_eq_of_lt a.isLt).symm

theorem ofInt_add_sx (a b : Word) : BitVec.ofInt 32 (sx a.toNat + sx b.toNat) = a + b := by
  rw [sx_toNat, sx_toNat, BitVec.ofInt_add, BitVec.ofInt_toInt, BitVec.ofInt_toInt]

theorem ofInt_sub_sx (a b : Word) : BitVec.ofInt 32 (sx a.toNat - sx b.toNat) = a - b := by
  rw [sx_toNat, sx_toNat, Int.sub_eq_add_neg, BitVec.ofInt_add, BitVec.ofInt_neg, BitVec.ofInt_toInt, BitVec.ofInt_toInt, BitVec.sub_eq_add_neg]

theorem ofInt_mul_sx (a b : Word) : BitVec.ofInt 32 (sx a.toNat * sx b.toNat) = a * b := by
  rw [sx_toNat, sx_toNat, BitVec.ofInt_mul, BitVec.ofInt_toInt, BitVec.ofInt_toInt]

theorem ofInt_mulhU (a b : Word) :
    BitVec.ofInt 32 ((a.toNat * b.toNat / 2 ^ 32 : Nat) : Int) = ((a.setWidth 64 * b.setWidth 64) >>> 32).setWidth 32 := by
  have ha := a.isLt
  have hb := b.isLt
  have hlt : a.toNat * b.toNat < 2 ^ 32 * 2 ^ 32 := Nat.mul_lt_mul'' ha hb
  refine ofInt_natCast_eq ?_
  rw [BitVec.toNat_setWidth, BitVec.toNat_ushiftRight, BitVec.toNat_mul, Nat.shiftRight_eq_div_pow, BitVec.toNat_setWidth, BitVec.toNat_setWidth,
    Nat.mod_eq_of_lt (by omega : a.toNat < 2 ^ 64), Nat.mod_eq_of_lt (by omega : b.toNat < 2 ^ 64), Nat.mod_eq_of_lt (by omega : _ < 2 ^ 64)]

theorem ofInt_mulhS (a b : Word) :
    BitVec.ofInt 32 ((sx a.toNat * sx b.toNat).fdiv (2 ^ 32)) = ((a.signExtend 64 * b.signExtend 64) >>> 32).setWidth 32 := by
  have hmul : a.signExtend 64 * b.signExtend 64 = BitVec.ofInt 64 (a.toInt * b.toInt) := (BitVec.ofInt_mul _ _).symm
  rw [sx_toNat, sx_toNat, hmul, Int.fdiv_eq_ediv_of_nonneg _ (by norm_num)]
  refine BitVec.eq_of_toNat_eq ?_
  rw [BitVec.toNat_setWidth, BitVec.toNat_ushiftRight, BitVec.toNat_ofInt, BitVec.toNat_ofInt, Nat.shiftRight_eq_div_pow]
  generalize a.toInt * b.toInt = z
  omega

theorem ofInt_min_sx (a b : Word) : BitVec.ofInt 32 (min (sx a.toNat) (sx b.toNat)) = if a.slt b then a else b := by
  rw [sx_toNat, sx_toNat, min_def_lt, apply_ite (BitVec.ofInt 32), BitVec.ofInt_toInt, BitVec.ofInt_toInt]
  exact if_congr BitVec.slt_iff_toInt_lt.symm rfl rfl

theorem ofInt_max_sx (a b : Word) : BitVec.ofInt 32 (max (sx a.toNat) (sx b.toNat)) = if a.slt b then b else a := by
  rw [sx_toNat, sx_toNat, max_def_lt, apply_ite (BitVec.ofInt 32), BitVec.ofInt_toInt, BitVec.ofInt_toInt]
  exact if_congr BitVec.slt_iff_toInt_lt.symm rfl rfl

theorem ofInt_min (a b : Word) : BitVec.ofInt 32 ((min a.toNat b.toNat : Nat) : Int) = if a.ult b then a else b := by
  rw [min_def_lt, Nat.cast_ite, apply_ite (BitVec.ofInt 32), ofInt_toNat, ofInt_toNat]
  exact if_congr BitVec.ult_iff_lt.symm rfl rfl

theorem ofInt_max (a b : Word) : BitVec.ofInt 32 ((max a.toNat b.toNat : Nat) : Int) = if a.ult b then b else a := by
  rw [max_def_lt, Nat.cast_ite, apply_ite (BitVec.ofInt 32), ofInt_toNat, ofInt_toNat]
  exact if_congr BitVec.ult_iff_lt.symm rfl rfl

theorem ofInt_andn (a b : Word) : BitVec.ofInt 32 ((a.toNat &&& (2 ^ 32 - 1 - b.toNat % 2 ^ 32) : Nat) : Int) = a &&& ~~~b := by
  rw [Nat.mod_eq_of_lt b.isLt, ← BitVec.toNat_not, ← BitVec.toNat_and, ofInt_toNat]

theorem ofInt_shl (a b : Word) : BitVec.ofInt 32 (if b.toNat < 32 then ((a.toNat * 2 ^ b.toNat : Nat) : Int) else 0) = a <<< b := by
  rw [BitVec.shiftLeft_eq']
  split
  · exact ofInt_natCast_eq (by rw [BitVec.toNat_shiftLeft, Nat.shiftLeft_eq])
  · next h => exact (BitVec.shiftLeft_eq_zero (not_lt.1 h)).symm

theorem ofInt_shr (a b : Word) : BitVec.ofInt 32 (if b.toNat < 32 then ((a.toNat / 2 ^ b.toNat : Nat) : Int) else 0) = a >>> b := by
  rw [BitVec.ushiftRight_eq']
  split
  · rw [← Nat.shiftRight_eq_div_pow, ← BitVec.toNat_ushiftRight, ofInt_toNat]
  · next h => exact (BitVec.ushiftRight_eq_zero (not_lt.1 h)).symm

/-- A shift by 31 or more leaves only the sign (Table 05.1). -/
theorem ediv_two_pow_min (z : Int) (n : Nat) (hlo : -2 ^ 31 ≤ z) (hhi : z < 2 ^ 31) : z / (2 ^ min n 31 : Nat) = z >>> n := by
  rw [Int.shiftRight_eq_div_pow]
  rcases Nat.le_total n 31 with hn | hn
  · rw [min_eq_left hn]
  · have hp : (2 ^ 31 : Int) ≤ (2 ^ n : Nat) := by exact_mod_cast Nat.pow_le_pow_right (by norm_num) hn
    rw [min_eq_right hn]
    rcases lt_or_ge z 0 with hz | hz
    · rw [Int.ediv_eq_neg_one_of_neg_of_le hz (by omega), Int.ediv_eq_neg_one_of_neg_of_le hz (by omega)]
    · rw [Int.ediv_eq_zero_of_lt hz (by omega), Int.ediv_eq_zero_of_lt hz (by omega)]

theorem ofInt_sar (a b : Word) : BitVec.ofInt 32 ((sx a.toNat).fdiv (2 ^ min b.toNat 31 : Nat)) = a.sshiftRight b.toNat := by
  rw [sx_toNat, Int.fdiv_eq_ediv_of_nonneg _ (by positivity), ediv_two_pow_min _ _ (BitVec.le_toInt a) BitVec.toInt_lt, BitVec.sshiftRight]

/-- The two parts of a rotated word do not overlap. -/
theorem rotate_eq_or {a r : Nat} (ha : a < 2 ^ 32) (hr : r < 32) :
    (a * 2 ^ r + a / 2 ^ (32 - r)) % 2 ^ 32 = a <<< r % 2 ^ 32 ||| a >>> (32 - r) := by
  have hpow : 2 ^ (32 - r) * 2 ^ r = 2 ^ 32 := by rw [← pow_add, Nat.sub_add_cancel hr.le]
  have hlow : a / 2 ^ (32 - r) < 2 ^ r := Nat.div_lt_of_lt_mul (by rwa [hpow])
  have hhigh : a * 2 ^ r % 2 ^ 32 = a % 2 ^ (32 - r) * 2 ^ r := by rw [← hpow, Nat.mul_mod_mul_right]
  have hsum : a % 2 ^ (32 - r) * 2 ^ r + a / 2 ^ (32 - r) < 2 ^ 32 := by
    have := Nat.mul_le_mul_right (2 ^ r) (Nat.succ_le_of_lt (Nat.mod_lt a (Nat.two_pow_pos (32 - r))))
    rw [hpow, Nat.succ_mul] at this
    omega
  rw [Nat.shiftLeft_eq, Nat.shiftRight_eq_div_pow, ← Nat.mod_add_mod, hhigh, Nat.mod_eq_of_lt hsum, ← Nat.shiftLeft_eq,
    Nat.shiftLeft_add_eq_or_of_lt hlow]

theorem ofInt_rot (a b : Word) : BitVec.ofInt 32 (((a.toNat * 2 ^ (b.toNat % 32) + a.toNat / 2 ^ (32 - b.toNat % 32)) % 2 ^ 32 : Nat) : Int)
    = a.rotateLeft (b.toNat % 32) := by
  have hr : b.toNat % 32 < 32 := Nat.mod_lt _ (by decide)
  exact ofInt_natCast_eq (by rw [Nat.mod_mod, rotate_eq_or a.isLt hr, BitVec.toNat_rotateLeft, Nat.mod_mod])

theorem ofInt_lea (a b : Word) : BitVec.ofInt 32 ((a.toNat + 4 * b.toNat : Nat) : Int) = a + 4#32 * b := by
  refine ofInt_natCast_eq ?_
  rw [BitVec.toNat_add, BitVec.toNat_mul, BitVec.toNat_ofNat, Nat.add_mod_mod]

/-- The low 32 bits of a row's exact result are the operation of 32-bit vectors. -/
theorem bitVectorRow_exact : ∀ r ∈ bitVectorRows, ∃ uns e, (∀ f q s, exec (r.1 f q) s = word (intR f q r.2.1 uns e) s)
    ∧ ∀ a b : Word, BitVec.ofInt 32 (e a.toNat b.toNat) = r.2.2 a b := by
  simp only [bitVectorRows, List.forall_mem_cons]
  exact ⟨⟨_, _, fun _ _ _ => rfl, ofInt_add_sx⟩, ⟨_, _, fun _ _ _ => rfl, ofInt_sub_sx⟩, ⟨_, _, fun _ _ _ => rfl, ofInt_mul_sx⟩,
    ⟨_, _, fun _ _ _ => rfl, ofInt_mulhU⟩, ⟨_, _, fun _ _ _ => rfl, ofInt_mulhS⟩, ⟨_, _, fun _ _ _ => rfl, ofInt_min_sx⟩,
    ⟨_, _, fun _ _ _ => rfl, ofInt_max_sx⟩, ⟨_, _, fun _ _ _ => rfl, ofInt_min⟩, ⟨_, _, fun _ _ _ => rfl, ofInt_max⟩,
    ⟨_, _, fun _ _ _ => rfl, fun a b => ofInt_toNat (a &&& b)⟩, ⟨_, _, fun _ _ _ => rfl, fun a b => ofInt_toNat (a ||| b)⟩,
    ⟨_, _, fun _ _ _ => rfl, fun a b => ofInt_toNat (a ^^^ b)⟩, ⟨_, _, fun _ _ _ => rfl, ofInt_andn⟩, ⟨_, _, exec_shl, ofInt_shl⟩,
    ⟨_, _, exec_shr, ofInt_shr⟩, ⟨_, _, fun _ _ _ => rfl, ofInt_sar⟩, ⟨_, _, fun _ _ _ => rfl, ofInt_rot⟩,
    ⟨_, _, fun _ _ _ => rfl, ofInt_lea⟩, List.forall_mem_nil _⟩

/-- Without a modifier a word of Table 05.1 leaves what the operation of 32-bit vectors gives. -/
theorem bitVectorRow_done : ∀ r ∈ bitVectorRows, ∀ f s k g vs, (formR f none r.2.1 1).Ready s k g vs →
    ∃ t, exec (r.1 f none) s = .next t ∧ LaneDone s t k g 1 ((formR f none r.2.1 1).after s k g vs fun x =>
      (resWrites f.d 1 (r.2.2 (BitVec.ofNat 32 ((vs x).getD 0 0)) (BitVec.ofNat 32 ((vs x).getD 1 0))).toNat, 0)) := by
  intro r hr f s k g vs hready
  obtain ⟨uns, e, hexec, hexact⟩ := bitVectorRow_exact r hr
  obtain ⟨t, ht, hdone⟩ := laneWord_computes (w := formR f none r.2.1 1) (hexec f none) s k g vs hready fun _ _ => BitVec.zero_and
  refine ⟨t, ht, hdone.congr fun x hx => Form.after_congr _ _ _ _ _ ?_⟩
  obtain ⟨a, b, hvs⟩ := formR_reads hready hx
  simp [Form.laneIn, LaneIn.val, intA, intB, hvs, intOut_none, hexact]

/-- Settles O1: a row of Table 05.1 is a word of fixed latency with the row's exact result, and without a modifier that result is the operation's on words. -/
theorem integerWordsComplete : Obligations.IntegerWordsComplete := ⟨integerRow_computes, bitVectorRow_done⟩

/-! ### The other integer words -/

theorem unaryRow_computes : ∀ r ∈ integerUnaryRows, ∀ f q, Computes (r.1 f q) (formUn f q) fun l =>
    (resWrites f.d 1 (intOut q false 32 (r.2 (l.val 0))), 0) := by
  simp only [integerUnaryRows, List.forall_mem_cons]
  refine ⟨?_, ?_, ?_, ?_, ?_, List.forall_mem_nil _⟩
  all_goals exact fun _ _ => laneWord_computes fun _ => rfl

theorem immediateRow_computes : ∀ r ∈ immediateRows, ∀ f q,
    Computes (r.op f q) { c := f.c, q := q, acc := r.acc, srcs := [{ f := f.a, mm := f.m }], dst := some { f := f.d } } fun l =>
      (resWrites f.d 1 (intOut q false 32 (r.exact (intA q (l.val 0)) (sext f.i 9))), 0) := by
  simp only [immediateRows, List.forall_mem_cons]
  refine ⟨?_, ?_, ?_, ?_, ?_, List.forall_mem_nil _⟩
  all_goals exact fun _ _ => laneWord_computes fun _ => rfl

theorem exec_shli (f : FSh) (q : Option Modifier) (s : State) :
    exec (.shli f q) s = word (intSh f q fun a n => if n < 32 then ((a * 2 ^ n : Nat) : Int) else 0) s := by
  simp only [← shiftL_cast]
  rfl

theorem exec_shri (f : FSh) (q : Option Modifier) (s : State) :
    exec (.shri f q) s = word (intSh f q fun a n => if n < 32 then ((a / 2 ^ n : Nat) : Int) else 0) s := by
  simp only [← shiftR_cast]
  rfl

theorem shiftRow_computes : ∀ r ∈ shiftRows, ∀ f q,
    Computes (r.1 f q) { c := f.c, q := q, srcs := [{ f := f.a, mm := f.m }], dst := some { f := f.d } } fun l =>
      (resWrites f.d 1 (intOut q false 32 (r.2 (l.val 0) f.i)), 0) := by
  simp only [shiftRows, List.forall_mem_cons]
  exact ⟨fun f q => laneWord_computes (exec_shli f q), fun f q => laneWord_computes (exec_shri f q), fun _ _ => laneWord_computes fun _ => rfl,
    List.forall_mem_nil _⟩

/-! ### Indexed moves -/

/-- An index that lies in the window and below the acquired count passes the checks of R16. -/
theorem indexCheck_none {g : Group} {l : LaneIn} {n : Int} (hlo : (l.v.winBase.toNat : Int) ≤ n) (hhi : n ≤ l.v.winLimit.toNat)
    (hc : n < g.acquired) : indexCheck g l n = none := by
  rw [indexCheck, if_neg (by omega), if_neg (by omega)]

/-- A word that holds no source leaves the latch as it was (R78). -/
theorem Form.latchAfter_none {w : Form} (hh : w.h = false) (hb : hbOf w.q = false) (k : Gang) (vs : List Nat) (l : Latch) :
    w.latchAfter k vs l = l := by
  simp [Form.latchAfter, hh, hb]

/-- A word that does not accept HB has no modifier that sets it (R81). -/
theorem Form.hbOf_of_legal {w : Form} (hl : w.legal = true) (ha : w.acc.hb = false) : hbOf w.q = false := by
  simp only [Form.legal, Bool.and_eq_true, Bool.not_eq_true'] at hl
  obtain ⟨⟨⟨⟨⟨hmod, -⟩, -⟩, -⟩, -⟩, -⟩ := hl
  cases hq : w.q with
  | none => rfl
  | some q =>
    simp only [hq, modBad, ha, Bool.not_false, Bool.and_true, Bool.or_eq_false_iff] at hmod
    obtain ⟨⟨⟨-, hhb⟩, -⟩, -⟩ := hmod
    exact hhb

/-- A word of fixed latency with a check of its own leaves its results where the check passes; `us` are the operand values that the check hands on. -/
theorem checked_done {i : Instr} {d : Desc} {F : LaneIn → List (Tgt × Word × Word) × BitVec 5} {s : State} {k : Gang} {g : Group}
    {vs us : Thread → List Nat} (hx : exec i s = word d s)
    (hd : d = { laneWord d.form F with chk := d.chk, dyn := d.dyn }) (hh : d.h = false) (hacc : d.acc.hb = false)
    (hr : d.form.Ready s k g vs)
    (hc : ∀ x ∈ activeLanes k g, d.chk s.m k g (d.laneIn (issueCycle s.m k g) x (vs x)) = .ok (us x))
    (hy : ∀ x ∈ activeLanes k g, ∀ n ∈ d.dyn g (d.laneIn (issueCycle s.m k g) x (us x)), x.c.notFull.getLsbD n = false) :
    ∃ t, exec i s = .next t ∧ LaneDone s t k g d.form.words (d.form.after s k g vs fun x => F (d.laneIn (issueCycle s.m k g) x (us x))) := by
  have hm : d.more = 0 := by rw [hd]; rfl
  have hv := Desc.verdict_go (us := us) hr (by rw [hd]; rfl) hm hc (fun x hx _ => hy x hx) (fun _ _ _ => by rw [hd]; rfl) (by rw [hd]; rfl)
    fun _ _ _ => by rw [hd]; rfl
  have hact : d.act = fun _ => laneAct lat4 F := by rw [hd]; rfl
  obtain ⟨t, ht, hdone⟩ := lane_done (F := F) (lat := lat4) hr hv (by rw [hact])
  rw [hx, d.words_form hm]
  refine ⟨t, ht, hdone.congr fun x _ => ?_⟩
  have hb : hbOf d.form.q = false := Form.hbOf_of_legal hr.legal hacc
  simp only [Form.after, Form.latchAfter_none (w := d.form) hh hb]

/-- `movx.r` (R109). -/
def movxRWord (f : FMovr) (q : Option Modifier) : Desc :=
  { c := f.c, q := q, dst := some { f := f.d }
    chk := fun _ _ g l => match indexCheck g l (indexOf f.x f.i l) with
      | some r => r
      | none => rdRegs g.acquired l.t.c l.v f.m (indexOf f.x f.i l).toNat 1
    act := fun _ => laneAct lat4 fun l => (resWrites f.d 1 (l.val 0), 0) }

/-- `movx.w` (R108). -/
def movxWWord (f : FMovw) (q : Option Modifier) : Desc :=
  { c := f.c, q := q, srcs := [{ f := f.s, mm := f.m }]
    chk := fun _ _ g l => match indexCheck g l (indexOf f.x f.i l) with
      | some r => r
      | none => .ok (l.vs ++ [(indexOf f.x f.i l).toNat])
    dyn := fun _ l => [l.val 1]
    act := fun _ => laneAct lat4 fun l => ([(Tgt.lane (l.val 1), fullMask, BitVec.ofNat 32 (l.val 0))], 0) }

/-- Inside the window `movx.r` reads the register that the index names (R16). -/
theorem movxRWord_chk (f : FMovr) (q : Option Modifier) (m : Mach) (k : Gang) {g : Group} {l : LaneIn} {n : Int} (hn : indexOf f.x f.i l = n)
    (hlo : (l.v.winBase.toNat : Int) ≤ n) (hhi : n ≤ l.v.winLimit.toNat) (hc : n < g.acquired) :
    (movxRWord f q).chk m k g l = rdRegs g.acquired l.t.c l.v f.m n.toNat 1 := by
  simp only [movxRWord, hn, indexCheck_none hlo hhi hc]

/-- Inside the window `movx.w` goes on with the register that the index names (R16). -/
theorem movxWWord_chk (f : FMovw) (q : Option Modifier) (m : Mach) (k : Gang) {g : Group} {l : LaneIn} {n : Int} (hn : indexOf f.x f.i l = n)
    (hlo : (l.v.winBase.toNat : Int) ≤ n) (hhi : n ≤ l.v.winLimit.toNat) (hc : n < g.acquired) :
    (movxWWord f q).chk m k g l = .ok (l.vs ++ [n.toNat]) := by
  simp only [movxWWord, hn, indexCheck_none hlo hhi hc]

/-- `movx.r` writes the register that the index names (R16, R109). -/
theorem movxR_done (f : FMovr) (q : Option Modifier) (s : State) (k : Gang) (g : Group) (vs : Thread → List Nat) (u : Thread → Nat)
    (hr : ({ c := f.c, q := q, dst := some { f := f.d } } : Form).Ready s k g vs)
    (hn : ∀ x ∈ activeLanes k g, let v := x.c.view (issueCycle s.m k g)
      let n := sx (SMap.get 0 v.x f.x).toNat + sext f.i 10
      (v.winBase.toNat : Int) ≤ n ∧ n ≤ v.winLimit.toNat ∧ n < g.acquired ∧ rdRegs g.acquired x.c v f.m n.toNat 1 = .ok [u x]) :
    ∃ t, exec (.movxR f q) s = .next t ∧ LaneDone s t k g (({ c := f.c, q := q } : Form).words)
      (({ c := f.c, q := q, dst := some { f := f.d } } : Form).after s k g vs fun x => (resWrites f.d 1 (u x), 0)) := by
  have hchk (x : Thread) (hx : x ∈ activeLanes k g) :
      (movxRWord f q).chk s.m k g ((movxRWord f q).laneIn (issueCycle s.m k g) x (vs x)) = .ok [u x] := by
    obtain ⟨hlo, hhi, hc, hread⟩ := hn x hx
    rw [movxRWord_chk f q s.m k (l := (movxRWord f q).laneIn (issueCycle s.m k g) x (vs x)) rfl hlo hhi hc]
    exact hread
  exact checked_done (i := .movxR f q) (d := movxRWord f q) (us := fun x => [u x]) (F := fun l => (resWrites f.d 1 (l.val 0), 0)) rfl rfl rfl rfl hr hchk
    fun _ _ _ hm => absurd hm List.not_mem_nil

/-- The register that `movx.w` names in a lane (R16). -/
def movxWIndex (f : FMovw) (s : State) (k : Gang) (g : Group) (x : Thread) : Nat :=
  (sx (SMap.get 0 (x.c.view (issueCycle s.m k g)).x f.x).toNat + sext f.i 10).toNat

/-- `movx.w` writes the register that the index names and no other (R16, R108). -/
theorem movxW_done (f : FMovw) (q : Option Modifier) (s : State) (k : Gang) (g : Group) (vs : Thread → List Nat)
    (hr : ({ c := f.c, q := q, srcs := [{ f := f.s, mm := f.m }] } : Form).Ready s k g vs)
    (hn : ∀ x ∈ activeLanes k g, let v := x.c.view (issueCycle s.m k g)
      let n := sx (SMap.get 0 v.x f.x).toNat + sext f.i 10
      (v.winBase.toNat : Int) ≤ n ∧ n ≤ v.winLimit.toNat ∧ n < g.acquired ∧ x.c.notFull.getLsbD n.toNat = false) :
    ∃ t, exec (.movxW f q) s = .next t ∧ LaneDone s t k g (({ c := f.c, q := q } : Form).words)
      (({ c := f.c, q := q, srcs := [{ f := f.s, mm := f.m }] } : Form).after s k g vs fun x =>
        let n := sx (SMap.get 0 (x.c.view (issueCycle s.m k g)).x f.x).toNat + sext f.i 10
        ([(Tgt.lane n.toNat, fullMask, BitVec.ofNat 32 ((vs x).getD 0 0))], 0)) := by
  have hone (x : Thread) (hx : x ∈ activeLanes k g) : ∃ a : Word, vs x = [a.toNat] := rdAll_one rfl (hr.reads x hx)
  obtain ⟨t, ht, hdone⟩ := checked_done (i := .movxW f q) (d := movxWWord f q) (us := fun x => vs x ++ [movxWIndex f s k g x])
    (F := fun l => ([(Tgt.lane (l.val 1), fullMask, BitVec.ofNat 32 (l.val 0))], 0)) rfl rfl rfl rfl hr
    (fun x hx => by
      obtain ⟨hlo, hhi, hc, -⟩ := hn x hx
      exact movxWWord_chk f q s.m k rfl hlo hhi hc)
    fun x hx m hm => by
      obtain ⟨a, ha⟩ := hone x hx
      obtain ⟨-, -, -, hfull⟩ := hn x hx
      simp only [movxWWord, Desc.laneIn, LaneIn.val, ha, List.mem_singleton] at hm
      subst hm
      exact hfull
  refine ⟨t, ht, hdone.congr fun x hx => Form.after_congr _ _ _ _ _ ?_⟩
  obtain ⟨a, ha⟩ := hone x hx
  simp only [Desc.laneIn, LaneIn.val, ha]
  rfl

/-! ### Constants -/

/-- A constant under the whole mask is a plain result (R106). -/
theorem resWrites_fullMask (f w v : Nat) : (resWrites f w v).map (fun x => (x.1, fullMask, x.2.2)) = resWrites f w v := by
  simp only [resWrites]
  split <;> simp

theorem exec_li (f : FL) (q : Option Modifier) (s : State) : exec (.li f q) s = word (laneWord { c := f.c, q := q, dst := some { f := f.d } } fun _ =>
    (resWrites f.d 1 (bitsI (sext f.i 16) 32), 0)) s := by
  rw [← resWrites_fullMask]
  rfl

theorem exec_liu (f : FL) (q : Option Modifier) (s : State) : exec (.liu f q) s = word (laneWord { c := f.c, q := q, dst := some { f := f.d } } fun _ =>
    (resWrites f.d 1 f.i, 0)) s := by
  rw [← resWrites_fullMask]
  rfl

/-- Settles O2, one word at a time; the indexed moves alone have a check of their own. -/
theorem otherIntegerWordsComplete : Obligations.OtherIntegerWordsComplete := by
  refine ⟨unaryRow_computes, ?_, ?_, ?_, ?_, immediateRow_computes, shiftRow_computes, fun f q => laneWord_computes (exec_li f q),
    fun f q => laneWord_computes (exec_liu f q), ?_, ?_, ?_, ?_, movxR_done, movxW_done⟩
  all_goals exact fun _ _ => laneWord_computes fun _ => rfl

end Sys2Proof.Machine
end

section
/-! PROOFS. Predicate and uniform words (05): compares, predicate logic and packing (R110 to R112), and the words that write a uniform register once for
their gang (R113 to R115). -/

namespace Sys2Proof.Machine

/-! ### Predicate words -/

theorem predicateRow_computes : ∀ r ∈ predicateRows, ∀ f q, Computes (r.1 f q) { c := f.c, q := q } fun l =>
    (predOut f.k (r.2 (l.v.pred f.j != f.x) (l.v.pred f.l != f.y)), 0) := by
  simp only [predicateRows, List.forall_mem_cons]
  refine ⟨?_, ?_, ?_, ?_, List.forall_mem_nil _⟩
  all_goals exact fun _ _ => laneWord_computes fun _ => rfl

/-- A compare with a code of Table 04.3 is legal (R110). -/
theorem icmpS_computes (f : FP) (q : Option Modifier) (hp : f.p < 6) :
    Computes (.icmpS f q) (formP f q { negA := true, negB := true, hb := true }) fun l =>
      (predOut f.k (intCompare f.p (sx (intA q (l.val 0))) (sx (intB q (l.val 1)))), 0) := by
  refine laneWord_computes fun s => ?_
  show execIcmpS f q s = _
  simp only [execIcmpS, icmpWord, Nat.not_le.2 hp, decide_false]
  rfl

theorem icmpU_computes (f : FP) (q : Option Modifier) (hp : f.p < 6) :
    Computes (.icmpU f q) (formP f q accPlain) fun l => (predOut f.k (intCompare f.p (intA q (l.val 0)) (intB q (l.val 1))), 0) := by
  refine laneWord_computes fun s => ?_
  show execIcmpU f q s = _
  simp only [execIcmpU, icmpWord, Nat.not_le.2 hp, decide_false]
  rfl

/-- A run of predicates up to k63 is legal; of more than 32 the register keeps 32 (R112, log entry 34). -/
theorem kpack_computes (f : FKpack) (q : Option Modifier) (h : f.k + f.n ≤ 63) :
    Computes (.kpack f q) { c := f.c, q := q, dst := some { f := f.d } } fun l =>
      (resWrites f.d 1 ((List.range (f.n + 1)).map fun i => if l.v.pred (f.k + i) then 2 ^ i else 0).sum, 0) := by
  refine laneWord_computes fun s => ?_
  show execKpack f q s = _
  simp only [execKpack, Nat.not_lt.2 h, decide_false]
  rfl

/-- The register has no bit for predicates from the 33rd on, which are cleared (R112, log entry 34). -/
theorem kunpack_computes (f : FKunp) (q : Option Modifier) (h : f.k + f.n ≤ 63) :
    Computes (.kunpack f q) { c := f.c, q := q, srcs := [{ f := f.a, mm := f.m }] } fun l =>
      ((List.range (f.n + 1)).map fun i => (Tgt.pred (f.k + i), 1#32, if bitOf (l.val 0) i then 1#32 else 0#32), 0) := by
  refine laneWord_computes fun s => ?_
  show execKunpack f q s = _
  simp only [execKunpack, Nat.not_lt.2 h, decide_false]
  rfl

theorem kset_computes (f : FKset) (q : Option Modifier) : Computes (.kset f q) { c := f.c, q := q } fun _ => (predOut f.k f.v, 0) :=
  laneWord_computes fun _ => rfl

/-- `scmp` compares two uniform registers for the whole gang (R114). -/
theorem scmp_collects (f : FScmp) (q : Option Modifier) (hp : f.p < 6) : Collects (.scmp f q) { c := f.c, q := q } fun s k g _ _ =>
    let a := (g.uniView (issueCycle s.m k g) f.a).toNat
    let b := (g.uniView (issueCycle s.m k g) f.b).toNat
    (predOut f.k (if f.u then intCompare f.p a b else intCompare f.p (sx a) (sx b)), 0) := by
  have hx s : exec (.scmp f q) s = word _ s := rfl
  exact collects_of (lat := lat4) hx (decide_eq_false (Nat.not_le.2 hp)) rfl rfl rfl (fun _ _ _ _ _ => rfl) rfl (fun _ _ _ _ _ _ _ _ => rfl)
    fun _ _ _ _ => rfl

/-- Settles O3, one word at a time. -/
theorem predicateWordsComplete : Obligations.PredicateWordsComplete :=
  ⟨icmpS_computes, icmpU_computes, predicateRow_computes, kpack_computes, kunpack_computes, kset_computes, scmp_collects⟩

/-! ### Uniform words -/

/-- A condition on the guarded lanes is one on the active lanes that are guarded in. -/
theorem acts_of_actsWhen {i : Instr} {w : Form} {cls : Nat} {ok : State → Gang → Group → LaneIn → Prop} {eff : State → Gang → Group → List LaneIn → Mach}
    (h : ActsWhen i w cls (fun s k g ls => ∀ l ∈ ons ls, ok s k g l) eff) : Acts i w cls ok eff := by
  intro s k g vs hr hok
  exact h s k g vs hr (by simpa only [ons_activeIn] using hok)

/-- A word that writes uniform register `d` once for its gang (R113); a speculating thread stops before it (R115). -/
def uniformWord (c : Bool) (q : Option Modifier) (srcs : List Src) (d : Nat) (v : Mach → Gang → Group → List LaneIn → Word) : Desc :=
  { c := c, q := q, srcs := srcs, stop := true, act := fun _ m k g ls => uniAct d lat4 (v m k g) m k g ls }

/-- The model's uniform write is the statement's (R98, R99). -/
theorem uniAct_eq (d : Nat) (v : List LaneIn → Word) (s : State) (k : Gang) (g : Group) (ls : List LaneIn) :
    uniAct d lat4 v s.m k g ls = (uniWrite s k g ls d 4 (v (ons ls)), []) := by
  simp only [uniAct, uniWrite]
  split <;> rfl

/-- A uniform write leaves the lanes of the gang as they were; the trailer alone waits for it (R208). -/
theorem uniWrite_gang? (s : State) (k : Gang) (g : Group) (ls : List LaneIn) (d lat : Nat) (v : Word) (h : s.m.gang? k.id = some k) :
    ∃ k', (uniWrite s k g ls d lat v).gang? k.id = some k' ∧ k'.lanes = k.lanes := by
  unfold uniWrite
  split
  · exact ⟨k, h, rfl⟩
  · refine ⟨{ k with uniDue := max k.uniDue (lastCycle s.m k g + lat) }, ?_, rfl⟩
    refine (Mach.gang?_onGang _ k.id k.id (fun x => { x with uniDue := max x.uniDue (lastCycle s.m k g + lat) }) fun _ => rfl).trans ?_
    rw [if_pos rfl]
    exact congrArg (Option.map _) h

/-- A uniform word writes its register where a lane is guarded in (R113). -/
theorem uniformWord_acts {i : Instr} {c : Bool} {q : Option Modifier} {srcs : List Src} {d : Nat} {v : Mach → Gang → Group → List LaneIn → Word}
    (hx : ∀ s, exec i s = word (uniformWord c q srcs d v) s) :
    Acts i { c := c, q := q, srcs := srcs } 0 always fun s k g ls => uniWrite s k g ls d 4 (v s.m k g (ons ls)) := by
  refine acts_of hx rfl rfl rfl rfl (fun _ _ _ _ _ => rfl) (fun _ _ _ _ _ _ => rfl) (fun _ _ _ _ _ _ _ _ => rfl)
    (fun s k g vs _ _ => uniAct_eq d (v s.m k g) s k g _) fun s k g vs hr _ => ?_
  obtain ⟨-, hgang, -, -⟩ := curGang_spec hr.cur
  obtain ⟨k', hk', hlanes⟩ := uniWrite_gang? s k g (Form.activeIn _ s k g vs) d 4 (v s.m k g (ons (Form.activeIn _ s k g vs))) hgang
  exact ⟨k', hk', fun l hl => hlanes ▸ laneIn_mem l hl⟩

theorem smov_acts (f : FSmov) (q : Option Modifier) :
    Acts (.smov f q) (formBare f.c q) 0 always fun s k g ls => uniWrite s k g ls f.d 4 (uniRead s k g f.a) :=
  uniformWord_acts (v := fun m k g _ => g.uniView (issueCycle m k g) f.a) fun _ => rfl

theorem sli_acts (f : FSli) (q : Option Modifier) :
    Acts (.sli f q) (formBare f.c q) 0 always fun s k g ls => uniWrite s k g ls f.d 4 (BitVec.ofInt 32 (sext f.i 10)) :=
  uniformWord_acts (v := fun _ _ _ _ => BitVec.ofInt 32 (sext f.i 10)) fun _ => rfl

theorem uniformRow_acts : ∀ r ∈ uniformRows, ∀ f q, Acts (r.1 f q) (formBare f.c q) 0 always fun s k g ls =>
    uniWrite s k g ls f.d 4 (r.2 (uniRead s k g f.a) (uniRead s k g f.b)) := by
  have hrow : ∀ r ∈ uniformRows, ∀ f q s, exec (r.1 f q) s
      = word (uniformWord f.c q [] f.d fun m k g _ => r.2 (g.uniView (issueCycle m k g) f.a) (g.uniView (issueCycle m k g) f.b)) s := by
    simp only [uniformRows, List.forall_mem_cons]
    exact ⟨fun _ _ _ => rfl, fun _ _ _ => rfl, fun _ _ _ => rfl, fun _ _ _ => rfl, List.forall_mem_nil _⟩
  exact fun r hr f q => uniformWord_acts (c := f.c) (srcs := [])
    (v := fun m k g _ => r.2 (g.uniView (issueCycle m k g) f.a) (g.uniView (issueCycle m k g) f.b)) (hrow r hr f q)

theorem sshl_acts (f : FSsh) (q : Option Modifier) :
    Acts (.sshl f q) (formBare f.c q) 0 always fun s k g ls => uniWrite s k g ls f.d 4 (uniRead s k g f.a <<< f.i) :=
  uniformWord_acts (v := fun m k g _ => g.uniView (issueCycle m k g) f.a <<< f.i) fun _ => rfl

theorem sshr_acts (f : FSsh) (q : Option Modifier) :
    Acts (.sshr f q) (formBare f.c q) 0 always fun s k g ls => uniWrite s k g ls f.d 4 (uniRead s k g f.a >>> f.i) :=
  uniformWord_acts (v := fun m k g _ => g.uniView (issueCycle m k g) f.a >>> f.i) fun _ => rfl

theorem exec_vmovs (f : FVmovs) (q : Option Modifier) (s : State) : exec (.vmovs f q) s
    = word (uniformWord f.c q [{ f := f.a, mm := f.m }] f.d fun _ _ _ ls => BitVec.ofNat 32 (((lowestLane ls).map fun l => l.val 0).getD 0)) s := rfl

theorem vmovs_acts (f : FVmovs) (q : Option Modifier) : Acts (.vmovs f q) (formA f.c q f.a f.m 1) 0 always fun s k g ls =>
    uniWrite s k g ls f.d 4 (BitVec.ofNat 32 (((lowestLane (ons ls)).map fun l => l.val 0).getD 0)) := by
  have h := uniformWord_acts (exec_vmovs f q)
  exact h

/-- The window offset that `sld` reads (R114). -/
def sldOff (f : FSld) (m : Mach) (k : Gang) (g : Group) : Nat := (g.uniView (issueCycle m k g) f.a).toNat + 4 * f.i

/-- `sld` (R114, R150). -/
def sldWord (f : FSld) (q : Option Modifier) : Desc :=
  { c := f.c, q := q, stop := true, blk := true
    exe := fun _ m k g _ => (scrCheck g (sldOff f m k g) 4 4 (sldOff f m k g)).orElse fun _ => lossCheck m g .scr 0 (sldOff f m k g) 4
    busy := fun _ m k g l => m.lockedAt g.column g.core (sldOff f m k g) 4 || match least ((activeLanes k g).map (·.tid)) with
      | some low => acqPending m g low || scrPending m g low (sldOff f m k g) 4
      | none => acqPending m g l.t.tid
    act := fun _ m k g ls => uniNow f.d (BitVec.ofNat 32 (m.winRead g.gid (sldOff f m k g) 4)) m k ls }

theorem least_cons (x : Nat) (xs : List Nat) : ∃ y, least (x :: xs) = some y := by
  unfold least
  split <;> exact ⟨_, rfl⟩

/-- A gang with an active lane has a lowest one. -/
theorem lowest_active {k : Gang} {g : Group} (h : activeLanes k g ≠ []) : ∃ low, least ((activeLanes k g).map (·.tid)) = some low := by
  obtain ⟨x, xs, hx⟩ := List.exists_cons_of_ne_nil h
  rw [hx]
  exact least_cons _ _

theorem uniNow_eq (d : Nat) (v : Word) (s : State) (k : Gang) (ls : List LaneIn) : uniNow d v s.m k ls = (uniResult s k ls d v, []) := by
  simp only [uniNow, uniResult]
  split <;> rfl

theorem uniResult_gang? (s : State) (k : Gang) (ls : List LaneIn) (d : Nat) (v : Word) (i : Nat) : (uniResult s k ls d v).gang? i = s.m.gang? i := by
  unfold uniResult
  split <;> rfl

/-- `sld` reads the window and writes its register where the access passes its checks and nothing that orders it is outstanding (R114, R150). -/
theorem sld_acts (f : FSld) (q : Option Modifier) : Acts (.sld f q) (formBare f.c q) 0
    (fun s k g _ => let off := (uniRead s k g f.a).toNat + 4 * f.i
      scrCheck g off 4 4 off = none ∧ lossCheck s.m g .scr 0 off 4 = none ∧ s.m.lockedAt g.column g.core off 4 = false
        ∧ ∀ low, least ((activeLanes k g).map (·.tid)) = some low → acqPending s.m g low = false ∧ scrPending s.m g low off 4 = false)
    fun s k g ls => uniResult s k ls f.d (BitVec.ofNat 32 (s.m.winRead g.gid ((uniRead s k g f.a).toNat + 4 * f.i) 4)) := by
  have hx s : exec (.sld f q) s = word (sldWord f q) s := rfl
  refine acts_of_actsWhen (actsWhen_of hx rfl rfl rfl rfl (fun s k g vs hr hok l hl => ?_) (fun _ _ _ _ _ _ => rfl) (fun s k g vs hr hok l hl => ?_)
    (fun s k g vs _ _ => uniNow_eq _ _ s k _) fun s k g vs _ _ => uniResult_gang? s k _ _ _ k.id)
  · obtain ⟨-, -, hlock, hlow⟩ := hok l hl
    obtain ⟨low, he⟩ := lowest_active hr.some
    obtain ⟨hacq, hscr⟩ := hlow low he
    have hoff : sldOff f s.m k g = (uniRead s k g f.a).toNat + 4 * f.i := rfl
    simp only [sldWord, hoff, he, hlock, hacq, hscr, Bool.or_self]
  · obtain ⟨hscr, hloss, -, -⟩ := hok l hl
    have hoff : sldOff f s.m k g = (uniRead s k g f.a).toNat + 4 * f.i := rfl
    simp only [sldWord, hoff, hscr, hloss, Option.orElse]

/-! ### Uniform registers -/

/-- What uniform writes leave in the registers depends on the registers alone. -/
theorem Group.foldl_applyUni_s (ws : List PWrite) (g g' : Group) (h : g.s = g'.s) : (ws.foldl Group.applyUni g).s = (ws.foldl Group.applyUni g').s := by
  induction ws generalizing g g' with
  | nil => exact h
  | cons w ws ih =>
    refine ih _ _ ?_
    unfold Group.applyUni
    split <;> simp [h]

/-- The write that issues later lands later, also after one of another gang (R76; of two gangs' racing writes by log entry 42). -/
theorem Group.settledUni_writeUni (g : Group) (n : Nat) (v : Word) (loc due : Nat) :
    (g.writeUni n v loc due).settledUni = SMap.set 0 g.settledUni n v := by
  simp only [Group.settledUni, Group.writeUni, pushWrite, List.foldl_append, List.foldl_cons, List.foldl_nil]
  exact congrArg (fun x => SMap.set 0 x n v) (Group.foldl_applyUni_s g.spend _ g rfl)

/-- The divergence rule of R19. -/
theorem Group.noteUni_udiv (g : Group) (n : Nat) (v : Word) (loc : Nat) :
    (g.noteUni n v loc).udiv = true ↔ g.udiv = true ∨ ∃ u ∈ g.epoch, u.reg = n ∧ u.val ≠ v ∧ u.loc ≠ loc := by
  simp [Group.noteUni, and_assoc]

/-- Writes in flight to other registers do not show in a register (R99). -/
theorem Group.foldl_view_get (now : Nat) {n : Nat} (ws : List PWrite) (h : ∀ w ∈ ws, w.tgt ≠ .uni n) (g : Group) :
    SMap.get 0 (ws.foldl (fun g w => if w.due ≤ now then g.applyUni w else g) g).s n = SMap.get 0 g.s n := by
  induction ws generalizing g with
  | nil => rfl
  | cons w ws ih =>
    rw [List.foldl_cons, ih fun x hx => h x (List.mem_cons_of_mem _ hx)]
    split
    · unfold Group.applyUni
      split
      · next i hi => exact SMap.get_set_ne _ _ _ fun e => h w List.mem_cons_self (e ▸ hi)
      · rfl
    · rfl

/-- The result of a blocking word is read at once (R92). -/
theorem Group.uniView_writeUniNow (g : Group) (n : Nat) (v : Word) (loc now : Nat) : (g.writeUniNow n v loc).uniView now n = v := by
  unfold Group.uniView
  rw [Group.foldl_view_get]
  · exact SMap.get_set_self _ _ _ _
  · intro w hw
    simpa using (List.mem_filter.1 hw).2

/-- Settles O7: one word at a time; then what a uniform write leaves, now or by the completion of a blocking word. -/
theorem uniformWordsComplete : Obligations.UniformWordsComplete :=
  ⟨smov_acts, sli_acts, uniformRow_acts, sshl_acts, sshr_acts, vmovs_acts, sld_acts,
    fun g n v loc due => ⟨g.settledUni_writeUni n v loc due, g.noteUni_udiv n v loc⟩,
    fun g n v loc now => ⟨g.uniView_writeUniNow n v loc now, g.noteUni_udiv n v loc⟩⟩

end Sys2Proof.Machine
end

section
/-! PROOFS. Control words (05): branches, jumps, `call` and `yield` (R116 to R118), the words that trap (R84, R97, R118), `exit` and the return from a
trap (R30, R119). -/

namespace Sys2Proof.Machine

/-! ### Words that act on threads -/

/-- A word of class T0 or none without checks or waits of its own, whose effect is `eff`. -/
def effectWord (c : Bool) (q : Option Modifier) (srcs : List Src) (cls : Nat) (eff : Mach → Gang → List LaneIn → Mach) : Desc :=
  { c := c, q := q, srcs := srcs, cls := cls, act := fun _ m k _ ls => (eff m k ls, []) }

/-- Such a word completes with its effect, which leaves its gang as it was. -/
theorem effectWord_acts {i : Instr} {c : Bool} {q : Option Modifier} {srcs : List Src} {cls : Nat} {eff : Mach → Gang → List LaneIn → Mach}
    (hx : ∀ s, exec i s = word (effectWord c q srcs cls eff) s) (hk : ∀ m k ls, (eff m k ls).gang? k.id = m.gang? k.id) :
    Acts i { c := c, q := q, srcs := srcs } cls always fun s k _ ls => eff s.m k ls :=
  acts_of hx rfl rfl rfl rfl (fun _ _ _ _ _ => rfl) (fun _ _ _ _ _ _ => rfl) (fun _ _ _ _ _ _ _ _ => rfl) (fun _ _ _ _ _ _ => rfl)
    fun _ _ _ _ hr _ => gang_kept hr (hk _ _ _)

theorem nop_acts (f : FC) : Acts (.nop f) (formBare f.c none) 4 always fun s _ _ _ => s.m :=
  effectWord_acts (eff := fun m _ _ => m) (fun _ => rfl) fun _ _ _ => rfl

theorem bra_acts (f : FB) (q : Option Modifier) : Acts (.bra f q) (formBare f.c q) 0 always fun s k _ ls =>
    s.m.mapLanes k.gid ((ons ls).filter fun l => l.v.pred f.k != f.g) fun _ t => takenTo k (targetAt k f.d) t :=
  effectWord_acts (eff := fun m k ls => m.mapLanes k.gid ((ons ls).filter fun l => l.v.pred f.k != f.g) fun _ t => takenTo k (targetAt k f.d) t)
    (fun _ => rfl) fun _ _ _ => rfl

/-- `jmpr` and `ret` differ in their encoding only (R117). -/
theorem jumpWord_acts {i : Instr} {f : FA} {q : Option Modifier} (hx : ∀ s, exec i s = word (jumpWord f q) s) :
    Acts i (formA f.c q f.a f.m 1) 0 always fun s k _ ls => s.m.mapLanes k.gid (ons ls) fun l t => takenTo k (l.val 0) t := by
  have h := effectWord_acts (c := f.c) (q := q) (srcs := [{ f := f.a, mm := f.m }]) (cls := 0)
    (eff := fun m k ls => m.mapLanes k.gid (ons ls) fun l t => takenTo k (l.val 0) t) hx fun _ _ _ => rfl
  exact h

theorem yield_acts (f : FC) (q : Option Modifier) : Acts (.yield f q) (formBare f.c q) 0 always fun s k _ ls =>
    s.m.mapLanes k.gid (ons ls) fun _ t => { takenTo k (packetAt k + 1) t with yieldNext := true } :=
  effectWord_acts (eff := fun m k ls => m.mapLanes k.gid (ons ls) fun _ t => { takenTo k (packetAt k + 1) t with yieldNext := true })
    (fun _ => rfl) fun _ _ _ => rfl

/-! ### Threads after an update of lanes and after an advance -/

/-- An update of lanes changes the threads of those lanes. -/
theorem Mach.thread?_mapLanes (m : Mach) (gid i : Nat) (ls : List LaneIn) (f : LaneIn → Thread → Thread) (hf : ∀ l t, (f l t).tid = t.tid) :
    (m.mapLanes gid ls f).thread? gid i = (m.thread? gid i).map fun t => match ls.find? (fun (l : LaneIn) => l.t.tid == t.tid) with
      | some l => f l t
      | none => t := by
  cases hg : m.group? gid with
  | none =>
    have h : (m.mapLanes gid ls f).group? gid = none := by
      rw [Mach.mapLanes, Mach.group?_onGroup m gid gid (fun g => g.mapLanes ls f) fun _ => rfl, if_pos rfl, hg]
      rfl
    simp only [Mach.thread?, h, hg, Option.bind_none, Option.map_none]
  | some g =>
    simp only [Mach.thread?, mapLanes_group? m gid ls f hg, hg, Option.bind_some]
    exact thread?_of g _ _ i (fun x => by split <;> simp [hf]) rfl

/-- What an update of selected active lanes leaves of a thread; `y` is the thread `x` of the group as earlier updates left it. -/
theorem Mach.thread?_mapLanes_active (m : Mach) {w : Form} {s : State} {k : Gang} {g : Group} {vs : Thread → List Nat} (P : LaneIn → Bool)
    (f : LaneIn → Thread → Thread) (hf : ∀ l t, (f l t).tid = t.tid) {i : Nat} {x y : Thread} (hx : g.thread? i = some x)
    (hy : m.thread? k.gid i = some y) (hid : y.tid = x.tid) :
    (m.mapLanes k.gid ((w.activeIn s k g vs).filter P) f).thread? k.gid i
      = some (if x ∈ activeLanes k g ∧ P (w.laneIn s k g vs x) = true then f (w.laneIn s k g vs x) y else y) := by
  obtain rfl := Group.thread?_tid hx
  rw [m.thread?_mapLanes k.gid x.tid _ f hf, hy, Option.map_some, hid, Form.activeIn,
    find_lane (activeLanes k g) (w.laneIn s k g vs) P x (fun _ => rfl) (activeLanes_unique hx)]
  split_ifs <;> rfl

/-- An advance changes nothing of a thread but its issue round (R223). -/
theorem Mach.thread?_advance (m : Mach) (k : Gang) (n cls : Nat) {i : Nat} {x : Thread} (hx : m.thread? k.gid i = some x) :
    ∃ r, (m.advance k n cls).thread? k.gid i = some { x with lastIssue := r } := by
  obtain ⟨g, hg, hgx⟩ := Option.bind_eq_some_iff.1 hx
  obtain ⟨f, U, hf, hU, hadv⟩ := m.advance_eq k n cls hg
  refine ⟨(f x).lastIssue, ?_⟩
  rw [← hf, Mach.thread?, hadv, hU.group, Mach.group?_onGroup _ _ _ (Group.reissue f) fun _ => rfl, if_pos rfl]
  have hgang : (m.onGang k.id fun y => ({ y with slot := k.slot } : Gang).next n).group? k.gid = some g := hg
  rw [hgang, Option.map_some, Option.bind_some, thread?_of g _ f i (fun y => by rw [hf]) rfl, hgx, Option.map_some]

/-- Where a word has changed threads of its group alone, it leaves everything else as it was when its gang has gone on. -/
theorem advance_quiet {s : State} {m : Mach} {k : Gang} {g : Group} (n cls : Nat) (hgroup : m.group? k.gid = some g)
    (hgang : s.m.gang? k.id = some k) (hm : ∃ gs, m = { s.m with groups := gs }) (hothers : ∀ i, i ≠ k.gid → m.group? i = s.m.group? i) :
    Quiet s { s with m := m.advance k n cls } k ∧ (m.advance k n cls).gang? k.id = some (k.next n) := by
  obtain ⟨f, U, -, hU, hadv⟩ := m.advance_eq k n cls hgroup
  obtain ⟨gs, rfl⟩ := hm
  rw [hadv]
  have hnext (i : Nat) : (U (((({ s.m with groups := gs } : Mach).onGang k.id fun x => ({ x with slot := k.slot } : Gang).next n)).onGroup k.gid
      (Group.reissue f))).gang? i = if i = k.id then (s.m.gang? i).map fun x => ({ x with slot := k.slot } : Gang).next n else s.m.gang? i :=
    (hU.gang _ _).trans (Mach.gang?_onGang ({ s.m with groups := gs } : Mach) k.id i (fun x => ({ x with slot := k.slot } : Gang).next n) fun _ => rfl)
  refine ⟨⟨rfl, rfl, rfl, ?_, fun _ _ => (hU.core _ _ _).trans rfl, fun i hi => ?_, fun i hi => ?_⟩, ?_⟩
  · exact Mach.SameRest.trans (by rfl) (hU.rest _)
  · rw [hU.group, Mach.group?_onGroup _ _ _ (Group.reissue f) fun _ => rfl, if_neg hi]
    exact hothers i hi
  · rw [hnext, if_neg hi]
  · rw [hnext, if_pos rfl, hgang]
    simp [Gang.next]

/-! ### `call` -/

/-- A lane that takes the `call` (R116). -/
def callTakes (f : FB) (l : LaneIn) : Bool := l.v.pred f.k != f.g

/-- A lane that takes the `call`: its next PC is the target, and the link is a write in flight (R116). -/
def callTaken (f : FB) (m : Mach) (k : Gang) (g : Group) (t : Thread) : Thread :=
  (t.take k (branchTarget k f.d)).push (lastCycle m k g + lat4) (resWrites 110 1 ((packetOf k + 1) % 2 ^ 32))

/-- `call` (R116). -/
def callWord (f : FB) (q : Option Modifier) : Desc :=
  { c := f.c, q := q
    dyn := fun _ l => if callTakes f l then [110] else []
    exe := fun _ _ _ g l => if callTakes f l && decide (g.acquired ≤ 110) then some (.regrange, 110) else none
    act := fun _ m k g ls => (m.mapLanes k.gid ((ons ls).filter (callTakes f)) fun _ t => callTaken f m k g t, []) }

theorem branchTarget_eq (k : Gang) (d : Nat) : branchTarget k d % 2 ^ 32 = targetAt k d := by
  refine Nat.mod_eq_of_lt ?_
  simp only [branchTarget, bitsI]
  omega

theorem callTaken_eq (f : FB) (m : Mach) (k : Gang) (g : Group) (t : Thread) :
    callTaken f m k g t = { t with c := (callTaken f m k g t).c, taken := some (targetAt k f.d), takenAt := k.slot } := by
  rw [← branchTarget_eq]
  rfl

/-- The link lands in v110 after every older write (R76, R116). -/
theorem callTaken_landAll (f : FB) (m : Mach) (k : Gang) (g : Group) (t : Thread) :
    (callTaken f m k g t).c.landAll = t.c.landAll.settle (resWrites 110 1 ((packetAt k + 1) % 2 ^ 32)) :=
  landAll_push _ _ _

/-- The checks of `call` pass where v110 is below the count and full in the lanes that take it (R116). -/
theorem callWord_verdict {f : FB} {q : Option Modifier} {s : State} {k : Gang} {g : Group} {vs : Thread → List Nat}
    (hr : (formBare f.c q).Ready s k g vs) (hc : 110 < g.acquired)
    (hfull : ∀ x ∈ (formBare f.c q).lanes s k g, (x.c.view (issueCycle s.m k g)).pred f.k ≠ f.g → x.c.notFull.getLsbD 110 = false) :
    (callWord f q).verdict s.cfg s.m k g = .go ((formBare f.c q).activeIn s k g vs) [] := by
  refine Desc.verdict_go (d := callWord f q) (us := vs) hr rfl rfl (fun _ _ => rfl) (fun x hx hon n hn => ?_) (fun _ _ _ => rfl) rfl fun x _ _ => ?_
  · simp only [callWord] at hn
    split at hn
    · next ht =>
      obtain rfl := List.mem_singleton.1 hn
      exact hfull x (List.mem_filter.2 ⟨hx, hon⟩) (bne_iff_ne.1 ht)
    · cases hn
  · simp [callWord, Nat.not_le.2 hc]

/-- A word that holds nothing marks nothing in a lane that does not speculate. -/
theorem Desc.mark_id {d : Desc} (hh : d.h = false) (hb : hbOf d.q = false) (k : Gang) (g : Group) (l : LaneIn) {t : Thread} (ht : t.epi = none) :
    d.mark k g l t = t := by
  rw [mark_plain d k g l t ht, Form.latchAfter_none (w := d.form) hh hb]

/-- A word that completes in its lanes marks them after its effect. -/
theorem perform_completes {d : Desc} {cfg : Cfg} {m e : Mach} {k : Gang} {g : Group} {ls : List LaneIn} (ha : d.act cfg m k g ls = (e, []))
    (hk : e.gang? k.id = some k) (hl : ∀ l ∈ ls, l.t.tid ∈ k.lanes) : d.perform cfg m k g ls = (e.mapLanes k.gid ls (d.mark k g), true) := by
  have hf : ls.filter (fun l => k.lanes.contains l.t.tid) = ls := List.filter_eq_self.2 fun l h => List.contains_iff_mem.2 (hl l h)
  simp only [Desc.perform, ha, hk, hf, List.isEmpty_nil, if_true]

theorem Desc.mark_tid (d : Desc) (k : Gang) (g : Group) (l : LaneIn) (t : Thread) : (d.mark k g l t).tid = t.tid := by
  simp only [Desc.mark]
  generalize (if d.h = true then l.vs[0]? else if hbOf d.q = true then l.vs[1]? else none) = held
  cases held
  all_goals
    dsimp only
    split
    · split <;> rfl
    · rfl

/-- The machine in which a `call` has taken effect and its gang has not yet gone on. -/
def callMach (f : FB) (q : Option Modifier) (s : State) (k : Gang) (g : Group) (ls : List LaneIn) : Mach :=
  (s.m.mapLanes k.gid ((ons ls).filter (callTakes f)) fun _ t => callTaken f s.m k g t).mapLanes k.gid ls ((callWord f q).mark k g)

/-- `call` takes its effect, and its gang goes on. -/
theorem exec_call_go {f : FB} {q : Option Modifier} {s : State} {k : Gang} {g : Group} {vs : Thread → List Nat}
    (hr : (formBare f.c q).Ready s k g vs) (hc : 110 < g.acquired)
    (hfull : ∀ x ∈ (formBare f.c q).lanes s k g, (x.c.view (issueCycle s.m k g)).pred f.k ≠ f.g → x.c.notFull.getLsbD 110 = false) :
    exec (.call f q) s
      = .next { s with m := (callMach f q s k g ((formBare f.c q).activeIn s k g vs)).advance k (formBare f.c q).words 0 } := by
  obtain ⟨-, hgang, -, -⟩ := curGang_spec hr.cur
  have hx : exec (.call f q) s = word (callWord f q) s := rfl
  have hp := perform_completes (d := callWord f q) (cfg := s.cfg) (m := s.m) (g := g) (ls := (formBare f.c q).activeIn s k g vs) rfl
    (show Mach.gang? _ k.id = some k from hgang) (laneIn_mem (d := callWord f q))
  rw [hx, word_next, runWord_go hr.cur hr.solo (callWord_verdict hr hc hfull), hp]
  rfl

/-- What a `call` leaves of a thread of its group: where the lane takes it, the target and the link; else nothing but the issue round (R116). -/
theorem callMach_thread {f : FB} {q : Option Modifier} {s : State} {k : Gang} {g : Group} {vs : Thread → List Nat}
    (hr : (formBare f.c q).Ready s k g vs) {i : Nat} {x : Thread} (hx : g.thread? i = some x) :
    (callMach f q s k g ((formBare f.c q).activeIn s k g vs)).thread? k.gid i
      = some (if x ∈ (formBare f.c q).lanes s k g ∧ (x.c.view (issueCycle s.m k g)).pred f.k ≠ f.g then callTaken f s.m k g x else x) := by
  obtain ⟨-, -, hgroup, -⟩ := curGang_spec hr.cur
  have hsx : s.m.thread? k.gid i = some x := by rw [Mach.thread?, hgroup]; exact hx
  set ls := (formBare f.c q).activeIn s k g vs with hls
  have htake := s.m.thread?_mapLanes_active (w := formBare f.c q) (s := s) (g := g) (vs := vs) (fun l => callTakes f l && l.on)
    (fun _ t => callTaken f s.m k g t) (fun _ _ => rfl) hx hsx rfl
  rw [← List.filter_filter, ← hls] at htake
  have hcond : (x ∈ activeLanes k g ∧ (callTakes f ((formBare f.c q).laneIn s k g vs x) && ((formBare f.c q).laneIn s k g vs x).on) = true)
      ↔ x ∈ (formBare f.c q).lanes s k g ∧ (x.c.view (issueCycle s.m k g)).pred f.k ≠ f.g := by
    simp only [Form.lanes, List.mem_filter, Bool.and_eq_true, callTakes, bne_iff_ne, Form.laneIn]
    tauto
  simp only [hcond] at htake
  set y := if x ∈ (formBare f.c q).lanes s k g ∧ (x.c.view (issueCycle s.m k g)).pred f.k ≠ f.g then callTaken f s.m k g x else x with hy
  have hid : y.tid = x.tid := by rw [hy]; split <;> rfl
  have hepi : y.epi = x.epi := by rw [hy]; split <;> rfl
  have hmark := Mach.thread?_mapLanes_active _ (w := formBare f.c q) (s := s) (vs := vs) (fun _ => true) ((callWord f q).mark k g)
    ((callWord f q).mark_tid k g) hx htake hid
  rw [List.filter_true] at hmark
  refine hmark.trans (congrArg some ?_)
  split
  · next h =>
    obtain ⟨hact, -⟩ := h
    have hplain : x.epi = none := hr.plain x (activeLanes_thread hact) (List.mem_map_of_mem hact)
    exact Desc.mark_id rfl (Form.hbOf_of_legal (w := formBare f.c q) hr.legal rfl) k g _ (hepi.trans hplain)
  · rfl

/-- `call` sends the lanes that take it to the target with the link in v110, and the others on (R116). -/
theorem call_done (f : FB) (q : Option Modifier) (s : State) (k : Gang) (g : Group) (vs : Thread → List Nat)
    (hr : (formBare f.c q).Ready s k g vs) (hc : 110 < g.acquired)
    (hfull : ∀ x ∈ (formBare f.c q).lanes s k g, (x.c.view (issueCycle s.m k g)).pred f.k ≠ f.g → x.c.notFull.getLsbD 110 = false) :
    ∃ t, exec (.call f q) s = .next t ∧ Quiet s t k ∧ t.m.gang? k.id = some (k.next (formBare f.c q).words)
      ∧ ∀ i x, g.thread? i = some x → ∃ x', t.m.thread? k.gid i = some x'
        ∧ (x ∈ (formBare f.c q).lanes s k g ∧ (x.c.view (issueCycle s.m k g)).pred f.k ≠ f.g →
            x' = { x with c := x'.c, lastIssue := x'.lastIssue, taken := some (targetAt k f.d), takenAt := k.slot }
            ∧ x'.c.landAll = x.c.landAll.settle (resWrites 110 1 ((packetAt k + 1) % 2 ^ 32)))
        ∧ (¬ (x ∈ (formBare f.c q).lanes s k g ∧ (x.c.view (issueCycle s.m k g)).pred f.k ≠ f.g) → x' = { x with lastIssue := x'.lastIssue }) := by
  obtain ⟨-, hgang, hgroup, -⟩ := curGang_spec hr.cur
  obtain ⟨hquiet, hnext⟩ := advance_quiet (s := s) (m := callMach f q s k g ((formBare f.c q).activeIn s k g vs)) (formBare f.c q).words 0
    (mapLanes_group? _ _ _ _ (mapLanes_group? _ _ _ _ hgroup)) hgang ⟨_, rfl⟩ fun i hi =>
      (mapLanes_group?_ne _ _ _ _ _ hi).trans (mapLanes_group?_ne _ _ _ _ _ hi)
  refine ⟨_, exec_call_go hr hc hfull, hquiet, hnext, fun i x hx => ?_⟩
  obtain ⟨r, hx'⟩ := Mach.thread?_advance _ k (formBare f.c q).words 0 (callMach_thread hr hx)
  refine ⟨_, hx', fun htaken => ?_, fun hnot => ?_⟩
  · rw [if_pos htaken]
    refine ⟨?_, callTaken_landAll f s.m k g x⟩
    rw [callTaken_eq]
  · rw [if_neg hnot]

/-- Settles O8: the words but `call` act on threads alone; `call` writes its link as a word of fixed latency too. -/
theorem controlWordsComplete : Obligations.ControlWordsComplete :=
  ⟨nop_acts, bra_acts, fun _ _ => jumpWord_acts fun _ => rfl, fun _ _ => jumpWord_acts fun _ => rfl, yield_acts, call_done⟩

/-! ### Words that trap -/

/-- No lane stops before a word where none speculates (R115, R237). -/
theorem Desc.stops_none {d : Desc} {w : Form} {s : State} {k : Gang} {g : Group} {vs : Thread → List Nat} (hr : w.Ready s k g vs) (bad : Bool) :
    (activeLanes k g).filter (d.stopsIn s.cfg s.m k g (issueCycle s.m k g) bad) = [] := by
  refine List.filter_eq_nil_iff.2 fun x hx => ?_
  simp [Desc.stopsIn, hr.plain x (activeLanes_thread hx) (List.mem_map_of_mem hx)]

/-- A word with a bad encoding traps in every active lane, ILLCHAIN before ILLEGAL (R83, R84). -/
theorem Desc.verdict_all {d : Desc} {w : Form} {s : State} {k : Gang} {g : Group} {vs : Thread → List Nat} (hr : w.Ready s k g vs)
    (hbad : (d.illchain k.slot || d.illegal) = true) :
    d.verdict s.cfg s.m k g = .all (if d.illchain k.slot then .illchain else .illegal) := by
  have hne : (activeLanes k g).isEmpty = false := List.isEmpty_eq_false_iff.2 hr.some
  simp only [Desc.verdict, hbad, hne, Desc.stops_none hr true, List.isEmpty_nil, Bool.not_true, Bool.false_eq_true, if_false, if_true]

/-- A word that traps in every active lane takes no effect (R84). -/
theorem word_all {d : Desc} {w : Form} {s : State} {k : Gang} {g : Group} {vs : Thread → List Nat} {c : Cause} (hr : w.Ready s k g vs)
    (hv : d.verdict s.cfg s.m k g = .all c) : word d s = .next { s with m := trappedAtIssue s k g (w.activeIn s k g vs) c 0 } := by
  have hlanes : trapsOf (w.activeIn s k g vs) c 0 = (activeLanes k g).map fun t => (t.tid, c, 0) := by
    simp only [trapsOf, Form.activeIn, List.map_map]
    rfl
  rw [word_next, trappedAtIssue, hlanes]
  simp only [runWord, hr.cur, hr.solo, hv]

theorem exec_reservedEncoding (w : Nat) (s : State) : exec (.reservedEncoding w) s
    = if chainBit w && bitsOf w 25 6 == 0x3E then word { c := true, q := some (Modifier.ofWord 0) } s else word { c := chainBit w, ill := true } s := rfl

/-- A reserved encoding that is no trailer with C set traps ILLEGAL, or ILLCHAIN with C in slot 2 (R65, R84, R97). -/
theorem reserved_traps (w : Nat) (s : State) (k : Gang) (g : Group) (vs : Thread → List Nat) (hw : ¬ (chainBit w = true ∧ bitsOf w 25 6 = 0x3E))
    (hr : (formBare false none).Ready s k g vs) :
    let c := if chainBit w = true ∧ (k.slot + 1) % 3 = 0 then Cause.illchain else Cause.illegal
    exec (.reservedEncoding w) s = .next { s with m := trappedAtIssue s k g ((formBare false none).activeIn s k g vs) c 0 } := by
  have hx : exec (.reservedEncoding w) s = word { c := chainBit w, ill := true } s := by
    rw [exec_reservedEncoding, if_neg (by simpa using hw)]
  have hchain : ({ c := chainBit w, ill := true } : Desc).illchain k.slot = decide (chainBit w = true ∧ (k.slot + 1) % 3 = 0) := by
    simp [Desc.illchain, Desc.chained, Desc.words, beq_eq_decide]
  have hill : ({ c := chainBit w, ill := true } : Desc).illegal = true := rfl
  have hv := Desc.verdict_all (d := { c := chainBit w, ill := true }) hr (by rw [hill, Bool.or_true])
  rw [hx]
  refine word_all hr (hv.trans ?_)
  simp only [hchain, decide_eq_true_eq]

/-- A trailer with C set traps ILLCHAIN (R65, R70). -/
theorem reservedTrailer_traps (w : Nat) (s : State) (k : Gang) (g : Group) (vs : Thread → List Nat) (hw : chainBit w = true ∧ bitsOf w 25 6 = 0x3E)
    (hr : (formBare false none).Ready s k g vs) :
    exec (.reservedEncoding w) s = .next { s with m := trappedAtIssue s k g ((formBare false none).activeIn s k g vs) .illchain 0 } := by
  have hx : exec (.reservedEncoding w) s = word { c := true, q := some (Modifier.ofWord 0) } s := by
    rw [exec_reservedEncoding, if_pos (by simpa using hw)]
  have hchain : ({ c := true, q := some (Modifier.ofWord 0) } : Desc).illchain k.slot = true := rfl
  have hv := Desc.verdict_all (d := { c := true, q := some (Modifier.ofWord 0) }) hr (by rw [hchain, Bool.true_or])
  rw [hx]
  exact word_all hr (hv.trans (by rw [if_pos hchain]))

/-! ### `trap` and `bkpt` -/

/-- `trap` and `bkpt` trap in every guarded lane (R118). -/
def trapWord (c : Bool) (q : Option Modifier) (cause : Cause) (arg : Nat) : Desc :=
  { c := c, q := q, stop := true, exe := fun _ _ _ _ _ => some (cause, arg) }

/-- Execution traps are judged after every other check (R83): where those of `e` pass, a word that differs in its execution traps alone goes on with its own. -/
theorem Desc.verdict_exe {d e : Desc} {w : Form} {s : State} {k : Gang} {g : Group} {vs : Thread → List Nat} {ls : List LaneIn} (hr : w.Ready s k g vs)
    (he : e = { d with exe := e.exe }) (h : e.verdict s.cfg s.m k g = .go ls []) :
    d.verdict s.cfg s.m k g
      = .go ls (ls.filterMap fun l => if l.on then (d.exe s.cfg s.m k g l).map fun x => (l.t.tid, x.1, x.2) else none) := by
  have hne : (activeLanes k g).isEmpty = false := List.isEmpty_eq_false_iff.2 hr.some
  have hchain : e.illchain = d.illchain := by rw [he]; rfl
  have hill : e.illegal = d.illegal := by rw [he]; rfl
  have hopr : e.opr = d.opr := by rw [he]; rfl
  have hopx : e.opx = d.opx := by rw [he]
  have hlane : e.laneIn = d.laneIn := by rw [he]; rfl
  have hwrites : e.writes = d.writes := by rw [he]; rfl
  have hbusy : e.busy = d.busy := by rw [he]
  simp only [Desc.verdict, hne, Desc.stops_none hr, List.isEmpty_nil, Bool.not_true, Bool.false_eq_true, if_false, hchain, hill, hopr, hopx, hlane, hwrites,
    hbusy] at h ⊢
  split at h
  · cases h
  next hbad =>
  split at h
  · cases h
  next htraps =>
  split at h
  · cases h
  next =>
  split at h
  · cases h
  next hwait =>
  split at h
  · split at h <;> cases h
  next hidle =>
  obtain ⟨rfl, -⟩ := Verdict.go.inj h
  simp only [if_neg hbad, if_neg htraps, if_neg hwait, if_neg hidle]

theorem trapsOf_ons (ls : List LaneIn) (cause : Cause) (arg : Nat) :
    trapsOf (ons ls) cause arg = ls.filterMap fun l => if l.on then some (l.t.tid, cause, arg) else none := by
  rw [trapsOf, ons, ← List.filterMap_eq_filter, List.map_filterMap]
  refine List.filterMap_congr fun l _ => ?_
  cases h : l.on <;> simp [Option.guard, h]

/-- Every check of a trapping word passes but for its own trap in the guarded lanes (R83, R118). -/
theorem trapWord_verdict {c : Bool} {q : Option Modifier} {cause : Cause} {arg : Nat} {s : State} {k : Gang} {g : Group} {vs : Thread → List Nat}
    (hr : (formBare c q).Ready s k g vs) : (trapWord c q cause arg).verdict s.cfg s.m k g
      = .go ((formBare c q).activeIn s k g vs) (trapsOf ((formBare c q).lanesIn s k g vs) cause arg) := by
  have hgo : ({ c := c, q := q, stop := true } : Desc).verdict s.cfg s.m k g = .go ((formBare c q).activeIn s k g vs) [] :=
    Desc.verdict_go (d := { c := c, q := q, stop := true }) (us := vs) hr rfl rfl (fun _ _ => rfl) (fun _ _ _ _ hn => absurd hn List.not_mem_nil)
      (fun _ _ _ => rfl) rfl fun _ _ _ => rfl
  rw [Desc.verdict_exe (d := trapWord c q cause arg) hr rfl hgo, ← ons_activeIn, trapsOf_ons]
  rfl

/-- The active lanes but those that trap are those that are guarded out: threads of active lanes are told apart by their numbers. -/
theorem filter_not_trapped (w : Form) (s : State) (k : Gang) (g : Group) (vs : Thread → List Nat) (cause : Cause) (arg : Nat) :
    ((w.activeIn s k g vs).filter fun l => !((trapsOf (w.lanesIn s k g vs) cause arg).map (·.1)).contains l.t.tid)
      = (w.activeIn s k g vs).filter fun l => !l.on := by
  refine List.filter_congr fun l hl => ?_
  obtain ⟨x, hx, rfl⟩ := List.mem_map.1 hl
  have hmem : x.tid ∈ (trapsOf (w.lanesIn s k g vs) cause arg).map (·.1) ↔ w.on s k g x = true := by
    simp only [trapsOf, Form.lanesIn, Form.lanes, List.map_map, List.mem_map, List.mem_filter, Function.comp, Form.laneIn]
    refine ⟨?_, fun hon => ⟨x, ⟨hx, hon⟩, rfl⟩⟩
    rintro ⟨y, ⟨hy, hon⟩, hid⟩
    rwa [activeLanes_unique (activeLanes_mem hx).2 y hy hid] at hon
  rw [Bool.eq_iff_iff]
  simp only [Bool.not_eq_true', ← Bool.not_eq_true, List.contains_iff_mem]
  exact not_congr hmem

/-- A trapping word traps its guarded lanes with its cause, and the others go on (R118). -/
theorem trapWord_traps {i : Instr} {c : Bool} {q : Option Modifier} {cause : Cause} {arg : Nat} (hx : ∀ s, exec i s = word (trapWord c q cause arg) s)
    (s : State) (k : Gang) (g : Group) (vs : Thread → List Nat) (hr : (formBare c q).Ready s k g vs) (hon : (formBare c q).lanesIn s k g vs ≠ []) :
    exec i s = .next { s with m := trapped s (formBare c q) k g vs cause arg } := by
  obtain ⟨-, hgang, -, -⟩ := curGang_spec hr.cur
  have hne : (trapsOf ((formBare c q).lanesIn s k g vs) cause arg).isEmpty = false := by
    rw [List.isEmpty_eq_false_iff]
    exact mt List.map_eq_nil_iff.1 hon
  have hp := perform_completes (d := trapWord c q cause arg) (cfg := s.cfg) (g := g) (ls := ((formBare c q).activeIn s k g vs).filter fun l => !l.on) rfl hgang
    fun l hl => laneIn_mem (d := trapWord c q cause arg) l (List.mem_of_mem_filter hl)
  rw [hx, word_next]
  simp only [runWord, hr.cur, hr.solo, trapWord_verdict hr, hne, filter_not_trapped, hp, mark_keepHeld (trapWord c q cause arg) s.m k g _ fun _ => rfl]
  rfl

/-- Settles O21: `trap` and `bkpt` are one word but for the cause, and a reserved encoding is a word that fails its encoding checks. -/
theorem trapWordsTrap : Obligations.TrapWordsTrap :=
  ⟨fun _ _ => trapWord_traps fun _ => rfl, fun _ _ => trapWord_traps fun _ => rfl, reserved_traps, reservedTrailer_traps⟩

/-! ### `exit` and `trapret` -/

/-- `exit` ends the threads of its guarded lanes; `m'` is the machine once the barrier and the pixels have taken note (R119, R194). -/
theorem exit_actsWhen (f : FC) (q : Option Modifier) (m' : Mach) : ActsWhen (.exit f q) (formBare f.c q) 0
    (fun s k _ ls => drainPixels s.cfg ((((ons ls).foldl (fun m l => m.exitPixel l.t) s.m).mapLanes k.gid (ons ls) fun _ t =>
        { takenTo k 0 t with exited := true }).checkBarrier k.gid) = m' ∧ m'.gang? k.id = s.m.gang? k.id)
    fun _ _ _ _ => m' := by
  have hx s : exec (.exit f q) s = word _ s := rfl
  refine actsWhen_of hx rfl rfl rfl rfl (fun _ _ _ _ _ _ _ _ => rfl) (fun _ _ _ _ _ _ => rfl) (fun _ _ _ _ _ _ _ _ => rfl)
    (fun s k g vs _ hok => ?_) fun _ _ _ _ _ hok => hok.2
  exact congrArg (fun m => (m, [])) hok.1

/-- `trapret` restores the trap frame and leaves the handler in the lanes whose case of R30 is no RUNFORM. -/
theorem trapret_acts (f : FC) (q : Option Modifier) : Acts (.trapret f q) (formBare f.c q) 0 (fun _ _ _ l => l.t.hnd = true ∧ l.t.retCase ≠ .runform)
    fun s k g ls => s.m.mapLanes k.gid (ons ls) fun _ t => { (loadTrapFrame s.cfg g s.m t).leave with takenAt := k.slot } := by
  have hx s : exec (.trapret f q) s = word _ s := rfl
  refine acts_of hx rfl rfl rfl rfl (fun _ _ _ _ _ => rfl) (fun _ _ _ _ _ _ => rfl) (fun s k g vs _ hok l hl => ?_) (fun _ _ _ _ _ _ => rfl)
    fun _ _ _ _ hr _ => gang_kept hr rfl
  obtain ⟨hhnd, hcase⟩ := hok l hl
  simp only [hhnd, hcase, Bool.not_true, Bool.false_eq_true, if_false]

/-! ### The cases of R30 -/

theorem retCase_of_badSlot {x : Thread} (h : 23 < x.tslot) : x.retCase = .runform := by
  simp [Thread.retCase, h]

theorem retCase_of_collective {x : Thread} (hs : x.tslot ≤ 23) (hp : x.trappc = x.entryPc) (hc : x.cr = true) : x.retCase = .replay := by
  simp [Thread.retCase, Nat.not_lt.2 hs, hp, hc]

theorem retCase_of_slot {x : Thread} (hs : x.tslot ≤ 23) (hp : x.trappc = x.entryPc) (hc : x.cr = false) (he : x.entrySlot ≤ x.tslot) :
    x.retCase = .resume x.tslot := by
  rcases Nat.eq_or_lt_of_le he with h | h
  · simp [Thread.retCase, Nat.not_lt.2 hs, hp, hc, h]
  · simp [Thread.retCase, Nat.not_lt.2 hs, hp, hc, h, h.ne']

theorem retCase_of_fresh {x : Thread} (hp : x.trappc ≠ x.entryPc) (hs : x.tslot = 0) : x.retCase = .fresh := by
  simp [Thread.retCase, hp, hs]

theorem retCase_of_misfit {x : Thread} (h : (x.trappc ≠ x.entryPc ∧ x.tslot ≠ 0) ∨ (x.trappc = x.entryPc ∧ x.cr = false ∧ x.tslot < x.entrySlot)) :
    x.retCase = .runform := by
  rcases h with ⟨hp, hs⟩ | ⟨hp, hc, hs⟩
  · simp [Thread.retCase, hp, hs]
  · simp [Thread.retCase, hp, hc, hs.ne, hs.le]

theorem leave_hnd {x : Thread} (h : x.retCase ≠ .runform) : x.leave.hnd = false := by
  unfold Thread.leave
  cases hcase : x.retCase with
  | runform => exact absurd hcase h
  | replay => rfl
  | resume => rfl
  | fresh => rfl

theorem leave_of_replay {x : Thread} (h : x.retCase = .replay) :
    x.leave.wait = .hold ∧ x.leave.c = { x.c.landAll with pc := x.trappc.toNat, slot := 0, mid := false, t := [], latch := {} } := by
  simp only [Thread.leave, h, and_self]

theorem leave_of_resume {x : Thread} {n : Nat} (h : x.retCase = .resume n) :
    x.leave.c = { x.c.landAll with pc := x.trappc.toNat, slot := n, mid := true, t := x.frame.t, latch := x.frame.latch } := by
  simp only [Thread.leave, h]

theorem leave_of_fresh {x : Thread} (h : x.retCase = .fresh) :
    x.leave.c = { x.c.landAll with pc := x.trappc.toNat, slot := 0, mid := false, t := [], latch := {} } := by
  simp only [Thread.leave, h]

/-- Settles O29: the cases of R30 exclude each other, and each leaves its own run position. -/
theorem exitAndTrapReturnEndRuns : Obligations.ExitAndTrapReturnEndRuns := by
  refine ⟨exit_actsWhen, trapret_acts, fun _ => retCase_of_badSlot, fun x hs hp hc => ?_, fun x hs hp hc he => ?_, fun x hp hs => ?_,
    fun _ => retCase_of_misfit, fun _ => leave_hnd⟩
  · have h := retCase_of_collective hs hp hc
    exact ⟨h, leave_of_replay h⟩
  · have h := retCase_of_slot hs hp hc he
    exact ⟨h, leave_of_resume h⟩
  · have h := retCase_of_fresh hp hs
    exact ⟨h, leave_of_fresh h⟩

end Sys2Proof.Machine
end

section
/-! PROOFS. Floating-point words and collectives (06): words that round once and may raise flags (R122 to R134), the words beside them that raise none
(R125, R135), and the collectives without floating point (R136 to R140). -/

namespace Sys2Proof.Machine

/-! ### Words of the pipes FA, DP and SF -/

/-- The operand fields and the checks of a form, at a timing class. -/
def Form.atClass (w : Form) (cls : Nat) : Desc :=
  { c := w.c, q := w.q, acc := w.acc, h := w.h, srcs := w.srcs, dst := w.dst, always := w.always, cls := cls }

/-- A floating-point word completes with its result and its flags where none of the flags is enabled (R27, R122). -/
theorem fpWord_computes {i : Instr} {w : Form} {cls lat : Nat} {F : LaneIn → List (Tgt × Word × Word) × BitVec 5}
    (hx : ∀ s, exec i s = word (fpWord (w.atClass cls) lat F) s) : Computes i w F :=
  collects_of (F := fun _ _ _ _ => F) hx rfl rfl rfl rfl (fun _ _ _ _ _ => rfl) rfl (fun _ _ _ _ _ _ _ hfl => fpxOf_none hfl) fun _ _ _ _ => rfl

/-- A word of these pipes that raises no flag completes with its result (R125, R135). -/
theorem flaglessWord_computes {i : Instr} {w : Form} {cls lat : Nat} {F : LaneIn → List (Tgt × Word × Word) × BitVec 5}
    (hx : ∀ s, exec i s = word { w.atClass cls with act := fun _ => laneAct lat F } s) : Computes i w F :=
  collects_of (F := fun _ _ _ _ => F) hx rfl rfl rfl rfl (fun _ _ _ _ _ => rfl) rfl (fun _ _ _ _ _ _ _ _ => rfl) fun _ _ _ _ => rfl

/-! ### Words with two and three sources -/

/-- Each row of Tables 06.2, 06.4 and 06.6 with two sources rounds its exact result once, each half by itself where it is packed (R122, R127). -/
theorem floatRow_computes : ∀ r ∈ floatRows, ∀ f q, Computes (r.op f q) (formR f q r.acc r.w) fun l => fpWrites f.d r.w (halvesOut r.halves fun i =>
    fpOut r.fmt q (r.exact (r.fmt.val (fpA r.fmt q (elemOf r.halves (l.val 0) i))) (r.fmt.val (fpB r.fmt q (elemOf r.halves (l.val 1) i))))) := by
  simp only [floatRows, List.forall_mem_cons]
  refine ⟨?fadd, ?fsub, ?fmul, ?fmin, ?fmax, ?hadd2, ?hmul2, ?dadd, ?dmul, List.forall_mem_nil _⟩
  case dadd | dmul => exact fun _ _ => fpWord_computes (cls := 3) (lat := lat8) fun _ => rfl
  all_goals exact fun _ _ => fpWord_computes (cls := 1) (lat := lat6) fun _ => rfl

/-- Each fused multiply-add rounds once, its third source as it stands (R123, R127, R130). -/
theorem fmaRow_computes : ∀ r ∈ fmaRows, ∀ f q, Computes (r.1 f q) (formRt f q r.2.2.2.2 r.2.2.1) fun l => fpWrites f.d r.2.2.1 (halvesOut r.2.2.2.1 fun i =>
    fpOut r.2.1 q (exFma (r.2.1.val (fpA r.2.1 q (elemOf r.2.2.2.1 (l.val 0) i))) (r.2.1.val (fpB r.2.1 q (elemOf r.2.2.2.1 (l.val 1) i)))
      (r.2.1.val (elemOf r.2.2.2.1 (l.val 2) i)))) := by
  simp only [fmaRows, List.forall_mem_cons]
  refine ⟨?ffma, ?hfma2, ?bfma2, ?dfma, List.forall_mem_nil _⟩
  case dfma => exact fun _ _ => fpWord_computes (cls := 3) (lat := lat8) fun _ => rfl
  all_goals exact fun _ _ => fpWord_computes (cls := 1) (lat := lat6) fun _ => rfl

/-- Settles O4: every row is a floating-point word of pipe FA or DP. The flags are the rounding's, UF by the model's reading of tiny (log entry 18). -/
theorem floatWordsComplete : Obligations.FloatWordsComplete := ⟨floatRow_computes, fmaRow_computes⟩

/-! ### Conversions, compares and special functions -/

/-- Each row of Table 06.5 from one register to one register converts it. -/
theorem exec_convertRow : ∀ r ∈ convertRows, ∀ f q s, exec (r.1 f q) s = word (cvt f.c q f.d f.a f.m 1 lat6 1 1 r.2) s := by
  simp only [convertRows, List.forall_mem_cons]
  refine ⟨?_, ?_, ?_, ?_, ?_, ?_, ?_, ?_, ?_, ?_, ?_, ?_, List.forall_mem_nil _⟩
  all_goals exact fun _ _ _ => rfl

/-- A conversion delivers what its row makes of the source (R128, R129). -/
theorem convertRow_computes : ∀ r ∈ convertRows, ∀ f q,
    Computes (r.1 f q) (formCvt f.c q f.d f.a f.m 1 1) fun l => fpWrites f.d 1 (r.2 (l.val 0)) := by
  intro r hr f q
  exact fpWord_computes (cls := 1) (lat := lat6) (exec_convertRow r hr f q)

/-- Each row of Table 06.7 is the special function of its number. -/
theorem exec_specialRow : ∀ r ∈ specialRows, ∀ f q s, exec (r.1 f q) s = word (sfWord f q r.2) s := by
  simp only [specialRows, List.forall_mem_cons]
  refine ⟨?_, ?_, ?_, ?_, ?_, ?_, ?_, ?_, List.forall_mem_nil _⟩
  all_goals exact fun _ _ _ => rfl

/-- A special function is rounded once more after its scale (R133). -/
theorem specialRow_computes : ∀ r ∈ specialRows, ∀ f q,
    Computes (r.1 f q) { formCvt f.c q f.d f.a f.m 1 1 with acc := { negA := true, scl := true } } fun l =>
      let u := specialFn r.2 (BitVec.ofNat 32 (fpA fmt32 q (l.val 0)))
      fpWrites f.d 1 (fpOut fmt32 q { v := fmt32.val u.bits, fl := u.fl }) := by
  intro r hr f q
  exact fpWord_computes (cls := 2) (lat := lat12) (exec_specialRow r hr f q)

/-- `dmin` and `dmax` round their exact result once (R49, R131). -/
theorem dminRow_computes : ∀ r ∈ [((.dmin : FDmin → Option Modifier → Instr), exMin), (.dmax, exMax)], ∀ f q,
    Computes (r.1 f q) { c := f.c, q := q, acc := accWide, dst := some { f := pairField f.d, w := 2 }
                         srcs := [{ f := pairField f.a, w := 2 }, { f := pairField f.b, w := 2, cyc := 1 }] } fun l =>
      fpWrites (pairField f.d) 2 (fpOut fmt64 q (r.2 (fmt64.val (fpA fmt64 q (l.val 0))) (fmt64.val (fpB fmt64 q (l.val 1))))) := by
  simp only [List.forall_mem_cons]
  refine ⟨?_, ?_, List.forall_mem_nil _⟩
  all_goals exact fun _ _ => fpWord_computes (cls := 3) (lat := lat8) fun _ => rfl

theorem dsubf_computes (f : FDsubf) (q : Option Modifier) :
    Computes (.dsubf f q) { c := f.c, q := q, acc := accWide, dst := some { f := f.d }
                            srcs := [{ f := pairField f.a, w := 2 }, { f := pairField f.b, w := 2, cyc := 1 }] } fun l =>
      fpWrites f.d 1 (fpOut fmt32 q (exAdd (fmt64.val (fpA fmt64 q (l.val 0))) (fmt64.val (fpB fmt64 q (l.val 1))).neg)) :=
  fpWord_computes (cls := 3) (lat := lat8) fun _ => rfl

/-- A compare writes its predicate, and raises the flags of the comparison (R126). -/
theorem fcmp_computes (f : FP) (q : Option Modifier) : Computes (.fcmp f q) (formP f q { negA := true, negB := true, hb := true }) fun l =>
    let r := fcompare f.p (fmt32.val (fpA fmt32 q (l.val 0))) (fmt32.val (fpB fmt32 q (l.val 1)))
    (predOut f.k r.1, r.2) :=
  fpWord_computes (cls := 1) (lat := lat6) fun _ => rfl

/-- The same for binary64 (R131). -/
theorem dcmp_computes (f : FDcmp) (q : Option Modifier) :
    Computes (.dcmp f q) { c := f.c, q := q, acc := { negA := true, negB := true }
                           srcs := [{ f := pairField f.a, w := 2 }, { f := pairField f.b, w := 2, cyc := 1 }] } fun l =>
      let r := fcompare f.p (fmt64.val (fpA fmt64 q (l.val 0))) (fmt64.val (fpB fmt64 q (l.val 1)))
      (predOut f.k r.1, r.2) :=
  fpWord_computes (cls := 3) (lat := lat8) fun _ => rfl

theorem fclass_computes (f : FUn) (q : Option Modifier) : Computes (.fclass f q) (formUn f q) fun l => (resWrites f.d 1 (fclassMask (l.val 0)), 0) :=
  flaglessWord_computes (cls := 1) (lat := lat6) fun _ => rfl

theorem hmix_computes (f : FR) (q : Option Modifier) : Computes (.hmix f q) (formR f q accPlain 1) fun l =>
    (resWrites f.d 1 (hmixHash (BitVec.ofNat 32 (l.val 0)) (BitVec.ofNat 32 (l.val 1))).toNat, 0) :=
  flaglessWord_computes (cls := 1) (lat := lat6) fun _ => rfl

/-- Settles O5, one word at a time: `fclass` and `hmix` raise no flag, every other word is a floating-point word, whose flag UF follows log entry 18. -/
theorem conversionAndSpecialWordsComplete : Obligations.ConversionAndSpecialWordsComplete := by
  refine ⟨convertRow_computes, ?h2f, ?bf2f, ?e42f, ?e52f, ?d2f, ?f2d, ?d2i, ?i2d, fcmp_computes, fclass_computes,
    dsubf_computes, dminRow_computes, dcmp_computes, specialRow_computes, hmix_computes⟩
  case h2f | bf2f | e42f | e52f => exact fun _ _ => fpWord_computes (cls := 1) (lat := lat6) fun _ => rfl
  all_goals exact fun _ _ => fpWord_computes (cls := 3) (lat := lat8) fun _ => rfl

/-! ### Collectives -/

/-- A collective combines the guarded lanes and raises no flag (R136). -/
theorem collWord_collects {i : Instr} {c ill : Bool} {q : Option Modifier} {srcs : List Src} {dst : Option Dst}
    {F : List LaneIn → LaneIn → List (Tgt × Word × Word)} (hx : ∀ s, exec i s = word (collWord c q srcs dst ill F) s) (hill : ill = false) :
    Collects i (formColl c q srcs dst) fun _ _ _ ps l => (F ps l, 0) := by
  refine collects_of (lat := lat10) hx hill rfl rfl rfl (fun _ _ _ _ _ => rfl) rfl (fun _ _ _ _ _ _ _ _ => rfl) fun s k g vs => ?_
  rw [← ons_activeIn]
  rfl

/-- A destination from t0 on is no lane register (R14, R137). -/
theorem notPositionDst_false {d : Nat} (h : 112 ≤ d) : notPositionDst d = false := decide_eq_false (by omega)

/-- Settles O6, one word at a time; `ballot`, `gpos` and `gsize` have a legal destination in the temporaries and ZERO only. -/
theorem collectiveWordsComplete : Obligations.CollectiveWordsComplete := by
  refine ⟨?ballot, ?kgor, ?kgand, ?xferIdx, ?xferRot, ?xferSh, ?xferFlip, ?gredAdd, ?gredMin, ?gredMax, ?gscanAdd, ?gpos, ?gsize, ?gfirst⟩
  case ballot | gpos | gsize => exact fun _ _ hd => collWord_collects (fun _ => rfl) (notPositionDst_false hd)
  all_goals exact fun _ _ => collWord_collects (fun _ => rfl) rfl

end Sys2Proof.Machine
end

section
/-! PROOFS. Places (07 R152, 11 R245): what the L1, the homes and the monitors take from an action of the L1, and what such an action leaves alone. -/

namespace Sys2Proof.Machine

/-! ### Bytes -/

theorem readN_one (m : Mem) (a : Nat) : readN m a 1 = (byteAt m a).toNat := by
  simp [readN]

/-- A read depends on the bytes it reads. -/
theorem readN_congr {m m' : Mem} {a a' n : Nat} (h : ∀ i < n, byteAt m (a + i) = byteAt m' (a' + i)) : readN m a n = readN m' a' n := by
  induction n generalizing a a' with
  | zero => rfl
  | succ n ih =>
    have hrest := ih (a := a + 1) (a' := a' + 1) fun i hi => by
      simpa only [Nat.add_assoc, Nat.add_comm 1 i] using h (i + 1) (Nat.succ_lt_succ hi)
    have hfirst : byteAt m a = byteAt m' a' := h 0 (Nat.succ_pos n)
    rw [readN, readN, hrest, hfirst]

/-! ### Cores -/

/-- A change of one core shows in that core alone. -/
theorem core_onCore_eq (m : Mach) (col c : Nat) (f : Core → Core) (a b : Nat) :
    (m.onCore col c f).core a b = if col * 48 + c = a * 48 + b then f (m.core a b) else m.core a b := by
  split
  · next e =>
    have hkey (n : Mach) : n.core a b = n.core col c := by simp only [Mach.core, e]
    rw [hkey, hkey, core_onCore]
  · next e => exact core_onCore_ne m f e

/-! ### Steps of the L1 -/

/-- From `m` to `n` nothing has changed but the bytes at their homes, the monitors that see them (R170), none of which is new, and what the L1s hold. -/
structure Mach.CacheStep (m n : Mach) : Prop where
  rest : n = { m with dmem := n.dmem, hmem := n.hmem, monitors := n.monitors, cores := n.cores }
  core : ∀ a b, n.core a b = { m.core a b with l1 := (n.core a b).l1 }
  monitor : ∀ gid tid, m.monitor? gid tid = none → n.monitor? gid tid = none

namespace Mach.CacheStep

variable {m n o : Mach}

theorem refl (m : Mach) : m.CacheStep m := ⟨rfl, fun _ _ => rfl, fun _ _ h => h⟩

theorem trans (h : m.CacheStep n) (h' : n.CacheStep o) : m.CacheStep o where
  rest := by rw [h'.rest, h.rest]
  core a b := by rw [h'.core, h.core]
  monitor gid tid hm := h'.monitor gid tid (h.monitor gid tid hm)

theorem groups (h : m.CacheStep n) : n.groups = m.groups := by rw [h.rest]
theorem gangs (h : m.CacheStep n) : n.gangs = m.gangs := by rw [h.rest]
theorem smem (h : m.CacheStep n) : n.smem = m.smem := by rw [h.rest]
theorem tmem (h : m.CacheStep n) : n.tmem = m.tmem := by rw [h.rest]
theorem tlb (h : m.CacheStep n) : n.tlb = m.tlb := by rw [h.rest]
theorem slices (h : m.CacheStep n) : n.slices = m.slices := by rw [h.rest]
theorem module (h : m.CacheStep n) : n.module = m.module := by rw [h.rest]
theorem accs (h : m.CacheStep n) (a b : Nat) : (n.core a b).accs = (m.core a b).accs := by rw [h.core]

theorem onCore (m : Mach) (col c : Nat) {f : Core → Core} (hf : ∀ x, f x = { x with l1 := (f x).l1 }) : m.CacheStep (m.onCore col c f) where
  rest := rfl
  core a b := by
    rw [core_onCore_eq]
    split
    · exact hf _
    · rfl
  monitor _ _ h := h

theorem homeWrite (m : Mach) (pa n v : Nat) : m.CacheStep (m.homeWrite pa n v) := by
  unfold Mach.homeWrite
  split <;> exact ⟨rfl, fun _ _ => rfl, fun _ _ h => h⟩

theorem wakeMonitors (m : Mach) : m.CacheStep m.wakeMonitors where
  rest := rfl
  core _ _ := rfl
  monitor gid tid h := by
    simp only [Mach.monitor?, Mach.wakeMonitors, List.find?_eq_none, List.forall_mem_map] at h ⊢
    intro x hx
    split <;> exact h x hx

theorem store (m : Mach) (pa n v : Nat) : m.CacheStep (m.store pa n v) := (homeWrite m pa n v).trans (wakeMonitors _)

theorem foldl {α : Type} {f : Mach → α → Mach} (h : ∀ (m : Mach) x, m.CacheStep (f m x)) (xs : List α) (m : Mach) : m.CacheStep (xs.foldl f m) := by
  induction xs generalizing m with
  | nil => exact refl m
  | cons x xs ih => exact (h m x).trans (ih _)

theorem storeMasked (m : Mach) (pa : Nat) (src : Mem) (mask : BitVec 64) : m.CacheStep (m.storeMasked pa src mask) := by
  refine (foldl (fun m i => ?_) _ m).trans (wakeMonitors _)
  split
  · exact homeWrite _ _ _ _
  · exact refl _

theorem l1Back (m : Mach) (col c sec : Nat) : m.CacheStep (m.l1Back col c sec) := by
  unfold Mach.l1Back
  split
  · exact refl m
  · next x _ =>
    have hstored := storeMasked m (sec * 64) x.data x.dirty
    dsimp only
    split <;> exact hstored.trans (onCore _ _ _ fun _ => rfl)

theorem l1BackAll (m : Mach) (col c : Nat) : m.CacheStep (m.l1BackAll col c) := foldl (fun _ _ => l1Back _ _ _ _) _ _

theorem l1Drop (m : Mach) (col c sec : Nat) : m.CacheStep (m.l1Drop col c sec) := (l1Back _ _ _ _).trans (onCore _ _ _ fun _ => rfl)

theorem l1Inv (m : Mach) (col c : Nat) : m.CacheStep (m.l1Inv col c) := (l1BackAll _ _ _).trans (onCore _ _ _ fun _ => rfl)

theorem l1Fill (m : Mach) (col c pa : Nat) : m.CacheStep (m.l1Fill col c pa) := by
  unfold Mach.l1Fill
  dsimp only
  split
  · split
    · exact refl m
    · exact onCore _ _ _ fun _ => rfl
  · exact onCore _ _ _ fun _ => rfl

theorem l1Write (m : Mach) (col c pa n v : Nat) : m.CacheStep (m.l1Write col c pa n v) := by
  unfold Mach.l1Write
  exact onCore _ _ _ fun _ => rfl

theorem l1Room (m : Mach) (col c pa : Nat) : m.CacheStep (m.l1Room col c pa) := by
  unfold Mach.l1Room
  dsimp only
  split
  · exact refl m
  · split
    · exact (l1Drop _ _ _ _).trans (l1Drop _ _ _ _)
    · exact refl m

theorem doGlob (m : Mach) (col c pa size val : Nat) (home : Bool) : m.CacheStep (m.doGlob col c pa size val home) := by
  unfold Mach.doGlob
  split
  · exact (l1Drop _ _ _ _).trans (store _ _ _ _)
  · exact (l1Room _ _ _ _).trans (l1Write _ _ _ _ _ _)

theorem releaseAt (m : Mach) (g : Group) (ord scope : Nat) : m.CacheStep (m.releaseAt g ord scope) := by
  unfold Mach.releaseAt
  split
  · exact l1BackAll _ _ _
  · exact refl m

theorem acquireAt (m : Mach) (g : Group) (ord scope : Nat) : m.CacheStep (m.acquireAt g ord scope) := by
  unfold Mach.acquireAt
  split
  · exact l1Inv _ _ _
  · exact refl m

end Mach.CacheStep

/-- A read through the L1 fills a sector or changes nothing. -/
theorem l1Read_fst (m : Mach) (col c pa n : Nat) : (m.l1Read col c pa n).1 = if (m.core col c).hits pa n then m else m.l1Fill col c pa := by
  unfold Mach.l1Read
  dsimp only
  split <;> rfl

theorem Mach.CacheStep.l1Read (m : Mach) (col c pa n : Nat) : m.CacheStep (m.l1Read col c pa n).1 := by
  rw [l1Read_fst]
  split
  · exact .refl m
  · exact .l1Fill _ _ _ _

/-! ### Bytes at their homes -/

/-- A read at a home depends on the device's and the host's bytes alone. -/
theorem homeRead_of_mem {m n : Mach} (hd : n.dmem = m.dmem) (hh : n.hmem = m.hmem) (hm : n.module = m.module) (pa k : Nat) :
    n.homeRead pa k = m.homeRead pa k := by
  simp only [Mach.homeRead, Mach.devKey, hd, hh, hm]

theorem homeRead_wakeMonitors (m : Mach) (pa k : Nat) : m.wakeMonitors.homeRead pa k = m.homeRead pa k := rfl

theorem homeRead_onCore (m : Mach) (col c : Nat) (f : Core → Core) (pa k : Nat) : (m.onCore col c f).homeRead pa k = m.homeRead pa k := rfl

/-- One byte after a write of one byte. -/
theorem homeRead_homeWrite_byte (m : Mach) (a v b : Nat) : (m.homeWrite a 1 v).homeRead b 1 = if a = b then v % 256 else m.homeRead b 1 := by
  split
  · next e =>
    subst e
    have h := homeRead_store m a 1 v
    rwa [Nat.pow_one] at h
  · exact homeRead_homeWrite_out m a 1 v (by omega) (by omega) (by omega) (by omega)

/-- What a read of several bytes of one sector finds is what reads of each of them find. -/
theorem homeRead_bytes {m n : Mach} {pa k : Nat} (hk : pa % 64 + k ≤ 64) (h : ∀ i < k, m.homeRead (pa + i) 1 = n.homeRead (pa + i) 1) :
    m.homeRead pa k = n.homeRead pa k := by
  have hbyte : ∀ i < k, (if pa < hostBase then byteAt m.dmem (m.devKey pa + i) else byteAt m.hmem (pa - hostBase + i))
      = if pa < hostBase then byteAt n.dmem (n.devKey pa + i) else byteAt n.hmem (pa - hostBase + i) := by
    intro i hi
    have hi' := h i hi
    have hhost : (pa + i < hostBase) ↔ pa < hostBase := by unfold hostBase; omega
    have hkey (x : Mach) : x.devKey (pa + i) = x.devKey pa + i := by
      have hmod : (pa + i) / 2 ^ 42 = pa / 2 ^ 42 := by omega
      simp only [Mach.devKey, hmod]
      split <;> omega
    simp only [Mach.homeRead, hhost, hkey, readN_one] at hi'
    split at hi'
    · next hp => rw [if_pos hp, if_pos hp]; exact BitVec.eq_of_toNat_eq hi'
    · next hp =>
      rw [if_neg hp, if_neg hp]
      have he : pa + i - hostBase = pa - hostBase + i := by omega
      rw [he] at hi'
      exact BitVec.eq_of_toNat_eq hi'
  simp only [Mach.homeRead]
  split
  · next hp => exact readN_congr fun i hi => by simpa only [if_pos hp] using hbyte i hi
  · next hp => exact readN_congr fun i hi => by simpa only [if_neg hp] using hbyte i hi

/-- One byte after the masked bytes of a sector have gone home. -/
theorem homeRead_storeMasked (m : Mach) (sec : Nat) (src : Mem) (mask : BitVec 64) (b : Nat) :
    (m.storeMasked (sec * 64) src mask).homeRead b 1
      = if b / 64 = sec ∧ mask.getLsbD (b % 64) = true then (byteAt src (b % 64)).toNat else m.homeRead b 1 := by
  have key : ∀ n ≤ 64, ((List.range n).foldl (fun m i => if mask.getLsbD i then m.homeWrite (sec * 64 + i) 1 (byteAt src i).toNat else m) m).homeRead b 1
      = if b / 64 = sec ∧ b % 64 < n ∧ mask.getLsbD (b % 64) = true then (byteAt src (b % 64)).toNat else m.homeRead b 1 := by
    intro n
    induction n with
    | zero => simp
    | succ n ih =>
      intro hn
      have ih := ih (by omega)
      rw [List.range_succ, List.foldl_append, List.foldl_cons, List.foldl_nil]
      by_cases hb : b / 64 = sec ∧ b % 64 = n
      · obtain ⟨hsec, hoff⟩ := hb
        have hadr : sec * 64 + n = b := by omega
        split
        · next hbit =>
          rw [homeRead_homeWrite_byte, if_pos hadr, if_pos ⟨hsec, by omega, by rw [hoff]; exact hbit⟩, hoff,
            Nat.mod_eq_of_lt (byteAt src n).isLt]
        · next hbit => rw [ih, if_neg (by omega), if_neg fun h => hbit (hoff ▸ h.2.2)]
      · have hstep : (b / 64 = sec ∧ b % 64 < n + 1 ∧ mask.getLsbD (b % 64) = true) ↔ (b / 64 = sec ∧ b % 64 < n ∧ mask.getLsbD (b % 64) = true) := by
          refine ⟨fun ⟨h1, h2, h3⟩ => ⟨h1, ?_, h3⟩, fun ⟨h1, h2, h3⟩ => ⟨h1, by omega, h3⟩⟩
          have : b % 64 ≠ n := fun e => hb ⟨h1, e⟩
          omega
        simp only [hstep]
        split
        · rw [homeRead_homeWrite_byte, if_neg (by omega), ih]
        · exact ih
  rw [Mach.storeMasked, homeRead_wakeMonitors, key 64 (Nat.le_refl _)]
  simp only [Nat.mod_lt b (show 0 < 64 by decide), true_and]

/-! ### Sectors -/

theorem sector?_sec {c : Core} {pa : Nat} {x : Sector} (h : c.sector? pa = some x) : x.sec = pa / 64 := by
  simpa using List.find?_some h

theorem sector?_putSector (c : Core) (x : Sector) (pa : Nat) : (c.putSector x).sector? pa = if x.sec = pa / 64 then some x else c.sector? pa := by
  simp only [Core.sector?, Core.putSector, List.find?_cons]
  split
  · next e => rw [if_pos (by simpa using e)]
  · next e =>
    have hne : x.sec ≠ pa / 64 := by simpa using e
    rw [if_neg hne, List.find?_filter]
    congr 1
    funext y
    by_cases h : y.sec = pa / 64 <;> simp [h, Ne.symm hne]

/-- A sector that leaves an L1. -/
theorem sector?_without (c : Core) (sec pa : Nat) :
    ({ c with l1 := c.l1.filter fun x => x.sec != sec } : Core).sector? pa = if pa / 64 = sec then none else c.sector? pa := by
  simp only [Core.sector?, List.find?_filter]
  split
  · next e => simp [e]
  · next e =>
    congr 1
    funext y
    by_cases h : y.sec = pa / 64 <;> simp [h, e]

end Sys2Proof.Machine
end

section
/-! PROOFS. The L1 (07 R152): what a relaxed read of a byte finds, filled or not, and what a store leaves of it. -/

namespace Sys2Proof.Machine

/-! ### Bytes through the L1 -/

/-- The byte that a relaxed read finds: the L1's where its sector is filled or the byte is dirty, else the home's (R152). -/
def Mach.l1Byte (m : Mach) (col c b : Nat) : Byte :=
  match (m.core col c).sector? b with
  | some x => if x.filled || x.dirty.getLsbD (b % 64) then byteAt x.data (b % 64) else BitVec.ofNat 8 (m.homeRead b 1)
  | none => BitVec.ofNat 8 (m.homeRead b 1)

theorem l1Byte_some {m : Mach} {col c b : Nat} {x : Sector} (h : (m.core col c).sector? b = some x) :
    m.l1Byte col c b = if x.filled || x.dirty.getLsbD (b % 64) then byteAt x.data (b % 64) else BitVec.ofNat 8 (m.homeRead b 1) := by
  simp only [Mach.l1Byte, h]

theorem l1Byte_none {m : Mach} {col c b : Nat} (h : (m.core col c).sector? b = none) : m.l1Byte col c b = BitVec.ofNat 8 (m.homeRead b 1) := by
  simp only [Mach.l1Byte, h]

/-- Bytes of one sector are looked up alike. -/
theorem sector?_congr (c : Core) {a b : Nat} (h : a / 64 = b / 64) : c.sector? a = c.sector? b := by
  simp only [Core.sector?, h]

/-- Bytes set one by one, but those that stay. -/
theorem byteAt_foldl_setByte (stay : Nat → Bool) (src : Nat → Byte) (d : Mem) (n j : Nat) :
    byteAt ((List.range n).foldl (fun d i => if stay i then d else setByte d i (src i)) d) j = if j < n ∧ stay j = false then src j else byteAt d j := by
  induction n with
  | zero => simp
  | succ n ih =>
    rw [List.range_succ, List.foldl_append, List.foldl_cons, List.foldl_nil]
    by_cases hj : j = n
    · subst hj
      cases hs : stay j with
      | true => simp [ih, hs]
      | false => simp
    · have hlt : j < n + 1 ↔ j < n := by omega
      simp only [hlt, ← ih]
      split
      · rfl
      · exact byteAt_setByte_ne _ (Ne.symm hj) _

/-- After a fill the L1 holds the sector, with every byte as a read found it before. -/
theorem sector?_l1Fill (m : Mach) (col c pa : Nat) : ∃ x, ((m.l1Fill col c pa).core col c).sector? pa = some x
    ∧ ∀ j < 64, byteAt x.data j = m.l1Byte col c (pa / 64 * 64 + j) := by
  have hsame (j : Nat) (hj : j < 64) : (m.core col c).sector? (pa / 64 * 64 + j) = (m.core col c).sector? pa := sector?_congr _ (by omega)
  have hmod (j : Nat) (hj : j < 64) : (pa / 64 * 64 + j) % 64 = j := by omega
  unfold Mach.l1Fill
  dsimp only
  split
  · next x hx =>
    have hsec := sector?_sec hx
    have hbyte (j : Nat) (hj : j < 64) := l1Byte_some ((hsame j hj).trans hx)
    split
    · next hf => exact ⟨x, hx, fun j hj => by rw [hbyte j hj, hf, hmod j hj]; rfl⟩
    · next hf =>
      refine ⟨_, by rw [core_onCore, sector?_putSector]; exact if_pos hsec, fun j hj => ?_⟩
      have hfilled : x.filled = false := by simpa using hf
      rw [hbyte j hj, hmod j hj, hfilled]
      refine (byteAt_foldl_setByte x.dirty.getLsbD (fun i => BitVec.ofNat 8 (m.homeRead (pa / 64 * 64 + i) 1)) x.data 64 j).trans ?_
      cases x.dirty.getLsbD j <;> simp [hj]
  · next hx =>
    refine ⟨_, by rw [core_onCore, sector?_putSector]; exact if_pos rfl, fun j hj => ?_⟩
    rw [l1Byte_none ((hsame j hj).trans hx)]
    have h := byteAt_foldl_setByte (fun _ => false) (fun i => BitVec.ofNat 8 (m.homeRead (pa / 64 * 64 + i) 1)) [] 64 j
    simpa only [Bool.false_eq_true, if_false, hj, true_and, if_true] using h

/-- A read through the L1 within a sector finds what reads of its bytes find. -/
theorem l1Read_bytes (m : Mach) (col c : Nat) {b k : Nat} (hk : b % 64 + k ≤ 64) :
    ∃ d : Mem, (m.l1Read col c b k).2 = readN d (b % 64) k ∧ ∀ i < k, byteAt d (b % 64 + i) = m.l1Byte col c (b + i) := by
  cases hh : (m.core col c).hits b k with
  | true =>
    cases hx : (m.core col c).sector? b with
    | none => simp [Core.hits, hx] at hh
    | some x =>
      refine ⟨x.data, by simp [Mach.l1Read, hh, hx], fun i hi => ?_⟩
      have hsome : (m.core col c).sector? (b + i) = some x := (sector?_congr _ (by omega)).trans hx
      have hmod : (b + i) % 64 = b % 64 + i := by omega
      have hhit : (x.filled || x.dirty.getLsbD (b % 64 + i)) = true := by
        simp only [Core.hits, hx, maskCovers, Bool.or_eq_true, List.all_eq_true, List.mem_range] at hh ⊢
        exact hh.imp_right fun h => h i hi
      rw [l1Byte_some hsome, hmod, hhit, if_pos rfl]
  | false =>
    obtain ⟨x, hx, hbytes⟩ := sector?_l1Fill m col c b
    refine ⟨x.data, by simp [Mach.l1Read, hh, hx], fun i hi => ?_⟩
    rw [hbytes _ (by omega)]
    congr 1
    omega

/-- Reads through two L1s that find the same bytes find the same. -/
theorem l1Read_congr {m n : Mach} {col c b k : Nat} (hk : b % 64 + k ≤ 64) (h : ∀ i < k, m.l1Byte col c (b + i) = n.l1Byte col c (b + i)) :
    (m.l1Read col c b k).2 = (n.l1Read col c b k).2 := by
  obtain ⟨d, hd, hbytes⟩ := l1Read_bytes m col c hk
  obtain ⟨e, he, hbytes'⟩ := l1Read_bytes n col c hk
  rw [hd, he]
  exact readN_congr fun i hi => by rw [hbytes i hi, hbytes' i hi, h i hi]

/-! ### Stores in the L1 -/

/-- The dirty bits that a store of `n` bytes at offset `o` of a sector sets. -/
theorem storeMask_getLsbD (o n : Nat) {j : Nat} (hj : j < 64) :
    (BitVec.ofNat 64 ((2 ^ n - 1) * 2 ^ o)).getLsbD j = decide (o ≤ j ∧ j < o + n) := by
  rw [BitVec.getLsbD_ofNat, Nat.testBit_mul_two_pow, Nat.testBit_two_pow_sub_one, decide_eq_true hj, Bool.true_and, ← Bool.decide_and]
  refine decide_eq_decide.2 ?_
  omega

/-- The sector that a store finds in the L1; where there is none it starts one, not fetched and clean (R152). -/
def Mach.openSector (m : Mach) (col c pa : Nat) : Sector :=
  ((m.core col c).sector? pa).getD { sec := pa / 64, filled := false, data := [], dirty := 0, fillAt := m.etime, dirtyAt := m.etime }

/-- The sector after the store. -/
def Mach.storedSector (m : Mach) (col c pa n v : Nat) : Sector :=
  { m.openSector col c pa with
    data := writeN (m.openSector col c pa).data (pa % 64) n v
    dirty := (m.openSector col c pa).dirty ||| BitVec.ofNat 64 ((2 ^ n - 1) * 2 ^ (pa % 64))
    dirtyAt := if (m.openSector col c pa).dirty = 0 then m.etime else (m.openSector col c pa).dirtyAt }

theorem openSector_sec (m : Mach) (col c pa : Nat) : (m.openSector col c pa).sec = pa / 64 := by
  unfold Mach.openSector
  cases h : (m.core col c).sector? pa with
  | none => rfl
  | some x => exact sector?_sec h

theorem storedSector_sec (m : Mach) (col c pa n v : Nat) : (m.storedSector col c pa n v).sec = pa / 64 := openSector_sec m col c pa

theorem storedSector_dirty (m : Mach) (col c pa n v : Nat) {j : Nat} (hj : j < 64) :
    (m.storedSector col c pa n v).dirty.getLsbD j = ((m.openSector col c pa).dirty.getLsbD j || decide (pa % 64 ≤ j ∧ j < pa % 64 + n)) := by
  rw [← storeMask_getLsbD (pa % 64) n hj]
  exact BitVec.getLsbD_or

theorem core_l1Write (m : Mach) (col c pa n v : Nat) :
    (m.l1Write col c pa n v).core col c = (m.core col c).putSector (m.storedSector col c pa n v) := by
  unfold Mach.l1Write Mach.storedSector Mach.openSector
  rw [core_onCore]
  cases (m.core col c).sector? pa <;> rfl

theorem sector?_l1Write (m : Mach) (col c pa n v b : Nat) : ((m.l1Write col c pa n v).core col c).sector? b
    = if pa / 64 = b / 64 then some (m.storedSector col c pa n v) else (m.core col c).sector? b := by
  rw [core_l1Write, sector?_putSector, storedSector_sec]

/-- What a read found before is what the sector that a store finds or starts, and its home, say. -/
theorem l1Byte_openSector (m : Mach) (col c : Nat) {pa b : Nat} (h : pa / 64 = b / 64) : m.l1Byte col c b =
    if (m.openSector col c pa).filled || (m.openSector col c pa).dirty.getLsbD (b % 64) then byteAt (m.openSector col c pa).data (b % 64)
    else BitVec.ofNat 8 (m.homeRead b 1) := by
  have hb := sector?_congr (m.core col c) h
  unfold Mach.openSector
  cases hx : (m.core col c).sector? pa with
  | none => exact (l1Byte_none (hb.symm.trans hx)).trans (by simp)
  | some x => exact l1Byte_some (hb.symm.trans hx)

/-- A byte that a store has written. -/
theorem l1Byte_l1Write_in (m : Mach) (col c : Nat) {pa n i : Nat} (v : Nat) (hn : pa % 64 + n ≤ 64) (hi : i < n) :
    (m.l1Write col c pa n v).l1Byte col c (pa + i) = BitVec.ofNat 8 (v / 256 ^ i) := by
  have hsec : pa / 64 = (pa + i) / 64 := by omega
  have hmod : (pa + i) % 64 = pa % 64 + i := by omega
  have hsome := sector?_l1Write m col c pa n v (pa + i)
  rw [if_pos hsec] at hsome
  have hdirty : (m.storedSector col c pa n v).dirty.getLsbD (pa % 64 + i) = true := by
    rw [storedSector_dirty m col c pa n v (by omega), decide_eq_true (by omega), Bool.or_true]
  rw [l1Byte_some hsome, hmod, hdirty, Bool.or_true, if_pos rfl]
  exact byteAt_writeN_in _ _ _ _ _ hi

/-- A byte that a store has not written. -/
theorem l1Byte_l1Write_out (m : Mach) (col c : Nat) {pa n b : Nat} (v : Nat) (hb : b < pa ∨ pa + n ≤ b) :
    (m.l1Write col c pa n v).l1Byte col c b = m.l1Byte col c b := by
  have hlook := sector?_l1Write m col c pa n v b
  by_cases hsec : pa / 64 = b / 64
  · rw [if_pos hsec] at hlook
    have hdirty : (m.storedSector col c pa n v).dirty.getLsbD (b % 64) = (m.openSector col c pa).dirty.getLsbD (b % 64) := by
      rw [storedSector_dirty m col c pa n v (by omega), decide_eq_false (by omega), Bool.or_false]
    have hdata : byteAt (m.storedSector col c pa n v).data (b % 64) = byteAt (m.openSector col c pa).data (b % 64) :=
      byteAt_writeN_out _ _ _ _ (by omega)
    rw [l1Byte_some hlook, hdirty, hdata, l1Byte_openSector m col c hsec]
    rfl
  · rw [if_neg hsec] at hlook
    unfold Mach.l1Byte
    rw [hlook]
    rfl

/-- Settles O34: the bytes of a store read back, and a read of others finds the bytes it found, whether a fill precedes it or not. -/
theorem cachedBytesReadBack : Obligations.CachedBytesReadBack := by
  intro m col c pa n v _ _ hn
  refine ⟨?_, fun b k _ hk hout => l1Read_congr hk fun i hi => l1Byte_l1Write_out m col c v (by omega)⟩
  obtain ⟨d, hd, hbytes⟩ := l1Read_bytes (m.l1Write col c pa n v) col c hn
  rw [hd, ← readN_writeN d (pa % 64) n v]
  exact readN_congr fun i hi => by rw [hbytes i hi, l1Byte_l1Write_in m col c v hn hi, byteAt_writeN_in _ _ _ _ _ hi]

end Sys2Proof.Machine
end

section
/-! PROOFS. What units do by time: sectors of the L1 age (07 R152), results of fixed latency land (03 R77), monitors are polled (07 R170). -/

namespace Sys2Proof.Machine

/-! ### Write-back and invalidation of a sector -/

/-- A byte at its home after the write-back of a sector: what the sector holds dirty has gone home. -/
theorem homeRead_l1Back {m : Mach} {col c sec : Nat} {x : Sector} (hx : (m.core col c).sector? (sec * 64) = some x) (b : Nat) :
    (m.l1Back col c sec).homeRead b 1
      = if b / 64 = sec ∧ x.dirty.getLsbD (b % 64) = true then (byteAt x.data (b % 64)).toNat else m.homeRead b 1 := by
  rw [← homeRead_storeMasked]
  simp only [Mach.l1Back, hx]
  split <;> exact homeRead_onCore _ _ _ _ _ _

theorem homeRead_l1Back_dirty {m : Mach} {col c sec : Nat} {x : Sector} (hx : (m.core col c).sector? (sec * 64) = some x) {i : Nat} (hi : i < 64)
    (hd : x.dirty.getLsbD i = true) : (m.l1Back col c sec).homeRead (sec * 64 + i) 1 = (byteAt x.data i).toNat := by
  have hsec : (sec * 64 + i) / 64 = sec := by omega
  have hoff : (sec * 64 + i) % 64 = i := by omega
  rw [homeRead_l1Back hx, hsec, hoff, if_pos ⟨rfl, hd⟩]

/-- A filled sector stays in the L1 clean (R152). -/
theorem l1Back_clean {m : Mach} {col c sec : Nat} {x : Sector} (hx : (m.core col c).sector? (sec * 64) = some x) (hf : x.filled = true) :
    ∀ y ∈ ((m.l1Back col c sec).core col c).l1, y.sec = x.sec → y.dirty = 0 := by
  simp only [Mach.l1Back, hx, hf, if_true, core_onCore, Core.putSector, List.forall_mem_cons, List.mem_filter]
  refine ⟨fun _ => trivial, fun y hy hs => ?_⟩
  simp [hs] at hy

theorem l1Drop_gone (m : Mach) (col c sec : Nat) : ∀ y ∈ ((m.l1Drop col c sec).core col c).l1, y.sec ≠ sec := by
  intro y hy
  rw [Mach.l1Drop, core_onCore] at hy
  simpa using (List.mem_filter.1 hy).2

theorem l1AgeWriteback_done (s : State) (col core idx : Nat) (x : Sector) (hidx : (s.m.core col core).l1[idx]? = some x)
    (hx : (s.m.core col core).sector? (x.sec * 64) = some x) :
    ∃ t, exec (.l1AgeWriteback col core idx) s = .next t
      ∧ (∀ i < 64, x.dirty.getLsbD i = true → t.m.homeRead (x.sec * 64 + i) 1 = (byteAt x.data i).toNat)
      ∧ (x.filled = true → ∀ y ∈ (t.m.core col core).l1, y.sec = x.sec → y.dirty = 0) ∧ t.m.smem = s.m.smem ∧ t.m.tmem = s.m.tmem := by
  have hstep := Mach.CacheStep.l1Back s.m col core x.sec
  have hexec : exec (.l1AgeWriteback col core idx) s = .next { s with m := s.m.l1Back col core x.sec } := by
    show execL1AgeWriteback col core idx s = _
    simp only [execL1AgeWriteback, onMach, hidx]
  exact ⟨_, hexec, fun i hi hd => homeRead_l1Back_dirty hx hi hd, l1Back_clean hx, hstep.smem, hstep.tmem⟩

theorem l1AgeInvalidate_done (s : State) (col core idx : Nat) (x : Sector) (hidx : (s.m.core col core).l1[idx]? = some x)
    (hx : (s.m.core col core).sector? (x.sec * 64) = some x) :
    ∃ t, exec (.l1AgeInvalidate col core idx) s = .next t
      ∧ (∀ i < 64, x.dirty.getLsbD i = true → t.m.homeRead (x.sec * 64 + i) 1 = (byteAt x.data i).toNat)
      ∧ (∀ y ∈ (t.m.core col core).l1, y.sec ≠ x.sec) ∧ t.m.smem = s.m.smem ∧ t.m.tmem = s.m.tmem := by
  have hstep := Mach.CacheStep.l1Drop s.m col core x.sec
  have hexec : exec (.l1AgeInvalidate col core idx) s = .next { s with m := s.m.l1Drop col core x.sec } := by
    show execL1AgeInvalidate col core idx s = _
    simp only [execL1AgeInvalidate, onMach, hidx]
  refine ⟨_, hexec, fun i hi hd => ?_, l1Drop_gone s.m col core x.sec, hstep.smem, hstep.tmem⟩
  exact (homeRead_onCore _ _ _ _ _ _).trans (homeRead_l1Back_dirty hx hi hd)

/-! ### Landing -/

theorem Group.foldl_applyUni_keeps (ws : List PWrite) (g : Group) : ws.foldl Group.applyUni g = { g with s := (ws.foldl Group.applyUni g).s } := by
  induction ws generalizing g with
  | nil => rfl
  | cons w ws ih =>
    have hw : g.applyUni w = { g with s := (g.applyUni w).s } := by
      unfold Group.applyUni
      split <;> rfl
    rw [List.foldl_cons, ih, hw]

/-- The uniform writes that have not landed by a cycle are those due later. -/
theorem Group.landUni_keeps (g : Group) (now : Nat) :
    g.landUni now = { g with s := (g.landUni now).s, spend := g.spend.filter fun w => !decide (w.due ≤ now) } :=
  Group.foldl_applyUni_keeps _ _

/-- A group of a core whose results land (R77). -/
def Group.landed (now : Nat) (g : Group) : Group := { g.landUni now with threads := g.threads.map fun t => { t with c := t.c.landBy now } }

theorem Group.landUni_gid (now : Nat) (g : Group) : (g.landUni now).gid = g.gid := by
  rw [Group.landUni_keeps]

theorem landResults_group? {m : Mach} {col core i : Nat} {g : Group} (hg : m.group? i = some g) (hcol : g.column = col) (hcore : g.core = core)
    (hst : g.stage = .resident) : (landResults col core m).group? i = some (g.landed (m.core col core).clk) := by
  have hmap : (landResults col core m).group? i = (m.group? i).map fun g =>
      if g.column == col && g.core == core && g.stage == .resident then g.landed (m.core col core).clk else g :=
    find_map _ _ _ fun x => by split <;> simp [Group.landUni_gid]
  subst hcol hcore
  simp [hmap, hg, hst]

theorem resultLanding_done (s : State) (col core i : Nat) (g : Group) (hg : s.m.group? i = some g) (hcol : g.column = col) (hcore : g.core = core)
    (hst : g.stage = .resident) : ∃ t, exec (.resultLanding col core) s = .next t
      ∧ (∀ n x, g.thread? n = some x → t.m.thread? i n = some { x with c := x.c.landBy (s.m.core col core).clk })
      ∧ (∃ g', t.m.group? i = some g' ∧ ∀ w ∈ g'.spend, (s.m.core col core).clk < w.due) := by
  have hgroup := landResults_group? hg hcol hcore hst
  refine ⟨_, rfl, fun n x hx => ?_, _, hgroup, fun w hw => ?_⟩
  · have hthread := thread?_of g (g.landed (s.m.core col core).clk) (fun t => { t with c := t.c.landBy (s.m.core col core).clk }) n (fun _ => rfl) rfl
    show (landResults col core s.m).thread? i n = _
    rw [Mach.thread?, hgroup, Option.bind_some, hthread, hx]
    rfl
  · rw [Group.landed, Group.landUni_keeps] at hw
    simpa using (List.mem_filter.1 hw).2

/-! ### Polling -/

theorem waitcRepoll_done (s : State) (gid : Nat) : ∃ t, exec (.waitcRepoll gid) s = .next t ∧ t.m.monitors = s.m.monitors.map fun x =>
    if x.gid = gid ∧ x.armed = false ∧ x.lastPoll + 4000000 ≤ s.m.etime then
      { x with lastPoll := s.m.etime, met := x.met || waitcHolds x.cond (BitVec.ofNat 32 (s.m.homeRead x.pa 4)) x.b } else x := by
  refine ⟨_, rfl, List.map_congr_left fun x _ => ?_⟩
  simp only [Bool.and_eq_true, beq_iff_eq, Bool.not_eq_true', decide_eq_true_eq, and_assoc]

/-- Settles O36: one event at a time. -/
theorem sectorsAgeAndResultsLand : Obligations.SectorsAgeAndResultsLand :=
  ⟨fun s col core idx x hidx hx _ _ => l1AgeWriteback_done s col core idx x hidx hx,
    fun s col core idx x hidx hx _ _ _ => l1AgeInvalidate_done s col core idx x hidx hx,
    resultLanding_done, waitcRepoll_done⟩

end Sys2Proof.Machine
end

section
/-! PROOFS. Accesses performed (07 R149, R152, R157, R159; 11 R245, Table 11.1): which access is performed when, what its thread takes, and which bytes
change. -/

namespace Sys2Proof.Machine

/-! ### What leaves every byte as it was -/

theorem SameMemory.refl (m : Mach) : SameMemory m m := ⟨rfl, rfl, rfl, rfl, rfl⟩

theorem SameMemory.trans {m n o : Mach} (h : SameMemory m n) (h' : SameMemory n o) : SameMemory m o := by
  obtain ⟨hd, hh, hs, ht, hf⟩ := h
  obtain ⟨hd', hh', hs', ht', hf'⟩ := h'
  exact ⟨hd'.trans hd, hh'.trans hh, hs'.trans hs, ht'.trans ht, hf'.trans hf⟩

/-- From `m` to `n` no byte of a memory and no sector of an L1 has changed. -/
structure Mach.SameBytes (m n : Mach) : Prop where
  mem : SameMemory m n
  module : n.module = m.module
  l1 : ∀ a b, (n.core a b).l1 = (m.core a b).l1

namespace Mach.SameBytes

variable {m n o : Mach}

theorem refl (m : Mach) : m.SameBytes m := ⟨.refl m, rfl, fun _ _ => rfl⟩

theorem trans (h : m.SameBytes n) (h' : n.SameBytes o) : m.SameBytes o :=
  ⟨h.mem.trans h'.mem, h'.module.trans h.module, fun a b => (h'.l1 a b).trans (h.l1 a b)⟩

theorem dmem (h : m.SameBytes n) : n.dmem = m.dmem := h.mem.1
theorem hmem (h : m.SameBytes n) : n.hmem = m.hmem := h.mem.2.1
theorem smem (h : m.SameBytes n) : n.smem = m.smem := h.mem.2.2.1
theorem tmem (h : m.SameBytes n) : n.tmem = m.tmem := h.mem.2.2.2.1

theorem homeRead (h : m.SameBytes n) (pa k : Nat) : n.homeRead pa k = m.homeRead pa k := homeRead_of_mem h.dmem h.hmem h.module pa k

theorem onCore (m : Mach) (col c : Nat) {f : Core → Core} (hf : ∀ x, (f x).l1 = x.l1) : m.SameBytes (m.onCore col c f) := by
  refine ⟨⟨rfl, rfl, rfl, rfl, rfl⟩, rfl, fun a b => ?_⟩
  rw [core_onCore_eq]
  split
  · exact hf _
  · rfl

theorem dropAcc (m : Mach) (col core idx : Nat) : m.SameBytes (m.dropAcc col core idx) := onCore _ _ _ fun _ => rfl

theorem answer (m : Mach) (g : Group) (a : Acc) (v : Nat) : m.SameBytes (m.answer g a v) := by
  unfold Mach.answer
  split
  · exact onCore _ _ _ fun _ => rfl
  · exact ⟨⟨rfl, rfl, rfl, rfl, rfl⟩, rfl, fun _ _ => rfl⟩

end Mach.SameBytes

/-- Rebuilds are counted, and nothing else (R353). -/
theorem rebuilds_keeps (m : Mach) (col tower off n : Nat) : m.rebuilds col tower off n = { m with tele := (m.rebuilds col tower off n).tele } := by
  refine foldl_keeps (fun x => x = { m with tele := x.tele }) rfl fun x b hx => ?_
  split
  · rw [count_keeps, hx]
  · exact hx

theorem Mach.SameBytes.rebuilds (m : Mach) (col tower off n : Nat) : m.SameBytes (m.rebuilds col tower off n) := by
  rw [rebuilds_keeps]
  exact ⟨⟨rfl, rfl, rfl, rfl, rfl⟩, rfl, fun _ _ => rfl⟩

theorem rebuilds_groups (m : Mach) (col tower off n : Nat) : (m.rebuilds col tower off n).groups = m.groups := by rw [rebuilds_keeps]

theorem rebuilds_gangs (m : Mach) (col tower off n : Nat) : (m.rebuilds col tower off n).gangs = m.gangs := by rw [rebuilds_keeps]

/-- The threads of a group in an episode that meets a test (R236). -/
def Group.testers (g : Group) (test : Episode → Bool) : List Thread := g.threads.filter fun t => match t.epi with
  | some e => test e
  | none => false

/-- A group whose threads in such an episode are rolled back, `n` of them (R235, R236). -/
def Group.rolledBack (test : Episode → Bool) (n : Nat) (g : Group) : Group :=
  { g with
    threads := g.threads.map fun t => match t.epi with | some e => if test e then t.rollback e else t | none => t
    rollbacks := g.rollbacks + BitVec.ofNat 32 n
    filter := 0 }

/-- A core without the speculative accesses of threads that are rolled back. -/
def Core.withoutSpec (gid : Nat) (ids : List Nat) (c : Core) : Core :=
  { c with accs := c.accs.filter fun a => !(a.gid == gid && a.spec && ids.contains a.tid) }

/-- The gangs once threads of a group have left them; a gang that none is left in is dropped. -/
def gangsWithout (gid : Nat) (ids : List Nat) (ks : List Gang) : List Gang :=
  (ks.map fun (k : Gang) => if k.gid == gid then { k with lanes := k.lanes.filter fun l => !ids.contains l } else k).filter fun (k : Gang) =>
    !(k.gid == gid && k.lanes.isEmpty)

/-- A rollback does nothing, or takes the threads that meet its test back to their checkpoints, out of their gangs, and their accesses out of the queue. -/
theorem rollbackIf_cases (m : Mach) (gid : Nat) (test : Episode → Bool) : m.rollbackIf gid test = m ∨ ∃ g, m.group? gid = some g
    ∧ m.rollbackIf gid test = { (m.onGroup gid (Group.rolledBack test (g.testers test).length)).onCore g.column g.core
        (Core.withoutSpec gid ((g.testers test).map (·.tid))) with gangs := gangsWithout gid ((g.testers test).map (·.tid)) m.gangs } := by
  cases hg : m.group? gid with
  | none => exact .inl (by simp only [Mach.rollbackIf, hg])
  | some g =>
    simp only [Mach.rollbackIf, hg]
    split
    · exact .inl rfl
    · exact .inr ⟨g, rfl, rfl⟩

theorem Mach.SameBytes.rollbackIf (m : Mach) (gid : Nat) (test : Episode → Bool) : m.SameBytes (m.rollbackIf gid test) := by
  obtain h | ⟨g, -, h⟩ := rollbackIf_cases m gid test <;> rw [h]
  · exact .refl m
  · have hcore := onCore (m.onGroup gid (Group.rolledBack test (g.testers test).length)) g.column g.core
      (f := Core.withoutSpec gid ((g.testers test).map (·.tid))) fun _ => rfl
    exact ⟨hcore.mem, hcore.module, hcore.l1⟩

/-- A store that meets the read filter rolls episodes back, which changes no byte (R235, R236). -/
theorem Mach.SameBytes.storeFilter (m : Mach) (g : Group) (a : Acc) : m.SameBytes (m.storeFilter g a) := by
  unfold Mach.storeFilter
  split
  · split
    · exact .refl m
    · unfold Mach.testFilter
      split
      · exact .refl m
      · split
        · exact .refl m
        · exact .rollbackIf _ _ _
  · exact .refl m

theorem Mach.SameBytes.settleBarrier (m : Mach) (gid : Nat) : m.SameBytes (m.settleBarrier gid) := by
  unfold Mach.settleBarrier
  split
  · split
    · exact ⟨⟨rfl, rfl, rfl, rfl, rfl⟩, rfl, fun _ _ => rfl⟩
    · exact .refl m
  · exact .refl m

/-- What an empty read filter never meets (R235). -/
theorem storeFilter_of_empty {m : Mach} {g : Group} {a : Acc} (hg : m.group? g.gid = some g) (hf : g.filter = 0) : m.storeFilter g a = m := by
  have htest : m.testFilter g.gid a.path a.tow a.addr a.size = m := by
    simp [Mach.testFilter, hg, hf]
  unfold Mach.storeFilter
  split
  · rw [htest, ite_self]
  · rfl

/-- A read through the L1 changes no memory. -/
theorem l1Read_sameMemory (m : Mach) (col c pa n : Nat) : SameMemory m (m.l1Read col c pa n).1 := by
  rw [l1Read_keeps]
  exact ⟨rfl, rfl, rfl, rfl, rfl⟩

theorem acquireAt_of_not_acq {m : Mach} {g : Group} {ord : Nat} (scope : Nat) (h : ord ≠ 1 ∧ ord ≠ 3) : m.acquireAt g ord scope = m :=
  if_neg fun hh => hh.1.elim h.1 h.2

theorem releaseAt_of_not_rel {m : Mach} {g : Group} {ord : Nat} (scope : Nat) (h : ord ≠ 2 ∧ ord ≠ 3) : m.releaseAt g ord scope = m :=
  if_neg fun hh => hh.1.elim h.1 h.2

/-! ### When an access is performed -/

/-- Taking an access out of a queue loses nothing that another access finds lost. -/
theorem accLost_dropAcc (m : Mach) (col core idx : Nat) (g : Group) (a : Acc) : (m.dropAcc col core idx).accLost g a = m.accLost g a := by
  have hhits (pa n : Nat) : ((m.dropAcc col core idx).core g.column g.core).hits pa n = (m.core g.column g.core).hits pa n := by
    simp only [Core.hits, Core.sector?, (Mach.SameBytes.dropAcc m col core idx).l1]
  cases hp : a.path <;> simp only [Mach.accLost, hp]
  case glob =>
    simp only [Mach.homeFails, hhits]
    rfl
  all_goals rfl

section

variable {s : State} {col core idx : Nat} {a : Acc} {g : Group}

theorem Due.mayPerform {m : Mach} (h : Due m col core idx a g) (hv : a.isValue = false) : m.mayPerform col core idx = some (g, a) := by
  have hfirst : ((m.core col core).accs.take idx).all (fun e => !m.holds g e a && !m.portHolds e a) = true := by
    simpa using h.first
  simp [Mach.mayPerform, h.acc, h.group, h.ready, hv, h.live, hfirst, h.free]

theorem Due.gid {m : Mach} (h : Due m col core idx a g) : g.gid = a.gid := Mach.group?_gid h.group

theorem Due.whole_dropped {m : Mach} (h : Due m col core idx a g) : (m.dropAcc col core idx).accLost g a = false :=
  (accLost_dropAcc m col core idx g a).trans h.whole

/-- An access that is due and finds its place is performed; with the last buffered store of a barrier the barrier completes (R165, R245). -/
theorem exec_loadPerformed_done {m' : Mach} (h : Due s.m col core idx a g) (hv : a.isValue = false)
    (hp : performAcc (s.m.dropAcc col core idx) g a = .done m') :
    exec (.loadPerformed col core idx) s = .next { s with m := if a.commit then m'.settleBarrier a.gid else m' } := by
  show execLoadPerformed col core idx s = _
  simp only [execLoadPerformed, onMach, performIdx, h.mayPerform hv, hp]

/-- One without a cached translation waits for a walk (R331). -/
theorem exec_loadPerformed_walk (h : Due s.m col core idx a g) (hv : a.isValue = false)
    (hp : performAcc (s.m.dropAcc col core idx) g a = .walk) :
    exec (.loadPerformed col core idx) s = .next { s with m := s.m.setAcc col core idx { a with st := .missing } } := by
  show execLoadPerformed col core idx s = _
  simp only [execLoadPerformed, onMach, performIdx, h.mayPerform hv, hp]

/-! ### What the thread of an access takes -/

theorem group?_of_groups {m n : Mach} (h : n.groups = m.groups) (i : Nat) : n.group? i = m.group? i := by simp only [Mach.group?, h]

theorem thread?_of_groups {m n : Mach} (h : n.groups = m.groups) (i j : Nat) : n.thread? i j = m.thread? i j := by simp only [Mach.thread?, Mach.group?, h]

theorem deliverValue_delivered {t : State} {n : Mach} {v : Nat} (hg : s.m.group? a.gid = some g) (hn : n.groups = s.m.groups)
    (ht : t.m.groups = (n.deliverValue a v).groups) : Delivered s t a v := by
  have hgn : n.group? a.gid = some g := (group?_of_groups hn _).trans hg
  have hthread (i : Nat) := n.thread?_onThread a.gid a.tid i (fun t => t.fillDsts a.dsts v a.spec) (fun _ => rfl) hgn
  have hold (i : Nat) : s.m.thread? a.gid i = g.thread? i := by rw [Mach.thread?, hg, Option.bind_some]
  refine ⟨fun x hx => ?_, fun i hi => ?_, fun j hj => ?_⟩
  · rw [hold] at hx
    rw [thread?_of_groups ht]
    exact (hthread a.tid).trans (by rw [if_pos rfl, hx]; rfl)
  · rw [thread?_of_groups ht, hold]
    exact (hthread i).trans (if_neg hi)
  · rw [group?_of_groups ht, ← group?_of_groups hn]
    exact (n.group?_onGroup a.gid j (fun g => g.onThread a.tid fun t => t.fillDsts a.dsts v a.spec) fun _ => rfl).trans (if_neg hj)

/-- An access that answers, and acts on the L1 at most after that, has answered (R12, R306). -/
theorem answered_of {t : State} {n : Mach} {v : Nat} (hg : s.m.group? a.gid = some g) (hn : n.groups = s.m.groups)
    (ht : (n.answer g a v).CacheStep t.m) : Answered s t g a v := by
  cases hp : a.port with
  | true =>
    simp only [Answered, hp, if_true, ht.accs, Mach.answer, core_onCore]
    exact List.mem_append_right _ List.mem_cons_self
  | false =>
    simp only [Answered, hp, Bool.false_eq_true, if_false]
    refine deliverValue_delivered hg hn ?_
    rw [ht.groups, Mach.answer, hp]
    rfl

/-- A value whose cycle has come is written (R213, R306). -/
theorem fillValue_thread? (m : Mach) (col core : Nat) (a : Acc) (v : Nat) (x : Thread) (ho : a.op = .value v) (hdue : a.due ≤ (m.core col core).clk)
    (hx : m.thread? a.gid a.tid = some x) : (fillValue col core m a).thread? a.gid a.tid = some (x.fillDsts a.dsts v a.spec) := by
  obtain ⟨g, hg, hgx⟩ := Option.bind_eq_some_iff.1 hx
  have hfill : fillValue col core m a = m.deliverValue a v := by simp only [fillValue, ho, if_pos hdue]
  rw [hfill]
  refine (m.thread?_onThread a.gid a.tid a.tid (fun t => t.fillDsts a.dsts v a.spec) (fun _ => rfl) hg).trans ?_
  rw [if_pos rfl, hgx]
  rfl

/-! ### Loads -/

/-- A load that reads its place answers, and then acquires. -/
theorem performAcc_load {m m' : Mach} {n v : Nat} {sgn : Bool} (hl : m.accLost g a = false) (ho : a.op = .load n sgn) (hs : a.spec = false)
    (hr : m.readPlace g a = some (m', v)) :
    performAcc m g a = .done ((m'.answer g a (widen n sgn v)).acquireAt g a.ord a.scope) := by
  simp [performAcc, hl, ho, hr, Mach.withBuffer, hs]

theorem load_done {n v : Nat} {sgn : Bool} {m' : Mach} (h : Due s.m col core idx a g) (ho : a.op = .load n sgn) (hs : a.spec = false) (hc : a.commit = false)
    (hr : (s.m.dropAcc col core idx).readPlace g a = some (m', v)) (hm : m'.groups = s.m.groups) (hsm : m'.smem = s.m.smem) (htm : m'.tmem = s.m.tmem) :
    ∃ t, exec (.loadPerformed col core idx) s = .next t ∧ Answered s t g a (widen n sgn v) ∧ t.m.smem = s.m.smem ∧ t.m.tmem = s.m.tmem
      ∧ (a.ord = 0 → SameMemory m' t.m) := by
  have hstep := Mach.CacheStep.acquireAt (m'.answer g a (widen n sgn v)) g a.ord a.scope
  have hans := Mach.SameBytes.answer m' g a (widen n sgn v)
  have hexec := exec_loadPerformed_done h (by simp [Acc.isValue, ho]) (performAcc_load h.whole_dropped ho hs hr)
  rw [hc, if_neg Bool.false_ne_true] at hexec
  refine ⟨_, hexec, answered_of h.group hm hstep, ?_, ?_, fun h0 => ?_⟩
  · rw [hstep.smem, hans.smem, hsm]
  · rw [hstep.tmem, hans.tmem, htm]
  · rw [acquireAt_of_not_acq a.scope (by omega)]
    exact hans.mem

/-- A load from banks, which reads and changes no byte (R149). -/
theorem load_bank_done {n v tower : Nat} {sgn : Bool} (h : Due s.m col core idx a g) (ho : a.op = .load n sgn) (hs : a.spec = false)
    (hc : a.commit = false)
    (hr : (s.m.dropAcc col core idx).readPlace g a = some ((s.m.dropAcc col core idx).rebuilds g.column tower a.addr a.size, v)) :
    ∃ t, exec (.loadPerformed col core idx) s = .next t ∧ Answered s t g a (widen n sgn v) ∧ t.m.smem = s.m.smem ∧ t.m.tmem = s.m.tmem
      ∧ (a.ord = 0 → SameMemory s.m t.m) := by
  have hbytes := (Mach.SameBytes.dropAcc s.m col core idx).trans (.rebuilds _ g.column tower a.addr a.size)
  obtain ⟨t, hexec, hans, hsm, htm, hmem⟩ := load_done h ho hs hc hr (rebuilds_groups _ _ _ _ _) hbytes.smem hbytes.tmem
  exact ⟨t, hexec, hans, hsm, htm, fun h0 => hbytes.mem.trans (hmem h0)⟩

theorem load_scr_done (s : State) (col core idx : Nat) (a : Acc) (g : Group) (n : Nat) (sgn : Bool) (h : Due s.m col core idx a g) (ho : a.op = .load n sgn)
    (hs : a.spec = false) (hc : a.commit = false) (hp : a.path = .scr) :
    ∃ t, exec (.loadPerformed col core idx) s = .next t ∧ Answered s t g a (widen n sgn (readN s.m.smem (scrKey a.gid a.addr) a.size))
      ∧ t.m.smem = s.m.smem ∧ t.m.tmem = s.m.tmem ∧ (a.ord = 0 → SameMemory s.m t.m) := by
  refine load_bank_done (tower := g.core) h ho hs hc ?_
  rw [← h.gid]
  simp only [Mach.readPlace, hp]
  rfl

theorem load_tow_done (s : State) (col core idx : Nat) (a : Acc) (g : Group) (n : Nat) (sgn : Bool) (h : Due s.m col core idx a g) (ho : a.op = .load n sgn)
    (hs : a.spec = false) (hc : a.commit = false) (hp : a.path = .tow) :
    ∃ t, exec (.loadPerformed col core idx) s = .next t ∧ Answered s t g a (widen n sgn (readN s.m.tmem (towKey g.column a.tow a.addr) a.size))
      ∧ t.m.smem = s.m.smem ∧ t.m.tmem = s.m.tmem ∧ (a.ord = 0 → SameMemory s.m t.m) := by
  refine load_bank_done (tower := a.tow) h ho hs hc ?_
  simp only [Mach.readPlace, hp]
  rfl

/-- A global load reads at its home, after the write-back of its sector, or through the L1 (Table 11.1). -/
theorem load_glob_done (s : State) (col core idx : Nat) (a : Acc) (g : Group) (n : Nat) (sgn : Bool) (pa : Nat) (h : Due s.m col core idx a g)
    (ho : a.op = .load n sgn) (hs : a.spec = false) (hc : a.commit = false) (hp : a.path = .glob)
    (ht : s.m.tlbHit g.env.vf a.addr false false = some pa) :
    let m := s.m.dropAcc col core idx
    let v := if atHome a then (m.l1Back g.column g.core (pa / 64)).homeRead pa a.size
      else ((m.l1Room g.column g.core pa).l1Read g.column g.core pa a.size).2
    ∃ t, exec (.loadPerformed col core idx) s = .next t ∧ Answered s t g a (widen n sgn v)
      ∧ t.m.smem = s.m.smem ∧ t.m.tmem = s.m.tmem ∧ (a.ord = 0 → SameMemory (m.l1Room g.column g.core pa) t.m) := by
  intro m v
  have ht' : m.tlbHit g.env.vf a.addr false false = some pa := ht
  cases hh : atHome a with
  | true =>
    have hstep := Mach.CacheStep.l1Back m g.column g.core (pa / 64)
    have hr : m.readPlace g a = some (m.l1Back g.column g.core (pa / 64), v) := by
      simp [Mach.readPlace, hp, ht', hh, v]
    obtain ⟨t, hexec, hans, hsm, htm, -⟩ := load_done h ho hs hc hr hstep.groups hstep.smem hstep.tmem
    refine ⟨t, hexec, hans, hsm, htm, fun h0 => ?_⟩
    simp [atHome, h0] at hh
  | false =>
    have hstep := (Mach.CacheStep.l1Room m g.column g.core pa).trans (.l1Read _ g.column g.core pa a.size)
    have hr : m.readPlace g a = some (((m.l1Room g.column g.core pa).l1Read g.column g.core pa a.size).1, v) := by
      simp [Mach.readPlace, hp, ht', hh, v]
    obtain ⟨t, hexec, hans, hsm, htm, hmem⟩ := load_done h ho hs hc hr hstep.groups hstep.smem hstep.tmem
    exact ⟨t, hexec, hans, hsm, htm, fun h0 => (l1Read_sameMemory _ _ _ _ _).trans (hmem h0)⟩

theorem load_walks (s : State) (col core idx : Nat) (a : Acc) (g : Group) (n : Nat) (sgn : Bool) (h : Due s.m col core idx a g) (ho : a.op = .load n sgn)
    (hp : a.path = .glob) (ht : s.m.tlbHit g.env.vf a.addr false false = none) :
    ∃ t, exec (.loadPerformed col core idx) s = .next t ∧ t = { s with m := s.m.setAcc col core idx { a with st := .missing } } := by
  have hr : (s.m.dropAcc col core idx).readPlace g a = none := by
    have ht' : (s.m.dropAcc col core idx).tlbHit g.env.vf a.addr false false = none := ht
    simp only [Mach.readPlace, hp, ht']
  have hperf : performAcc (s.m.dropAcc col core idx) g a = .walk := by simp [performAcc, h.whole_dropped, ho, hr]
  exact ⟨_, exec_loadPerformed_walk h (by simp [Acc.isValue, ho]) hperf, rfl⟩

end

/-- Settles O31, one place at a time. -/
theorem loadsPerform : Obligations.LoadsPerform :=
  ⟨load_scr_done, fillValue_thread?, load_tow_done, load_glob_done, load_walks⟩

end Sys2Proof.Machine
end

section
/-! PROOFS. Stores, atomics and SC operations performed (07 R149, R150, R152, R157, R159; 11 R245, Table 11.1). -/

namespace Sys2Proof.Machine

section

variable {s : State} {col core idx : Nat} {a : Acc} {g : Group}

/-! ### Stores -/

/-- A performed store leaves its bytes as `writePlace` does: neither the read filter nor the barrier changes a byte (R165, R235). -/
theorem store_done {n v : Nat} {m' : Mach} (h : Due s.m col core idx a g) (ho : a.op = .store n v)
    (hw : (s.m.dropAcc col core idx).writePlace g a v = some (m'.storeFilter g a)) :
    ∃ t, exec (.loadPerformed col core idx) s = .next t ∧ m'.SameBytes t.m := by
  have hperf : performAcc (s.m.dropAcc col core idx) g a = .done (m'.storeFilter g a) := by
    simp [performAcc, h.whole_dropped, ho, hw, PerfRes.ofOption]
  refine ⟨_, exec_loadPerformed_done h (by simp [Acc.isValue, ho]) hperf, ?_⟩
  have hfilter := Mach.SameBytes.storeFilter m' g a
  dsimp only
  split
  · exact hfilter.trans (.settleBarrier _ _)
  · exact hfilter

theorem winWrite_smem (m : Mach) (gid off n v : Nat) : (m.winWrite gid off n v).smem = writeN m.smem (scrKey gid off) n v := rfl

theorem towWrite_tmem (m : Mach) (col tower off n v : Nat) : (m.towWrite col tower off n v).tmem = writeN m.tmem (towKey col tower off) n v := rfl

theorem stored_writeN (m : Mem) (b n v : Nat) : Stored m (writeN m b n v) b n v :=
  ⟨readN_writeN m b n v, fun _ hb => byteAt_writeN_out m b n v hb⟩

theorem store_scr_done (s : State) (col core idx : Nat) (a : Acc) (g : Group) (n v : Nat) (h : Due s.m col core idx a g) (ho : a.op = .store n v)
    (hp : a.path = .scr) : ∃ t, exec (.loadPerformed col core idx) s = .next t ∧ Stored s.m.smem t.m.smem (scrKey a.gid a.addr) a.size v
      ∧ t.m.tmem = s.m.tmem ∧ (a.ord = 0 → t.m.dmem = s.m.dmem ∧ t.m.hmem = s.m.hmem) := by
  have hrel := Mach.CacheStep.releaseAt (s.m.dropAcc col core idx) g a.ord a.scope
  have hreb := Mach.SameBytes.rebuilds ((s.m.dropAcc col core idx).releaseAt g a.ord a.scope) g.column g.core a.addr a.size
  have hw : (s.m.dropAcc col core idx).writePlace g a v = some (((((s.m.dropAcc col core idx).releaseAt g a.ord a.scope).rebuilds g.column g.core
      a.addr a.size).winWrite g.gid a.addr a.size v).storeFilter g a) := by simp only [Mach.writePlace, hp]
  obtain ⟨t, hexec, ht⟩ := store_done h ho hw
  refine ⟨t, hexec, ?_, ht.tmem.trans (hreb.tmem.trans hrel.tmem), fun h0 => ?_⟩
  · rw [ht.smem, winWrite_smem, hreb.smem, hrel.smem, h.gid]
    exact stored_writeN _ _ _ _
  · rw [releaseAt_of_not_rel a.scope (by omega)] at ht hreb
    exact ⟨ht.dmem.trans hreb.dmem, ht.hmem.trans hreb.hmem⟩

theorem store_tow_done (s : State) (col core idx : Nat) (a : Acc) (g : Group) (n v : Nat) (h : Due s.m col core idx a g) (ho : a.op = .store n v)
    (hp : a.path = .tow) : ∃ t, exec (.loadPerformed col core idx) s = .next t ∧ Stored s.m.tmem t.m.tmem (towKey g.column a.tow a.addr) a.size v
      ∧ t.m.smem = s.m.smem ∧ t.m.dmem = s.m.dmem ∧ t.m.hmem = s.m.hmem := by
  have hreb := Mach.SameBytes.rebuilds (s.m.dropAcc col core idx) g.column a.tow a.addr a.size
  have hw : (s.m.dropAcc col core idx).writePlace g a v = some ((((s.m.dropAcc col core idx).rebuilds g.column a.tow a.addr a.size).towWrite g.column
      a.tow a.addr a.size v).storeFilter g a) := by simp only [Mach.writePlace, hp]
  obtain ⟨t, hexec, ht⟩ := store_done h ho hw
  refine ⟨t, hexec, ?_, ht.smem.trans hreb.smem, ht.dmem.trans hreb.dmem, ht.hmem.trans hreb.hmem⟩
  rw [ht.tmem, towWrite_tmem, hreb.tmem]
  exact stored_writeN _ _ _ _

theorem doGlob_relaxed (m : Mach) (col c pa size val : Nat) :
    m.doGlob col c pa size val false = (m.l1Room col c pa).l1Write col c pa size val := if_neg Bool.false_ne_true

theorem l1Write_sameMemory (m : Mach) (col c pa n v : Nat) : SameMemory m (m.l1Write col c pa n v) := by
  rw [l1Write_keeps]
  exact ⟨rfl, rfl, rfl, rfl, rfl⟩

/-- A relaxed global store makes its bytes dirty in the L1; homes change by making room alone (R152). -/
theorem store_l1_done (s : State) (col core idx : Nat) (a : Acc) (g : Group) (n v pa : Nat) (h : Due s.m col core idx a g) (ho : a.op = .store n v)
    (hp : a.path = .glob) (h0 : a.ord = 0) (ht : s.m.tlbHit g.env.vf a.addr true false = some pa) :
    ∃ t, exec (.loadPerformed col core idx) s = .next t ∧ SameMemory ((s.m.dropAcc col core idx).l1Room g.column g.core pa) t.m
      ∧ ∃ x ∈ (t.m.core g.column g.core).l1, x.sec = pa / 64
        ∧ ∀ i < a.size, i < 64 - pa % 64 → x.dirty.getLsbD (pa % 64 + i) = true := by
  set m := (s.m.dropAcc col core idx).l1Room g.column g.core pa
  have ht' : (s.m.dropAcc col core idx).tlbHit g.env.vf a.addr true false = some pa := ht
  have hw : (s.m.dropAcc col core idx).writePlace g a v = some ((m.l1Write g.column g.core pa a.size v).storeFilter g a) := by
    have hrel := releaseAt_of_not_rel (m := s.m.dropAcc col core idx) (g := g) a.scope (show a.ord ≠ 2 ∧ a.ord ≠ 3 by omega)
    have hhome : atHome a = false := by simp [atHome, h0]
    simp only [Mach.writePlace, hp, ht', hrel, hhome, doGlob_relaxed, m]
  obtain ⟨t, hexec, hbytes⟩ := store_done h ho hw
  refine ⟨t, hexec, (l1Write_sameMemory _ _ _ _ _ _).trans hbytes.mem, m.storedSector g.column g.core pa a.size v, ?_, storedSector_sec _ _ _ _ _ _, fun i hi hin => ?_⟩
  · rw [hbytes.l1, core_l1Write]
    exact List.mem_cons_self
  · rw [storedSector_dirty _ _ _ _ _ _ (by omega), decide_eq_true (by omega), Bool.or_true]

/-- A release wider than the group writes its bytes at their home (Table 11.1). -/
theorem store_home_done (s : State) (col core idx : Nat) (a : Acc) (g : Group) (n v pa : Nat) (h : Due s.m col core idx a g) (ho : a.op = .store n v)
    (hp : a.path = .glob) (hh : atHome a = true) (ht : s.m.tlbHit g.env.vf a.addr true false = some pa) :
    ∃ t, exec (.loadPerformed col core idx) s = .next t ∧ t.m.homeRead pa a.size = v % 256 ^ a.size ∧ t.m.smem = s.m.smem ∧ t.m.tmem = s.m.tmem := by
  set r := (s.m.dropAcc col core idx).releaseAt g a.ord a.scope
  have hstep : (s.m.dropAcc col core idx).CacheStep (r.doGlob g.column g.core pa a.size v true) :=
    (Mach.CacheStep.releaseAt _ _ _ _).trans (.doGlob _ _ _ _ _ _ _)
  have ht' : (s.m.dropAcc col core idx).tlbHit g.env.vf a.addr true false = some pa := ht
  have hw : (s.m.dropAcc col core idx).writePlace g a v = some ((r.doGlob g.column g.core pa a.size v true).storeFilter g a) := by
    simp only [Mach.writePlace, hp, ht', hh, r]
  obtain ⟨t, hexec, hbytes⟩ := store_done h ho hw
  exact ⟨t, hexec, (hbytes.homeRead _ _).trans (homeRead_store _ _ _ _), hbytes.smem.trans hstep.smem, hbytes.tmem.trans hstep.tmem⟩

/-! ### Atomics and SC operations -/

/-- An operation that answers with an old value, performed. -/
theorem give_done {m' : Mach} {v : Nat} (h : Due s.m col core idx a g) (hv : a.isValue = false) (hc : a.commit = false)
    (hp : performAcc (s.m.dropAcc col core idx) g a = .done (m'.answer g a v)) (hm : m'.groups = s.m.groups) :
    ∃ t, exec (.loadPerformed col core idx) s = .next t ∧ Answered s t g a v ∧ m'.SameBytes t.m ∧ t.m.slices = m'.slices := by
  have hexec := exec_loadPerformed_done h hv hp
  rw [hc, if_neg Bool.false_ne_true] at hexec
  refine ⟨_, hexec, answered_of h.group hm (.refl _), .answer _ _ _ _, ?_⟩
  unfold Mach.answer
  split <;> rfl

theorem performAcc_atom {m m' : Mach} {op v : Nat} {b c : Word} (hl : m.accLost g a = false) (ho : a.op = .atom op b c)
    (hr : m.atomPlace g a (fun old => atomNew op old b c) = some (m', v)) : performAcc m g a = .done (m'.answer g a v) := by
  simp [performAcc, hl, ho, hr]

theorem atom_scr_done (s : State) (col core idx : Nat) (a : Acc) (g : Group) (op : Nat) (b c : Word) (h : Due s.m col core idx a g)
    (ho : a.op = .atom op b c) (hp : a.path = .scr) (hc : a.commit = false) (hf : g.filter = 0) :
    ∃ t, exec (.loadPerformed col core idx) s = .next t ∧ Answered s t g a (readN s.m.smem (scrKey a.gid a.addr) 4)
      ∧ Stored s.m.smem t.m.smem (scrKey a.gid a.addr) 4 (atomNew op (BitVec.ofNat 32 (readN s.m.smem (scrKey a.gid a.addr) 4)) b c).toNat := by
  set old := readN s.m.smem (scrKey a.gid a.addr) 4 with hold
  set r := (s.m.dropAcc col core idx).releaseAt g a.ord a.scope
  set w := (r.rebuilds g.column g.core a.addr 4).winWrite g.gid a.addr 4 (atomNew op (BitVec.ofNat 32 old) b c).toNat with hw
  have hrel : (s.m.dropAcc col core idx).CacheStep r := .releaseAt _ _ _ _
  have hreb := Mach.SameBytes.rebuilds r g.column g.core a.addr 4
  have hacq := Mach.CacheStep.acquireAt w g a.ord a.scope
  have hgroups : w.groups = s.m.groups := (rebuilds_groups _ _ _ _ _).trans hrel.groups
  have hfilter : w.storeFilter g a = w := storeFilter_of_empty ((group?_of_groups hgroups _).trans (h.gid ▸ h.group)) hf
  have hplace : (s.m.dropAcc col core idx).atomPlace g a (fun old => atomNew op old b c) = some (w.acquireAt g a.ord a.scope, old) := by
    have hread : (s.m.dropAcc col core idx).winRead g.gid a.addr 4 = old := by rw [hold, ← h.gid]; rfl
    simp only [Mach.atomPlace, hp, hread, ← hw, hfilter, r]
  obtain ⟨t, hexec, hans, hbytes, -⟩ := give_done h (by simp [Acc.isValue, ho]) hc (performAcc_atom h.whole_dropped ho hplace)
    (hacq.groups.trans hgroups)
  refine ⟨t, hexec, hans, ?_⟩
  rw [hbytes.smem, hacq.smem, hw, winWrite_smem, hreb.smem, hrel.smem, h.gid]
  exact stored_writeN _ _ _ _

/-- An atomic wider than the group reads and writes at the home, its sector written back and dropped before (R157, R245). -/
theorem atom_home_done (s : State) (col core idx : Nat) (a : Acc) (g : Group) (op : Nat) (b c : Word) (pa : Nat) (h : Due s.m col core idx a g)
    (ho : a.op = .atom op b c) (hp : a.path = .glob) (hc : a.commit = false) (hscope : a.scope ≠ 0)
    (ht : s.m.tlbHit g.env.vf a.addr true false = some pa) (hf : g.filter = 0) :
    let m := ((s.m.dropAcc col core idx).releaseAt g a.ord a.scope).l1Drop g.column g.core (pa / 64)
    ∃ t, exec (.loadPerformed col core idx) s = .next t ∧ Answered s t g a (m.homeRead pa 4)
      ∧ (a.ord ≠ 1 ∧ a.ord ≠ 3 → t.m.homeRead pa 4 = (atomNew op (BitVec.ofNat 32 (m.homeRead pa 4)) b c).toNat) := by
  intro m
  set new := atomNew op (BitVec.ofNat 32 (m.homeRead pa 4)) b c with hnew
  have hstep : (s.m.dropAcc col core idx).CacheStep (m.store pa 4 new.toNat) :=
    ((Mach.CacheStep.releaseAt _ _ _ _).trans (.l1Drop _ _ _ _)).trans (.store _ _ _ _)
  have hacq := Mach.CacheStep.acquireAt (m.store pa 4 new.toNat) g a.ord a.scope
  have hfilter : (m.store pa 4 new.toNat).storeFilter g a = m.store pa 4 new.toNat :=
    storeFilter_of_empty ((group?_of_groups hstep.groups _).trans (h.gid ▸ h.group)) hf
  have ht' : (s.m.dropAcc col core idx).tlbHit g.env.vf a.addr true false = some pa := ht
  have hplace : (s.m.dropAcc col core idx).atomPlace g a (fun old => atomNew op old b c)
      = some ((m.store pa 4 new.toNat).acquireAt g a.ord a.scope, m.homeRead pa 4) := by
    simp only [Mach.atomPlace, hp, ht', if_neg hscope, ← hnew, hfilter, m]
  obtain ⟨t, hexec, hans, hbytes, -⟩ := give_done h (by simp [Acc.isValue, ho]) hc (performAcc_atom h.whole_dropped ho hplace)
    (hacq.groups.trans hstep.groups)
  refine ⟨t, hexec, hans, fun hord => ?_⟩
  rw [hbytes.homeRead, acquireAt_of_not_acq a.scope hord, homeRead_store]
  exact Nat.mod_eq_of_lt new.isLt

theorem stampAt_groups (m : Mach) (g : Group) (pa : Nat) : (m.stampAt g pa).groups = m.groups := rfl

theorem homeRead_stampAt (m : Mach) (g : Group) (pa b k : Nat) : (m.stampAt g pa).homeRead b k = m.homeRead b k := rfl

/-- An SC load reads at the home, after the write-back of the whole L1, and stamps (R159). -/
theorem scLoad_done (s : State) (col core idx : Nat) (a : Acc) (g : Group) (n pa : Nat) (h : Due s.m col core idx a g) (ho : a.op = .scLoad n)
    (hc : a.commit = false) (ht : s.m.tlbHit g.env.vf a.addr false false = some pa) :
    let m := (s.m.dropAcc col core idx).l1BackAll g.column g.core
    ∃ t, exec (.loadPerformed col core idx) s = .next t ∧ Answered s t g a (m.homeRead pa a.size) ∧ t.m.slices = (m.stampAt g pa).slices := by
  intro m
  have hback : (s.m.dropAcc col core idx).CacheStep m := .l1BackAll _ _ _
  have hinv := Mach.CacheStep.l1Inv (m.stampAt g pa) g.column g.core
  have ht' : (s.m.dropAcc col core idx).tlbHit g.env.vf a.addr false false = some pa := ht
  have hplace : (s.m.dropAcc col core idx).scPlace g a false (fun _ => none)
      = some ((m.stampAt g pa).l1Inv g.column g.core, m.homeRead pa a.size) := by
    simp only [Mach.scPlace, ht', homeRead_stampAt, m]
  have hperf : performAcc (s.m.dropAcc col core idx) g a = .done (((m.stampAt g pa).l1Inv g.column g.core).answer g a (m.homeRead pa a.size)) := by
    simp [performAcc, h.whole_dropped, ho, hplace]
  obtain ⟨t, hexec, hans, -, hslices⟩ := give_done h (by simp [Acc.isValue, ho]) hc hperf (hinv.groups.trans ((stampAt_groups _ _ _).trans hback.groups))
  exact ⟨t, hexec, hans, hslices.trans hinv.slices⟩

end

/-- Settles O32, one place at a time. -/
theorem storesPerform : Obligations.StoresPerform :=
  ⟨fun s col core idx a g n v h ho hp _ => store_scr_done s col core idx a g n v h ho hp,
    fun s col core idx a g n v h ho hp _ => store_tow_done s col core idx a g n v h ho hp,
    store_l1_done,
    fun s col core idx a g n v pa h ho hp hh ht _ _ => store_home_done s col core idx a g n v pa h ho hp hh ht⟩

/-- Settles O33: atomics in the window and at their home, SC loads at their home. -/
theorem atomicsPerform : Obligations.AtomicsPerform :=
  ⟨fun s col core idx a g op b c h ho hp _ hc _ hf => atom_scr_done s col core idx a g op b c h ho hp hc hf,
    fun s col core idx a g op b c pa h ho hp _ hc hscope ht _ _ hf => atom_home_done s col core idx a g op b c pa h ho hp hc hscope ht hf,
    fun s col core idx a g n pa h ho _ hc ht => scLoad_done s col core idx a g n pa h ho hc ht⟩

end Sys2Proof.Machine
end

section
/-! PROOFS. Issue of memory words (07 R144 to R161, R171): loads, atomics and SC operations queue their accesses, stores are performed or queued (log entry
11), fences and cache words act on the L1. A store that is performed at once may roll back episodes of its group (R235), but takes no active lane out of
the gang it issues from. -/

namespace Sys2Proof.Machine

/-! ### Issue of long-latency accesses -/

theorem usePort_gangs (m : Mach) (g : Group) (cycle : Nat) (as : List Acc) : (m.usePort g cycle as).1.gangs = m.gangs := by
  unfold Mach.usePort
  dsimp only
  split <;> rfl

theorem usePort_groups (m : Mach) (g : Group) (cycle : Nat) (as : List Acc) : (m.usePort g cycle as).1.groups = m.groups := by
  unfold Mach.usePort
  dsimp only
  split <;> rfl

theorem gang?_of_gangs {m n : Mach} (h : n.gangs = m.gangs) (i : Nat) : n.gang? i = m.gang? i := by simp only [Mach.gang?, h]

/-- Long-latency accesses that issue leave the gangs as they were. -/
theorem issueAll_gang? (s : State) (k : Gang) (g : Group) (ls : List LaneIn) (f : LaneIn → Acc) (i : Nat) :
    (issueAll s k g ls f).gang? i = s.m.gang? i := by
  rcases hp : s.m.usePort g (lastCycle s.m k g) ((ons ls).map f) with ⟨m₁, as₁⟩
  have hport := gang?_of_gangs (usePort_gangs s.m g (lastCycle s.m k g) ((ons ls).map f)) i
  rw [hp] at hport
  simp only [issueAll, Mach.issueLongs, hp]
  exact foldl_keeps (fun m => m.gang? i = s.m.gang? i) hport fun m a h => (issueLong_gang m g a i).trans h

/-- A word whose guarded lanes each issue one long-latency access, where the lanes pass its check and wait for nothing. -/
theorem longWord_acts {i : Instr} {d : Desc} {ok : State → Gang → Group → LaneIn → Prop} {f : State → Group → LaneIn → Acc}
    (hx : ∀ s, exec i s = word d s) (hi : d.ill = false) (hm : d.more = 0) (hc : d.chk = fun _ _ _ l => .ok l.vs) (hd : d.dyn = fun _ _ => [])
    (ho : d.opx = fun _ _ _ _ => none) (hb : ∀ s k g l, ok s k g l → d.busy s.cfg s.m k g l = false)
    (he : ∀ s k g l, ok s k g l → d.exe s.cfg s.m k g l = none)
    (ha : ∀ s k g ls, (∀ l ∈ ls, l.t.epi = none) → d.act s.cfg s.m k g ls = (issueAll s k g ls (f s g), [])) :
    Acts i d.form d.cls ok fun s k g ls => issueAll s k g ls (f s g) :=
  acts_of hx hi hm hc hd hb (fun _ _ _ _ _ _ => by rw [ho]) (fun s k g vs _ hok l hl => he s k g l (hok l hl))
    (fun s k g vs hr _ => ha s k g _ (lanesIn_plain hr)) fun s k g vs hr _ => gang_kept hr (issueAll_gang? _ _ _ _ _ _)

/-! ### Loads -/

/-- A load of a lane that does not speculate (R149). -/
theorem loadAcc_plain (p : Nat) (g : Group) (l : LaneIn) (f : FLd) (q : Option Modifier) (issued : Nat) (h : l.t.epi = none) :
    loadAcc p g l f.d f.o f.z (ordOf q) (scopeOf 2 q) issued = loadOf p g l f q issued := by
  simp only [loadAcc, h]
  rfl

/-- Lanes that do not speculate record nothing in the read filter (R235). -/
theorem loadWord_act (p : Nat) (f : FLd) (q : Option Modifier) (acc : Accepts) (s : State) (k : Gang) (g : Group) (ls : List LaneIn)
    (h : ∀ l ∈ ls, l.t.epi = none) :
    (loadWord p f q acc).act s.cfg s.m k g ls = (issueAll s k g ls fun l => loadOf p g l f q s.m.free, []) := by
  have hlanes : (ons ls).map (fun l => loadAcc p g l f.d f.o f.z (ordOf q) (scopeOf 2 q) s.m.free)
      = (ons ls).map fun l => loadOf p g l f q s.m.free :=
    List.map_congr_left fun l hl => loadAcc_plain p g l f q _ (h l (List.mem_of_mem_filter hl))
  have hspec : ((ons ls).map fun l => loadOf p g l f q s.m.free).filter (·.spec) = [] := by
    simp [List.filter_eq_nil_iff, loadOf]
  simp only [loadWord, hlanes, hspec, List.foldl_nil]
  rfl

theorem loadWord_acts {i : Instr} {p : Nat} {f : FLd} {q : Option Modifier} {acc : Accepts} (hx : ∀ s, exec i s = word (loadWord p f q acc) s)
    (hz : f.z < 7) : Acts i (loadWord p f q acc).form 1
      (fun s _ g l => memCheck p s.cfg s.m g l f.o (loadForm f.z).1 = none ∧ memBusy true s.m g l = false)
      fun s k g ls => issueAll s k g ls fun l => loadOf p g l f q s.m.free :=
  longWord_acts (f := fun s g l => loadOf p g l f q s.m.free) hx (decide_eq_false (Nat.not_le.2 hz)) rfl rfl rfl rfl (fun _ _ _ _ h => h.2)
    (fun _ _ _ _ h => h.1) (loadWord_act p f q acc)

/-- Settles O9: the three loads are one word but for their path (R148). -/
theorem loadWordsIssue : Obligations.LoadWordsIssue := by
  unfold Obligations.LoadWordsIssue
  simp only [loadRows, List.forall_mem_cons]
  exact ⟨fun f q hz => loadWord_acts (p := 0) (fun _ => rfl) hz, fun f q hz => loadWord_acts (p := 1) (fun _ => rfl) hz,
    fun f q hz => loadWord_acts (p := 2) (acc := {}) (fun _ => rfl) hz, List.forall_mem_nil _⟩

/-! ### Lanes under rollbacks -/

/-- The gang that a word issues from holds its active lanes `ids`, and none of their threads speculates. -/
structure Mach.HoldsLanes (m : Mach) (k : Gang) (ids : List Nat) : Prop where
  gang : ∃ k', m.gang? k.id = some k' ∧ ∀ i ∈ ids, i ∈ k'.lanes
  plain : ∀ g, m.group? k.gid = some g → ∀ y ∈ g.threads, y.tid ∈ ids → y.epi = none

theorem Mach.HoldsLanes.of_same {m n : Mach} {k : Gang} {ids : List Nat} (h : m.HoldsLanes k ids) (hg : n.groups = m.groups) (hk : n.gangs = m.gangs) :
    n.HoldsLanes k ids := by
  refine ⟨?_, ?_⟩
  · rw [gang?_of_gangs hk]
    exact h.gang
  · rw [group?_of_groups hg]
    exact h.plain

/-- The threads of a ready word's active lanes. -/
def activeIds (k : Gang) (g : Group) : List Nat := (activeLanes k g).map (·.tid)

theorem Form.Ready.holdsLanes {w : Form} {s : State} {k : Gang} {g : Group} {vs : Thread → List Nat} (hr : w.Ready s k g vs) :
    s.m.HoldsLanes k (activeIds k g) := by
  obtain ⟨-, hgang, hgroup, -⟩ := curGang_spec hr.cur
  refine ⟨⟨k, hgang, fun i hi => ?_⟩, fun g' hg' => ?_⟩
  · obtain ⟨x, hx, rfl⟩ := List.mem_map.1 hi
    exact (activeLanes_mem hx).1
  · obtain rfl := Option.some.inj (hgroup.symm.trans hg')
    exact hr.plain

theorem Form.Ready.activeIds_ne_nil {w : Form} {s : State} {k : Gang} {g : Group} {vs : Thread → List Nat} (hr : w.Ready s k g vs) :
    activeIds k g ≠ [] := mt List.map_eq_nil_iff.1 hr.some

/-- The active lanes of a word still stand in its gang. -/
theorem Mach.HoldsLanes.gang_of {m : Mach} {w : Form} {s : State} {k : Gang} {g : Group} {vs : Thread → List Nat} (h : m.HoldsLanes k (activeIds k g)) :
    ∃ k', m.gang? k.id = some k' ∧ ∀ l ∈ w.activeIn s k g vs, l.t.tid ∈ k'.lanes := by
  obtain ⟨k', hk', hlanes⟩ := h.gang
  refine ⟨k', hk', fun l hl => hlanes _ ?_⟩
  obtain ⟨x, hx, rfl⟩ := List.mem_map.1 hl
  exact List.mem_map_of_mem hx

theorem find?_filter_of_pos {α : Type} {p q : α → Bool} {x : α} {l : List α} (h : l.find? p = some x) (hq : q x = true) : (l.filter q).find? p = some x := by
  rw [List.find?_filter]
  rw [List.find?_eq_some_iff_append] at h ⊢
  obtain ⟨hp, as, bs, rfl, has⟩ := h
  exact ⟨by simp [hp, hq], as, bs, rfl, fun a ha => by simp [by simpa using has a ha]⟩

/-- A gang that keeps a lane is still there once other threads have left. -/
theorem gangsWithout_holds {m : Mach} {k k' : Gang} {gid : Nat} {ids gone : List Nat} (hk : m.gang? k.id = some k') (hlanes : ∀ i ∈ ids, i ∈ k'.lanes)
    (hne : ids ≠ []) (hgone : ∀ i ∈ ids, i ∉ gone) :
    ∃ k'', (gangsWithout gid gone m.gangs).find? (fun x => x.id == k.id) = some k'' ∧ ∀ i ∈ ids, i ∈ k''.lanes := by
  have hmap := find_map m.gangs (fun x => x.id == k.id)
    (fun (x : Gang) => if x.gid == gid then { x with lanes := x.lanes.filter fun l => !gone.contains l } else x) fun x => by split <;> rfl
  have hk'' := hmap.trans (congrArg _ hk)
  have hkept : ∀ i ∈ ids, i ∈ (if k'.gid == gid then { k' with lanes := k'.lanes.filter fun l => !gone.contains l } else k' : Gang).lanes := by
    intro i hi
    split
    · exact List.mem_filter.2 ⟨hlanes i hi, by simpa using hgone i hi⟩
    · exact hlanes i hi
  refine ⟨_, find?_filter_of_pos hk'' ?_, hkept⟩
  obtain ⟨i, hi⟩ := List.exists_mem_of_ne_nil _ hne
  have hpos := List.isEmpty_eq_false_iff_exists_mem.2 ⟨i, hkept i hi⟩
  rw [hpos, Bool.and_false, Bool.not_false]

/-- A rollback takes lanes out of gangs that speculate, and no other. -/
theorem Mach.HoldsLanes.rollbackIf {m : Mach} {k : Gang} {ids : List Nat} (h : m.HoldsLanes k ids) (hne : ids ≠ []) (test : Episode → Bool) :
    (m.rollbackIf k.gid test).HoldsLanes k ids := by
  obtain he | ⟨g, hg, he⟩ := rollbackIf_cases m k.gid test <;> rw [he]
  · exact h
  · obtain ⟨k', hk', hlanes⟩ := h.gang
    have hgone : ∀ i ∈ ids, i ∉ (g.testers test).map (·.tid) := by
      intro i hi hmem
      obtain ⟨y, hy, rfl⟩ := List.mem_map.1 hmem
      obtain ⟨hthread, htest⟩ := List.mem_filter.1 hy
      rw [h.plain g hg y hthread hi] at htest
      exact Bool.false_ne_true htest
    refine ⟨gangsWithout_holds hk' hlanes hne hgone, fun g' hg' y hy hid => ?_⟩
    have hgroup := (m.group?_onGroup k.gid k.gid (Group.rolledBack test (g.testers test).length) fun _ => rfl).symm.trans hg'
    rw [if_pos rfl, hg] at hgroup
    obtain rfl := Option.some.inj hgroup
    obtain ⟨x, hx, rfl⟩ := List.mem_map.1 hy
    have hplain : x.tid ∈ ids → x.epi = none := h.plain g hg x hx
    revert hid
    split
    · split
      · exact fun _ => rfl
      · exact hplain
    · exact hplain

theorem Mach.HoldsLanes.storeFilter {m : Mach} {k : Gang} {ids : List Nat} (h : m.HoldsLanes k ids) (hne : ids ≠ []) {g : Group} (hg : g.gid = k.gid)
    (a : Acc) : (m.storeFilter g a).HoldsLanes k ids := by
  unfold Mach.storeFilter
  split
  · split
    · exact h
    · unfold Mach.testFilter
      split
      · exact h
      · split
        · exact h
        · exact hg ▸ h.rollbackIf hne _
  · exact h

/-! ### Stores at issue -/

/-- Places of stores change no gang and no group but by the read filter. -/
theorem Mach.HoldsLanes.writePlace {m m' : Mach} {k : Gang} {ids : List Nat} (h : m.HoldsLanes k ids) (hne : ids ≠ []) {g : Group} (hg : g.gid = k.gid)
    {a : Acc} {v : Nat} (hw : m.writePlace g a v = some m') : m'.HoldsLanes k ids := by
  have hrel := Mach.CacheStep.releaseAt m g a.ord a.scope
  cases hp : a.path <;> simp only [Mach.writePlace, hp] at hw
  case scr =>
    obtain rfl := Option.some.inj hw
    have hbank : (((m.releaseAt g a.ord a.scope).rebuilds g.column g.core a.addr a.size).winWrite g.gid a.addr a.size v).HoldsLanes k ids :=
      h.of_same ((rebuilds_groups _ _ _ _ _).trans hrel.groups) ((rebuilds_gangs _ _ _ _ _).trans hrel.gangs)
    exact hbank.storeFilter hne hg a
  case tow =>
    obtain rfl := Option.some.inj hw
    have hbank : ((m.rebuilds g.column a.tow a.addr a.size).towWrite g.column a.tow a.addr a.size v).HoldsLanes k ids :=
      h.of_same (rebuilds_groups _ _ _ _ _) (rebuilds_gangs _ _ _ _ _)
    exact hbank.storeFilter hne hg a
  case surf =>
    obtain rfl := Option.some.inj hw
    exact h
  case glob =>
    split at hw
    · cases hw
    · next pa _ =>
      obtain rfl := Option.some.inj hw
      have hstep := hrel.trans (.doGlob _ g.column g.core pa a.size v (atHome a))
      exact (h.of_same hstep.groups hstep.gangs).storeFilter hne hg a

theorem Mach.HoldsLanes.scPlace {m m' : Mach} {k : Gang} {ids : List Nat} (h : m.HoldsLanes k ids) (hne : ids ≠ []) {g : Group} (hg : g.gid = k.gid)
    {a : Acc} {v : Nat} {old : Nat} (hw : m.scPlace g a true (fun _ => some v) = some (m', old)) : m'.HoldsLanes k ids := by
  unfold Mach.scPlace at hw
  split at hw
  · cases hw
  · next pa _ =>
    obtain ⟨rfl, -⟩ := Prod.mk.inj (Option.some.inj hw)
    have hback := Mach.CacheStep.l1BackAll m g.column g.core
    have hstore := Mach.CacheStep.store ((m.l1BackAll g.column g.core).stampAt g pa) pa a.size v
    have hfilter := (h.of_same (hstore.groups.trans hback.groups) (hstore.gangs.trans hback.gangs)).storeFilter hne hg a
    have hinv := Mach.CacheStep.l1Inv ((((m.l1BackAll g.column g.core).stampAt g pa).store pa a.size v).storeFilter g a) g.column g.core
    exact hfilter.of_same hinv.groups hinv.gangs

theorem maintPlace_step {m m' : Mach} {g : Group} {a : Acc} {kind : Nat} (hw : m.maintPlace g a kind = some m') : m.CacheStep m' := by
  unfold Mach.maintPlace at hw
  split at hw
  · cases hw
  · obtain rfl := Option.some.inj hw
    split
    · exact (Mach.CacheStep.l1Back _ _ _ _).trans (.l1Back _ _ _ _)
    · exact (Mach.CacheStep.l1Drop _ _ _ _).trans (.l1Drop _ _ _ _)
    · exact ((Mach.CacheStep.l1Room _ _ _ _).trans (.l1Fill _ _ _ _)).trans (.l1Fill _ _ _ _)
    · exact .refl m

theorem Mach.HoldsLanes.storeNow {m m' : Mach} {k : Gang} {ids : List Nat} (h : m.HoldsLanes k ids) (hne : ids ≠ []) {g : Group} (hg : g.gid = k.gid)
    {a : Acc} (hw : m.storeNow g a = some m') : m'.HoldsLanes k ids := by
  unfold Mach.storeNow at hw
  split at hw
  · exact h.writePlace hne hg hw
  · obtain ⟨⟨n, old⟩, hsc, rfl⟩ := Option.map_eq_some_iff.1 hw
    exact h.scPlace hne hg hsc
  · have hstep := maintPlace_step hw
    exact h.of_same hstep.groups hstep.gangs
  · cases hw

theorem Mach.HoldsLanes.issueStores {m : Mach} {k : Gang} {ids : List Nat} (h : m.HoldsLanes k ids) (hne : ids ≠ []) {g : Group} (hg : g.gid = k.gid)
    (cycle : Nat) (as : List Acc) : (m.issueStores g cycle as).HoldsLanes k ids := by
  have hport : ((m.pick 2).2.usePort g cycle as).1.HoldsLanes k ids := h.of_same (usePort_groups _ _ _ _) (usePort_gangs _ _ _ _)
  rcases hp : (m.pick 2).2.usePort g cycle as with ⟨m₁, as₁⟩
  rw [hp] at hport
  simp only [Mach.issueStores, hp]
  split
  · refine foldl_keeps (fun x => x.HoldsLanes k ids) hport fun x a hx => ?_
    split
    · next hw => exact hx.storeNow hne hg hw
    · exact hx.of_same (Mach.queueAccs_groups _ _ _) (Mach.queueAccs_gangs _ _ _)
  · exact hport.of_same (Mach.queueAccs_groups _ _ _) (Mach.queueAccs_gangs _ _ _)

/-- A word whose guarded lanes issue stores, where the lanes pass its check and wait for nothing. -/
theorem storesWord_acts {i : Instr} {d : Desc} {ok : State → Gang → Group → LaneIn → Prop} {as : State → Group → List LaneIn → List Acc}
    (hx : ∀ s, exec i s = word d s) (hi : d.ill = false) (hm : d.more = 0) (hc : d.chk = fun _ _ _ l => .ok l.vs) (hd : d.dyn = fun _ _ => [])
    (ho : d.opx = fun _ _ _ _ => none) (hb : ∀ s k g l, ok s k g l → d.busy s.cfg s.m k g l = false)
    (he : ∀ s k g l, ok s k g l → d.exe s.cfg s.m k g l = none)
    (ha : ∀ (s : State) k g ls, (∀ l ∈ ls, l.t.epi = none) → d.act s.cfg s.m k g ls = (s.m.issueStores g (lastCycle s.m k g) (as s g (ons ls)), [])) :
    Acts i d.form d.cls ok fun s k g ls => s.m.issueStores g (lastCycle s.m k g) (as s g (ons ls)) := by
  refine acts_of hx hi hm hc hd hb (fun _ _ _ _ _ _ => by rw [ho]) (fun s k g vs _ hok l hl => he s k g l (hok l hl))
    (fun s k g vs hr _ => ha s k g _ (lanesIn_plain hr)) fun s k g vs hr _ => ?_
  obtain ⟨-, -, -, hgid⟩ := curGang_spec hr.cur
  exact (hr.holdsLanes.issueStores hr.activeIds_ne_nil hgid _ _).gang_of

/-- Lanes that do not speculate buffer no store (R164). -/
theorem storeWord_act (p : Nat) (f : FSt) (q : Option Modifier) (acc : Accepts) (s : State) (k : Gang) (g : Group) (ls : List LaneIn)
    (h : ∀ l ∈ ls, l.t.epi = none) : (storeWord p f q acc).act s.cfg s.m k g ls
      = (s.m.issueStores g (lastCycle s.m k g) ((ons ls).map fun l => storeOf p g l f q s.m.free), []) := by
  have hbuf : (ons ls).filter (fun l => l.t.epi.isSome) = [] :=
    List.filter_eq_nil_iff.2 fun l hl => by simp [h l (List.mem_of_mem_filter hl)]
  have hnow : (ons ls).filter (fun l => l.t.epi.isNone) = ons ls :=
    List.filter_eq_self.2 fun l hl => by simp [h l (List.mem_of_mem_filter hl)]
  simp only [storeWord, hbuf, hnow, List.foldl_nil]
  rfl

theorem storeWord_acts {i : Instr} {p : Nat} {f : FSt} {q : Option Modifier} {acc : Accepts} (hx : ∀ s, exec i s = word (storeWord p f q acc) s)
    (hz : f.z < 5) : Acts i (storeWord p f q acc).form 1
      (fun s _ g l => memCheck p s.cfg s.m g l f.o (loadForm f.z).1 = none ∧ memBusy false s.m g l = false)
      fun s k g ls => s.m.issueStores g (lastCycle s.m k g) ((ons ls).map fun l => storeOf p g l f q s.m.free) :=
  storesWord_acts (as := fun s g ls => ls.map fun l => storeOf p g l f q s.m.free) hx (decide_eq_false (Nat.not_le.2 hz)) rfl rfl rfl rfl
    (fun _ _ _ _ h => h.2) (fun _ _ _ _ h => h.1) (storeWord_act p f q acc)

/-- Settles O10: the three stores are one word but for their path; whether they are performed at once is a free choice (log entry 11). -/
theorem storeWordsIssue : Obligations.StoreWordsIssue := by
  unfold Obligations.StoreWordsIssue
  simp only [storeRows, List.forall_mem_cons]
  exact ⟨fun f q hz => storeWord_acts (p := 0) (fun _ => rfl) hz, fun f q hz => storeWord_acts (p := 1) (fun _ => rfl) hz,
    fun f q hz => storeWord_acts (p := 2) (acc := {}) (fun _ => rfl) hz, List.forall_mem_nil _⟩

end Sys2Proof.Machine
end

section
/-! PROOFS. Issue of atomics, SC operations, fences and cache words (07 R156 to R161, R171). -/

namespace Sys2Proof.Machine

/-! ### Atomics -/

/-- An atomic queues one access in each guarded lane (R156). -/
theorem atomWord_acts {i : Instr} {op : Nat} {f : FAtom} {q : Option Modifier} (hx : ∀ s, exec i s = word (atomWord op f q) s) :
    Acts i (atomWord op f q).form 1
      (fun s _ g l => globCheck g (l.val 0) 4 = none ∧ lossCheck s.m g (placeOf (l.val 0)).1 0 (placeOf (l.val 0)).2 4 = none
        ∧ memBusy true s.m g l = false)
      fun s k g ls => issueAll s k g ls fun l => atomAcc op q f g l s.m.free := by
  refine longWord_acts (f := fun s g l => atomAcc op q f g l s.m.free) hx rfl rfl rfl rfl rfl (fun s k g l hok => hok.2.2) (fun s k g l hok => ?_)
    fun _ _ _ _ _ => rfl
  obtain ⟨hglob, hloss, -⟩ := hok
  simp only [atomWord, hglob, hloss, Option.orElse]

theorem exec_atomicRow : ∀ r ∈ atomicRows, ∀ f q s, exec (r.1 f q) s = word (atomWord r.2 f q) s := by
  simp only [atomicRows, List.forall_mem_cons]
  refine ⟨?_, ?_, ?_, ?_, ?_, ?_, ?_, ?_, ?_, ?_, ?_, ?_, ?_, List.forall_mem_nil _⟩ <;> exact fun _ _ _ => rfl

/-! ### SC operations -/

/-- The bytes of an SC access of one register or two (R158). -/
theorem scBytes {z : Nat} (h : z < 2) : (if z = 0 then 4 else 8) = 4 * (z + 1) := by
  split <;> omega

/-- `ldsc` of `w` registers (R158). -/
def ldscWord (f : FLdsc) (q : Option Modifier) (w : Nat) : Desc :=
  { c := f.c, q := q, ill := decide (2 ≤ f.z), cls := 1, stop := true, srcs := [{ f := f.a, mm := f.m, w := 2 }]
    dst := some { f := f.d, w := w, long := true }
    exe := fun _ _ _ g l => scCheck g (l.val 0) (4 * w)
    busy := fun _ m _ g l => scBusy m g l
    act := fun _ m k g ls =>
      (m.issueLongs g (lastCycle m k g) ((ons ls).map fun l => scAcc g l (.scLoad (4 * w)) (4 * w) (Dst.regs { f := f.d, w := w }) m.free), []) }

theorem exec_ldsc {f : FLdsc} (q : Option Modifier) (h : f.z < 2) (s : State) : exec (.ldsc f q) s = word (ldscWord f q (f.z + 1)) s := by
  show execLdsc f q s = _
  simp only [execLdsc, scBytes h, Nat.mul_div_cancel_left _ (show 0 < 4 by decide)]
  rfl

theorem ldsc_acts (f : FLdsc) (q : Option Modifier) (h : f.z < 2) : Acts (.ldsc f q)
    { c := f.c, q := q, srcs := [{ f := f.a, mm := f.m, w := 2 }], dst := some { f := f.d, w := f.z + 1, long := true } } 1
    (fun s _ g l => scCheck g (l.val 0) (4 * (f.z + 1)) = none ∧ scBusy s.m g l = false)
    fun s k g ls => issueAll s k g ls fun l =>
      scAcc g l (.scLoad (4 * (f.z + 1))) (4 * (f.z + 1)) (Dst.regs { f := f.d, w := f.z + 1 }) s.m.free :=
  longWord_acts (f := fun s g l => scAcc g l (.scLoad (4 * (f.z + 1))) (4 * (f.z + 1)) (Dst.regs { f := f.d, w := f.z + 1 }) s.m.free)
    (exec_ldsc q h) (decide_eq_false (Nat.not_le.2 h)) rfl rfl rfl rfl (fun _ _ _ _ hok => hok.2) (fun _ _ _ _ hok => hok.1) fun _ _ _ _ _ => rfl

/-- `stsc` of `w` registers (R158). -/
def stscWord (f : FStsc) (q : Option Modifier) (w : Nat) : Desc :=
  { c := f.c, q := q, acc := { hb := true }, ill := decide (2 ≤ f.z), cls := 1, stop := true
    srcs := [{ f := f.a, mm := f.m, w := 2 }, { f := f.b, mm := f.n, w := w, cyc := 1 }]
    exe := fun _ _ _ g l => scCheck g (l.val 0) (4 * w)
    busy := fun _ m _ g l => scBusy m g l
    act := fun _ m k g ls =>
      (m.issueStores g (lastCycle m k g) ((ons ls).map fun l => scAcc g l (.scStore (4 * w) (l.val 1)) (4 * w) [] m.free), []) }

theorem exec_stsc {f : FStsc} (q : Option Modifier) (h : f.z < 2) (s : State) : exec (.stsc f q) s = word (stscWord f q (f.z + 1)) s := by
  show execStsc f q s = _
  simp only [execStsc, scBytes h, Nat.mul_div_cancel_left _ (show 0 < 4 by decide)]
  rfl

theorem stsc_acts (f : FStsc) (q : Option Modifier) (h : f.z < 2) : Acts (.stsc f q)
    { c := f.c, q := q, acc := { hb := true }, srcs := [{ f := f.a, mm := f.m, w := 2 }, { f := f.b, mm := f.n, w := f.z + 1, cyc := 1 }] } 1
    (fun s _ g l => scCheck g (l.val 0) (4 * (f.z + 1)) = none ∧ scBusy s.m g l = false)
    fun s k g ls => s.m.issueStores g (lastCycle s.m k g)
      ((ons ls).map fun l => scAcc g l (.scStore (4 * (f.z + 1)) (l.val 1)) (4 * (f.z + 1)) [] s.m.free) :=
  storesWord_acts (as := fun s g ls => ls.map fun l => scAcc g l (.scStore (4 * (f.z + 1)) (l.val 1)) (4 * (f.z + 1)) [] s.m.free)
    (exec_stsc q h) (decide_eq_false (Nat.not_le.2 h)) rfl rfl rfl rfl (fun _ _ _ _ hok => hok.2) (fun _ _ _ _ hok => hok.1) fun _ _ _ _ _ => rfl

theorem atomscWord_acts {i : Instr} {cas : Bool} {f : FAsc} {q : Option Modifier} (hx : ∀ s, exec i s = word (atomscWord cas f q) s) :
    Acts i (atomscWord cas f q).form 1 (fun s _ g l => scCheck g (l.val 0) 4 = none ∧ scBusy s.m g l = false)
      fun s k g ls => issueAll s k g ls fun l =>
        scAcc g l (.scAtom cas (BitVec.ofNat 32 (l.val 1)) (BitVec.ofNat 32 (l.val 2))) 4 (Dst.regs { f := f.d }) s.m.free :=
  longWord_acts (f := fun s g l => scAcc g l (.scAtom cas (BitVec.ofNat 32 (l.val 1)) (BitVec.ofNat 32 (l.val 2))) 4 (Dst.regs { f := f.d }) s.m.free)
    hx rfl rfl rfl rfl rfl (fun _ _ _ _ hok => hok.2) (fun _ _ _ _ hok => hok.1) fun _ _ _ _ _ => rfl

/-- Settles O11: the rows of Table 07.5 are one word but for the operation, and each SC operation issues as a memory word. -/
theorem atomicAndScWordsIssue : Obligations.AtomicAndScWordsIssue := by
  refine ⟨fun r hr f q => atomWord_acts (exec_atomicRow r hr f q), ldsc_acts, stsc_acts, ?_⟩
  simp only [List.forall_mem_cons]
  exact ⟨fun f q => atomscWord_acts (cas := false) fun _ => rfl, fun f q => atomscWord_acts (cas := true) fun _ => rfl, List.forall_mem_nil _⟩

/-! ### Fences -/

theorem gang?_of_step {m n : Mach} (h : m.CacheStep n) (i : Nat) : n.gang? i = m.gang? i := gang?_of_gangs h.gangs i

/-- `fence` (R160). -/
def fenceWord (f : FC) (q : Option Modifier) : Desc :=
  { c := f.c, q := q, acc := { ords := [1, 2, 3], scopes := 7 }, ill := q.isNone, cls := 1, stop := true
    busy := fun _ m _ g l => accPending m g l.t.tid
    act := fun _ m _ g ls =>
      if (ons ls).isEmpty then (m, [])
      else ((m.releaseAt g (ordOf q) (scopeOf 2 q)).acquireAt g (ordOf q) (scopeOf 2 q), []) }

theorem fenceWord_act (f : FC) (q : Modifier) (s : State) (k : Gang) (g : Group) (ls : List LaneIn) : (fenceWord f (some q)).act s.cfg s.m k g ls
    = (onceFor s ls ((s.m.releaseAt g q.ord q.scope).acquireAt g q.ord q.scope), []) := by
  show (if (ons ls).isEmpty then (s.m, []) else _) = (if (ons ls).isEmpty then _ else _, _)
  split <;> rfl

theorem fence_acts (f : FC) (q : Modifier) : Acts (.fence f (some q)) { c := f.c, q := some q, acc := { ords := [1, 2, 3], scopes := 7 } } 1
    (fun s _ g l => accPending s.m g l.t.tid = false)
    fun s _ g ls => onceFor s ls ((s.m.releaseAt g q.ord q.scope).acquireAt g q.ord q.scope) := by
  have hx s : exec (.fence f (some q)) s = word (fenceWord f (some q)) s := rfl
  refine acts_of hx rfl rfl rfl rfl (fun _ _ _ _ h => h) (fun _ _ _ _ _ _ => rfl) (fun _ _ _ _ _ _ _ _ => rfl)
    (fun s k g vs _ _ => fenceWord_act f q s k g _) fun s k g vs hr _ => gang_kept hr ?_
  have hstep := (Mach.CacheStep.releaseAt s.m g q.ord q.scope).trans (.acquireAt _ g q.ord q.scope)
  unfold onceFor
  split
  · rfl
  · exact gang?_of_step hstep _

theorem fenceT_acts (f : FC) (q : Option Modifier) : Acts (.fenceT f q) (formBare f.c q) 1
    (fun s _ g l => towPending s.m g l.t.tid = false ∧ acqPending s.m g l.t.tid = false) fun s _ _ _ => s.m := by
  have hx s : exec (.fenceT f q) s = word _ s := rfl
  refine acts_of hx rfl rfl rfl rfl (fun s k g l hok => ?_) (fun _ _ _ _ _ _ => rfl) (fun _ _ _ _ _ _ _ _ => rfl) (fun _ _ _ _ _ _ => rfl)
    fun _ _ _ _ hr _ => gang_kept hr rfl
  obtain ⟨htow, hacq⟩ := hok
  simp only [htow, hacq, Bool.or_self]

/-! ### Cache words -/

/-- The maintenance accesses of a cache word, none in the aperture (R171). -/
def maintAccs (kind : Nat) (s : State) (g : Group) (ls : List LaneIn) : List Acc :=
  (ls.filter fun l => !inAperture (l.val 0) && decide (l.val 0 < 2 ^ 57)).map fun l =>
    { gid := g.gid, tid := l.t.tid, op := .maint kind, path := .glob, addr := l.val 0 / 128 * 128, size := 128, issued := s.m.free }

/-- A cache word of kind `kind` on the lines that its guarded lanes name, where it passes its own check (R171). -/
theorem maintWord_acts {i : Instr} {c : Bool} {q : Option Modifier} {a : Nat} {mm ill stop pref : Bool} {kind : Nat}
    {ok : State → Gang → Group → LaneIn → Prop} (hx : ∀ s, exec i s = word (maintWord c q a mm ill stop pref kind) s) (hi : ill = false)
    (hb : ∀ s k g l, ok s k g l → memBusy false s.m g l = false) (he : ∀ s k g l, ok s k g l → pref = true ∨ l.val 0 < 2 ^ 57) :
    Acts i (formA c q a mm 2) 1 ok fun s k g ls => s.m.issueStores g (lastCycle s.m k g) (maintAccs kind s g (ons ls)) := by
  refine storesWord_acts (d := maintWord c q a mm ill stop pref kind) (as := maintAccs kind) hx hi rfl rfl rfl rfl hb (fun s k g l hok => ?_)
    fun _ _ _ _ _ => rfl
  exact if_pos (by simpa using he s k g l hok)

theorem prefetch_acts (f : FPref) (q : Option Modifier) (h : f.l < 2) : Acts (.prefetch f q) (formA f.c q f.a f.m 2) 1
    (fun s _ g l => memBusy false s.m g l = false)
    fun s k g ls => s.m.issueStores g (lastCycle s.m k g) (maintAccs (2 + f.l) s g (ons ls)) :=
  maintWord_acts (fun _ => rfl) (decide_eq_false (Nat.not_le.2 h)) (fun _ _ _ _ hok => hok) fun _ _ _ _ _ => .inl rfl

/-- Settles O12: the fences act on the L1 alone, and the cache words are one word but for their kind and for what they trap. -/
theorem fenceAndCacheWordsComplete : Obligations.FenceAndCacheWordsComplete := by
  refine ⟨fence_acts, fenceT_acts, ?_, prefetch_acts⟩
  simp only [List.forall_mem_cons]
  exact ⟨fun f q => maintWord_acts (fun _ => rfl) rfl (fun _ _ _ _ hok => hok.2) fun _ _ _ _ hok => .inr hok.1,
    fun f q => maintWord_acts (fun _ => rfl) rfl (fun _ _ _ _ hok => hok.2) fun _ _ _ _ hok => .inr hok.1, List.forall_mem_nil _⟩

end Sys2Proof.Machine
end

section
/-! PROOFS. The group barrier (07 R162, R163, 10 R234). -/

namespace Sys2Proof.Machine

/-! ### The group barrier -/

theorem Mach.settleBarrier_gangs (m : Mach) (gid : Nat) : (m.settleBarrier gid).gangs = m.gangs := by
  unfold Mach.settleBarrier
  split
  · split <;> rfl
  · rfl

theorem Mach.checkBarrier_gangs (m : Mach) (gid : Nat) : (m.checkBarrier gid).gangs = m.gangs := by
  unfold Mach.checkBarrier
  split
  · split
    · exact Mach.settleBarrier_gangs _ _
    · rfl
  · rfl

/-- Arrival at the barrier moves no gang. -/
theorem arrived_gangs (s : State) (g : Group) (ls : List LaneIn) : (arrived s g ls).gangs = s.m.gangs := Mach.checkBarrier_gangs _ _

theorem Mach.mapLanes_nil (m : Mach) (gid : Nat) (f : LaneIn → Thread → Thread) : m.mapLanes gid [] f = m :=
  m.onGroup_same _ _ fun g => by simp only [Group.mapLanes, List.find?_nil, List.map_id']

/-- Where no lane waits, all leave the barrier. -/
theorem leaveBar_nil (m : Mach) (g : Group) (ls : List LaneIn) : leaveBar m g ls [] = m.mapLanes g.gid ls fun _ t => { t with bar := none } := by
  simp only [leaveBar, List.contains_nil, Bool.not_false, List.filter_true]

theorem barBusy_of_free {s : State} {g : Group} {ls : List LaneIn} (h : barFree s g ls) : ∀ l ∈ ons ls, barBusy s.m g l = false := by
  intro l hl
  obtain ⟨hacc, hacq⟩ := h l (List.mem_of_mem_filter hl)
  simp only [barBusy, hacc, hacq, Bool.or_self]

/-- What `bar` and `bar.s` share (R162, R163). -/
def barForm (f : FC) (q : Option Modifier) (act : Mach → Gang → Group → List LaneIn → Mach × List Nat) : Desc :=
  { c := f.c, q := q, acc := { any := false }, cls := 1, stop := true, blk := true, busy := fun _ m _ g l => barBusy m g l, act := fun _ => act }

/-- A barrier word whose lanes are free completes where no lane has to wait. -/
theorem barForm_acts {i : Instr} {f : FC} {q : Option Modifier} {act : Mach → Gang → Group → List LaneIn → Mach × List Nat}
    {ok : State → Gang → Group → List LaneIn → Prop} {eff : State → Gang → Group → List LaneIn → Mach}
    (hx : ∀ s, exec i s = word (barForm f q act) s) (hb : ∀ s k g ls, ok s k g ls → barFree s g ls)
    (ha : ∀ s k g ls, ok s k g ls → act s.m k g ls = (eff s k g ls, [])) (hk : ∀ s k g ls, (eff s k g ls).gangs = s.m.gangs) :
    ActsWhen i (formBar f q) 1 ok eff :=
  actsWhen_of hx rfl rfl rfl rfl (fun s k g _ _ hok => barBusy_of_free (hb s k g _ hok)) (fun _ _ _ _ _ _ => rfl) (fun _ _ _ _ _ _ _ _ => rfl)
    (fun s k g _ _ hok => ha s k g _ hok) fun s k g _ _ _ => gang?_of_gangs (hk s k g _) _

/-- `bar` (R162). -/
def barAct (m : Mach) (_ : Gang) (g : Group) (ls : List LaneIn) : Mach × List Nat :=
  (leaveBar (arriveBar m g ls) g ls (barWaiters (arriveBar m g ls) g.gid ls), barWaiters (arriveBar m g ls) g.gid ls)

theorem barAct_complete {s : State} {k : Gang} {g : Group} {ls : List LaneIn} (h : barWaiters (arrived s g ls) g.gid ls = []) :
    barAct s.m k g ls = ((arrived s g ls).mapLanes g.gid ls fun _ t => { t with bar := none }, []) := by
  show (leaveBar (arrived s g ls) g ls (barWaiters (arrived s g ls) g.gid ls), barWaiters (arrived s g ls) g.gid ls) = _
  rw [h, leaveBar_nil]

theorem exec_bar (f : FC) (q : Option Modifier) (s : State) : exec (.bar f q) s = word (barForm f q barAct) s := rfl

theorem bar_parks (f : FC) (q : Option Modifier) : ParksWhen (.bar f q) (formBar f q) 1
    (fun s _ g ls => barFree s g ls ∧ barWaiters (arrived s g ls) g.gid ls ≠ [])
    (fun s _ g ls => leaveBar (arrived s g ls) g ls (barWaiters (arrived s g ls) g.gid ls))
    fun s _ g ls => barWaiters (arrived s g ls) g.gid ls :=
  parksWhen_of (exec_bar f q) rfl rfl rfl rfl (fun _ _ _ _ _ hok => barBusy_of_free hok.1) (fun _ _ _ _ _ _ => rfl) (fun _ _ _ _ _ _ _ _ => rfl)
    (fun _ _ _ _ _ _ => rfl) (fun _ _ _ _ _ hok => hok.2)
    fun s _ g _ hr _ => gang_kept (d := barForm f q barAct) hr (gang?_of_gangs (arrived_gangs s g _) _)

/-- `bar.s` (R163): the lanes `spec` speculate, those of `w` wait, and the others leave the barrier. -/
def specBar (m : Mach) (k : Gang) (g : Group) (ls spec : List LaneIn) (w : List Nat) : Mach × List Nat :=
  ((m.mapLanes g.gid spec fun _ t => t.speculate k g.round).mapLanes g.gid
    (ls.filter fun l => !w.contains l.t.tid && !(spec.map (·.t.tid)).contains l.t.tid) fun _ t => { t with bar := none }, w)

/-- The lanes that `bar.s` lets speculate (R163). -/
def specLanes (ls : List LaneIn) (w : List Nat) : List LaneIn := (ls.filter fun l => l.t.bar.isNone).filter fun l => w.contains l.t.tid

/-- `bar.s` in a group with an SPC granule, and without one (R163). -/
def barSAct (m : Mach) (k : Gang) (g : Group) (ls : List LaneIn) : Mach × List Nat :=
  if 0 < g.hold.spc then
    specBar (arriveBar m g ls) k g ls (specLanes ls (barWaiters (arriveBar m g ls) g.gid ls))
      ((barWaiters (arriveBar m g ls) g.gid ls).filter fun i =>
        !((specLanes ls (barWaiters (arriveBar m g ls) g.gid ls)).map (·.t.tid)).contains i)
  else (leaveBar (arriveBar m g ls) g ls (barWaiters (arriveBar m g ls) g.gid ls), barWaiters (arriveBar m g ls) g.gid ls)

theorem exec_barS (f : FC) (q : Option Modifier) (s : State) : exec (.barS f q) s = word (barForm f q barSAct) s := rfl

/-- Lanes that arrive first and all wait all speculate. -/
theorem specLanes_all {ls : List LaneIn} (h : ∀ l ∈ ls, l.t.bar = none) : specLanes ls (ls.map (·.t.tid)) = ls := by
  have hfresh : ls.filter (fun l => l.t.bar.isNone) = ls := List.filter_eq_self.2 fun l hl => by simp [h l hl]
  rw [specLanes, hfresh]
  exact List.filter_eq_self.2 fun l hl => by simpa using ⟨l, hl, rfl⟩

theorem specLanes_nil (ls : List LaneIn) : specLanes ls [] = [] := by
  simp only [specLanes, List.contains_nil, List.filter_false]

/-- Where every lane speculates, none waits and none leaves. -/
theorem specBar_all (m : Mach) (k : Gang) (g : Group) (ls : List LaneIn) :
    specBar m k g ls ls ((ls.map (·.t.tid)).filter fun i => !(ls.map (·.t.tid)).contains i)
      = (m.mapLanes g.gid ls fun _ t => t.speculate k g.round, []) := by
  have hwait : (ls.map (·.t.tid)).filter (fun i => !(ls.map (·.t.tid)).contains i) = [] := List.filter_eq_nil_iff.2 fun i hi => by simpa using hi
  have hleave : ls.filter (fun l => !([] : List Nat).contains l.t.tid && !(ls.map (·.t.tid)).contains l.t.tid) = [] :=
    List.filter_eq_nil_iff.2 fun l hl => by simpa using ⟨l, hl, rfl⟩
  rw [hwait, specBar, hleave, Mach.mapLanes_nil]

theorem specBar_nil (m : Mach) (k : Gang) (g : Group) (ls : List LaneIn) :
    specBar m k g ls [] [] = (m.mapLanes g.gid ls fun _ t => { t with bar := none }, []) := by
  simp only [specBar, Mach.mapLanes_nil, List.map_nil, List.contains_nil, Bool.not_false, Bool.and_self, List.filter_true]

theorem barSAct_speculates {s : State} {k : Gang} {g : Group} {ls : List LaneIn} (hspc : 0 < g.hold.spc) (hfresh : ∀ l ∈ ls, l.t.bar = none)
    (h : barWaiters (arrived s g ls) g.gid ls = ls.map (·.t.tid)) :
    barSAct s.m k g ls = ((arrived s g ls).mapLanes g.gid ls fun _ t => t.speculate k g.round, []) := by
  have h' : barWaiters (arriveBar s.m g ls) g.gid ls = ls.map (·.t.tid) := h
  rw [barSAct, if_pos hspc, h', specLanes_all hfresh]
  exact specBar_all _ k g ls

theorem barSAct_complete {s : State} {k : Gang} {g : Group} {ls : List LaneIn} (h : barWaiters (arrived s g ls) g.gid ls = []) :
    barSAct s.m k g ls = ((arrived s g ls).mapLanes g.gid ls fun _ t => { t with bar := none }, []) := by
  have h' : barWaiters (arriveBar s.m g ls) g.gid ls = [] := h
  rw [barSAct, h', specLanes_nil, List.filter_nil, specBar_nil, leaveBar_nil, ite_self]
  rfl

/-- Settles O13: `bar` and `bar.s` differ only in the lanes that find others missing. -/
theorem barrierWordsCompleteOrWait : Obligations.BarrierWordsCompleteOrWait := by
  refine ⟨fun f q => ?_, bar_parks, fun f q => ?_, fun f q => ?_⟩
  · exact barForm_acts (exec_bar f q) (fun _ _ _ _ hok => hok.1) (fun _ _ _ _ hok => barAct_complete hok.2) fun s _ g ls => arrived_gangs s g ls
  · refine barForm_acts (exec_barS f q) (fun _ _ _ _ hok => hok.2.1) (fun _ _ _ _ hok => ?_) fun s _ g ls => arrived_gangs s g ls
    obtain ⟨hspc, -, hfresh, hwait⟩ := hok
    exact barSAct_speculates hspc hfresh hwait
  · exact barForm_acts (exec_barS f q) (fun _ _ _ _ hok => hok.1) (fun _ _ _ _ hok => barSAct_complete hok.2) fun s _ g ls => arrived_gangs s g ls

end Sys2Proof.Machine
end

section
/-! PROOFS. Phase barriers (07 R166 to R168). -/

namespace Sys2Proof.Machine

/-! ### Objects -/

theorem PhaseObj.arrive_pend {o : PhaseObj} {b : Nat} (h0 : b ≠ 0) (h : b ≤ o.pend) : o.arrive b = some { o with pend := o.pend - b } :=
  if_neg fun hor => hor.elim h0 (Nat.not_lt.2 h)

theorem PhaseObj.arrive_refused {o : PhaseObj} {b : Nat} (h : b = 0 ∨ o.pend < b) : o.arrive b = none := if_pos h

/-- Writes of objects move no gang. -/
theorem Mach.putPhase_gangs (m : Mach) (gid off : Nat) (o : PhaseObj) : (m.putPhase gid off o).gangs = m.gangs := by rw [putPhase_keeps]

theorem Mach.settlePhase_gangs (m : Mach) (gid off : Nat) (o : PhaseObj) : (m.settlePhase gid off o).gangs = m.gangs := by rw [settlePhase_keeps]

theorem Mach.pbAcquire_gangs (m : Mach) (g : Group) (offs : List Nat) (p : Nat) : (m.pbAcquire g offs p).gangs = m.gangs := by
  unfold Mach.pbAcquire
  split
  · exact (Mach.CacheStep.l1Inv m g.column g.core).gangs
  · rfl

theorem foldl_gangs {α : Type} {xs : List α} {m : Mach} {f : Mach → α → Mach} (h : ∀ m x, (f m x).gangs = m.gangs) : (xs.foldl f m).gangs = m.gangs :=
  foldl_keeps (fun n => n.gangs = m.gangs) rfl fun n x hn => (h n x).trans hn

/-! ### Words with a count -/

theorem pbinit_acts (f : FPb) (q : Option Modifier) : Acts (.pbinit f q) (formPb f q) 1
    (fun s _ g l => pbCheck s.m g (l.val 0) = none ∧ l.val 1 ≠ 0 ∧ l.val 1 ≤ 2 ^ 20 ∧ pbBusy s.m g l = false)
    fun s _ g ls => (ons ls).foldl (fun m l => (m.putPhase g.gid (l.val 0) { pend := l.val 1, expect := l.val 1, bal := 0, ph := 0 }).onGroup g.gid fun x =>
      { x with globCount := x.globCount.filter fun y => y.1 != l.val 0 }) s.m := by
  have hx s : exec (.pbinit f q) s = word _ s := rfl
  refine acts_of hx rfl rfl rfl rfl (fun s k g l hok => ?_) (fun _ _ _ _ _ _ => rfl) (fun s k g vs _ hok l hl => ?_) (fun _ _ _ _ _ _ => rfl)
    fun s k g vs hr _ => gang_kept hr (gang?_of_gangs (foldl_gangs fun m l =>
      (Mach.onGroup_gangs _ _ _).trans (Mach.putPhase_gangs _ _ _ _)) _)
  · obtain ⟨-, -, -, hbusy⟩ := hok
    exact (Bool.or_false _).trans hbusy
  · obtain ⟨hcheck, hzero, hle, -⟩ := hok l hl
    simp only [hcheck, Option.orElse, if_neg fun h : l.val 1 = 0 ∨ 2 ^ 20 < l.val 1 => h.elim hzero (Nat.not_lt.2 hle)]

theorem pbarrive_acts (f : FPb) (q : Option Modifier) : ActsWhen (.pbarrive f q) (formPb f q) 1
    (fun s _ g ls => ∀ l ∈ ons ls, pbCheck s.m g (l.val 0) = none ∧ pbBusy s.m g l = false ∧ accPending s.m g l.t.tid = false
      ∧ l.val 1 ≠ 0 ∧ l.val 1 ≤ (objBefore s.m g ls l).pend)
    fun s _ g ls => (ons ls).foldl (fun m l => match (m.phaseObj g.gid (l.val 0)).arrive (l.val 1) with
      | some o => m.settlePhase g.gid (l.val 0) o
      | none => m) s.m := by
  have hx s : exec (.pbarrive f q) s = word _ s := rfl
  refine actsWhen_of hx rfl rfl rfl rfl (fun s k g vs _ hok l hl => ?_) (fun _ _ _ _ _ _ => rfl) (fun s k g vs hr hok l hl => ?_)
    (fun _ _ _ _ _ _ => rfl) fun s k g vs _ _ => gang?_of_gangs (foldl_gangs fun m l => ?_) _
  · obtain ⟨-, hbusy, hacc, -⟩ := hok l hl
    simp only [pbWord, hbusy, hacc, Bool.and_false, Bool.or_self]
  · obtain ⟨hcheck, -, -, hzero, hle⟩ := hok l hl
    have hlanes : gangLanes (pbWord f q true) s.m k g = (formPb f q).activeIn s k g vs := gangLanes_ready (d := pbWord f q true) hr rfl
    have harrive : (objBefore s.m g ((formPb f q).activeIn s k g vs) l).arrive (l.val 1) = some _ := PhaseObj.arrive_pend hzero hle
    simp only [hcheck, Option.orElse, hlanes, harrive]
  · split
    · exact Mach.settlePhase_gangs _ _ _ _
    · rfl

theorem pbexpect_acts (f : FPb) (q : Option Modifier) : Acts (.pbexpect f q) (formPb f q) 1
    (fun s _ g l => pbCheck s.m g (l.val 0) = none ∧ pbBusy s.m g l = false)
    fun s _ g ls => (ons ls).foldl (fun m l =>
      if l.val 1 = 0 then m
      else m.settlePhase g.gid (l.val 0)
        { m.phaseObj g.gid (l.val 0) with bal := sext (bitsI ((m.phaseObj g.gid (l.val 0)).bal - l.val 1) 32) 32 }) s.m := by
  have hx s : exec (.pbexpect f q) s = word _ s := rfl
  refine acts_of hx rfl rfl rfl rfl (fun s k g l hok => (Bool.or_false _).trans hok.2) (fun _ _ _ _ _ _ => rfl) (fun s k g vs _ hok l hl => (hok l hl).1)
    (fun _ _ _ _ _ _ => rfl) fun s k g vs hr _ => gang_kept hr (gang?_of_gangs (foldl_gangs fun m l => ?_) _)
  split
  · rfl
  · exact Mach.settlePhase_gangs _ _ _ _

/-! ### Words with a parity -/

/-- What `pbwait` and `pbtest` share: they read the parity of an object in a lane (R167). -/
def parityWord (c : Bool) (q : Option Modifier) (a : Nat) (mm : Bool) (act : Mach → Gang → Group → List LaneIn → Mach × List Nat) : Desc :=
  { c := c, q := q, cls := 1, stop := true, srcs := [{ f := a, mm := mm }], exe := fun _ m _ g l => pbCheck m g (l.val 0), blk := true
    busy := fun _ m _ g l => pbBusy m g l, act := fun _ => act }

/-- `pbwait` for the end of phase `p`. -/
def pbwaitAct (p : Nat) (m : Mach) (_ : Gang) (g : Group) (ls : List LaneIn) : Mach × List Nat :=
  (m.pbAcquire g (((ons ls).filter fun l => (m.phaseObj g.gid (l.val 0)).ph != p).map fun l => l.val 0) p,
    ((ons ls).filter fun l => (m.phaseObj g.gid (l.val 0)).ph == p).map (·.t.tid))

theorem exec_pbwait (f : FPbw) (q : Option Modifier) (s : State) :
    exec (.pbwait f q) s = word (parityWord f.c q f.a f.m (pbwaitAct (if f.p then 1 else 0))) s := rfl

/-- Where every object has left the phase, no lane waits. -/
theorem pbwaitAct_passed {p : Nat} {s : State} {k : Gang} {g : Group} {ls : List LaneIn} (h : ∀ l ∈ ons ls, (phaseOf s g l).ph ≠ p) :
    pbwaitAct p s.m k g ls = (s.m.pbAcquire g ((ons ls).map fun l => l.val 0) p, []) := by
  have hdone : (ons ls).filter (fun l => (phaseOf s g l).ph != p) = ons ls := List.filter_eq_self.2 fun l hl => by simpa using h l hl
  have hwait : (ons ls).filter (fun l => (phaseOf s g l).ph == p) = [] := List.filter_eq_nil_iff.2 fun l hl => by simpa using h l hl
  simp only [phaseOf] at hdone hwait
  simp only [pbwaitAct, hdone, hwait, List.map_nil]

theorem pbwait_acts (f : FPbw) (q : Option Modifier) : Acts (.pbwait f q) (formA f.c q f.a f.m 1) 1
    (fun s _ g l => pbCheck s.m g (l.val 0) = none ∧ pbBusy s.m g l = false ∧ (phaseOf s g l).ph ≠ if f.p then 1 else 0)
    fun s _ g ls => s.m.pbAcquire g ((ons ls).map fun l => l.val 0) (if f.p then 1 else 0) := by
  refine acts_of (exec_pbwait f q) rfl rfl rfl rfl (fun _ _ _ _ hok => hok.2.1) (fun _ _ _ _ _ _ => rfl) (fun _ _ _ _ _ hok l hl => (hok l hl).1)
    (fun s k g vs _ hok => pbwaitAct_passed (k := k) fun l hl => ?_) fun s k g vs hr _ => gang_kept hr (gang?_of_gangs (Mach.pbAcquire_gangs _ _ _ _) _)
  rw [ons_activeIn] at hl
  exact (hok l hl).2.2

theorem pbwait_parks (f : FPbw) (q : Option Modifier) : ParksWhen (.pbwait f q) (formA f.c q f.a f.m 1) 1
    (fun s _ g ls => (∀ l ∈ ons ls, pbCheck s.m g (l.val 0) = none ∧ pbBusy s.m g l = false)
      ∧ ∃ l ∈ ons ls, (phaseOf s g l).ph = if f.p then 1 else 0)
    (fun s _ g ls => s.m.pbAcquire g (((ons ls).filter fun l => (phaseOf s g l).ph != if f.p then 1 else 0).map fun l => l.val 0) (if f.p then 1 else 0))
    fun s _ g ls => ((ons ls).filter fun l => (phaseOf s g l).ph == if f.p then 1 else 0).map (·.t.tid) := by
  refine parksWhen_of (exec_pbwait f q) rfl rfl rfl rfl (fun _ _ _ _ _ hok l hl => (hok.1 l hl).2) (fun _ _ _ _ _ _ => rfl)
    (fun _ _ _ _ _ hok l hl => (hok.1 l hl).1) (fun _ _ _ _ _ _ => rfl) (fun s k g vs _ hok => ?_)
    fun s k g vs hr _ => gang_kept (d := parityWord f.c q f.a f.m (pbwaitAct (if f.p then 1 else 0))) hr
      (gang?_of_gangs (Mach.pbAcquire_gangs _ _ _ _) _)
  obtain ⟨-, l, hl, hph⟩ := hok
  exact List.ne_nil_of_mem (List.mem_map_of_mem (List.mem_filter.2 ⟨hl, beq_iff_eq.2 hph⟩))

theorem pbtest_acts (f : FPbt) (q : Option Modifier) : Acts (.pbtest f q) (formA f.c q f.a f.m 1) 1
    (fun s _ g l => pbCheck s.m g (l.val 0) = none ∧ pbBusy s.m g l = false)
    fun s k g ls => ((laneNow (fun l => predOut f.k ((phaseOf s g l).ph != if f.p then 1 else 0)) s.m k ls).1).pbAcquire g
      (((ons ls).filter fun l => (phaseOf s g l).ph != if f.p then 1 else 0).map fun l => l.val 0) (if f.p then 1 else 0) := by
  have hx s : exec (.pbtest f q) s = word _ s := rfl
  exact acts_of hx rfl rfl rfl rfl (fun _ _ _ _ hok => hok.2) (fun _ _ _ _ _ _ => rfl) (fun _ _ _ _ _ hok l hl => (hok l hl).1)
    (fun _ _ _ _ _ _ => rfl) fun s k g vs hr _ => gang_kept hr (gang?_of_gangs (Mach.pbAcquire_gangs _ _ _ _) _)

/-- Settles O14, one word at a time; the facts about an object are the cases of its two operations. -/
theorem phaseBarrierWordsComplete : Obligations.PhaseBarrierWordsComplete :=
  ⟨pbinit_acts, pbarrive_acts, pbexpect_acts, pbwait_acts, pbwait_parks, pbtest_acts, fun _ _ h0 h => PhaseObj.arrive_pend (Nat.pos_iff_ne_zero.1 h0) h,
    fun _ _ h => PhaseObj.arrive_refused h, fun _ hpend hbal => if_pos ⟨hpend, hbal⟩, fun _ h => if_neg h⟩

end Sys2Proof.Machine
end

section
/-! PROOFS. `waitc` (07 R169, R170): the words that several lanes wait for are read at their homes one lane after another, each after the write-back of its
sector. The write-backs for the earlier lanes change what no later lane finds. -/

namespace Sys2Proof.Machine

/-! ### The newest byte -/

/-- A byte as its home holds it once a core has written back its sector: the L1's where it is dirty there (R152). -/
def Mach.newest (m : Mach) (col c b : Nat) : Nat :=
  match (m.core col c).sector? b with
  | some x => if x.dirty.getLsbD (b % 64) = true then (byteAt x.data (b % 64)).toNat else m.homeRead b 1
  | none => m.homeRead b 1

theorem newest_none {m : Mach} {col c b : Nat} (h : (m.core col c).sector? b = none) : m.newest col c b = m.homeRead b 1 := by
  simp only [Mach.newest, h]

/-- A byte at its home after a sector has left the L1. -/
theorem homeRead_l1Drop (m : Mach) (col c sec b : Nat) :
    (m.l1Drop col c sec).homeRead b 1 = if b / 64 = sec then m.newest col c b else m.homeRead b 1 := by
  have hsame (h : b / 64 = sec) : (m.core col c).sector? b = (m.core col c).sector? (sec * 64) := sector?_congr _ (by omega)
  refine (homeRead_onCore _ _ _ _ b 1).trans ?_
  cases hx : (m.core col c).sector? (sec * 64) with
  | none =>
    simp only [Mach.l1Back, hx]
    split
    · next h => exact (newest_none ((hsame h).trans hx)).symm
    · rfl
  | some x =>
    rw [homeRead_l1Back hx]
    by_cases h : b / 64 = sec
    · simp only [Mach.newest, hsame h, hx, h, true_and, if_true]
    · simp only [h, false_and, if_false]

/-- Masked bytes that go home leave every L1 as it was. -/
theorem storeMasked_core (m : Mach) (pa : Nat) (src : Mem) (mask : BitVec 64) (a b : Nat) : (m.storeMasked pa src mask).core a b = m.core a b := by
  refine foldl_keeps (fun n => n.core a b = m.core a b) rfl fun n i hn => ?_
  split
  · rw [homeWrite_keeps]
    exact hn
  · exact hn

/-- Other sectors of the L1 stay. -/
theorem sector?_l1Drop_ne (m : Mach) (col c : Nat) {sec b : Nat} (h : b / 64 ≠ sec) :
    ((m.l1Drop col c sec).core col c).sector? b = (m.core col c).sector? b := by
  rw [Mach.l1Drop, core_onCore, sector?_without, if_neg h]
  cases hx : (m.core col c).sector? (sec * 64) with
  | none => simp only [Mach.l1Back, hx]
  | some x =>
    have hsec : x.sec ≠ b / 64 := by
      have := sector?_sec hx
      omega
    simp only [Mach.l1Back, hx]
    split
    · rw [core_onCore, sector?_putSector, if_neg hsec, storeMasked_core]
    · rw [core_onCore, sector?_without, if_neg h, storeMasked_core]

/-- Sectors that leave an L1 take no newest byte with them. -/
theorem newest_l1Drop (m : Mach) (col c sec b : Nat) : (m.l1Drop col c sec).newest col c b = m.newest col c b := by
  by_cases h : b / 64 = sec
  · have hgone : ((m.l1Drop col c sec).core col c).sector? b = none := by
      rw [Mach.l1Drop, core_onCore, sector?_without, if_pos h]
    rw [newest_none hgone, homeRead_l1Drop, if_pos h]
  · simp only [Mach.newest, sector?_l1Drop_ne m col c h, homeRead_l1Drop, if_neg h]

/-! ### Sectors that leave the L1 -/

/-- From `m` to `n` sectors of a core's L1 may have gone home. -/
structure Mach.DropStep (col c : Nat) (m n : Mach) : Prop where
  step : m.CacheStep n
  newest : ∀ b, n.newest col c b = m.newest col c b

namespace Mach.DropStep

variable {col c : Nat} {m n : Mach}

theorem refl (col c : Nat) (m : Mach) : Mach.DropStep col c m m := ⟨.refl m, fun _ => rfl⟩

theorem l1Drop (h : Mach.DropStep col c m n) (sec : Nat) : Mach.DropStep col c m (n.l1Drop col c sec) :=
  ⟨h.step.trans (.l1Drop n col c sec), fun b => (newest_l1Drop n col c sec b).trans (h.newest b)⟩

/-- A word of one sector reads alike after the write-back of its sector. -/
theorem homeRead (h : Mach.DropStep col c m n) {pa k : Nat} (hk : pa % 64 + k ≤ 64) :
    (n.l1Drop col c (pa / 64)).homeRead pa k = (m.l1Drop col c (pa / 64)).homeRead pa k := by
  refine homeRead_bytes hk fun i hi => ?_
  have hsec : (pa + i) / 64 = pa / 64 := by omega
  rw [homeRead_l1Drop, homeRead_l1Drop, if_pos hsec, if_pos hsec, h.newest]

end Mach.DropStep

/-! ### The check of a lane -/

theorem tlbHit_of_step {m n : Mach} (h : m.CacheStep n) (vf va : Nat) (write fetch : Bool) : n.tlbHit vf va write fetch = m.tlbHit vf va write fetch := by
  simp only [Mach.tlbHit, h.tlb]

theorem globPending_of_step {m n : Mach} (h : m.CacheStep n) (g : Group) (tid addr k : Nat) : globPending n g tid addr k = globPending m g tid addr k := by
  have haccs : n.accsOf g tid = m.accsOf g tid := by simp only [Mach.accsOf, h.accs]
  have hmeets : n.meets = m.meets := by
    rw [h.rest]
    rfl
  simp only [globPending, haccs, hmeets]

/-- A translation keeps the low bits of an aligned address (R332). -/
theorem tlbHit_aligned {m : Mach} {vf va pa : Nat} {write fetch : Bool} (h : m.tlbHit vf va write fetch = some pa) (ha : va % 4 = 0) : pa % 64 + 4 ≤ 64 := by
  obtain ⟨e, -, rfl⟩ := Option.map_eq_some_iff.1 h
  have hphys : e.phys va % 4 = 0 := by
    simp only [TlbEnt.phys, hostBase]
    split <;> omega
  omega

theorem scCheck_aligned {g : Group} {a n : Nat} (h : scCheck g a n = none) : a % n = 0 := by
  by_contra hne
  simp only [scCheck, if_pos hne] at h
  cases h

/-- The monitor that a lane sets where its word does not meet the condition (R170). -/
def Mach.watch (m : Mach) (g : Group) (tid pa cond : Nat) (b : Word) : Mach :=
  { m with monitors := { gid := g.gid, tid := tid, pa := pa, cond := cond, b := b, armed := decide (m.armedAt pa < 1024)
                         met := false, column := g.column, lastPoll := m.etime } :: m.monitors }

/-- A lane that may read its word reads it at its home (R246). -/
theorem checkWaitc_read {s : State} {m : Mach} {g : Group} {tid addr pa : Nat} (cond : Nat) (b : Word) (hfree : waitcFree s g tid addr)
    (htlb : s.m.tlbHit g.env.vf addr false false = some pa) (hm : Mach.DropStep g.column g.core s.m m) :
    m.checkWaitc g tid addr cond b
      = if waitcHolds cond (BitVec.ofNat 32 ((s.m.l1Drop g.column g.core (pa / 64)).homeRead pa 4)) b = true then (m.l1Drop g.column g.core (pa / 64), true)
        else ((m.l1Drop g.column g.core (pa / 64)).watch g tid pa cond b, false) := by
  obtain ⟨hcheck, -, hpend, -, hmon⟩ := hfree
  have hword := hm.homeRead (tlbHit_aligned htlb (scCheck_aligned hcheck))
  rw [← globPending_of_step hm.step] at hpend
  rw [← tlbHit_of_step hm.step] at htlb
  simp only [Mach.checkWaitc, hm.step.monitor _ _ hmon, hpend, htlb, hword, Bool.false_eq_true, if_false]
  rfl

/-! ### The word -/

/-- The checks of the lanes, one after another, and the lanes that are not satisfied. -/
def waitcChecks (f : FWaitc) (g : Group) (r : Mach × List Nat) (ls : List LaneIn) : Mach × List Nat :=
  ls.foldl (fun r l =>
    let x := r.1.checkWaitc g l.t.tid (l.val 0) f.p (BitVec.ofNat 32 (l.val 1))
    (x.1, if x.2 then r.2 else r.2 ++ [l.t.tid])) r

/-- `waitc` (R169). -/
def waitcWord (f : FWaitc) (q : Option Modifier) : Desc :=
  { c := f.c, q := q, acc := { hb := true, ords := [0, 1], scopes := 7 }, ill := f.p == 7, cls := 1, stop := true
    srcs := [{ f := f.a, mm := f.m, w := 2 }, { f := f.b, mm := f.n, cyc := 1 }]
    exe := fun _ m _ g l => match scCheck g (l.val 0) 4 with
      | some c => some c
      | none => if m.wordLost g (l.val 0) then some (.dataloss, 0) else none
    blk := true
    busy := fun _ m _ g l => acqPending m g l.t.tid
    act := fun _ m _ g ls =>
      let r := waitcChecks f g (m, []) (ons ls)
      if r.2.isEmpty ∧ !(ons ls).isEmpty then (r.1.acquireAt g (ordOf q) (scopeOf 2 q), []) else r }

theorem exec_waitc (f : FWaitc) (q : Option Modifier) (s : State) : exec (.waitc f q) s = word (waitcWord f q) s := rfl

theorem waitcWord_exe {f : FWaitc} {q : Option Modifier} {s : State} {k : Gang} {g : Group} {l : LaneIn} (h : waitcFree s g l.t.tid (l.val 0)) :
    (waitcWord f q).exe s.cfg s.m k g l = none := by
  obtain ⟨hcheck, -, -, hlost, -⟩ := h
  simp only [waitcWord, hcheck, hlost, Bool.false_eq_true, if_false]

/-- A lane whose word meets the condition. -/
def waitcMet (f : FWaitc) (s : State) (g : Group) (l : LaneIn) : Prop :=
  waitcFree s g l.t.tid (l.val 0) ∧ ∃ pa, s.m.tlbHit g.env.vf (l.val 0) false false = some pa
    ∧ waitcHolds f.p (BitVec.ofNat 32 ((s.m.l1Drop g.column g.core (pa / 64)).homeRead pa 4)) (BitVec.ofNat 32 (l.val 1)) = true

/-- A lane's word leaves the L1 (R246). -/
def dropWord (s : State) (g : Group) (m : Mach) (l : LaneIn) : Mach :=
  match s.m.tlbHit g.env.vf (l.val 0) false false with
  | some pa => m.l1Drop g.column g.core (pa / 64)
  | none => m

/-- Where every word meets the condition, the checks do nothing but take the words out of the L1. -/
theorem waitcChecks_met {f : FWaitc} {s : State} {g : Group} {ls : List LaneIn} (h : ∀ l ∈ ls, waitcMet f s g l) {m : Mach}
    (hm : Mach.DropStep g.column g.core s.m m) : waitcChecks f g (m, []) ls = (ls.foldl (dropWord s g) m, []) := by
  induction ls generalizing m with
  | nil => rfl
  | cons l ls ih =>
    obtain ⟨hfree, pa, htlb, hholds⟩ := h l List.mem_cons_self
    have hread := checkWaitc_read f.p (BitVec.ofNat 32 (l.val 1)) hfree htlb hm
    rw [if_pos hholds] at hread
    have hrest := ih (fun x hx => h x (List.mem_cons_of_mem _ hx)) (hm.l1Drop (pa / 64))
    have hdrop : dropWord s g m l = m.l1Drop g.column g.core (pa / 64) := by simp only [dropWord, htlb]
    rw [List.foldl_cons, hdrop, ← hrest]
    simp only [waitcChecks, List.foldl_cons, hread, if_true]

theorem dropWaited_eq (s : State) (g : Group) (ls : List LaneIn) : dropWaited s g ls = (ons ls).foldl (dropWord s g) s.m := rfl

theorem dropWaited_step (s : State) (g : Group) (ls : List LaneIn) : s.m.CacheStep (dropWaited s g ls) := by
  rw [dropWaited_eq]
  refine .foldl (fun m l => ?_) _ _
  unfold dropWord
  split
  · exact .l1Drop _ _ _ _
  · exact .refl m

theorem waitcWord_act (f : FWaitc) (q : Option Modifier) {s : State} (k : Gang) {g : Group} {ls : List LaneIn} (h : ∀ l ∈ ons ls, waitcMet f s g l) :
    (waitcWord f q).act s.cfg s.m k g ls = (onceFor s ls ((dropWaited s g ls).acquireAt g (ordOf q) (scopeOf 2 q)), []) := by
  have hchecks : waitcChecks f g (s.m, []) (ons ls) = (dropWaited s g ls, []) := waitcChecks_met h (.refl _ _ _)
  simp only [waitcWord, hchecks, onceFor, List.isEmpty_nil, true_and]
  cases hls : ons ls with
  | nil => simp only [dropWaited, hls]; rfl
  | cons l rest => rfl

theorem waitc_acts (f : FWaitc) (q : Option Modifier) (hp : f.p ≠ 7) : Acts (.waitc f q) (formWaitc f q) 1 (fun s _ g l => waitcMet f s g l)
    fun s _ g ls => onceFor s ls ((dropWaited s g ls).acquireAt g (ordOf q) (scopeOf 2 q)) := by
  refine acts_of (exec_waitc f q) (beq_false_of_ne hp) rfl rfl rfl (fun s k g l hok => ?_) (fun _ _ _ _ _ _ => rfl)
    (fun s k g vs _ hok l hl => waitcWord_exe (hok l hl).1) (fun s k g vs _ hok => waitcWord_act f q k fun l hl => ?_) fun s k g vs hr _ => gang_kept hr ?_
  · obtain ⟨⟨-, hacq, -⟩, -⟩ := hok
    exact hacq
  · rw [ons_activeIn] at hl
    exact hok l hl
  · unfold onceFor
    split
    · rfl
    · exact gang?_of_step ((dropWaited_step s g _).trans (.acquireAt _ _ _ _)) _

/-! ### A lane that waits -/

theorem gang?_onGang_self {m : Mach} {i : Nat} {k : Gang} (f : Gang → Gang) (hf : ∀ x, (f x).id = x.id) (hk : m.gang? i = some k) :
    (m.onGang i f).gang? i = some (f k) := by
  rw [Mach.gang?_onGang m i i f hf, if_pos rfl, hk]
  rfl

/-- A gang that parks at a word keeps its slot. -/
theorem gang?_parked {m : Mach} {d : Form} {k k' : Gang} {g : Group} {ls : List LaneIn} {w : List Nat} {cls : Nat} (hk : m.gang? k.id = some k)
    (h : (((m.keepHeld d k ls).parkAt k ls w).holdWord k g cls).gang? k.id = some k') : k'.st = .parked ∧ k'.slot = k.slot := by
  have hpark : ((m.keepHeld d k ls).parkAt k ls w).gang? k.id = some _ := gang?_onGang_self _ (fun _ => rfl) hk
  unfold Mach.holdWord at h
  split at h
  · obtain rfl := Option.some.inj (hpark.symm.trans h)
    exact ⟨rfl, rfl⟩
  · obtain rfl := Option.some.inj ((gang?_onGang_self (fun x => { x with out := true }) (fun _ => rfl) hpark).symm.trans h)
    exact ⟨rfl, rfl⟩

/-- A word that parks its gang leaves the monitors as they were. -/
theorem monitor?_parked (m : Mach) (d : Form) (k : Gang) (g : Group) (ls : List LaneIn) (w : List Nat) (cls gid tid : Nat) :
    (((m.keepHeld d k ls).parkAt k ls w).holdWord k g cls).monitor? gid tid = m.monitor? gid tid := by
  unfold Mach.holdWord
  split <;> rfl

theorem monitor?_watch (m : Mach) (g : Group) (tid pa cond : Nat) (b : Word) : (m.watch g tid pa cond b).monitor? g.gid tid
    = some { gid := g.gid, tid := tid, pa := pa, cond := cond, b := b, armed := decide (m.armedAt pa < 1024), met := false, column := g.column,
             lastPoll := m.etime } :=
  List.find?_cons_of_pos (by simp)

/-- The only active lane of a word, where it is guarded in. -/
theorem activeIn_single {w : Form} {s : State} {k : Gang} {g : Group} {vs : Thread → List Nat} {x : Thread} (hx : activeLanes k g = [x]) :
    w.activeIn s k g vs = [w.laneIn s k g vs x] := by
  rw [Form.activeIn, hx, List.map_singleton]

/-- A single guarded lane whose word does not meet the condition waits with a monitor. -/
theorem waitcWord_act_waits (f : FWaitc) (q : Option Modifier) {s : State} (k : Gang) {g : Group} {l : LaneIn} {pa : Nat} (hon : l.on = true)
    (hfree : waitcFree s g l.t.tid (l.val 0)) (htlb : s.m.tlbHit g.env.vf (l.val 0) false false = some pa)
    (hholds : waitcHolds f.p (BitVec.ofNat 32 ((s.m.l1Drop g.column g.core (pa / 64)).homeRead pa 4)) (BitVec.ofNat 32 (l.val 1)) = false) :
    (waitcWord f q).act s.cfg s.m k g [l]
      = ((s.m.l1Drop g.column g.core (pa / 64)).watch g l.t.tid pa f.p (BitVec.ofNat 32 (l.val 1)), [l.t.tid]) := by
  have hread := checkWaitc_read f.p (BitVec.ofNat 32 (l.val 1)) hfree htlb (.refl _ _ _)
  rw [if_neg (Bool.eq_false_iff.1 hholds)] at hread
  have hons : ons [l] = [l] := List.filter_eq_self.2 fun y hy => by rw [List.mem_singleton.1 hy, hon]
  have hchecks : waitcChecks f g (s.m, []) [l]
      = ((s.m.l1Drop g.column g.core (pa / 64)).watch g l.t.tid pa f.p (BitVec.ofNat 32 (l.val 1)), [l.t.tid]) := by
    simp only [waitcChecks, List.foldl_cons, List.foldl_nil, hread, Bool.false_eq_true, if_false, List.nil_append]
  simp only [waitcWord, hons, hchecks, List.isEmpty_cons, Bool.false_eq_true, false_and, if_false]

/-- `waitc` in a gang of one lane whose word does not meet the condition. -/
theorem waitc_waits (f : FWaitc) (q : Option Modifier) {s : State} {k : Gang} {g : Group} {vs : Thread → List Nat} {x : Thread} {pa : Nat} (hp : f.p ≠ 7)
    (hr : (formWaitc f q).Ready s k g vs) (hx : activeLanes k g = [x]) (hon : (formWaitc f q).on s k g x = true)
    (hfree : waitcFree s g x.tid ((vs x).getD 0 0)) (htlb : s.m.tlbHit g.env.vf ((vs x).getD 0 0) false false = some pa)
    (hholds : waitcHolds f.p (BitVec.ofNat 32 ((s.m.l1Drop g.column g.core (pa / 64)).homeRead pa 4)) (BitVec.ofNat 32 ((vs x).getD 1 0)) = false) :
    ∃ t, exec (.waitc f q) s = .next t ∧ (∀ k', t.m.gang? k.id = some k' → k'.st = .parked ∧ k'.slot = k.slot)
      ∧ ∃ y, t.m.monitor? g.gid x.tid = some y ∧ y.pa = pa ∧ y.cond = f.p ∧ y.b = BitVec.ofNat 32 ((vs x).getD 1 0) ∧ y.met = false := by
  have hr : (waitcWord f q).form.Ready s k g vs := hr
  have honly : ∀ y ∈ activeLanes k g, y = x := fun y hy => List.mem_singleton.1 (hx ▸ hy)
  obtain ⟨-, hgang, -, -⟩ := curGang_spec hr.cur
  have hv := Desc.verdict_go (us := vs) hr (beq_false_of_ne hp) rfl (fun _ _ => rfl) (fun _ _ _ _ hn => nomatch hn)
    (fun y hy _ => by rw [honly y hy]; exact hfree.2.1) rfl fun y hy _ => by rw [honly y hy]; exact waitcWord_exe hfree
  have hact := waitcWord_act_waits f q k (l := (formWaitc f q).laneIn s k g vs x) hon hfree htlb hholds
  rw [← activeIn_single hx] at hact
  have hkept : ((s.m.l1Drop g.column g.core (pa / 64)).watch g x.tid pa f.p (BitVec.ofNat 32 ((vs x).getD 1 0))).gang? k.id = s.m.gang? k.id :=
    gang?_of_step (.l1Drop _ _ _ _) _
  have hmon := (monitor?_parked _ (waitcWord f q).form k g ((waitcWord f q).form.activeIn s k g vs) [x.tid] 1 g.gid x.tid).trans
    (monitor?_watch (s.m.l1Drop g.column g.core (pa / 64)) g x.tid pa f.p (BitVec.ofNat 32 ((vs x).getD 1 0)))
  exact ⟨_, word_parks hr.cur hr.solo (fun _ => rfl) hv hact (List.cons_ne_nil _ _) (gang_kept hr hkept),
    fun _ hk' => gang?_parked (hkept.trans hgang) hk', _, hmon, rfl, rfl, rfl, rfl⟩

/-- Settles O15: lanes that all read words which meet the condition complete, and one whose word does not sets a monitor and parks. -/
theorem conditionWaitWordCompletesOrWaits : Obligations.ConditionWaitWordCompletesOrWaits :=
  ⟨waitc_acts, fun f q _ _ _ _ _ _ => waitc_waits f q⟩

end Sys2Proof.Machine
end

section
/-! PROOFS. Resource and queue words (08 R176 to R179): what the banker and the queue controller take from a word. None of them takes a lane out of
its gang. -/

namespace Sys2Proof.Machine

/-! ### Words that act once for their gang -/

/-- A word that acts once for its gang, in the terms of the statements. -/
theorem onceFor_eq (s : State) (ls : List LaneIn) (e : Mach) : (if (ons ls).isEmpty then (s.m, []) else (e, ([] : List Nat))) = (onceFor s ls e, []) := by
  unfold onceFor
  split <;> rfl

theorem onceFor_gangs {s : State} {ls : List LaneIn} {e : Mach} (h : e.gangs = s.m.gangs) : (onceFor s ls e).gangs = s.m.gangs := by
  unfold onceFor
  split
  · rfl
  · exact h

/-! ### The banker -/

/-- `acq.b` (R176, R231). -/
def acqBWord (f : FAcq) (q : Option Modifier) : Desc :=
  { c := f.c, q := q, ill := f.n == 0, stop := true
    exe := fun _ m k g _ => if k.ack || k.asked then none else claimCheck m g f.k f.n
    act := fun cfg m k g ls =>
      if (ons ls).isEmpty || k.ack then (m, [])
      else if k.asked then (m, allWait ls)
      else if requestStatus cfg m g f.k f.n = 0 then (m.grant g.gid f.k f.n, [])
      else
        ((m.onGang k.id fun x => { x with asked := true }).onCore g.column g.core fun c =>
          { c with waiters := c.waiters ++ [{ gid := g.gid, gang := k.id, kind := f.k, n := f.n }] }, allWait ls) }

theorem exec_acqB (f : FAcq) (q : Option Modifier) (s : State) : exec (.acqB f q) s = word (acqBWord f q) s := rfl

/-- A first request is checked against CLAIM (R176). -/
theorem acqBWord_exe {f : FAcq} {q : Option Modifier} {s : State} {k : Gang} {g : Group} {l : LaneIn} (hack : k.ack = false) (hasked : k.asked = false)
    (hclaim : claimCheck s.m g f.k f.n = none) : (acqBWord f q).exe s.cfg s.m k g l = none := by
  simp only [acqBWord, hack, hasked, hclaim, Bool.or_self, Bool.false_eq_true, if_false]

theorem acqBWord_act {f : FAcq} {q : Option Modifier} {s : State} {k : Gang} {g : Group} {ls : List LaneIn}
    (h : ∀ l ∈ ons ls, k.ack = false ∧ k.asked = false ∧ requestStatus s.cfg s.m g f.k f.n = 0) :
    (acqBWord f q).act s.cfg s.m k g ls = (onceFor s ls (s.m.grant g.gid f.k f.n), []) := by
  unfold onceFor
  cases ho : ons ls with
  | nil => simp only [acqBWord, ho, List.isEmpty_nil, Bool.true_or, if_true]
  | cons l ls' =>
    obtain ⟨hack, hasked, hsafe⟩ := h l (ho ▸ List.mem_cons_self)
    simp only [acqBWord, ho, List.isEmpty_cons, hack, hasked, hsafe, Bool.or_self, Bool.false_eq_true, if_false, if_true]

/-- A first request that is not granted waits, and its gang has asked (R176). -/
theorem acqBWord_act_waits {f : FAcq} {q : Option Modifier} {s : State} {k : Gang} {g : Group} {ls : List LaneIn} (hne : ons ls ≠ [])
    (hack : k.ack = false) (hasked : k.asked = false) (hunsafe : requestStatus s.cfg s.m g f.k f.n ≠ 0) :
    (acqBWord f q).act s.cfg s.m k g ls = ((s.m.onGang k.id fun x => { x with asked := true }).onCore g.column g.core fun c =>
      { c with waiters := c.waiters ++ [{ gid := g.gid, gang := k.id, kind := f.k, n := f.n }] }, ls.map (·.t.tid)) := by
  simp only [acqBWord, List.isEmpty_eq_false_iff.2 hne, hack, hasked, if_neg hunsafe, Bool.or_self, Bool.false_eq_true, if_false, allWait]

theorem acqB_acts (f : FAcq) (q : Option Modifier) (hn : f.n ≠ 0) : Acts (.acqB f q) (formBare f.c q) 0
    (fun s k g _ => k.ack = false ∧ k.asked = false ∧ claimCheck s.m g f.k f.n = none ∧ requestStatus s.cfg s.m g f.k f.n = 0)
    fun s _ g ls => onceFor s ls (s.m.onGroup g.gid fun x => { x with hold := x.hold.addKind f.k f.n }) := by
  refine acts_of_actsWhen (actsWhen_of (exec_acqB f q) (beq_false_of_ne hn) rfl rfl rfl (fun _ _ _ _ _ _ _ _ => rfl) (fun _ _ _ _ _ _ => rfl)
    (fun s k g vs _ hok l hl => ?_) (fun s k g vs _ hok => ?_) fun s k g vs _ _ => gang?_of_gangs (onceFor_gangs (Mach.onGroup_gangs _ _ _)) _)
  · obtain ⟨hack, hasked, hclaim, -⟩ := hok l hl
    exact acqBWord_exe hack hasked hclaim
  · refine acqBWord_act fun l hl => ?_
    obtain ⟨hack, hasked, -, hsafe⟩ := hok l hl
    exact ⟨hack, hasked, hsafe⟩

/-- A gang at a ready word has a lane. -/
theorem activeIn_tids_ne_nil {w : Form} {s : State} {k : Gang} {g : Group} {vs : Thread → List Nat} (hr : w.Ready s k g vs) :
    (w.activeIn s k g vs).map (·.t.tid) ≠ [] := by
  simpa only [Form.activeIn, ne_eq, List.map_eq_nil_iff] using hr.some

/-- A gang that has asked has the lanes it had. -/
theorem asked_kept {d : Desc} {s : State} {k : Gang} {g : Group} {vs : Thread → List Nat} {m : Mach} (hr : d.form.Ready s k g vs)
    (hm : m.gangs = (s.m.onGang k.id fun x => { x with asked := true }).gangs) :
    ∃ k', m.gang? k.id = some k' ∧ ∀ l ∈ d.form.activeIn s k g vs, l.t.tid ∈ k'.lanes := by
  obtain ⟨-, hgang, -, -⟩ := curGang_spec hr.cur
  exact ⟨{ k with asked := true }, (gang?_of_gangs hm k.id).trans (gang?_onGang_self (fun x => { x with asked := true }) (fun _ => rfl) hgang),
    fun l hl => laneIn_mem l hl⟩

theorem acqB_parks (f : FAcq) (q : Option Modifier) (hn : f.n ≠ 0) : ParksWhen (.acqB f q) (formBare f.c q) 0
    (fun s k g ls => ons ls ≠ [] ∧ k.ack = false ∧ k.asked = false ∧ claimCheck s.m g f.k f.n = none ∧ requestStatus s.cfg s.m g f.k f.n ≠ 0)
    (fun s k g _ => (s.m.onGang k.id fun x => { x with asked := true }).onCore g.column g.core fun c =>
      { c with waiters := c.waiters ++ [{ gid := g.gid, gang := k.id, kind := f.k, n := f.n }] })
    fun _ _ _ ls => ls.map (·.t.tid) := by
  refine parksWhen_of (exec_acqB f q) (beq_false_of_ne hn) rfl rfl rfl (fun _ _ _ _ _ _ _ _ => rfl) (fun _ _ _ _ _ _ => rfl)
    (fun s k g vs _ hok l _ => ?_) (fun s k g vs _ hok => ?_) (fun _ _ _ _ hr _ => activeIn_tids_ne_nil hr)
    fun _ _ _ _ hr _ => asked_kept (d := acqBWord f q) hr rfl
  · obtain ⟨-, hack, hasked, hclaim, -⟩ := hok
    exact acqBWord_exe hack hasked hclaim
  · obtain ⟨hne, hack, hasked, -, hunsafe⟩ := hok
    exact acqBWord_act_waits hne hack hasked hunsafe

/-- `acq.t` (R176): its status and predicate go to every active lane. -/
theorem acqT_acts (f : FAcqt) (q : Option Modifier) (hn : f.n ≠ 0) : Acts (.acqT f q) { c := f.c, q := q, dst := some { f := f.d } } 0
    (fun s _ g _ => claimCheck s.m g f.t f.n = none)
    fun s k g ls =>
      let st := requestStatus s.cfg s.m g f.t f.n
      onceFor s ls ((if st = 0 then s.m.onGroup g.gid fun x => { x with hold := x.hold.addKind f.t f.n } else s.m).mapLanes k.gid ls fun _ t =>
        t.writeNow (resWrites f.d 1 st ++ predOut f.k (st == 0))) := by
  have hx s : exec (.acqT f q) s = word _ s := rfl
  refine acts_of_actsWhen (actsWhen_of hx (beq_false_of_ne hn) rfl rfl rfl (fun _ _ _ _ _ _ _ _ => rfl) (fun _ _ _ _ _ _ => rfl)
    (fun _ _ _ _ _ hok l hl => hok l hl) (fun s k g vs _ _ => onceFor_eq s _ _) fun s k g vs _ _ => gang?_of_gangs (onceFor_gangs ?_) _)
  split <;> rfl

/-- `rel` (R177). -/
def relWord (f : FAcq) (q : Option Modifier) : Desc :=
  { c := f.c, q := q, ill := f.n == 0, stop := true
    exe := fun _ _ k g _ => if k.ack || k.asked then none
      else if g.hold.kind f.k < f.n then some (.claimx, claimArg f.k f.n) else none
    act := fun _ m k g ls =>
      if (ons ls).isEmpty || k.ack then (m, [])
      else if k.asked then (m, allWait ls)
      else
        ((m.onGang k.id fun x => { x with asked := true }).onGroup g.gid fun x =>
          { x with rels := x.rels ++ [{ gang := k.id, kind := f.k, n := f.n, seq := x.seq }] }, allWait ls) }

theorem exec_rel (f : FAcq) (q : Option Modifier) (s : State) : exec (.rel f q) s = word (relWord f q) s := rfl

/-- A first release is queued, and its gang has asked (R177). -/
theorem relWord_act_waits {f : FAcq} {q : Option Modifier} {s : State} {k : Gang} {g : Group} {ls : List LaneIn} (hne : ons ls ≠ [])
    (hack : k.ack = false) (hasked : k.asked = false) :
    (relWord f q).act s.cfg s.m k g ls = ((s.m.onGang k.id fun x => { x with asked := true }).onGroup g.gid fun x =>
      { x with rels := x.rels ++ [{ gang := k.id, kind := f.k, n := f.n, seq := x.seq }] }, ls.map (·.t.tid)) := by
  simp only [relWord, List.isEmpty_eq_false_iff.2 hne, hack, hasked, Bool.or_self, Bool.false_eq_true, if_false, allWait]

theorem relWord_act_served {f : FAcq} {q : Option Modifier} {s : State} {k : Gang} {g : Group} {ls : List LaneIn} (h : ∀ l ∈ ons ls, k.ack = true) :
    (relWord f q).act s.cfg s.m k g ls = (s.m, []) := by
  have hdone : ((ons ls).isEmpty || k.ack) = true := by
    cases ho : ons ls with
    | nil => rfl
    | cons l ls' => exact h l (ho ▸ List.mem_cons_self)
  simp only [relWord, hdone, if_true]

theorem rel_parks (f : FAcq) (q : Option Modifier) (hn : f.n ≠ 0) : ParksWhen (.rel f q) (formBare f.c q) 0
    (fun _ k g ls => ons ls ≠ [] ∧ k.ack = false ∧ k.asked = false ∧ f.n ≤ g.hold.kind f.k)
    (fun s k g _ => (s.m.onGang k.id fun x => { x with asked := true }).onGroup g.gid fun x =>
      { x with rels := x.rels ++ [{ gang := k.id, kind := f.k, n := f.n, seq := x.seq }] })
    fun _ _ _ ls => ls.map (·.t.tid) := by
  refine parksWhen_of (exec_rel f q) (beq_false_of_ne hn) rfl rfl rfl (fun _ _ _ _ _ _ _ _ => rfl) (fun _ _ _ _ _ _ => rfl)
    (fun s k g vs _ hok l _ => ?_) (fun s k g vs _ hok => ?_) (fun _ _ _ _ hr _ => activeIn_tids_ne_nil hr)
    fun _ _ _ _ hr _ => asked_kept (d := relWord f q) hr rfl
  · obtain ⟨-, hack, hasked, hle⟩ := hok
    simp only [relWord, hack, hasked, if_neg (Nat.not_lt.2 hle), Bool.or_self, Bool.false_eq_true, if_false]
  · obtain ⟨hne, hack, hasked, -⟩ := hok
    exact relWord_act_waits hne hack hasked

/-- A release that has been served completes (R177). -/
theorem rel_acts (f : FAcq) (q : Option Modifier) (hn : f.n ≠ 0) : Acts (.rel f q) (formBare f.c q) 0 (fun _ k _ _ => k.ack = true) fun s _ _ _ => s.m := by
  refine acts_of_actsWhen (actsWhen_of (exec_rel f q) (beq_false_of_ne hn) rfl rfl rfl (fun _ _ _ _ _ _ _ _ => rfl) (fun _ _ _ _ _ _ => rfl)
    (fun s k g vs _ hok l hl => ?_) (fun s k g vs _ hok => relWord_act_served hok) fun _ _ _ _ _ _ => rfl)
  simp only [relWord, hok l hl, Bool.true_or, if_true]

/-! ### What a walk and a write at a home may change -/

/-- Nothing but the memory at homes, its monitors, cached translations and marked stops differs. -/
def Mach.WalkStep (m n : Mach) : Prop := n = { m with dmem := n.dmem, hmem := n.hmem, monitors := n.monitors, tlb := n.tlb, stops := n.stops }

namespace Mach.WalkStep

variable {m n o : Mach}

theorem refl (m : Mach) : m.WalkStep m := rfl

theorem trans (h : m.WalkStep n) (h' : n.WalkStep o) : m.WalkStep o := by
  unfold Mach.WalkStep at *
  rw [h', h]

theorem gangs (h : m.WalkStep n) : n.gangs = m.gangs := by rw [h]

theorem store (m : Mach) (pa k v : Nat) : m.WalkStep (m.store pa k v) := by
  unfold Mach.WalkStep
  rw [store_keeps]

theorem queueStop (m : Mach) (vf root c : Nat) : m.WalkStep (m.queueStop vf root c) := by
  unfold Mach.WalkStep
  rw [queueStop_keeps]

theorem markEntry (m : Mach) (pa e : Nat) (d : Bool) : m.WalkStep (markEntry m pa e d) := by
  unfold Machine.markEntry
  dsimp only
  generalize (if d = true then putBits (putBits e 4 1 1) 5 1 1 else putBits e 4 1 1) = e'
  split
  · exact refl m
  · exact store m _ _ _

theorem walk2From (write : Bool) (ipa table : Nat) (ls : List Nat) (m : Mach) : m.WalkStep (walk2From write ipa m table ls).1 := by
  induction ls generalizing m table with
  | nil => exact refl m
  | cons level rest ih =>
    unfold Machine.walk2From
    dsimp only
    split
    · exact refl m
    · split
      · exact refl m
      · exact refl m
      · exact (markEntry _ _ _ _).trans (ih _ _)
      · split
        · exact refl m
        · exact markEntry _ _ _ _

theorem walk2 (cfg : Cfg) (m : Mach) (vf ipa : Nat) (write : Bool) : m.WalkStep (walk2 cfg m vf ipa write).1 := by
  have h := walk2From write ipa (cfg.part vf).s2root levels m
  unfold Machine.walk2
  split
  · exact refl m
  · split
    · next hw =>
      rw [hw] at h
      split <;> exact h
    · exact h

theorem walk1From (cfg : Cfg) (vf va table : Nat) (write fetch : Bool) (ls : List Nat) (m : Mach) :
    m.WalkStep (walk1From cfg vf va write fetch m table ls).1 := by
  induction ls generalizing m table with
  | nil => exact refl m
  | cons level rest ih =>
    have h := walk2 cfg m vf (table + 8 * bitsOf va (levelShift level).1 (levelShift level).2) false
    unfold Machine.walk1From
    dsimp only
    split
    · next hw => rwa [hw] at h
    · next hw => rwa [hw] at h
    · next hw => rwa [hw] at h
    · next m₁ pa0 _ _ host0 hw =>
      rw [hw] at h
      generalize (if host0 = true then hostBase + pa0 else pa0) = pa
      refine h.trans ?_
      clear h hw
      split
      · exact refl _
      · split
        · exact refl _
        · exact refl _
        · exact (markEntry _ _ _ _).trans (ih _ _)
        · split
          · exact refl _
          · have hleaf := markEntry m₁ pa (m₁.homeRead pa 8) write
            split
            · exact hleaf
            · have hw := hleaf.trans (walk2 cfg (Machine.markEntry m₁ pa (m₁.homeRead pa 8) write) vf
                (entAddr (m₁.homeRead pa 8) + va % 2 ^ leafBits level) write)
              split
              · next he => rwa [he] at hw
              · next he => rwa [he] at hw
              · next he => rwa [he] at hw
              · next he =>
                rw [he] at hw
                split <;> exact hw

theorem translateWalk (cfg : Cfg) (m : Mach) (vf va : Nat) (write fetch : Bool) : m.WalkStep (translateWalk cfg m vf va write fetch).1 := by
  have h := walk1From cfg vf va 0 write fetch levels m
  unfold Machine.translateWalk
  split
  · next he =>
    rw [he] at h
    exact h.trans rfl
  · next he =>
    rw [he] at h
    exact h.trans (queueStop _ _ _ _)
  · exact h

theorem translate (cfg : Cfg) (m : Mach) (vf va : Nat) (write fetch : Bool) : m.WalkStep (translate cfg m vf va write fetch).1 := by
  have h := translateWalk cfg m vf va write fetch
  unfold Machine.translate
  split
  · exact refl m
  · split
    · next he => rwa [he] at h
    · next he => rwa [he] at h

theorem writeVa (cfg : Cfg) (vf va n v : Nat) (m : Mach) : m.WalkStep (writeVa cfg vf va n v m) := by
  have h := translate cfg m vf va true false
  unfold Machine.writeVa devWrite
  split
  · next he =>
    rw [he] at h
    exact h.trans (store _ _ _ _)
  · next he => rwa [he] at h

/-- What follows a change of a window in the image of a group that is away (R188). -/
theorem mirrored (cfg : Cfg) (g : Group) (m m' : Mach) : m'.WalkStep (mirrored cfg g m m') := by
  unfold Machine.mirrored
  split
  · exact foldl_keeps (fun n => m'.WalkStep n) (refl m') fun n e hn => hn.trans (writeVa _ _ _ _ _ _)
  · exact refl m'

end Mach.WalkStep

/-! ### Remote queues -/

theorem winReport_gangs (m : Mach) (gid : Nat) : (m.winReport gid).gangs = m.gangs := by
  unfold Mach.winReport Mach.reportLoss
  split
  · rw [queueStop_keeps]
    rfl
  · rfl

theorem fillQgets_gangs (gid q n : Nat) (m : Mach) : (m.fillQgets gid q n).gangs = m.gangs := by
  induction n generalizing m with
  | zero => rfl
  | succ n ih =>
    unfold Mach.fillQgets
    split
    · rfl
    · split
      · dsimp only
        split
        · rfl
        · split
          · exact winReport_gangs _ _
          · refine (ih _).trans ((Mach.CacheStep.l1Inv _ _ _).gangs.trans ?_)
            split <;> rfl
      · rfl

theorem enqueue_gangs (m : Mach) (gid q msg : Nat) : (m.enqueue gid q msg).gangs = m.gangs := by
  unfold Mach.enqueue
  split
  · rfl
  · split
    · rfl
    · exact fillQgets_gangs _ _ _ _

theorem takeArrival_gangs (cfg : Cfg) (m : Mach) (gid off : Nat) (o : PhaseObj) : (takeArrival cfg m gid off o).gangs = m.gangs := by
  unfold takeArrival
  split
  · exact (Mach.WalkStep.mirrored _ _ _ _).gangs.trans (Mach.settlePhase_gangs _ _ _ _)
  · rfl

/-- A message that a lane sends moves no gang. -/
theorem sendLane_gangs (cfg : Cfg) (m : Mach) (g : Group) (q : Nat) (l : LaneIn) : (sendLane cfg m g q l).gangs = m.gangs := by
  have hback := (Mach.CacheStep.l1BackAll m g.column g.core).gangs
  unfold sendLane
  dsimp only
  split
  · split
    · exact (takeArrival_gangs _ _ _ _ _).trans hback
    · exact hback
  · split
    · exact (enqueue_gangs _ _ _ _).trans hback
    · exact hback

/-- `qput` (R178, R179). -/
def qputWord (f : FQput) (q : Option Modifier) : Desc :=
  { qputBase f q with
    exe := fun _ m k g l =>
      if !inCluster g (l.val 1) then some (.space, 0)
      else if (sendBytes m g f.q (l.val 1) (l.val 0)).any fun x => m.winLost x.1 x.2.1 x.2.2 then some (.dataloss, 0)
      else if f.q = 7 then (if arrives m g (gangLanes (qputBase f q) m k g) l then none else some (.opform, 0))
      else if f.t then
        match firstFull m g f.q (gangLanes (qputBase f q) m k g) with
        | some x => if x.t.tid = l.t.tid then some (.qfull, l.val 1) else none
        | none => none
      else none
    act := fun cfg m k g ls =>
      let stop := firstFull m g f.q (gangLanes (qputBase f q) m k g)
      let served := fun (l : LaneIn) => match stop with
        | some x => decide (l.t.tid < x.t.tid)
        | none => true
      ((sortLanes ((ons ls).filter served)).foldl (fun m l => sendLane cfg m g f.q l) m,
        ((ons ls).filter fun l => !served l).map (·.t.tid)) }

theorem exec_qput (f : FQput) (q : Option Modifier) (s : State) : exec (.qput f q) s = word (qputWord f q) s := rfl

/-- A lane that reaches a core of its cluster, whose message finds its place, is not checked further (R178, R179). -/
theorem qputWord_exe {f : FQput} {q : Option Modifier} {s : State} {k : Gang} {g : Group} {l : LaneIn} (hcluster : inCluster g (l.val 1) = true)
    (hlost : (sendBytes s.m g f.q (l.val 1) (l.val 0)).any (fun x => s.m.winLost x.1 x.2.1 x.2.2) = false)
    (harrives : f.q = 7 → arrives s.m g (gangLanes (qputBase f q) s.m k g) l = true) (hfull : firstFull s.m g f.q (gangLanes (qputBase f q) s.m k g) = none) :
    (qputWord f q).exe s.cfg s.m k g l = none := by
  simp only [qputWord, hcluster, hlost, hfull, Bool.not_true, Bool.false_eq_true, if_false]
  split
  · next h => rw [if_pos (harrives h)]
  · split <;> rfl

theorem qputWord_act {f : FQput} {q : Option Modifier} {s : State} {k : Gang} {g : Group} {ls : List LaneIn}
    (hfull : firstFull s.m g f.q (gangLanes (qputBase f q) s.m k g) = none) :
    (qputWord f q).act s.cfg s.m k g ls = ((sortLanes (ons ls)).foldl (fun m l => sendLane s.cfg m g f.q l) s.m, []) := by
  simp only [qputWord, hfull, List.filter_true, Bool.not_true, List.filter_false, List.map_nil]

theorem qput_acts (f : FQput) (q : Option Modifier) : ActsWhen (.qput f q)
    { c := f.c, q := q, acc := { hb := true }, srcs := [{ f := f.a, mm := f.m, w := 2 }, { f := f.b, mm := f.n, cyc := 1 }] } 0
    (fun s _ g ls => firstFull s.m g f.q ls = none ∧ ∀ l ∈ ons ls, accPending s.m g l.t.tid = false ∧ acqPending s.m g l.t.tid = false
      ∧ inCluster g (l.val 1) = true ∧ (f.q = 7 → arrives s.m g ls l = true)
      ∧ ∀ x, sendBytes s.m g f.q (l.val 1) (l.val 0) = some x → s.m.winLocked x.1 x.2.1 x.2.2 = false ∧ s.m.winLost x.1 x.2.1 x.2.2 = false)
    fun s _ g ls => (sortLanes (ons ls)).foldl (fun m l => sendLane s.cfg m g f.q l) s.m := by
  have hlanes {s k g vs} (hr : (qputWord f q).form.Ready s k g vs) : gangLanes (qputBase f q) s.m k g = (qputWord f q).form.activeIn s k g vs :=
    gangLanes_ready (d := qputBase f q) hr rfl
  refine actsWhen_of (exec_qput f q) rfl rfl rfl rfl (fun s k g vs _ hok l hl => ?_) (fun _ _ _ _ _ _ => rfl) (fun s k g vs hr hok l hl => ?_)
    (fun s k g vs hr hok => qputWord_act ((hlanes hr).symm ▸ hok.1)) fun s k g vs _ _ => gang?_of_gangs (foldl_gangs fun m l => sendLane_gangs _ m g _ l) _
  · obtain ⟨hacc, hacq, -, -, hbytes⟩ := hok.2 l hl
    simp only [qputWord, qputBase, hacc, hacq, Bool.or_self, Bool.false_or]
    exact (Option.any_eq_false _ _).2 fun x hx => (hbytes x hx).1
  · obtain ⟨-, -, hcluster, harrives, hbytes⟩ := hok.2 l hl
    exact qputWord_exe hcluster ((Option.any_eq_false _ _).2 fun x hx => (hbytes x hx).2) ((hlanes hr).symm ▸ harrives) ((hlanes hr).symm ▸ hok.1)

theorem qget_acts (f : FQget) (q : Option Modifier) : Acts (.qget f q) { c := f.c, q := q, dst := some { f := f.d, w := 2, long := true } } 0
    (fun s _ g l => f.q ≠ 7 ∧ (g.queues.any fun x => x.num == f.q) = true ∧ memBusy true s.m g l = false)
    fun s k g ls => (((s.m.mapLanes k.gid (sortLanes (ons ls)) fun _ t => t.emptyDsts (Dst.regs { f := f.d, w := 2 })).onGroup g.gid fun x =>
      { x with qwaits := x.qwaits ++ (sortLanes (ons ls)).map fun l => { tid := l.t.tid, num := f.q, dst := f.d } }).fillQgets g.gid f.q
        (g.qwaits.length + (sortLanes (ons ls)).length)) := by
  have hx s : exec (.qget f q) s = word _ s := rfl
  refine acts_of hx rfl rfl rfl rfl (fun _ _ _ _ hok => hok.2.2) (fun _ _ _ _ _ _ => rfl) (fun s k g vs _ hok l hl => ?_) (fun _ _ _ _ _ _ => rfl)
    fun s k g vs hr _ => gang_kept hr (gang?_of_gangs (fillQgets_gangs _ _ _ _) _)
  obtain ⟨hq, hbound, -⟩ := hok l hl
  simp only [hq, hbound, Bool.not_true, Bool.false_eq_true, or_self, if_false]

theorem qfree_acts (f : FQfree) (q : Option Modifier) : Acts (.qfree f q) (formCvt f.c q f.d f.a f.m 1 1) 0 (fun _ _ g l => inCluster g (l.val 0) = true)
    fun s k g ls => (laneNow (fun l => resWrites f.d 1 (s.m.qfreeEntries g.column (l.val 0) f.q)) s.m k ls).1 := by
  have hx s : exec (.qfree f q) s = word _ s := rfl
  exact acts_of hx rfl rfl rfl rfl (fun _ _ _ _ _ => rfl) (fun _ _ _ _ _ _ => rfl) (fun _ _ _ _ _ hok l hl => if_pos (hok l hl))
    (fun _ _ _ _ _ _ => rfl) fun s k g vs hr _ => gang_kept hr rfl

/-- Settles O16, one word at a time. -/
theorem resourceAndQueueWordsAct : Obligations.ResourceAndQueueWordsAct :=
  ⟨acqB_acts, acqB_parks, acqT_acts, rel_parks, rel_acts, qput_acts, qget_acts, qfree_acts⟩

end Sys2Proof.Machine
end

section
/-! PROOFS. Engine words (08 R180 to R182, R189): what the tile entries, the copy engine and the bank jobs of a core take from a word. -/

namespace Sys2Proof.Machine

/-- Work handed to a core after a release at column scope moves no gang. -/
theorem l1BackAll_gangs (m : Mach) (col c : Nat) : (m.l1BackAll col c).gangs = m.gangs := (Mach.CacheStep.l1BackAll m col c).gangs

/-- The release moves no clock, so the descriptor it leaves to be read is the same. -/
theorem tileDesc_l1BackAll (m : Mach) (col c : Nat) (k : Gang) (g : Group) (a : Nat) : tileDesc (m.l1BackAll col c) k g a = tileDesc m k g a := by
  have hclk : issueCycle (m.l1BackAll col c) k g = issueCycle m k g := by
    unfold issueCycle
    rw [(Mach.CacheStep.l1BackAll m col c).core]
  unfold tileDesc uniAt
  rw [hclk]

theorem kickBlock_gangs (g : Group) (off : Nat) (obj : Option Nat) (m : Mach) : (kickBlock g off obj m).gangs = m.gangs := by
  unfold kickBlock
  dsimp only
  split <;> rfl

theorem tdef_acts (f : FTdef) (q : Option Modifier) (ha : f.a ≤ 59) : Acts (.tdef f q) (formBare f.c q) 0
    (fun s k g l => (tileDesc s.m k g f.a).2 = 0 ∧ (tileDesc s.m k g f.a).1.bad g = false
      ∧ ((s.m.core g.column g.core).tile f.t).foreign g.gid = false ∧ accPending s.m g l.t.tid = false ∧ acqPending s.m g l.t.tid = false
      ∧ (((s.m.core g.column g.core).tile f.t).gid = g.gid → ((s.m.core g.column g.core).tile f.t).moving = false))
    fun s k g ls => onceFor s ls (((s.m.l1BackAll g.column g.core).nextSeq g.gid).setTile g.column g.core f.t
      (if (tileDesc s.m k g f.a).1.rows = 0 then {} else { (tileDesc s.m k g f.a).1 with seq := g.seq })) := by
  have hx s : exec (.tdef f q) s = word _ s := rfl
  refine acts_of_actsWhen (actsWhen_of hx (decide_eq_false (Nat.not_lt.2 ha)) rfl rfl rfl (fun s k g vs _ hok l hl => ?_) (fun _ _ _ _ _ _ => rfl)
    (fun s k g vs _ hok l hl => ?_) (fun s k g vs _ _ => ?_) fun s k g vs _ _ => gang?_of_gangs (onceFor_gangs ?_) _)
  · obtain ⟨-, -, -, hacc, hacq, hmove⟩ := hok l hl
    simpa only [hacc, hacq, Bool.or_self, Bool.false_or, Bool.and_eq_false_imp, beq_iff_eq] using hmove
  · obtain ⟨hrsv, hbad, hforeign, -⟩ := hok l hl
    simp only [hrsv, hbad, hforeign, bne_self_eq_false, Bool.or_self, Bool.false_eq_true, if_false]
  · refine Eq.trans ?_ (onceFor_eq s _ _)
    rw [← tileDesc_l1BackAll s.m g.column g.core k g f.a]
  · exact l1BackAll_gangs _ _ _

/-- `tstat` tells every active lane whether the entry is ready (R181). -/
theorem tstat_acts (f : FTstat) (q : Option Modifier) : Acts (.tstat f q) (formBare f.c q) 0
    (fun s _ g _ => ((s.m.core g.column g.core).tile f.t).foreign g.gid = false)
    fun s k g ls => onceFor s ls (s.m.mapLanes k.gid ls fun _ t =>
      t.writeNow (predOut f.k (((s.m.core g.column g.core).tile f.t).st == .ready))) := by
  have hx s : exec (.tstat f q) s = word _ s := rfl
  refine acts_of_actsWhen (actsWhen_of hx rfl rfl rfl rfl (fun _ _ _ _ _ _ _ _ => rfl) (fun _ _ _ _ _ _ => rfl) (fun s k g vs _ hok l hl => ?_)
    (fun s k g vs _ _ => onceFor_eq s _ _) fun s k g vs _ _ => gang?_of_gangs (onceFor_gangs (Mach.mapLanes_gangs _ _ _ _)) _)
  simp only [hok l hl, Bool.false_eq_true, if_false]

theorem kick_acts (f : FXu1) (q : Option Modifier) (ha : f.a % 2 = 0) : Acts (.kick f q) (formBare f.c q) 0
    (fun s k g l => badReqAt g (uniRead s k g f.a).toNat = false ∧ badObj g (uniRead s k g (f.a + 1)).toNat = false
      ∧ accPending s.m g l.t.tid = false ∧ acqPending s.m g l.t.tid = false ∧ (s.m.core g.column g.core).kicks.length < 16)
    fun s k g ls => onceFor s ls (kickBlock g (uniRead s k g f.a).toNat (objOf (uniRead s k g (f.a + 1)).toNat) (s.m.l1BackAll g.column g.core)) := by
  have hx s : exec (.kick f q) s = word _ s := rfl
  have hill : (f.a % 2 == 1) = false := by simp [ha]
  refine acts_of_actsWhen (actsWhen_of hx hill rfl rfl rfl (fun s k g vs _ hok l hl => ?_) (fun _ _ _ _ _ _ => rfl)
    (fun s k g vs _ hok l hl => ?_) (fun s k g vs _ _ => onceFor_eq s _ _)
    fun s k g vs _ _ => gang?_of_gangs (onceFor_gangs ((kickBlock_gangs _ _ _ _).trans (l1BackAll_gangs _ _ _))) _)
  · obtain ⟨-, -, hacc, hacq, hroom⟩ := hok l hl
    simp only [hacc, hacq, decide_eq_false (Nat.not_le.2 hroom), Bool.or_self, Bool.false_and]
  · obtain ⟨hreq, hobj, -⟩ := hok l hl
    exact if_neg fun h => (Bool.or_eq_true_iff.1 h).elim (fun h => Bool.noConfusion (hreq.symm.trans h)) fun h => Bool.noConfusion (hobj.symm.trans h)

theorem bankjob_acts (f : FXu1) (q : Option Modifier) (ha : f.a % 2 = 0) : Acts (.bankjob f q) (formBare f.c q) 0
    (fun s k g l => cardBad s.cfg s.m g (uniRead s k g f.a).toNat = false ∧ badObj g (uniRead s k g (f.a + 1)).toNat = false
      ∧ towPending s.m g l.t.tid = false ∧ accPending s.m g l.t.tid = false ∧ acqPending s.m g l.t.tid = false
      ∧ s.m.winLocked g.gid (uniRead s k g f.a).toNat (16 * (readCard s.m g 32 (uniRead s k g f.a).toNat).1.length + 16) = false)
    fun s k g ls => onceFor s ls ((s.m.nextSeq g.gid).onCore g.column g.core fun c => { c with cards := c.cards ++
      [{ gid := g.gid, cmds := (readCard s.m g 32 (uniRead s k g f.a).toNat).1, obj := objOf (uniRead s k g (f.a + 1)).toNat, seq := g.seq }] }) := by
  have hx s : exec (.bankjob f q) s = word _ s := rfl
  have hill : (f.a % 2 == 1) = false := by simp [ha]
  have huni s k g a : uniAt (State.m s) k g a = (uniRead s k g a).toNat := rfl
  refine acts_of_actsWhen (actsWhen_of hx hill rfl rfl rfl (fun s k g vs _ hok l hl => ?_) (fun _ _ _ _ _ _ => rfl)
    (fun s k g vs _ hok l hl => ?_) (fun s k g vs _ _ => onceFor_eq s _ _)
    fun s k g vs _ _ => ?_)
  · obtain ⟨-, -, htow, hacc, hacq, hlock⟩ := hok l hl
    simp only [huni, htow, hacc, hacq, hlock, Bool.or_self]
  · obtain ⟨hcard, hobj, -⟩ := hok l hl
    simp only [huni, hcard, hobj, Bool.or_self, Bool.false_eq_true, if_false]
  · refine gang?_of_gangs (onceFor_gangs ?_) _
    rfl

/-- Settles O17, one word at a time. -/
theorem engineWordsAct : Obligations.EngineWordsAct := ⟨tdef_acts, tstat_acts, kick_acts, bankjob_acts⟩

end Sys2Proof.Machine
end

section
/-! PROOFS. Surface, texture, export and occlusion words (08 R191 to R195). The accesses of a surface word all carry the choice that stood when the word
issued, because to queue one changes no choice. -/

namespace Sys2Proof.Machine

/-! ### Words with a check of their own -/

/-- A word whose further check gives the lanes the values `us`, whose waits and traps are ruled out and whose effect is `e`, completes. -/
theorem word_checked {d : Desc} {s : State} {k : Gang} {g : Group} {vs us : Thread → List Nat} {e : Mach} (hr : d.form.Ready s k g vs)
    (hi : d.ill = false) (hm : d.more = 0) (hd : d.dyn = fun _ _ => []) (ho : d.opx s.cfg s.m k g = none)
    (hc : ∀ x ∈ activeLanes k g, d.chk s.m k g (d.form.laneIn s k g vs x) = .ok (us x))
    (hb : ∀ l ∈ ons (d.form.activeIn s k g us), d.busy s.cfg s.m k g l = false) (he : ∀ l ∈ ons (d.form.activeIn s k g us), d.exe s.cfg s.m k g l = none)
    (ha : d.act s.cfg s.m k g (d.form.activeIn s k g us) = (e, [])) (hk : e.gang? k.id = s.m.gang? k.id) :
    word d s = .next { s with m := e.wentOn d.form k (d.form.activeIn s k g us) d.cls } := by
  have hv := Desc.verdict_go hr hi hm hc (fun x _ _ n hn => by rw [hd] at hn; cases hn) (fun x hx hon => hb _ (ons_mem hx hon)) ho
    fun x hx hon => he _ (ons_mem hx hon)
  refine word_acts hr.cur hr.solo hm (fun l => by rw [hd]) hv ha ?_
  obtain ⟨_, hgang, -, -⟩ := curGang_spec hr.cur
  refine ⟨k, hk.trans hgang, fun l hl => ?_⟩
  obtain ⟨x, hx, rfl⟩ := List.mem_map.1 hl
  exact (activeLanes_mem hx).1

/-- What is read of guarded lanes apart from their source values does not depend on these. -/
theorem map_ons_activeIn {α : Type} {w : Form} {s : State} {k : Gang} {g : Group} {vs us : Thread → List Nat} {a b : LaneIn → α}
    (h : ∀ x, a (w.laneIn s k g us x) = b (w.laneIn s k g vs x)) : (ons (w.activeIn s k g us)).map a = (ons (w.activeIn s k g vs)).map b := by
  have hons (us : Thread → List Nat) : ons (w.activeIn s k g us) = ((activeLanes k g).filter (w.on s k g)).map (w.laneIn s k g us) := List.filter_map
  rw [hons us, hons vs, List.map_map, List.map_map]
  exact List.map_congr_left fun x _ => h x

/-- The same for what the lanes of a word take. -/
theorem mapLanes_activeIn {w : Form} {s : State} {k : Gang} {g : Group} {vs us : Thread → List Nat} {f : LaneIn → Thread → Thread} (m : Mach) (gid : Nat)
    (h : ∀ x t, f (w.laneIn s k g us x) t = f (w.laneIn s k g vs x) t) :
    m.mapLanes gid (w.activeIn s k g us) f = m.mapLanes gid (w.activeIn s k g vs) f := by
  have hfind (t : Thread) (us : Thread → List Nat) : (w.activeIn s k g us).find? (fun l => l.t.tid == t.tid)
      = ((activeLanes k g).find? fun x => x.tid == t.tid).map (w.laneIn s k g us) := List.find?_map ..
  unfold Mach.mapLanes Group.mapLanes
  refine congrArg (m.onGroup gid) (funext fun y => ?_)
  refine congrArg (fun ts => { y with threads := ts }) (List.map_congr_left fun t _ => ?_)
  rw [hfind t us, hfind t vs]
  cases (activeLanes k g).find? fun x => x.tid == t.tid with
  | none => rfl
  | some x => exact h x t

/-- A word that holds no source goes on the same whatever its source values are. -/
theorem wentOn_activeIn {w : Form} {s : State} {k : Gang} {g : Group} {vs us : Thread → List Nat} (m : Mach) (cls : Nat) (hh : w.h = false)
    (hb : hbOf w.q = false) : m.wentOn w k (w.activeIn s k g us) cls = m.wentOn w k (w.activeIn s k g vs) cls := by
  unfold Mach.wentOn Mach.keepHeld
  rw [mapLanes_activeIn (vs := vs)]
  intro x t
  simp only [Form.latchAfter_none hh hb]
  rfl

/-! ### Surface accesses -/

/-- Accesses that issue lane by lane carry the choice that stood at the first of them. -/
theorem issueEach_eq (s : State) (g : Group) (ls : List LaneIn) (a : Nat → LaneIn → Acc) :
    (ons ls).foldl (fun m l => m.issueLong g (a m.free l)) s.m = issueEach s g ls (a s.m.free) :=
  foldl_lanes (fun m => m.free = s.m.free) rfl (fun m _ h => (issueLong_free m g _).trans h) fun l _ m h => by rw [h]

theorem issueEach_gang? (s : State) (g : Group) (ls : List LaneIn) (a : LaneIn → Acc) (j : Nat) : (issueEach s g ls a).gang? j = s.m.gang? j :=
  foldl_keeps (fun m => m.gang? j = s.m.gang? j) rfl fun m _ h => (issueLong_gang m g _ j).trans h

/-- `suld` (R192). -/
def suldWord (f : FXs) (q : Option Modifier) : Desc :=
  { c := f.c, q := q, cls := 1, stop := true, srcs := [{ f := f.a, w := 2 }], dst := some { f := f.d, long := true }
    chk := fun m k g l => match chkDst g.acquired { f := f.d, w := handleRegs m g (wordHandle m k g f.s) } with
      | some r => .trap .regrange r
      | none => .ok l.vs
    exe := fun _ m k g _ =>
      let h := wordHandle m k g f.s
      (surfCheck m g h).orElse fun _ => texelForm f.d (handleRegs m g h)
    busy := fun _ m k g l => memBusy true m g l ||
      (Dst.regs { f := f.d, w := handleRegs m g (wordHandle m k g f.s) }).any fun n => l.t.c.notFull.getLsbD n
    act := fun _ m k g ls =>
      let h := wordHandle m k g f.s
      let ds := Dst.regs { f := f.d, w := handleRegs m g h }
      ((ons ls).foldl (fun m l => m.issueLong g
        (surfAcc g l (.suld h (coordX (l.val 0)) (coordY (l.val 0)) (coordL (l.val 0))) ds m.free)) m, []) }

theorem exec_suld (f : FXs) (q : Option Modifier) (s : State) : exec (.suld f q) s = word (suldWord f q) s := rfl

theorem suldWord_act (f : FXs) (q : Option Modifier) (s : State) (k : Gang) (g : Group) (ls : List LaneIn) :
    (suldWord f q).act s.cfg s.m k g ls = (issueEach s g ls fun l => surfAcc g l
      (.suld (uniRead s k g f.s) (bitsOf (l.val 0) 0 16) (bitsOf (l.val 0) 16 16) (bitsOf (l.val 0) 32 8))
      (Dst.regs { f := f.d, w := handleRegs s.m g (uniRead s k g f.s) }) s.m.free, []) :=
  congrArg (·, []) (issueEach_eq s g ls fun free l => surfAcc g l
    (.suld (uniRead s k g f.s) (bitsOf (l.val 0) 0 16) (bitsOf (l.val 0) 16 16) (bitsOf (l.val 0) 32 8))
    (Dst.regs { f := f.d, w := handleRegs s.m g (uniRead s k g f.s) }) free)

theorem suld_acts (f : FXs) (q : Option Modifier) : ActsWhen (.suld f q) (formSurf f q (some { f := f.d, long := true })) 1
    (fun s k g ls => texelFits s k g f ∧ ∀ l ∈ ons ls, surfCheck s.m g (uniRead s k g f.s) = none ∧ memBusy true s.m g l = false
      ∧ ∀ n ∈ Dst.regs { f := f.d, w := handleRegs s.m g (uniRead s k g f.s) }, l.t.c.notFull.getLsbD n = false)
    fun s k g ls => issueEach s g ls fun l => surfAcc g l (.suld (uniRead s k g f.s) (bitsOf (l.val 0) 0 16) (bitsOf (l.val 0) 16 16) (bitsOf (l.val 0) 32 8))
      (Dst.regs { f := f.d, w := handleRegs s.m g (uniRead s k g f.s) }) s.m.free := by
  intro s k g vs hr ⟨⟨hdst, halign⟩, hok⟩
  rw [exec_suld]
  refine word_checked (d := suldWord f q) hr rfl rfl rfl rfl (fun x _ => ?_) (fun l hl => ?_) (fun l hl => ?_)
    (suldWord_act f q s k g _) (issueEach_gang? s g _ _ _)
  · have hdst' : chkDst g.acquired { f := f.d, w := handleRegs s.m g (wordHandle s.m k g f.s) } = none := hdst
    simp only [suldWord, hdst']
    rfl
  · obtain ⟨-, hbusy, hfull⟩ := hok l hl
    simp only [suldWord, hbusy, Bool.false_or]
    exact List.any_eq_false.2 fun n hn => by simp only [hfull n hn, Bool.false_eq_true, not_false_eq_true]
  · obtain ⟨hsurf, -⟩ := hok l hl
    exact (congrArg (Option.orElse · _) hsurf).trans halign

/-- `sust` (R192). -/
def sustWord (f : FXs) (q : Option Modifier) : Desc :=
  { c := f.c, q := q, cls := 1, stop := true, srcs := [{ f := f.a, w := 2 }, { f := f.d, cyc := 1 }]
    chk := fun m k g l => sustData m k g l f.d (handleRegs m g (wordHandle m k g f.s))
    exe := fun _ m k g _ =>
      let h := wordHandle m k g f.s
      (surfCheck m g h).orElse fun _ => texelForm f.d (handleRegs m g h)
    busy := fun _ m _ g l => memBusy false m g l
    act := fun _ m k g ls =>
      let h := wordHandle m k g f.s
      (m.queueAccs g ((ons ls).map fun l =>
        surfAcc g l (.sust h (coordX (l.val 0)) (coordY (l.val 0)) (coordL (l.val 0)) (l.val 1)) [] m.free), []) }

theorem exec_sust (f : FXs) (q : Option Modifier) (s : State) : exec (.sust f q) s = word (sustWord f q) s := rfl

theorem sust_acts (f : FXs) (q : Option Modifier) (data : LaneIn → Nat) : ActsWhen (.sust f q)
    { c := f.c, q := q, srcs := [{ f := f.a, w := 2 }, { f := f.d, cyc := 1 }] } 1
    (fun s k g ls => (∀ l ∈ ls, sustData s.m k g l f.d (handleRegs s.m g (uniRead s k g f.s)) = .ok [l.val 0, data l])
      ∧ ∀ l ∈ ons ls, surfCheck s.m g (uniRead s k g f.s) = none ∧ texelForm f.d (handleRegs s.m g (uniRead s k g f.s)) = none
        ∧ memBusy false s.m g l = false)
    fun s k g ls => s.m.queueAccs g ((ons ls).map fun l => surfAcc g l
      (.sust (uniRead s k g f.s) (bitsOf (l.val 0) 0 16) (bitsOf (l.val 0) 16 16) (bitsOf (l.val 0) 32 8) (data l)) [] s.m.free) := by
  intro s k g vs hr ⟨hdata, hok⟩
  -- The word's lanes carry the data that the check read in place of the latch entry or register named.
  let us : Thread → List Nat := fun x => [((sustWord f q).form.laneIn s k g vs x).val 0, data ((sustWord f q).form.laneIn s k g vs x)]
  have hlane (l : LaneIn) (hl : l ∈ ons ((sustWord f q).form.activeIn s k g us)) : ∃ l' ∈ ons ((sustWord f q).form.activeIn s k g vs), l'.t = l.t := by
    have hts : (ons ((sustWord f q).form.activeIn s k g us)).map (·.t) = (ons ((sustWord f q).form.activeIn s k g vs)).map (·.t) :=
      map_ons_activeIn fun _ => rfl
    exact List.mem_map.1 (hts ▸ List.mem_map_of_mem hl)
  have hwent := wentOn_activeIn (w := (sustWord f q).form) (k := k) (g := g) (s := s) (vs := vs) (us := us) (hh := rfl) (hb := Form.hbOf_of_legal hr.legal rfl)
  refine (word_checked (d := sustWord f q) hr rfl rfl rfl rfl (fun x hx => hdata _ (activeIn_mem hx)) (fun l hl => ?_) (fun l hl => ?_) ?_ ?_).trans
    (congrArg (fun m => Host.Outcome.next { s with m := m }) (hwent _ _))
  · obtain ⟨l', hl', ht⟩ := hlane l hl
    obtain ⟨-, -, hbusy⟩ := hok l' hl'
    simpa only [sustWord, memBusy, Bool.false_and, ht] using hbusy
  · obtain ⟨l', hl', -⟩ := hlane l hl
    obtain ⟨hsurf, halign, -⟩ := hok l' hl'
    exact (congrArg (Option.orElse · _) hsurf).trans halign
  · exact congrArg (s.m.queueAccs g ·, []) (map_ons_activeIn fun _ => rfl)
  · rfl

/-! ### Textures -/

theorem texWord_act (kind : Nat) (f : FXs) (q : Option Modifier) (s : State) (k : Gang) (g : Group) (ls : List LaneIn) :
    (texWord kind f q).act s.cfg s.m k g ls = (issueEach s g ls fun l => surfAcc g l (.tex kind (uniRead s k g f.s) (BitVec.ofNat 32 (l.val 0))
      (BitVec.ofNat 32 (l.val 0 / 2 ^ 32)) (BitVec.ofNat 32 (l.val 1))) (Dst.regs { f := f.d, w := 4 }) s.m.free, []) :=
  congrArg (·, []) (issueEach_eq s g ls fun free l => surfAcc g l (.tex kind (uniRead s k g f.s) (BitVec.ofNat 32 (l.val 0))
    (BitVec.ofNat 32 (l.val 0 / 2 ^ 32)) (BitVec.ofNat 32 (l.val 1))) (Dst.regs { f := f.d, w := 4 }) free)

/-- A texture read of any kind (R193); only one with a third coordinate has a source that may not fit. -/
theorem texWord_acts {i : Instr} {kind : Nat} {f : FXs} {q : Option Modifier} (hx : ∀ s, exec i s = word (texWord kind f q) s)
    (hill : kind = 1 → f.a ≠ 110 ∧ f.a ≠ 118) :
    Acts i (texWord kind f q).form 1 (fun s k g l => surfCheck s.m g (uniRead s k g f.s) = none ∧ memBusy true s.m g l = false)
      fun s k g ls => issueEach s g ls fun l => surfAcc g l (.tex kind (uniRead s k g f.s) (BitVec.ofNat 32 (l.val 0))
        (BitVec.ofNat 32 (l.val 0 / 2 ^ 32)) (BitVec.ofNat 32 (l.val 1))) (Dst.regs { f := f.d, w := 4 }) s.m.free := by
  refine acts_of_actsWhen (actsWhen_of hx ?_ rfl rfl rfl (fun s k g vs _ hok l hl => (hok l hl).2) (fun _ _ _ _ _ _ => rfl)
    (fun s k g vs _ hok l hl => (hok l hl).1) (fun s k g vs _ _ => texWord_act kind f q s k g _) fun s k g vs _ _ => issueEach_gang? s g _ _ _)
  simp only [texWord, Bool.and_eq_false_imp, beq_iff_eq, Bool.or_eq_false_iff, beq_eq_false_iff_ne]
  exact hill

theorem tex_acts : ∀ r ∈ [((.tex : FXs → Option Modifier → Instr), 0), (.texl, 1), (.texg, 2)], ∀ f q, (r.2 = 1 → f.a ≠ 110 ∧ f.a ≠ 118) →
    Acts (r.1 f q) (formTex f q (r.2 == 1)) 1 (fun s k g l => surfCheck s.m g (uniRead s k g f.s) = none ∧ memBusy true s.m g l = false)
      fun s k g ls => issueEach s g ls fun l => surfAcc g l (.tex r.2 (uniRead s k g f.s) (BitVec.ofNat 32 (l.val 0))
        (BitVec.ofNat 32 (l.val 0 / 2 ^ 32)) (BitVec.ofNat 32 (l.val 1))) (Dst.regs { f := f.d, w := 4 }) s.m.free := by
  intro r hr f q h
  simp only [List.mem_cons, List.not_mem_nil, or_false] at hr
  obtain rfl | rfl | rfl := hr
  · exact texWord_acts (fun _ => rfl) h
  · exact texWord_acts (fun _ => rfl) h
  · exact texWord_acts (fun _ => rfl) h

/-! ### Surfaces that are made and freed -/

/-- `salloc` (R191). -/
def sallocWord (f : FSalloc) (q : Option Modifier) : Desc :=
  { c := f.c, q := q, ill := decide (61 < f.a), stop := true
    exe := fun cfg m k g _ =>
      let d := uniDesc m k g f.a
      if d.bad || (descTwin cfg g.env.vf (some g.column) d).isNone then some (.opform, 0) else none
    blk := true
    busy := fun _ m _ g l => memBusy false m g l
    act := fun cfg m k g ls =>
      if (ons ls).isEmpty then (m, [])
      else
        let d := uniDesc m k g f.a
        let twin := (descTwin cfg g.env.vf (some g.column) d).getD 0
        let done (m : Mach) (h : Word) : Mach × List Nat :=
          uniNow f.d h (m.allocDone k.id) k ls
        if !m.allocTurn twin k.id then (m.allocWait twin k.id, (ons ls).map (·.t.tid))
        else match allocSurface cfg g.env.vf g.env.leaf d.layers d.fmt d.height d.width twin d.seed m with
          | .null => done m 0
          | .wait m => (m.allocWait twin k.id, (ons ls).map (·.t.tid))
          | .ok m h => done m h }

theorem exec_salloc (f : FSalloc) (q : Option Modifier) (s : State) : exec (.salloc f q) s = word (sallocWord f q) s := rfl

theorem uniNow_of_ne_nil {ls : List LaneIn} (hne : ons ls ≠ []) (d : Nat) (v : Word) (m : Mach) (k : Gang) :
    uniNow d v m k ls = (m.onGroup k.gid fun x => x.writeUniNow d v (codeLoc k), []) := by
  simp only [uniNow, List.isEmpty_eq_false_iff.2 hne, Bool.false_eq_true, if_false]

/-- An allocation that has its turn and is met writes its handle (R191). -/
theorem sallocWord_act {f : FSalloc} {q : Option Modifier} {s : State} {k : Gang} {g : Group} {ls : List LaneIn} {twin : Nat} {m' : Mach} {h : Word}
    (hne : ons ls ≠ []) (htwin : descTwin s.cfg g.env.vf (some g.column) (uniDesc s.m k g f.a) = some twin) (hturn : s.m.allocTurn twin k.id = true)
    (halloc : allocSurface s.cfg g.env.vf g.env.leaf (uniDesc s.m k g f.a).layers (uniDesc s.m k g f.a).fmt (uniDesc s.m k g f.a).height
      (uniDesc s.m k g f.a).width twin (uniDesc s.m k g f.a).seed s.m = .ok m' h) :
    (sallocWord f q).act s.cfg s.m k g ls = ((m'.allocDone k.id).onGroup k.gid fun x => x.writeUniNow f.d h (codeLoc k), []) := by
  simp only [sallocWord, List.isEmpty_eq_false_iff.2 hne, htwin, Option.getD_some, hturn, halloc, uniNow_of_ne_nil hne, Bool.not_true, Bool.false_eq_true, if_false]

theorem salloc_acts (f : FSalloc) (q : Option Modifier) (twin : Nat) (m' : Mach) (h : Word) (ha : f.a ≤ 61) : ActsWhen (.salloc f q) (formBare f.c q) 0
    (fun s k g ls => ons ls ≠ [] ∧ (uniDesc s.m k g f.a).bad = false ∧ descTwin s.cfg g.env.vf (some g.column) (uniDesc s.m k g f.a) = some twin
      ∧ (∀ l ∈ ons ls, memBusy false s.m g l = false) ∧ s.m.allocTurn twin k.id = true
      ∧ allocSurface s.cfg g.env.vf g.env.leaf (uniDesc s.m k g f.a).layers (uniDesc s.m k g f.a).fmt (uniDesc s.m k g f.a).height
          (uniDesc s.m k g f.a).width twin (uniDesc s.m k g f.a).seed s.m = .ok m' h ∧ m'.gang? k.id = s.m.gang? k.id)
    fun _ k _ _ => (m'.allocDone k.id).onGroup k.gid fun x => x.writeUniNow f.d h (codeLoc k) := by
  refine actsWhen_of (exec_salloc f q) (decide_eq_false (Nat.not_lt.2 ha)) rfl rfl rfl (fun s k g vs _ hok l hl => ?_) (fun _ _ _ _ _ _ => rfl)
    (fun s k g vs _ hok l _ => ?_) (fun s k g vs _ hok => ?_) (fun s k g vs _ hok => ?_)
  · obtain ⟨-, -, -, hbusy, -⟩ := hok
    exact hbusy l hl
  · obtain ⟨-, hbad, htwin, -⟩ := hok
    simp only [sallocWord, hbad, htwin, Option.isNone_some, Bool.or_self, Bool.false_eq_true, if_false]
  · obtain ⟨hne, -, htwin, -, hturn, halloc, -⟩ := hok
    exact sallocWord_act hne htwin hturn halloc
  · obtain ⟨-, -, -, -, -, -, hgang⟩ := hok
    exact hgang

/-- `sfree` (R191). -/
def sfreeWord (f : FXu1) (q : Option Modifier) : Desc :=
  { c := f.c, q := q, stop := true
    exe := fun _ m k g _ =>
      match m.handle g.env.vf (wordHandle m k g f.a) with
      | .stale => some (.surf, (wordHandle m k g f.a).toNat)
      | _ => none
    busy := fun _ m _ g l => (m.accsOf g l.t.tid).any fun a => a.path == .surf
    act := fun cfg m k g ls =>
      if (ons ls).isEmpty then (m, [])
      else
        let h := wordHandle m k g f.a
        match m.handle g.env.vf h with
        | .outside => (m.freezeGroup g 1 h.toNat none, [])
        | .ok x => (freeSurface cfg x m, [])
        | .stale => (m, []) }

theorem exec_sfree (f : FXu1) (q : Option Modifier) (s : State) : exec (.sfree f q) s = word (sfreeWord f q) s := rfl

theorem wordHandle_eq (s : State) (k : Gang) (g : Group) (a : Nat) : wordHandle s.m k g a = uniRead s k g a := rfl

theorem sfreeWord_act {f : FXu1} {q : Option Modifier} {s : State} {k : Gang} {g : Group} {ls : List LaneIn} {x : Surf} (hne : ons ls ≠ [])
    (hx : s.m.handle g.env.vf (uniRead s k g f.a) = .ok x) : (sfreeWord f q).act s.cfg s.m k g ls = (freeSurface s.cfg x s.m, []) := by
  simp only [sfreeWord, wordHandle_eq, hx, List.isEmpty_eq_false_iff.2 hne, Bool.false_eq_true, if_false]

theorem sfree_acts (f : FXu1) (q : Option Modifier) (x : Surf) : ActsWhen (.sfree f q) (formBare f.c q) 0
    (fun s k g ls => ons ls ≠ [] ∧ s.m.handle g.env.vf (uniRead s k g f.a) = .ok x ∧ (∀ l ∈ ons ls, (s.m.accsOf g l.t.tid).any (fun a => a.path == .surf) = false)
      ∧ (freeSurface s.cfg x s.m).gang? k.id = s.m.gang? k.id)
    fun s _ _ _ => freeSurface s.cfg x s.m := by
  refine actsWhen_of (exec_sfree f q) rfl rfl rfl rfl (fun s k g vs _ hok l hl => ?_) (fun _ _ _ _ _ _ => rfl)
    (fun s k g vs _ hok l _ => ?_) (fun s k g vs _ hok => ?_) (fun s k g vs _ hok => ?_)
  · obtain ⟨-, -, hidle, -⟩ := hok
    exact hidle l hl
  · obtain ⟨-, hx, -⟩ := hok
    simp only [sfreeWord, wordHandle_eq, hx]
  · obtain ⟨hne, hx, -⟩ := hok
    exact sfreeWord_act hne hx
  · obtain ⟨-, -, -, hgang⟩ := hok
    exact hgang

/-! ### Exports and the occlusion counters -/

theorem zexp_acts (f : FA) (q : Option Modifier) : Acts (.zexp f q) (formA f.c q f.a f.m 1) 1
    (fun _ _ g l => g.env.role = 3 ∧ (l.t.pixel.map (·.early)).getD false = false)
    fun s k _ ls => s.m.mapLanes k.gid (ons ls) fun l t => { t with expZ := some (BitVec.ofNat 32 (l.val 0)) } := by
  have hx s : exec (.zexp f q) s = word _ s := rfl
  refine acts_of hx rfl rfl rfl rfl (fun _ _ _ _ _ => rfl) (fun _ _ _ _ _ _ => rfl) (fun s k g vs _ hok l hl => ?_) (fun _ _ _ _ _ _ => rfl)
    fun s k g vs hr _ => gang_kept hr rfl
  obtain ⟨hrole, hearly⟩ := hok l hl
  simp only [hrole, hearly, bne_self_eq_false, Bool.or_self, Bool.false_eq_true, if_false]

theorem cexp_acts (f : FCexp) (q : Option Modifier) : Acts (.cexp f q) (formA f.c q f.a f.m 4) 1
    (fun _ _ g l => g.env.role = 3 ∧ f.t < (l.t.pixel.map (·.nt)).getD 8)
    fun s k _ ls => s.m.mapLanes k.gid (ons ls) fun l t => { t with expC := (t.expC.filter fun e => e.target != f.t) ++
      [{ target := f.t, r := BitVec.ofNat 32 (l.val 0), g := BitVec.ofNat 32 (l.val 0 / 2 ^ 32), b := BitVec.ofNat 32 (l.val 0 / 2 ^ 64)
         a := BitVec.ofNat 32 (l.val 0 / 2 ^ 96) }] } := by
  have hx s : exec (.cexp f q) s = word _ s := rfl
  refine acts_of hx rfl rfl rfl rfl (fun _ _ _ _ _ => rfl) (fun _ _ _ _ _ _ => rfl) (fun s k g vs _ hok l hl => ?_) (fun _ _ _ _ _ _ => rfl)
    fun s k g vs hr _ => gang_kept hr rfl
  obtain ⟨hrole, htarget⟩ := hok l hl
  simp only [hrole, decide_eq_false (Nat.not_le.2 htarget), bne_self_eq_false, Bool.or_self, Bool.false_eq_true, if_false]

theorem occ_acts (f : FXv) (q : Option Modifier) : Acts (.occ f q) (formCvt f.c q f.d f.a f.m 1 1) 1 (fun _ _ _ l => l.val 0 ≤ 65535)
    fun s k g ls => (laneNow (fun l => resWrites f.d 1 (SMap.get 0 s.m.occ (occKey (2 * (g.column / 2)) (l.val 0))
      + SMap.get 0 s.m.occ (occKey (2 * (g.column / 2) + 1) (l.val 0)))) s.m k ls).1 := by
  have hx s : exec (.occ f q) s = word _ s := rfl
  exact acts_of hx rfl rfl rfl rfl (fun _ _ _ _ _ => rfl) (fun _ _ _ _ _ _ => rfl) (fun _ _ _ _ _ hok l hl => if_neg (Nat.not_lt.2 (hok l hl)))
    (fun _ _ _ _ _ _ => rfl) fun s k g vs hr _ => gang_kept hr rfl

/-- Settles O18, one word at a time. -/
theorem surfaceAndExportWordsAct : Obligations.SurfaceAndExportWordsAct :=
  ⟨suld_acts, sust_acts, tex_acts, salloc_acts, sfree_acts, zexp_acts, cexp_acts, occ_acts⟩

end Sys2Proof.Machine
end

section
/-! PROOFS. Matrix words at issue (08 R196 to R202): a slot outside the slots a group holds traps every active lane (R20), guarded in or not, so the
condition of a word that acts for guarded lanes only says nothing of it where no lane is guarded in. -/

namespace Sys2Proof.Machine

/-- A guard that no lane of a fresh thread passes. -/
def guardOut : Modifier :=
  { c := false, sat := false, clp := false, na := false, nb := false, aa := false, ab := false, scale := 0, kg := 1, gn := false, hb := false, ord := 0
    scope := 0, rsv := false }

/-- `mzero` on slot 8, the first that the placed group does not hold. -/
def mzeroOutside : FMzero := { c := false, s := 8 }

/-- The machine at reset with the placed group on it, its gang at a word. -/
def slotOutside : State :=
  { State.reset with m := { State.reset.m with groups := [placedGroup 0], gangs := [placedGang 0 0 0 0], cur := some 0, nextGid := 1, nextGang := 1 } }

theorem slotOutside_ready : (formBare false (some guardOut)).Ready slotOutside (placedGang 0 0 0 0) (placedGroup 0) fun _ => [] where
  cur := rfl
  solo := rfl
  some := by decide
  plain := by decide
  chain := by decide
  legal := by decide
  reads := by intro _ _; rfl
  below := by intro _ h; cases h
  full := by intro _ _ _ _ h; cases h

/-- The stops marked after a step. -/
def stopsAfter : Host.Outcome State Fault Refusal → List (Nat × Nat)
  | .next s => s.m.stops
  | _ => []

/-- The word traps its lane, guarded out as it is, and the lane's domain is marked for its stop (R20, R243). -/
theorem stopsAfter_mzeroOutside : stopsAfter (exec (.mzero mzeroOutside (some guardOut)) slotOutside) = [(0, Cause.regrange.code)] := rfl

theorem slotOutside_lanesIn : (formBare false (some guardOut)).lanesIn slotOutside (placedGang 0 0 0 0) (placedGroup 0) (fun _ => []) = [] := rfl

/-- Refutes O19, at `mzero`: its gang does not go on where the slot is not held, though no lane is guarded in. -/
theorem not_matrixWordsAct : ¬ Obligations.MatrixWordsAct := by
  unfold Obligations.MatrixWordsAct
  rintro ⟨-, hmzero, -⟩
  have hgoes := hmzero mzeroOutside (some guardOut) _ _ _ _ slotOutside_ready fun l hl => by
    have hnone : l ∈ [] := slotOutside_lanesIn ▸ hl
    cases hnone
  have hstops := stopsAfter_mzeroOutside.symm.trans (congrArg stopsAfter hgoes)
  exact absurd hstops (by decide)

end Sys2Proof.Machine
end

section
/-! PROOFS. The return of holdings (08 R177, 10 R231, R233): the banker changes holdings, waiting requests and the gangs it answers, and nothing else. -/

namespace Sys2Proof.Machine

/-! ### Ranges of memory -/

theorem SMap.get_filter {α : Type} (d : α) (m : SMap α) (p : Nat → Bool) (k : Nat) :
    SMap.get d (m.filter fun e => p e.1) k = if p k then SMap.get d m k else d := by
  induction m with
  | nil => simp [SMap.get]
  | cons e m ih =>
    rw [List.filter_cons]
    by_cases he : e.1 = k
    · subst he
      cases hp : p e.1 <;> simp [hp, SMap.get, ih]
    · cases hp : p e.1 <;> simp [SMap.get, he, ih]

/-- A byte of a cleared range is one that nothing has written; every other byte stays. -/
theorem byteAt_clearRange (m : Mem) (lo hi b : Nat) : byteAt (clearRange m lo hi) b = if lo ≤ b ∧ b < hi then unwritten else byteAt m b := by
  refine (SMap.get_filter unwritten m (fun a => !(decide (lo ≤ a) && decide (a < hi))) b).trans ?_
  by_cases h : lo ≤ b ∧ b < hi
  · simp [h]
  · simp only [h, if_false, ← Bool.decide_and, decide_false, Bool.not_false, if_true]
    rfl

theorem byteAt_clearRange_out (m : Mem) {lo hi b : Nat} (h : b < lo ∨ hi ≤ b) : byteAt (clearRange m lo hi) b = byteAt m b := by
  rw [byteAt_clearRange, if_neg (by omega)]

/-! ### The banker -/

/-- A group but for its holding. -/
def Group.unheld (g : Group) : Group := { g with hold := {} }

/-- What the banker's answers to waiting requests leave of a machine: handles of groups stay, and of a group all but its holding; gangs are answered or stay;
no other part of the machine but cores changes. -/
structure Mach.Granted (m n : Mach) : Prop where
  smem : n.smem = m.smem
  group : ∀ i, (n.group? i).map Group.unheld = (m.group? i).map Group.unheld
  acked : ∀ i, (∀ k, m.gang? i = some k → k.ack = true) → ∀ k, n.gang? i = some k → k.ack = true
  gangs : ∀ i, (∀ k ∈ m.gangs, k.gid ≠ i) → ∀ k ∈ n.gangs, k.gid ≠ i

namespace Mach.Granted

variable {m n o : Mach}

theorem refl (m : Mach) : m.Granted m := ⟨rfl, fun _ => rfl, fun _ => id, fun _ => id⟩

theorem trans (h : m.Granted n) (h' : n.Granted o) : m.Granted o where
  smem := h'.smem.trans h.smem
  group i := (h'.group i).trans (h.group i)
  acked i hk := h'.acked i (h.acked i hk)
  gangs i hk := h'.gangs i (h.gangs i hk)

/-- One answer to a waiting request (R231). -/
theorem grant (m : Mach) (gid kind n gang col core : Nat) (f : Core → Core) :
    m.Granted (((m.grant gid kind n).onGang gang fun k => { k with ack := true }).onCore col core f) where
  smem := rfl
  group i := by
    have hg : (((m.grant gid kind n).onGang gang fun k => { k with ack := true }).onCore col core f).group? i
        = if i = gid then (m.group? i).map fun g => { g with hold := g.hold.addKind kind n } else m.group? i :=
      Mach.group?_onGroup m gid i (fun g => { g with hold := g.hold.addKind kind n }) fun _ => rfl
    rw [hg]
    split
    · cases m.group? i <;> rfl
    · rfl
  acked i hk k hk' := by
    have hg : (((m.grant gid kind n).onGang gang fun k => { k with ack := true }).onCore col core f).gang? i
        = if i = gang then (m.gang? i).map fun k => { k with ack := true } else m.gang? i :=
      Mach.gang?_onGang (m.grant gid kind n) gang i (fun k => { k with ack := true }) fun _ => rfl
    rw [hg] at hk'
    split at hk'
    · obtain ⟨_, -, rfl⟩ := Option.map_eq_some_iff.1 hk'
      rfl
    · exact hk k hk'
  gangs i hk k hk' := by
    obtain ⟨k₀, hk₀, rfl⟩ := List.mem_map.1 hk'
    split <;> exact hk k₀ hk₀

/-- The banker's re-check of waiting requests (R231). -/
theorem bankerRecheck (cfg : Cfg) (col core : Nat) (m : Mach) : m.Granted (bankerRecheck cfg col core m) := by
  unfold Machine.bankerRecheck
  refine foldl_keeps (fun n => m.Granted n) (refl m) fun n w hn => hn.trans ?_
  split
  · exact refl n
  · split
    · exact grant n _ _ _ _ _ _ _
    · exact refl n

/-- A group that is gone stays so. -/
theorem group_none (h : m.Granted n) {i : Nat} (hm : m.group? i = none) : n.group? i = none := by
  have he := h.group i
  rw [hm] at he
  exact Option.map_eq_none_iff.1 he

/-- A group keeps all but its holding. -/
theorem group_some (h : m.Granted n) {i : Nat} {g : Group} (hm : m.group? i = some g) : ∃ g', n.group? i = some g' ∧ g'.unheld = g.unheld := by
  have he := h.group i
  rw [hm] at he
  exact Option.map_eq_some_iff.1 he

end Mach.Granted

/-- Where nobody waits, the banker does nothing. -/
theorem bankerRecheck_idle {cfg : Cfg} {col core : Nat} {m : Mach} (h : (m.core col core).waiters = []) : bankerRecheck cfg col core m = m := by
  rw [bankerRecheck, h, List.foldl_nil]

/-! ### A release -/

/-- A group in which a release has completed (R177). -/
def Group.released (r : RelReq) (g : Group) : Group :=
  { g with
    hold := g.hold.subKind r.kind r.n, rels := g.rels.erase r
    slots := g.slots.filter fun s => decide (s.1 < (g.hold.subKind r.kind r.n).msl)
    threads := g.threads.map fun t => { t with c := t.c.lose ({ g with hold := g.hold.subKind r.kind r.n } : Group).acquired } }

/-- The machine in which a release has completed, before the banker looks at the requests that wait (R177). -/
def relDone (gid : Nat) (r : RelReq) (g : Group) (m : Mach) : Mach :=
  (({ m with smem := clearRange m.smem (scrKey gid (granules (g.released r).hold.scr)) (scrKey gid (2 ^ 32)) } : Mach).onGroup gid (Group.released r)).onGang
    r.gang fun k => { k with ack := true }

theorem Mach.onGroup_onGroup (m : Mach) (i : Nat) (f f' : Group → Group) (h : ∀ g, (f g).gid = g.gid) :
    (m.onGroup i f).onGroup i f' = m.onGroup i (f' ∘ f) := by
  unfold Mach.onGroup
  simp only [List.map_map]
  congr 1
  refine List.map_congr_left fun g _ => ?_
  by_cases hg : g.gid = i
  · simp only [Function.comp, hg, h, beq_self_eq_true, if_true]
  · simp only [Function.comp, beq_false_of_ne hg, Bool.false_eq_true, if_false]

theorem completeRel_eq (cfg : Cfg) {gid : Nat} {g : Group} (r : RelReq) {m : Mach} (hg : m.group? gid = some g) :
    completeRel cfg gid g r m = bankerRecheck cfg g.column g.core (relDone gid r g m) := by
  have hfall : (m.onGroup gid fun g => { g with hold := g.hold.subKind r.kind r.n, rels := g.rels.erase r }).group? gid
      = some { g with hold := g.hold.subKind r.kind r.n, rels := g.rels.erase r } := by
    rw [Mach.group?_onGroup m gid gid (fun g => { g with hold := g.hold.subKind r.kind r.n, rels := g.rels.erase r }) fun _ => rfl, if_pos rfl, hg]
    rfl
  simp only [completeRel, Mach.loseReleased, hfall]
  rw [Mach.onGroup_onGroup m gid (fun g => { g with hold := g.hold.subKind r.kind r.n, rels := g.rels.erase r }) _ fun _ => rfl]
  rfl

theorem relDone_group? {m : Mach} {gid : Nat} {g : Group} (r : RelReq) (hg : m.group? gid = some g) :
    (relDone gid r g m).group? gid = some (g.released r) := by
  refine (Mach.group?_onGroup _ gid gid (Group.released r) fun _ => rfl).trans ?_
  rw [if_pos rfl]
  exact congrArg (Option.map _) hg

/-- The gang of a release goes on (R177). -/
theorem relDone_gang? {m : Mach} {gid : Nat} {g : Group} {r : RelReq} {k : Gang} (hk : (relDone gid r g m).gang? r.gang = some k) : k.ack = true := by
  rw [relDone, Mach.gang?_onGang _ r.gang r.gang (fun k => { k with ack := true }) fun _ => rfl, if_pos rfl] at hk
  obtain ⟨k₀, -, rfl⟩ := Option.map_eq_some_iff.1 hk
  rfl

theorem relCompletion_done (s : State) (gid : Nat) (g : Group) (r : RelReq) (hg : s.m.group? gid = some g) (hres : g.stage = .resident)
    (hr : g.rels.find? (relIdle s.m g) = some r) :
    ∃ t g', exec (.relCompletion gid) s = .next t ∧ t.m.group? gid = some g' ∧ g'.rels = g.rels.erase r
      ∧ ((s.m.core g.column g.core).waiters = [] → g'.hold = g.hold.subKind r.kind r.n)
      ∧ (∀ k, t.m.gang? r.gang = some k → k.ack = true)
      ∧ ∀ b, b < scrKey gid 0 ∨ scrKey gid (2 ^ 32) ≤ b → byteAt t.m.smem b = byteAt s.m.smem b := by
  have hexec : exec (.relCompletion gid) s = .next { s with m := bankerRecheck s.cfg g.column g.core (relDone gid r g s.m) } := by
    show execRelCompletion gid s = _
    simp only [execRelCompletion, onMach, hg, hr, hres, if_true, completeRel_eq s.cfg r hg]
  have hgrant := Mach.Granted.bankerRecheck s.cfg g.column g.core (relDone gid r g s.m)
  obtain ⟨g', hg', hkept⟩ := hgrant.group_some (relDone_group? r hg)
  refine ⟨_, g', hexec, hg', ?_, fun hidle => ?_, fun k hk => hgrant.acked r.gang (fun _ => relDone_gang?) k hk, fun b hb => ?_⟩
  · exact congrArg Group.rels hkept
  · have hidle' : ((relDone gid r g s.m).core g.column g.core).waiters = [] := hidle
    rw [bankerRecheck_idle hidle', relDone_group? r hg] at hg'
    exact (Option.some.inj hg') ▸ rfl
  · show byteAt (bankerRecheck s.cfg g.column g.core (relDone gid r g s.m)).smem b = _
    rw [hgrant.smem]
    exact byteAt_clearRange_out _ (hb.imp_left fun h => Nat.lt_of_lt_of_le h (Nat.add_le_add_left (Nat.zero_le _) _))

/-! ### The end of a group -/

/-- The machine from which a group is gone, with its gangs, its window and its tile entries, before the banker looks at the requests that wait (R233). -/
def groupGone (gid : Nat) (g : Group) (m : Mach) : Mach :=
  let m := (({ m with cores := m.cores.map fun (e : Nat × Core) => (e.1, e.2.dropFaulted gid) } : Mach).dropFaultsOf g.env.vf gid).onCore g.column g.core
    fun c => { c with tiles := c.tiles.filter fun t => t.2.gid != gid }
  { m with
    groups := m.groups.filter fun x => x.gid != gid, gangs := m.gangs.filter fun k => k.gid != gid
    smem := clearRange m.smem (scrKey gid 0) (scrKey gid (2 ^ 32)) }

theorem groupGone_group? (gid : Nat) (g : Group) (m : Mach) : (groupGone gid g m).group? gid = none :=
  List.find?_eq_none.2 fun x hx => by simpa using (List.mem_filter.1 hx).2

theorem groupGone_gangs (gid : Nat) (g : Group) (m : Mach) : ∀ k ∈ (groupGone gid g m).gangs, k.gid ≠ gid :=
  fun k hk => by simpa using (List.mem_filter.1 hk).2

theorem holdingsReturn_done (s : State) (gid : Nat) (g : Group) (hg : s.m.group? gid = some g) (hover : g.over = true)
    (hidle : groupIdle { s.m with cores := s.m.cores.map fun (e : Nat × Core) => (e.1, e.2.dropFaulted gid) } g = true) :
    ∃ t, exec (.holdingsReturn gid) s = .next t ∧ t.m.group? gid = none ∧ (∀ k ∈ t.m.gangs, k.gid ≠ gid)
      ∧ (∀ off < 2 ^ 32, byteAt t.m.smem (scrKey gid off) = 0)
      ∧ ∀ b, b < scrKey gid 0 ∨ scrKey gid (2 ^ 32) ≤ b → byteAt t.m.smem b = byteAt s.m.smem b := by
  have hidle' : groupIdle (({ s.m with cores := s.m.cores.map fun (e : Nat × Core) => (e.1, e.2.dropFaulted gid) } : Mach).dropFaultsOf g.env.vf gid) g = true :=
    hidle
  have hexec : exec (.holdingsReturn gid) s = .next { s with m := bankerRecheck s.cfg g.column g.core (groupGone gid g s.m) } := by
    show execHoldingsReturn gid s = _
    simp only [execHoldingsReturn, onMach, hg, hover, hidle', Bool.not_true, Bool.false_eq_true, if_false]
    rfl
  have hgrant := Mach.Granted.bankerRecheck s.cfg g.column g.core (groupGone gid g s.m)
  have hsmem : (bankerRecheck s.cfg g.column g.core (groupGone gid g s.m)).smem = clearRange s.m.smem (scrKey gid 0) (scrKey gid (2 ^ 32)) := hgrant.smem
  refine ⟨_, hexec, hgrant.group_none (groupGone_group? gid g s.m), hgrant.gangs gid (groupGone_gangs gid g s.m), fun off hoff => ?_, fun b hb => ?_⟩
  · show byteAt (bankerRecheck _ _ _ _).smem _ = 0
    rw [hsmem, byteAt_clearRange, if_pos (by simp only [scrKey]; omega)]
    rfl
  · show byteAt (bankerRecheck _ _ _ _).smem _ = _
    rw [hsmem, byteAt_clearRange_out _ hb]

/-- Settles O38; that a byte nothing has written reads 0 is log entry 4. -/
theorem holdingsReturn : Obligations.HoldingsReturn := ⟨relCompletion_done, holdingsReturn_done⟩

end Sys2Proof.Machine
end

section
/-! PROOFS. The copy engine (08 R182 to R188): how a piece of work on a request ends, and what a fill and a copy of one row leave in the window. -/

namespace Sys2Proof.Machine

/-! ### The current request of a block -/

/-- A copy event is a step of the engine on its operation. -/
theorem exec_copyEvent {i : Instr} {op col core idx : Nat} (h : CopyEvent i op col core idx) (s : State) :
    exec i s = onMach (copyStep op col core idx) s := by
  obtain ⟨rfl, rfl⟩ | ⟨rfl, rfl⟩ | ⟨rfl, rfl⟩ | ⟨rfl, rfl⟩ | ⟨rfl, rfl⟩ := h
  · rfl
  · rfl
  · rfl
  · rfl
  · rfl

/-- What the engine does to the current request of a block that is due: faults it where it is malformed, and else works on it and ends the piece. -/
theorem copyStep_due {s : State} {col core idx op : Nat} {k : Kick} {g : Group} {q : Req} (h : KickDue s col core idx op k g q) :
    copyStep op col core idx s.cfg s.m = mirrored s.cfg g s.m (if q.bad k.k then faultReq s.cfg col core idx (k.begun k.eb) g 3 (k.start q) 0 false s.m
      else endPiece s.cfg col core idx (k.begun (workOn s k g q).2.1) g q (workOn s k g q).1 (workOn s k g q).2.2.1 (workOn s k g q).2.2.2) := by
  have hfresh : (decide (k.k < 64) && k.prog.isNone && q.state == 1) = false := by
    simpa only [Bool.eq_false_iff, ne_eq, Bool.and_eq_true, decide_eq_true_eq, Option.isNone_iff_eq_none, beq_iff_eq, and_assoc] using h.fresh
  unfold copyStep
  simp only [h.kick, h.group, h.free, h.op, h.place, h.lock, h.whole, ← h.req, hfresh, Bool.not_true, bne_self_eq_false, Bool.or_self, Bool.false_eq_true, if_false]
  split
  · rfl
  · rfl

/-- A request is faulted once the fault ring takes its record (R187, R336). -/
theorem faultReq_ready {cfg : Cfg} {col core idx : Nat} {k : Kick} {g : Group} {st p va : Nat} {wr : Bool} {m m' : Mach}
    (h : touchRing cfg g.env.vf m = (m', .ready)) :
    faultReq cfg col core idx k g st p va wr m = ((m'.setKick col core idx { k with prog := some p, eb := {}, faulted := true, pend := none }).faultRecord
      cfg g col core 1 k.k va p (if wr then 1 else 0) k.off).setReq g.gid k.req st p := by
  unfold faultReq
  rw [h]

/-- A group that has its place has no image to follow (R188). -/
theorem mirrored_of_here {g : Group} (cfg : Cfg) (m m' : Mach) (h : g.away = false) : mirrored cfg g m m' = m' := by
  simp only [mirrored, h, Bool.false_eq_true, if_false]

/-- A piece that nothing stopped: with all bytes written the request ends, and else it shows how far it has come (R187). -/
theorem endPiece_none {cfg : Cfg} {col core idx : Nat} {k : Kick} {g : Group} {q : Req} {m : Mach} {p : Nat} (hp : p ≤ q.total)
    (hlock : m.objLocked g.gid k.obj = false) :
    endPiece cfg col core idx k g q m p none = if p = q.total then endedReq col core idx k g q m
      else (m.setReq g.gid k.req 0 p).setKick col core idx { k with prog := some p, pend := none } := by
  by_cases h : p = q.total
  · simp only [endPiece, endedReq, h, hlock, decide_true, Bool.not_false, Bool.and_self, if_true, Nat.le_refl]
  · simp only [endPiece, h, decide_eq_false (show ¬ q.total ≤ p by omega), Bool.false_and, Bool.false_eq_true, if_false]

theorem copy_goes {i : Instr} {op : Nat} {s : State} {col core idx : Nat} {k : Kick} {g : Group} {q : Req} {m' : Mach} {eb : EngBuf} {p : Nat}
    (hi : CopyEvent i op col core idx) (hdue : KickDue s col core idx op k g q) (hbad : q.bad k.k = false) (hp : p ≤ q.total)
    (hwork : workOn s k g q = (m', eb, p, none)) (hlock : m'.objLocked g.gid k.obj = false) :
    exec i s = .next { s with m := mirrored s.cfg g s.m (if p = q.total then endedReq col core idx (k.begun eb) g q m'
      else (m'.setReq g.gid k.req 0 p).setKick col core idx { k.begun eb with prog := some p, pend := none }) } := by
  rw [exec_copyEvent hi, onMach, copyStep_due hdue, hwork]
  simp only [hbad, Bool.false_eq_true, if_false]
  rw [endPiece_none (k := k.begun eb) hp hlock]
  rfl

theorem copy_faults {i : Instr} {op : Nat} {s : State} {col core idx : Nat} {k : Kick} {g : Group} {q : Req} {m' : Mach} {eb : EngBuf} {p va : Nat} {wr : Bool}
    (hi : CopyEvent i op col core idx) (hdue : KickDue s col core idx op k g q) (hbad : q.bad k.k = false)
    (hwork : workOn s k g q = (m', eb, p, some (.fail1 va wr))) :
    exec i s = .next { s with m := mirrored s.cfg g s.m (faultReq s.cfg col core idx (k.begun eb) g 2 p va wr m') } := by
  rw [exec_copyEvent hi, onMach, copyStep_due hdue, hwork]
  simp only [hbad, Bool.false_eq_true, if_false, endPiece]

theorem copy_malformed {i : Instr} {op : Nat} {s : State} {col core idx : Nat} {k : Kick} {g : Group} {q : Req} (hi : CopyEvent i op col core idx)
    (hdue : KickDue s col core idx op k g q) (hbad : q.bad k.k = true) :
    exec i s = .next { s with m := mirrored s.cfg g s.m (faultReq s.cfg col core idx (k.begun k.eb) g 3 (k.start q) 0 false s.m) } := by
  rw [exec_copyEvent hi, onMach, copyStep_due hdue]
  simp only [hbad, if_true]

/-! ### A request whose pieces are the bytes of one range of the window -/

/-- The first `p` bytes of a request stand in the window from `dst` on, and nothing but bytes of its range has changed since `m₀`. -/
structure WindowRun (m₀ : Mach) (gid dst len : Nat) (val : Nat → Byte) (p : Nat) (m : Mach) : Prop where
  rest : m = { m₀ with smem := m.smem }
  done : ∀ i < p, byteAt m.smem (scrKey gid (dst + i)) = val i
  out : ∀ b, b < scrKey gid dst ∨ scrKey gid (dst + len) ≤ b → byteAt m.smem b = byteAt m₀.smem b

theorem scrKey_add (gid a n : Nat) : scrKey gid (a + n) = scrKey gid a + n := by
  unfold scrKey
  omega

/-- One more byte written. -/
theorem WindowRun.next {m₀ m : Mach} {gid dst len p : Nat} {val : Nat → Byte} (h : WindowRun m₀ gid dst len val p m) (hp : p < len) :
    WindowRun m₀ gid dst len val (p + 1) (m.winWrite gid (dst + p) 1 (val p).toNat) where
  rest := by
    rw [h.rest]
    rfl
  done i hi := by
    rw [winWrite_smem]
    by_cases hip : i = p
    · subst hip
      simpa using byteAt_writeN_in m.smem (scrKey gid (dst + i)) 1 (val i).toNat 0 Nat.one_pos
    · rw [byteAt_writeN_out _ _ _ _ (by simp only [scrKey_add]; omega)]
      exact h.done i (by omega)
  out b hb := by
    rw [winWrite_smem, byteAt_writeN_out _ _ _ _ (by simp only [scrKey_add] at hb ⊢; omega)]
    exact h.out b hb

/-- What is written to a window holds back no byte. -/
theorem WindowRun.winStop {m₀ m : Mach} {g : Group} {dst len p : Nat} {val : Nat → Byte} (h : WindowRun m₀ g.gid dst len val p m) (off : Nat) :
    winStop m g off = winStop m₀ g off := by
  rw [h.rest]
  rfl

/-- The work on a request that writes its bytes one by one to a range of the window runs to its end. -/
theorem engRun_window {cfg : Cfg} {g : Group} {m₀ : Mach} {q : Req} {val : Nat → Byte} (htotal : q.total = q.len)
    (hdst : ∀ i < q.len, q.dstAt i = .win (q.dst + i)) (hfree : ∀ off, off < granules g.hold.scr → winStop m₀ g off = none)
    (hfit : q.dst + q.len ≤ granules g.hold.scr)
    (hval : ∀ p m, WindowRun m₀ g.gid q.dst q.len val p m → p < q.len → q.bytesAt cfg g {} p m = (m, .ok [val p])) (n p : Nat) (m : Mach) (hn : p + n = q.len)
    (h : WindowRun m₀ g.gid q.dst q.len val p m) :
    ∃ m', engRun cfg g q {} n p m = (m', q.len, none) ∧ WindowRun m₀ g.gid q.dst q.len val q.len m' := by
  induction n generalizing p m with
  | zero =>
    obtain rfl : p = q.len := hn
    exact ⟨m, rfl, h⟩
  | succ n ih =>
    have hp : p < q.len := by omega
    have hput : EngBuf.put {} cfg g q p [val p] m = (m.winWrite g.gid (q.dst + p) 1 (val p).toNat, 1, none) := by
      have hstop : winStop m g (q.dst + p) = none := (h.winStop _).trans (hfree _ (by omega))
      simp only [EngBuf.put, List.contains_nil, Bool.false_eq_true, if_false, hdst p hp, engPut1, hstop]
    obtain ⟨m', hrun, hdone⟩ := ih (p + 1) _ (by omega) (h.next hp)
    refine ⟨m', ?_, hdone⟩
    rw [engRun, if_neg (by omega), hval p m h hp]
    simp only [hput]
    exact hrun

theorem windowRun_zero (m : Mach) (gid dst len : Nat) (val : Nat → Byte) : WindowRun m gid dst len val 0 m where
  rest := rfl
  done _ hi := absurd hi (Nat.not_lt_zero _)
  out _ _ := rfl

/-- A fill leaves its pattern in its range of the window (R184). -/
theorem engRun_fill (cfg : Cfg) (g : Group) (m : Mach) (q : Req) (hfree : ∀ off, off < granules g.hold.scr → winStop m g off = none) (hop : q.op = 2)
    (hdsp : q.dsp = true) (hfit : q.dst + q.len ≤ granules g.hold.scr) :
    ∃ m', engRun cfg g q {} q.len 0 m = (m', q.len, none)
      ∧ (∀ i < q.len, byteAt m'.smem (scrKey g.gid (q.dst + i)) = BitVec.ofNat 8 (q.val / 256 ^ (i % min (2 ^ q.fmt) 4)))
      ∧ ∀ b, b < scrKey g.gid q.dst ∨ scrKey g.gid (q.dst + q.len) ≤ b → byteAt m'.smem b = byteAt m.smem b := by
  obtain ⟨m', hrun, hdone⟩ := engRun_window (cfg := cfg) (val := fun i => BitVec.ofNat 8 (q.val / 256 ^ (i % min (2 ^ q.fmt) 4)))
    (by simp only [Req.total, hop]) (fun i _ => by simp only [Req.dstAt, hop, hdsp, ePlace, if_true]) hfree hfit
    (fun p m _ _ => by simp only [Req.bytesAt, hop]) q.len 0 m (Nat.zero_add _) (windowRun_zero _ _ _ _ _)
  exact ⟨m', hrun, hdone.done, hdone.out⟩

/-- A byte of the window that the engine has not read ahead reads as it stands there. -/
theorem bytes_win {cfg : Cfg} {g : Group} {m : Mach} {off : Nat} (h : winStop m g off = none) :
    EngBuf.bytes {} cfg g [.win off] m = (m, .ok [byteAt m.smem (scrKey g.gid off)]) := by
  have hbyte : EngBuf.byte {} cfg g (.win off) m = engByte cfg g (.win off) m := rfl
  simp only [EngBuf.bytes, hbyte, engByte, h]

/-- A copy of one row leaves its source bytes in a range of the window that its source does not meet (R184). -/
theorem engRun_copy (cfg : Cfg) (g : Group) (m : Mach) (q : Req) (hfree : ∀ off, off < granules g.hold.scr → winStop m g off = none) (hop : q.op = 0)
    (haux : q.aux = 1) (hdsp : q.dsp = true) (hssp : q.ssp = true) (hfit : q.dst + q.len ≤ granules g.hold.scr) (hsrc : q.src + q.len ≤ granules g.hold.scr)
    (hapart : q.src + q.len ≤ q.dst ∨ q.dst + q.len ≤ q.src) :
    ∃ m', engRun cfg g q {} q.len 0 m = (m', q.len, none)
      ∧ (∀ i < q.len, byteAt m'.smem (scrKey g.gid (q.dst + i)) = byteAt m.smem (scrKey g.gid (q.src + i)))
      ∧ ∀ b, b < scrKey g.gid q.dst ∨ scrKey g.gid (q.dst + q.len) ≤ b → byteAt m'.smem b = byteAt m.smem b := by
  have hrow {i : Nat} (hi : i < q.len) (a stride : Nat) : a + i / q.len * stride + i % q.len = a + i := by
    rw [Nat.div_eq_of_lt hi, Nat.mod_eq_of_lt hi, Nat.zero_mul, Nat.add_zero]
  have hread (p : Nat) (m₁ : Mach) (h : WindowRun m g.gid q.dst q.len (fun i => byteAt m.smem (scrKey g.gid (q.src + i))) p m₁) (hp : p < q.len) :
      q.bytesAt cfg g {} p m₁ = (m₁, .ok [byteAt m.smem (scrKey g.gid (q.src + p))]) := by
    have hstop : winStop m₁ g (q.src + p) = none := (h.winStop _).trans (hfree _ (by omega))
    simp only [Req.bytesAt, hop, Req.copySrc, hssp, ePlace, if_true, hrow hp, bytes_win hstop]
    rw [h.out _ (by unfold scrKey; omega)]
  obtain ⟨m', hrun, hdone⟩ := engRun_window (by simp only [Req.total, hop, haux, Nat.mul_one])
    (fun i hi => by simp only [Req.dstAt, hop, hdsp, ePlace, if_true, hrow hi]) hfree hfit hread q.len 0 m (Nat.zero_add _) (windowRun_zero _ _ _ _ _)
  exact ⟨m', hrun, hdone.done, hdone.out⟩

/-- Settles O39: each end of a piece of work, then the bytes of a fill and of a copy by the number of bytes still to write. -/
theorem copyEngineServesRequests : Obligations.CopyEngineServesRequests :=
  ⟨fun _ _ _ _ _ _ _ _ _ _ _ _ hi hdue hbad hp hwork hlock => copy_goes hi hdue hbad hp hwork hlock,
    fun _ _ _ _ _ _ _ _ _ _ _ _ _ _ hi hdue hbad hwork => copy_faults hi hdue hbad hwork,
    fun _ _ _ _ _ _ _ _ _ hi hdue hbad => copy_malformed hi hdue hbad,
    fun _ _ _ _ _ _ _ _ _ _ _ _ h => faultReq_ready h,
    fun _ cfg m m' h => mirrored_of_here cfg m m' h,
    fun cfg g m q _ hfree hop hdsp hfit => engRun_fill cfg g m q hfree hop hdsp hfit,
    fun cfg g m q _ hfree hop haux hdsp hssp hfit hsrc hapart => engRun_copy cfg g m q hfree hop haux hdsp hssp hfit hsrc hapart⟩

end Sys2Proof.Machine
end

section
/-! PROOFS. Tile fills and job cards (08 R180, R190, 11 R260, 17 R324, 18 R336): a case for each way their events end. -/

namespace Sys2Proof.Machine

/-! ### Tile fills -/

theorem exec_tileFillComplete (col core tile : Nat) (s : State) : exec (.tileFillComplete col core tile) s = execTileFillComplete col core tile s := rfl

theorem tileFill_completes (s : State) (col core tile : Nat) (g : Group) (x : Tile) (away : Bool) (m' : Mach) (p : Nat)
    (hx : fillingTile s.m col core tile = some (g, x, away)) (hfault : x.faulted = false) (hfrozen : (s.m.core col core).copyFrozen = false)
    (hheld : pendHeld x.pend s.m.etime = false) (hrun : engRun s.cfg g x.req x.eb x.req.total x.prog s.m = (m', p, none)) :
    exec (.tileFillComplete col core tile) s = .next { s with m := (mirrored s.cfg g s.m
      (putFilling s.cfg g col core tile away { x with st := .ready, prog := 0, eb := {}, pend := none } m')) } := by
  simp only [exec_tileFillComplete, execTileFillComplete, onMach, hx, hfault, hfrozen, hheld, hrun, Bool.or_self, Bool.false_eq_true, if_false]

theorem tileFill_faults (s : State) (col core tile : Nat) (g : Group) (x : Tile) (away : Bool) (m' : Mach) (p va : Nat) (wr : Bool) (m'' : Mach)
    (hx : fillingTile s.m col core tile = some (g, x, away)) (hfault : x.faulted = false) (hfrozen : (s.m.core col core).copyFrozen = false)
    (hheld : pendHeld x.pend s.m.etime = false) (hrun : engRun s.cfg g x.req x.eb x.req.total x.prog s.m = (m', p, some (.fail1 va wr)))
    (hring : touchRing s.cfg g.env.vf m' = (m'', .ready)) :
    exec (.tileFillComplete col core tile) s = .next { s with m := (mirrored s.cfg g s.m
      ((putFilling s.cfg g col core tile away { x with prog := 0, eb := {}, faulted := true, pend := none } m'').faultRecord
        s.cfg g col core 2 0 va 0 0 tile)) } := by
  simp only [exec_tileFillComplete, execTileFillComplete, onMach, hx, hfault, hfrozen, hheld, hrun, hring, Bool.or_self, Bool.false_eq_true, if_false]

/-! ### Job cards -/

theorem exec_cardLock (col core idx : Nat) (s : State) : exec (.cardLock col core idx) s = execCardLock col core idx s := rfl

theorem card_locks (s : State) (col core idx : Nat) (x : Card) (g : Group) (hx : s.m.card? col core idx = some (x, g)) (hlocked : x.locked = false)
    (hfrozen : (s.m.core col core).bankFrozen = false) (hin : ∀ y ∈ x.cmds, y.outside = false) (hheld : cardHeld s.m col core idx x = false)
    (hfirst : ∀ y ∈ (s.m.core col core).cards.take idx, y.shares x = false ∧ ∀ z ∈ y.cmds, z.outside = false)
    (hunits : ∀ y ∈ x.cmds, 4 ≤ (s.m.core col y.tower).bankCu) :
    exec (.cardLock col core idx) s = .next { s with m := s.m.setCard col core idx { x with locked := true } } := by
  have hinside : x.cmds.find? CardCmd.outside = none := List.find?_eq_none.2 fun y hy => Bool.not_eq_true _ ▸ hin y hy
  have hclear : ((s.m.core col core).cards.take idx).any (fun y => y.shares x || y.cmds.any CardCmd.outside) = false := by
    refine List.any_eq_false.2 fun y hy => ?_
    obtain ⟨hshares, hcmds⟩ := hfirst y hy
    have hnone : y.cmds.any CardCmd.outside = false := List.any_eq_false.2 fun z hz => Bool.not_eq_true _ ▸ hcmds z hz
    simp only [hshares, hnone, Bool.or_self, Bool.false_eq_true, not_false_eq_true]
  have hcu : x.cmds.all (fun y => decide (4 ≤ (s.m.core col y.tower).bankCu)) = true := List.all_eq_true.2 fun y hy => decide_eq_true (hunits y hy)
  simp only [exec_cardLock, execCardLock, onMach, hx, hfrozen, hinside, hlocked, hheld, hclear, hcu, Bool.not_false, Bool.and_self, Bool.false_eq_true, if_false,
    if_true]

/-- A card that a core has stands in its queue. -/
theorem card?_mem {m : Mach} {col core idx : Nat} {x : Card} {g : Group} (h : m.card? col core idx = some (x, g)) : x ∈ (m.core col core).cards := by
  unfold Mach.card? at h
  split at h
  · cases h
  · next y hy =>
    obtain ⟨_, -, hxy⟩ := Option.map_eq_some_iff.1 h
    obtain ⟨rfl, -⟩ := Prod.mk.inj hxy
    exact List.mem_of_getElem? hy

theorem card_freezes (s : State) (col core : Nat) (x : Card) (g : Group) (y : CardCmd) (hx : s.m.card? col core 0 = some (x, g))
    (hfrozen : (s.m.core col core).bankFrozen = false) (hy : x.cmds.find? CardCmd.outside = some y)
    (hopen : ∀ z ∈ (s.m.core col core).cards, z.locked = false) :
    exec (.cardLock col core 0) s = .next { s with m := s.m.freezeBank g col core 2 (y.tower * 2 ^ 32 + y.loff) } := by
  have hnone : (s.m.core col core).cards.any (·.locked) = false := List.any_eq_false.2 fun z hz => Bool.not_eq_true _ ▸ hopen z hz
  simp only [exec_cardLock, execCardLock, onMach, hx, hfrozen, hy, freezeCard, hopen x (card?_mem hx), hnone, bne_self_eq_false, Bool.or_self,
    Bool.false_eq_true, if_false]

/-- A card event is a step of its card at a command of its kind. -/
theorem exec_cardEvent {i : Instr} {cmd col core idx : Nat} {f : Nat → Group → CardCmd → Mach → Mach} (h : CardEvent i cmd col core idx f) (s : State) :
    exec i s = cardStep cmd f col core idx s := by
  obtain ⟨rfl, rfl, rfl⟩ | ⟨rfl, rfl, rfl⟩ | ⟨rfl, rfl, rfl⟩ | ⟨rfl, rfl, rfl⟩ := h
  · rfl
  · rfl
  · rfl
  · rfl

theorem card_goes_on (i : Instr) (cmd : Nat) (f : Nat → Group → CardCmd → Mach → Mach) (s : State) (col core idx : Nat) (x : Card) (g : Group) (y : CardCmd)
    (hi : CardEvent i cmd col core idx f) (hx : s.m.card? col core idx = some (x, g)) (hlocked : x.locked = true) (hy : x.cmds[x.pc]? = some y)
    (hcmd : y.cmd = cmd) (hwin : cardWindow s.m col core idx g y = none) (hlost : y.lost s.m col = false) :
    exec i s = .next { s with m := (f col g y s.m).setCard col core idx (x.after y) } := by
  simp only [exec_cardEvent hi, cardStep, onMach, hx, hlocked, hy, hcmd, hwin, hlost, Card.after, bne_self_eq_false, Bool.not_true, Bool.or_self,
    Bool.false_eq_true, if_false]

theorem card_ends (s : State) (col core idx : Nat) (x : Card) (g : Group) (hx : s.m.card? col core idx = some (x, g)) (hlocked : x.locked = true)
    (hpc : x.cmds.length ≤ x.pc) (hheld : objHeld s.m col core idx g x = false) :
    exec (.cardEnd col core idx) s = .next { s with m := (dropCard col core idx s.m).countBytes g.gid x.obj x.bytes false } := by
  have hexec : exec (.cardEnd col core idx) s = execCardEnd col core idx s := rfl
  simp only [hexec, execCardEnd, onMach, hx, hlocked, decide_eq_true hpc, hheld, Bool.not_false, Bool.and_self, if_true]

/-- Settles O40, one end of an event at a time. -/
theorem tileFillsAndCardsComplete : Obligations.TileFillsAndCardsComplete :=
  ⟨tileFill_completes, tileFill_faults, fun _ _ _ _ _ _ _ => rfl, card_locks, card_freezes, card_goes_on, card_ends⟩

end Sys2Proof.Machine
end

section
/-! PROOFS. The elements and sums of a matrix slot (02 R53 to R59, 08 R198, R203). A sum of a row or a column is the sum of the elements whose key falls in
it, so a change of one element moves one row's sum and one column's sum by the same difference. -/

namespace Sys2Proof.Machine

/-! ### Maps that are listed key by key -/

/-- The entry of a map that holds `h x` at `x`. -/
def entryOf (h : Nat → Word) (x : Nat) : Option (Nat × Word) := if h x = 0 then none else some (x, h x)

theorem get_entries (h : Nat → Word) (xs : List Nat) (k : Nat) : SMap.get 0 (xs.filterMap (entryOf h)) k = if k ∈ xs then h k else 0 := by
  induction xs with
  | nil => rfl
  | cons x xs ih =>
    by_cases hx : h x = 0
    · rw [List.filterMap_cons_none (by simp only [entryOf, hx, if_true]), ih]
      by_cases hk : k = x
      · simp only [hk, hx, ite_self]
      · simp only [List.mem_cons, hk, false_or]
    · rw [List.filterMap_cons_some (by simp only [entryOf, hx, if_false]; rfl), SMap.get]
      by_cases hk : x = k
      · simp only [hk, if_true, List.mem_cons_self]
      · simp only [if_neg hk, ih, List.mem_cons, Ne.symm hk, false_or]

theorem get_foldl_set (h : Nat → Word) (xs : List Nat) (t : SMap Word) (k : Nat) :
    SMap.get 0 (xs.foldl (fun t x => SMap.set 0 t x (h x)) t) k = if k ∈ xs then h k else SMap.get 0 t k := by
  induction xs generalizing t with
  | nil => rfl
  | cons x xs ih =>
    rw [List.foldl_cons, ih]
    by_cases hk : k = x
    · subst hk
      simp only [SMap.get_set_self, ite_self, List.mem_cons_self, if_true]
    · simp only [SMap.get_set_ne 0 t (h x) (Ne.symm hk), List.mem_cons, hk, false_or]

/-! ### Elements -/

/-- What an element holds after a write of the first rows and columns (R198). -/
def writtenElem (e : SMap Word) (rows cols : Nat) (f : Nat → Nat → Word) (x : Nat) : Word :=
  if x / 64 < rows ∧ x % 64 < cols then f (x / 64) (x % 64) else SMap.get 0 e x

theorem get_writeElems {e : SMap Word} {rows cols : Nat} {f : Nat → Nat → Word} {x : Nat} (hx : x < 4096) :
    SMap.get 0 (writeElems e rows cols f) x = writtenElem e rows cols f x := by
  have hlisted : writeElems e rows cols f = (List.range 4096).filterMap (entryOf (writtenElem e rows cols f)) := rfl
  rw [hlisted, get_entries, if_pos (List.mem_range.2 hx)]

/-- A write changes the elements of its rows and columns and no other (R198). -/
theorem Slot.write_at (x : Slot) (rows cols : Nat) (f : Nat → Nat → Word) (i n : Nat) (hi : i < 64) (hn : n < 64) :
    (x.write rows cols f).at_ i n = if i < rows ∧ n < cols then f i n else x.at_ i n := by
  have hrow : (64 * i + n) / 64 = i := by omega
  have hcol : (64 * i + n) % 64 = n := by omega
  simp only [Slot.at_, Slot.write, get_writeElems (show 64 * i + n < 4096 by omega), writtenElem, hrow, hcol]

/-! ### Sums -/

/-- The sum of the elements whose key `c` sends to `a`. -/
def keySum (c : Nat → Nat) : SMap Word → Nat → Word
  | [], _ => 0
  | x :: e, a => (if c x.1 = a then x.2 else 0) + keySum c e a

/-- A map of sums, built entry by entry. -/
theorem get_foldl_sums (c : Nat → Nat) (e s : SMap Word) (a : Nat) :
    SMap.get 0 (e.foldl (fun s x => SMap.set 0 s (c x.1) (SMap.get 0 s (c x.1) + x.2)) s) a = SMap.get 0 s a + keySum c e a := by
  induction e generalizing s with
  | nil => exact (BitVec.add_zero _).symm
  | cons x e ih =>
    rw [List.foldl_cons, ih, keySum]
    by_cases ha : c x.1 = a
    · rw [ha, SMap.get_set_self, if_pos rfl, BitVec.add_assoc]
    · rw [SMap.get_set_ne _ _ _ ha, if_neg ha, zero_add]

theorem get_rowSums (e : SMap Word) (a : Nat) : SMap.get 0 (rowSums e) a = keySum (· / 64) e a :=
  (get_foldl_sums (· / 64) e [] a).trans (BitVec.zero_add _)

theorem get_colSums (e : SMap Word) (a : Nat) : SMap.get 0 (colSums e) a = keySum (· % 64) e a :=
  (get_foldl_sums (· % 64) e [] a).trans (BitVec.zero_add _)

/-- A key that is erased takes its element out of its sum. -/
theorem keySum_erase (c : Nat → Nat) {e : SMap Word} {lo : Nat} (he : SMap.wfFrom 0 lo e = true) (k a : Nat) :
    keySum c (SMap.erase e k) a = keySum c e a - (if c k = a then SMap.get 0 e k else 0) := by
  induction e generalizing lo with
  | nil => simp [SMap.erase, keySum, SMap.get]
  | cons x e ih =>
    simp only [SMap.wfFrom, Bool.and_eq_true] at he
    obtain ⟨-, htail⟩ := he
    by_cases hk : x.1 = k
    · have hnone : SMap.get 0 e k = 0 := SMap.get_low htail (by omega)
      rw [SMap.erase, if_pos hk, ih htail, hnone, ite_self, sub_zero, SMap.get, if_pos hk, keySum, hk]
      grind
    · rw [SMap.erase, if_neg hk, keySum, ih htail, SMap.get, if_neg hk, keySum]
      grind

/-- A key that is listed anew moves its sum by the difference. -/
theorem keySum_insert (c : Nat → Nat) {e : SMap Word} {lo : Nat} (he : SMap.wfFrom 0 lo e = true) (k a : Nat) (v : Word) :
    keySum c (SMap.insert e k v) a = keySum c e a + (if c k = a then v - SMap.get 0 e k else 0) := by
  induction e generalizing lo with
  | nil => simp [SMap.insert, keySum, SMap.get]
  | cons x e ih =>
    simp only [SMap.wfFrom, Bool.and_eq_true] at he
    obtain ⟨-, htail⟩ := he
    by_cases hk : k = x.1
    · rw [SMap.insert, if_pos hk, SMap.get, if_pos hk.symm, keySum, keySum, hk]
      grind
    · by_cases hlt : k < x.1
      · have hnone : SMap.get 0 e k = 0 := SMap.get_low htail (by omega)
        rw [SMap.insert, if_neg hk, if_pos hlt, SMap.get, if_neg (Ne.symm hk), hnone, keySum, keySum]
        grind
      · rw [SMap.insert, if_neg hk, if_neg hlt, keySum, ih htail, SMap.get, if_neg (Ne.symm hk), keySum]
        grind

/-- One element that moves by `d` moves the sum it is in by `d`. -/
theorem keySum_modify (c : Nat → Nat) {e : SMap Word} (he : SMap.wf 0 e = true) (k a : Nat) (d : Word) :
    keySum c (SMap.modify 0 e k (· + d)) a = keySum c e a + (if c k = a then d else 0) := by
  unfold SMap.modify SMap.set
  split
  · next h =>
    rw [keySum_erase c he]
    grind
  · rw [keySum_insert c he]
    grind

/-! ### Stored sums -/

/-- No place differs where the sums are the same. -/
theorem badSums_eq_nil {s t : SMap Word} : badSums s t = [] ↔ ∀ i < 64, SMap.get 0 s i = SMap.get 0 t i := by
  simp only [badSums, List.filter_eq_nil_iff, List.mem_range, bne_iff_ne, ne_eq, not_not]

/-- One place differs where the sums are the same but there. -/
theorem badSums_eq_single {s t : SMap Word} {i : Nat} (hi : i < 64) (h : ∀ a < 64, SMap.get 0 s a = SMap.get 0 t a ↔ a ≠ i) : badSums s t = [i] := by
  have hone : badSums s t = (List.range 64).filter (· == i) := by
    refine List.filter_congr fun a ha => ?_
    have := h a (List.mem_range.1 ha)
    grind
  rw [hone, List.filter_beq, List.count_eq_one_of_mem List.nodup_range (List.mem_range.2 hi)]
  rfl

theorem get_moveSums {s old new : SMap Word} {i : Nat} (hi : i < 64) :
    SMap.get 0 (moveSums s old new) i = SMap.get 0 s i + SMap.get 0 new i - SMap.get 0 old i :=
  (get_foldl_set (fun i => SMap.get 0 s i + SMap.get 0 new i - SMap.get 0 old i) (List.range 64) [] i).trans (if_pos (List.mem_range.2 hi))

/-- Sums that were right and move by the difference are right (R203). -/
theorem badSums_moveSums {s old new : SMap Word} (h : badSums s old = []) : badSums (moveSums s old new) new = [] := by
  refine badSums_eq_nil.2 fun i hi => ?_
  rw [get_moveSums hi, badSums_eq_nil.1 h i hi, BitVec.add_comm, BitVec.add_sub_cancel]

theorem Slot.write_consistent (x : Slot) (rows cols : Nat) (f : Nat → Nat → Word) (h : x.consistent) : (x.write rows cols f).consistent := by
  obtain ⟨hrow, hcol⟩ := h
  unfold Slot.write
  generalize writeElems x.e rows cols f = e
  exact ⟨badSums_moveSums hrow, badSums_moveSums hcol⟩

theorem Slot.load_consistent (x : Slot) (rows cols : Nat) (f : Nat → Nat → Word) : (x.load rows cols f).consistent := by
  unfold Slot.load
  generalize writeElems x.e rows cols f = e
  exact ⟨badSums_eq_nil.2 fun _ _ => rfl, badSums_eq_nil.2 fun _ _ => rfl⟩

theorem Slot.check_of_consistent (x : Slot) (h : x.consistent) : x.check = some x := by
  obtain ⟨hrow, hcol⟩ := h
  simp only [Slot.check, hrow, hcol]

/-- Sums that were right for elements of which one has moved by `d`: they differ at that element's place, by `d` (R203). -/
theorem badSums_modify {s : SMap Word} {c : Nat → Nat} {sums : SMap Word → SMap Word} (hsums : ∀ e a, SMap.get 0 (sums e) a = keySum c e a)
    {e : SMap Word} (he : SMap.wf 0 e = true) {k : Nat} (hk : c k < 64) {d : Word} (hd : d ≠ 0) (h : badSums s (sums e) = []) :
    badSums s (sums (SMap.modify 0 e k (· + d))) = [c k]
      ∧ SMap.get 0 s (c k) - SMap.get 0 (sums (SMap.modify 0 e k (· + d))) (c k) = -d := by
  have hmoved (a : Nat) (ha : a < 64) : SMap.get 0 (sums (SMap.modify 0 e k (· + d))) a = SMap.get 0 s a + (if c k = a then d else 0) := by
    rw [badSums_eq_nil.1 h a ha, hsums, hsums, keySum_modify c he]
  refine ⟨badSums_eq_single hk fun a ha => ?_, ?_⟩
  · rw [hmoved a ha]
    grind
  · rw [hmoved _ hk, if_pos rfl]
    grind

/-- A slot in which a single element is corrupt is corrected (R203). -/
theorem Slot.check_corrects (x : Slot) (i n : Nat) (d : Word) (hi : i < 64) (hn : n < 64) (hd : d ≠ 0) (he : SMap.wf 0 x.e = true) (h : x.consistent) :
    ∃ y, ({ x with e := SMap.modify 0 x.e (64 * i + n) (· + d) } : Slot).check = some y ∧ ∀ a < 64, ∀ b < 64, y.at_ a b = x.at_ a b := by
  obtain ⟨hrow, hcol⟩ := h
  have hi' : (64 * i + n) / 64 = i := by omega
  have hn' : (64 * i + n) % 64 = n := by omega
  obtain ⟨hbadRow, hrowBy⟩ := badSums_modify get_rowSums he (k := 64 * i + n) (by omega) hd hrow
  obtain ⟨hbadCol, hcolBy⟩ := badSums_modify get_colSums he (k := 64 * i + n) (by omega) hd hcol
  rw [hi'] at hbadRow hrowBy
  rw [hn'] at hbadCol hcolBy
  refine ⟨{ x with e := SMap.modify 0 (SMap.modify 0 x.e (64 * i + n) (· + d)) (64 * i + n) (· + -d) }, ?_, fun a _ b hb => ?_⟩
  · simp only [Slot.check, hbadRow, hbadCol, hrowBy, hcolBy, if_true]
  · simp only [Slot.at_]
    by_cases hab : 64 * a + b = 64 * i + n
    · rw [hab, SMap.get_modify_self, SMap.get_modify_self]
      grind
    · simp only [SMap.modify, SMap.get_set_ne _ _ _ (Ne.symm hab)]

end Sys2Proof.Machine
end

section
/-! PROOFS. MATRIX_WORD_COMPLETION (08 R196 to R203): what the word at the head of an engine does once its work is done. -/

namespace Sys2Proof.Machine

/-- Nothing holds back a word that is due. -/
theorem MatrixDue.not_held {s : State} {col core : Nat} {w : MWord} {g : Group} (h : MatrixDue s col core w g) :
    (g.frozen || (w.op != 2 && !w.started) || decide (w.prog < w.need) || pendHeld w.pend s.m.etime || MWord.objLocked s.m w) = false := by
  have hstarted : (w.op != 2 && !w.started) = false := by
    rcases h.started with hop | hst
    · rw [hop]
      rfl
    · rw [hst, Bool.not_true, Bool.and_false]
  rw [h.live, hstarted, decide_eq_false (Nat.not_lt.2 h.work), h.held, h.obj]
  rfl

/-- A word that checks no slot takes its effect. -/
theorem matrixWord_unchecked {s : State} {col core : Nat} {w : MWord} {g : Group} (h : MatrixDue s col core w g) (hc : w.checked = none) :
    exec (.matrixWordCompletion col core) s = .next { s with m := performMWord s.cfg col core g w s.m } := by
  have hexec : exec (.matrixWordCompletion col core) s = execMatrixWordCompletion col core s := rfl
  simp only [hexec, execMatrixWordCompletion, onMach, h.head, h.group, h.not_held, hc, Bool.false_eq_true, if_false]

/-- A slot that passes its check stands as the check leaves it when its word takes effect (R203). -/
theorem matrixWord_checked (s : State) (col core : Nat) (w : MWord) (g : Group) (i : Nat) (x : Slot) (h : MatrixDue s col core w g) (hc : w.checked = some i)
    (hx : (g.mslot i).check = some x) :
    exec (.matrixWordCompletion col core) s = .next { s with m := performMWord s.cfg col core (g.checkedSlot i x) w (s.m.setSlot g.gid i x) } := by
  have hexec : exec (.matrixWordCompletion col core) s = execMatrixWordCompletion col core s := rfl
  simp only [hexec, execMatrixWordCompletion, onMach, h.head, h.group, h.not_held, hc, hx, Bool.false_eq_true, if_false, Group.checkedSlot]

/-- A slot that cannot be corrected loses the word (R203). -/
theorem matrixWord_lost (s : State) (col core : Nat) (w : MWord) (g : Group) (i : Nat) (h : MatrixDue s col core w g) (hc : w.checked = some i)
    (hx : (g.mslot i).check = none) :
    exec (.matrixWordCompletion col core) s
      = .next { s with m := ((endMWord col core s.m).countLoss col .dataloss).queueStop g.env.vf g.env.fdroot Cause.dataloss.code } := by
  have hexec : exec (.matrixWordCompletion col core) s = execMatrixWordCompletion col core s := rfl
  simp only [hexec, execMatrixWordCompletion, onMach, h.head, h.group, h.not_held, hc, hx, Bool.false_eq_true, if_false, stopMWord]

/-! ### Effects -/

/-- `mma` of window operands (R198). -/
theorem performMWord_mma {cfg : Cfg} {col core : Nat} {g : Group} {w : MWord} {m : Mach} (hop : w.op = 0) (hsurf : w.surfBlocks m g = none)
    (hstop : operStop m g w = none) : performMWord cfg col core g w m = endMWord col core (slotWritten m g w (mmaOf m g w)) := by
  have hfetch : fetchBlocks m g w = (m, w, true) := by simp only [fetchBlocks, hsurf]
  have hhave : fetchLost m g w = false := by simp only [fetchLost, hsurf]
  unfold performMWord
  simp only [hop, hfetch, hhave, hstop, Bool.false_eq_true, if_false, if_true]
  rfl

/-- `msca` (R198). -/
theorem performMWord_msca {cfg : Cfg} {col core : Nat} {g : Group} {w : MWord} {m : Mach} (hop : w.op = 1) (hstop : operStop m g w = none) :
    performMWord cfg col core g w m = endMWord col core (slotWritten m g w (mscaOf m g w)) := by
  unfold performMWord
  simp only [hop, hstop]
  rfl

/-- `mzero` (R199). -/
theorem performMWord_mzero {cfg : Cfg} {col core : Nat} {g : Group} {w : MWord} {m : Mach} (hop : w.op = 2) :
    performMWord cfg col core g w m = endMWord col core (m.setSlot g.gid w.slot { g.mslot w.slot with e := [], row := [], col := [] }) := by
  unfold performMWord
  simp only [hop]

/-- `mload` (R200). -/
theorem performMWord_mload {cfg : Cfg} {col core : Nat} {g : Group} {w : MWord} {m m' : Mach} {bs : List Byte} (hop : w.op = 3)
    (hbs : engBytes cfg g (trPlaces m col core w.blk) m = (m', .ok bs)) :
    performMWord cfg col core g w m = endMWord col core (m'.setSlot g.gid (blkDst w.blk)
      ((g.mslot (blkDst w.blk)).load (blkM w.blk) (blkN w.blk) (trElem w.blk bs))) := by
  unfold performMWord
  simp only [hop, hbs]

/-- `mdrain` to registers (R200). -/
theorem performMWord_mdrain_lanes {cfg : Cfg} {col core : Nat} {g : Group} {w : MWord} {m : Mach} {d : Nat} (hop : w.op = 4) (hd : w.dreg = some d) :
    performMWord cfg col core g w m = endMWord col core (drainedLanes m g w d) := by
  unfold performMWord
  simp only [hop, hd]
  rfl

/-- `mdrain` to memory (R200). -/
theorem performMWord_mdrain_memory {cfg : Cfg} {col core : Nat} {g : Group} {w : MWord} {m m' : Mach} {n : Nat} (hop : w.op = 4) (hd : w.dreg = none)
    (hdrain : drainTo cfg col core g w (blkM w.blk * blkN w.blk * efBytes (trEf w.blk)) m = (m', n, none)) :
    performMWord cfg col core g w m = endDrain col core g w m' := by
  unfold performMWord
  simp only [hop, hd, hdrain]

/-- `mzero` and `mload` check no slot (R203). -/
theorem checked_eq_none {w : MWord} (h : w.op = 2 ∨ w.op = 3) : w.checked = none := by
  unfold MWord.checked
  exact if_pos (h.imp_right Or.inl)

/-- A word that checks no slot and whose effect is `e` completes with it. -/
theorem matrixWord_performs {s : State} {col core : Nat} {w : MWord} {g : Group} {e : Mach} (h : MatrixDue s col core w g) (hc : w.checked = none)
    (he : performMWord s.cfg col core g w s.m = e) : exec (.matrixWordCompletion col core) s = .next { s with m := e } :=
  he ▸ matrixWord_unchecked h hc

/-- Settles O41: the completion of each word, then the elements of a slot and its sums. -/
theorem matrixWordsComplete : Obligations.MatrixWordsComplete :=
  ⟨fun _ _ _ _ _ h hc hop hsurf hstop => matrixWord_performs h hc (performMWord_mma hop hsurf hstop),
    fun _ _ _ _ _ h hc hop hstop => matrixWord_performs h hc (performMWord_msca hop hstop),
    matrixWord_checked, matrixWord_lost,
    fun _ _ _ _ _ h hop => ⟨_, matrixWord_performs h (checked_eq_none (.inl hop)) (performMWord_mzero hop), rfl⟩,
    fun _ _ _ _ _ _ _ h hop hbs => ⟨_, matrixWord_performs h (checked_eq_none (.inr hop)) (performMWord_mload hop hbs), rfl⟩,
    fun _ _ _ _ _ _ h hc hop hd => matrixWord_performs h hc (performMWord_mdrain_lanes hop hd),
    fun _ _ _ _ _ _ _ h hc hop hd hdrain => matrixWord_performs h hc (performMWord_mdrain_memory hop hd hdrain),
    Slot.write_at, Slot.write_consistent, Slot.load_consistent, Slot.check_of_consistent,
    fun x i n d hi hn hd he _ h => Slot.check_corrects x i n d hi hn hd he h⟩

end Sys2Proof.Machine
end

section
/-! PROOFS. The execution model (10): gang formation at the first row of the PC table or at the starved quad (R224 to R226). -/

namespace Sys2Proof.Machine

/-! ### The order of the PC table -/

theorem placeLt_iff (a b : Nat × Nat × Nat) :
    placeLt a b = true ↔ a.1 < b.1 ∨ a.1 = b.1 ∧ (a.2.1 < b.2.1 ∨ a.2.1 = b.2.1 ∧ a.2.2 < b.2.2) := by
  simp [placeLt]

theorem Row.before_iff (a b : Row) : a.before b = true ↔ placeLt a.key b.key = true ∨ a.key = b.key ∧ a.win < b.win := by
  simp [Row.before]

theorem Row.before_irrefl (a : Row) : a.before a = false := by
  rw [Bool.eq_false_iff, Ne, Row.before_iff, placeLt_iff]
  omega

theorem Row.before_trans {a b c : Row} (hab : a.before b = true) (hbc : b.before c = true) : a.before c = true := by
  simp only [Row.before_iff, placeLt_iff, Prod.ext_iff] at *
  omega

/-- A list that is not empty has a row that none comes before, in an order. -/
theorem exists_first {lt : Row → Row → Bool} (hirr : ∀ a, lt a a = false) (htrans : ∀ {a b c}, lt a b = true → lt b c = true → lt a c = true)
    {rs : List Row} (h : rs ≠ []) : ∃ r ∈ rs, ∀ x ∈ rs, lt x r = false := by
  induction rs with
  | nil => exact absurd rfl h
  | cons a rs ih =>
    rcases eq_or_ne rs [] with rfl | hrs
    · exact ⟨a, by simp, by simpa using hirr a⟩
    · obtain ⟨r, hr, hfirst⟩ := ih hrs
      rcases har : lt a r with _ | _
      · exact ⟨r, List.mem_cons_of_mem _ hr, List.forall_mem_cons.2 ⟨har, hfirst⟩⟩
      · refine ⟨a, List.mem_cons_self, List.forall_mem_cons.2 ⟨hirr a, fun x hx => Bool.eq_false_iff.2 fun hxa => ?_⟩⟩
        exact Bool.eq_false_iff.1 (hfirst x hx) (htrans hxa har)

theorem mem_firstRows {lt : Row → Row → Bool} {rs : List Row} {r : Row} : r ∈ firstRows lt rs ↔ r ∈ rs ∧ ∀ x ∈ rs, lt x r = false := by
  simp [firstRows]

theorem firstRows_ne_nil {lt : Row → Row → Bool} (hirr : ∀ a, lt a a = false) (htrans : ∀ {a b c}, lt a b = true → lt b c = true → lt a c = true)
    {rs : List Row} (h : rs ≠ []) : firstRows lt rs ≠ [] := by
  obtain ⟨r, hr⟩ := exists_first hirr htrans h
  exact List.ne_nil_of_mem (mem_firstRows.2 hr)

/-! ### The rows at which a gang may form -/

/-- The rows of a PC table whose quad has gone 64 issue rounds without issuing (R224). -/
def starvedRows (rounds : Nat) (rs : List Row) : List Row := rs.filter fun r => decide (64 ≤ rounds - r.last)

/-- The rows at which the regrouper may form a gang (R224). -/
def headRows (rounds : Nat) (rs : List Row) : List Row :=
  if (starvedRows rounds rs).isEmpty then firstRows Row.before rs else firstRows (fun a b => decide (a.last < b.last)) (starvedRows rounds rs)

theorem headRows_ne_nil (rounds : Nat) {rs : List Row} (h : rs ≠ []) : headRows rounds rs ≠ [] := by
  unfold headRows
  split
  · exact firstRows_ne_nil Row.before_irrefl Row.before_trans h
  · next hs =>
    refine firstRows_ne_nil (by simp) (fun {a b c} hab hbc => ?_) fun e => hs (by simp [e])
    exact decide_eq_true (lt_trans (of_decide_eq_true hab) (of_decide_eq_true hbc))

/-- A head row stands in the table, before no other where no quad is starved; where one is, it is the one that has waited longest (R224). -/
theorem headRows_spec {rounds : Nat} {rs : List Row} {r : Row} (h : r ∈ headRows rounds rs) :
    r ∈ rs ∧ (starvedRows rounds rs = [] → ∀ x ∈ rs, x.before r = false)
      ∧ ∀ x ∈ starvedRows rounds rs, r ∈ starvedRows rounds rs ∧ r.last ≤ x.last := by
  unfold headRows at h
  split at h
  · next hs =>
    obtain ⟨hr, hfirst⟩ := mem_firstRows.1 h
    exact ⟨hr, fun _ => hfirst, by simp [List.isEmpty_iff.1 hs]⟩
  · next hs =>
    obtain ⟨hr, hfirst⟩ := mem_firstRows.1 h
    exact ⟨List.mem_of_mem_filter hr, fun e => absurd (by simp [e]) hs, fun x hx => ⟨hr, by simpa using hfirst x hx⟩⟩

/-! ### Forming the gang -/

theorem gangFormation_eq {m : Mach} {col core half : Nat} (h : slotsUsed m col core half < 16) :
    gangFormation col core half m =
      let rs := pcTable m col core half
      let heads := headRows ((m.core col core).rounds half) rs
      if heads.isEmpty then m
      else match heads[(m.pick heads.length).1]? with
        | some r => formGang (m.pick heads.length).2 half rs r
        | none => m := by
  unfold gangFormation
  rw [if_neg (Nat.not_le.2 h)]
  rfl

/-- With a free slot and a row in the table, a gang forms at a head row (R224). -/
theorem gangFormation_forms {m : Mach} {col core half : Nat} (hslot : slotsUsed m col core half < 16) (hrows : pcTable m col core half ≠ []) :
    ∃ r ∈ headRows ((m.core col core).rounds half) (pcTable m col core half),
      gangFormation col core half m = formGang { m with free := m.free + 1 } half (pcTable m col core half) r := by
  have hne := headRows_ne_nil ((m.core col core).rounds half) hrows
  have hlt := Nat.mod_lt (Config.freePick m.free) (List.length_pos_of_ne_nil hne)
  refine ⟨_, List.getElem_mem hlt, ?_⟩
  simp only [gangFormation_eq hslot, List.isEmpty_iff, hne, if_false, Mach.pick, List.getElem?_eq_getElem hlt]

/-- A row of the PC table names a group of the core. -/
theorem pcTable_group {m : Mach} {col core half : Nat} {r : Row} (h : r ∈ pcTable m col core half) : ∃ g, m.group? r.gid = some g := by
  simp only [pcTable, List.mem_flatMap, List.mem_filter, List.mem_filterMap] at h
  obtain ⟨g, ⟨hg, -⟩, q, -, hq⟩ := h
  have hgid : r.gid = g.gid := by
    split at hq
    · obtain ⟨key, -, rfl⟩ := Option.map_eq_some_iff.1 hq
      rfl
    · cases hq
  exact Option.isSome_iff_exists.1 (List.find?_isSome.2 ⟨g, hg, by simp [hgid]⟩)

/-- What a trailer's AWAIT named is done with (R71). -/
def Thread.awaited (t : Thread) : Thread := { t with await := 0 }

/-- The threads of the new gang's group. -/
theorem addGang_thread? (m : Mach) (g : Group) (half win : Nat) (lanes : List Nat) (hnd : Bool) (pc slot i : Nat) {x : Thread}
    (h : m.thread? g.gid i = some x) :
    (m.addGang g half win lanes hnd pc slot).thread? g.gid i = some (if i ∈ lanes then x.awaited else x) := by
  obtain ⟨g', hg', hx⟩ := Option.bind_eq_some_iff.1 h
  have htid : x.tid = i := Group.thread?_tid hx
  have hgroup := Mach.group?_onGroup m g.gid g.gid
    (fun y => { y with threads := y.threads.map fun t => if lanes.contains t.tid then t.awaited else t }) fun _ => rfl
  rw [if_pos rfl, hg'] at hgroup
  have hthread := thread?_of g' { g' with threads := g'.threads.map fun t => if lanes.contains t.tid then t.awaited else t }
    (fun t => if lanes.contains t.tid then t.awaited else t) i (fun t => by split <;> rfl) rfl
  refine (congrArg (fun o => Option.bind o fun y : Group => y.thread? i) hgroup).trans (hthread.trans ?_)
  simp [hx, htid]

theorem addGang_group?_ne (m : Mach) (g : Group) (half win : Nat) (lanes : List Nat) (hnd : Bool) (pc slot : Nat) {i : Nat} (h : i ≠ g.gid) :
    (m.addGang g half win lanes hnd pc slot).group? i = m.group? i := by
  have hgroup := Mach.group?_onGroup m g.gid i
    (fun y => { y with threads := y.threads.map fun t => if lanes.contains t.tid then { t with await := 0 } else t }) fun _ => rfl
  rwa [if_neg h] at hgroup

/-- The gang of a row is added to the machine. -/
theorem formGang_adds {m : Mach} {half : Nat} {rs : List Row} {r : Row} {g : Group} (hg : m.group? r.gid = some g) :
    ∃ lanes, formGang m half rs r = m.addGang g half r.win lanes (r.key.1 == 0) r.key.2.1 r.key.2.2 :=
  ⟨_, by simp only [formGang, hg]; rfl⟩

/-- Settles O24: the gang forms at a head row of the PC table, and its lanes' AWAIT is done with. -/
theorem gangsFormInTableOrder : Obligations.GangsFormInTableOrder := by
  intro s col core half hslot hrows
  obtain ⟨r, hhead, hform⟩ := gangFormation_forms hslot hrows
  obtain ⟨hr, hfirst, hstarved⟩ := headRows_spec hhead
  obtain ⟨g, hg⟩ := pcTable_group hr
  obtain ⟨lanes, hadd⟩ := formGang_adds (m := { s.m with free := s.m.free + 1 }) (half := half) (rs := pcTable s.m col core half) hg
  have hgid : g.gid = r.gid := Mach.group?_gid hg
  refine ⟨{ s with m := gangFormation col core half s.m }, r, lanes, rfl, hr, fun hnone => hfirst ?_, fun x hx hs => ?_, ?_⟩
  · exact List.filter_eq_nil_iff.2 fun x hx => by simpa [Row.starved] using hnone x hx
  · obtain ⟨hmem, hlast⟩ := hstarved x (List.mem_filter.2 ⟨hx, hs⟩)
    exact ⟨(List.mem_filter.1 hmem).2, hlast⟩
  · rw [hform, hadd]
    refine ⟨by rw [← hgid]; rfl, fun i hi => ?_, fun i x hx => ?_, rfl, rfl, rfl, rfl⟩
    · exact addGang_group?_ne { s.m with free := s.m.free + 1 } g _ _ _ _ _ _ (hgid ▸ hi)
    · have h : ({ s.m with free := s.m.free + 1 } : Mach).thread? g.gid i = some x := hgid ▸ hx
      exact hgid ▸ addGang_thread? _ g half r.win lanes _ _ _ i h

end Sys2Proof.Machine
end

section
/-! PROOFS. The execution model (10): nodes launch groups, columns take them in or swap a group out for them (R216 to R222, R230, R239). -/

namespace Sys2Proof.Machine

/-! ### Launch -/

theorem groupLaunch_due {s : State} {vf leaf node : Nat} {b : Binding} {n : Node} {a : Nat} {m' : Mach} (h : LaunchDue s vf leaf node b n a m') :
    exec (.groupLaunch vf leaf node) s
      = .next { s with m := if n.coalesce ≤ a then launchGroup s.cfg vf leaf node b n a m' else m' } := by
  obtain ⟨htouch, hlaunch⟩ := h
  show execGroupLaunch vf leaf node s = _
  simp only [execGroupLaunch, onMach, htouch, whenReady, hlaunch]

theorem coalesceTimeout_due {s : State} {vf leaf node : Nat} {b : Binding} {n : Node} {a : Nat} {m' : Mach} (h : LaunchDue s vf leaf node b n a m') :
    exec (.coalesceTimeout vf leaf node) s
      = .next { s with m := if timedOut s.cfg vf leaf node b n m' then launchGroup s.cfg vf leaf node b n a m' else m' } := by
  obtain ⟨htouch, hlaunch⟩ := h
  show execCoalesceTimeout vf leaf node s = _
  simp only [execCoalesceTimeout, onMach, htouch, whenReady, hlaunch]

/-- The uniform registers of a launch (Table 01.2). -/
theorem get_foldl_set_zip (v0 v1 v2 v3 v4 v5 i : Nat) :
    SMap.get 0 (([v0, v1, v2, v3, v4, v5].zip (List.range 6)).foldl (fun s x => SMap.set 0 s x.2 (BitVec.ofNat 32 x.1)) []) i
      = BitVec.ofNat 32 ([v0, v1, v2, v3, v4, v5].getD i 0) := by
  have hlist : [v0, v1, v2, v3, v4, v5].zip (List.range 6) = [(v0, 0), (v1, 1), (v2, 2), (v3, 3), (v4, 4), (v5, 5)] := rfl
  have hset (m : SMap Word) (k : Nat) (v : Word) : SMap.get 0 (SMap.set 0 m k v) i = if k = i then v else SMap.get 0 m i := by
    split
    · next h => rw [h, SMap.get_set_self]
    · next h => exact SMap.get_set_ne _ _ _ h
  simp only [hlist, List.foldl_cons, List.foldl_nil, hset]
  match i with
  | 0 | 1 | 2 | 3 | 4 | 5 => rfl
  | i + 6 => simp [SMap.get]

theorem newThread_launched (tid entry : Nat) (exited : Bool) : (newThread tid entry exited).launched entry :=
  ⟨rfl, rfl, rfl, rfl, rfl, rfl, rfl, rfl, rfl⟩

/-- The uniform registers of a new group (Table 01.2). -/
theorem newGroup_uniform (cfg : Cfg) (vf leaf table node cols gidx : Nat) (n : Node) (r : Nat) (m : Mach) (i : Nat) :
    SMap.get 0 (newGroup cfg vf leaf table node cols gidx n r m).s i
      = BitVec.ofNat 32 ([n.recOff, r, n.const % 2 ^ 32, n.const / 2 ^ 32, gidx
          , (newGroup cfg vf leaf table node cols gidx n r m).env.rid.toNat].getD i 0) :=
  get_foldl_set_zip _ _ _ _ _ _ i

theorem newGroup_thread {cfg : Cfg} {vf leaf table node cols gidx : Nat} {n : Node} {r : Nat} {m : Mach} {i : Nat} {x : Thread}
    (h : (newGroup cfg vf leaf table node cols gidx n r m).threads[i]? = some x) : x.tid = i ∧ x.launched n.entry := by
  simp only [newGroup, List.getElem?_map, Option.map_eq_some_iff] at h
  obtain ⟨t, ht, rfl⟩ := h
  obtain ⟨-, rfl⟩ := List.getElem?_eq_some_iff.1 ht
  exact ⟨by simp [newThread], newThread_launched _ _ _⟩

/-! ### Choosing whom to swap out -/

theorem firstBy_mem {lt : Group → Group → Bool} {gs : List Group} {v : Group} (h : firstBy lt gs = some v) : v ∈ gs := by
  induction gs generalizing v with
  | nil => cases h
  | cons g gs ih =>
    simp only [firstBy] at h
    split at h
    · next x hx =>
      split at h
      · cases h
        exact List.mem_cons_of_mem _ (ih hx)
      · cases h
        exact List.mem_cons_self
    · cases h
      exact List.mem_cons_self

/-- A victim is swappable; of the launch's priority it is only where it waits, else of a lower one (R217, R239). -/
theorem victimFor_spec {m : Mach} {col p : Nat} {v : Group} (h : victimFor m col p = some v) :
    v ∈ swappable m col ∧ (v.env.prio ≤ p ∧ groupWaits m v = true ∨ v.env.prio < p) := by
  rcases (Option.orElse_eq_some _ _ v).1 h with hw | ⟨-, hl⟩
  · obtain ⟨hv, hp⟩ := List.mem_filter.1 (firstBy_mem hw)
    exact ⟨hv, Or.inl (by simpa using hp)⟩
  · obtain ⟨hv, hp⟩ := List.mem_filter.1 (firstBy_mem hl)
    exact ⟨hv, Or.inr (by simpa using hp)⟩

theorem mem_swappable {m : Mach} {col : Nat} {v : Group} : v ∈ swappable m col ↔ v ∈ m.groups ∧ v.stage = .resident ∧ v.frozen = false ∧ v.column = col := by
  simp [swappable, and_assoc]

/-! ### Admission -/

theorem groupAdmission_admits {s : State} {col core : Nat} {g : Group} (h : PendingDue s col g) (hc : admitCore s.cfg s.m g col = some core) :
    exec (.groupAdmission col) s = .next { s with m := admitGroup s.cfg s.m g col core } := by
  obtain ⟨hnext, htouch⟩ := h
  show execGroupAdmission col s = _
  simp only [execGroupAdmission, onMach, hnext, htouch, whenReady, hc]

theorem groupAdmission_swaps {s : State} {col : Nat} {g v : Group} (h : PendingDue s col g) (hc : admitCore s.cfg s.m g col = none)
    (hs : swapping s.m col = false) (hv : victimFor s.m col g.env.prio = some v) :
    exec (.groupAdmission col) s = .next { s with m := s.m.preempt v.gid g.env.prio } := by
  obtain ⟨hnext, htouch⟩ := h
  show execGroupAdmission col s = _
  simp only [execGroupAdmission, onMach, hnext, htouch, whenReady, hc, hs, hv, Bool.false_eq_true, if_false]

theorem preemptionOnQuantum_swaps {s : State} {col : Nat} {g v : Group} (h : PendingDue s col g) (hc : admitCore s.cfg s.m g col = none)
    (hs : swapping s.m col = false) (hw : waitingVictim s.m col g.env.prio = none)
    (hv : firstBy (fun a b => decide (a.since < b.since))
      ((swappable s.m col).filter fun x => decide (x.env.prio ≤ g.env.prio) && decide (x.since + x.env.quantum * 1000000 ≤ s.m.etime)) = some v) :
    exec (.preemptionOnQuantum col) s = .next { s with m := s.m.preempt v.gid g.env.prio } := by
  obtain ⟨hnext, htouch⟩ := h
  show execPreemptionOnQuantum col s = _
  simp only [execPreemptionOnQuantum, onMach, hnext, htouch, whenReady, hc, hs, hw, hv, Option.isSome_none, Bool.or_self, Bool.false_eq_true, if_false]

/-- Settles O42: launches, the launch values of a new group, admission, and the choice of a victim. -/
theorem groupsLaunchAndAreAdmitted : Obligations.GroupsLaunchAndAreAdmitted := by
  refine ⟨fun s vf leaf node b n a m' h ha => ?_, fun s vf leaf node b n a m' h ht => ?_, fun s vf leaf node b n a m' h ha => ?_,
    fun cfg vf leaf node b n a m => ?_, fun s col g core h hc => groupAdmission_admits h hc,
    fun s col g v h hc hs hv => groupAdmission_swaps h hc hs hv, fun s col g v h hc hs hw hv => preemptionOnQuantum_swaps h hc hs hw hv,
    fun m col p v h => ?_⟩
  · rw [groupLaunch_due h, if_pos ha]
  · rw [coalesceTimeout_due h, if_pos ht]
  · rw [groupLaunch_due h, if_neg (Nat.not_le.2 ha)]
  · refine ⟨rfl, ⟨_, rfl⟩, rfl, by simp [newGroup], rfl, rfl, fun i x hx => newGroup_thread hx, newGroup_uniform .., newGroup_uniform .., rfl, ?_,
      newGroup_uniform .., newGroup_uniform .., ?_, fun i hi => ?_⟩
    · rw [newGroup_uniform]
      exact BitVec.eq_of_toNat_eq (by simp)
    · rw [newGroup_uniform]
      exact BitVec.eq_of_toNat_eq (by simp)
    · rw [newGroup_uniform, List.getD_eq_default _ _ hi]
      rfl
  · obtain ⟨hv, hprio⟩ := victimFor_spec h
    obtain ⟨hmem, hstage, hlive, hcol⟩ := mem_swappable.1 hv
    refine ⟨hmem, hstage, hlive, hcol, ?_, fun he => ?_⟩
    · rcases hprio with ⟨hle, -⟩ | hlt
      · exact hle
      · exact hlt.le
    · rcases hprio with ⟨-, hw⟩ | hlt
      · exact hw
      · exact absurd he hlt.ne

end Sys2Proof.Machine
end

section
/-! PROOFS. The execution model (10): fatal traps mark their fault domain (R29, R243), and the stop of a domain or of a partition (R243, R338). Before it: what
a page walk and a write at a virtual address may change. -/

namespace Sys2Proof.Machine

/-! ### Walks and writes at virtual addresses -/

theorem markEntry_stops (m : Mach) (pa e : Nat) (d : Bool) : (markEntry m pa e d).stops = m.stops := by
  simp only [markEntry]
  generalize (if d then putBits (putBits e 4 1 1) 5 1 1 else putBits e 4 1 1) = e'
  split
  · rfl
  · rw [store_keeps]

theorem walk2From_stops (write : Bool) (ipa : Nat) (ls : List Nat) (m : Mach) (table : Nat) : (walk2From write ipa m table ls).1.stops = m.stops := by
  induction ls generalizing m table with
  | nil => rfl
  | cons level ls ih =>
    simp only [walk2From]
    split
    · rfl
    · split
      · rfl
      · rfl
      · rw [ih, markEntry_stops]
      · split
        · rfl
        · exact markEntry_stops ..

theorem walk2_stops (cfg : Cfg) (m : Mach) (vf ipa : Nat) (write : Bool) : (walk2 cfg m vf ipa write).1.stops = m.stops := by
  have h := walk2From_stops write ipa levels m (cfg.part vf).s2root
  unfold walk2
  split
  · rfl
  · split
    · next he =>
      rw [he] at h
      split <;> exact h
    · exact h

theorem walk1From_stops (cfg : Cfg) (vf va : Nat) (write fetch : Bool) (ls : List Nat) (m : Mach) (table : Nat) :
    (walk1From cfg vf va write fetch m table ls).1.stops = m.stops := by
  induction ls generalizing m table with
  | nil => rfl
  | cons level ls ih =>
    have h := walk2_stops cfg m vf (table + 8 * bitsOf va (levelShift level).1 (levelShift level).2) false
    simp only [walk1From]
    split
    · next he => rwa [he] at h
    · next he => rwa [he] at h
    · next he => rwa [he] at h
    · next m1 pa0 _ _ host0 he =>
      rw [he] at h
      refine Eq.trans ?_ h
      generalize (if host0 = true then hostBase + pa0 else pa0) = pa
      split
      · rfl
      · split
        · rfl
        · rfl
        · rw [ih, markEntry_stops]
        · split
          · rfl
          · have hmark := markEntry_stops m1 pa (m1.homeRead pa 8) write
            split
            · exact hmark
            · have hleaf := (walk2_stops cfg (markEntry m1 pa (m1.homeRead pa 8) write) vf
                (entAddr (m1.homeRead pa 8) + va % 2 ^ leafBits level) write).trans hmark
              split
              · next he2 => rwa [he2] at hleaf
              · next he2 => rwa [he2] at hleaf
              · next he2 => rwa [he2] at hleaf
              · next he2 =>
                rw [he2] at hleaf
                split <;> exact hleaf

theorem queueStop_marks_subset (m : Mach) (vf root c : Nat) : m.stops ⊆ (m.queueStop vf root c).stops := by
  unfold Mach.queueStop
  split
  · exact List.Subset.refl _
  · exact List.subset_append_left ..

/-- A walk that fails may mark a domain for its stop; it drops no mark. -/
theorem translateWalk_marks (cfg : Cfg) (m : Mach) (vf va : Nat) (write fetch : Bool) : m.stops ⊆ (translateWalk cfg m vf va write fetch).1.stops := by
  have h := walk1From_stops cfg vf va write fetch levels m 0
  unfold translateWalk
  split
  · next he =>
    rw [he] at h
    rw [h]
    exact List.Subset.refl _
  · next he =>
    rw [he] at h
    rw [← h]
    exact queueStop_marks_subset ..
  · rw [h]
    exact List.Subset.refl _

theorem translate_marks (cfg : Cfg) (m : Mach) (vf va : Nat) (write fetch : Bool) : m.stops ⊆ (translate cfg m vf va write fetch).1.stops := by
  have h := translateWalk_marks cfg m vf va write fetch
  unfold translate
  split
  · exact List.Subset.refl _
  · split
    · next he => rwa [he] at h
    · next he => rwa [he] at h

theorem writeVa_marks (cfg : Cfg) (vf va n v : Nat) (m : Mach) : m.stops ⊆ (writeVa cfg vf va n v m).stops := by
  have h := translate_marks cfg m vf va true false
  unfold writeVa devWrite
  split
  · next he =>
    rw [he] at h
    rwa [store_keeps]
  · next he => rwa [he] at h

/-- A walk step that drops no mark for a stop. -/
structure Mach.Walked (m n : Mach) : Prop where
  step : m.WalkStep n
  marks : m.stops ⊆ n.stops

namespace Mach.Walked

theorem refl (m : Mach) : m.Walked m := ⟨.refl m, List.Subset.refl _⟩

theorem trans {a b c : Mach} (h : a.Walked b) (h' : b.Walked c) : a.Walked c := ⟨h.step.trans h'.step, List.Subset.trans h.marks h'.marks⟩

theorem foldl {α : Type} {f : Mach → α → Mach} (h : ∀ (m : Mach) x, m.Walked (f m x)) (xs : List α) (m : Mach) : m.Walked (xs.foldl f m) :=
  foldl_keeps (fun n => m.Walked n) (refl m) fun n x hn => hn.trans (h n x)

theorem groups {m n : Mach} (h : m.Walked n) : n.groups = m.groups := by rw [h.step]

theorem vfs {m n : Mach} (h : m.Walked n) : n.vfs = m.vfs := by rw [h.step]

end Mach.Walked

theorem writeVaList_walked (cfg : Cfg) (vf va : Nat) (bs : List Byte) (m : Mach) : m.Walked (writeVaList cfg vf va bs m) := by
  induction bs generalizing va m with
  | nil => exact .refl m
  | cons b bs ih => exact Mach.Walked.trans ⟨.writeVa .., writeVa_marks ..⟩ (ih _ _)

theorem writeGroupImage_walked (cfg : Cfg) (src : Mach) (g : Group) (m : Mach) : m.Walked (writeGroupImage cfg src g m) :=
  .foldl (fun _ _ => writeVaList_walked ..) _ m

theorem writeDump_walked (cfg : Cfg) (src : Mach) (vf region kind cause : Nat) (gs : List Group) (m : Mach) :
    m.Walked (writeDump cfg src vf region kind cause gs m) :=
  ((Mach.Walked.foldl (fun _ _ => writeGroupImage_walked ..) _ m).trans (writeVaList_walked ..)).trans
    (.foldl (fun _ _ => writeVaList_walked ..) _ _)

/-! ### Fatal traps -/

theorem Cause.code_lt (c : Cause) : c.code < 256 := by
  cases c <;> decide

/-- A lane whose trap is fatal: its trap registers name the trap, and it holds (R29, log entry 47). -/
def Thread.holdFatal (t : Thread) (cause : Cause) (arg pc slot : Nat) : Thread :=
  { t.noteTrap cause arg pc slot with wait := .hold, c := { t.c with pc := pc, slot := slot, mid := true } }

/-- A fatal trap takes the lane out of its gang, holds it, and marks the fault domain for its stop (R29, R243). -/
theorem trapLane_fatal {m : Mach} {k : Gang} {tid slot arg : Nat} {cause : Cause} {g : Group} {x : Thread} (hg : m.group? k.gid = some g)
    (hx : g.thread? tid = some x) (h : cause.fatal = true ∨ g.env.hbase = 0 ∨ x.hnd = true) :
    m.trapLane k tid slot cause arg
      = (((m.onGang k.id fun y => y.without tid).onThread k.gid tid fun t => t.holdFatal cause arg k.pc slot).countLoss g.column cause).queueStop
          g.env.vf g.env.fdroot cause.code := by
  have hfatal : (cause.fatal || g.env.hbase == 0 || x.hnd) = true := by simpa [or_assoc] using h
  simp only [Mach.trapLane, hg, hx, hfatal, if_true]
  rfl

theorem countLoss_queueStop_thread? (m : Mach) (col : Nat) (cause : Cause) (vf root c gid tid : Nat) :
    ((m.countLoss col cause).queueStop vf root c).thread? gid tid = m.thread? gid tid := by
  rw [queueStop_keeps, countLoss_keeps]
  rfl

/-! ### What a stop leaves of the groups -/

/-- What a stop that halts the groups `S` makes of a group: one of `S` is stopped and not frozen; of any other only a freeze may have ended. -/
structure Group.Stays (S : List Nat) (x y : Group) : Prop where
  gid : y.gid = x.gid
  env : y.env = x.env
  halted : x.gid ∈ S → y.stage = .stopped ∧ y.frozen = false
  kept : x.gid ∉ S → y.stage = x.stage ∧ y.threads = x.threads ∧ y.hold = x.hold
  thawed : x.frozen = false → y.frozen = false

theorem Group.Stays.refl (x : Group) : Group.Stays [] x x := ⟨rfl, rfl, fun h => absurd h (by simp), fun _ => ⟨rfl, rfl, rfl⟩, id⟩

theorem Group.Stays.trans {S S' : List Nat} {x y z : Group} (h : Group.Stays S x y) (h' : Group.Stays S' y z) : Group.Stays (S ++ S') x z := by
  refine ⟨h'.gid.trans h.gid, h'.env.trans h.env, fun hx => ?_, fun hx => ?_, fun hf => h'.thawed (h.thawed hf)⟩
  · by_cases hS' : y.gid ∈ S'
    · exact h'.halted hS'
    · obtain ⟨hstage, -, -⟩ := h'.kept hS'
      obtain ⟨hstop, hlive⟩ := h.halted ((List.mem_append.1 hx).resolve_right (h.gid ▸ hS'))
      exact ⟨hstage.trans hstop, h'.thawed hlive⟩
  · obtain ⟨hS, hS'⟩ := not_or.1 (mt List.mem_append.2 hx)
    obtain ⟨h1, h2, h3⟩ := h.kept hS
    obtain ⟨h1', h2', h3'⟩ := h'.kept (h.gid ▸ hS')
    exact ⟨h1'.trans h1, h2'.trans h2, h3'.trans h3⟩

/-- A group is stopped, or stands where it stood. -/
theorem Group.Stays.stage {S : List Nat} {x y : Group} (h : Group.Stays S x y) : y.stage = .stopped ∨ y.stage = x.stage := by
  by_cases hx : x.gid ∈ S
  · exact Or.inl (h.halted hx).1
  · exact Or.inr (h.kept hx).1

/-- What a stop that halts the groups `S` makes of a machine: every group as `Group.Stays` says, no gang of a halted group, every mark for a stop. -/
structure Mach.Halts (m : Mach) (S : List Nat) (n : Mach) : Prop where
  groups : ∃ F : Group → Group, n.groups = m.groups.map F ∧ ∀ x, Group.Stays S x (F x)
  gangs : ∀ k ∈ n.gangs, k ∈ m.gangs ∧ k.gid ∉ S
  marks : m.stops ⊆ n.stops

namespace Mach.Halts

/-- A step that changes no group, no gang and drops no mark. -/
theorem of_same {m n : Mach} (hg : n.groups = m.groups) (hk : n.gangs = m.gangs) (hs : m.stops ⊆ n.stops) : m.Halts [] n :=
  ⟨⟨id, by simpa using hg, Group.Stays.refl⟩, fun k h => ⟨hk ▸ h, by simp⟩, hs⟩

theorem refl (m : Mach) : m.Halts [] m := of_same rfl rfl fun _ h => h

theorem trans {S S' : List Nat} {a b c : Mach} (h : a.Halts S b) (h' : b.Halts S' c) : a.Halts (S ++ S') c := by
  obtain ⟨⟨F, hF, hstays⟩, hgangs, hmarks⟩ := h
  obtain ⟨⟨F', hF', hstays'⟩, hgangs', hmarks'⟩ := h'
  refine ⟨⟨F' ∘ F, by rw [hF', hF, List.map_map], fun x => (hstays x).trans (hstays' (F x))⟩, fun k hk => ?_, fun x hx => hmarks' (hmarks hx)⟩
  obtain ⟨hk', hS'⟩ := hgangs' k hk
  obtain ⟨hk'', hS⟩ := hgangs k hk'
  exact ⟨hk'', by simp [hS, hS']⟩

/-- A step that halts no group follows. -/
theorem then_none {S : List Nat} {a b c : Mach} (h : a.Halts S b) (h' : b.Halts [] c) : a.Halts S c := by
  simpa using h.trans h'

theorem foldl_none {α : Type} {f : Mach → α → Mach} (h : ∀ (m : Mach) x, m.Halts [] (f m x)) (xs : List α) (m : Mach) : m.Halts [] (xs.foldl f m) := by
  induction xs generalizing m with
  | nil => exact refl m
  | cons x xs ih => exact (h m x).then_none (ih _)

theorem of_walked {m n : Mach} (h : m.Walked n) : m.Halts [] n := of_same h.groups h.step.gangs h.marks

/-- A group's handle finds what the stop has made of it. -/
theorem group? {S : List Nat} {m n : Mach} (h : m.Halts S n) {i : Nat} {g : Group} (hg : m.group? i = some g) :
    ∃ g', n.group? i = some g' ∧ Group.Stays S g g' := by
  obtain ⟨⟨F, hF, hstays⟩, -, -⟩ := h
  refine ⟨F g, ?_, hstays g⟩
  unfold Mach.group? at hg ⊢
  rw [hF, find_map _ _ F fun x => by rw [(hstays x).gid], hg]
  rfl

end Mach.Halts

/-! ### The steps of a stop -/

theorem raise_halts (m : Mach) (v b : Nat) : m.Halts [] (m.raise v b) := by
  rw [raise_keeps]
  exact .of_same rfl rfl fun _ h => h

theorem onVf_halts (m : Mach) (v : Nat) (f : Vf → Vf) : m.Halts [] (m.onVf v f) := .of_same rfl rfl fun _ h => h

theorem unfreeze_halts (m : Mach) (z : Frz) : m.Halts [] (m.unfreeze z) := by
  unfold Mach.unfreeze
  split
  · refine ⟨⟨_, rfl, fun x => ?_⟩, fun k hk => ⟨hk, by simp⟩, fun _ h => h⟩
    split
    · exact ⟨rfl, rfl, fun h => absurd h (by simp), fun _ => ⟨rfl, rfl, rfl⟩, fun _ => rfl⟩
    · exact .refl x
  · exact .of_same rfl rfl fun _ h => h
  · exact .of_same rfl rfl fun _ h => h

theorem frzRefill_halts (m : Mach) (vf n : Nat) : m.Halts [] (m.frzRefill vf n) := by
  induction n generalizing m with
  | zero => exact .refl m
  | succ n ih =>
    unfold Mach.frzRefill
    split
    · exact ((onVf_halts ..).then_none (raise_halts ..)).then_none (ih _)
    · exact .refl m

theorem endFreezes_halts (m : Mach) (vf : Nat) (test : Frz → Bool) : m.Halts [] (m.endFreezes vf test) :=
  ((Mach.Halts.foldl_none unfreeze_halts _ m).then_none (onVf_halts ..)).then_none (frzRefill_halts ..)

theorem haltGroup_halts (m : Mach) (g : Group) : m.Halts [g.gid] (m.haltGroup g) := by
  unfold Mach.haltGroup
  refine Mach.Halts.then_none ?_ (endFreezes_halts ..)
  refine ⟨⟨_, rfl, fun x => ?_⟩, fun k hk => ?_, fun _ h => h⟩
  · split
    · next hx => exact ⟨rfl, rfl, fun _ => ⟨rfl, rfl⟩, fun h => absurd (by simpa using hx) h, fun _ => rfl⟩
    · next hx => exact ⟨rfl, rfl, fun h => absurd h (by simpa using hx), fun _ => ⟨rfl, rfl, rfl⟩, id⟩
  · obtain ⟨hmem, hne⟩ := List.mem_filter.1 hk
    exact ⟨hmem, by simpa using hne⟩

theorem foldl_haltGroup_halts (gs : List Group) (m : Mach) : m.Halts (gs.map (·.gid)) (gs.foldl Mach.haltGroup m) := by
  induction gs generalizing m with
  | nil => exact .refl m
  | cons g gs ih => exact (haltGroup_halts m g).trans (ih _)

/-- The groups that a stop halts: those with state on a core in the subtree of a region, or for a stop of kind 2 in the whole partition (R243, R338). -/
def Mach.treeGroups (m : Mach) (vf root kind : Nat) : List Group :=
  m.groups.filter fun g => g.env.vf == vf && g.haltable && (kind == 2 || g.env.path.contains root)

/-- A launch that such a stop drops, since it waits for admission (R243, log entry 22). -/
def Group.dropped (g : Group) (vf root kind : Nat) : Bool := g.env.vf == vf && g.stage == .queued && (kind == 2 || g.env.path.contains root)

/-- A machine without those launches. -/
def Mach.unlaunched (m : Mach) (vf root kind : Nat) : Mach := { m with groups := m.groups.filter fun g => !g.dropped vf root kind }

theorem stopTree_halts (cfg : Cfg) (vf root kind cause : Nat) (m : Mach) :
    (m.unlaunched vf root kind).Halts ((m.treeGroups vf root kind).map (·.gid)) (stopTree cfg vf root kind cause m) :=
  (((((foldl_haltGroup_halts _ _).then_none (endFreezes_halts ..)).then_none (onVf_halts ..)).then_none
    (.of_walked (writeDump_walked ..))).then_none (raise_halts ..)).then_none (raise_halts ..)

/-- An interrupt stops no domain. -/
theorem raise_stopped (m : Mach) (v b w : Nat) : ((m.raise v b).vf w).stopped = (m.vf w).stopped := by
  have hon {n : Mach} {f : Vf → Vf} (hn : n.vfs = (m.onVf v f).vfs) (hf : ∀ r, (f r).stopped = r.stopped) : (n.vf w).stopped = (m.vf w).stopped := by
    have hvf : n.vf w = (m.onVf v f).vf w := by rw [Mach.vf, hn]; rfl
    rcases eq_or_ne v w with rfl | hne
    · rw [hvf, vf_onVf, hf]
    · rw [hvf, vf_onVf_ne m f hne]
  have hcause {n : Mach} (hn : n.vfs = (m.onVf v fun r => { r with cause := r.cause ||| BitVec.ofNat 10 (2 ^ b) }).vfs) := hon hn fun _ => rfl
  unfold Mach.raise
  dsimp only
  split
  · exact hon rfl fun _ => rfl
  · split
    · rfl
    · split
      · exact hcause rfl
      · split
        · exact hcause rfl
        · split
          · exact hcause (raisePf_vfs ..)
          · exact hcause rfl

theorem stopTree_stopped (cfg : Cfg) (vf root kind cause : Nat) (m : Mach) : root ∈ ((stopTree cfg vf root kind cause m).vf vf).stopped := by
  unfold stopTree
  dsimp only
  rw [raise_stopped, raise_stopped, Mach.vf, (writeDump_walked ..).vfs]
  refine (congrArg (fun r : Vf => root ∈ r.stopped) (vf_onVf _ vf _)).mpr ?_
  exact List.mem_cons_self

theorem unlaunched_group? {m : Mach} {vf root kind i : Nat} {g : Group} (hg : m.group? i = some g) (h : g.dropped vf root kind = false) :
    (m.unlaunched vf root kind).group? i = some g :=
  find?_filter_of_pos hg (by rw [h]; rfl)

/-- A group that a stop halts is no launch that it drops. -/
theorem Group.dropped_of_haltable {g : Group} (h : g.haltable = true) (vf root kind : Nat) : g.dropped vf root kind = false := by
  have hq : (g.stage == .queued) = false := by
    unfold Group.haltable at h
    split at h <;> simp_all
  simp [Group.dropped, hq]

/-- A group that a stop halts is stopped and not frozen, and its gangs are gone. -/
theorem stopTree_halted (cfg : Cfg) {vf root kind : Nat} (cause : Nat) {m : Mach} {i : Nat} {g : Group} (hg : m.group? i = some g)
    (hmem : g ∈ m.treeGroups vf root kind) :
    (∃ g', (stopTree cfg vf root kind cause m).group? i = some g' ∧ g'.stage = .stopped ∧ g'.frozen = false)
      ∧ ∀ k ∈ (stopTree cfg vf root kind cause m).gangs, k.gid ≠ i := by
  have hhalts := stopTree_halts cfg vf root kind cause m
  have hgid : g.gid = i := Mach.group?_gid hg
  have hS : g.gid ∈ (m.treeGroups vf root kind).map (·.gid) := List.mem_map_of_mem hmem
  have hhaltable : g.haltable = true := by
    have h := (List.mem_filter.1 hmem).2
    simp only [Bool.and_eq_true] at h
    exact h.1.2
  obtain ⟨g', hg', hstays⟩ := hhalts.group? (unlaunched_group? hg (Group.dropped_of_haltable hhaltable _ _ _))
  refine ⟨⟨g', hg', hstays.halted hS⟩, fun k hk e => (hhalts.gangs k hk).2 ?_⟩
  rwa [e, ← hgid]

/-! ### The stop of a fault domain -/

/-- A domain that is marked and not stopped yet stops (R243). -/
theorem faultDomainStop_domain {s : State} {idx vf w : Nat} (h : s.m.stops[idx]? = some (vf, w)) (hw : w / 256 ≠ wholePartition)
    (hs : w / 256 ∉ (s.m.vf vf).stopped) :
    exec (.faultDomainStop idx) s
      = .next { s with m := stopTree s.cfg vf (w / 256) 1 (w % 256) { s.m with stops := s.m.stops.eraseIdx idx } } := by
  have hc : (s.m.vf vf).stopped.contains (w / 256) = false := by simpa using hs
  have hvf : ({ s.m with stops := s.m.stops.eraseIdx idx } : Mach).vf vf = s.m.vf vf := rfl
  show execFaultDomainStop idx s = _
  simp only [execFaultDomainStop, onMach, h, hw, if_false, hvf, hc, Bool.false_and, Bool.false_eq_true]

/-- A partition that is marked stops (R338). -/
theorem faultDomainStop_partition {s : State} {idx vf w : Nat} (h : s.m.stops[idx]? = some (vf, w)) (hw : w / 256 = wholePartition) :
    exec (.faultDomainStop idx) s
      = .next { s with m := stopTree s.cfg vf (s.m.vf vf).root 2 (w % 256) { s.m with stops := s.m.stops.eraseIdx idx } } := by
  show execFaultDomainStop idx s = _
  simp only [execFaultDomainStop, onMach, h, hw, if_true]
  rfl

/-- Settles O37: the mark of a fatal trap; then the groups, gangs and marks that the stop of a domain leaves, and the stop of a partition. -/
theorem faultDomainsStop : Obligations.FaultDomainsStop := by
  refine ⟨fun m k tid slot cause arg g x hg hx h => ?_, fun s idx vf w hidx hw hs => ?_, fun s idx vf w hidx hw => ?_⟩
  · rw [trapLane_fatal hg hx h]
    refine ⟨queueStop_marks _ _ _ _ cause.code_lt, x.holdFatal cause arg k.pc slot, ?_, rfl, rfl, rfl, rfl, rfl, rfl⟩
    rw [countLoss_queueStop_thread?]
    have hthread := (m.onGang k.id fun y => y.without tid).thread?_onThread k.gid tid tid (fun t => t.holdFatal cause arg k.pc slot) (fun _ => rfl) hg
    rw [hthread, if_pos rfl, hx]
    rfl
  · have hhalts := stopTree_halts s.cfg vf (w / 256) 1 (w % 256) { s.m with stops := s.m.stops.eraseIdx idx }
    refine ⟨_, faultDomainStop_domain hidx hw hs, hhalts.marks, stopTree_stopped .., fun i g hg htree => ?_, fun g hg hvf hpath hq => ?_,
      fun i g hg hout => ?_⟩
    · refine stopTree_halted s.cfg (w % 256) (m := { s.m with stops := s.m.stops.eraseIdx idx }) hg (List.mem_filter.2 ⟨List.mem_of_find?_eq_some hg, ?_⟩)
      simpa [Group.inTree, and_assoc] using htree
    · obtain ⟨⟨F, hF, hstays⟩, -, -⟩ := hhalts
      obtain ⟨x, hx, rfl⟩ := List.mem_map.1 (hF ▸ hg)
      have hxq : x.stage = .queued := by
        rcases (hstays x).stage with h | h
        · rw [h] at hq
          cases hq
        · exact h ▸ hq
      have hkeep := (List.mem_filter.1 hx).2
      rw [(hstays x).env] at hvf hpath
      simp [Group.dropped, hvf, hpath, hxq] at hkeep
    · obtain ⟨hnot, hnq⟩ := hout g (List.mem_of_find?_eq_some hg) (Mach.group?_gid hg)
      have hlaunch : g.dropped vf (w / 256) 1 = false := by
        rw [Bool.eq_false_iff]
        simpa [Group.dropped, and_assoc, and_comm, and_left_comm] using hnq
      obtain ⟨g', hg', hst⟩ := hhalts.group? (unlaunched_group? (m := { s.m with stops := s.m.stops.eraseIdx idx }) hg hlaunch)
      refine ⟨g', hg', hst.kept fun hmem => ?_⟩
      obtain ⟨x, hx, hxg⟩ := List.mem_map.1 hmem
      obtain ⟨hxm, hxtree⟩ := List.mem_filter.1 hx
      obtain ⟨hxout, -⟩ := hout x hxm (hxg.trans (Mach.group?_gid hg))
      rw [Group.inTree] at hxout
      simp_all
  · refine ⟨_, faultDomainStop_partition hidx hw, stopTree_stopped .., fun i g hg hvf hh => ?_⟩
    obtain ⟨⟨g', hg', hstop, -⟩, -⟩ := stopTree_halted s.cfg (w % 256) (vf := vf) (kind := 2) (root := (s.m.vf vf).root)
      (m := { s.m with stops := s.m.stops.eraseIdx idx }) hg (List.mem_filter.2 ⟨List.mem_of_find?_eq_some hg, by simp [hvf, hh]⟩)
    exact ⟨g', hg', hstop⟩

end Sys2Proof.Machine
end

section
/-! PROOFS. The execution model (10): a group leaves its core for its image and comes back (R217, R325, R341, R342). -/

namespace Sys2Proof.Machine

/-! ### The halt of a group -/

theorem Ctx.landAll_landAll (c : Ctx) : c.landAll.landAll = c.landAll := by
  conv_lhs => rw [Ctx.landAll, Ctx.landAll_pend]
  rw [List.foldl_nil, ← Ctx.landAll_pend c]

/-- A group that has halted: the uniform writes and the writes of its lanes in flight have landed, no request of it waits, and each lane keeps its accesses of `keep`. -/
def Group.swappedOut (keep : List Acc) (g : Group) : Group :=
  let x := g.spend.foldl Group.applyUni { g with spend := [] }
  { x with
    stage := .saving, rels := []
    threads := x.threads.map fun (t : Thread) => { t with
      c := t.c.landAll, joinAt := none, yieldAt := none
      replay := keep.filter fun a => a.tid == t.tid } }

theorem Group.swappedOut_gid (keep : List Acc) (g : Group) : (g.swappedOut keep).gid = g.gid := by
  rw [Group.swappedOut, Group.foldl_applyUni_keeps]

theorem Group.swappedOut_landed (keep : List Acc) (g : Group) : ∀ x ∈ (g.swappedOut keep).threads, x.c.landAll = x.c := by
  intro x hx
  obtain ⟨t, -, rfl⟩ := List.mem_map.1 hx
  exact t.c.landAll_landAll

/-- A machine without the monitors of a group and what its core had open for it. -/
def Mach.forget (m : Mach) (g : Group) : Mach :=
  { m with monitors := m.monitors.filter fun x => x.gid != g.gid }.onCore g.column g.core fun c => { c with
    accs := c.accs.filter fun a => a.gid != g.gid
    waiters := c.waiters.filter fun w => w.gid != g.gid }

theorem Mach.forget_accs (m : Mach) (g : Group) :
    ((m.forget g).core g.column g.core).accs = (m.core g.column g.core).accs.filter fun a => a.gid != g.gid :=
  congrArg Core.accs (core_onCore { m with monitors := m.monitors.filter fun x => x.gid != g.gid } g.column g.core _)

/-- The last step of the halt: the group's accesses and monitors go, and it is saving. -/
theorem haltForSwap_eq (m : Mach) (g : Group) : ∃ n keep, haltForSwap m g = (Mach.forget n g).onGroup g.gid (Group.swappedOut keep) := ⟨_, _, rfl⟩

theorem exec_preemptionHalt {s : State} {gid : Nat} {g : Group} (hg : s.m.group? gid = some g) (hst : g.stage = .halting) (hf : g.frozen = false)
    (hr : haltReady s.m g = true) : exec (.preemptionHalt gid) s = .next { s with m := haltForSwap s.m g } := by
  show execPreemptionHalt gid s = _
  simp [execPreemptionHalt, onMach, hg, hst, hf, hr]

theorem exec_preemptionTimeout {s : State} {gid : Nat} {g : Group} (hg : s.m.group? gid = some g) (hst : g.stage = .halting) (hf : g.frozen = false)
    (ht : g.since + 2000000 ≤ s.m.etime) : exec (.preemptionTimeout gid) s = .next { s with m := partitionStop s.cfg g.env.vf 0 s.m } := by
  show execPreemptionTimeout gid s = _
  simp [execPreemptionTimeout, onMach, hg, hst, hf, ht]

/-! ### The image of a group -/

/-- The group of a handle is replaced. -/
theorem Mach.group?_replace {m : Mach} {i : Nat} {g g' : Group} (hg : m.group? i = some g) (h : g'.gid = i) :
    (m.onGroup i fun _ => g').group? i = some g' := by
  unfold Mach.group? Mach.onGroup
  rw [find_map]
  · rw [← Mach.group?, hg, Option.map_some, Mach.group?_gid hg, beq_self_eq_true, if_pos rfl]
  · intro x
    split
    · next hx => rw [hx, h, beq_self_eq_true]
    · rfl

theorem useBlock_groups (m : Mach) (s : Surf) (b : Nat) : (m.useBlock s b).groups = m.groups := by
  unfold Mach.useBlock
  split <;> rfl

/-- Blocks of a surface that a matrix word fetches change no group. -/
theorem fetchBlocks_groups (m : Mach) (g : Group) (w : MWord) : (fetchBlocks m g w).1.groups = m.groups := by
  unfold fetchBlocks
  split
  · rfl
  · refine List.foldlRecOn (motive := fun r : Mach × MWord => r.1.groups = m.groups) _ _ rfl fun r hr b _ => ?_
    split
    · exact hr
    · exact (useBlock_groups ..).trans hr

theorem engPut1_groups (cfg : Cfg) (g : Group) (p : EPlace) (b : Byte) (m : Mach) : (engPut1 cfg g p b m).1.groups = m.groups := by
  unfold engPut1
  split
  · split <;> rfl
  · next va =>
    have hwrite : (devWrite cfg g.env.vf va 1 b.toNat m).1.groups = m.groups := by
      rw [← writeVa, Mach.WalkStep.writeVa cfg g.env.vf va 1 b.toNat m]
    split
    · rfl
    · split
      · next he => rwa [he] at hwrite
      · next he => rwa [he] at hwrite

theorem engPut_groups (cfg : Cfg) (g : Group) (xs : List (EPlace × Byte)) (m : Mach) : (engPut cfg g xs m).1.groups = m.groups := by
  induction xs generalizing m with
  | nil => rfl
  | cons x xs ih =>
    have hput := engPut1_groups cfg g x.1 x.2 m
    unfold engPut
    split
    · next he => rwa [he] at hput
    · next he =>
      rw [he] at hput
      exact (ih _).trans hput

theorem setSlot_group? {m : Mach} {i : Nat} {g : Group} (n : Nat) (x : Slot) (hg : m.group? i = some g) :
    (m.setSlot i n x).group? i = some { g with slots := SMap.set {} g.slots n x } := by
  rw [Mach.setSlot, Mach.group?_onGroup m i i (fun g => { g with slots := SMap.set {} g.slots n x }) fun _ => rfl, if_pos rfl, hg]
  rfl

/-- A step of a matrix word writes a matrix slot of its group at most. -/
theorem stepMWord_group? (cfg : Cfg) (col core : Nat) {g : Group} (w : MWord) {m : Mach} (hg : m.group? g.gid = some g) :
    ∃ x, (stepMWord cfg col core g w m).1.group? g.gid = some { g with slots := x } := by
  unfold stepMWord
  extract_lets b part c
  split
  · exact ⟨_, hg⟩
  · split
    · split
      · exact ⟨_, hg⟩
      · exact ⟨_, setSlot_group? _ _ ((group?_of_groups (fetchBlocks_groups m g w) g.gid).trans hg)⟩
    · split
      · exact ⟨_, (group?_of_groups (engPut_groups ..) g.gid).trans hg⟩
      · exact ⟨_, hg⟩

/-- What the engine of a halting group still does changes the group's matrix slots at most (R341). -/
theorem haltEngine_group? (cfg : Cfg) {g : Group} {m : Mach} (hg : m.group? g.gid = some g) :
    ∃ x, (haltEngine cfg g m).group? g.gid = some { g with slots := x } := by
  unfold haltEngine
  dsimp only
  split
  · exact ⟨_, hg⟩
  · next w _ => exact stepMWord_group? cfg g.column g.core w hg

/-- An engine that has begun no word of the group does nothing. -/
theorem haltEngine_idle (cfg : Cfg) {g : Group} {m : Mach} (h : ∀ w ∈ (m.core g.column g.core).mwords, w.gid = g.gid → w.started = false) :
    haltEngine cfg g m = m := by
  have hnone : (m.core g.column g.core).mwords.findIdx (fun w => w.gid == g.gid && w.started) = (m.core g.column g.core).mwords.length :=
    List.findIdx_eq_length.2 fun w hw => by
      by_cases hgid : w.gid = g.gid
      · simp [h w hw hgid]
      · simp [hgid]
  simp only [haltEngine, hnone, List.getElem?_length]

/-- A group that is saved: what the tensor engine holds for it leaves with it (R341). -/
def Group.saved (g : Group) (now : Nat) (c : Core) : Group :=
  { g with stage := .saved, since := now, restored := true
           tiles := c.tiles.filter fun t => t.2.gid == g.gid
           mwords := c.mwords.filter fun w => w.gid == g.gid }

/-- A machine whose core keeps nothing of the tensor engine's for a group. -/
def Mach.unloaded (m : Mach) (g : Group) : Mach :=
  m.onCore g.column g.core fun c => { c with
    tiles := c.tiles.filter fun t => t.2.gid != g.gid
    mwords := c.mwords.filter fun w => w.gid != g.gid }

/-- The steps of a save after the engine's halt: the group is saved, its image written, and requests that wait for its holding are looked at (R231, R341). -/
theorem saveGroup_eq (cfg : Cfg) {m n : Mach} {g x y : Group} (hn : haltEngine cfg g (m.l1BackAll g.column g.core) = n) (hx : n.group? g.gid = some x)
    (hy : x.saved n.etime (n.core x.column x.core) = y) :
    saveGroup cfg m g = bankerRecheck cfg x.column x.core
      (writeGroupImage cfg ((n.unloaded x).onGroup x.gid fun _ => y) y ((n.unloaded x).onGroup x.gid fun _ => y)) := by
  simp only [saveGroup, hn, hx, Option.getD_some]
  subst hy
  rfl

theorem Group.eq_of_unheld {x y : Group} (h : x.unheld = y.unheld) : ∃ r, x = { y with hold := r } :=
  ⟨x.hold, congrArg (fun z : Group => { z with hold := x.hold }) h⟩

/-- What the image of a group keeps of it, once its engine has halted (R341). -/
theorem saveGroup_group? (cfg : Cfg) {m : Mach} {g x : Group} (hx : (haltEngine cfg g (m.l1BackAll g.column g.core)).group? g.gid = some x) :
    ∃ g', (saveGroup cfg m g).group? g.gid = some g' ∧ g'.stage = .saved ∧ g'.restored = true ∧ g'.threads = x.threads ∧ g'.slots = x.slots := by
  generalize hn : haltEngine cfg g (m.l1BackAll g.column g.core) = n at hx
  have hgid : x.gid = g.gid := Mach.group?_gid hx
  rw [saveGroup_eq cfg hn hx rfl]
  have hsaved := Mach.group?_replace ((group?_of_groups (n := n.unloaded x) rfl g.gid).trans hx) (g' := x.saved n.etime (n.core x.column x.core)) hgid
  rw [← hgid] at hsaved ⊢
  rw [← group?_of_groups (writeGroupImage_walked cfg _ _ _).groups] at hsaved
  obtain ⟨g', hg', hkept⟩ := (Mach.Granted.bankerRecheck cfg x.column x.core _).group_some hsaved
  obtain ⟨r, rfl⟩ := Group.eq_of_unheld hkept
  exact ⟨_, hg', rfl, rfl, rfl, rfl⟩

theorem exec_imageSave_ready {s : State} {gid : Nat} {g : Group} (hg : s.m.group? gid = some g) (hst : g.stage = .saving)
    (ht : touchImage s.cfg g true s.m = (s.m, .ready)) : ∃ t, exec (.imageSave gid) s = .next t ∧ t.m = saveGroup s.cfg s.m g := by
  refine ⟨{ s with m := saveGroup s.cfg s.m g }, ?_, by dsimp only⟩
  show execImageSave gid s = _
  simp [execImageSave, onMach, hg, hst, ht]

theorem exec_imageSave_bad {s : State} {gid : Nat} {g : Group} (hg : s.m.group? gid = some g) (hst : g.stage = .saving)
    (ht : touchImage s.cfg g true s.m = (s.m, .bad)) : exec (.imageSave gid) s = .next { s with m := partitionStop s.cfg g.env.vf 0 s.m } := by
  show execImageSave gid s = _
  simp [execImageSave, onMach, hg, hst, ht]

/-! ### The return of a group -/

theorem exec_groupRestore {s : State} {gid : Nat} {g : Group} (hg : s.m.group? gid = some g) (hst : g.stage = .restoring)
    (ht : touchImage s.cfg g false s.m = (s.m, .ready)) :
    ∃ t, exec (.groupRestore gid) s = .next t ∧ t.m = loadGroup s.cfg (s.m.l1Inv g.column g.core) g := by
  refine ⟨{ s with m := loadGroup s.cfg (s.m.l1Inv g.column g.core) g }, ?_, by dsimp only⟩
  show execGroupRestore gid s = _
  simp [execGroupRestore, onMach, hg, hst, ht]

/-- A group is resident again as its image has it, and its accesses issue again (R36, R342). -/
theorem loadGroup_group? (cfg : Cfg) {m : Mach} {g : Group} (hg : m.group? g.gid = some g) :
    ∃ g', (loadGroup cfg m g).group? g.gid = some g' ∧ g'.stage = .resident
      ∧ g'.threads = (g.ofImage m (readVaMem cfg g.env.vf g.image (sectionOff g 8) m)).threads.map fun x => { x with replay := [] } :=
  ⟨_, Mach.group?_replace ((group?_of_groups rfl _).trans hg) rfl, rfl, rfl⟩

/-- The accesses that the lanes of a group issue again. -/
def Group.replays (g : Group) (now : Nat) : List Acc := g.threads.flatMap fun t => t.replay.map fun (a : Acc) => { a with st := .ready, since := now }

theorem loadGroup_core (cfg : Cfg) (m : Mach) (g : Group) :
    (loadGroup cfg m g).core g.column g.core
      = { m.core g.column g.core with accs := (m.core g.column g.core).accs ++ g.replays m.etime } :=
  core_onCore (loadWindow cfg g m) g.column g.core fun c => { c with accs := c.accs ++ g.replays m.etime }

/-- Settles O43: the halt; the image of a group that is saved, or the stop of its partition; the group and its core when it is restored. -/
theorem groupsAreSwappedOutAndBack : Obligations.GroupsAreSwappedOutAndBack := by
  refine ⟨fun s gid g => exec_preemptionHalt, fun m g => ?_, fun s gid g hg hst ht => ?_, fun s gid g => exec_imageSave_bad,
    fun s gid g => exec_preemptionTimeout, fun s gid g hg hst ht => ?_⟩
  · obtain ⟨n, keep, h⟩ := haltForSwap_eq m g
    rw [h]
    refine ⟨fun g' hg' => ?_, fun a ha => ?_, fun x hx => ?_⟩
    · rw [Mach.group?_onGroup _ _ _ _ (Group.swappedOut_gid keep), if_pos rfl] at hg'
      obtain ⟨x, -, rfl⟩ := Option.map_eq_some_iff.1 hg'
      exact ⟨rfl, rfl, x.swappedOut_landed keep⟩
    · have hmem : a ∈ ((n.forget g).core g.column g.core).accs := ha
      rw [Mach.forget_accs] at hmem
      simpa using (List.mem_filter.1 hmem).2
    · simpa using (List.mem_filter.1 hx).2
  · obtain rfl := Mach.group?_gid hg
    have hback := Mach.CacheStep.l1BackAll s.m g.column g.core
    have hg1 := (group?_of_groups hback.groups g.gid).trans hg
    obtain ⟨x, hx⟩ := haltEngine_group? s.cfg hg1
    obtain ⟨g', hg', hstage, hrestored, hthreads, hslots⟩ := saveGroup_group? s.cfg hx
    obtain ⟨t, hexec, hm⟩ := exec_imageSave_ready hg hst ht
    refine ⟨t, g', hexec, hm, hm ▸ hg', hstage, hrestored, hthreads, fun hidle => ?_⟩
    rw [haltEngine_idle, hg1] at hx
    · rw [hslots, ← Option.some.inj hx]
    · rwa [hback.core]
  · obtain rfl := Mach.group?_gid hg
    have hinv := Mach.CacheStep.l1Inv s.m g.column g.core
    obtain ⟨g', hg', hstage, hthreads⟩ := loadGroup_group? s.cfg ((group?_of_groups hinv.groups g.gid).trans hg)
    obtain ⟨t, hexec, hm⟩ := exec_groupRestore hg hst ht
    refine ⟨t, g', _, hexec, hm, rfl, hm ▸ hg', hstage, hthreads, ?_, ?_⟩
    · rw [hm, loadGroup_core]
      exact congrArg Core.l1 (core_onCore (s.m.l1BackAll g.column g.core) g.column g.core _)
    · have htime : (s.m.l1Inv g.column g.core).etime = s.m.etime := by rw [hinv.rest]
      rw [hm, loadGroup_core, List.map_flatMap, ← htime, ← hinv.accs]
      rfl

end Sys2Proof.Machine
end

section
/-! PROOFS. Surfaces and the pipeline (12): gates (R286), fixed-function nodes (R281, R282, R288 to R292), the retirement of draws (R285) and the moderated HOSTQ
interrupt (17 R320). -/

namespace Sys2Proof.Machine

/-! ### Gates -/

/-- A gate that may judge passes its record on, or consumes it: at HEAD as the head record, beyond HEAD once it comes to HEAD (R286; log entry 20). -/
theorem gate_judges {s : State} {vf leaf node : Nat} {b : Binding} {n : Node} {h : QHdr} {i no sum : Nat} (hg : GateDue s vf leaf node b n h i no sum) :
    exec (.gate vf leaf node) s = .next { s with
      m := if (sum != 0) != bitOf h.gate 62 then s.m.setSeen vf leaf node (i + 1)
        else if i = 0 then consumeRecord s.cfg vf leaf node n (s.m.setSeen vf leaf node 1)
        else (s.m.setSeen vf leaf node (i + 1)).onBinding vf leaf fun b => { b with gateDrop := b.gateDrop ++ [(node, no)] } } := by
  obtain ⟨hbind, htouch, rfl, rfl, ⟨hruns, hstop, hnode, hkind, hgated⟩, ⟨rfl, hcount, rfl⟩, hrecord, ⟨d, hdraw, hretired⟩, rfl⟩ := hg
  show execGate vf leaf node s = _
  unfold gateAt at hdraw ⊢
  simp only [execGate, onMach, htouch, whenReady, hbind, hruns, hstop, Nat.not_le.2 hnode, beq_eq_false_iff_ne.2 hkind, hgated, Nat.not_le.2 hcount, hrecord, hdraw,
    Option.map_some, hretired, Option.getD_some, Bool.not_true, Bool.or_self, decide_false, Bool.false_eq_true, if_false, if_true]

section
variable {s : State} {vf leaf node : Nat} {b : Binding} {n : Node} {h : QHdr}

/-! ### RASTER -/

theorem raster_emits {twin : Nat} {m' : Mach} (hd : NodeDue s vf leaf node 1 b n h) (hstate : touchStruct s.cfg vf n.const 128 false s.m = (s.m, .ready))
    (htwin : rasterTwin s.m vf (readRaster s.cfg vf n.const s.m) = some twin)
    (hqueue : touchAppend s.cfg vf b.table (n.emit.headD 0) s.m = (s.m, .ready))
    (hprim : rasterPrim s.cfg (rasterCtx s vf leaf b n twin) (recWords s.cfg vf (h.recAddr 64 h.head) 64 s.m) (b.done node) s.m = (m', 0, true, false)) :
    exec (.raster vf leaf node) s = .next { s with m := consumeRecord s.cfg vf leaf node n (m'.setDone vf leaf node 0) } := by
  obtain ⟨htouch, hhead⟩ := hd
  unfold rasterCtx at hprim
  show execRaster vf leaf node s = _
  simp only [execRaster, onMach, htouch, whenReady, hhead, hstate, htwin, hqueue, hprim, Bool.false_eq_true, if_false, if_true]

theorem raster_malformed (hd : NodeDue s vf leaf node 1 b n h) (hstate : touchStruct s.cfg vf n.const 128 false s.m = (s.m, .ready))
    (htwin : rasterTwin s.m vf (readRaster s.cfg vf n.const s.m) = none) :
    exec (.raster vf leaf node) s = .next { s with m := failRecord s.cfg vf leaf node n s.m } := by
  obtain ⟨htouch, hhead⟩ := hd
  show execRaster vf leaf node s = _
  simp only [execRaster, onMach, htouch, whenReady, hhead, hstate, htwin]

/-! ### TRAVERSE -/

theorem traverse_emits {ws : List Nat} {m' m'' : Mach} (hd : NodeDue s vf leaf node 2 b n h)
    (hrec : traverseRecord vf (recWords s.cfg vf (h.recAddr 64 h.head) 64 s.m) s.m = .ok (ws, m'))
    (hemit : appendTo s.cfg vf b.table (n.emit.headD 0) (wordBytes ws) m' = .done m'') :
    exec (.traverse vf leaf node) s = .next { s with m := consumeRecord s.cfg vf leaf node n m'' } := by
  obtain ⟨htouch, hhead⟩ := hd
  show execTraverse vf leaf node s = _
  simp only [execTraverse, onMach, htouch, whenReady, hhead, hrec, hemit]

theorem traverse_malformed (hd : NodeDue s vf leaf node 2 b n h)
    (hrec : traverseRecord vf (recWords s.cfg vf (h.recAddr 64 h.head) 64 s.m) s.m = .bad) :
    exec (.traverse vf leaf node) s = .next { s with m := failRecord s.cfg vf leaf node n s.m } := by
  obtain ⟨htouch, hhead⟩ := hd
  show execTraverse vf leaf node s = _
  simp only [execTraverse, onMach, htouch, whenReady, hhead, hrec]

/-! ### CLASSIFY -/

theorem classify_emits {ws : List Nat} {x : Surf} {m' : Mach} {eb : EngBuf} {r : Mach × Nat × Bool} (hd : NodeDue s vf leaf node 3 b n h)
    (hws : ws = recWords s.cfg vf (h.recAddr 16 h.head) 16 s.m) (hsurf : s.m.surf? vf (BitVec.ofNat 32 (ws.getD 0 0)) = some x) (hfmt : x.fmt = 7)
    (hlayer : ws.getD 2 0 % 256 ≤ x.layers) (hread : readBlocks s.cfg vf x.idx (classifyBlocks x ws) (b.buf node) s.m = (.done m', eb))
    (hemit : emitFrom (fun bytes m => appendTo s.cfg vf b.table (n.emit.headD 0) bytes m) (b.done node)
      ((classifyOut x ws eb.texels).drop (b.done node)) (m'.setBuf vf leaf node eb) = r)
    (hall : (classifyOut x ws eb.texels).length ≤ r.2.1) :
    exec (.classify vf leaf node) s
      = .next { s with m := consumeRecord s.cfg vf leaf node n ((r.1.setDone vf leaf node 0).setBuf vf leaf node {}) } := by
  obtain ⟨htouch, hhead⟩ := hd
  subst hws
  unfold classifyBlocks at hread
  unfold classifyOut at hemit hall
  show execClassify vf leaf node s = _
  simp only [execClassify, onMach, htouch, whenReady, hhead, hsurf, hfmt, ne_eq, not_true, Nat.not_lt.2 hlayer, or_self, if_false, hread, hemit, if_pos hall]

theorem classify_stale (hd : NodeDue s vf leaf node 3 b n h)
    (hsurf : s.m.surf? vf (BitVec.ofNat 32 ((recWords s.cfg vf (h.recAddr 16 h.head) 16 s.m).getD 0 0)) = none) :
    exec (.classify vf leaf node) s = .next { s with m := failRecord s.cfg vf leaf node n (s.m.setBuf vf leaf node {}) } := by
  obtain ⟨htouch, hhead⟩ := hd
  show execClassify vf leaf node s = _
  simp only [execClassify, onMach, htouch, whenReady, hhead, hsurf]

/-! ### NET -/

theorem net_writes {ws : List Nat} {x y : Surf} {pad : Bool} {ls : List NetLayer} {m' m'' : Mach} {eb eb' : EngBuf} {out : Array Nat}
    (hd : NodeDue s vf leaf node 4 b n h) (hnet : touchNet s.cfg vf n.const s.m = (s.m, .ready))
    (hws : ws = recWords s.cfg vf (h.recAddr 16 h.head) 16 s.m) (hls : readNet s.cfg vf n.const s.m = (pad, ls, true)) (hsurfs : netSurfs s.m vf ws = some (x, y))
    (hread : readBlocks s.cfg vf x.idx (layerBlocks x (ws.getD 2 0)) (b.buf node) s.m = (.done m', eb))
    (hrun : netRun vf pad x.width x.height (m'.setBuf vf leaf node eb) ls (netImage x (ws.getD 2 0) eb.texels) = .ok out)
    (hwrite : writeImage s.cfg vf y.idx (ws.getD 2 0) x.width out (layerBlocks y (ws.getD 2 0)) eb (m'.setBuf vf leaf node eb) = (.done m'', eb')) :
    exec (.net vf leaf node) s = .next { s with m := consumeRecord s.cfg vf leaf node n (m''.setBuf vf leaf node {}) } := by
  obtain ⟨htouch, hhead⟩ := hd
  subst hws
  unfold netImage at hrun
  show execNet vf leaf node s = _
  simp only [execNet, onMach, htouch, whenReady, hhead, hnet, hls, hsurfs, hread, hrun, hwrite, Bool.not_true, Bool.false_eq_true, if_false]

theorem net_malformed (hd : NodeDue s vf leaf node 4 b n h) (hnet : touchNet s.cfg vf n.const s.m = (s.m, .ready))
    (hbad : netSurfs s.m vf (recWords s.cfg vf (h.recAddr 16 h.head) 16 s.m) = none ∨ (readNet s.cfg vf n.const s.m).2.2 = false) :
    exec (.net vf leaf node) s = .next { s with m := failRecord s.cfg vf leaf node n (s.m.setBuf vf leaf node {}) } := by
  obtain ⟨htouch, hhead⟩ := hd
  show execNet vf leaf node s = _
  simp only [execNet, onMach, htouch, whenReady, hhead, hnet]
  cases hsurfs : netSurfs s.m vf (recWords s.cfg vf (h.recAddr 16 h.head) 16 s.m) with
  | none => rfl
  | some xy =>
    have hrules : (readNet s.cfg vf n.const s.m).2.2 = false := hbad.resolve_left (by simp [hsurfs])
    simp only [hrules, Bool.not_false, if_true]

/-! ### COPY -/

/-- All of a request is done: STATE 1 (R187). -/
theorem endNodePiece_whole {cfg : Cfg} {vf leaf node col core : Nat} {b : Binding} {n : Node} {ws : List Nat} {r : Req} {eb : EngBuf} {p : Nat} {m : Mach}
    (hp : r.total ≤ p) : endNodePiece cfg vf leaf node col core b n ws r eb p none m = endCopyNode cfg vf leaf node col core b n ws 1 p m := if_pos hp

/-- The engine and the column are those of log entry 37. -/
theorem copyNode_ends {m' : Mach} {eb : EngBuf} {p : Nat} (hc : CopyNodeDue s vf leaf node b n h) (hwork : nodeWork s vf leaf node b h = (m', eb, p, none))
    (hp : (nodeReq s.cfg vf h (nodeTaken s vf leaf node)).total ≤ p) :
    exec (.copyNode vf leaf node) s = .next { s with
      m := endCopyNode s.cfg vf leaf node (firstColumn s.cfg vf) (nodeCore s vf) b n
        (recWords s.cfg vf (h.recAddr 64 h.head) 64 (nodeTaken s vf leaf node)) 1 p m' } := by
  obtain ⟨⟨htouch, hhead⟩, hfree, hcu, hfresh, hbad, hssp, hdsp⟩ := hc
  simp only [nodeWork] at hwork
  unfold nodeTaken nodeCore at hcu hbad hssp hdsp hwork hp
  unfold nodeCore at hfree
  show execCopyNode vf leaf node s = _
  simp only [execCopyNode, onMach, htouch, whenReady, hhead, hfree, Nat.not_lt.2 hcu, Nat.not_le.2 hfresh, hbad, hssp, hdsp, hwork, endNodePiece_whole hp,
    Bool.not_true, Bool.or_self, Bool.false_eq_true, if_false]
  rfl

end

/-! ### The retirement of draws -/

/-- A draw that has ended is retired if it has this number on this twin (R285). -/
def Draw.retire (twin draw : Nat) (d : Draw) : Draw := if d.twin == twin && d.draw == draw && d.ended then { d with retired := true } else d

theorem Draw.retire_retired {twin draw : Nat} {d : Draw} (ht : (d.retire twin draw).twin = twin) (hn : (d.retire twin draw).draw = draw)
    (he : (d.retire twin draw).ended = true) : (d.retire twin draw).retired = true := by
  by_cases hm : (d.twin == twin && d.draw == draw && d.ended) = true
  · rw [Draw.retire, if_pos hm]
  · rw [Draw.retire, if_neg hm] at ht hn he
    exact absurd (by simp [ht, hn, he]) hm

theorem drawRetire_quiet {s : State} {twin draw : Nat}
    (h : ∀ p ∈ (drainPixels s.cfg s.m).pix, p.twin = twin → p.draw = draw → ((drainPixels s.cfg s.m).vf p.vf).away = true) :
    exec (.drawRetire twin draw) s
      = .next { s with m := { drainPixels s.cfg s.m with draws := (drainPixels s.cfg s.m).draws.map (Draw.retire twin draw) } } := by
  have hnone : ((drainPixels s.cfg s.m).pix.any fun p => p.twin == twin && p.draw == draw && !((drainPixels s.cfg s.m).vf p.vf).away) = false := by
    rw [List.any_eq_false]
    intro p hp hout
    simp only [Bool.and_eq_true, beq_iff_eq, Bool.not_eq_true'] at hout
    obtain ⟨⟨ht, hn⟩, hhere⟩ := hout
    rw [h p hp ht hn] at hhere
    cases hhere
  show execDrawRetire twin draw s = _
  simp only [execDrawRetire, onMach, hnone, Bool.false_eq_true, if_false]
  rfl

/-! ### The moderated HOSTQ interrupt -/

theorem or_ofNat_two_pow {w : Nat} {x : BitVec w} {b : Nat} (h : x.getLsbD b = true) : x ||| BitVec.ofNat w (2 ^ b) = x := by
  ext i hi
  rw [BitVec.getElem_or, ← BitVec.getLsbD_eq_getElem hi, ← BitVec.getLsbD_eq_getElem hi, BitVec.getLsbD_ofNat, Nat.testBit_two_pow]
  rcases eq_or_ne b i with rfl | hne
  · rw [h, Bool.true_or]
  · simp [hne]

/-- An interrupt leaves the registers of its function but for CAUSE, or is kept while the partition is not loaded (R314, R321). -/
theorem raise_vf_self (m : Mach) (v b : Nat) : (m.raise v b).vf v =
    if (m.vf v).away then { m.vf v with kept := (m.vf v).kept ++ [b] } else { m.vf v with cause := (m.vf v).cause ||| BitVec.ofNat 10 (2 ^ b) } := by
  have hset {n : Mach} (hn : n.vfs = (m.onVf v fun r => { r with cause := r.cause ||| BitVec.ofNat 10 (2 ^ b) }).vfs) :
      n.vf v = { m.vf v with cause := (m.vf v).cause ||| BitVec.ofNat 10 (2 ^ b) } := by
    rw [Mach.vf, hn]
    exact vf_onVf m v _
  unfold Mach.raise
  dsimp only
  split
  · exact vf_onVf m v _
  · split
    · next hc => rw [or_ofNat_two_pow hc]
    · split
      · exact hset rfl
      · split
        · exact hset rfl
        · split
          · exact hset (raisePf_vfs ..)
          · exact hset rfl

theorem hostqModerationExpiry_raises {s : State} {vf : Nat} (hheld : (s.m.vf vf).hqHeld = true)
    (hdue : (s.m.vf vf).hqLast - 1 + (s.m.vf vf).hqmod * 1000000 ≤ s.m.etime) :
    exec (.hostqModerationExpiry vf) s
      = .next { s with m := (s.m.onVf vf fun r => { r with hqLast := s.m.etime + 1, hqHeld := false }).raise vf 5 } := by
  show execHostqModerationExpiry vf s = _
  simp only [execHostqModerationExpiry, onMach, hheld, Mach.hostq, hdue, or_true, if_true]

/-- Settles O44, one node at a time; the gate's reading of a gated record is log entry 20, the engine of a COPY node log entry 37. -/
theorem fixedFunctionNodesServeRecords : Obligations.FixedFunctionNodesServeRecords := by
  refine ⟨fun s vf leaf node b n h i no sum hg hpass => ?_, fun s vf leaf node b n h no sum hg hdrop => ?_,
    fun s vf leaf node b n h twin m' => raster_emits, fun s vf leaf node b n h => raster_malformed,
    fun s vf leaf node b n h ws m' m'' => traverse_emits, fun s vf leaf node b n h => traverse_malformed,
    fun s vf leaf node b n h => classify_stale, fun s vf leaf node b n h ws x m' eb r => classify_emits,
    fun s vf leaf node b n h => net_malformed, fun s vf leaf node b n h ws x y pad ls m' m'' eb eb' out => net_writes,
    fun s vf leaf node b n h m' eb p hc hwork hp => ⟨_, copyNode_ends hc hwork hp, rfl⟩, fun s twin draw hquiet => ⟨_, drawRetire_quiet hquiet, fun d hd => ?_⟩,
    fun s vf hheld hdue => ⟨_, hostqModerationExpiry_raises hheld hdue, ?_⟩⟩
  · rw [gate_judges hg, if_pos hpass]
  · rw [gate_judges hg, hdrop, if_neg Bool.false_ne_true, if_pos rfl]
  · obtain ⟨x, -, rfl⟩ := List.mem_map.1 hd
    exact Draw.retire_retired
  · rw [raise_vf_self, vf_onVf]
    split
    · next haway => exact ⟨rfl, rfl, fun hhere => absurd (hhere.symm.trans haway) Bool.false_ne_true⟩
    · exact ⟨rfl, rfl, fun _ => by simp⟩

end Sys2Proof.Machine
end

section
/-! PROOFS. Surfaces and the pipeline (12): the Rake spills and refills (R274, R277), freed surfaces go (R278), the registers of the surface table (17 R326, R327)
and host allocations (R327). -/

namespace Sys2Proof.Machine

/-! ### The Rake -/

section
variable {s : State} {vf idx sq block : Nat} {x : Surf}

theorem rakeSpill_begins (hx : s.m.surfAt vf idx = some x) (hnone : x.squareBlocks sq 2 = []) (hwanted : rakeSpillWanted s.cfg s.m vf idx sq = true)
    (htouch : touchBlocks s.cfg x (x.squareBlocks sq 0) true s.m = (s.m, .ready)) :
    exec (.rakeSpill vf idx sq) s = .next { s with m := beginSpill s.cfg x sq s.m } := by
  show execRakeSpill vf idx sq s = _
  simp only [execRakeSpill, onMach, hx, hnone, List.isEmpty_nil, hwanted, htouch, whenReady, Bool.not_true, Bool.false_eq_true, if_false, if_true]

theorem rakeSpill_ends (hx : s.m.surfAt vf idx = some x) (hsome : x.squareBlocks sq 2 ≠ []) (hruns : s.m.rakeRuns vf = true)
    (htouch : touchBlocks s.cfg x (x.squareBlocks sq 2) true s.m = (s.m, .ready)) :
    exec (.rakeSpill vf idx sq) s = .next { s with m := finishSpill s.cfg x sq s.m } := by
  show execRakeSpill vf idx sq s = _
  simp only [execRakeSpill, onMach, hx, List.isEmpty_eq_false_iff.2 hsome, hruns, htouch, whenReady, Bool.not_false, if_true]

theorem rakeRefill_begins {m' : Mach} (h : RefillDue s vf idx block x) (hr : beginRefill s.cfg s.m x block = .wait m') :
    exec (.rakeRefill vf idx block) s = .next { s with m := m' } := by
  obtain ⟨hx, hspilled, hwanted⟩ := h
  show execRakeRefill vf idx block s = _
  simp only [execRakeRefill, onMach, hx, hspilled, hwanted, hr, and_self, if_true, OfNat.one_ne_ofNat, if_false]

theorem rakeRefill_corrupt (h : RefillDue s vf idx block x) (hr : beginRefill s.cfg s.m x block = .corrupt) :
    exec (.rakeRefill vf idx block) s = .next { s with m := corruptBlock vf idx block s.m } := by
  obtain ⟨hx, hspilled, hwanted⟩ := h
  show execRakeRefill vf idx block s = _
  simp only [execRakeRefill, onMach, hx, hspilled, hwanted, hr, and_self, if_true, OfNat.one_ne_ofNat, if_false]

theorem rakeRefill_ends (hx : s.m.surfAt vf idx = some x) (hst : x.blockState block = 3) (hruns : s.m.rakeRuns vf = true)
    (htouch : touchBlocks s.cfg x [block] false s.m = (s.m, .ready)) :
    exec (.rakeRefill vf idx block) s = .next { s with m := drainPixels s.cfg (finishRefill s.cfg s.m x block) } := by
  show execRakeRefill vf idx block s = _
  simp only [execRakeRefill, onMach, hx, hst, hruns, htouch, whenReady, if_true]

end

/-! ### Freed surfaces -/

theorem putEntry_walkStep (cfg : Cfg) (x : Surf) (res : Nat) (m : Mach) : m.WalkStep (putEntry cfg x res m) := by
  unfold putEntry
  dsimp only
  repeat refine Mach.WalkStep.trans ?_ (.writeVa ..)
  exact .refl m

/-- A surface that is discarded leaves the table of its function. -/
theorem discardSurface_surfAt (cfg : Cfg) (m : Mach) {x : Surf} {vf idx : Nat} (hvf : x.vf = vf) (hidx : x.idx = idx) :
    (discardSurface cfg x m).surfAt vf idx = none := by
  subst hvf hidx
  have hsurfs : (discardSurface cfg x m).surfs = m.surfs.filter fun y => !(y.vf == x.vf && y.idx == x.idx) := by
    unfold discardSurface
    dsimp only
    rw [putEntry_walkStep]
    rfl
  rw [Mach.surfAt, hsurfs, List.find?_eq_none]
  intro y hy
  simpa only [Bool.not_eq_true', Bool.not_eq_true] using (List.mem_filter.1 hy).2

theorem surfAt_names {m : Mach} {vf idx : Nat} {x : Surf} (h : m.surfAt vf idx = some x) : x.vf = vf ∧ x.idx = idx := by
  simpa using List.find?_some h

theorem surfaceDiscard_free {s : State} {vf idx : Nat} {x : Surf} (hx : s.m.surfAt vf idx = some x) (hst : x.st = 2) (hidle : s.m.surfBusy x = false)
    (htouch : touchEntry s.cfg vf idx s.m = (s.m, .ready)) :
    exec (.surfaceDiscard vf idx) s = .next { s with m := discardSurface s.cfg x s.m } := by
  show execSurfaceDiscard vf idx s = _
  simp only [execSurfaceDiscard, onMach, hx, hst, hidle, and_self, if_true, htouch, whenReady]

/-! ### The registers of the surface table -/

section
variable {s : State} {vf : Nat}

/-- A register write of a function that is ready, in a partition that is loaded, takes effect (R314, R328). -/
theorem vfMach_open (h : Open s vf) (i : Instr) (f : Cfg → Mach → Mach) : vfMach vf i f s = .next { s with m := f s.cfg s.m } := by
  obtain ⟨hready, hhere⟩ := h
  simp only [vfMach, vfWrite, hready, hhere, Bool.not_true, Bool.false_eq_true, if_false]

/-- Setting the surface table changes no register, and leaves the function no TAG other than 1 (R327). -/
theorem tagTable_keeps (cfg : Cfg) (vf : Nat) (m : Mach) :
    (tagTable cfg vf m).vfs = m.vfs ∧ (tagTable cfg vf m).tags = m.tags.filter fun e => e.1 / 65536 != vf := by
  unfold tagTable
  dsimp only
  split
  · exact ⟨rfl, rfl⟩
  · refine foldl_keeps (fun n => n.vfs = m.vfs ∧ n.tags = m.tags.filter fun e => e.1 / 65536 != vf) ⟨rfl, rfl⟩ fun n i hn => ?_
    rw [Mach.WalkStep.writeVa cfg vf]
    exact hn

theorem tagTable_vf (cfg : Cfg) (vf : Nat) (m : Mach) (w : Nat) : (tagTable cfg vf m).vf w = m.vf w := by rw [Mach.vf, (tagTable_keeps cfg vf m).1]; rfl

theorem tagTable_tags {cfg : Cfg} {m : Mach} : ∀ e ∈ (tagTable cfg vf m).tags, e.1 / 65536 ≠ vf := by
  rw [(tagTable_keeps cfg vf m).2]
  intro e he
  simpa using (List.mem_filter.1 he).2

theorem surftabWrite_sets (h : Open s vf) (hfree : s.m.liveSurf vf = false) (addr : Nat) :
    exec (.surftabWrite vf addr) s = .next { s with m := tagTable s.cfg vf (s.m.onVf vf fun r => { r with surftab := addr / 4096 * 4096 }) } := by
  show execSurftabWrite vf addr s = _
  simp only [execSurftabWrite, vfMach_open h, hfree, Bool.false_eq_true, if_false]

theorem surfcntWrite_sets {value : Nat} (h : Open s vf) (hfree : s.m.liveSurf vf = false) (hlo : 4 ≤ bitsOf value 0 5) (hhi : bitsOf value 0 5 ≤ 16) :
    exec (.surfcntWrite vf value) s = .next { s with m := tagTable s.cfg vf (s.m.onVf vf fun r => { r with surfcnt := 2 ^ bitsOf value 0 5 }) } := by
  show execSurfcntWrite vf value s = _
  simp only [execSurfcntWrite, vfMach_open h, Nat.not_lt.2 hlo, Nat.not_lt.2 hhi, or_self, hfree, Bool.false_eq_true, if_false]

theorem surfcntWrite_ignored {value : Nat} (h : Open s vf) (hout : bitsOf value 0 5 < 4 ∨ 16 < bitsOf value 0 5) :
    exec (.surfcntWrite vf value) s = .next s := by
  show execSurfcntWrite vf value s = _
  simp only [execSurfcntWrite, vfMach_open h, if_pos hout]

theorem ressizeWrite_open (h : Open s vf) (size : Nat) :
    exec (.ressizeWrite vf size) s = .next { s with
      m := if size / 2 ^ 21 * 2 ^ 21 < ((s.m.vf vf).resused.map (·.2)).sum then s.m.raise vf 0
        else s.m.onVf vf fun r => { r with ressize := size / 2 ^ 21 * 2 ^ 21 } } := by
  show execRessizeWrite vf size s = _
  simp only [execRessizeWrite, vfMach_open h]

/-! ### Host allocations -/

theorem hsctlGo_begins (h : Open s vf) (hidle : (s.m.vf vf).hsstatus ≠ 1) :
    exec (.hsctlGo vf) s = .next { s with m := s.m.onVf vf fun r => { r with hsstatus := 1 } } := by
  show execHsctlGo vf s = _
  simp only [execHsctlGo, vfMach_open h, if_neg hidle]

theorem hostAllocation_succeeds {twin : Nat} {m' : Mach} {h : Word} (hbusy : (s.m.vf vf).hsstatus = 1) (hhere : (s.m.vf vf).away = false)
    (hgood : (hostDesc s vf).bad = false) (htree : (regionPath s.cfg vf s.m treeDepth (s.m.vf vf).hsrcb).contains (s.m.vf vf).root = true)
    (htwin : descTwin s.cfg vf none (hostDesc s vf) = some twin) (hturn : s.m.allocTurn twin (hostReq vf) = true)
    (halloc : allocSurface s.cfg vf (s.m.vf vf).hsrcb (hostDesc s vf).layers (hostDesc s vf).fmt (hostDesc s vf).height (hostDesc s vf).width twin
      (hostDesc s vf).seed s.m = .ok m' h) :
    exec (.hostAllocationDone vf) s
      = .next { s with m := ((m'.allocDone (hostReq vf)).onVf vf fun r => { r with hshandle := h, hsstatus := 2 }).raise vf 8 } := by
  unfold hostDesc at hgood htwin halloc
  show execHostAllocationDone vf s = _
  simp only [execHostAllocationDone, onMach, hbusy, hhere, hgood, htree, htwin, hturn, halloc, ne_eq, not_true, Bool.not_true, Bool.or_self, Bool.false_eq_true,
    or_self, if_false]

theorem hostAllocation_malformed (hbusy : (s.m.vf vf).hsstatus = 1) (hhere : (s.m.vf vf).away = false) (hbad : (hostDesc s vf).bad = true) :
    exec (.hostAllocationDone vf) s
      = .next { s with m := ((s.m.allocDone (hostReq vf)).onVf vf fun r => { r with hshandle := 0, hsstatus := 3 }).raise vf 8 } := by
  unfold hostDesc at hbad
  show execHostAllocationDone vf s = _
  simp only [execHostAllocationDone, onMach, hbusy, hhere, hbad, ne_eq, not_true, Bool.true_or, Bool.false_eq_true, or_self, if_false, if_true]

end

/-- Settles O45, one event at a time; the dropped low bits of SURFTAB and RESSIZE are log entry 23, the end of a malformed host allocation log entry 25. -/
theorem surfacesSpillRefillAndGo : Obligations.SurfacesSpillRefillAndGo := by
  refine ⟨fun s vf idx sq x => rakeSpill_begins, fun s vf idx sq x => rakeSpill_ends, fun s vf idx block x m' => rakeRefill_begins,
    fun s vf idx block x => rakeRefill_ends, fun s vf idx block x => rakeRefill_corrupt, fun s vf idx x hx hst hidle htouch => ?_,
    fun s vf addr ho hfree => ⟨_, surftabWrite_sets ho hfree addr, ?_, tagTable_tags⟩,
    fun s vf value ho hfree hlo hhi => ⟨_, surfcntWrite_sets ho hfree hlo hhi, ?_, tagTable_tags⟩, fun s vf value => surfcntWrite_ignored,
    fun s vf size ho hfits => ?_, fun s vf size ho hshort => ?_, fun s vf => hsctlGo_begins, fun s vf twin m' h => hostAllocation_succeeds,
    fun s vf => hostAllocation_malformed⟩
  · obtain ⟨hvf, hidx⟩ := surfAt_names hx
    have hexec := surfaceDiscard_free hx hst hidle htouch
    have hgone := discardSurface_surfAt s.cfg s.m hvf hidx
    generalize discardSurface s.cfg x s.m = m' at hexec hgone ⊢
    exact ⟨_, hexec, rfl, hgone⟩
  · rw [tagTable_vf, vf_onVf]
  · rw [tagTable_vf, vf_onVf]
  · rw [ressizeWrite_open ho, if_neg (Nat.not_lt.2 hfits)]
  · rw [ressizeWrite_open ho, if_pos hshort]

end Sys2Proof.Machine
end

section
/-! PROOFS. Power (13): what a current step does to the reservations of a cluster (R295, R299, R300), the heat buckets of an engine (R299), the release of idle
issue units (R293), the power registers (R348, R358, R359) and telemetry snapshots (R349). -/

namespace Sys2Proof.Machine

/-! ### Reservations -/

/-- A reservation that is set reads back, and the others of its core are as they were. -/
theorem Core.cu_setCu (c : Core) (n : Nat) {r q : Nat} (hr : r < 5) (hq : q < 5) : (c.setCu r n).cu q = if q = r then n else c.cu q := by
  interval_cases r <;> interval_cases q <;> rfl

theorem clusterOrder_requester {k : Nat} {x : Nat × Nat} (h : x ∈ clusterOrder k) : x.2 < 5 := by
  simp only [clusterOrder, requesters, List.mem_flatMap, List.mem_map] at h
  obtain ⟨_, _, r, hr, rfl⟩ := h
  have hall : ∀ r ∈ [0, 1, 2, 3, 4], r < 5 := by decide
  exact hall r hr

/-- The order of R296 names every requester of a cluster once. -/
theorem clusterOrder_nodup (k : Nat) : (clusterOrder k).Nodup := by
  have hshift : clusterOrder k = (clusterOrder 0).map fun x => (4 * k + x.1, x.2) := rfl
  rw [hshift]
  exact List.Nodup.map (fun x y h => by simpa [Prod.ext_iff] using h) (by decide)

/-- A move shows in the reservation that moves alone. -/
theorem cu_moveCu (m : Mach) (col n : Nat) {x y : Nat × Nat} (hx : x.2 < 5) (hy : y.2 < 5) :
    ((moveCu m col x n).core col y.1).cu y.2 = if y = x then n else (m.core col y.1).cu y.2 := by
  rw [moveCu, core_onCore_eq]
  by_cases hcore : x.1 = y.1
  · rw [if_pos (by rw [hcore]), Core.cu_setCu _ _ hx hy]
    simp only [Prod.ext_iff, hcore, true_and]
  · rw [if_neg (by omega), if_neg fun h => hcore (congrArg Prod.fst h).symm]

/-- A move changes the sum of its cluster by as much as it changes the reservation. -/
theorem clusterTotal_moveCu (m : Mach) (col n : Nat) {k : Nat} {x : Nat × Nat} (hx : x ∈ clusterOrder k) :
    clusterTotal (moveCu m col x n) col k + (m.core col x.1).cu x.2 = clusterTotal m col k + n := by
  have hx5 := clusterOrder_requester hx
  have hself : ((moveCu m col x n).core col x.1).cu x.2 = n := (cu_moveCu m col n hx5 hx5).trans (if_pos rfl)
  obtain ⟨before, after, hsplit⟩ := List.append_of_mem hx
  have hnodup := clusterOrder_nodup k
  rw [hsplit, List.nodup_middle] at hnodup
  have hrest {l : List (Nat × Nat)} (hl : ∀ y ∈ l, y ∈ before ++ after) :
      l.map (fun y => ((moveCu m col x n).core col y.1).cu y.2) = l.map fun y => (m.core col y.1).cu y.2 := by
    refine List.map_congr_left fun y hy => ?_
    have horder : y ∈ clusterOrder k := by
      rw [hsplit]
      exact List.perm_middle.mem_iff.2 (List.mem_cons_of_mem x (hl y hy))
    rw [cu_moveCu m col n hx5 (clusterOrder_requester horder), if_neg (by rintro rfl; exact hnodup.notMem (hl y hy))]
  rw [clusterTotal, clusterTotal, hsplit]
  simp only [List.map_append, List.map_cons, List.sum_append, List.sum_cons, hself, hrest fun _ => List.mem_append_left after,
    hrest fun _ => List.mem_append_right before]
  omega

/-! ### The arbiter -/

/-- From `m` to `n` the clusters' registers are as they were, and the cluster draws no more than `cap`, or than before. -/
structure Mach.DrawsWithin (m n : Mach) (col k cap : Nat) : Prop where
  clusters : n.clusters = m.clusters
  total : clusterTotal n col k ≤ max cap (clusterTotal m col k)

namespace Mach.DrawsWithin

variable {m n o : Mach} {col k cap : Nat} {x : Nat × Nat}

theorem refl (m : Mach) (col k cap : Nat) : m.DrawsWithin m col k cap := ⟨rfl, Nat.le_max_right _ _⟩

theorem trans (h : m.DrawsWithin n col k cap) (h' : n.DrawsWithin o col k cap) : m.DrawsWithin o col k cap where
  clusters := h'.clusters.trans h.clusters
  total := h'.total.trans (max_le (Nat.le_max_left _ _) h.total)

theorem lower (m : Mach) (hx : x ∈ clusterOrder k) (d : Nat) : m.DrawsWithin (moveCu m col x ((m.core col x.1).cu x.2 - d)) col k cap where
  clusters := rfl
  total := by have := clusterTotal_moveCu m col ((m.core col x.1).cu x.2 - d) hx; omega

theorem raise {d : Nat} (hx : x ∈ clusterOrder k) (hfits : clusterTotal m col k + d ≤ cap) :
    m.DrawsWithin (moveCu m col x ((m.core col x.1).cu x.2 + d)) col k cap where
  clusters := rfl
  total := by have := clusterTotal_moveCu m col ((m.core col x.1).cu x.2 + d) hx; omega

theorem fallPass {xs : List (Nat × Nat)} (hxs : ∀ x ∈ xs, x ∈ clusterOrder k) (m : Mach) (fall : Nat) (moved : List (Nat × Nat)) :
    m.DrawsWithin (fallPass col xs m fall moved).1 col k cap := by
  induction xs generalizing m fall moved with
  | nil => exact refl m _ _ _
  | cons x xs ih =>
    obtain ⟨hx, hxs⟩ := List.forall_mem_cons.1 hxs
    rw [Machine.fallPass]
    split
    · exact (lower m hx _).trans (ih hxs _ _ _)
    · exact ih hxs _ _ _

theorem forcePass {xs : List (Nat × Nat)} (hxs : ∀ x ∈ xs, x ∈ clusterOrder k) (m : Mach) (fall : Nat) (moved : List (Nat × Nat)) :
    m.DrawsWithin (forcePass col k cap xs m fall moved).1 col k cap := by
  induction xs generalizing m fall moved with
  | nil => exact refl m _ _ _
  | cons x xs ih =>
    obtain ⟨hx, hxs⟩ := List.forall_mem_cons.1 hxs
    rw [Machine.forcePass]
    split_ifs
    · exact refl m _ _ _
    · exact ih hxs _ _ _
    · exact (lower m hx _).trans (ih hxs _ _ _)
    · exact refl m _ _ _

theorem risePass {fall : Nat} {moved xs : List (Nat × Nat)} (hxs : ∀ x ∈ xs, x ∈ clusterOrder k) (m : Mach) (rise : Nat) :
    m.DrawsWithin (risePass col k cap fall moved xs m rise) col k cap := by
  induction xs generalizing m rise with
  | nil => exact refl m _ _ _
  | cons x xs ih =>
    obtain ⟨hx, hxs⟩ := List.forall_mem_cons.1 hxs
    rw [Machine.risePass]
    split_ifs with _ hstop
    · exact refl m _ _ _
    · simp only [not_or, Nat.not_lt] at hstop
      exact (raise hx hstop.2.2).trans (ih hxs _ _)
    · exact ih hxs _ _

/-- The arbiter draws no cluster above its CAP, or what it drew (R295, R300). -/
theorem arbitrate (col k : Nat) (m : Mach) : m.DrawsWithin (arbitrate col k m) col k (m.cluster col k).cap := by
  have hengines : ∀ x ∈ ((clusterOrder k).filter fun x => x.2 == 4).reverse, x ∈ clusterOrder k := fun x hx =>
    (List.mem_filter.1 (List.mem_reverse.1 hx)).1
  unfold Machine.arbitrate
  dsimp only
  exact ((fallPass (fun _ h => h) m 0 []).trans (forcePass hengines _ _ _)).trans (risePass (fun _ h => h) _ _)

end Mach.DrawsWithin

/-- The machine at a step boundary when the arbiter acts: the REFILL that firmware asked for is in force, at most REFMAX (R299, R359). -/
def boundaryBegun (refmax col k : Nat) (m : Mach) : Mach :=
  let m := m.onCluster col k fun c => { c with refill := min refmax c.refillNext }
  if (m.cluster col k).cap < 352 then m.count col 6 else m

theorem stepBoundary_eq (refmax col k : Nat) (m : Mach) : stepBoundary refmax col k m = arbitrate col k (boundaryBegun refmax col k m) := rfl

theorem boundaryBegun_cluster (refmax col k : Nat) (m : Mach) :
    (boundaryBegun refmax col k m).cluster col k = { m.cluster col k with refill := min refmax (m.cluster col k).refillNext } := by
  have hset := cluster_onCluster m col k fun c => { c with refill := min refmax c.refillNext }
  unfold boundaryBegun
  dsimp only
  split
  · exact hset
  · exact hset

theorem boundaryBegun_total (refmax col k : Nat) (m : Mach) : clusterTotal (boundaryBegun refmax col k m) col k = clusterTotal m col k := by
  unfold boundaryBegun
  dsimp only
  split <;> rfl

theorem stepBoundary_cluster (refmax col k : Nat) (m : Mach) :
    (stepBoundary refmax col k m).cluster col k = { m.cluster col k with refill := min refmax (m.cluster col k).refillNext } := by
  rw [stepBoundary_eq, Mach.cluster, (Mach.DrawsWithin.arbitrate col k _).clusters, ← Mach.cluster, boundaryBegun_cluster]

theorem stepBoundary_total_le (refmax col k : Nat) (m : Mach) :
    clusterTotal (stepBoundary refmax col k m) col k ≤ max (m.cluster col k).cap (clusterTotal m col k) := by
  have hdraws := (Mach.DrawsWithin.arbitrate col k (boundaryBegun refmax col k m)).total
  rwa [boundaryBegun_cluster, boundaryBegun_total] at hdraws

/-! ### Matrix cycles -/

/-- From `m` to `n` no reservation has moved, and the clusters' registers are as they were. -/
structure Mach.SameDraw (m n : Mach) : Prop where
  clusters : n.clusters = m.clusters
  cu : ∀ col c r, (n.core col c).cu r = (m.core col c).cu r

namespace Mach.SameDraw

variable {m n o : Mach}

theorem refl (m : Mach) : m.SameDraw m := ⟨rfl, fun _ _ _ => rfl⟩

theorem trans (h : m.SameDraw n) (h' : n.SameDraw o) : m.SameDraw o where
  clusters := h'.clusters.trans h.clusters
  cu col c r := (h'.cu col c r).trans (h.cu col c r)

theorem cluster (h : m.SameDraw n) (col k : Nat) : n.cluster col k = m.cluster col k := by rw [Mach.cluster, h.clusters, ← Mach.cluster]

theorem total (h : m.SameDraw n) (col k : Nat) : clusterTotal n col k = clusterTotal m col k := by simp only [clusterTotal, h.cu]

theorem setCore (m : Mach) (col c : Nat) {x : Core} (hx : x.cu = (m.core col c).cu) : m.SameDraw (m.setCore col c x) where
  clusters := rfl
  cu a b r := by
    show ((m.onCore col c fun _ => x).core a b).cu r = _
    rw [core_onCore_eq]
    split
    · next e => simp only [hx, Mach.core, e]
    · rfl

theorem count (h : m.SameDraw n) (col i : Nat) : m.SameDraw (n.count col i) := ⟨h.clusters, h.cu⟩

theorem idleCycle (m : Mach) (col c : Nat) : m.SameDraw (idleCycle m col c) := setCore m col c rfl

theorem engineCycle (col c refill : Nat) (m : Mach) : m.SameDraw (engineCycle col c refill m) := by
  unfold Machine.engineCycle
  dsimp only
  split_ifs
  · exact setCore m col c rfl
  · exact setCore m col c rfl
  · exact setCore m col c rfl
  · refine count ?_ col 5
    exact setCore m col c rfl

theorem foldl {f : Mach → Nat → Mach} (h : ∀ (m : Mach) c, m.SameDraw (f m c)) (xs : List Nat) (m : Mach) : m.SameDraw (xs.foldl f m) :=
  foldl_keeps m.SameDraw (refl m) fun n c hn => hn.trans (h n c)

end Mach.SameDraw

/-- The machine of a current step once the step boundary is over, if there is one. -/
def boundaryOver (refmax col k : Nat) (m : Mach) : Mach :=
  if (m.cluster col k).phase = 0 then stepBoundary refmax col k m else m

theorem boundaryOver_cluster (refmax col k : Nat) (m : Mach) :
    (boundaryOver refmax col k m).cluster col k
      = { m.cluster col k with refill := if (m.cluster col k).phase = 0 then min refmax (m.cluster col k).refillNext else (m.cluster col k).refill } := by
  unfold boundaryOver
  split
  · exact stepBoundary_cluster refmax col k m
  · rfl

theorem boundaryOver_total_le (refmax col k : Nat) (m : Mach) :
    clusterTotal (boundaryOver refmax col k m) col k ≤ max (m.cluster col k).cap (clusterTotal m col k) := by
  unfold boundaryOver
  split
  · exact stepBoundary_total_le refmax col k m
  · exact Nat.le_max_right _ _

/-- A current step is a matrix cycle before and after the step boundary, if there is one, and the cluster goes on to the next place of four. -/
theorem currentStep_around_boundary (refmax col k : Nat) (m : Mach) :
    ∃ m₁ m₂, m.SameDraw m₁ ∧ (boundaryOver refmax col k m₁).SameDraw m₂
      ∧ currentStep refmax col k m = m₂.onCluster col k fun c => { c with phase := (c.phase + 1) % 4 } :=
  ⟨_, _, .foldl (fun m c => .idleCycle m col c) (clusterCores k) m, .foldl (fun m c => .engineCycle col c _ m) (clusterCores k) _, rfl⟩

theorem currentStep_cluster (refmax col k : Nat) (m : Mach) :
    (currentStep refmax col k m).cluster col k = { m.cluster col k with
      phase := ((m.cluster col k).phase + 1) % 4
      refill := if (m.cluster col k).phase = 0 then min refmax (m.cluster col k).refillNext else (m.cluster col k).refill } := by
  obtain ⟨m₁, m₂, hidle, hwork, hstep⟩ := currentStep_around_boundary refmax col k m
  rw [hstep, cluster_onCluster, hwork.cluster, boundaryOver_cluster, hidle.cluster]

theorem currentStep_total_le (refmax col k : Nat) (m : Mach) :
    clusterTotal (currentStep refmax col k m) col k ≤ max (m.cluster col k).cap (clusterTotal m col k) := by
  obtain ⟨m₁, m₂, hidle, hwork, hstep⟩ := currentStep_around_boundary refmax col k m
  calc clusterTotal (currentStep refmax col k m) col k
      = clusterTotal m₂ col k := by rw [hstep]; rfl
    _ = clusterTotal (boundaryOver refmax col k m₁) col k := hwork.total col k
    _ ≤ max (m₁.cluster col k).cap (clusterTotal m₁ col k) := boundaryOver_total_le refmax col k m₁
    _ = max (m.cluster col k).cap (clusterTotal m col k) := by rw [hidle.cluster, hidle.total]

/-- Within a step no reservation moves (R295). -/
theorem currentStep_total_within {refmax col k : Nat} {m : Mach} (h : (m.cluster col k).phase ≠ 0) :
    clusterTotal (currentStep refmax col k m) col k = clusterTotal m col k := by
  obtain ⟨m₁, m₂, hidle, hwork, hstep⟩ := currentStep_around_boundary refmax col k m
  rw [boundaryOver, if_neg (by rwa [hidle.cluster])] at hwork
  calc clusterTotal (currentStep refmax col k m) col k
      = clusterTotal m₂ col k := by rw [hstep]; rfl
    _ = clusterTotal m col k := (hidle.trans hwork).total col k

/-! ### Heat -/

/-- A map of any values that is set key by key holds the value set at each of those keys. -/
theorem SMap.get_set_foldl {α : Type} [DecidableEq α] (d : α) (h : Nat → α) (xs : List Nat) (t : SMap α) (k : Nat) :
    SMap.get d (xs.foldl (fun t x => SMap.set d t x (h x)) t) k = if k ∈ xs then h k else SMap.get d t k := by
  induction xs generalizing t with
  | nil => rfl
  | cons x xs ih =>
    rw [List.foldl_cons, ih]
    by_cases hk : k = x
    · subst hk
      simp only [SMap.get_set_self, ite_self, List.mem_cons_self, if_true]
    · simp only [SMap.get_set_ne d t (h x) (Ne.symm hk), List.mem_cons, hk, false_or]

theorem heatCycle_get (spent : SMap Nat) (width refill : Nat) {i : Nat} (hi : i < 64) :
    SMap.get 0 (heatCycle spent width refill) i = SMap.get 0 spent i + (if i < width then 64 else 0) - refill := by
  rw [heatCycle, SMap.get_set_foldl 0 fun i => SMap.get 0 spent i + (if i < width then 64 else 0) - refill, if_pos (List.mem_range.2 hi)]

theorem coolEnough_iff {spent : SMap Nat} {width : Nat} : coolEnough spent width = true ↔ ∀ i < width, SMap.get 0 spent i + 64 ≤ 8192 := by
  simp only [coolEnough, List.all_eq_true, List.mem_range, decide_eq_true_eq]

/-- A bucket never lacks more than its 8,192 tokens: columns spend only where each active one holds 64 (R299). -/
theorem heatCycle_le {spent : SMap Nat} {width : Nat} (refill : Nat) (hfull : ∀ i < 64, SMap.get 0 spent i ≤ 8192)
    (hcool : width = 0 ∨ coolEnough spent width = true) {i : Nat} (hi : i < 64) : SMap.get 0 (heatCycle spent width refill) i ≤ 8192 := by
  have hspend : SMap.get 0 spent i + (if i < width then 64 else 0) ≤ 8192 := by
    split
    · next hw =>
      rcases hcool with rfl | hcool
      · omega
      · exact coolEnough_iff.1 hcool i hw
    · exact hfull i hi
  rw [heatCycle_get _ _ _ hi]
  exact (Nat.sub_le _ _).trans hspend

/-! ### Issue units and power registers -/

theorem issueUnitIdleRelease_unit0 {s : State} {col core : Nat} (hfree : gangsIn s.m col core 0 = false) (hidle : 64 ≤ (s.m.core col core).idle0)
    (hholds : (s.m.core col core).unit0 ≠ 0) :
    exec (.issueUnitIdleRelease col core 0) s = .next { s with m := s.m.onCore col core fun c => { c with lower0 := true } } := by
  have hasks : ((s.m.core col core).unit0 != 0) = true := bne_iff_ne.2 hholds
  show execIssueUnitIdleRelease col core 0 s = _
  simp [execIssueUnitIdleRelease, onMach, hfree, Mach.onCore, hidle, hasks]

theorem issueUnitIdleRelease_unit1 {s : State} {col core : Nat} (hfree : gangsIn s.m col core 1 = false) (hidle : 64 ≤ (s.m.core col core).idle1)
    (hholds : (s.m.core col core).unit1 ≠ 0) :
    exec (.issueUnitIdleRelease col core 1) s = .next { s with m := s.m.onCore col core fun c => { c with lower1 := true } } := by
  have hasks : ((s.m.core col core).unit1 != 0) = true := bne_iff_ne.2 hholds
  show execIssueUnitIdleRelease col core 1 s = _
  simp [execIssueUnitIdleRelease, onMach, hfree, Mach.onCore, hidle, hasks]

theorem capChange_exec (s : State) (col k cap refill : Nat) :
    exec (.capChange col k cap refill) s = .next { s with
      m := if cap % 32 = 0 ∧ 160 ≤ cap ∧ cap ≤ 352 ∧ 32 ≤ refill ∧ refill ≤ 64 then
          s.m.onCluster col k fun c => { c with cap := cap, refillNext := refill }
        else s.m } := rfl

/-! ### Telemetry -/

theorem natBytes_length (v j n : Nat) : (natBytes v j n).length = n - j := by simp [natBytes]

theorem natBytes_succ (v n : Nat) : natBytes v 0 (n + 1) = BitVec.ofNat 8 v :: natBytes (v / 256) 0 n := by
  simp [natBytes, List.range_succ_eq_map, Nat.pow_succ', Nat.div_div_eq_div_mul]

/-- The bytes of a number, written as a list, are the number written (R5). -/
theorem writeList_natBytes (m : Mem) (a v n : Nat) : writeList m a (natBytes v 0 n) = writeN m a n v := by
  induction n generalizing m a v with
  | zero => rfl
  | succ n ih => rw [natBytes_succ, writeList, ih, writeN]

/-- A list written from `a` on leaves every byte before `a` and after the list as it was. -/
theorem byteAt_writeList_out (m : Mem) (a : Nat) (bs : List Byte) {b : Nat} (h : b < a ∨ a + bs.length ≤ b) : byteAt (writeList m a bs) b = byteAt m b := by
  induction bs generalizing m a with
  | nil => rfl
  | cons x bs ih =>
    rw [List.length_cons] at h
    rw [writeList, ih _ _ (by omega), byteAt_setByte_ne _ (by omega)]

theorem counterBytes_length (m : Mach) (col i : Nat) : (counterBytes m col i).length = 8 := natBytes_length _ _ _

/-- With the four bytes of SEQ before it, the body fills the 3,456 bytes of a snapshot. -/
theorem snapshotBytes_length (cfg : Cfg) (m : Mach) : (snapshotBytes cfg m).length = 3452 := by
  simp only [snapshotBytes, List.length_append, List.length_flatMap, counterBytes_length, natBytes_length, List.map_const',
    List.sum_replicate, List.length_range]
  rfl

@[simp] theorem hostBytes_free (m : Mach) (a : Nat) (bs : List Byte) : (hostBytes m a bs).free = m.free := rfl
@[simp] theorem hostBytes_hmem (m : Mach) (a : Nat) (bs : List Byte) : (hostBytes m a bs).hmem = writeList m.hmem a bs := rfl

/-- The machine once a snapshot's SEQ is odd, and once the snapshot is complete (R349). -/
def snapshotBegun (s : State) : Mach := hostBytes s.m s.fleet.telbase (natBytes (s.fleet.telseq + 1) 0 4)
def snapshotDone (s : State) : Mach :=
  hostBytes (hostBytes (snapshotBegun s) (s.fleet.telbase + 4) (snapshotBytes s.cfg (snapshotBegun s))) s.fleet.telbase
    (natBytes ((s.fleet.telseq + 2) % 2 ^ 32) 0 4)

theorem telemetrySnapshot_due {s : State} (hbase : s.fleet.telbase ≠ 0) (hper : s.fleet.telper ≠ 0) (hboot : s.fleet.booted = true)
    (hruns : s.fleet.halted = false) (hdue : s.fleet.telLast + s.fleet.telper * 1000000000 ≤ s.m.etime) :
    exec .telemetrySnapshot s = .next { s with
      m := { snapshotDone s with free := s.m.free + 65 }
      fleet := { s.fleet with telseq := (s.fleet.telseq + 2) % 2 ^ 32, telLast := s.m.etime } } := by
  show execTelemetrySnapshot s = _
  have hgo : ¬ (s.fleet.telbase = 0 ∨ s.fleet.telper = 0 ∨ (!s.fleet.booted) = true ∨ s.fleet.halted = true
      ∨ s.m.etime < s.fleet.telLast + s.fleet.telper * 1000000000) := by
    simp only [hbase, hper, hboot, hruns, false_or, Bool.not_true, Bool.false_eq_true]
    omega
  simp only [execTelemetrySnapshot, if_neg hgo, hostBytes_free, snapshotDone, snapshotBegun]

theorem snapshotDone_hmem (s : State) : (snapshotDone s).hmem
    = writeN (writeList (writeN s.m.hmem s.fleet.telbase 4 (s.fleet.telseq + 1)) (s.fleet.telbase + 4) (snapshotBytes s.cfg (snapshotBegun s)))
        s.fleet.telbase 4 ((s.fleet.telseq + 2) % 2 ^ 32) := by
  simp only [snapshotDone, hostBytes_hmem, writeList_natBytes]
  rw [snapshotBegun, hostBytes_hmem, writeList_natBytes]

theorem snapshotDone_seq (s : State) : readN (snapshotDone s).hmem s.fleet.telbase 4 = (s.fleet.telseq + 2) % 2 ^ 32 := by
  rw [snapshotDone_hmem, readN_writeN]
  exact Nat.mod_mod _ _

theorem snapshotDone_out (s : State) {a : Nat} (h : a < s.fleet.telbase ∨ s.fleet.telbase + 3456 ≤ a) :
    byteAt (snapshotDone s).hmem a = byteAt s.m.hmem a := by
  rw [snapshotDone_hmem, byteAt_writeN_out _ _ _ _ (by omega), byteAt_writeList_out _ _ _ (by rw [snapshotBytes_length]; omega),
    byteAt_writeN_out _ _ _ _ (by omega)]

/-- Settles O46: the arbiter's passes, then heat, the registers of power and the snapshot. -/
theorem powerStaysWithinItsLimits : Obligations.PowerStaysWithinItsLimits := by
  refine ⟨fun s col k => ⟨_, rfl, ?_, ?_, ?_, currentStep_total_within, currentStep_total_le _ _ _ _⟩,
    fun spent width refill hfull hcool i hi => ⟨heatCycle_le refill hfull hcool hi, heatCycle_get _ _ _ hi⟩,
    fun s col core => issueUnitIdleRelease_unit0, fun s col core => issueUnitIdleRelease_unit1,
    fun s col k cap refill hmul hlo hhi hrlo hrhi => ?_,
    fun s col k cap refill hbad => ?_, fun s value => rfl, fun s value => rfl,
    fun s hbase hper hboot hruns _ hdue =>
      ⟨_, telemetrySnapshot_due hbase hper hboot hruns hdue, rfl, snapshotDone_seq s, fun a => snapshotDone_out s⟩⟩
  · simp only [currentStep_cluster]
  · simp only [currentStep_cluster]
  · simp only [currentStep_cluster]
  · rw [capChange_exec, if_pos ⟨hmul, hlo, hhi, hrlo, hrhi⟩]
  · rw [capChange_exec, if_neg hbad]

end Sys2Proof.Machine
end

section
/-! PROOFS. The state after reset (01 R32, Table 01.10; 13 R299; 17 R314, R326; 19 Table 19.1). -/

namespace Sys2Proof.Machine

/-- Every partition is as after reset: not enabled, TSPLIT with SCR 1 and no other portion. -/
theorem reset_part (v : Nat) : State.reset.cfg.part v = {} := rfl

theorem reset_core (col c : Nat) : State.reset.m.core col c = {} := rfl

theorem reset_splitLegal : Part.splitLegal {} := ⟨⟨by decide, by decide⟩, fun _ _ _ h => by cases h⟩

/-- With no partition enabled, the configuration is legal where each TSPLIT is. -/
theorem reset_legal : State.reset.Legal := by
  refine ⟨fun v => ?_, by unfold Fleet.legal; decide⟩
  rw [reset_part]
  exact ⟨reset_splitLegal, fun h => by cases h⟩

/-- No requester of a core holds a reservation after reset. -/
theorem reset_cu (r : Nat) : Core.cu {} r = 0 := by
  unfold Core.cu
  split <;> rfl

/-- Settles O57: no memory lists a byte, no core holds or has spent anything, and every partition is as its definition gives it. -/
theorem resetHoldsItsStatedValues : Obligations.ResetHoldsItsStatedValues := by
  obtain ⟨hdevice, hhost, hwindows, htowers, hframes⟩ := reset_memWf
  refine ⟨reset_legal, fun v => ?_, rfl, rfl, fun col c i => ?_, hdevice, hhost, hwindows, htowers, hframes, fun a => rfl, fun tid pc e => ⟨rfl, rfl⟩⟩
  · rw [reset_part]
    exact ⟨rfl, rfl, rfl, rfl⟩
  · rw [reset_core]
    exact ⟨rfl, reset_cu i⟩

end Sys2Proof.Machine
end

section
/-! PROOFS. Legal configurations (17 R314, R326; 19 R348): which changes of a partition and of the fleet registers keep them legal. -/

namespace Sys2Proof.Machine

/-! ### Partitions -/

theorem Part.apart_symm {p q : Part} (h : p.apart q) : q.apart p := by
  obtain hand | ⟨hp, hq, htwins⟩ := h
  · exact .inl (Nat.and_comm _ _ ▸ hand)
  · exact .inr ⟨hq, hp, htwins.symm⟩

/-- A change of one partition keeps the configuration legal if the changed partition obeys the rules and is apart from the others. -/
theorem Cfg.legal_onPart {c : Cfg} {v : Nat} {f : Part → Part} (h : c.legal) (hsplit : (f (c.part v)).splitLegal)
    (hen : (f (c.part v)).en = true → 1 ≤ v ∧ v ≤ 63 ∧ twinCount (f (c.part v)).twins ∈ [1, 2, 3, 6]
      ∧ ∀ w, w ≠ v → (c.part w).en = true → (c.part w).apart (f (c.part v))) : (c.onPart v f).legal := by
  intro w
  by_cases hw : w = v
  · subst hw
    rw [part_onPart]
    refine ⟨hsplit, fun he => ?_⟩
    obtain ⟨hlo, hhi, hcount, hothers⟩ := hen he
    refine ⟨hlo, hhi, hcount, fun u hu heu => ?_⟩
    rw [part_onPart_ne c f (Ne.symm hu)] at heu ⊢
    exact hothers u hu heu
  · obtain ⟨hw1, hw2⟩ := h w
    rw [part_onPart_ne c f (Ne.symm hw)]
    refine ⟨hw1, fun he => ?_⟩
    obtain ⟨hlo, hhi, hcount, hothers⟩ := hw2 he
    refine ⟨hlo, hhi, hcount, fun u hu heu => ?_⟩
    by_cases huv : u = v
    · subst huv
      rw [part_onPart] at heu ⊢
      obtain ⟨_, _, _, hapart⟩ := hen heu
      exact Part.apart_symm (hapart w hw he)
    · rw [part_onPart_ne c f (Ne.symm huv)] at heu ⊢
      exact hothers u hu heu

/-- A change that enables no partition and moves none to other twins keeps the configuration legal where its TSPLIT is. -/
theorem Cfg.legal_onPart_kept {c : Cfg} {v : Nat} {f : Part → Part} (h : c.legal) (hsplit : (f (c.part v)).splitLegal)
    (hen : (f (c.part v)).en = true → (c.part v).en = true) (hslice : (f (c.part v)).slice = (c.part v).slice)
    (htwins : (f (c.part v)).twins = (c.part v).twins) : (c.onPart v f).legal :=
  legal_onPart h hsplit fun he => by
    obtain ⟨_, hv⟩ := h v
    unfold Part.apart
    rw [hslice, htwins]
    exact hv (hen he)

/-- What `enableOk` finds disjoint from the enabled partitions, or sharing their twins by time, is apart from them (R314). -/
theorem enableOk_iff {c : Cfg} {v slice twins : Nat} : enableOk c v slice twins = true ↔ twinCount twins ∈ [1, 2, 3, 6]
    ∧ ∀ w < 64, w = v ∨ (c.part w).en = false ∨ twins &&& (c.part w).twins = 0 ∨ slice ≠ 0 ∧ (c.part w).slice ≠ 0 ∧ (c.part w).twins = twins := by
  simp [enableOk, or_assoc, and_assoc]

theorem Cfg.legal_opened {c : Cfg} {v : Nat} {p : Part} (h : c.legal) (hlo : 1 ≤ v) (hhi : v ≤ 63)
    (hok : p.en = true → enableOk c v p.slice p.twins = true) (hsplit : p.splitLegal) : (c.onPart v fun _ => p).legal :=
  legal_onPart h hsplit fun he => by
    obtain ⟨hcount, hapart⟩ := enableOk_iff.1 (hok he)
    refine ⟨hlo, hhi, hcount, fun w hw hew => ?_⟩
    obtain ⟨_, hwen⟩ := h w
    obtain ⟨_, hw63, _⟩ := hwen hew
    obtain heq | hoff | hand | ⟨hs, hsw, ht⟩ := hapart w (by omega)
    · exact absurd heq hw
    · simp [hoff] at hew
    · exact .inl (Nat.and_comm _ _ ▸ hand)
    · exact .inr ⟨hsw, hs, ht⟩

/-! ### States -/

/-- Legality speaks of the partitions, POWCAP and REFMAX alone. -/
theorem State.Legal.of_eq {s t : State} (h : s.Legal) (hcfg : t.cfg = s.cfg) (hpowcap : t.fleet.powcap = s.fleet.powcap)
    (hrefmax : t.fleet.refmax = s.fleet.refmax) : t.Legal := by
  obtain ⟨hc, hf⟩ := h
  refine ⟨hcfg ▸ hc, ?_⟩
  unfold Fleet.legal
  rw [hpowcap, hrefmax]
  exact hf

/-- A machine where no driver and no fleet controller has set anything is legal. -/
theorem State.legal_unset {t : State} (hcfg : t.cfg = {}) (hpowcap : t.fleet.powcap = 660) (hrefmax : t.fleet.refmax = 64) : t.Legal :=
  reset_legal.of_eq hcfg hpowcap hrefmax

end Sys2Proof.Machine
end

section
/-! PROOFS. What words and events act on (03 R84; 17 R314, R316; 19 R348): every word and every event but those of drivers, firmware and the fleet answers a next state that
differs in the machine alone. Before the others: when an outcome is a next state that is legal where the state before it is. -/

namespace Sys2Proof.Machine

/-! ### What a word or an event may act on -/

/-- The events that act on partitions, fleet registers, firmware, fuses or the events to come: those of the control processor, of firmware and of the fleet controller,
and the writes of TSPLIT and of the PF's registers. -/
def beyondMach : Instr → Bool
  | .tsplitw .. | .registerWrite .. | .tsplitFlushComplete _ | .flrReady _ | .partitionDescriptorWrite .. | .shareUpdate _ | .partitionSwitch .. | .s2rootWrite ..
  | .attctlGo | .attestationReport | .telemetrySnapshot | .powcapWrite _ | .refmaxWrite _ | .go | .firmwareStageDone | .raise | .revoke _
  | .join _ | .domainLeave | .domainEntry _ | .etimeAligned | .channelNarrow .. | .channelRetire .. | .moduleFault | .moduleReset | .boot | .powerRemoval
  | .linkTraining .. => true
  | _ => false

/-- A register write of a function that touches only the machine leaves the rest of the state, whether it is dropped, kept or performed. -/
theorem vfMach_mach (vf : Nat) (i : Instr) (f : Cfg → Mach → Mach) (s : State) : ∃ m, vfMach vf i f s = .next { s with m := m } := by
  unfold vfMach vfWrite
  split
  · exact ⟨s.m, rfl⟩
  · split <;> exact ⟨_, rfl⟩

theorem reservedEncoding_mach (w : Nat) (s : State) : ∃ m, execReservedEncoding w s = .next { s with m := m } := by
  simp only [execReservedEncoding]
  split <;> exact ⟨_, rfl⟩

theorem hostTailWrite_mach (vf : Nat) (host : Bool) (addr tail : Nat) (relaxed : Bool) (s : State) :
    ∃ m, execHostTailWrite vf host addr tail relaxed s = .next { s with m := m } := by
  unfold execHostTailWrite
  split
  · exact ⟨_, rfl⟩
  · exact vfMach_mach _ _ _ s

/-- Every word and every event but those beyond the machine answers a next state that differs in the machine alone. -/
theorem exec_mach (i : Instr) (s : State) (h : beyondMach i = false) : ∃ m, exec i s = .next { s with m := m } := by
  cases i
  case reservedEncoding w => exact reservedEncoding_mach w s
  case hostTailWrite vf host addr tail relaxed => exact hostTailWrite_mach vf host addr tail relaxed s
  case rootWrite | bctlGo | bctlUnbind | surftabWrite | surfcntWrite | ressizeWrite | hsctlGo | causeClear | discard | stop =>
    unfold exec
    exact vfMach_mach _ _ _ s
  all_goals cases h <;> exact ⟨_, rfl⟩

theorem beyondMach_of_isWord {i : Instr} (h : i.isWord = true) : beyondMach i = false := by
  cases i <;> cases h <;> rfl

/-- Settles O59: a word differs from its state in the machine alone. -/
theorem programWordsLeaveDriverState : Obligations.ProgramWordsLeaveDriverState := by
  intro i s t hi ht
  obtain ⟨m, hm⟩ := exec_mach i s (beyondMach_of_isWord hi)
  cases hm.symm.trans ht
  exact ⟨rfl, rfl, rfl⟩

/-! ### Answers -/

/-- An outcome is a next state, and one with a legal configuration where state `s` has one. -/
def Answers (s : State) (r : Host.Outcome State Fault Refusal) : Prop := ∃ t, r = .next t ∧ (s.Legal → t.Legal)

namespace Answers

theorem keeps {s t : State} (hcfg : t.cfg = s.cfg) (hpowcap : t.fleet.powcap = s.fleet.powcap) (hrefmax : t.fleet.refmax = s.fleet.refmax) :
    Answers s (.next t) := ⟨t, rfl, fun h => h.of_eq hcfg hpowcap hrefmax⟩

theorem mach (s : State) (m : Mach) : Answers s (.next { s with m := m }) := keeps rfl rfl rfl

/-- What changes one partition answers where the configuration stays legal. -/
theorem onPart {s t : State} {v : Nat} {f : Part → Part} (hcfg : t.cfg = s.cfg.onPart v f) (hfleet : t.fleet = s.fleet)
    (h : s.cfg.legal → (s.cfg.onPart v f).legal) : Answers s (.next t) :=
  ⟨t, rfl, fun ⟨hc, hf⟩ => ⟨hcfg ▸ h hc, hfleet ▸ hf⟩⟩

/-- What changes the fleet registers answers where they stay legal. -/
theorem fleet {s t : State} (hcfg : t.cfg = s.cfg) (h : s.fleet.legal → t.fleet.legal) : Answers s (.next t) :=
  ⟨t, rfl, fun ⟨hc, hf⟩ => ⟨hcfg ▸ hc, h hf⟩⟩

theorem unset {s t : State} (hcfg : t.cfg = {}) (hpowcap : t.fleet.powcap = 660) (hrefmax : t.fleet.refmax = 64) : Answers s (.next t) :=
  ⟨t, rfl, fun _ => State.legal_unset hcfg hpowcap hrefmax⟩

/-- Legality does not see the machine from which an outcome starts. -/
theorem of_mach {s : State} {m : Mach} {r : Host.Outcome State Fault Refusal} (h : Answers { s with m := m } r) : Answers s r := by
  obtain ⟨t, ht, hlegal⟩ := h
  exact ⟨t, ht, fun hs => hlegal (hs.of_eq rfl rfl rfl)⟩

theorem follow {s : State} {r : Host.Outcome State Fault Refusal} {f : State → Host.Outcome State Fault Refusal} (h : Answers s r)
    (hf : ∀ t, Answers t (f t)) : Answers s (follow r f) := by
  obtain ⟨t, rfl, hlegal⟩ := h
  obtain ⟨u, hu, hlegal'⟩ := hf t
  exact ⟨u, hu, hlegal' ∘ hlegal⟩

end Answers

end Sys2Proof.Machine
end

section
/-! PROOFS. Events of partitions (17 R314, R315, R326, R328, R330; 18 R343): each answers a next state and keeps what drivers have set legal. -/

namespace Sys2Proof.Machine

theorem bitsOf_lt (v lo n : Nat) : bitsOf v lo n < 2 ^ n := Nat.mod_lt _ (by positivity)

/-! ### Events beyond the machine -/

namespace Answers

theorem vfWrite {vf : Nat} {i : Instr} {f : State → State} {s : State} (h : Answers s (.next (f s))) : Answers s (vfWrite vf i f s) := by
  unfold Machine.vfWrite
  split
  · exact mach s s.m
  · split
    · exact mach s _
    · exact h

theorem tsplitw (vf value : Nat) (s : State) : Answers s (execTsplitw vf value s) := by
  refine vfWrite ?_
  dsimp only
  split
  · exact mach s s.m
  · split
    · exact mach s _
    · rename_i hsum
      split
      · exact mach s _
      · refine onPart rfl rfl fun hc => Cfg.legal_onPart_kept hc ⟨(hc vf).1.1, fun a b c h => ?_⟩ id rfl rfl
        cases h
        exact ⟨Nat.lt_succ_iff.1 (bitsOf_lt value 0 1), Nat.not_lt.1 hsum⟩

theorem tsplitFlushComplete (vf : Nat) (s : State) : Answers s (execTsplitFlushComplete vf s) := by
  unfold execTsplitFlushComplete
  split
  · exact mach s s.m
  · rename_i scr tdir surf hnext
    split
    · exact mach s s.m
    · split
      · exact mach s _
      · exact onPart rfl rfl fun hc => Cfg.legal_onPart_kept hc ⟨(hc vf).1.2 scr tdir surf hnext, fun a b c h => by cases h⟩ id rfl rfl

theorem flrReady (vf : Nat) (s : State) : Answers s (execFlrReady vf s) := by
  unfold execFlrReady
  dsimp only
  split
  · exact mach s s.m
  · exact onPart rfl rfl fun hc => Cfg.legal_onPart_kept hc reset_splitLegal id rfl rfl

theorem shareUpdate (vf : Nat) (s : State) : Answers s (execShareUpdate vf s) := by
  unfold execShareUpdate
  split
  · exact mach s s.m
  · split
    · exact mach s s.m
    · exact onPart rfl rfl fun hc => Cfg.legal_onPart_kept hc (hc vf).1 id rfl rfl

theorem s2rootWrite (vf addr : Nat) (s : State) : Answers s (execS2rootWrite vf addr s) := by
  unfold execS2rootWrite
  split
  · exact mach s s.m
  · exact onPart rfl rfl fun hc => Cfg.legal_onPart_kept hc (hc vf).1 id rfl rfl

theorem partitionDescriptorWrite (vf w0 w1 w2 : Nat) (s : State) : Answers s (execPartitionDescriptorWrite vf w0 w1 w2 s) := by
  unfold execPartitionDescriptorWrite
  dsimp only
  split
  · exact mach s s.m
  · rename_i hvf
    split
    · rename_i hon
      exact onPart rfl rfl fun hc => Cfg.legal_onPart_kept hc (hc vf).1 (fun _ => hon) rfl rfl
    · refine onPart rfl rfl fun hc => Cfg.legal_opened hc (by omega) (by omega) (fun h => ?_) (hc vf).1
      exact (Bool.and_eq_true_iff.1 h).2

theorem partitionSwitch (out inn : Nat) (s : State) : Answers s (execPartitionSwitch out inn s) := by
  unfold execPartitionSwitch
  dsimp only
  split_ifs <;> exact keeps rfl rfl rfl

end Answers

end Sys2Proof.Machine
end

section
/-! PROOFS. Events of the fleet (17 R313, R329; 18 R338, R345, R346; 19 R348 to R363): each answers a next state and keeps POWCAP and REFMAX in their ranges. With the events of
partitions and those of the machine alone, these are all the words and events there are. -/

namespace Sys2Proof.Machine

/-! ### Fleet registers -/

/-- Fleet registers that hold the same power limits as others. -/
def Fleet.SameLimits (f g : Fleet) : Prop := g.powcap = f.powcap ∧ g.refmax = f.refmax

theorem Fleet.write_limits (f : Fleet) (off v : Nat) : f.SameLimits (f.write off v) := by
  unfold Fleet.write
  split
  case h_5 | h_9 => split <;> exact ⟨rfl, rfl⟩
  all_goals exact ⟨rfl, rfl⟩

theorem bootFrom_limits (code : Nat) (imgs : List (List Byte)) (f : Fleet) : f.SameLimits (bootFrom code imgs f) := by
  induction imgs generalizing f with
  | nil => exact ⟨rfl, rfl⟩
  | cons img rest ih =>
    unfold bootFrom
    split
    · exact ⟨rfl, rfl⟩
    · exact ih _

namespace Answers

/-- What changes fleet registers beside the power limits answers. -/
theorem limits {s t : State} (hcfg : t.cfg = s.cfg) (h : s.fleet.SameLimits t.fleet) : Answers s (.next t) := keeps hcfg h.1 h.2

theorem boot (s : State) : Answers s (.next (bootState s)) := limits rfl (bootFrom_limits _ _ _)

theorem registerWrite (vf off value : Nat) (s : State) : Answers s (execRegisterWrite vf off value s) := by
  unfold execRegisterWrite
  split
  · unfold pfWrite
    split
    · exact mach s _
    · split
      · exact mach s _
      · split
        · exact onPart rfl rfl fun hc => Cfg.legal_onPart_kept hc (hc _).1 id rfl rfl
        · exact limits rfl (Fleet.write_limits _ _ _)
  · split
    · exact mach s _
    · exact vfWrite (mach s _)

theorem powcapWrite (value : Nat) (s : State) : Answers s (execPowcapWrite value s) := by
  unfold execPowcapWrite
  dsimp only
  split
  · rename_i hv
    exact fleet rfl fun ⟨_, _, hrefmax⟩ => ⟨hv.1, hv.2, hrefmax⟩
  · exact mach s _

theorem refmaxWrite (value : Nat) (s : State) : Answers s (execRefmaxWrite value s) := by
  unfold execRefmaxWrite
  dsimp only
  split
  · rename_i hv
    exact fleet rfl fun ⟨hlo, hhi, _⟩ => ⟨hlo, hhi, hv⟩
  · exact mach s _

theorem attctlGo (s : State) : Answers s (execAttctlGo s) := by
  unfold execAttctlGo
  split <;> exact keeps rfl rfl rfl

theorem attestationReport (s : State) : Answers s (execAttestationReport s) := by
  unfold execAttestationReport
  split_ifs <;> exact keeps rfl rfl rfl

theorem telemetrySnapshot (s : State) : Answers s (execTelemetrySnapshot s) := by
  unfold execTelemetrySnapshot
  dsimp only
  split <;> exact keeps rfl rfl rfl

theorem go (s : State) : Answers s (execGo s) := by
  unfold execGo
  split <;> exact keeps rfl rfl rfl

theorem firmwareStageDone (s : State) : Answers s (execFirmwareStageDone s) := by
  unfold execFirmwareStageDone
  dsimp only
  split
  · exact mach s s.m
  · refine limits rfl ?_
    dsimp only
    split <;> exact ⟨rfl, rfl⟩

theorem revoke (key : Nat) (s : State) : Answers s (execRevoke key s) := by
  refine limits rfl ?_
  dsimp only
  split <;> exact ⟨rfl, rfl⟩

theorem setDomain {f : Fleet} {s : State} (h : s.fleet.SameLimits f) : Answers s (.next (setDomain f s)) := limits rfl h

theorem join (number : Nat) (s : State) : Answers s (execJoin number s) := by
  unfold execJoin
  split
  · exact mach s _
  · exact of_mach (setDomain ⟨rfl, rfl⟩)

theorem domainLeave (s : State) : Answers s (execDomainLeave s) := by
  unfold execDomainLeave
  split
  · exact mach s _
  · exact setDomain ⟨rfl, rfl⟩

theorem domainEntry (dup : Bool) (s : State) : Answers s (execDomainEntry dup s) := by
  unfold execDomainEntry
  split
  · exact mach s s.m
  · exact setDomain ⟨rfl, rfl⟩

theorem etimeAligned (s : State) : Answers s (execEtimeAligned s) := by
  unfold execEtimeAligned
  split
  · exact mach s s.m
  · exact of_mach (setDomain ⟨rfl, rfl⟩)

theorem narrow (col c : Nat) (s : State) : Answers s (.next (narrow col c s)) := by
  unfold Machine.narrow
  split <;> exact keeps rfl rfl rfl

theorem channelRetire (col c : Nat) (halfPins : Bool) (s : State) : Answers s (execChannelRetire col c halfPins s) := by
  unfold execChannelRetire
  dsimp only
  split_ifs
  case pos => exact mach s s.m
  case pos => exact keeps rfl rfl rfl
  case pos => exact narrow col c s
  case neg => exact keeps rfl rfl rfl

theorem moduleFault (s : State) : Answers s (execModuleFault s) := by
  unfold execModuleFault
  split <;> exact keeps rfl rfl rfl

theorem moduleReset (s : State) : Answers s (execModuleReset s) := by
  unfold execModuleReset
  split
  · exact mach s s.m
  · obtain ⟨hpowcap, hrefmax⟩ := bootFrom_limits (Config.freeBits (retireTowers s.m.restart).free % 2 ^ 32) s.fleet.restart.stages
      { s.fleet.restart with powered := true, halted := false, measure := 0 }
    exact unset rfl hpowcap hrefmax

theorem moduleBoot (s : State) : Answers s (execBoot s) := by
  unfold execBoot
  split
  · exact mach s s.m
  · exact boot s

theorem linkTraining (rate width : Nat) (flit : Bool) (s : State) : Answers s (execLinkTraining rate width flit s) := by
  refine limits rfl ?_
  dsimp only
  split <;> exact ⟨rfl, rfl⟩

/-- Every word and every event answers. -/
theorem exec (i : Instr) (s : State) : Answers s (exec i s) := by
  by_cases h : beyondMach i = false
  · obtain ⟨m, hm⟩ := exec_mach i s h
    exact hm ▸ mach s m
  cases i
  case tsplitw => exact tsplitw _ _ s
  case registerWrite => exact registerWrite _ _ _ s
  case tsplitFlushComplete => exact tsplitFlushComplete _ s
  case flrReady => exact flrReady _ s
  case partitionDescriptorWrite => exact partitionDescriptorWrite _ _ _ _ s
  case shareUpdate => exact shareUpdate _ s
  case partitionSwitch => exact partitionSwitch _ _ s
  case s2rootWrite => exact s2rootWrite _ _ s
  case attctlGo => exact attctlGo s
  case attestationReport => exact attestationReport s
  case telemetrySnapshot => exact telemetrySnapshot s
  case powcapWrite => exact powcapWrite _ s
  case refmaxWrite => exact refmaxWrite _ s
  case go => exact go s
  case firmwareStageDone => exact firmwareStageDone s
  case raise => exact keeps rfl rfl rfl
  case revoke => exact revoke _ s
  case join => exact join _ s
  case domainLeave => exact domainLeave s
  case domainEntry => exact domainEntry _ s
  case etimeAligned => exact etimeAligned s
  case channelNarrow => exact narrow _ _ s
  case channelRetire => exact channelRetire _ _ _ s
  case moduleFault => exact moduleFault s
  case moduleReset => exact moduleReset s
  case boot => exact moduleBoot s
  case powerRemoval => exact unset rfl rfl rfl
  case linkTraining => exact linkTraining _ _ _ s
  all_goals exact absurd rfl h

end Answers

end Sys2Proof.Machine
end

section
/-! PROOFS. Moves and steps (03 R64 to R67; 17 R329; 18 R338): every move of a gang, a core, a unit or the firmware answers a next state and keeps what drivers and the fleet
controller have set legal, and so does a step. -/

namespace Sys2Proof.Machine

/-! ### Gangs -/

theorem onCur_mach (s : State) (f : Gang → Gang) : ∃ m, s.onCur f = { s with m := m } := by
  unfold State.onCur
  split
  · exact ⟨_, rfl⟩
  · exact ⟨s.m, rfl⟩

namespace Answers

theorem ite {s : State} {p : Prop} [Decidable p] {a b : Host.Outcome State Fault Refusal} (ha : Answers s a) (hb : Answers s b) :
    Answers s (if p then a else b) := by
  split
  · exact ha
  · exact hb

/-- Nor does legality see what a change of the current gang leaves. -/
theorem of_onCur {s : State} {f : Gang → Gang} {r : Host.Outcome State Fault Refusal} (h : Answers (s.onCur f) r) : Answers s r := by
  obtain ⟨m, hm⟩ := onCur_mach s f
  exact of_mach (hm ▸ h)

theorem probe (start : Nat) (us : List ChainWord) (s : State) : Answers s (probe start us s) := by
  induction us generalizing s with
  | nil => exact mach s s.m
  | cons u us ih =>
    refine follow (of_onCur (exec _ _)) fun t => ?_
    split
    · exact of_onCur (ih _)
    · exact ih t

theorem commit (start n : Nat) (all us : List ChainWord) (s : State) : Answers s (commit start n all us s) := by
  induction us generalizing s with
  | nil => exact mach s s.m
  | cons u us ih =>
    refine follow (of_onCur (exec _ _)) fun t => ?_
    split
    · exact ite (mach t t.m) (ih t)
    · exact mach t t.m

theorem finishChain (start n : Nat) (us : List ChainWord) (s : State) : Answers s (finishChain start n us s) := by
  unfold Machine.finishChain
  split
  · exact mach s s.m
  · exact ite (mach s _) (mach s _)

theorem judge (start : Nat) (us : List ChainWord) (s : State) : Answers s (judge start us s) := by
  unfold Machine.judge
  split
  · exact mach s s.m
  · exact ite (mach s _) <| ite (mach s _) <| ite (mach s _) <| ite (mach s _) <| ite (mach s _) <|
      follow (of_mach (commit _ _ _ _ _)) fun t => finishChain _ _ _ t

theorem issueChain (us : List ChainWord) (bad : Bool) (k : Gang) (s : State) : Answers s (issueChain us bad k s) :=
  ite (follow (commit _ _ _ _ s) fun t => finishChain _ _ _ t) <| ite (of_onCur (mach _ _)) (follow (probe _ _ s) fun t => judge _ _ t)

theorem issueWord (s : State) : Answers s (issueWord s) := by
  unfold Machine.issueWord
  split
  · exact mach s s.m
  · refine ite (issueChain _ _ _ s) (ite (exec .fusedSoftmax s) ?_)
    split
    · exact of_onCur (exec _ _)
    · exact issueChain _ _ _ s

theorem moveGang (s : State) : Answers s (moveGang s) := by
  unfold Machine.moveGang
  split
  · exact mach s s.m
  · refine ite (mach s s.m) ?_
    split
    · exact exec .runStart s
    · exact exec .trailerRetire s
    · exact issueWord s

theorem clearCur (s : State) : Answers s (clearCur s) := mach s _

theorem gangMove (id : Nat) (s : State) : Answers s (gangMove id s) := follow (of_mach (moveGang _)) clearCur

end Answers

/-! ### Cores -/

/-- What may be offered as a move, if anything is, answers. -/
def Offers (s : State) (o : Option (Host.Outcome State Fault Refusal)) : Prop := ∀ r ∈ o, Answers s r

namespace Offers

theorem none (s : State) : Offers s none := fun _ h => by cases h

theorem some {s : State} {r : Host.Outcome State Fault Refusal} (h : Answers s r) : Offers s (some r) := fun _ hr => by cases hr; exact h

theorem ite {s : State} {p : Prop} [Decidable p] {a b : Option (Host.Outcome State Fault Refusal)} (ha : Offers s a) (hb : Offers s b) :
    Offers s (if p then a else b) := by
  split
  · exact ha
  · exact hb

theorem map {α : Type} {s : State} {f : α → Host.Outcome State Fault Refusal} (h : ∀ x, Answers s (f x)) (o : Option α) : Offers s (o.map f) := by
  cases o with
  | none => exact none s
  | some x => exact some (h x)

theorem orElse {s : State} {a : Option (Host.Outcome State Fault Refusal)} {b : Unit → Option (Host.Outcome State Fault Refusal)} (ha : Offers s a)
    (hb : Offers s (b ())) : Offers s (a.orElse b) := by
  cases a with
  | none => exact hb
  | some _ => exact ha

theorem getD {s : State} {a : Option (Host.Outcome State Fault Refusal)} {b : Host.Outcome State Fault Refusal} (ha : Offers s a) (hb : Answers s b) :
    Answers s (a.getD b) := by
  cases a with
  | none => exact hb
  | some r => exact ha r rfl

theorem firstMove {α : Type} {s : State} {f : α → Option (Host.Outcome State Fault Refusal)} (h : ∀ x, Offers s (f x)) (xs : List α) :
    Offers s (firstMove f xs) := by
  induction xs with
  | nil => exact none s
  | cons x xs ih =>
    unfold Machine.firstMove
    split
    · rename_i r hr
      exact some (h x r hr)
    · exact ih

theorem ownMove (s : State) (col core : Nat) (x : Gang × Group) : Offers s (ownMove s col core x) := by
  have hagain : ∀ (m : Mach) (f : State → Mach), Answers s (follow (gangMove x.1.id { s with m := m }) fun t => .next { t with m := f t }) :=
    fun m f => .follow (.of_mach (.gangMove _ _)) fun t => .mach t _
  unfold Machine.ownMove
  dsimp only
  split
  · exact ite (some (.gangMove _ s)) (none s)
  · exact ite (some (.gangMove _ s)) (none s)
  · refine ite (ite (some (hagain _ _)) (none s)) (ite ?_ (none s))
    split
    · exact ite (ite (none s) (some (.mach s _))) (some (.mach s _))
    · exact none s
  · split
    · exact ite (some (.gangMove _ s)) (ite (some (.mach s _)) (none s))
    · exact none s

theorem replayMove (s : State) (g : Group) : Offers s (replayMove s g) := map (fun i => .exec (.collectiveReplay g.gid i) s) _

theorem regroupMove (s : State) (col core half : Nat) : Offers s (regroupMove s col core half) :=
  ite (some (.exec (.joinHoldEnd col core half) s)) <| ite (some (.exec (.yieldEnd col core half) s)) <|
    ite (some (.exec (.gangFormation col core half) s)) (none s)

theorem unitIssue (s : State) (col core half : Nat) : Offers s (unitIssue col core half s) :=
  ite (map (fun _ => .follow (.of_mach (.gangMove _ _)) fun t => .ite (.mach t _) (.mach t t.m)) _) (none s)

end Offers

theorem Answers.coreMove (col core : Nat) (s : State) : Answers s (coreMove col core s) :=
  .ite (Offers.getD (.orElse (.firstMove (.ownMove s col core) _) <| .orElse (.firstMove (.replayMove s) _) <|
    .orElse (.firstMove (.regroupMove s col core) _) (.firstMove (.unitIssue s col core) _)) (.ite (.mach s _) (.mach s s.m))) (.mach s s.m)

/-! ### The choice of a move -/

/-- Every open move of a list answers, wherever it is made. -/
def AllAnswer (ms : List Move) : Prop := ∀ f ∈ ms, ∀ s, Answers s (f s)

namespace AllAnswer

theorem nil : AllAnswer [] := fun _ h => by cases h

theorem cons {f : Move} {ms : List Move} (h : ∀ s, Answers s (f s)) (hs : AllAnswer ms) : AllAnswer (f :: ms) := List.forall_mem_cons.2 ⟨h, hs⟩

theorem one {f : Move} (h : ∀ s, Answers s (f s)) : AllAnswer [f] := cons h nil

theorem append {ms ns : List Move} (h : AllAnswer ms) (h' : AllAnswer ns) : AllAnswer (ms ++ ns) := List.forall_mem_append.2 ⟨h, h'⟩

theorem map {α : Type} {f : α → Move} (h : ∀ x s, Answers s (f x s)) (xs : List α) : AllAnswer (xs.map f) := List.forall_mem_map.2 fun x _ => h x

theorem flatMap {α : Type} {f : α → List Move} (h : ∀ x, AllAnswer (f x)) (xs : List α) : AllAnswer (xs.flatMap f) := fun g hg => by
  obtain ⟨x, _, hx⟩ := List.mem_flatMap.1 hg
  exact h x g hx

theorem ite {p : Prop} [Decidable p] {ms ns : List Move} (h : AllAnswer ms) (h' : AllAnswer ns) : AllAnswer (if p then ms else ns) := by
  split
  · exact h
  · exact h'

theorem accMoves (col core : Nat) (c : Core) : AllAnswer (accMoves col core c) :=
  flatMap (fun i => cons (.exec (.loadPerformed col core i)) <| cons (.exec (.translationWalk col core i)) <| cons (.exec (.pendingRewalk col core i)) <|
    cons (.exec (.pendingTimeout col core i)) <| one (.exec (.remoteAccessTimeout col core i))) _

theorem engineMoves (col core : Nat) (c : Core) : AllAnswer (engineMoves col core c) := by
  unfold Machine.engineMoves
  refine append (append (append (append ?_ ?_) ?_) ?_) ?_
  · exact flatMap (fun i => cons (.exec (.copy col core i)) <| cons (.exec (.gather col core i)) <| cons (.exec (.fill col core i)) <|
      cons (.exec (.decompress col core i)) <| one (.exec (.quantise col core i))) _
  · exact flatMap (fun i => cons (.exec (.cardLock col core i)) <| cons (.exec (.clear col core i)) <| cons (.exec (.bcast col core i)) <|
      cons (.exec (.mulrows col core i)) <| cons (.exec (.readout col core i)) <| one (.exec (.cardEnd col core i))) _
  · exact map (fun i s => .mach s _) _
  · exact ite nil (one (.exec (.matrixWordCompletion col core)))
  · exact flatMap (fun i => cons (.exec (.l1AgeWriteback col core i)) <| one (.exec (.l1AgeInvalidate col core i))) _

theorem tileMoves (m : Mach) (col core : Nat) : AllAnswer (tileMoves m col core) :=
  flatMap (fun t => cons (.exec (.tileFillComplete col core t)) <| one fun s => .mach s _) _

theorem unitMoves (col core : Nat) : AllAnswer (unitMoves col core) :=
  cons (.coreMove col core) <| cons (.exec (.resultLanding col core)) <| map (fun half => .exec (.issueUnitIdleRelease col core half)) _

theorem coreMoves (m : Mach) : AllAnswer (coreMoves m) := by
  unfold Machine.coreMoves
  refine append ?_ ?_
  · refine flatMap (fun i => ?_) _
    exact append (append (append (accMoves _ _ _) (engineMoves _ _ _)) (tileMoves m _ _)) (unitMoves _ _)
  · refine map (fun x s => ?_) _
    exact .exec (.currentStep x.1 x.2) s

theorem groupMoves (g : Group) : AllAnswer (groupMoves g) := by
  unfold Machine.groupMoves
  refine append (append ?_ (ite nil (one (.exec (.relCompletion g.gid))))) (ite nil (one fun s => .mach s _))
  split
  · exact cons (.exec (.preemptionHalt g.gid)) <| one (.exec (.preemptionTimeout g.gid))
  · exact one (.exec (.imageSave g.gid))
  · exact one (.exec (.groupRestore g.gid))
  · exact cons (.exec (.holdingsReturn g.gid)) <| one (.exec (.waitcRepoll g.gid))

theorem nodeMoves (cfg : Cfg) (m : Mach) (vf : Nat) (b : Binding) (node : Nat) : AllAnswer (nodeMoves cfg m vf b node) := by
  refine cons (.exec (.gate vf b.leaf node)) ?_
  split
  · exact cons (.exec (.groupLaunch vf b.leaf node)) <| one (.exec (.coalesceTimeout vf b.leaf node))
  · exact one (.exec (.raster vf b.leaf node))
  · exact one (.exec (.traverse vf b.leaf node))
  · exact one (.exec (.classify vf b.leaf node))
  · exact one (.exec (.net vf b.leaf node))
  · exact cons (.exec (.copyNode vf b.leaf node)) <| one fun s => .mach s _
  · exact nil

theorem surfMoves (x : Surf) : AllAnswer (surfMoves x) :=
  cons (.exec (.surfaceDiscard x.vf x.idx)) <| append (map (fun (e : Nat × Nat) => .exec (.rakeRefill x.vf x.idx e.1)) _)
    (map (fun q => .exec (.rakeSpill x.vf x.idx q)) _)

theorem vfMoves (cfg : Cfg) (m : Mach) (v : Nat) (r : Vf) : AllAnswer (vfMoves cfg m v r) := by
  unfold Machine.vfMoves
  refine append (append (append (append (append (append (append ?_ ?_) ?_) ?_) ?_) ?_) ?_) ?_
  · exact flatMap (fun b => flatMap (nodeMoves cfg m v b) _) _
  · exact ite (one (.exec (.hostqModerationExpiry v))) nil
  · exact ite (one (.exec (.tsplitFlushComplete v))) nil
  · exact ite (one (.exec (.hostAllocationDone v))) nil
  · exact ite (one (.exec (.flrReady v))) nil
  · exact ite (one (.exec (.bctlUnbind v))) nil
  · exact ite nil (one fun s => .mach s _)
  · exact ite nil (one fun s => .mach s _)

theorem partMoves (cfg : Cfg) (m : Mach) (v : Nat) (p : Part) : AllAnswer (partMoves cfg m v p) :=
  append (ite (one (.exec (.shareUpdate v))) nil) (map (fun w => .exec (.partitionSwitch v w)) _)

theorem columnMoves (m : Mach) : AllAnswer (columnMoves m) :=
  ite nil (flatMap (fun c => cons (.exec (.groupAdmission c)) <| one (.exec (.preemptionOnQuantum c))) _)

theorem fleetMoves (f : Fleet) : AllAnswer (fleetMoves f) :=
  append (append (append (append (ite nil (one (.exec .boot))) (ite (one (.exec .attestationReport)) nil)) (ite (one (.exec .telemetrySnapshot)) nil))
    (ite (one (.exec .firmwareStageDone)) nil)) (ite (one (.exec .etimeAligned)) nil)

theorem errorMoves (f : Fleet) (m : Mach) : AllAnswer (errorMoves f m) :=
  append (map (fun _ s => .mach s _) _) (ite (one (.exec .moduleFault)) nil)

end AllAnswer

theorem Answers.timeMove (s : State) : Answers s (timeMove s) := .ite (.mach s _) (.mach s s.m)

theorem AllAnswer.moves (s : State) : AllAnswer (moves s) := by
  unfold Machine.moves
  refine cons .timeMove ?_
  refine append (append (append (append (append (append (append (append (append (append ?_ ?_) ?_) ?_) ?_) ?_) ?_) ?_) ?_) ?_) ?_
  · exact coreMoves s.m
  · exact flatMap groupMoves _
  · exact flatMap surfMoves _
  · refine flatMap (fun e => ?_) _
    exact vfMoves s.cfg s.m e.1 e.2
  · refine flatMap (fun e => ?_) _
    exact partMoves s.cfg s.m e.1 e.2
  · refine map (fun d t => ?_) _
    exact .exec (.drawRetire d.twin d.draw) t
  · refine map (fun i t => ?_) _
    exact .exec (.faultDomainStop i) t
  · exact columnMoves s.m
  · refine ite nil (one fun t => ?_)
    exact .mach t _
  · exact fleetMoves s.fleet
  · exact errorMoves s.fleet s.m

theorem Answers.chooseMove (s : State) : Answers s (chooseMove s) := by
  unfold Machine.chooseMove
  dsimp only
  refine of_mach (m := (s.m.pick (Machine.moves s).length).2) ?_
  rw [List.getD_eq_getElem?_getD]
  cases hf : (Machine.moves s)[(s.m.pick (Machine.moves s).length).1]? with
  | none => exact timeMove _
  | some f => exact AllAnswer.moves s f (List.mem_of_getElem? hf) _

/-! ### Steps -/

/-- A step answers, but where no event is due in a module that has no power or that a module fault has halted. -/
theorem step_answers (s : State) : Answers s (step s) ∨ (s.agenda = [] ∧ s.fleet.powered = false ∧ step s = .fault .noPower)
    ∨ (s.agenda = [] ∧ s.fleet.powered = true ∧ s.fleet.halted = true ∧ step s = .fault .moduleHalted) := by
  unfold step nextMove
  split
  · rename_i i rest _
    obtain ⟨t, ht, hlegal⟩ := Answers.exec i { s with agenda := rest }
    exact .inl ⟨t, ht, fun h => hlegal (h.of_eq rfl rfl rfl)⟩
  · rename_i hagenda
    cases hp : s.fleet.powered
    · exact .inr (.inl ⟨hagenda, rfl, rfl⟩)
    cases hh : s.fleet.halted
    · simp only [Bool.not_true, Bool.false_eq_true, if_false]
      left
      split
      · exact .follow (.moveGang s) .clearCur
      · exact .chooseMove s
    · exact .inr (.inr ⟨hagenda, rfl, rfl, rfl⟩)

/-- Settles O58: every word and every event answers, and so does every open move. -/
theorem noInstructionStopsTheMachine : Obligations.NoInstructionStopsTheMachine := by
  refine ⟨fun i s => ?_, fun s => ?_⟩
  · obtain ⟨t, ht, _⟩ := Answers.exec i s
    exact ⟨t, ht⟩
  · obtain ⟨t, ht, _⟩ | hstop := step_answers s
    · exact .inl ⟨t, ht⟩
    · exact .inr hstop

/-- Settles O56: what a step answers is legal where its state is. -/
theorem stepsKeepTheConfigurationLegal : Obligations.StepsKeepTheConfigurationLegal := by
  intro s t hs ht
  obtain ⟨u, hu, hlegal⟩ | ⟨_, _, hstop⟩ | ⟨_, _, _, hstop⟩ := step_answers s
  · cases hu.symm.trans ht
    exact hlegal hs
  · cases hstop.symm.trans ht
  · cases hstop.symm.trans ht

end Sys2Proof.Machine
end

section
/-! PROOFS. Host accesses and plain register writes (17 R313, R316, R319, R321, R322, R328). -/

namespace Sys2Proof.Machine

section
variable {s : State} {vf : Nat}

/-! ### BAR2 -/

/-- A write through BAR2 that nothing holds up reaches the address WINBASE plus its offset (R316). -/
theorem hostAccess_due {addr n : Nat} (h : Bar2Due s vf addr n) (v : Nat) :
    hostAccess s.cfg vf false addr n true v s.m = bar2Write s.cfg vf (bar2Va s.m vf addr) n v s.m := by
  obtain ⟨hsize, hposted, htouch⟩ := h
  simp only [hostAccess, postBar2, bar2Perform, Nat.not_lt.2 hsize, hposted, htouch, thenTouch, ne_eq, not_true, Bool.false_eq_true, if_false, if_true]

/-- An access inside BAR2 waits behind those that wait (R319). -/
theorem hostAccess_waits {addr n : Nat} (hsize : addr + n ≤ 2 ^ (s.m.vf vf).bar2Bits) (hposted : (s.m.vf vf).posted ≠ []) (w : Bool) (v : Nat) :
    hostAccess s.cfg vf false addr n w v s.m
      = s.m.onVf vf fun r => { r with posted := r.posted ++ [{ va := bar2Va s.m vf addr, n := n, write := w, v := v }] } := by
  simp only [hostAccess, postBar2, Nat.not_lt.2 hsize, hposted, ne_eq, not_false_eq_true, Bool.false_eq_true, if_false, if_true]

theorem bar2Access_ready (hready : (s.m.vf vf).ready = true) (addr n : Nat) (w : Bool) (v : Nat) :
    exec (.bar2Access vf false addr n w v) s = .next { s with m := hostAccess s.cfg vf false addr n w v s.m } := by
  show execBar2Access vf false addr n w v s = _
  simp only [execBar2Access, onMach, hready, Bool.or_true, if_true]

/-! ### TAIL -/

theorem hostTailWrite_host {addr : Nat} (halign : addr % 4 = 0) (tail : Nat) (relaxed : Bool) :
    exec (.hostTailWrite vf true addr tail relaxed) s = .next { s with m := s.m.store (hostBase + addr) 4 tail } := by
  show execHostTailWrite vf true addr tail relaxed s = _
  simp only [execHostTailWrite, onMach, hostAccess, halign, if_true]

theorem hostTailWrite_vfMach (vf addr tail : Nat) (relaxed : Bool) (s : State) : exec (.hostTailWrite vf false addr tail relaxed) s
    = vfMach vf (.hostTailWrite vf false addr tail relaxed) (fun cfg m => if addr % 4 = 0 then hostAccess cfg vf false addr 4 true tail m else m) s := by
  show execHostTailWrite vf false addr tail relaxed s = _
  simp only [execHostTailWrite, Bool.false_eq_true, if_false]

theorem hostTailWrite_bar2 {addr : Nat} (h : Open s vf) (halign : addr % 4 = 0) (tail : Nat) (relaxed : Bool) :
    exec (.hostTailWrite vf false addr tail relaxed) s = .next { s with m := hostAccess s.cfg vf false addr 4 true tail s.m } := by
  rw [hostTailWrite_vfMach, vfMach_open h]
  simp only [halign, if_true]

/-! ### Registers -/

theorem registerWrite_vfMach {off : Nat} (hvf : vf ≠ 0) (hoff : off < 65536) (value : Nat) (s : State) :
    exec (.registerWrite vf off value) s = vfMach vf (.registerWrite vf off value) (fun _ m => m.onVf vf fun r => r.write off value) s := by
  show execRegisterWrite vf off value s = _
  simp only [execRegisterWrite, hvf, Nat.not_le.2 hoff, if_false]

theorem registerWrite_vf {off : Nat} (hvf : vf ≠ 0) (hoff : off < 65536) (h : Open s vf) (value : Nat) :
    exec (.registerWrite vf off value) s = .next { s with m := s.m.onVf vf fun r => r.write off value } := by
  rw [registerWrite_vfMach hvf hoff, vfMach_open h]

theorem registerWrite_configure {off : Nat} (hvf : vf ≠ 0) (hoff : 65536 ≤ off) (value : Nat) :
    exec (.registerWrite vf off value) s = .next { s with m := s.m.onVf vf fun r => r.configure off value } := by
  show execRegisterWrite vf off value s = _
  simp only [execRegisterWrite, onMach, hvf, hoff, if_false, if_true]

theorem registerWrite_pf (s : State) (off value : Nat) : exec (.registerWrite 0 off value) s = .next (pfWrite off value s) := rfl

theorem causeClear_open (h : Open s vf) (mask : Nat) :
    exec (.causeClear vf mask) s = .next { s with m := s.m.onVf vf fun r => { r with cause := r.cause &&& ~~~BitVec.ofNat 10 mask } } := by
  show execCauseClear vf mask s = _
  simp only [execCauseClear, vfMach_open h]

end

/-- Settles O60: TAIL and BAR2, then the registers; the offsets of configuration space are log entry 15, dropped low bits entry 23, a relaxed TAIL write entry 17. -/
theorem hostAccessesAndRegisterWritesTakeEffect : Obligations.HostAccessesAndRegisterWritesTakeEffect := by
  refine ⟨fun s vf addr tail relaxed halign => hostTailWrite_host halign tail relaxed, fun s vf addr tail relaxed ho halign hdue => ?_,
    fun s vf addr n v hready hdue => ?_, fun s vf addr n w v hready hsize hposted => ?_, fun s vf mask ho => causeClear_open ho mask,
    fun s mask => rfl, fun s mask => rfl, fun s vf off value hvf hoff ho => registerWrite_vf hvf hoff ho value,
    fun s vf off value hvf hoff => registerWrite_configure hvf hoff value, registerWrite_pf,
    fun r v => ⟨rfl, rfl, rfl, rfl, rfl, rfl, rfl, rfl, rfl, rfl, fun hgo hst => if_pos ⟨hgo, hst⟩⟩⟩
  · rw [hostTailWrite_bar2 ho halign, hostAccess_due hdue]
  · rw [bar2Access_ready hready, hostAccess_due hdue]
  · rw [bar2Access_ready hready, hostAccess_waits hsize hposted]

end Sys2Proof.Machine
end

section
/-! PROOFS. Control registers of a function (17 R314, R317, R318, R326, R328): register writes that are dropped, kept or refused, and what ROOT, BCTL and TSPLITW do. -/

namespace Sys2Proof.Machine

section
variable {s : State} {vf : Nat}

/-! ### Writes of a function -/

theorem vfMach_vfWrite (vf : Nat) (i : Instr) (f : Cfg → Mach → Mach) (s : State) : ∃ f', vfMach vf i f s = vfWrite vf i f' s := ⟨_, rfl⟩

/-- Every register or TAIL write of a function is one that READY 0 drops and that waits for a partition that is not loaded (R314, R328). -/
theorem exec_vfWrite {i : Instr} (h : VfWrite i vf) (s : State) : ∃ f, exec i s = vfWrite vf i f s := by
  unfold VfWrite at h
  obtain ⟨a, rfl⟩ | ⟨a, b, rfl⟩ | rfl | ⟨a, rfl⟩ | ⟨a, rfl⟩ | ⟨a, rfl⟩ | ⟨a, rfl⟩ | rfl | ⟨a, rfl⟩ | ⟨a, rfl⟩ | ⟨a, rfl⟩ | ⟨hvf, a, b, ha, rfl⟩ | ⟨a, b, c, rfl⟩ := h
  on_goal 13 => rw [hostTailWrite_vfMach]; exact vfMach_vfWrite _ _ _ s
  on_goal 12 => rw [registerWrite_vfMach hvf ha]; exact vfMach_vfWrite _ _ _ s
  on_goal 4 => exact ⟨_, (rfl : execTsplitw vf a s = _)⟩
  all_goals
    unfold exec
    exact vfMach_vfWrite _ _ _ s

theorem vfWrite_unready (h : (s.m.vf vf).ready = false) (i : Instr) (f : State → State) : vfWrite vf i f s = .next s := by
  simp only [vfWrite, h, Bool.not_false, if_true]

theorem vfWrite_away (hready : (s.m.vf vf).ready = true) (haway : (s.m.vf vf).away = true) (i : Instr) (f : State → State) :
    vfWrite vf i f s = .next { s with m := s.m.onVf vf fun r => { r with held := r.held ++ [i] } } := by
  simp only [vfWrite, hready, haway, Bool.not_true, Bool.false_eq_true, if_false, if_true]

theorem vfWrite_open (h : Open s vf) (i : Instr) (f : State → State) : vfWrite vf i f s = .next (f s) := by
  obtain ⟨hready, hhere⟩ := h
  simp only [vfWrite, hready, hhere, Bool.not_true, Bool.false_eq_true, if_false]

/-! ### ROOT -/

theorem rootWrite_open (h : Open s vf) (addr : Nat) : exec (.rootWrite vf addr) s = .next { s with
    m := if s.m.noneResident vf = true ∧ (s.m.vf vf).binds = [] then s.m.onVf vf fun r => { r with root := addr } else s.m.raise vf 0 } := by
  show execRootWrite vf addr s = _
  simp only [execRootWrite, vfMach_open h, Bool.and_eq_true, List.isEmpty_iff]

/-! ### Bindings -/

/-- The machine once a BCTL write with GO has bound its graph (R318). -/
def bctlBound (s : State) (vf cols count : Nat) : Mach :=
  (bctlStart s vf cols count).onVf vf fun r => { r with
    bstatus := 1
    stopped := r.stopped.filter fun x => !(regionPath s.cfg vf (bctlStart s vf cols count) treeDepth (s.m.vf vf).bleaf).contains x
    binds := r.binds.filter (fun b => b.leaf != r.bleaf) ++ [{ leaf := r.bleaf, table := r.bgraph, count := count, cols := cols }] }

/-- What GO does to a function whose leaf takes a binding: it is bound, or the STATUS of the check that fails stands and ERR is raised (R318). -/
theorem bctlGo_open (ho : Open s vf) {cols count : Nat} (hst : (s.m.vf vf).bstatus ≠ 8)
    (hfree : ∀ b, s.m.binding? vf (s.m.vf vf).bleaf = some b → b.stopped = true) : exec (.bctlGo vf cols count) s = .next { s with
      m := if bindStatus s.cfg vf (s.m.vf vf).bgraph cols count (bctlStart s vf cols count) = 1 then bctlBound s vf cols count
        else ((bctlStart s vf cols count).onVf vf fun r =>
          { r with bstatus := bindStatus s.cfg vf (s.m.vf vf).bgraph cols count (bctlStart s vf cols count) }).raise vf 0 } := by
  have hnone : ((s.m.binding? vf (s.m.vf vf).bleaf).any fun b => !b.stopped) = false := by
    cases hb : s.m.binding? vf (s.m.vf vf).bleaf with
    | none => rfl
    | some b => simp [hfree b hb]
  show execBctlGo vf cols count s = _
  simp only [execBctlGo, vfMach_open ho, if_neg hst, hnone, Bool.false_eq_true, if_false, ite_not]
  rfl

theorem bctlGo_busy (ho : Open s vf) {cols count : Nat} (hst : (s.m.vf vf).bstatus = 8) : exec (.bctlGo vf cols count) s = .next s := by
  show execBctlGo vf cols count s = _
  simp only [execBctlGo, vfMach_open ho, if_pos hst]

theorem bctlGo_bound (ho : Open s vf) {cols count : Nat} {b : Binding} (hst : (s.m.vf vf).bstatus ≠ 8)
    (hb : s.m.binding? vf (s.m.vf vf).bleaf = some b) (hruns : b.stopped = false) : exec (.bctlGo vf cols count) s = .next { s with m := s.m.raise vf 0 } := by
  show execBctlGo vf cols count s = _
  simp only [execBctlGo, vfMach_open ho, if_neg hst, hb, Option.any_some, hruns, Bool.not_false, if_true]

/-- A leaf's binding, and those of the others, once it is bound anew or no longer. -/
theorem find?_filter_leaf_ne (bs : List Binding) {leaf other : Nat} (hne : other ≠ leaf) :
    (bs.filter fun b => b.leaf != leaf).find? (fun b => b.leaf == other) = bs.find? fun b => b.leaf == other := by
  rw [List.find?_filter]
  congr 1
  funext b
  by_cases h : b.leaf = other
  · simp [h, hne]
  · simp [h]

theorem find?_filter_leaf_self (bs : List Binding) (leaf : Nat) : (bs.filter fun b => b.leaf != leaf).find? (fun b => b.leaf == leaf) = none := by
  simp

theorem bctlBound_vf (s : State) (vf cols count : Nat) : ((bctlBound s vf cols count).vf vf).bstatus = 1
    ∧ ((bctlBound s vf cols count).vf vf).binds = ((s.m.vf vf).binds.filter fun b => b.leaf != (s.m.vf vf).bleaf) ++ [boundAs s vf cols count] := by
  unfold bctlBound bctlStart
  rw [vf_onVf, vf_onVf]
  exact ⟨rfl, rfl⟩

theorem bctlBound_binding (s : State) (vf cols count : Nat) :
    (bctlBound s vf cols count).binding? vf (s.m.vf vf).bleaf = some (boundAs s vf cols count) := by
  obtain ⟨_, hbinds⟩ := bctlBound_vf s vf cols count
  rw [Mach.binding?, hbinds, List.find?_append, find?_filter_leaf_self]
  simp [boundAs]

theorem bctlBound_binding_ne (s : State) (vf cols count : Nat) {leaf : Nat} (h : leaf ≠ (s.m.vf vf).bleaf) :
    (bctlBound s vf cols count).binding? vf leaf = s.m.binding? vf leaf := by
  obtain ⟨_, hbinds⟩ := bctlBound_vf s vf cols count
  rw [Mach.binding?, hbinds, List.find?_append, find?_filter_leaf_ne _ h, Mach.binding?]
  simp [boundAs, Ne.symm h]

/-- An interrupt leaves the registers of bindings as they were. -/
theorem raise_binds (m : Mach) (v b : Nat) : ((m.raise v b).vf v).binds = (m.vf v).binds ∧ ((m.raise v b).vf v).bstatus = (m.vf v).bstatus := by
  rw [raise_vf_self]
  split <;> exact ⟨rfl, rfl⟩

/-- UNBIND of a leaf that is bound waits with STATUS 8 or ends the binding (R318). -/
def unbindBusy (s : State) (vf leaf : Nat) (b : Binding) : Bool :=
  s.m.groups.any (fun g => g.env.vf == vf && g.env.leaf == leaf && g.onCore && (!b.stopped || g.haltable)) || (!b.stopped && pendingRecords s.cfg vf b s.m)

theorem bctlUnbind_open (ho : Open s vf) {leaf : Nat} {b : Binding} (hleaf : leaf = (s.m.vf vf).unbind.getD (s.m.vf vf).bleaf)
    (hb : s.m.binding? vf leaf = some b) : exec (.bctlUnbind vf) s = .next { s with
      m := if unbindBusy s vf leaf b then s.m.onVf vf fun r => { r with unbind := some leaf, bstatus := 8 }
        else s.m.onVf vf fun r => { r with unbind := none, bstatus := 0, binds := r.binds.filter fun b => b.leaf != leaf } } := by
  subst hleaf
  show execBctlUnbind vf s = _
  simp only [execBctlUnbind, vfMach_open ho, hb]
  rfl

theorem unbindBusy_empty {leaf : Nat} {b : Binding} (h : LeafEmpty s vf leaf b) : unbindBusy s vf leaf b = false := by
  obtain ⟨hgroups, hpending⟩ := h
  unfold unbindBusy
  rw [Bool.or_eq_false_iff]
  constructor
  · rw [List.any_eq_false]
    intro g hg
    simp only [Bool.and_eq_true, beq_iff_eq, not_and, Bool.or_eq_true, not_or, Bool.not_eq_true', and_imp]
    intro hvf hleaf hon
    obtain ⟨hstopped, hhalted⟩ := hgroups g hg hvf hleaf hon
    simp [hstopped, hhalted]
  · cases hst : b.stopped with
    | true => rfl
    | false => simp [hpending hst]

theorem unbindBusy_resident {leaf : Nat} {b : Binding} {g : Group} (hruns : b.stopped = false) (hg : g ∈ s.m.groups) (hvf : g.env.vf = vf)
    (hleaf : g.env.leaf = leaf) (hon : g.onCore = true) : unbindBusy s vf leaf b = true := by
  have hany : s.m.groups.any (fun g => g.env.vf == vf && g.env.leaf == leaf && g.onCore && (!b.stopped || g.haltable)) = true :=
    List.any_eq_true.2 ⟨g, hg, by simp [hvf, hleaf, hon, hruns]⟩
  rw [unbindBusy, hany, Bool.true_or]

/-! ### TSPLITW -/

/-- What TSPLITW does while no flush is under way (R326). -/
theorem tsplitw_open (ho : Open s vf) {value : Nat} (hidle : (s.m.vf vf).tsplitst ≠ 1) : exec (.tsplitw vf value) s = .next
    (if 20 < bitsOf value 0 1 + bitsOf value 8 5 + bitsOf value 16 5 then { s with m := ((s.m.onVf vf fun r => { r with tsplitst := 2 }).raise vf 0).raise vf 7 }
    else if bitsOf value 0 1 ≠ (s.cfg.part vf).tsScr ∧ (!s.m.noneResident vf) = true then
      { s with m := ((s.m.onVf vf fun r => { r with tsplitst := 3 }).raise vf 0).raise vf 7 }
    else { s with
      m := s.m.onVf vf fun r => { r with tsplitst := 1 }
      cfg := s.cfg.onPart vf fun p => { p with tsNext := some (bitsOf value 0 1, bitsOf value 8 5, bitsOf value 16 5) } }) := by
  show execTsplitw vf value s = _
  simp only [execTsplitw, vfWrite_open ho, if_neg hidle]

theorem tsplitw_flushing (ho : Open s vf) {value : Nat} (hflush : (s.m.vf vf).tsplitst = 1) : exec (.tsplitw vf value) s = .next s := by
  show execTsplitw vf value s = _
  simp only [execTsplitw, vfWrite_open ho, if_pos hflush]

end

/-- Settles O47, one register at a time; the order of BCTL's checks and a leaf that is bound and not stopped are log entry 21, swapped-out groups at UNBIND entry 22. -/
theorem driverWritesTakeEffect : Obligations.DriverWritesTakeEffect := by
  refine ⟨fun i vf s hi hunready => ?_, fun i vf s hi hready haway => ?_, fun s vf addr ho hnone hbinds => ?_, fun s vf addr ho hheld => ?_,
    fun s vf cols count ho hst hfree hok => ⟨_, bctlGo_open ho hst hfree, ?_⟩, fun s vf cols count st ho hst hfree hst' hbad => ⟨_, bctlGo_open ho hst hfree, ?_⟩,
    fun s vf b ho hb hempty => ⟨_, bctlUnbind_open ho rfl hb, ?_⟩, fun s vf value ho hidle hsum hscr => ?_, fun s vf value ho hidle hsum => ?_,
    fun s vf cols count ho hst => bctlGo_busy ho hst, fun s vf cols count b ho hst hb hruns => bctlGo_bound ho hst hb hruns,
    fun s vf leaf b g ho hleaf hb hruns hg hvf hgl hon => ?_, fun s vf value ho hidle hsum hscr hres => ?_, fun s vf value ho hflush => tsplitw_flushing ho hflush⟩
  · obtain ⟨f, hf⟩ := exec_vfWrite hi s
    rw [hf, vfWrite_unready hunready]
  · obtain ⟨f, hf⟩ := exec_vfWrite hi s
    rw [hf, vfWrite_away hready haway]
  · rw [rootWrite_open ho, if_pos ⟨hnone, hbinds⟩]
  · rw [rootWrite_open ho, if_neg]
    rintro ⟨hnone, hbinds⟩
    obtain hres | hbound := hheld
    · exact absurd (hres.symm.trans hnone) Bool.false_ne_true
    · exact hbound hbinds
  · rw [if_pos hok]
    exact ⟨(bctlBound_vf s vf cols count).1, bctlBound_binding s vf cols count, fun leaf => bctlBound_binding_ne s vf cols count⟩
  · subst hst'
    rw [if_neg hbad]
    obtain ⟨hbinds, hstatus⟩ := raise_binds ((bctlStart s vf cols count).onVf vf fun r =>
      { r with bstatus := bindStatus s.cfg vf (s.m.vf vf).bgraph cols count (bctlStart s vf cols count) }) vf 0
    refine ⟨?_, fun leaf => ?_⟩
    · rw [hstatus, vf_onVf]
    · rw [Mach.binding?, hbinds, vf_onVf, bctlStart, vf_onVf]
      rfl
  · rw [unbindBusy_empty hempty, if_neg Bool.false_ne_true, Mach.binding?, vf_onVf]
    exact ⟨rfl, find?_filter_leaf_self _ _⟩
  · rw [tsplitw_open ho hidle, if_neg (Nat.not_lt.2 hsum), if_neg]
    rintro ⟨hne, hres⟩
    obtain heq | hnone := hscr
    · exact hne heq
    · simp [hnone] at hres
  · rw [tsplitw_open ho hidle, if_pos hsum]
  · rw [bctlUnbind_open ho hleaf hb, unbindBusy_resident hruns hg hvf hgl hon, if_pos rfl]
  · rw [tsplitw_open ho hidle, if_neg (Nat.not_lt.2 hsum), if_pos ⟨hscr, by rw [hres]; rfl⟩]

end Sys2Proof.Machine
end

section
/-! PROOFS. What an engine at work leaves alone (08 R183 to R187, 17 R328): neither its reads and writes nor the stop of a partition's blocks touch groups or the registers of
functions. -/

namespace Sys2Proof.Machine

/-- Groups and the registers of functions are as they were. -/
structure Mach.Works (m n : Mach) : Prop where
  groups : n.groups = m.groups
  vfs : n.vfs = m.vfs

namespace Mach.Works

theorem refl (m : Mach) : m.Works m := ⟨rfl, rfl⟩

theorem trans {m n o : Mach} (h : m.Works n) (h' : n.Works o) : m.Works o := ⟨h'.groups.trans h.groups, h'.vfs.trans h.vfs⟩

theorem of_eq {α : Type} {m n : Mach} {r : Mach × α} {a : α} (h : m.Works r.1) (he : r = (n, a)) : m.Works n := by
  rw [he] at h
  exact h

theorem of_walkStep {m n : Mach} (h : m.WalkStep n) : m.Works n := by
  rw [h]
  exact ⟨rfl, rfl⟩

theorem foldl {α : Type} {f : Mach → α → Mach} (h : ∀ (m : Mach) x, m.Works (f m x)) (xs : List α) (m : Mach) : m.Works (xs.foldl f m) :=
  List.foldlRecOn (motive := m.Works) xs f (refl m) fun n hn x _ => hn.trans (h n x)

theorem vf {m n : Mach} (h : m.Works n) (v : Nat) : n.vf v = m.vf v := by rw [Mach.vf, h.vfs, Mach.vf]

variable (cfg : Cfg) (g : Group)

/-! ### Reads -/

theorem devRead (vf va n : Nat) (m : Mach) : m.Works (devRead cfg vf va n m).1 := by
  have htranslate := WalkStep.translate cfg m vf va false false
  unfold Machine.devRead
  split
  · next he => exact (of_walkStep htranslate).of_eq he
  · next he => exact (of_walkStep htranslate).of_eq he

theorem engByte (p : EPlace) (m : Mach) : m.Works (engByte cfg g p m).1 := by
  unfold Machine.engByte
  split
  · split <;> exact refl m
  · next va =>
    have hread := devRead cfg g.env.vf va 1 m
    split
    · exact refl m
    · split <;> next he => exact hread.of_eq he

theorem byte (eb : EngBuf) (p : EPlace) (m : Mach) : m.Works (eb.byte cfg g p m).1 := by
  unfold EngBuf.byte
  split
  · exact engByte cfg g p m
  · exact refl m

theorem read (eb : EngBuf) (p : EPlace) (m : Mach) : m.Works (eb.read cfg g p m).1 := by
  have hbyte := byte cfg g eb p m
  unfold EngBuf.read
  split <;> next he => exact hbyte.of_eq he

theorem bytes (eb : EngBuf) (ps : List EPlace) (m : Mach) : m.Works (eb.bytes cfg g ps m).1 := by
  induction ps generalizing m with
  | nil => exact refl m
  | cons p ps ih =>
    have hbyte := byte cfg g eb p m
    unfold EngBuf.bytes
    split
    · next he => exact hbyte.of_eq he
    · next n b he =>
      rw [he] at hbyte
      have hrest := ih n
      split <;> next he' => exact hbyte.trans (hrest.of_eq he')

theorem readAll (eb : EngBuf) (ps : List EPlace) (m : Mach) : m.Works (eb.readAll cfg g ps m).1 := by
  induction ps generalizing m eb with
  | nil => exact refl m
  | cons p ps ih =>
    have hread := read cfg g eb p m
    unfold EngBuf.readAll
    split
    · next he => exact trans (hread.of_eq he) (ih _ _)
    · exact hread

theorem engSym (r : Req) (eb : EngBuf) (tab : List (Nat × Nat × Nat)) (base n pos c l : Nat) (m : Mach) : m.Works (engSym cfg g r eb tab base n pos c l m).1 := by
  induction n generalizing pos c l m with
  | zero => exact refl m
  | succ n ih =>
    have hbyte := byte cfg g eb (ePlace r.ssp (base + pos / 8)) m
    unfold Machine.engSym
    split
    · next he => exact hbyte.of_eq he
    · next he =>
      rw [he] at hbyte
      dsimp only
      split
      · exact hbyte
      · exact hbyte.trans (ih _ _ _ _)

theorem engChunk (r : Req) (eb : EngBuf) (tab : List (Nat × Nat × Nat)) (base n pos : Nat) (m : Mach) : m.Works (engChunk cfg g r eb tab base n pos m).1 := by
  induction n generalizing pos m with
  | zero => exact refl m
  | succ n ih =>
    have hsym := engSym cfg g r eb tab base 15 pos 0 0 m
    unfold Machine.engChunk
    split
    · next he => exact hsym.of_eq he
    · next m' _ pos' he =>
      have hrest := ih pos' m'
      split <;> next he' => exact trans (hsym.of_eq he) (hrest.of_eq he')

theorem gatherSrc (r : Req) (eb : EngBuf) (i : Nat) (m : Mach) : m.Works (gatherSrc cfg g r eb i m).1 := by
  have hbytes := bytes cfg g eb (ePlaces true (r.aux + 4 * i) 4) m
  unfold Machine.gatherSrc
  split <;> next he => exact hbytes.of_eq he

theorem gatherAt (r : Req) (eb : EngBuf) (i : Nat) (m : Mach) : m.Works (gatherAt cfg g r eb i m).1 := by
  have hsrc := gatherSrc cfg g r eb (i / 2 ^ r.fmt) m
  unfold Machine.gatherAt
  split
  · next he => exact hsrc.of_eq he
  · next he => exact trans (hsrc.of_eq he) (bytes cfg g eb _ _)

theorem decompressAt (r : Req) (eb : EngBuf) (i : Nat) (m : Mach) : m.Works (decompressAt cfg g r eb i m).1 := by
  have htable := bytes cfg g eb r.table m
  unfold Machine.decompressAt
  split
  · next he => exact htable.of_eq he
  · next n tab he =>
    rw [he] at htable
    have hoff := bytes cfg g eb (ePlaces true (r.aux + 4 * (i / 4096)) 4) n
    split
    · next he' => exact htable.trans (hoff.of_eq he')
    · next n' o he' =>
      rw [he'] at hoff
      have hchunk := engChunk cfg g r eb (codeTable (codeLengths tab)) (r.src + bytesNat o) (min 4096 (r.len - i / 4096 * 4096)) 0 n'
      split <;> next hc => exact (htable.trans hoff).trans (hchunk.of_eq hc)

theorem quantSource (r : Req) (eb : EngBuf) (byRow : Bool) (b : Nat) (m : Mach) : m.Works (quantSource cfg g r eb byRow b m).1 := by
  unfold Machine.quantSource
  extract_lets e place
  have hbytes := bytes cfg g eb ((List.range 16).flatMap place) m
  split <;> next he => exact hbytes.of_eq he

theorem quantiseAt (r : Req) (eb : EngBuf) (i : Nat) (m : Mach) : m.Works (quantiseAt cfg g r eb i m).1 := by
  unfold Machine.quantiseAt
  extract_lets bs v s byRow j value b
  have hsource := quantSource cfg g r eb byRow b m
  split <;> next he => exact hsource.of_eq he

theorem bytesAt (r : Req) (eb : EngBuf) (i : Nat) (m : Mach) : m.Works (r.bytesAt cfg g eb i m).1 := by
  unfold Req.bytesAt
  split
  · exact bytes cfg g eb _ m
  · exact gatherAt cfg g r eb i m
  · exact refl m
  · exact decompressAt cfg g r eb i m
  · exact quantiseAt cfg g r eb i m

/-! ### Writes -/

theorem engPut1 (p : EPlace) (b : Byte) (m : Mach) : m.Works (engPut1 cfg g p b m).1 := by
  unfold Machine.engPut1
  split
  · split <;> exact ⟨rfl, rfl⟩
  · next va =>
    have hwrite : m.Works (devWrite cfg g.env.vf va 1 b.toNat m).1 := of_walkStep (WalkStep.writeVa cfg g.env.vf va 1 b.toNat m)
    split
    · exact refl m
    · split <;> next he => exact hwrite.of_eq he

theorem put (r : Req) (eb : EngBuf) (bs : List Byte) (i : Nat) (m : Mach) : m.Works (eb.put cfg g r i bs m).1 := by
  induction bs generalizing i m with
  | nil => exact refl m
  | cons b bs ih =>
    have hput : m.Works (if eb.wrote.contains i then (m, none) else Machine.engPut1 cfg g (r.dstAt i) b m).1 := by
      split
      · exact refl m
      · exact engPut1 cfg g _ _ m
    unfold EngBuf.put
    split
    · next he => exact hput.of_eq he
    · next n he => exact trans (hput.of_eq he) (ih (i + 1) n)

theorem engRun (r : Req) (eb : EngBuf) (n p : Nat) (m : Mach) : m.Works (engRun cfg g r eb n p m).1 := by
  induction n generalizing p m with
  | zero => exact refl m
  | succ n ih =>
    have hbytes := bytesAt cfg g r eb p m
    unfold Machine.engRun
    split
    · exact refl m
    · split
      · next he => exact hbytes.of_eq he
      · next m' bs he =>
        rw [he] at hbytes
        have hput := put cfg g r eb bs p m'
        split
        · next he' => exact hbytes.trans (hput.of_eq he')
        · next he' => exact (hbytes.trans (hput.of_eq he')).trans (ih _ _)

theorem prepare (r : Req) (eb : EngBuf) (m : Mach) : m.Works (r.prepare cfg g eb m).1 := by
  unfold Req.prepare
  split
  · have htable := readAll cfg g eb r.table m
    split
    · next n eb' he =>
      rw [he] at htable
      have hbytes := bytes cfg g eb' r.table n
      split <;> next he' => exact htable.trans (hbytes.of_eq he')
    · exact htable
  · exact readAll cfg g eb r.source m
  · exact refl m

/-! ### The stop of a partition's blocks (R328) -/

theorem engTo (r : Req) (eb : EngBuf) (stop n p : Nat) (m : Mach) : m.Works (engTo cfg g r eb stop n p m).1 := by
  induction n generalizing p m with
  | zero => exact refl m
  | succ n ih =>
    have hrun := engRun cfg g r eb 1 p m
    unfold Machine.engTo
    split
    · exact refl m
    · split
      · next he =>
        split
        · exact hrun.of_eq he
        · exact trans (hrun.of_eq he) (ih _ _)
      · next he => exact hrun.of_eq he

theorem engTo4K (r : Req) (eb : EngBuf) (p : Nat) (m : Mach) : m.Works (engTo4K cfg g r eb p m).1 := by
  have hprepare := prepare cfg g r eb m
  unfold Machine.engTo4K
  generalize min r.total (roundUp p 4096) = stop
  split
  · next he => exact hprepare.of_eq he
  · next n eb' he => exact trans (hprepare.of_eq he) (engTo cfg g r eb' stop (stop - p) p n)

theorem setReq (m : Mach) (gid req st p : Nat) : m.Works (m.setReq gid req st p) :=
  ⟨setWin32_groups .., setWin32_vfs ..⟩

theorem stopCopies (vf : Nat) (m : Mach) : m.Works (stopCopies cfg vf m) := by
  refine trans (foldl (fun n k => ?_) _ m) ⟨rfl, rfl⟩
  split
  · exact trans (engTo4K cfg _ _ _ _ n) (setReq _ _ _ _ _)
  · exact refl n

end Mach.Works

end Sys2Proof.Machine
end

section
/-! PROOFS. Function-level reset (17 R328): the drain that an FLR begins, and the empty partition that its end leaves. -/

namespace Sys2Proof.Machine

/-! ### Function-level reset: the drain -/

/-- The registers of a function that drains: READY is 0, and no write of the host is kept (R328). -/
structure Vf.Draining (r : Vf) : Prop where
  ready : r.ready = false
  drain : r.flrDrain = true
  held : r.held = []
  posted : r.posted = []

theorem Vf.Draining.of_eq {r r' : Vf} (h : r.Draining) (hready : r'.ready = r.ready) (hdrain : r'.flrDrain = r.flrDrain) (hheld : r'.held = r.held)
    (hposted : r'.posted = r.posted) : r'.Draining :=
  ⟨hready.trans h.ready, hdrain.trans h.drain, hheld.trans h.held, hposted.trans h.posted⟩

/-- A function of the machine drains. -/
def Mach.Drains (m : Mach) (vf : Nat) : Prop := (m.vf vf).Draining

namespace Mach.Drains

variable {m : Mach} {vf : Nat}

theorem of_vfs {n : Mach} (h : m.Drains vf) (hn : n.vfs = m.vfs) : n.Drains vf := by
  rw [Drains, Mach.vf, hn]
  exact h

/-- A change of registers that leaves those of a drain. -/
theorem onVf (h : m.Drains vf) (v : Nat) {f : Vf → Vf} (hf : ∀ r, r.Draining → (f r).Draining) : (m.onVf v f).Drains vf := by
  by_cases hv : v = vf
  · subst hv
    rw [Drains, vf_onVf]
    exact hf _ h
  · rw [Drains, vf_onVf_ne m f hv]
    exact h

theorem raise (h : m.Drains vf) (v b : Nat) : (m.raise v b).Drains vf := by
  have hcause : (m.onVf v fun r => { r with cause := r.cause ||| BitVec.ofNat 10 (2 ^ b) }).Drains vf := h.onVf v fun r hr => hr.of_eq rfl rfl rfl rfl
  unfold Mach.raise
  dsimp only
  split_ifs
  · exact h.onVf v fun r hr => hr.of_eq rfl rfl rfl rfl
  · exact h
  · exact hcause
  · exact hcause.of_vfs rfl
  · exact hcause.of_vfs (raisePf_vfs ..)
  · exact hcause

theorem frzRefill (h : m.Drains vf) (v n : Nat) : (m.frzRefill v n).Drains vf := by
  induction n generalizing m with
  | zero => exact h
  | succ n ih =>
    unfold Mach.frzRefill
    split
    · refine ih (raise (h.onVf v fun r hr => ?_) v 2)
      exact hr.of_eq rfl rfl rfl rfl
    · exact h

theorem unfreeze (h : m.Drains vf) (z : Frz) : (m.unfreeze z).Drains vf := by
  unfold Mach.unfreeze
  split <;> exact h.of_vfs rfl

theorem endFreezes (h : m.Drains vf) (v : Nat) (test : Frz → Bool) : (m.endFreezes v test).Drains vf := by
  unfold Mach.endFreezes
  refine frzRefill (onVf (foldl_keeps (fun n => n.Drains vf) h fun n z hn => hn.unfreeze z) v fun r hr => ?_) v 16
  exact hr.of_eq rfl rfl rfl rfl

theorem haltGroup (h : m.Drains vf) (g : Group) : (m.haltGroup g).Drains vf := by
  unfold Mach.haltGroup
  extract_lets frozen n₁ n₂ n₃ n₄ n₅
  have h₃ : n₃.Drains vf := h.of_vfs rfl
  have h₄ : n₄.Drains vf := h₃.onVf g.env.vf fun r hr => hr.of_eq rfl rfl rfl rfl
  have h₅ : n₅.Drains vf := h₄.of_vfs rfl
  refine endFreezes (onVf h₅ g.env.vf fun r hr => ?_) _ _
  exact hr.of_eq rfl rfl rfl rfl

end Mach.Drains

/-! ### Stops and groups of a drain -/

theorem raise_stops (m : Mach) (v b : Nat) : (m.raise v b).stops = m.stops := by rw [raise_keeps]

theorem frzRefill_stops (m : Mach) (vf n : Nat) : (m.frzRefill vf n).stops = m.stops := by
  induction n generalizing m with
  | zero => rfl
  | succ n ih =>
    unfold Mach.frzRefill
    split
    · exact (ih _).trans (raise_stops ..)
    · rfl

theorem unfreeze_stops (m : Mach) (z : Frz) : (m.unfreeze z).stops = m.stops := by
  unfold Mach.unfreeze
  split <;> rfl

theorem endFreezes_stops (m : Mach) (vf : Nat) (test : Frz → Bool) : (m.endFreezes vf test).stops = m.stops :=
  (frzRefill_stops _ vf 16).trans (List.foldlRecOn (motive := fun n : Mach => n.stops = m.stops) _ Mach.unfreeze rfl fun n hn z _ => (unfreeze_stops n z).trans hn)

/-- No group of a function is one that a stop halts. -/
def Mach.AllHalted (m : Mach) (vf : Nat) : Prop := ∀ g ∈ m.groups, g.env.vf = vf → g.haltable = false

theorem haltable_of_stage {x y : Group} (h : y.stage = x.stage) : y.haltable = x.haltable := by rw [Group.haltable, Group.haltable, h]

theorem allHalted_of_halts {m n : Mach} {vf : Nat} (h : m.Halts [] n) (hm : m.AllHalted vf) : n.AllHalted vf := by
  obtain ⟨⟨F, hF, hstays⟩, _, _⟩ := h
  intro g hg hvf
  obtain ⟨x, hx, rfl⟩ := List.mem_map.1 (hF ▸ hg)
  obtain ⟨hstage, _, _⟩ := (hstays x).kept (by simp)
  rw [haltable_of_stage hstage]
  exact hm x hx ((hstays x).env ▸ hvf)

/-- Once every group of a function that a stop halts is halted, there is none (R328). -/
theorem foldl_haltGroup_allHalted (m : Mach) (vf : Nat) : ((m.groups.filter fun g => g.env.vf == vf && g.haltable).foldl Mach.haltGroup m).AllHalted vf := by
  obtain ⟨⟨F, hF, hstays⟩, _, _⟩ := foldl_haltGroup_halts (m.groups.filter fun g => g.env.vf == vf && g.haltable) m
  intro g hg hvf
  obtain ⟨x, hx, rfl⟩ := List.mem_map.1 (hF ▸ hg)
  by_cases hmem : x.gid ∈ (m.groups.filter fun g => g.env.vf == vf && g.haltable).map (·.gid)
  · obtain ⟨hstop, _⟩ := (hstays x).halted hmem
    rw [Group.haltable, hstop]
  · obtain ⟨hstage, _, _⟩ := (hstays x).kept hmem
    rw [haltable_of_stage hstage]
    by_contra hhalts
    refine hmem (List.mem_map_of_mem (List.mem_filter.2 ⟨hx, ?_⟩))
    rw [(hstays x).env] at hvf
    simp [hvf, hhalts]

/-- The machine in which an FLR has begun the drain, before groups and engines stop. -/
def flrBegun (s : State) (vf : Nat) : Mach :=
  (stopCopyNodes s.cfg vf s.m).onVf vf fun r => { r with ready := false, flrDrain := true, held := [], posted := [] }

/-- It once every group of the function is halted, once its blocks have stopped too, and once nothing waits and no freeze is left. -/
def flrHalted (s : State) (vf : Nat) : Mach := ((flrBegun s vf).groups.filter fun g => g.env.vf == vf && g.haltable).foldl Mach.haltGroup (flrBegun s vf)
def flrStopped (s : State) (vf : Nat) : Mach := stopCopies s.cfg vf (flrHalted s vf)
def flrDone (s : State) (vf : Nat) : Mach := ((flrStopped s vf).dropWaits vf).endFreezes vf fun _ => true

theorem flr_ready {s : State} {vf : Nat} (hvf : vf ≠ 0) (hready : (s.m.vf vf).ready = true) :
    exec (.flr vf) s = .next { s with m := flrDone s vf } := by
  show execFlr vf s = _
  simp only [execFlr, onMach, if_neg hvf, hready, Bool.not_true, Bool.false_eq_true, if_false]
  rfl

theorem flr_unready {s : State} {vf : Nat} (hvf : vf ≠ 0) (hready : (s.m.vf vf).ready = false) : exec (.flr vf) s = .next s := by
  show execFlr vf s = _
  simp only [execFlr, onMach, if_neg hvf, hready, Bool.not_false, if_true]

theorem flrStopped_works (s : State) (vf : Nat) : (flrHalted s vf).Works (flrStopped s vf) := Mach.Works.stopCopies s.cfg vf (flrHalted s vf)

theorem flrStopped_drains (s : State) (vf : Nat) : (flrStopped s vf).Drains vf := by
  have hbegun : (flrBegun s vf).Drains vf := by
    rw [Mach.Drains, flrBegun, vf_onVf]
    exact ⟨rfl, rfl, rfl, rfl⟩
  have hhalted : (flrHalted s vf).Drains vf := foldl_keeps (fun n => n.Drains vf) hbegun fun n g h => h.haltGroup g
  exact hhalted.of_vfs (flrStopped_works s vf).vfs

theorem flrStopped_allHalted (s : State) (vf : Nat) : (flrStopped s vf).AllHalted vf := by
  rw [Mach.AllHalted, (flrStopped_works s vf).groups]
  exact foldl_haltGroup_allHalted (flrBegun s vf) vf

theorem flrDone_drains (s : State) (vf : Nat) : (flrDone s vf).Drains vf := by
  have hdropped : ((flrStopped s vf).dropWaits vf).Drains vf := (flrStopped_drains s vf).of_vfs rfl
  exact hdropped.endFreezes vf fun _ => true

/-- What waits for a partition goes, and its groups are halted still. -/
theorem flrDone_allHalted (s : State) (vf : Nat) : (flrDone s vf).AllHalted vf :=
  allHalted_of_halts (endFreezes_halts ..) fun g hg => flrStopped_allHalted s vf g (List.mem_filter.1 hg).1

theorem flrDone_stops (s : State) (vf : Nat) : ∀ x ∈ (flrDone s vf).stops, x.1 ≠ vf := by
  rw [flrDone, endFreezes_stops]
  intro x hx
  simpa using (List.mem_filter.1 hx).2

/-- An FLR of a function in operation drains it (R328). -/
theorem flr_drains {s : State} {vf : Nat} (hvf : vf ≠ 0) (hready : (s.m.vf vf).ready = true) :
    ∃ m, exec (.flr vf) s = .next { s with m } ∧ m.Drains vf ∧ (∀ x ∈ m.stops, x.1 ≠ vf) ∧ m.AllHalted vf :=
  ⟨flrDone s vf, flr_ready hvf hready, flrDone_drains s vf, flrDone_stops s vf, flrDone_allHalted s vf⟩

/-! ### Function-level reset: the end -/

theorem discardSurface_surfs (cfg : Cfg) (x : Surf) (m : Mach) : (discardSurface cfg x m).surfs = m.surfs.filter fun y => !(y.vf == x.vf && y.idx == x.idx) := by
  unfold discardSurface
  dsimp only
  rw [putEntry_walkStep]
  rfl

/-- Surfaces that are discarded one after another are gone. -/
theorem mem_foldl_discardSurface {cfg : Cfg} {xs : List Surf} {m : Mach} {y : Surf} (hy : y ∈ (xs.foldl (fun m x => discardSurface cfg x m) m).surfs) :
    y ∈ m.surfs ∧ y ∉ xs := by
  induction xs generalizing m with
  | nil => exact ⟨hy, List.not_mem_nil⟩
  | cons x xs ih =>
    rw [List.foldl_cons] at hy
    obtain ⟨hmem, hrest⟩ := ih hy
    rw [discardSurface_surfs] at hmem
    obtain ⟨hm, hne⟩ := List.mem_filter.1 hmem
    refine ⟨hm, fun hcons => ?_⟩
    obtain rfl | h := List.mem_cons.1 hcons
    · simp at hne
    · exact hrest h

theorem zeroTowers_surfs (cfg : Cfg) (vf : Nat) (m : Mach) : (zeroTowers cfg vf m).surfs = m.surfs := by
  unfold zeroTowers
  exact foldl_keeps (fun n => n.surfs = m.surfs) rfl fun n c hn => hn

section
variable {s : State} {vf : Nat}

/-- The machine that the end of an FLR leaves of the partition's surfaces, banks and saved image, before its registers return to reset (R328). -/
def flrEmptied (s : State) (vf : Nat) : Mach :=
  let m := (s.m.surfs.filter fun x => x.vf == vf).foldl (fun m x => discardSurface s.cfg x m) (s.m.dropWaits vf)
  let m := { m with pix := m.pix.filter fun p => p.vf != vf }
  if (s.m.vf vf).away then { m with dmem := clearRange m.dmem (swimgRange s.cfg vf).1 (swimgRange s.cfg vf).2 }
  else { (zeroTowers s.cfg vf m) with
    occ := m.occ.filter fun e => !(partColumns s.cfg vf).contains (e.1 / 65536)
    draws := m.draws.filter fun d => !bitOf (s.cfg.part vf).twins d.twin }

theorem flrReady_done (hdrain : (s.m.vf vf).flrDrain = true) (hnone : ∀ g ∈ s.m.groups, g.env.vf ≠ vf) : exec (.flrReady vf) s = .next { s with
    m := (flrEmptied s vf).onVf vf fun r =>
      { ready := true, away := r.away, turnStart := r.turnStart, invseq := r.invseq, inv2seq := r.inv2seq, served := r.served }
    cfg := s.cfg.onPart vf fun p => { p with tsScr := 1, tsTdir := 0, tsSurf := 0, tsNext := none } } := by
  have hany : s.m.groups.any (fun g => g.env.vf == vf) = false := List.any_eq_false.2 fun g hg => by simp [hnone g hg]
  show execFlrReady vf s = _
  simp only [execFlrReady, hdrain, hany, Bool.not_true, Bool.or_self, Bool.false_eq_true, if_false]
  rfl

theorem flrEmptied_surfs : ∀ x ∈ (flrEmptied s vf).surfs, x.vf ≠ vf := by
  intro x hx
  have hleft : x ∈ ((s.m.surfs.filter fun x => x.vf == vf).foldl (fun m x => discardSurface s.cfg x m) (s.m.dropWaits vf)).surfs := by
    unfold flrEmptied at hx
    extract_lets m m' at hx
    split at hx
    · exact hx
    · rw [zeroTowers_surfs] at hx
      exact hx
  obtain ⟨hmem, hkept⟩ := mem_foldl_discardSurface hleft
  intro hvf
  exact hkept (List.mem_filter.2 ⟨hmem, by simpa using hvf⟩)

end

end Sys2Proof.Machine
end

section
/-! PROOFS. Partitions (17 R314, R315, R326, R328; 18 R330, R343, R344): they are opened, closed, shared, reset and switched. -/

namespace Sys2Proof.Machine

section
variable {s : State} {vf : Nat}

/-! ### Partition descriptors -/

theorem partitionDescriptorWrite_opens (hlo : 1 ≤ vf) (hhi : vf ≤ 63) {w0 : Nat} (w1 w2 : Nat) (hoff : (s.cfg.part vf).en = false) (hen : bitOf w0 31 = true)
    (hok : enableOk s.cfg vf (bitsOf w0 8 8) (bitsOf w0 0 6) = true) : exec (.partitionDescriptorWrite vf w0 w1 w2) s = .next { s with
      cfg := s.cfg.onPart vf (·.opened w0 w1 w2)
      m := s.m.onVf vf fun r => { r with
        ready := s.fleet.booted && !s.fleet.halted && !r.flrDrain, away := setLoaded s.cfg s.m vf (bitsOf w0 8 8) (bitsOf w0 0 6)
        turnStart := s.m.etime, served := startShare s.cfg s.m vf (bitsOf w0 8 8) (bitsOf w0 0 6) } } := by
  have hvf : ¬ (vf = 0 ∨ 63 < vf) := by omega
  show execPartitionDescriptorWrite vf w0 w1 w2 s = _
  simp only [execPartitionDescriptorWrite, if_neg hvf, hoff, hen, hok, Bool.and_self, Bool.true_and, Bool.not_true, Bool.and_false, Bool.false_eq_true, if_false,
    if_true]
  rfl

theorem partitionDescriptorWrite_refused (hlo : 1 ≤ vf) (hhi : vf ≤ 63) {w0 : Nat} (w1 w2 : Nat) (hoff : (s.cfg.part vf).en = false) (hen : bitOf w0 31 = true)
    (hbad : enableOk s.cfg vf (bitsOf w0 8 8) (bitsOf w0 0 6) = false) : ∃ f : Part → Part, (∀ p, (f p).en = false)
      ∧ exec (.partitionDescriptorWrite vf w0 w1 w2) s = .next { s with cfg := s.cfg.onPart vf f, m := s.m.raisePf 0 } := by
  have hvf : ¬ (vf = 0 ∨ 63 < vf) := by omega
  refine ⟨fun p => { p.shared (bitOf w1 24) (bitsOf w1 16 6) (bitsOf w1 8 6) (bitsOf w1 0 6) with
    en := false, slice := bitsOf w0 8 8, twins := bitsOf w0 0 6, quant := w2 }, fun p => rfl, ?_⟩
  show execPartitionDescriptorWrite vf w0 w1 w2 s = _
  simp only [execPartitionDescriptorWrite, if_neg hvf, hoff, hen, hbad, Bool.and_false, Bool.false_and, Bool.not_false, Bool.and_self, Bool.false_eq_true, if_false,
    if_true]
  rfl

theorem partitionDescriptorWrite_closes (hlo : 1 ≤ vf) (hhi : vf ≤ 63) {w0 : Nat} (w1 w2 : Nat) (hon : (s.cfg.part vf).en = true) (hen : bitOf w0 31 = false) :
    exec (.partitionDescriptorWrite vf w0 w1 w2) s = .next { s with
      cfg := s.cfg.onPart vf fun p => { p with
        en := false, shareNext := some (bitOf w1 24, bitsOf w1 16 6, bitsOf w1 8 6, bitsOf w1 0 6), shareAt := (s.m.etime / 1000000 + 1) * 1000000 }
      m := s.m.onVf vf fun r => { r with ready := false } } := by
  have hvf : ¬ (vf = 0 ∨ 63 < vf) := by omega
  show execPartitionDescriptorWrite vf w0 w1 w2 s = _
  simp only [execPartitionDescriptorWrite, if_neg hvf, hon, hen, Bool.false_eq_true, if_false, if_true]

/-! ### Shares, the stage-2 root and TSPLIT -/

theorem shareUpdate_early (hearly : s.m.etime < (s.cfg.part vf).shareAt) : exec (.shareUpdate vf) s = .next s := by
  show execShareUpdate vf s = _
  unfold execShareUpdate
  split
  · rfl
  · rw [if_pos hearly]

theorem shareUpdate_due {cap : Bool} {cir g7 l2 : Nat} (hnext : (s.cfg.part vf).shareNext = some (cap, cir, g7, l2)) (hdue : (s.cfg.part vf).shareAt ≤ s.m.etime) :
    exec (.shareUpdate vf) s = .next { s with cfg := s.cfg.onPart vf (·.shared cap cir g7 l2) } := by
  show execShareUpdate vf s = _
  simp only [execShareUpdate, hnext, Nat.not_lt.2 hdue, if_false]
  rfl

theorem s2rootWrite_enabled (hon : (s.cfg.part vf).en = true) (addr : Nat) : exec (.s2rootWrite vf addr) s = .next s := by
  show execS2rootWrite vf addr s = _
  simp only [execS2rootWrite, hon, true_or, if_true]

theorem s2rootWrite_disabled (hoff : (s.cfg.part vf).en = false) (hlo : 1 ≤ vf) (hhi : vf ≤ 63) (addr : Nat) : exec (.s2rootWrite vf addr) s
    = .next { s with cfg := s.cfg.onPart vf fun p => { p with s2root := bitsOf addr 0 57 / 2 ^ 21 * 2 ^ 21 } } := by
  have hno : ¬ ((s.cfg.part vf).en = true ∨ vf = 0 ∨ 63 < vf) := by simp [hoff, Nat.ne_of_gt hlo, hhi]
  show execS2rootWrite vf addr s = _
  simp only [execS2rootWrite, if_neg hno]

/-- The machine once each portion that changes is flushed (R326). -/
def tsplitFlushed (s : State) (vf scr tdir surf : Nat) : Mach :=
  let p := s.cfg.part vf
  let m := if surf ≠ p.tsSurf ∨ tdir ≠ p.tsTdir ∨ scr ≠ p.tsScr then spillAll s.cfg vf s.m else s.m
  if tdir ≠ p.tsTdir ∨ scr ≠ p.tsScr then zeroTowers s.cfg vf m else m

theorem tsplitFlushComplete_done {scr tdir surf : Nat} (hnext : (s.cfg.part vf).tsNext = some (scr, tdir, surf)) (hflush : (s.m.vf vf).tsplitst = 1)
    (htouch : touchSpill s.cfg vf s.m = (s.m, .ready)) : exec (.tsplitFlushComplete vf) s = .next { s with
      m := ((tsplitFlushed s vf scr tdir surf).onVf vf fun r => { r with tsplitst := 0 }).raise vf 7
      cfg := s.cfg.onPart vf fun p => { p with tsScr := scr, tsTdir := tdir, tsSurf := surf, tsNext := none } } := by
  show execTsplitFlushComplete vf s = _
  simp only [execTsplitFlushComplete, hnext, hflush, htouch, ne_eq, not_true, if_false, reduceCtorEq]
  rfl

/-! ### Switches -/

theorem partitionSwitch_same {out : Nat} (h : switchable s.cfg out out s.m = true) : exec (.partitionSwitch out out) s
    = .next { s with m := s.m.onVf out fun r => { r with served := loadedTime s.m out, turnStart := s.m.etime } } := by
  show execPartitionSwitch out out s = _
  simp only [execPartitionSwitch, h, Bool.not_true, Bool.false_eq_true, if_false, if_true]

theorem partitionSwitch_busy {out inn : Nat} (hne : inn ≠ out) (h : switchable s.cfg out inn s.m = true) (hbusy : switchBusy out (switchOut s.cfg out s.m) = true) :
    exec (.partitionSwitch out inn) s = .next { s with m := switchOut s.cfg out s.m } := by
  show execPartitionSwitch out inn s = _
  simp only [execPartitionSwitch, h, hbusy, hne, Bool.not_true, Bool.false_eq_true, if_false, if_true]

theorem switchFault_good (cfg : Cfg) (vf : Nat) (m : Mach) : switchFault cfg vf false m = m := rfl

/-- Without a fault, the steps 2 to 5 of a switch put the outgoing partition away and bring the incoming one back (R343). -/
theorem switchOver_good {out inn : Nat} (hsaved : swimgLost s.cfg out (switchStart s out) = false) (hloaded : imageLost s.cfg inn (switchPut s out) = false) :
    switchOver s.cfg out inn (switchStart s out) = switched s out inn := by
  unfold switchOver
  rw [hsaved, switchFault_good]
  extract_lets saved spilled away bad
  have hbad : bad = false := hloaded
  rw [hbad, switchFault_good]
  rfl

theorem partitionSwitch_done {out inn : Nat} (hne : inn ≠ out) (h : switchable s.cfg out inn s.m = true)
    (hidle : switchBusy out (switchOut s.cfg out s.m) = false) (hfits : (swimgRange s.cfg out).2 % 2 ^ 42 ≤ deviceBytes)
    (htouch : touchSpill s.cfg out (switchOut s.cfg out s.m) = (switchOut s.cfg out s.m, .ready))
    (hsaved : swimgLost s.cfg out (switchStart s out) = false) (hloaded : imageLost s.cfg inn (switchPut s out) = false) :
    exec (.partitionSwitch out inn) s = .next { s with m := switched s out inn, agenda := s.agenda ++ (s.m.vf inn).held } := by
  rw [← switchOver_good hsaved hloaded]
  show execPartitionSwitch out inn s = _
  simp only [execPartitionSwitch, h, hidle, hne, htouch, Nat.not_lt.2 hfits, Bool.not_true, Bool.false_eq_true, if_false, reduceCtorEq]
  rfl

end

/-- Settles O49, one event at a time; READY 0 of a disabled partition and the dropped low bits of S2ROOT are log entry 23, the order of turns entry 54. -/
theorem partitionsOpenSwitchAndReset : Obligations.PartitionsOpenSwitchAndReset := by
  refine ⟨fun s vf w0 w1 w2 hlo hhi hoff hen hok => ⟨_, partitionDescriptorWrite_opens hlo hhi w1 w2 hoff hen hok, rfl, ?_⟩,
    fun s vf w0 w1 w2 hlo hhi hoff hen hbad => ?_, fun s vf w0 w1 w2 hlo hhi hon hen => ⟨_, partitionDescriptorWrite_closes hlo hhi w1 w2 hon hen, ?_⟩,
    fun s vf hearly => shareUpdate_early hearly, fun s vf cap cir g7 l2 hnext hdue => shareUpdate_due hnext hdue, fun s vf addr hon => s2rootWrite_enabled hon addr,
    fun s vf addr hoff hlo hhi => s2rootWrite_disabled hoff hlo hhi addr, fun s vf scr tdir surf hnext hflush htouch => ?_,
    fun s vf hvf hready => ?_, fun s vf hvf hready => flr_unready hvf hready,
    fun s vf hdrain hnone => ⟨_, flrReady_done hdrain hnone, ?_⟩, fun s out h => partitionSwitch_same h, fun s out inn => partitionSwitch_busy,
    fun s out inn => partitionSwitch_done⟩
  · rw [vf_onVf]
    exact ⟨rfl, rfl, rfl⟩
  · obtain ⟨f, hf, hexec⟩ := partitionDescriptorWrite_refused hlo hhi w1 w2 hoff hen hbad
    exact ⟨_, hexec, rfl, by rw [part_onPart, hf]⟩
  · rw [part_onPart, vf_onVf]
    exact ⟨rfl, rfl, rfl, rfl⟩
  · refine ⟨_, tsplitFlushComplete_done hnext hflush htouch, ?_, rfl⟩
    rw [raise_vf_self, vf_onVf]
    split <;> rfl
  · obtain ⟨m, hexec, ⟨hoff, hdrain, hheld, hposted⟩, hstops, hhalted⟩ := flr_drains hvf hready
    exact ⟨_, hexec, hoff, hdrain, hheld, hposted, hstops, hhalted⟩
  · rw [vf_onVf, part_onPart]
    exact ⟨rfl, rfl, rfl, rfl, rfl, rfl, rfl, rfl, flrEmptied_surfs⟩

end Sys2Proof.Machine
end

section
/-! PROOFS. The module in its fleet (17 R313, R329; 18 R338; 19 R350 to R357, R362, R363): domain, via groups, channels, module fault and reset, loss of power, the link. -/

namespace Sys2Proof.Machine

section
variable {s : State}

/-! ### Domain membership -/

theorem join_refused {number : Nat} (h : s.cfg.anyEnabled = true ∨ 9215 < number) : exec (.join number) s = .next { s with m := s.m.raisePf 0 } := by
  show execJoin number s = _
  rw [execJoin, if_pos h]

/-- A change of the domain state changes the PF's registers alone of the machine. -/
theorem setDomain_keeps (f : Fleet) (s : State) : (setDomain f s).m = { s.m with pf := (setDomain f s).m.pf } := by
  unfold setDomain
  dsimp only
  split
  · rfl
  · exact raisePf_keeps s.m 5

/-- A change of IN or DUP raises DOM. -/
theorem setDomain_raises {f : Fleet} (h : f.domIn ≠ s.fleet.domIn ∨ f.domDup ≠ s.fleet.domDup) : setDomain f s = { s with m := s.m.raisePf 5, fleet := f } := by
  unfold setDomain
  have hchange : (f.domIn == s.fleet.domIn && f.domDup == s.fleet.domDup && f.domAligned == s.fleet.domAligned) = false := by
    obtain h | h := h <;> simp [h]
  simp only [hchange, Bool.false_eq_true, if_false]

theorem join_starts {number : Nat} (hnone : s.cfg.anyEnabled = false) (hnum : number ≤ 9215) : exec (.join number) s
    = .next (setDomain { s.fleet with domJoin := true, domNum := number, domIn := false, domDup := false, domAligned := false }
        { s with m := { s.m with module := number } }) := by
  show execJoin number s = _
  rw [execJoin, if_neg (by simp only [hnone, Bool.false_eq_true, false_or]; omega)]

theorem domainLeave_leaves (hnone : s.cfg.anyEnabled = false) : exec .domainLeave s
    = .next (setDomain { s.fleet with domJoin := false, domIn := false, domDup := false, domAligned := false } s) := by
  show execDomainLeave s = _
  rw [execDomainLeave, if_neg (by rw [hnone]; exact Bool.false_ne_true)]

theorem domainEntry_answered (dup : Bool) (hjoin : s.fleet.domJoin = true) (hin : s.fleet.domIn = false) (hdup : s.fleet.domDup = false) :
    exec (.domainEntry dup) s = .next { s with m := s.m.raisePf 5, fleet := { s.fleet with domIn := !dup, domDup := dup } } := by
  have hchange : (!dup) ≠ s.fleet.domIn ∨ dup ≠ s.fleet.domDup := by
    rw [hin, hdup]
    cases dup <;> simp
  show execDomainEntry dup s = _
  rw [execDomainEntry, hjoin, hin, hdup, if_neg (by decide), setDomain_raises hchange]

theorem le_passTo_etime (m : Mach) (t : Nat) : t ≤ (m.passTo t).etime := Nat.le_max_right ..

theorem etimeAligned_aligns (hin : s.fleet.domIn = true) :
    ∃ t, exec .etimeAligned s = .next t ∧ t.fleet = { s.fleet with domAligned := true } ∧ s.m.etime ≤ t.m.etime := by
  have hexec : exec .etimeAligned s = .next (setDomain { s.fleet with domAligned := true }
      { s with m := { s.m.passTo (s.m.etime + Config.freeTime s.m.free) with free := (s.m.passTo (s.m.etime + Config.freeTime s.m.free)).free + 1 } }) := by
    show execEtimeAligned s = _
    rw [execEtimeAligned, hin, if_neg (by decide)]
  refine ⟨_, hexec, rfl, ?_⟩
  rw [setDomain_keeps]
  exact (Nat.le_add_right ..).trans (le_passTo_etime ..)

/-! ### Repair -/

/-- The machine in which a via group has moved down its table, before the move is counted (R352). -/
def viaMoved (m : Mach) (col tower group : Nat) : Mach := { m with
  vias := SMap.set 0 m.vias ((col * 48 + tower) * 9 + group) (m.via col tower group + 1)
  towers := SMap.modify {} m.towers (col * 48 + tower) fun t => { t with slow := t.slow ||| BitVec.ofNat 10 (2 ^ group) } }

theorem viaGroupStateChange_moves {col tower group : Nat} (hstate : s.m.via col tower group < 2) (hgroup : group < 9) :
    exec (.viaGroupStateChange col tower group) s = .next { s with m := (viaMoved s.m col tower group).count col (3 + s.m.via col tower group) } := by
  show execViaGroupStateChange col tower group s = _
  simp only [execViaGroupStateChange, onMach, if_neg (show ¬ (2 ≤ s.m.via col tower group ∨ 9 ≤ group) by omega)]
  rfl

theorem viaMoved_via (m : Mach) (col tower group : Nat) : (viaMoved m col tower group).via col tower group = m.via col tower group + 1 := by
  rw [Mach.via, viaMoved, SMap.get_set_self]

theorem viaMoved_slow (m : Mach) (col tower group : Nat) : (viaMoved m col tower group).slow col tower = m.slow col tower ||| BitVec.ofNat 10 (2 ^ group) := by
  rw [Mach.slow, viaMoved, SMap.get_modify_self]
  rfl

theorem channelNarrow_narrows {col c : Nat} (h : SMap.get 0 s.fleet.chans (chanKey col c) = 0) : exec (.channelNarrow col c) s = .next { s with
    m := s.m.count col 9, fleet := { s.fleet with chans := SMap.set 0 s.fleet.chans (chanKey col c) 1 } } := by
  show Host.Outcome.next (narrow col c s) = _
  rw [narrow, if_pos h]

theorem channelRetire_spare {col c : Nat} (half : Bool) (hchan : SMap.get 0 s.fleet.chans (chanKey col c) ≠ 2) (hspare : SMap.get 0 s.fleet.spares col = 0) :
    exec (.channelRetire col c half) s = .next { s with m := s.m.count col 10, fleet := { s.fleet with
      spares := SMap.set 0 s.fleet.spares col 1, chans := SMap.set 0 s.fleet.chans (chanKey col c) 2 } } := by
  show execChannelRetire col c half s = _
  simp only [execChannelRetire, if_neg hchan, if_pos hspare]

theorem channelRetire_kept {col c : Nat} (hchan : SMap.get 0 s.fleet.chans (chanKey col c) ≠ 2) (hspare : SMap.get 0 s.fleet.spares col ≠ 0) :
    exec (.channelRetire col c false) s = .next { s with m := s.m.raisePf 2, fleet := { s.fleet with
      spareout := SMap.set 0 s.fleet.spareout (chanKey col c) 1 } } := by
  show execChannelRetire col c false s = _
  simp only [execChannelRetire, if_neg hchan, if_neg hspare, Bool.false_eq_true, if_false]

/-! ### Module fault -/

theorem SMap.get_map_snd {α β : Type} (d : α) (d' : β) (f : α → β) (hd : f d = d') (xs : SMap α) (k : Nat) :
    SMap.get d' (xs.map fun e => (e.1, f e.2)) k = f (SMap.get d xs k) := by
  induction xs with
  | nil => exact hd.symm
  | cons e rest ih =>
    show (if e.1 = k then f e.2 else SMap.get d' (rest.map _) k) = f (if e.1 = k then e.2 else SMap.get d rest k)
    rw [ih, apply_ite f]

/-- A function that reads READY 0, and a machine in which every function does (R338). -/
def Vf.unready (r : Vf) : Vf := { r with ready := false }
def Mach.unready (m : Mach) : Mach := { m with vfs := m.vfs.map fun e => (e.1, e.2.unready) }

theorem unready_vf (m : Mach) (vf : Nat) : (m.unready.vf vf).ready = false :=
  congrArg Vf.ready (SMap.get_map_snd ({} : Vf) ({} : Vf) Vf.unready rfl m.vfs vf)

theorem raisePf_cause (m : Mach) {b : Nat} (hb : b < 7) : (m.raisePf b).pf.cause.getLsbD b = true := by
  unfold Mach.raisePf
  split
  · assumption
  · have hset : (m.pf.cause ||| BitVec.ofNat 7 (2 ^ b)).getLsbD b = true := by
      rw [BitVec.getLsbD_or, BitVec.getLsbD_ofNat, Nat.testBit_two_pow_self]
      simp [hb]
    dsimp only
    split <;> exact hset

theorem moduleFault_halts (h : s.fleet.halted = false) : ∃ (m : Mach) (f : Fleet), exec .moduleFault s = .next { s with m := m.unready.raisePf 1, fleet := f }
    ∧ f.halted = true ∧ m.dmem = s.m.dmem := by
  show ∃ (m : Mach) (f : Fleet), execModuleFault s = _ ∧ _
  unfold execModuleFault
  rw [h, if_neg Bool.false_ne_true]
  refine ⟨_, _, rfl, rfl, ?_⟩
  split <;> rfl

/-! ### Module reset -/

/-- Boot leaves the module running and its fuses as they are. -/
theorem bootFrom_keeps (code : Nat) (imgs : List (List Byte)) (f : Fleet) :
    (bootFrom code imgs f).halted = f.halted ∧ (bootFrom code imgs f).fuses = f.fuses := by
  induction imgs generalizing f with
  | nil => exact ⟨rfl, rfl⟩
  | cons img rest ih =>
    unfold bootFrom
    split
    · exact ⟨rfl, rfl⟩
    · exact ih _

/-- The repair table's retired towers and their via groups are all that a module reset changes of what a restart leaves (R354). -/
theorem retireTowers_keeps (m : Mach) : retireTowers m = { m with towers := (retireTowers m).towers, vias := (retireTowers m).vias } := by
  refine foldl_keeps (fun n : Mach => n = { m with towers := n.towers, vias := n.vias }) rfl fun n i hn => ?_
  split
  · rw [hn]
  · exact hn

theorem moduleReset_boots (h : s.fleet.powered = true) : exec .moduleReset s
    = .next (bootState { m := retireTowers s.m.restart, cfg := {}, fleet := s.fleet.restart, agenda := s.agenda }) := by
  show execModuleReset s = _
  rw [execModuleReset, h, if_neg (by decide)]

/-! ### The link -/

theorem linkTraining_trains {rate width : Nat} (hrate : rate ∈ linkRates) (hwidth : width ∈ [1, 4, 8, 16]) : exec (.linkTraining rate width true) s
    = .next { s with fleet := { s.fleet with linkUp := true, linkRate := rate, linkWidth := width } } := by
  show execLinkTraining rate width true s = _
  rw [execLinkTraining, List.contains_iff_mem.2 hrate, List.contains_iff_mem.2 hwidth, Bool.and_self, Bool.and_self, if_pos rfl]

theorem linkTraining_unflitted (rate width : Nat) : exec (.linkTraining rate width false) s
    = .next { s with fleet := { s.fleet with linkUp := false } } := by
  show execLinkTraining rate width false s = _
  rw [execLinkTraining, Bool.false_and, Bool.false_and, if_neg Bool.false_ne_true]

end

/-- Settles O51, one event at a time; that a module reset keeps device memory and clears the rest is log entry 26. -/
theorem moduleEventsKeepTheFleetRules : Obligations.ModuleEventsKeepTheFleetRules := by
  refine ⟨fun s number h => join_refused h, fun s number hnone hnum => ⟨_, join_starts hnone hnum, by rw [setDomain_keeps], rfl⟩,
    fun s hnone => ⟨_, domainLeave_leaves hnone, rfl⟩, fun s dup hjoin hin hdup => ⟨_, domainEntry_answered dup hjoin hin hdup, rfl, rfl⟩,
    fun s hin => etimeAligned_aligns hin,
    fun s col tower group hstate hgroup => ⟨_, viaGroupStateChange_moves hstate hgroup, viaMoved_via .., viaMoved_slow .., rfl⟩,
    fun s col c h => ⟨_, channelNarrow_narrows h, SMap.get_set_self 0 _ _ 1, rfl⟩,
    fun s col c half hchan hspare => ⟨_, channelRetire_spare half hchan hspare, SMap.get_set_self 0 _ _ 2, SMap.get_set_self 0 _ _ 1, rfl⟩,
    fun s col c hchan hspare => ⟨_, channelRetire_kept hchan hspare, rfl, SMap.get_set_self 0 _ _ 1⟩, fun s hrun => ?_, fun s hpower => ?_,
    fun s => ⟨_, rfl, rfl, rfl, rfl, rfl, rfl, rfl⟩, fun s rate width hrate hwidth => linkTraining_trains hrate hwidth,
    fun s rate width => linkTraining_unflitted rate width⟩
  · obtain ⟨m, f, hexec, hhalted, hdmem⟩ := moduleFault_halts hrun
    refine ⟨_, hexec, hhalted, ?_, fun vf => ?_, raisePf_cause _ (by decide)⟩
    · rw [raisePf_keeps]
      exact hdmem
    · rw [Mach.vf, raisePf_vfs]
      exact unready_vf m vf
  · obtain ⟨hhalted, hfuses⟩ := bootFrom_keeps (Config.freeBits (retireTowers s.m.restart).free % 2 ^ 32) s.fleet.restart.stages
      { s.fleet.restart with powered := true, halted := false, measure := 0 }
    refine ⟨_, moduleReset_boots hpower, hhalted, ?_, ?_, ?_, ?_, ?_, rfl, hfuses⟩ <;> (rw [bootState, retireTowers_keeps]; rfl)

end Sys2Proof.Machine
end

section
/-! PROOFS. Walks of stalled accesses (18 R331 to R334, R338; 19 R362): what a two-stage walk caches or marks for a stop, and how the events of a stalled access end. -/

namespace Sys2Proof.Machine

/-! ### What a walk leaves -/

/-- A translation that a walk finds is cached (R334). -/
theorem translateWalk_caches {cfg : Cfg} {m m' : Mach} {vf va : Nat} {write fetch : Bool} {e : TlbEnt}
    (h : translateWalk cfg m vf va write fetch = (m', .ok e)) : e ∈ m'.tlb := by
  unfold translateWalk at h
  split at h
  · cases h
    exact List.mem_cons_self
  · cases h
  · next hok _ => exact absurd h (hok m' e)

/-- An uncorrectable error in a table marks the whole partition for its stop (R338). -/
theorem translateWalk_lost_marks {cfg : Cfg} {m m' : Mach} {vf va : Nat} {write fetch : Bool}
    (h : translateWalk cfg m vf va write fetch = (m', .lost)) : ∃ e ∈ m'.stops, e.1 = vf ∧ e.2 / 256 = wholePartition := by
  unfold translateWalk at h
  split at h
  · cases h
  · cases h
    exact queueStop_marks _ _ _ _ (by decide)
  · next hlost => exact absurd h (hlost m')

/-- A walk changes no group. -/
theorem translateWalk_groups {cfg : Cfg} {m m' : Mach} {vf va : Nat} {write fetch : Bool} {r : TransRes}
    (h : translateWalk cfg m vf va write fetch = (m', r)) : m'.groups = m.groups := by
  have hwalk := Mach.WalkStep.translateWalk cfg m vf va write fetch
  rw [h] at hwalk
  have hstep : m.WalkStep m' := hwalk
  rw [hstep]

/-! ### The freeze of a group -/

/-- An entry in the freeze log changes no group. -/
theorem logFreeze_groups (m : Mach) (vf : Nat) (z : Frz) : (m.logFreeze vf z).groups = m.groups := by
  unfold Mach.logFreeze
  dsimp only
  split <;> (rw [raise_keeps]; rfl)

/-- A group that is frozen, with its offence (R324). -/
def Group.frozenFor (g : Group) (a : Option Acc) : Group := { g with frozen := true, offence := a }

theorem freezeGroup_group? {m : Mach} {i : Nat} {g : Group} (hg : m.group? i = some g) (why what : Nat) (a : Option Acc) :
    (m.freezeGroup g why what a).group? i = some (g.frozenFor a) :=
  calc (m.freezeGroup g why what a).group? i
    _ = (m.onGroup g.gid (·.frozenFor a)).group? i := group?_of_groups (logFreeze_groups _ _ _) i
    _ = some (g.frozenFor a) := by rw [Mach.group?_onGroup _ _ _ (·.frozenFor a) fun _ => rfl, if_pos (Mach.group?_gid hg).symm, hg, Option.map_some]

/-! ### The events of a stalled access -/

section
variable {s : State} {col core idx : Nat} {g : Group} {a : Acc}

theorem accAt_group {m : Mach} (h : m.accAt col core idx = some (g, a)) : m.group? a.gid = some g := by
  unfold Mach.accAt at h
  split at h
  · cases h
  · split at h
    · next hg =>
      split at h
      · cases h
      · cases h
        exact hg
    · cases h

/-- A missing translation is walked for; the walk is the access's first (R331). -/
theorem translationWalk_walks (ha : s.m.accAt col core idx = some (g, a)) (hst : a.st = .missing) :
    exec (.translationWalk col core idx) s = .next { s with m := walkAcc s.cfg col core idx s.m.etime g a s.m } := by
  show execTranslationWalk col core idx s = _
  simp only [execTranslationWalk, onMach, ha, if_pos hst]

/-- A pending entry is walked again once 2 µs have passed since the last walk (R333). -/
theorem pendingRewalk_due {first last : Nat} {s2 : Bool} (ha : s.m.accAt col core idx = some (g, a)) (hst : a.st = .pending first last s2)
    (hdue : last + 2000000 ≤ s.m.etime) :
    exec (.pendingRewalk col core idx) s = .next { s with m := walkAcc s.cfg col core idx first g a s.m } := by
  show execPendingRewalk col core idx s = _
  simp only [execPendingRewalk, onMach, ha, hst, if_pos hdue]

theorem pendingRewalk_early {first last : Nat} {s2 : Bool} (ha : s.m.accAt col core idx = some (g, a)) (hst : a.st = .pending first last s2)
    (hearly : last + 2000000 > s.m.etime) : exec (.pendingRewalk col core idx) s = .next s := by
  show execPendingRewalk col core idx s = _
  simp only [execPendingRewalk, onMach, ha, hst, if_neg (Nat.not_le.2 hearly)]

/-- After 1 ms the walk fails in the stage whose entry is pending (R333, R334). -/
theorem pendingTimeout_due {first last : Nat} {s2 : Bool} (ha : s.m.accAt col core idx = some (g, a)) (hst : a.st = .pending first last s2)
    (hdue : first + 1000000000 ≤ s.m.etime) : exec (.pendingTimeout col core idx) s
      = .next { s with m := if s2 then walkFroze col core idx g a s.m else walkFailed col core idx a s.m } := by
  show execPendingTimeout col core idx s = _
  simp only [execPendingTimeout, onMach, ha, hst, if_pos hdue]

/-- A stage-1 failure of an access that does not speculate, and is no cache maintenance, is a fatal XLATE (R334). -/
theorem walkFailed_fatal (hspec : a.spec = false) (hop : ∀ k, a.op ≠ .maint k) (m : Mach) :
    walkFailed col core idx a m = (m.dropAcc col core idx).fatalAcc a .xlate := by
  unfold walkFailed
  split
  · next k hk => exact absurd hk (hop k)
  · rw [hspec, if_neg Bool.false_ne_true]

/-- A stage-2 failure of an access that is no cache maintenance freezes its group, with the access as the offence (R334). -/
theorem walkFroze_freezes {m : Mach} (hop : ∀ k, a.op ≠ .maint k) (hg : m.group? a.gid = some g) :
    ∃ g', (walkFroze col core idx g a m).group? a.gid = some g' ∧ g'.frozen = true ∧ g'.offence = some a := by
  unfold walkFroze
  split
  · next hk => exact absurd hk (hop 2)
  · next hk => exact absurd hk (hop 3)
  · exact ⟨_, freezeGroup_group? (m := m.dropAcc col core idx) hg _ _ _, rfl, rfl⟩

/-- An access to another module, outstanding for 100 µs, is an uncorrectable error (R362, R339). -/
theorem remoteAccessTimeout_due {pa : Nat} (ha : s.m.accAt col core idx = some (g, a)) (hpath : a.path = .glob)
    (hhit : s.m.tlbHit g.env.vf a.addr a.writes false = some pa) (hdev : pa < hostBase) (hfar : pa / 2 ^ 42 % 2 ^ 14 ≠ s.m.module)
    (hdue : a.since + 100000000 ≤ s.m.etime) :
    exec (.remoteAccessTimeout col core idx) s = .next { s with m := (s.m.dropAcc col core idx).fatalAcc a .dataloss } := by
  show execRemoteAccessTimeout col core idx s = _
  simp only [execRemoteAccessTimeout, onMach, ha, hpath, beq_self_eq_true, if_true, hhit, Option.any_some, hdev, hdue, decide_true,
    bne_iff_ne.2 hfar, Bool.and_self]

end

/-- Settles O35, one end of a walk at a time. -/
theorem walksEndAsTheEntrySays : Obligations.WalksEndAsTheEntrySays := by
  refine ⟨fun s col core idx g a m' e ha hst hw => ⟨_, translationWalk_walks ha hst, ?_, ?_⟩,
    fun s col core idx g a m' ha hst => ⟨fun s2 hw => ?_, fun hw => ⟨?_, translateWalk_lost_marks hw⟩⟩,
    fun s col core idx g a m' ha hst hspec hop hw => ?_, fun s col core idx g a m' ha hst hop hw => ⟨_, translationWalk_walks ha hst, ?_⟩,
    fun s col core idx g a first last s2 m' e ha hst hdue hw => ?_, fun s col core idx g a first last s2 ha hst hearly => pendingRewalk_early ha hst hearly,
    fun s col core idx g a first last ha hst hdue hspec hop => ?_, fun s col core idx g a first last ha hst hdue hop => ⟨_, pendingTimeout_due ha hst hdue, ?_⟩,
    fun s col core idx g a pa ha hpath hhit hdev hfar hdue => remoteAccessTimeout_due ha hpath hhit hdev hfar hdue⟩
  · simp only [walkAcc, hw]
  · simp only [walkAcc, hw]
    exact translateWalk_caches (m' := m') hw
  · rw [translationWalk_walks ha hst, walkAcc, hw]
  · rw [translationWalk_walks ha hst, walkAcc, hw]
  · rw [translationWalk_walks ha hst, walkAcc, hw]
    dsimp only
    rw [walkFailed_fatal hspec hop]
  · simp only [walkAcc, hw]
    exact walkFroze_freezes hop ((group?_of_groups (translateWalk_groups hw) _).trans (accAt_group ha))
  · rw [pendingRewalk_due ha hst hdue, walkAcc, hw]
  · rw [pendingTimeout_due ha hst hdue, if_neg Bool.false_ne_true, walkFailed_fatal hspec hop]
  · exact walkFroze_freezes hop (accAt_group ha)

end Sys2Proof.Machine
end

section
/-! PROOFS. What a driver does about translations and faults (17 R325; 18 R335, R337): invalidations, RESUME and STOP of engine faults, STOP and DISCARD of freezes. -/

namespace Sys2Proof.Machine

section
variable {s : State} {vf : Nat}

/-! ### Invalidations -/

/-- What is left after an invalidation of a function: the translations of others, and those of its own that the page, if one is named, does not touch (R335). -/
theorem mem_invalidate_tlb (m : Mach) (vf : Nat) (page : Option Nat) (e : TlbEnt) :
    e ∈ (invalidate m vf page).tlb ↔ e ∈ m.tlb ∧ (e.vf = vf → ∃ p, page = some p ∧ e.covers p = false) := by
  show e ∈ m.tlb.filter _ ↔ _
  rw [List.mem_filter]
  cases page with
  | none => simp
  | some p => simp [imp_iff_not_or]

theorem invalidate_invseq (m : Mach) (vf : Nat) (page : Option Nat) :
    ((invalidate m vf page).vf vf).invseq = ((m.vf vf).invseq + 1) % 2 ^ 32 := by
  rw [invalidate, vf_onVf]
  rfl

theorem invalPage_done (s : State) (vf value : Nat) :
    exec (.invalPage vf value) s = .next { s with m := invalidate s.m vf (some (bitsOf value 16 41)) } := by
  show execInvalPage vf value s = _
  rw [execInvalPage, onMach]

theorem invalAll_done (s : State) (vf : Nat) : exec (.invalAll vf) s = .next { s with m := invalidate s.m vf none } := by
  show execInvalAll vf s = _
  rw [execInvalAll, onMach]

/-- The machine after a stage-2 invalidation, which drops every translation of its function (Table 18.1; log entry 13). -/
def Mach.inv2Done (m : Mach) (vf : Nat) : Mach :=
  ({ m with tlb := m.tlb.filter fun e => e.vf != vf }).onVf vf fun r => { r with inv2seq := (r.inv2seq + 1) % 2 ^ 32 }

theorem mem_inv2Done_tlb (m : Mach) (vf : Nat) (e : TlbEnt) : e ∈ (m.inv2Done vf).tlb ↔ e ∈ m.tlb ∧ e.vf ≠ vf := by
  show e ∈ m.tlb.filter _ ↔ _
  rw [List.mem_filter, bne_iff_ne]

theorem inv2_done {value : Nat} (hop : bitsOf value 0 4 = 1 ∨ bitsOf value 0 4 = 2) : exec (.inv2 vf value) s = .next { s with m := s.m.inv2Done vf } := by
  show execInv2 vf value s = _
  simp only [execInv2, onMach, if_pos hop, Mach.inv2Done]

/-! ### Engine faults -/

/-- An answer to a fault of a partition that is not loaded is kept (R314). -/
theorem keepAway_away {m : Mach} (h : (m.vf vf).away = true) (i : Instr) (f : Mach → Mach) :
    m.keepAway vf i f = m.onVf vf fun r => { r with held := r.held ++ [i] } := if_pos h

theorem keepAway_loaded {m : Mach} (h : (m.vf vf).away = false) (i : Instr) (f : Mach → Mach) : m.keepAway vf i f = f m := by
  rw [Mach.keepAway, h, if_neg Bool.false_ne_true]

/-- A fault that a driver ends was in force, and no other one ends with it (R337). -/
theorem dropFault_faults {m : Mach} {idx : Nat} {z : EngFault} (hz : m.engFault? vf idx = some z) :
    ((m.dropFault vf idx).vf vf).faults.length + 1 = (m.vf vf).faults.length := by
  have hmem : z ∈ (m.vf vf).faults.reverse := List.mem_of_find?_eq_some hz
  have hpos := List.length_pos_of_mem hmem
  simp only [Mach.dropFault, hz, vf_onVf, List.length_reverse, List.length_erase_of_mem hmem]
  rw [List.length_reverse] at hpos
  omega

/-- Ending a fault changes registers alone: no core, and no window. -/
theorem dropFault_keeps (m : Mach) (vf idx : Nat) : (m.dropFault vf idx).cores = m.cores ∧ (m.dropFault vf idx).smem = m.smem := by
  unfold Mach.dropFault
  split <;> exact ⟨rfl, rfl⟩

/-- A request's STATE is written into the window as it stands. -/
theorem setReqState_smem {m n : Mach} (h : n.smem = m.smem) (gid req st : Nat) : (n.setReqState gid req st).smem = (m.setReqState gid req st).smem := by
  unfold Mach.setReqState Mach.setWin32 Mach.win32
  rw [h]

/-- A core whose block `k` is no longer faulted. -/
def Core.restart (c : Core) (k : Kick) : Core := { c with kicks := c.kicks.map fun x => if x == k then { x with faulted := false } else x }

/-- The machine once block `k` restarts at its request, whose STATE is 0 (R337). -/
def Mach.blockResumed (m : Mach) (vf idx : Nat) (z : EngFault) (k : Kick) : Mach :=
  ((m.dropFault vf idx).setReqState k.gid k.req 0).onCore z.column z.core (·.restart k)

theorem fresResume_block {m : Mach} {idx : Nat} {z : EngFault} {k : Kick} (hz : m.engFault? vf idx = some z) (hkind : z.kind = 1)
    (hk : (m.core z.column z.core).kicks.find? (fun k => k.gid == z.gid && k.off == z.off && k.faulted) = some k) :
    fresResume vf idx m = m.blockResumed vf idx z k := by
  simp only [fresResume, hz, if_pos hkind, hk]
  rfl

theorem blockResumed_vf (m : Mach) (vf idx : Nat) (z : EngFault) (k : Kick) : (m.blockResumed vf idx z k).vf vf = (m.dropFault vf idx).vf vf := by
  rw [Mach.blockResumed, Mach.vf, Mach.onCore_vfs, Mach.setReqState, Mach.setWin32_vfs, Mach.vf]

theorem blockResumed_core (m : Mach) (vf idx : Nat) (z : EngFault) (k : Kick) :
    (m.blockResumed vf idx z k).core z.column z.core = (m.core z.column z.core).restart k := by
  obtain ⟨hcores, -⟩ := dropFault_keeps m vf idx
  rw [Mach.blockResumed, core_onCore, Mach.core, Mach.setReqState, Mach.setWin32_cores, hcores, Mach.core]

theorem blockResumed_smem (m : Mach) (vf idx : Nat) (z : EngFault) (k : Kick) :
    (m.blockResumed vf idx z k).smem = (m.setReqState k.gid k.req 0).smem := by
  obtain ⟨-, hsmem⟩ := dropFault_keeps m vf idx
  rw [Mach.blockResumed, Mach.onCore_smem, setReqState_smem hsmem]

theorem resume_loaded (h : (s.m.vf vf).away = false) (idx : Nat) : exec (.resume vf idx) s = .next { s with m := fresResume vf idx s.m } := by
  show execResume vf idx s = _
  rw [execResume, onMach, keepAway_loaded h]

theorem resume_block {idx : Nat} {z : EngFault} {k : Kick} (h : (s.m.vf vf).away = false) (hz : s.m.engFault? vf idx = some z) (hkind : z.kind = 1)
    (hk : (s.m.core z.column z.core).kicks.find? (fun k => k.gid == z.gid && k.off == z.off && k.faulted) = some k) :
    exec (.resume vf idx) s = .next { s with m := s.m.blockResumed vf idx z k } := by
  rw [resume_loaded h, fresResume_block hz hkind hk]

theorem resume_away (h : (s.m.vf vf).away = true) (idx : Nat) :
    exec (.resume vf idx) s = .next { s with m := s.m.onVf vf fun r => { r with held := r.held ++ [.resume vf idx] } } := by
  show execResume vf idx s = _
  rw [execResume, onMach, keepAway_away h]

theorem fresStop_away (h : (s.m.vf vf).away = true) (idx : Nat) :
    exec (.fresStop vf idx) s = .next { s with m := s.m.onVf vf fun r => { r with held := r.held ++ [.fresStop vf idx] } } := by
  show execFresStop vf idx s = _
  rw [execFresStop, onMach, keepAway_away h]

theorem fresStop_loaded {idx : Nat} {z : EngFault} {g : Group} (h : (s.m.vf vf).away = false) (hz : s.m.engFault? vf idx = some z)
    (hg : s.m.group? z.gid = some g) :
    exec (.fresStop vf idx) s = .next { s with m := (s.m.dropFault vf idx).queueStop vf g.env.fdroot Cause.xlate.code } := by
  show execFresStop vf idx s = _
  rw [execFresStop, onMach, keepAway_loaded h]
  simp only [fresStop, hz, hg]

/-! ### Freezes -/

theorem stop_logged {entry i : Nat} {z : Frz} {g : Group} (ho : Open s vf) (hz : (s.m.vf vf).frzlog.find? (fun e => e.1 == entry) = some (i, z))
    (hg : frzMaster s.cfg vf z s.m = some g) :
    exec (.stop vf entry) s = .next { s with m := s.m.queueStop vf g.env.fdroot Cause.space.code } := by
  show execStop vf entry s = _
  simp only [execStop, vfMach_open ho, hz, hg]

theorem stop_unused {entry : Nat} (ho : Open s vf) (hnone : (s.m.vf vf).frzlog.find? (fun e => e.1 == entry) = none) :
    exec (.stop vf entry) s = .next s := by
  show execStop vf entry s = _
  simp only [execStop, vfMach_open ho, hnone]

theorem discard_unused {entry : Nat} (ho : Open s vf) (hnone : (s.m.vf vf).frzlog.find? (fun e => e.1 == entry) = none) :
    exec (.discard vf entry) s = .next s := by
  show execDiscard vf entry s = _
  simp only [execDiscard, vfMach_open ho, hnone]

/-- Where no master waits for an entry of the freeze log, none takes one (R324). -/
theorem frzRefill_idle {m : Mach} (h : (m.vf vf).frzwait = []) (n : Nat) : m.frzRefill vf n = m := by
  cases n <;> simp only [Mach.frzRefill, h]

theorem unfreeze_vfs (m : Mach) (z : Frz) : (m.unfreeze z).vfs = m.vfs := by
  unfold Mach.unfreeze
  split <;> rfl

/-- A group whose freeze has ended (R325). -/
def Group.thawed (g : Group) : Group := { g with frozen := false, offence := none }

theorem unfreeze_group? {m : Mach} {z : Frz} {g : Group} (hkind : z.kind = 0) (hg : m.group? z.gid = some g) :
    (m.unfreeze z).group? z.gid = some g.thawed := by
  have hthaw : m.unfreeze z = m.onGroup z.gid Group.thawed := by
    simp only [Mach.unfreeze, hkind]
    rfl
  rw [hthaw, Mach.group?_onGroup _ _ _ Group.thawed fun _ => rfl, if_pos rfl, hg, Option.map_some]

/-- A function whose entry `i` of the freeze log is not in use. -/
def Vf.clearEntry (r : Vf) (i : Nat) : Vf := { r with frzlog := r.frzlog.filter fun e => e.1 != i }

/-- The machine once a master's offence is dropped and its entry of the freeze log cleared; and whether another freeze names the master (R324, R325). -/
def discarded (cfg : Cfg) (vf i : Nat) (z : Frz) (m : Mach) : Mach := (discardOffence cfg z m).onVf vf (·.clearEntry i)
def Mach.namesMaster (m : Mach) (vf : Nat) (z : Frz) : Bool := ((m.vf vf).frzlog.map (·.2) ++ (m.vf vf).frzwait).any z.sameMaster

theorem discard_logged {entry i : Nat} {z : Frz} (ho : Open s vf) (hz : (s.m.vf vf).frzlog.find? (fun e => e.1 == entry) = some (i, z)) :
    exec (.discard vf entry) s = .next { s with
      m := (if (discarded s.cfg vf i z s.m).namesMaster vf z then discarded s.cfg vf i z s.m else (discarded s.cfg vf i z s.m).unfreeze z).frzRefill vf 16 } := by
  show execDiscard vf entry s = _
  simp only [execDiscard, vfMach_open ho, hz]
  rfl

/-- The offence of a frozen group that is no committed store is answered with 0; its group stays under its handle (R325). -/
theorem discardOffence_group {m : Mach} {z : Frz} {g : Group} (cfg : Cfg) (hkind : z.kind = 0) (hg : m.group? z.gid = some g)
    (hcommit : ∀ a, g.offence = some a → a.commit = false) :
    (discardOffence cfg z m).vfs = m.vfs ∧ ∃ g', (discardOffence cfg z m).group? z.gid = some g' := by
  cases hoff : g.offence with
  | none => simp [discardOffence, hkind, hg, hoff]
  | some a =>
    have hanswer : discardOffence cfg z m = m.deliverValue a 0 := by
      simp only [discardOffence, hkind, hg, Option.bind_some, hoff, hcommit a hoff, Bool.false_eq_true, if_false]
    rw [hanswer]
    refine ⟨rfl, ?_⟩
    rw [Mach.deliverValue, Mach.onThread, Mach.group?_onGroup _ _ _ (·.onThread a.tid fun t => t.fillDsts a.dsts 0 a.spec) fun _ => rfl, hg]
    split <;> exact ⟨_, rfl⟩

/-- DISCARD of a group's freeze, which no other freeze names: the group goes on with no offence, and its entry alone is cleared (R325). -/
theorem discard_thaws {entry i : Nat} {z : Frz} {g : Group} (ho : Open s vf) (hz : (s.m.vf vf).frzlog.find? (fun e => e.1 == entry) = some (i, z))
    (hwait : (s.m.vf vf).frzwait = []) (hkind : z.kind = 0) (hg : s.m.group? z.gid = some g) (hcommit : ∀ a, g.offence = some a → a.commit = false)
    (hothers : ∀ e ∈ (s.m.vf vf).frzlog, e.1 ≠ i → z.sameMaster e.2 = false) :
    ∃ t g', exec (.discard vf entry) s = .next t ∧ t.m.group? z.gid = some g' ∧ g'.frozen = false ∧ g'.offence = none
      ∧ (t.m.vf vf).frzlog = (s.m.vf vf).frzlog.filter fun e => e.1 != i := by
  obtain ⟨hregs, g', hg'⟩ := discardOffence_group s.cfg hkind hg hcommit
  have hvf : (discarded s.cfg vf i z s.m).vf vf = (s.m.vf vf).clearEntry i := by
    rw [discarded, vf_onVf, Mach.vf, hregs, Mach.vf]
  have halone : (discarded s.cfg vf i z s.m).namesMaster vf z = false := by
    rw [Mach.namesMaster, hvf, Vf.clearEntry, hwait, List.append_nil, List.any_map, List.any_eq_false]
    intro e he
    obtain ⟨hlog, hne⟩ := List.mem_filter.1 he
    rw [Function.comp_apply, hothers e hlog (bne_iff_ne.1 hne)]
    exact Bool.false_ne_true
  have hthawed : ((discarded s.cfg vf i z s.m).unfreeze z).vf vf = (s.m.vf vf).clearEntry i := by
    rw [Mach.vf, unfreeze_vfs]
    exact hvf
  have hidle : (((discarded s.cfg vf i z s.m).unfreeze z).vf vf).frzwait = [] := by
    rw [hthawed]
    exact hwait
  have hend : exec (.discard vf entry) s = .next { s with m := (discarded s.cfg vf i z s.m).unfreeze z } := by
    rw [discard_logged ho hz, halone, if_neg Bool.false_ne_true, frzRefill_idle hidle]
  refine ⟨_, _, hend, unfreeze_group? (m := discarded s.cfg vf i z s.m) hkind hg', rfl, rfl, ?_⟩
  rw [hthawed]
  rfl

end

/-- Settles O48, one answer of the driver at a time; that INV2 drops every translation of its function is log entry 13, the cause of FRES STOP log entry 39. -/
theorem driverEndsFaultsAndFreezes : Obligations.DriverEndsFaultsAndFreezes := by
  refine ⟨fun s vf value => ⟨_, invalPage_done s vf value, invalidate_invseq _ _ _, fun e he hvf => ?_, fun e he hkept => ?_⟩,
    fun s vf => ⟨_, invalAll_done s vf, invalidate_invseq _ _ _, fun e he hvf => ?_, fun e he hvf => ?_⟩,
    fun s vf value hop => ⟨_, inv2_done hop, ?_, fun e he => ((mem_inv2Done_tlb _ _ _).1 he).2, fun e he hvf => (mem_inv2Done_tlb _ _ _).2 ⟨he, hvf⟩⟩,
    fun s vf idx z k hhere hz hkind hk => ⟨_, resume_block hhere hz hkind hk, ?_⟩, fun s vf idx haway => ⟨resume_away haway idx, fresStop_away haway idx⟩,
    fun s vf idx z g hhere hz hg => fresStop_loaded hhere hz hg, fun s vf entry i z g ho hz hg => stop_logged ho hz hg,
    fun s vf entry i z g ho hz hwait hkind hg hcommit hothers => discard_thaws ho hz hwait hkind hg hcommit hothers,
    fun s vf entry ho hnone => ⟨discard_unused ho hnone, stop_unused ho hnone⟩⟩
  · obtain ⟨p, hp, hcov⟩ := ((mem_invalidate_tlb _ _ _ _).1 he).2 hvf
    cases hp
    exact hcov
  · exact (mem_invalidate_tlb _ _ _ _).2 ⟨he, fun hvf => ⟨_, rfl, hkept.resolve_left (not_not_intro hvf)⟩⟩
  · obtain ⟨p, hp, -⟩ := ((mem_invalidate_tlb _ _ _ _).1 he).2 hvf
    cases hp
  · exact (mem_invalidate_tlb _ _ _ _).2 ⟨he, fun h => absurd h hvf⟩
  · rw [Mach.inv2Done, vf_onVf]
    rfl
  · refine ⟨blockResumed_vf .., ?_, congrArg Core.kicks (blockResumed_core ..), blockResumed_smem ..⟩
    rw [blockResumed_vf]
    exact dropFault_faults hz

end Sys2Proof.Machine
end

section
/-! PROOFS. Firmware and fuses (18 R345, R346; 19 R360, R361): the check of an image, staging, the fuses, attestation, boot. -/

namespace Sys2Proof.Machine

/-! ### The check of an image -/

/-- A stage that passes is signed by a key that is not revoked, and is not older than the fused counter (R345). -/
theorem checkStage_passes {f : Fuses} {img : List Byte} {key : Nat} (h : checkStage f img = .ok key) :
    key < 4 ∧ f.revoked.getLsbD key = false ∧ f.rollback ≤ Config.imageVersion img := by
  unfold checkStage at h
  split at h
  · cases h
  · split at h
    · cases h
    · next hfound =>
      split at h
      · cases h
      · next hnew =>
        cases h
        have hlive := List.find?_some hfound
        rw [Bool.and_eq_true, Bool.not_eq_true'] at hlive
        exact ⟨List.mem_range.1 (List.mem_of_find?_eq_some hfound), hlive.1, Nat.not_lt.1 hnew⟩

/-- The STATUS of a stage that fails: its signature, or its version (Table 19.4). -/
theorem checkStage_fails {f : Fuses} {img : List Byte} {e : Nat} (h : checkStage f img = .error e) : e = 3 ∨ e = 4 := by
  unfold checkStage at h
  split at h
  · cases h
    exact Or.inl rfl
  · split at h
    · cases h
      exact Or.inl rfl
    · split at h
      · cases h
        exact Or.inr rfl
      · cases h

section
variable {s : State}

/-! ### Staging -/

theorem go_stages (h : s.fleet.fwstatus ≠ 1) : exec .go s = .next { s with fleet := { s.fleet with fwstatus := 1, staging := true } } := by
  show execGo s = _
  rw [execGo, if_neg h]

theorem firmwareStageDone_passes {key : Nat} (h : s.fleet.staging = true)
    (hok : checkStage s.fleet.fuses (readList s.m.hmem s.fleet.fwsrc s.fleet.fwlen) = .ok key) : exec .firmwareStageDone s = .next { s with
      m := s.m.raisePf 3
      fleet := { s.fleet with staging := false, fwstatus := 2, staged := some (readList s.m.hmem s.fleet.fwsrc s.fleet.fwlen) } } := by
  show execFirmwareStageDone s = _
  simp only [execFirmwareStageDone, h, hok, Bool.not_true, Bool.false_eq_true, if_false]

theorem firmwareStageDone_fails {e : Nat} (h : s.fleet.staging = true)
    (hbad : checkStage s.fleet.fuses (readList s.m.hmem s.fleet.fwsrc s.fleet.fwlen) = .error e) : exec .firmwareStageDone s = .next { s with
      m := s.m.raisePf 3, fleet := { s.fleet with staging := false, fwstatus := e } } := by
  show execFirmwareStageDone s = _
  simp only [execFirmwareStageDone, h, hbad, Bool.not_true, Bool.false_eq_true, if_false]

/-! ### Fuses -/

/-- A key that is revoked joins those that are (R361). -/
theorem revoked_getLsbD (r : BitVec 4) (key : Nat) {i : Nat} (hi : i < 4) : (r ||| BitVec.ofNat 4 (2 ^ key)).getLsbD i = (r.getLsbD i || i == key) := by
  rw [BitVec.getLsbD_or, BitVec.getLsbD_ofNat, Nat.testBit_two_pow, decide_eq_true hi, Bool.true_and, beq_eq_decide, decide_eq_decide.2 eq_comm]

theorem revoke_blows {key : Nat} (h : revokeRefused s.fleet key = false) : exec (.revoke key) s = .next { s with
    m := s.m.raisePf 3
    fleet := { s.fleet with rkey := key, fuses := { s.fleet.fuses with revoked := s.fleet.fuses.revoked ||| BitVec.ofNat 4 (2 ^ key) } } } := by
  show execRevoke key s = _
  have hkey : revokeRefused { s.fleet with rkey := key } key = false := h
  simp only [execRevoke, hkey, Bool.false_eq_true, if_false]

theorem revoke_refused {key : Nat} (h : revokeRefused s.fleet key = true) : exec (.revoke key) s = .next { s with
    m := s.m.raisePf 3, fleet := { s.fleet with rkey := key, fwstatus := 5, staging := false } } := by
  show execRevoke key s = _
  have hkey : revokeRefused { s.fleet with rkey := key } key = true := h
  simp only [execRevoke, hkey, if_true]

/-! ### Attestation -/

theorem attctlGo_begins (h : s.fleet.attctl ≠ 1) : exec .attctlGo s = .next { s with fleet := { s.fleet with attctl := 1 } } := by
  show execAttctlGo s = _
  rw [execAttctlGo, if_neg h]

theorem attestationReport_writes (hbusy : s.fleet.attctl = 1) (hbuf : s.fleet.attbuf ≠ 0) : exec .attestationReport s = .next { s with
    m := (hostBytes s.m s.fleet.attbuf (reportBytes s.fleet s.m.module)).raisePf 4, fleet := { s.fleet with attctl := 2 } } := by
  show execAttestationReport s = _
  rw [execAttestationReport, if_neg (not_not_intro hbusy), if_neg hbuf]

theorem attestationReport_refused (hbusy : s.fleet.attctl = 1) (hbuf : s.fleet.attbuf = 0) : exec .attestationReport s = .next { s with
    m := s.m.raisePf 4, fleet := { s.fleet with attctl := 3 } } := by
  show execAttestationReport s = _
  rw [execAttestationReport, if_neg (not_not_intro hbusy), if_pos hbuf]

theorem raisePf_hmem (m : Mach) (b : Nat) : (m.raisePf b).hmem = m.hmem := by rw [raisePf_keeps]

/-- Byte `i` of a list written from `a` on. -/
theorem byteAt_writeList_in {bs : List Byte} {i : Nat} {v : Byte} (m : Mem) (a : Nat) (h : bs[i]? = some v) : byteAt (writeList m a bs) (a + i) = v := by
  induction bs generalizing m a i with
  | nil => cases h
  | cons b bs ih =>
    cases i with
    | zero =>
      cases h
      rw [Nat.add_zero, writeList, byteAt_writeList_out _ _ _ (Or.inl (Nat.lt_succ_self a)), byteAt_setByte_same]
    | succ i =>
      rw [writeList, show a + (i + 1) = a + 1 + i by omega]
      exact ih _ _ h

/-! ### Boot -/

theorem boot_boots (hboot : s.fleet.booted = false) (herr : s.fleet.bootError = 0) : exec .boot s = .next (bootState s) := by
  show execBoot s = _
  rw [execBoot, hboot, herr, if_neg]
  simp

end

/-- Settles O50, one event at a time; the layout of the report is log entry 16. -/
theorem firmwareIsChecked : Obligations.FirmwareIsChecked := by
  refine ⟨fun s h => go_stages h, fun s h => ?_, fun f img => ?_, fun s => ⟨_, rfl, rfl, rfl, rfl⟩,
    fun s key hkey h => ⟨_, revoke_blows h, rfl, rfl, fun i hi => revoked_getLsbD _ key hi⟩, fun s key h => ⟨_, revoke_refused h, rfl, rfl⟩,
    fun s h => attctlGo_begins h, fun s hbusy hbuf _ => ⟨_, attestationReport_writes hbusy hbuf, rfl, fun i v hv => ?_⟩,
    fun s hbusy hbuf => attestationReport_refused hbusy hbuf, fun s hboot herr => boot_boots hboot herr, fun code f => rfl, fun code f img rest => ?_⟩
  · cases hc : checkStage s.fleet.fuses (readList s.m.hmem s.fleet.fwsrc s.fleet.fwlen) with
    | ok key => exact firmwareStageDone_passes h hc
    | error e => exact firmwareStageDone_fails h hc
  · cases h : checkStage f img with
    | ok key => exact checkStage_passes h
    | error e => exact checkStage_fails h
  · show byteAt (Mach.raisePf _ 4).hmem _ = v
    rw [raisePf_hmem, hostBytes_hmem]
    exact byteAt_writeList_in _ _ hv
  · cases h : checkStage f.fuses img with
    | ok key => simp only [bootFrom, h]
    | error e => simp only [bootFrom, h, and_self]

end Sys2Proof.Machine
end

section
/-! PROOFS. Words written out from the encoding tables (03 Tables 03.1 to 03.5; 04 Tables 04.2, 04.4). -/

namespace Sys2Proof.Machine

/-- Settles O53: the decoder evaluates each word to the instruction of its row. -/
theorem wordsOfTheEncodingTablesDecode : Obligations.WordsOfTheEncodingTablesDecode :=
  ⟨rfl, rfl, rfl, rfl, rfl, rfl, rfl, rfl, rfl, rfl, rfl, rfl, rfl, rfl, rfl, rfl, rfl⟩

end Sys2Proof.Machine
end
